-- ==== Sys2Proof/Word.lean ====
section
/-! DEFINITION. The word types of the device: a register word of 32 bits, a byte, a table from numbers to records. -/

namespace Sys2Proof

/-- A 32-bit register word (R39). -/
abbrev Word := BitVec 32

/-- A byte of memory. -/
abbrev Byte := BitVec 8

/-- One bit per lane, bit k for lane k (R43). -/
abbrev Mask := BitVec 32

/-- A table: entries by number, at most one used for a number, the first (accessors in Machine/Bits.lean). -/
abbrev Tbl (α : Type) := List (Nat × α)

/-- A V register's line: the words of lanes 0 to 31 (R39). -/
abbrev Line := List Word

end Sys2Proof
end

