-- ==== Sys2Proof/Config.lean ====
section
/-! DEFINITION. The free values of the specification: constants without a body, of which nothing can be proved. -/

namespace Sys2Proof.Config

/-- A 32-bit value the specification leaves open, named by a number (log entry 6). -/
opaque freeWord : Nat → BitVec 32

/-- A byte the specification leaves open, named by a number (log entry 6). -/
opaque freeByte : Nat → BitVec 8

/-- Whether FRCP answers the upper of the two FP32 neighbours of 1/a (R26, log entry 11). -/
opaque frcpUp : BitVec 32 → Bool

/-- Whether FRSQ answers the upper of the two FP32 neighbours of 1/√a (R26, log entry 11). -/
opaque frsqUp : BitVec 32 → Bool

/-- The 64 bytes of a key, by its number: those of its data half, then those of its tweak half (R57, R111, log entry 10). -/
opaque xtsKey : Nat → BitVec 512

/-- Whether the module maker of a bare package fits a slice with 32 GiB instead of 16 (R1, log entry 1). -/
opaque fitted32 : Nat → Bool

/-- The power limit that the module design of a bare package sets, in watts (R1, log entry 1). -/
opaque modulePower : Nat

/-- The Celile port through which a package, by FDEV, is reached (R196, log entry 13). -/
opaque fabRoute : Nat → Fin 12

/-- What the host answers to an ATS request for an access of the device's own: reads and writes granted, by partition, PASID,
page and time (R106, log entry 15). -/
opaque atsAnswer : Nat → Nat → Nat → Nat → Bool × Bool

/-- Whether a package refuses an access to a page of its exported space (R108, R197, log entry 13). -/
opaque fabRefuses : Nat → Nat → Nat → Bool

/-- The bytes an SPDM measurement block holds for given content (R195, log entry 12). -/
opaque spdmDigest : List Nat → BitVec 256

/-- The signature or key material an SPDM answer carries (R195, log entry 12). -/
opaque spdmKey : List Nat → BitVec 256

/-- The ATYPE of an entry whose fault is no access of a kind R102 lists, by cause and PC (R148, log entry 6). -/
opaque noAtype : Nat → Nat → BitVec 8

/-- The SIZE of an entry whose fault is no access, by cause and PC (R148, log entry 6). -/
opaque noSize : Nat → Nat → BitVec 16

/-- The VA of an entry for which the specification names none, by cause and PC (R148, R164, log entry 6). -/
opaque noVa : Nat → Nat → BitVec 64

/-- The fields of an import entry's 16 bytes, whose layout the specification does not give (R198, log entry 14): VALID in bit
[61], then PRIO, world, ASID, last TAG, first TAG, partition and FDEV down to bit 0. -/
opaque importForm : BitVec 128 → BitVec 62

end Sys2Proof.Config
end

