-- ==== Sys2Proof/Machine/Bits.lean ====
section
/-! DEFINITION. Bit fields, sign extension, byte order, lanes, masks and tables: the plain helpers of every other file. -/

namespace Sys2Proof

/-- Bits [lo + n - 1 : lo] of a number. -/
def bitsAt (w lo n : Nat) : Nat := w / 2 ^ lo % 2 ^ n

/-- Bit i of a number. -/
def bitAt (w i : Nat) : Bool := w / 2 ^ i % 2 == 1

/-- A number with bits [lo + n - 1 : lo] replaced. -/
def setBits (w lo n v : Nat) : Nat :=
  w / 2 ^ (lo + n) * 2 ^ (lo + n) + v % 2 ^ n * 2 ^ lo + w % 2 ^ lo

/-- Bits [lo + n - 1 : lo] of a register of any width. -/
def bvF {m : Nat} (x : BitVec m) (lo n : Nat) : Nat := bitsAt x.toNat lo n

/-- A register with bits [lo + n - 1 : lo] replaced. -/
def bvSet {m : Nat} (x : BitVec m) (lo n v : Nat) : BitVec m := BitVec.ofNat m (setBits x.toNat lo n v)

/-- The signed reading of an n-bit immediate, as a word. -/
def sxImm (n v : Nat) : Word := BitVec.ofInt 32 (if v < 2 ^ (n - 1) then (v : Int) else (v : Int) - 2 ^ n)

/-- The little-endian bytes of a number, n of them. -/
def leBytes : Nat → Nat → List Byte
  | 0, _ => []
  | n + 1, v => BitVec.ofNat 8 v :: leBytes n (v / 256)

/-- The number that little-endian bytes stand for. -/
def leNat : List Byte → Nat
  | [] => 0
  | b :: bs => b.toNat + 256 * leNat bs

/-- The value of a lane of a line; a missing word reads 0. -/
def laneOf (l : Line) (k : Nat) : Word := l.getD k 0

/-- A line from its lanes' words. -/
def mkLine (f : Nat → Word) : Line := (List.range 32).map f

/-- Bit k of a mask. -/
def mHas (m : Mask) (k : Nat) : Bool := m.getLsbD k

/-- A mask from its bits. -/
def mkMask (f : Nat → Bool) : Mask :=
  BitVec.ofNat 32 ((List.range 32).foldl (fun acc k => if f k then acc + 2 ^ k else acc) 0)

/-- The lanes of a mask, in ascending order. -/
def mLanes (m : Mask) : List Nat := (List.range 32).filter (mHas m)

/-- The lowest lane of a mask; 32 when it is empty. -/
def mLow (m : Mask) : Nat := (mLanes m).headD 32

/-- The number of lanes of a mask. -/
def mCount (m : Mask) : Nat := (mLanes m).length

/-- A line in which the lanes of a mask take new words. -/
def mergeLine (m : Mask) (new old : Line) : Line :=
  mkLine fun k => if mHas m k then laneOf new k else laneOf old k

/-- An element of a list, with a default beyond its end. -/
def nth {α : Type} (l : List α) (i : Nat) (d : α) : α := l.getD i d

/-- A list of n elements, the i-th replaced. -/
def setNth {α : Type} (n : Nat) (l : List α) (i : Nat) (v d : α) : List α :=
  (List.range n).map fun j => if j = i then v else l.getD j d

/-- The entry of a number. -/
def tGet? {α : Type} (t : Tbl α) (k : Nat) : Option α := (t.find? fun p => p.1 == k).map (·.2)

/-- The entry of a number, or a default. -/
def tGetD {α : Type} (t : Tbl α) (k : Nat) (d : α) : α := (tGet? t k).getD d

/-- The table with a number's entry written. -/
def tPut {α : Type} (t : Tbl α) (k : Nat) (v : α) : Tbl α :=
  match t with
  | [] => [(k, v)]
  | (j, x) :: r => if j = k then (k, v) :: r else if k < j then (k, v) :: (j, x) :: r else (j, x) :: tPut r k v

/-- The table without a number's entry. -/
def tDel {α : Type} (t : Tbl α) (k : Nat) : Tbl α := t.filter fun p => p.1 != k

/-- The table with a number's entry changed, where it has one. -/
def tUpd {α : Type} (t : Tbl α) (k : Nat) (f : α → α) : Tbl α :=
  t.map fun p => if p.1 = k then (p.1, f p.2) else p

/-- The table with every entry changed. -/
def tMap {α : Type} (t : Tbl α) (f : Nat → α → α) : Tbl α := t.map fun p => (p.1, f p.1 p.2)

/-- The entries that satisfy a test, in ascending order of their numbers as written. -/
def tSel {α : Type} (t : Tbl α) (f : Nat → α → Bool) : List (Nat × α) := t.filter fun p => f p.1 p.2


/-- The sum of a list of numbers. -/
def sumNat (l : List Nat) : Nat := l.foldl (· + ·) 0

/-- n rounded up to a multiple of m. -/
def roundUp (n m : Nat) : Nat := (n + m - 1) / m * m

end Sys2Proof
end

