-- ==== Sys2Proof/Syntax.lean ====
section
/-! DEFINITION. The instructions and events of the device: one constructor for each row of spec/opcode_table.json. -/

namespace Sys2Proof

/-- Guard and switch marker of an encoded word (R213, R40, R67): `g = 7` is unguarded. -/
structure Hd where
  sw : Bool
  g : Fin 8
  deriving DecidableEq, Repr

/-- A V or S register number. -/
abbrev R64 := Fin 64

/-- A P or Q register number. -/
abbrev R8 := Fin 8

/-- Rounding modes of R20, by the code of M. -/
inductive Rm where
  | rne | rz | ru | rd
  deriving DecidableEq, Repr

/-- IADD, ISUB, SADD, SSUB: wrap, signed or unsigned saturation (R231). -/
inductive Sat where
  | wrap | ss | us
  deriving DecidableEq, Repr

/-- SMUL: low word, signed or unsigned high word (R274). -/
inductive MulPart where
  | lo | hi | hiu
  deriving DecidableEq, Repr

/-- Comparison relations of R214, CC 0 to 6; `un` is FCMP's alone. -/
inductive Cc where
  | eq | ne | lt | le | gt | ge | un
  deriving DecidableEq, Repr

/-- PLOG and QLOG operations (R235). -/
inductive LogOp where
  | and | or | xor | andn | orn | xnor | not
  deriving DecidableEq, Repr

/-- FSGN's choice of sign (R239). -/
inductive SgnOp where
  | copy | inv | xor
  deriving DecidableEq, Repr

/-- CVT selectors (R244); `hi` reads the half in a[31:16]. -/
inductive CvtOp where
  | i32F32 | u32F32 | i8F32 | intF32 | f32I32 | f32U32 | f32I8 | f16F32 | bf16F32
  | f32F16 (hi : Bool) | f32BF16 (hi : Bool) | f32L6 | f16SR | bf16SR
  deriving DecidableEq, Repr

/-- CVTF8 selectors (R245). -/
inductive Cvt8Op where
  | narrow (e5m2 : Bool) (sr : Bool)
  | widen (e5m2 : Bool) (j : Fin 4)
  deriving DecidableEq, Repr

/-- SCLX selectors (R246). -/
inductive SclxOp where
  | e4m3 | e5m2 | l6 | i8 | apply
  deriving DecidableEq, Repr

/-- Access sizes of SZ: 1, 2, 4, 8 bytes (R214). -/
inductive Sz where
  | b1 | b2 | b4 | b8
  deriving DecidableEq, Repr

/-- Scopes of R115. -/
inductive Scope where
  | co | cn | dv | sy
  deriving DecidableEq, Repr

/-- Order codes of R118. -/
inductive Ord4 where
  | rlx | acq | rel | ar
  deriving DecidableEq, Repr

/-- ATADD operand types (R216). -/
inductive AddVar where
  | i32 | f32 | i64
  deriving DecidableEq, Repr

/-- ATMAX operations (R216). -/
inductive MaxVar where
  | maxS | maxU | maxF | minS | minU | minF
  deriving DecidableEq, Repr

/-- ATEXCH and ATCAS widths (R216). -/
inductive WVar where
  | w32 | w64
  deriving DecidableEq, Repr

/-- ATLOG operations (R216). -/
inductive LogVar where
  | and | or | xor
  deriving DecidableEq, Repr

/-- SHFL modes (R259). -/
inductive ShflOp where
  | lane | step | rank | flip
  deriving DecidableEq, Repr

/-- VOTE operations (R260). -/
inductive VoteOp where
  | any | all | mask | maskRank | same
  deriving DecidableEq, Repr

/-- REDL and SCANL operations (R261). -/
inductive RedOp where
  | iadd | imin | imax | iminU | imaxU | and | or | xor | fadd | fmin | fmax
  deriving DecidableEq, Repr

/-- OWNQ forms (R263). -/
inductive OwnqOp where
  | slot | mask | rank | count
  deriving DecidableEq, Repr

/-- AROW operations (R306). -/
inductive RowOp where
  | sum | max | min | maxx
  deriving DecidableEq, Repr

/-- What an access does to its location: a read, a write, an atomic that returns, a reduction (R102). -/
inductive Acc where
  | read | write | atom | red
  deriving DecidableEq, Repr

/-- An atomic's operation with the operation's operands at the location (R256). -/
inductive AtOp where
  | add32 | add64 | addF | maxS | maxU | maxF | minS | minU | minF | exch32 | exch64 | cas32 | cas64 | and | or | xor
  deriving DecidableEq, Repr

/-- Who makes a slice request that is no lane's: a requester row of the connection matrix (R156). -/
structure SliceReq where
  row : Nat
  part : Nat
  world : Nat
  acc : Acc
  op : AtOp
  pa : Nat
  size : Nat
  data : List Byte
  data2 : List Byte
  deriving DecidableEq, Repr

/-- What a member of a collective round brings to a chunk (R310, R311): its rank, the terms it agrees to, its bytes
and the numbers of the 32-byte sectors among them that are poisoned.
`answers` is false for a member that gave no answer within the timeout. -/
structure PeerPart where
  rank : Nat
  answers : Bool
  kind : Nat
  fmt : Nat
  rop : Nat
  count : Nat
  members : Nat
  root : Nat
  bytes : List Byte
  poison : List Nat
  deriving DecidableEq, Repr

/-- A unit that an uncorrectable error strikes (R170); `corrected` is an error that a tile's check codes corrected (R173). -/
inductive ErrUnit where
  | sector (slice : Nat) (local_ : Nat)
  | scratch (pcn : Nat) (offset : Nat)
  | line (cid : Nat) (v : R64)
  | granule (cid : Nat) (g : R8)
  | pred (cid : Nat)
  | accBlock (pcn quad group cb : Nat)
  | scale (pcn quad col group : Nat)
  | corrected (tile : Fin 96)
  | hubDie
  deriving DecidableEq, Repr

/-- The control state that an error corrupts (R173). -/
inductive CtlUnit where
  | slot (cid : Nat)
  | barrier (consort : Nat)
  | ticket (consort : Nat)
  | chisel (pcn quad : Nat)
  | copyEngine (pcn : Nat)
  | collPort (pcn : Nat)
  | actUnit (pcn : Nat)
  deriving DecidableEq, Repr

/-- What the hub finds at each bring-up step (R201). -/
structure BringUp where
  secureBoot : Bool
  hubStart : Bool
  meshTrain : Bool
  badTiles : List Nat
  badChannels : List Nat
  ports : List (Nat × Nat)
  fdev : Nat
  deriving DecidableEq, Repr

/-- Where a flit of another package comes in: a Celile port, the FDEV of the package that sent it, and the flit's sequence number on the
link (R196). -/
structure FabDev where
  port : Fin 12
  fdev : Nat
  seq : Nat
  deriving DecidableEq, Repr

/-- A receiver that finds a flit's CRC bad: this device's at a port, or the one at the link's other end, which asks this device for
replay from a sequence number (R196). -/
structure FlitError where
  port : Fin 12
  far : Option Nat
  deriving DecidableEq, Repr

/-- A port to be reset, with the versions that the other end advertises when the link is back; 0 tells that it is not back in time
(R178, R199). -/
structure LinkReset where
  port : Fin 12
  versions : Nat
  deriving DecidableEq, Repr

/-- What the host's ATS answer grants: reads and writes (R106). -/
structure Grant where
  r : Bool
  w : Bool
  deriving DecidableEq, Repr

/-- A hub core that stores to HSIG, with the partitions that hub firmware lets it serve (R333). -/
structure HubAgent where
  core : Fin 8
  serves : List Nat
  deriving DecidableEq, Repr

/-- A key exchange's encapsulation key and what the session is for: a Celile link, else the IDE streams (R195, R196). -/
structure KeyOffer where
  link : Option (Fin 12)
  peer : BitVec 256
  deriving DecidableEq, Repr

/-- A unit that a first touch claims (R70). -/
inductive Unit70 where
  | scratch (pcn block : Nat)
  | rows (pcn quad group : Nat)
  deriving DecidableEq, Repr

/-- Whose next request gets no reply (R168, R336): a course's accesses, its fetch, an engine operation's transfer, an engine
operation's page walk, the device's own accesses for a partition. -/
inductive Requester where
  | course | fetch | engine | engineWalk | device
  deriving DecidableEq, Repr

/-- A mailbox's origin: the function whose doorbell is pending (R192). -/
abbrev FnNo := Fin 64

/-- One constructor per row of the opcode table: the encoded instructions first, then the events. -/
inductive Instr where
  -- lane instructions, integer (R231, R233, R234, R236)
  | iadd (h : Hd) (d a b : R64) (m : Sat)
  | isub (h : Hd) (d a b : R64) (m : Sat)
  | imul (h : Hd) (d a b : R64)
  | imulh (h : Hd) (d a b : R64) (u : Bool)
  | imad (h : Hd) (d a b : R64)
  | imin (h : Hd) (d a b : R64) (u : Bool)
  | imax (h : Hd) (d a b : R64) (u : Bool)
  | iabs (h : Hd) (d a : R64) (sat : Bool)
  | and (h : Hd) (d a b : R64)
  | or (h : Hd) (d a b : R64)
  | xor (h : Hd) (d a b : R64)
  | andn (h : Hd) (d a b : R64)
  | shl (h : Hd) (d a b : R64)
  | shr (h : Hd) (d a b : R64)
  | sar (h : Hd) (d a b : R64)
  | rotl (h : Hd) (d a b : R64)
  | popc (h : Hd) (d a : R64)
  | clz (h : Hd) (d a : R64)
  | brev (h : Hd) (d a : R64)
  | bfx (h : Hd) (d a b : R64) (s : Bool)
  | bfi (h : Hd) (d a b : R64)
  | sel (h : Hd) (d a b : R64) (n : Fin 4)
  | icmp (h : Hd) (p : R8) (c : Cc) (a b : R64) (u : Bool)
  | lea (h : Hd) (d a b : R64) (x : Fin 4)
  | iaddi (h : Hd) (d a : R64) (i : Fin 256)
  | imuli (h : Hd) (d a : R64) (i : Fin 256)
  | andi (h : Hd) (d a : R64) (i : Fin 256)
  | ori (h : Hd) (d a : R64) (i : Fin 256)
  | xori (h : Hd) (d a : R64) (i : Fin 256)
  | shli (h : Hd) (d a : R64) (i : Fin 32)
  | shri (h : Hd) (d a : R64) (i : Fin 32)
  | sari (h : Hd) (d a : R64) (i : Fin 32)
  | movi (h : Hd) (d : R64) (i : Fin 16384)
  | movl (h : Hd) (d : R64) (lit : Word)
  | mov (h : Hd) (d a : R64)
  | movs (h : Hd) (d a : R64)
  | plog (h : Hd) (p : R8) (o : LogOp) (a b : R8)
  | psetv (h : Hd) (p : R8) (a : R64)
  | pgetv (h : Hd) (d : R64) (a : R8) (m : Bool)
  | icmpi (h : Hd) (p : R8) (c : Cc) (a : R64) (i : Fin 256)
  -- lane instructions, floating point and conversion (R238 to R248)
  | fadd (h : Hd) (d a b : R64) (m : Rm)
  | fsub (h : Hd) (d a b : R64) (m : Rm)
  | fmul (h : Hd) (d a b : R64) (m : Rm)
  | fmac (h : Hd) (d a b : R64) (m : Rm)
  | fmin (h : Hd) (d a b : R64)
  | fmax (h : Hd) (d a b : R64)
  | fcmp (h : Hd) (p : R8) (c : Cc) (a b : R64)
  | fsgn (h : Hd) (d a b : R64) (o : SgnOp)
  | frcp (h : Hd) (d a : R64)
  | frsq (h : Hd) (d a : R64)
  | fsqrt (h : Hd) (d a : R64) (m : Rm)
  | fdiv (h : Hd) (d a b : R64) (m : Rm)
  | log2 (h : Hd) (d a : R64) (m : Rm)
  | exp2 (h : Hd) (d a : R64) (m : Rm)
  | fclass (h : Hd) (d a : R64)
  | cvt (h : Hd) (d a : R64) (o : CvtOp) (m : Rm)
  | hadd2 (h : Hd) (d a b : R64) (m : Rm)
  | hmul2 (h : Hd) (d a b : R64) (m : Rm)
  | hmac2 (h : Hd) (d a b : R64) (m : Rm)
  | fmaxx (h : Hd) (d a b : R64)
  | cvtl6 (h : Hd) (d a b : R64)
  | cvtf8 (h : Hd) (d a : R64) (o : Cvt8Op) (m : Rm)
  | sclx (h : Hd) (d a : R64) (o : SclxOp) (m : Rm)
  | rand (h : Hd) (d a b : R64) (u : Bool)
  -- lane memory, exchange and control (R250 to R269)
  | ld (h : Hd) (d a : R64) (z : Sz) (o : R64)
  | st (h : Hd) (d a : R64) (z : Sz) (o : R64)
  | ldacq (h : Hd) (d a : R64) (z : Sz) (sc : Scope)
  | strel (h : Hd) (d a : R64) (z : Sz) (sc : Scope)
  | lds (h : Hd) (d a : R64) (z : Sz) (o : R64)
  | sts (h : Hd) (d a : R64) (z : Sz) (o : R64)
  | ldl (h : Hd) (d a : R64) (z : Sz) (o : R64)
  | stl (h : Hd) (d a : R64) (z : Sz) (o : R64)
  | atadd (h : Hd) (sc : Scope) (r : Bool) (v : AddVar) (a b : R64) (o : Ord4)
  | atmax (h : Hd) (sc : Scope) (r : Bool) (v : MaxVar) (a b : R64) (o : Ord4)
  | atexch (h : Hd) (sc : Scope) (v : WVar) (a b : R64) (o : Ord4)
  | atcas (h : Hd) (sc : Scope) (v : WVar) (a b : R64) (o : Ord4)
  | atlog (h : Hd) (sc : Scope) (r : Bool) (v : LogVar) (a b : R64) (o : Ord4)
  | atadds (h : Hd) (cn : Bool) (r : Bool) (f : Bool) (a b : R64) (o : Ord4)
  | atcass (h : Hd) (cn : Bool) (a b : R64) (o : Ord4)
  | pref (h : Hd) (a : R64) (z : Sz) (o : R64)
  | shfl (h : Hd) (d a b : R64) (o : ShflOp)
  | vote (h : Hd) (d a : R64) (o : VoteOp)
  | redl (h : Hd) (d a : R64) (o : RedOp) (m : Rm)
  | scanl (h : Hd) (d a : R64) (o : RedOp) (ex : Bool) (m : Rm)
  | widx (h : Hd) (d : R64) (f : Fin 6) (hi : Bool)
  | ownq (h : Hd) (d : R64) (o : OwnqOp)
  | bra (h : Hd) (o : Fin 1048576)
  | brx (h : Hd) (a : R64)
  | call (h : Hd) (d : R64) (i : Fin 16384)
  | ret (h : Hd) (a : R64)
  | recon (h : Hd)
  | lexit (h : Hd)
  | trap (h : Hd) (i : Fin 16384)
  | nop (h : Hd)
  | bkpt (h : Hd) (i : Fin 16384)
  | spinh (h : Hd)
  -- uniform instructions (R274 to R289)
  | sadd (h : Hd) (d a b : R64) (m : Sat)
  | ssub (h : Hd) (d a b : R64) (m : Sat)
  | smul (h : Hd) (d a b : R64) (m : MulPart)
  | sand (h : Hd) (d a b : R64)
  | sor (h : Hd) (d a b : R64)
  | sxor (h : Hd) (d a b : R64)
  | sshl (h : Hd) (d a b : R64)
  | sshr (h : Hd) (d a b : R64)
  | ssar (h : Hd) (d a b : R64)
  | smin (h : Hd) (d a b : R64) (u : Bool)
  | smax (h : Hd) (d a b : R64) (u : Bool)
  | scmp (h : Hd) (p : R8) (c : Cc) (a b : R64) (u : Bool)
  | saddi (h : Hd) (d a : R64) (i : Fin 256)
  | smovi (h : Hd) (d : R64) (i : Fin 16384)
  | smovl (h : Hd) (d : R64) (lit : Word)
  | smov (h : Hd) (d a : R64)
  | sld (h : Hd) (d a : R64) (z : Sz) (o : R64)
  | sst (h : Hd) (d a : R64) (z : Sz) (o : R64)
  | argld (h : Hd) (d : R64) (slot : R8) (i : Fin 256)
  | vtos (h : Hd) (d a : R64) (lane : Fin 32)
  | qlog (h : Hd) (p : R8) (o : LogOp) (a b : R8)
  | scsel (h : Hd) (d a b : R64) (n : Fin 4)
  | sbfx (h : Hd) (d a b : R64) (s : Bool)
  | spopc (h : Hd) (d a b : R64)
  | ubra (h : Hd) (o : Fin 1048576)
  | ucall (h : Hd) (d : R64) (i : Fin 16384)
  | uret (h : Hd) (a : R64)
  | ujmpx (h : Hd) (a : R64)
  | exit (h : Hd)
  | exitSucc (h : Hd) (a : R64)
  | yield (h : Hd)
  | waittl (h : Hd) (t : Fin 4) (a : R64)
  | waittlDl (h : Hd) (t : Fin 4) (q : R8) (a b : R64)
  | sleep (h : Hd) (a : R64)
  | bar (h : Hd) (n : Fin 16) (c : Fin 128)
  | bara (h : Hd) (n : Fin 16) (c : Fin 128)
  | bardl (h : Hd) (e : R64) (n : Fin 16) (q : R8) (c : Fin 128)
  | tktake (h : Hd) (d a : R64)
  | tkserve (h : Hd) (a : R64)
  | tkwait (h : Hd) (a b : R64)
  | fence (h : Hd) (sc : Scope)
  | launchq (h : Hd) (d a : R64)
  -- engine instructions (R302 to R312)
  | dsetD (h : Hd) (n : Fin 16) (b : R64)
  | dsetA (h : Hd) (n : Fin 16) (b : R64) (f : Fin 16)
  | dsetTl (h : Hd) (n : Fin 4) (b : R64)
  | mma (h : Hd) (d : Fin 32) (ns : Bool) (ah da db : Fin 16) (t : Fin 4)
  | azero (h : Hd) (d : Fin 32) (ah : Fin 16) (t : Fin 4)
  | astp (h : Hd) (d : Fin 32) (ah dp : Fin 16) (r : Rm) (t : Fin 4)
  | aldp (h : Hd) (d : Fin 32) (ah dp : Fin 16) (add : Bool) (t : Fin 4)
  | arow (h : Hd) (d : Fin 32) (ah dp : Fin 16) (o : RowOp) (t : Fin 4)
  | scld (h : Hd) (d : Fin 32) (ah dp : Fin 16) (colB : Bool) (t : Fin 4)
  | copy (h : Hd) (d : Fin 32) (dp : Fin 16) (a : R64) (t : Fin 4)
  | copym (h : Hd) (d : Fin 32) (dp : Fin 16) (a : R64) (t : Fin 4)
  | copyo (h : Hd) (d : Fin 32) (dp : Fin 16) (a : R64) (t : Fin 4)
  | gather (h : Hd) (d : Fin 32) (dp : Fin 16) (a : R64) (t : Fin 4)
  | coll (h : Hd) (d : Fin 32) (a : R64) (t : Fin 4)
  | tlread (h : Hd) (d : R64) (t : Fin 4)
  | tlsig (h : Hd) (d : Fin 32) (t : Fin 4)
  | engst (h : Hd) (d a : R64) (t : Fin 4)
  | pswz (h : Hd) (d : Fin 32) (ah dp : Fin 16) (r : Rm) (tr : Bool) (t : Fin 4)
  -- system registers and privileged instructions (R289 to R296)
  | mfsr (h : Hd) (hi : Bool) (s : Fin 32) (i : Fin 16384)
  | mtsr (h : Hd) (hi : Bool) (s : Fin 32) (i : Fin 16384)
  | tlbinvPage (h : Hd) (a b : R64)
  | tlbinvAsid (h : Hd) (b : R64)
  | tlbinvCtx (h : Hd) (a : R64)
  | ctxfl (h : Hd) (d a : R64)
  | haltbHalt (h : Hd) (d a : R64) (launch : Bool)
  | haltbRelease (h : Hd) (d a : R64) (launch : Bool)
  | engrst (h : Hd) (d a : R64) (e : Fin 7)
  | keyopSet (h : Hd) (d a : R64)
  | keyopBump (h : Hd) (d a : R64)
  | keyopClear (h : Hd) (d a : R64)
  | keyopNewkey (h : Hd) (d a : R64)
  | svcall (h : Hd) (d a : R64) (slot : R8)
  -- events of the fault queue and of issue
  | fqheadWrite (part : Nat) (v : BitVec 64)
  | fqConfigWrite (part : Nat) (size : Bool) (v : BitVec 64)
  | convergenceIllop (cid : Nat)
  | reservedWordIssue (w : Word)
  -- messages and launches
  | tagportWrite (fn : FnNo) (port : Fin 64) (whole : Bool) (data : BitVec 128)
  | poolTimerExpiry (part tag : Nat)
  | celileMessage (from_ : FabDev) (part spart : Nat) (data : BitVec 128)
  | launchQueueDepart (part : Nat)
  | consortPlacement (consort : Nat)
  | consortEnd (consort : Nat)
  | coalesceIntervalEnd (fn : FnNo) (vec : Fin 2)
  | launchQueueCeilingChange (part : Nat) (prio : Fin 8)
  | resumableConsortReplace (consort : Nat) (slot : List Nat) (keep : Bool)
  -- activation, register cache and deferred results
  | activation (part lcore : Nat)
  | registerFillComplete (cid : Nat) (v : R64)
  | lineSpillComplete (cid : Nat) (v : R64)
  | remoteLineRead (cid : Nat) (v : R64)
  | lazyClaim (consort : Nat) (u : Unit70)
  | deferredResultReturn (n : Nat)
  -- engines
  | chiselStep (pcn quad : Nat)
  | copyLine (op line : Nat)
  | collChunk (op : Nat) (chunk : Nat) (peers : List PeerPart)
  -- time
  | deadlineExpiry (cid : Nat)
  | schedulingSliceEnd (part : Nat)
  | requestTimeout (who : Requester) (id : Nat) (lanes : Mask) (performed : Bool)
  -- memory and translation
  | sliceRequest (r : SliceReq)
  | pageWalkComplete (part asid : Nat) (va : Nat) (priv : Bool)
  | tlbInvalidationComplete (n : Nat)
  | atsInvalidationRequest (fn : FnNo) (pasid : Nat) (iova : Nat)
  | atsTranslationCompletion (fn : FnNo) (asid pasid : Nat) (iova : Nat) (grant : Grant)
  | stage2Invalidation (part ipa : Nat) (entryAddr : Nat) (entry : BitVec 64)
  | keyLoadComplete (key : Nat)
  | scrubOnBind (part : Nat) (frames : List Nat)
  | scrubFrameComplete (part frame : Nat)
  -- fabric and link
  | fabricAccessIn (from_ : FabDev) (part spart : Nat) (addr : Nat) (acc : Acc) (op : AtOp) (size : Nat) (data data2 : List Byte)
  | celileFlitCrcError (error : FlitError)
  | celileLinkReset (reset : LinkReset)
  | celileRetrainTimeout (port : Fin 12)
  | celileLinkDown (port : Fin 12) (reason : Fin 5)
  | celileXonXoff (port : Fin 12) (cls : Fin 4) (on : Bool)
  -- handler services and hub cores
  | handlerEntryService (part idx : Nat)
  | hubServiceFrame (cid : Nat)
  | hubServiceScratch (cid : Nat)
  | hubServiceSaveArea (cid : Nat)
  | hubServiceDrain (cid : Nat)
  | hubServiceFrameWrite (cid : Nat)
  | hsigSignal (hc : HubAgent) (v : BitVec 64)
  | contextPortRead (from_ : Option Nat) (cid off len : Nat)
  | contextPortWrite (from_ : Option Nat) (cid off : Nat) (bytes : List Byte)
  | dispenserReset (part d : Nat)
  -- heartbeat, mute and retune
  | heartbeatSend (tile : Fin 96)
  | heartbeatReceive (tile : Fin 96) (dir : Fin 4) (flit : BitVec 128)
  | periodBoundary (tile : Fin 96)
  | accusationReceive (tile : Fin 96) (cw : Bool) (flit : BitVec 128)
  | muteNoticeReceive (tile : Fin 96)
  | muteMapUpdate (router suspect : Fin 96)
  | muteReport (suspect : Fin 96) (lastSeq : BitVec 16)
  | selfTestComplete (tile : Fin 96) (pass : Bool)
  | appealSend (tile : Fin 96)
  | appealReceive (tile : Fin 96) (dir : Fin 4)
  | retuneVoteReceive (tile : Fin 96) (cw : Bool) (flit : BitVec 128)
  | retuneNoticeReceive (tile suspect : Fin 96)
  | retuneReport (suspect : Fin 96) (lastSeq : BitVec 16)
  -- supply, power, temperature
  | supplyDroop (tile : Fin 96)
  | droopStep (tile : Fin 96)
  | droopRecovery (tile : Fin 96)
  | powerCheckTick (mW : Nat)
  | thermalTrip (die : Fin 2) (t16 : Nat)
  | thermalCeilingRelease (t0 t1 : Nat)
  -- errors
  | uncorrectableError (u : ErrUnit)
  | controlStateError (u : CtlUnit)
  -- device, functions and the mailbox
  | deviceBringUp (b : BringUp)
  | functionLevelReset (fn : FnNo)
  | createPartition (fn : FnNo) (part : Nat) (cores : BitVec 72) (slices : BitVec 24) (ports : BitVec 12) (asidT armT acctT : Nat)
  | resetPartition (fn : FnNo) (part : Nat) (failed : List Nat)
  | bindVf (fn : FnNo) (vf : FnNo) (part : Nat)
  | setStage2Root (fn : FnNo) (part : Nat) (root : Nat)
  | assignWorld (fn : FnNo) (pcn : Nat) (quads : BitVec 4) (world : Nat)
  | bindTagPort (fn : FnNo) (port : Fin 64) (asid world prio : Nat)
  | setAllowListEntry (fn : FnNo) (part index : Nat) (entry : Word)
  | appealPolicy (fn : FnNo) (tile : Fin 96) (enable : Bool)
  | writeExportOrImportEntry (fn : FnNo) (imp : Bool) (index : Nat) (entry : BitVec 256)
  | registerHandlerConsort (fn : FnNo) (seq : BitVec 64)
  | terminateFaultEntry (fn : FnNo) (part idx : Nat)
  | configurePartitionRuntime (fn : FnNo) (part rAsid cAsid : Nat) (base size : Nat) (disp : Nat) (evFn : Nat)
  | setSchedulingContexts (fn : FnNo) (part count slice : Nat) (weights : List Nat)
  | queryPartition (fn : FnNo) (part item : Nat)
  | heqConfigWrite (fn : FnNo) (size : Bool) (v : BitVec 64)
  | heqheadWrite (fn : FnNo) (v : BitVec 64)
  | verselWrite (fn : FnNo) (v : BitVec 64)
  | counterRead (fn : FnNo)
  | coaltWrite (fn : FnNo) (v : BitVec 64)
  | pwrlimWrite (fn : FnNo) (v : BitVec 64)
  | registerWrite (fn : FnNo) (off : Nat) (v : BitVec 64)
  | msixVectorUnmask (fn : FnNo) (vec : Fin 256)
  | tdispStateChange (fn : FnNo) (st : Fin 4)
  | spdmNegotiateAlgorithms (version : Nat) (mldsa44 sha3_256 mlkem768 : Bool)
  | spdmKeyExchange (mlkem768 : Bool) (offer : KeyOffer)
  | spdmGetMeasurements (index : Nat)
  deriving DecidableEq, Repr

end Sys2Proof
end

