-- ==== Sys2Proof/Machine/Flags.lean ====
section
/-! DEFINITION. The sticky floating-point flags (R21) and what rounding raises (R20 to R24). -/

namespace Sys2Proof.Machine

/-- The flags of the 5-bit field (R21): NV bit 4, DZ bit 3, OF bit 2, UF bit 1, NX bit 0. -/
def flagNV : Nat := 16
def flagDZ : Nat := 8
def flagOF : Nat := 4
def flagUF : Nat := 2
def flagNX : Nat := 1

/-- NV for a signalling NaN (R19). -/
def nvIf (b : Bool) : Nat := if b then flagNV else 0

/-- The flags of a rounded finite result: NX when inexact, UF as well when tiny (R21). -/
def inexactFlags (inexact tiny : Bool) : Nat := if inexact then (if tiny then flagUF + flagNX else flagNX) else 0

/-- The flags of an overflow (R20, R21). -/
def overflowFlags : Nat := flagOF + flagNX

/-- Whether rounding goes away from zero: the sign, whether the kept part is odd, and how the discarded part compares
with half a unit: 0 nothing, 1 below, 2 a tie, 3 above (R20). -/
def roundsUp (m : Rm) (neg odd : Bool) (part : Nat) : Bool :=
  match m with
  | .rne => part == 3 || (part == 2 && odd)
  | .rz => false
  | .ru => part != 0 && !neg
  | .rd => part != 0 && neg

/-- Whether an overflow gives an infinity, else the largest finite value (R20). -/
def overflowsToInf (m : Rm) (neg : Bool) : Bool :=
  match m with
  | .rne => true
  | .rz => false
  | .ru => !neg
  | .rd => neg

end Sys2Proof.Machine
end

