-- ==== Sys2Proof/Machine/Float.lean ====
section
/-! DEFINITION. Values: number formats, exact arithmetic and rounding (R18 to R33, R37). -/

namespace Sys2Proof.Machine

/-- A value: NaN (signalling or not), an infinity, or (-1)^neg m 2^e (R18, R19). -/
inductive Fv where
  | nan (signalling : Bool)
  | inf (neg : Bool)
  | fin (neg : Bool) (m : Nat) (e : Int)
  deriving DecidableEq, Repr

/-- A format: exponent and fraction bits; `sat` is E4M3, whose top code is NaN and whose overflow saturates (R18, R23). -/
structure Fmt where
  eb : Nat
  fb : Nat
  sat : Bool
  deriving DecidableEq, Repr

def fp32 : Fmt := ⟨8, 23, false⟩
def fp16 : Fmt := ⟨5, 10, false⟩
def bf16 : Fmt := ⟨8, 7, false⟩
def e5m2 : Fmt := ⟨5, 2, false⟩
def e4m3 : Fmt := ⟨4, 3, true⟩

/-- The bias of a format. -/
def Fmt.bias (f : Fmt) : Nat := 2 ^ (f.eb - 1) - 1

/-- The exponent of the smallest normal number. -/
def Fmt.emin (f : Fmt) : Int := 1 - (f.bias : Int)

/-- The exponent of the smallest unit. -/
def Fmt.qmin (f : Fmt) : Int := f.emin - f.fb

/-- The exponent of the unit of the largest finite number. -/
def Fmt.qmax (f : Fmt) : Int := (if f.sat then (2 ^ f.eb - 1 : Int) else (2 ^ f.eb - 2 : Int)) - f.bias - f.fb

/-- The significand of the largest finite number, at `qmax`. -/
def Fmt.mmax (f : Fmt) : Nat := if f.sat then 2 ^ (f.fb + 1) - 2 else 2 ^ (f.fb + 1) - 1

/-- The canonical NaN (R19). -/
def Fmt.qnan (f : Fmt) : Nat := if f.sat then 2 ^ (f.eb + f.fb) - 1 else (2 ^ f.eb - 1) * 2 ^ f.fb + 2 ^ (f.fb - 1)

/-- The sign bit of a format, in place. -/
def Fmt.sign (f : Fmt) (neg : Bool) : Nat := if neg then 2 ^ (f.eb + f.fb) else 0

/-- An infinity's encoding. -/
def Fmt.infBits (f : Fmt) (neg : Bool) : Nat := f.sign neg + (2 ^ f.eb - 1) * 2 ^ f.fb

/-- The largest finite number's encoding. -/
def Fmt.maxBits (f : Fmt) (neg : Bool) : Nat :=
  f.sign neg + (if f.sat then 2 ^ (f.eb + f.fb) - 2 else (2 ^ f.eb - 1) * 2 ^ f.fb - 1)

/-- The value of an encoding (R18). -/
def Fmt.decode (f : Fmt) (x : Nat) : Fv :=
  let neg := bitAt x (f.eb + f.fb)
  let ex := bitsAt x f.fb f.eb
  let fr := bitsAt x 0 f.fb
  if f.sat then
    if ex = 2 ^ f.eb - 1 ∧ fr = 2 ^ f.fb - 1 then .nan false
    else if ex = 0 then .fin neg fr f.qmin else .fin neg (fr + 2 ^ f.fb) (f.qmin + ex - 1)
  else if ex = 2 ^ f.eb - 1 then
    if fr = 0 then .inf neg else .nan (!bitAt fr (f.fb - 1))
  else if ex = 0 then .fin neg fr f.qmin
  else .fin neg (fr + 2 ^ f.fb) (f.qmin + ex - 1)

/-- The encoding of significand k at unit 2^q, k at most 2^(fb + 1). -/
def Fmt.pack (f : Fmt) (neg : Bool) (k : Nat) (q : Int) : Nat :=
  if k < 2 ^ f.fb then f.sign neg + k
  else if k = 2 ^ (f.fb + 1) then f.sign neg + (q - f.qmin + 2).toNat * 2 ^ f.fb
  else f.sign neg + (q - f.qmin + 1).toNat * 2 ^ f.fb + (k - 2 ^ f.fb)

/-- How the part of m below bit d compares with half: 0 nothing, 1 below, 2 a tie, 3 above; `more` adds a little. -/
def partOf (m d : Nat) (more : Bool) : Nat :=
  let r := m % 2 ^ d
  if d = 0 then (if more then 1 else 0)
  else if r = 0 ∧ !more then 0
  else if r < 2 ^ (d - 1) then 1
  else if r = 2 ^ (d - 1) ∧ !more then 2
  else 3

/-- A significand at unit 2^q of m 2^e: the kept part and how the rest compares with half. -/
def cut (m : Nat) (e q : Int) (more : Bool) : Nat × Nat :=
  if q ≤ e then (m * 2 ^ (e - q).toNat, if more then 1 else 0)
  else (m / 2 ^ (q - e).toNat, partOf m (q - e).toNat more)

/-- A significand rounded at unit 2^q. -/
def roundAt (rm : Rm) (neg : Bool) (m : Nat) (e q : Int) (more : Bool) : Nat × Bool :=
  let (k, part) := cut m e q more
  (if roundsUp rm neg (k % 2 == 1) part then k + 1 else k, part != 0)

/-- The unit of m 2^e at a precision, without a bound. -/
def freeUnit (f : Fmt) (m : Nat) (e : Int) : Int := e + (Nat.log2 m + 1 : Nat) - (f.fb + 1 : Nat)

/-- Whether a result is tiny after rounding (R21). -/
def tinyAfter (f : Fmt) (rm : Rm) (neg : Bool) (m : Nat) (e : Int) (more : Bool) : Bool :=
  let q := freeUnit f m e
  let (k, _) := roundAt rm neg m e q more
  if k = 2 ^ (f.fb + 1) then decide (q + 1 + f.fb < f.emin) else decide (q + f.fb < f.emin)

/-- Whether significand k at unit 2^q exceeds the largest finite number. -/
def Fmt.over (f : Fmt) (k : Nat) (q : Int) : Bool :=
  decide (f.qmax < q) || (q == f.qmax && decide (f.mmax < k))

/-- (-1)^neg m 2^e, a little more when `more`, rounded once to a format: encoding and flags (R20, R21, R23). -/
def Fmt.round (f : Fmt) (rm : Rm) (neg : Bool) (m : Nat) (e : Int) (more : Bool) : Nat × Nat :=
  if m = 0 then (f.sign neg, 0)
  else
    let q := max (freeUnit f m e) f.qmin
    let (k, inexact) := roundAt rm neg m e q more
    if f.over k q then
      (if f.sat then f.maxBits neg else if overflowsToInf rm neg then f.infBits neg else f.maxBits neg, overflowFlags)
    else (f.pack neg k q, inexactFlags inexact (tinyAfter f rm neg m e more))

/-- Stochastic rounding (R22). -/
def Fmt.roundSr (f : Fmt) (neg : Bool) (m : Nat) (e : Int) (r : Nat) : Nat × Nat :=
  if m = 0 then (f.sign neg, 0)
  else
    let q := max (freeUnit f m e) f.qmin
    let d := (q - e).toNat
    let low := if q ≤ e then m * 2 ^ (e - q).toNat else m / 2 ^ d
    let rest := if q ≤ e then 0 else m % 2 ^ d
    let k := if rest * 2 ^ 32 > r * 2 ^ d ∧ rest ≠ 0 then low + 1 else low
    if f.over k q then (f.maxBits neg, overflowFlags)
    else (f.pack neg k q, inexactFlags (rest != 0) (decide (k < 2 ^ f.fb)))

/-- A value rounded to a format; infinities as the format has them, NaN canonical (R19, R20, R23). -/
def Fmt.ofFv (f : Fmt) (rm : Rm) : Fv → Nat × Nat
  | .nan s => (f.qnan, nvIf s)
  | .inf neg => if f.sat then (f.maxBits neg, overflowFlags) else (f.infBits neg, 0)
  | .fin neg m e => f.round rm neg m e false

/-- A value rounded stochastically (R22). -/
def Fmt.ofFvSr (f : Fmt) (r : Nat) : Fv → Nat × Nat
  | .nan s => (f.qnan, nvIf s)
  | .inf neg => if f.sat then (f.maxBits neg, overflowFlags) else (f.infBits neg, 0)
  | .fin neg m e => f.roundSr neg m e r

/-- Whether a value is a NaN, and a signalling one. -/
def Fv.isNan : Fv → Bool
  | .nan _ => true
  | _ => false
def Fv.isSnan : Fv → Bool
  | .nan s => s
  | _ => false
/-- Whether a value is a zero. -/
def Fv.isZero : Fv → Bool
  | .fin _ m _ => m == 0
  | _ => false
/-- Whether a value is an infinity. -/
def Fv.isInf : Fv → Bool
  | .inf _ => true
  | _ => false
/-- The sign of a number. -/
def Fv.neg : Fv → Bool
  | .nan _ => false
  | .inf s => s
  | .fin s _ _ => s
/-- The negation of a number. -/
def Fv.negate : Fv → Fv
  | .nan s => .nan s
  | .inf s => .inf !s
  | .fin s m e => .fin (!s) m e

/-- A finite value scaled to unit 2^e0, signed. -/
def scaled (neg : Bool) (m : Nat) (e e0 : Int) : Int :=
  let n : Int := (m * 2 ^ (e - e0).toNat : Nat)
  if neg then -n else n

/-- The exact sum of two finite values; a zero sum's sign by R238. -/
def addFin (rm : Rm) (s1 : Bool) (m1 : Nat) (e1 : Int) (s2 : Bool) (m2 : Nat) (e2 : Int) : Fv :=
  let e0 := min e1 e2
  let n := scaled s1 m1 e1 e0 + scaled s2 m2 e2 e0
  if n = 0 then .fin (if s1 = s2 then s1 else rm == .rd) 0 0
  else .fin (decide (n < 0)) n.natAbs e0

/-- The sum of two values, unrounded: its value and NV when invalid (R238). -/
def addFv (rm : Rm) : Fv → Fv → Fv × Nat
  | .nan s, .nan t => (.nan false, nvIf (s || t))
  | .nan s, _ => (.nan false, nvIf s)
  | _, .nan t => (.nan false, nvIf t)
  | .inf s, .inf t => if s = t then (.inf s, 0) else (.nan false, flagNV)
  | .inf s, _ => (.inf s, 0)
  | _, .inf t => (.inf t, 0)
  | .fin s1 m1 e1, .fin s2 m2 e2 => (addFin rm s1 m1 e1 s2 m2 e2, 0)

/-- The exact product of two values: its value and NV when invalid (R238). -/
def mulFv : Fv → Fv → Fv × Nat
  | .nan s, .nan t => (.nan false, nvIf (s || t))
  | .nan s, _ => (.nan false, nvIf s)
  | _, .nan t => (.nan false, nvIf t)
  | .inf s, .inf t => (.inf (s != t), 0)
  | .inf s, .fin t m _ => if m = 0 then (.nan false, flagNV) else (.inf (s != t), 0)
  | .fin s m _, .inf t => if m = 0 then (.nan false, flagNV) else (.inf (s != t), 0)
  | .fin s1 m1 e1, .fin s2 m2 e2 => (.fin (s1 != s2) (m1 * m2) (e1 + e2), 0)

/-- A rounded sum (R238). -/
def Fmt.add (f : Fmt) (rm : Rm) (a b : Nat) : Nat × Nat :=
  let (v, x) := addFv rm (f.decode a) (f.decode b)
  let (r, y) := f.ofFv rm v
  (r, x ||| y)

/-- A rounded difference. -/
def Fmt.sub (f : Fmt) (rm : Rm) (a b : Nat) : Nat × Nat :=
  let (v, x) := addFv rm (f.decode a) (f.decode b).negate
  let (r, y) := f.ofFv rm v
  (r, x ||| y)

/-- A rounded product. -/
def Fmt.mul (f : Fmt) (rm : Rm) (a b : Nat) : Nat × Nat :=
  let (v, x) := mulFv (f.decode a) (f.decode b)
  let (r, y) := f.ofFv rm v
  (r, x ||| y)

/-- a b + d with one rounding; 0 times infinity is invalid whatever d is (R238). -/
def Fmt.fma (f : Fmt) (rm : Rm) (a b d : Nat) : Nat × Nat :=
  let (p, x) := mulFv (f.decode a) (f.decode b)
  let (v, y) := addFv rm p (f.decode d)
  let (r, z) := f.ofFv rm v
  (r, x ||| y ||| z)

/-! Comparison (R27, R28, R240). -/

/-- Whether a number is below another; zeros are equal. -/
def ltFv : Fv → Fv → Bool
  | .nan _, _ => false
  | _, .nan _ => false
  | .inf s, .inf t => s && !t
  | .inf s, .fin .. => s
  | .fin .., .inf t => !t
  | .fin s1 m1 e1, .fin s2 m2 e2 => decide (scaled s1 m1 e1 (min e1 e2) < scaled s2 m2 e2 (min e1 e2))

/-- Whether two numbers are equal; zeros are equal. -/
def eqFv (a b : Fv) : Bool := !a.isNan && !b.isNan && !ltFv a b && !ltFv b a

/-- FMIN and FMAX (R27). -/
def Fmt.minmax (f : Fmt) (isMax : Bool) (a b : Nat) : Nat × Nat :=
  let x := f.decode a
  let y := f.decode b
  let fl := nvIf (x.isSnan || y.isSnan)
  if x.isNan && y.isNan then (f.qnan, fl)
  else if x.isNan then (b, fl)
  else if y.isNan then (a, fl)
  else
    let less := ltFv x y || (eqFv x y && x.neg && !y.neg)
    (if less != isMax then a else b, fl)

/-- The relation of FCMP (R240). -/
def fcmpRel (c : Cc) (a b : Fv) : Bool :=
  let un := a.isNan || b.isNan
  match c with
  | .eq => eqFv a b
  | .ne => un || !eqFv a b
  | .lt => ltFv a b
  | .le => !un && !ltFv b a
  | .gt => ltFv b a
  | .ge => !un && !ltFv a b
  | .un => un

/-- The NV of FCMP (R240). -/
def fcmpFlags (c : Cc) (a b : Fv) : Nat :=
  match c with
  | .eq | .ne | .un => nvIf (a.isSnan || b.isSnan)
  | _ => nvIf (a.isNan || b.isNan)

/-- FMAXX of two pairs (R28). -/
def fmaxx (va ia vb ib : Nat) : Nat × Nat × Nat :=
  let x := fp32.decode va
  let y := fp32.decode vb
  let fl := nvIf (x.isSnan || y.isSnan)
  if x.isNan && y.isNan then (0x7FC00000, 0xFFFFFFFF, fl)
  else if x.isNan then (vb, ib, fl)
  else if y.isNan then (va, ia, fl)
  else if ltFv y x then (va, ia, fl)
  else if ltFv x y then (vb, ib, fl)
  else if ib < ia then (vb, ib, fl) else (va, ia, fl)

/-- The class bit of FCLASS (R239). -/
def fclass (a : Nat) : Nat :=
  match fp32.decode a with
  | .nan s => if s then 2 ^ 8 else 2 ^ 9
  | .inf s => if s then 1 else 2 ^ 7
  | .fin s m _ =>
    if m = 0 then (if s then 2 ^ 3 else 2 ^ 4)
    else if m < 2 ^ 23 then (if s then 2 ^ 2 else 2 ^ 5)
    else (if s then 2 else 2 ^ 6)

/-! Division, roots, reciprocals (R25, R26, R241). -/

/-- The integer square root of x below 4^n, by bits. -/
def isqrt : Nat → Nat → Nat
  | 0, _ => 0
  | n + 1, x =>
    let r := isqrt n (x / 4) * 2
    if (r + 1) * (r + 1) ≤ x then r + 1 else r

/-- A quotient m1 / m2 2^e to about 64 bits, with what is left (R25). -/
def quoBits (m1 m2 : Nat) : Nat × Bool := (m1 * 2 ^ 96 / m2, m1 * 2 ^ 96 % m2 != 0)

/-- FDIV (R25, R241). -/
def fdiv (rm : Rm) (a b : Nat) : Nat × Nat :=
  match fp32.decode a, fp32.decode b with
  | .nan s, .nan t => (fp32.qnan, nvIf (s || t))
  | .nan s, _ => (fp32.qnan, nvIf s)
  | _, .nan t => (fp32.qnan, nvIf t)
  | .inf _, .inf _ => (fp32.qnan, flagNV)
  | .inf s, .fin t _ _ => (fp32.infBits (s != t), 0)
  | .fin s _ _, .inf t => (fp32.sign (s != t), 0)
  | .fin s m1 e1, .fin t m2 e2 =>
    if m2 = 0 then (if m1 = 0 then (fp32.qnan, flagNV) else (fp32.infBits (s != t), flagDZ))
    else
      let (q, more) := quoBits m1 m2
      fp32.round rm (s != t) q (e1 - e2 - 96) more

/-- A root of m 2^e, e even: bits and what is left. -/
def rootBits (m : Nat) : Nat × Bool :=
  let x := m * 2 ^ 64
  let r := isqrt 48 x
  (r, r * r != x)

/-- m 2^e with an even exponent. -/
def evenExp (m : Nat) (e : Int) : Nat × Int := if e % 2 = 0 then (m, e) else (2 * m, e - 1)

/-- FSQRT (R25). -/
def fsqrt (rm : Rm) (a : Nat) : Nat × Nat :=
  match fp32.decode a with
  | .nan s => (fp32.qnan, nvIf s)
  | .inf s => if s then (fp32.qnan, flagNV) else (fp32.infBits false, 0)
  | .fin s m e =>
    if m = 0 then (fp32.sign s, 0)
    else if s then (fp32.qnan, flagNV)
    else
      let (m, e) := evenExp m e
      let (r, more) := rootBits m
      fp32.round rm false r (e / 2 - 32) more

/-- One of the two neighbours of an exact value, or the value itself; beyond the largest finite number an infinity (R26). -/
def oneUlp (up neg : Bool) (m : Nat) (e : Int) (more : Bool) : Nat × Nat :=
  let lo := fp32.round .rz neg m e more
  if bitAt lo.2 2 then (fp32.infBits neg, overflowFlags)
  else if lo.2 % 2 = 0 then lo
  else
    let r := fp32.round (if up then .ru else .rd) neg m e more
    if bitAt r.2 2 then (fp32.infBits neg, overflowFlags) else r

/-- FRCP (R26; which neighbour is log entry 11). -/
def frcp (a : Nat) : Nat × Nat :=
  match fp32.decode a with
  | .nan s => (fp32.qnan, nvIf s)
  | .inf s => (fp32.sign s, 0)
  | .fin s m e =>
    if m = 0 then (fp32.infBits s, flagDZ)
    else
      let (q, more) := quoBits 1 m
      oneUlp (Config.frcpUp (BitVec.ofNat 32 a)) s q (-e - 96) more

/-- FRSQ (R26; which neighbour is log entry 11). -/
def frsq (a : Nat) : Nat × Nat :=
  match fp32.decode a with
  | .nan s => (fp32.qnan, nvIf s)
  | .inf s => if s then (fp32.qnan, flagNV) else (0, 0)
  | .fin s m e =>
    if m = 0 then (fp32.infBits s, flagDZ)
    else if s then (fp32.qnan, flagNV)
    else
      let (m, e) := evenExp m e
      let r := isqrt 64 (2 ^ 128 / m)
      oneUlp (Config.frsqUp (BitVec.ofNat 32 a)) false r (-(e / 2) - 64) (r * r * m != 2 ^ 128)

/-! Logarithm and power (R25). -/

/-- The next n bits of log2 x for x in [1, 2) as an integer at unit 2^-200, by squaring. -/
def logBits : Nat → Nat → Nat → Nat
  | 0, _, acc => acc
  | n + 1, x, acc =>
    let y := x * x / 2 ^ 200
    if 2 ^ 201 ≤ y then logBits n (y / 2) (2 * acc + 1) else logBits n y (2 * acc)

/-- LOG2 (R25): 120 bits of the fraction, never exact but at powers of two. -/
def flog2 (rm : Rm) (a : Nat) : Nat × Nat :=
  match fp32.decode a with
  | .nan s => (fp32.qnan, nvIf s)
  | .inf s => if s then (fp32.qnan, flagNV) else (fp32.infBits false, 0)
  | .fin s m e =>
    if m = 0 then (fp32.infBits true, flagDZ)
    else if s then (fp32.qnan, flagNV)
    else
      let l := Nat.log2 m
      let n : Int := e + l
      if m = 2 ^ l then fp32.round rm (decide (n < 0)) n.natAbs 0 false
      else
        let fr := logBits 120 (m * 2 ^ 200 / 2 ^ l) 0
        if 0 ≤ n then fp32.round rm false (n.toNat * 2 ^ 120 + fr) (-120) true
        else fp32.round rm true (n.natAbs * 2 ^ 120 - fr - 1) (-120) true

/-- The product of the roots 2^(2^-i) that the first n bits of a fraction select, at unit 2^-200: `c` is the current root,
`f` the bits left, highest first. -/
def expBits : Nat → Nat → Nat → Nat → Nat
  | 0, _, _, acc => acc
  | n + 1, f, c, acc =>
    let c := isqrt 203 (c * 2 ^ 200)
    expBits n (f % 2 ^ n) c (if 2 ^ n ≤ f then acc * c / 2 ^ 200 else acc)

/-- EXP2 (R25): exact at integers, else about 190 bits. -/
def fexp2 (rm : Rm) (a : Nat) : Nat × Nat :=
  match fp32.decode a with
  | .nan s => (fp32.qnan, nvIf s)
  | .inf s => if s then (0, 0) else (fp32.infBits false, 0)
  | .fin s m e =>
    if m = 0 then (0x3F800000, 0)
    else
      let top : Int := e + Nat.log2 m
      if top < -40 then
        if s then fp32.round rm false (2 ^ 60 - 1) (-60) true else fp32.round rm false (2 ^ 60) (-60) true
      else if 9 ≤ top then
        if s then fp32.round rm false 1 (-400) true else fp32.round rm false 1 400 true
      else
        let n := scaled s m e (min e (-64)) / (2 ^ (64 - min 0 (e + 64)).toNat : Nat)
        let w := (64 - min 0 (e + 64)).toNat
        let f := (scaled s m e (-(w : Int)) - n * (2 ^ w : Nat)).toNat
        if f = 0 then fp32.round rm false 1 n false
        else fp32.round rm false (expBits w f (2 ^ 201) (2 ^ 200)) (n - 200) true

/-! Conversions (R22 to R24, R29, R32, R244 to R247). -/

/-- A finite value rounded to an integer, with whether it was inexact (R24). -/
def toInt (rm : Rm) (neg : Bool) (m : Nat) (e : Int) : Int × Bool :=
  let (k, inexact) := roundAt rm neg m e 0 false
  (if neg then -(k : Int) else k, inexact)

/-- A conversion to an integer range (R24). -/
def cvtInt (rm : Rm) (lo hi : Int) (a : Nat) : Int × Nat :=
  match fp32.decode a with
  | .nan _ => (0, flagNV)
  | .inf s => (if s then lo else hi, flagNV)
  | .fin s m e =>
    let (n, inexact) := toInt rm s m e
    if n < lo then (lo, flagNV) else if hi < n then (hi, flagNV) else (n, if inexact then flagNX else 0)

/-- CVT.INT (R244): the sign of a zero result is the operand's. -/
def cvtIntegral (rm : Rm) (a : Nat) : Nat × Nat :=
  match fp32.decode a with
  | .nan s => (fp32.qnan, nvIf s)
  | .inf _ => (a, 0)
  | .fin s m e =>
    let (n, inexact) := toInt rm s m e
    ((fp32.round .rne s n.natAbs 0 false).1, if inexact then flagNX else 0)

/-- An integer as a value. -/
def ofInt (n : Int) : Fv := .fin (decide (n < 0)) n.natAbs 0

/-- The table T of R31. -/
def l6T (i : Nat) : Nat := nth [0x800000, 0x9837F0, 0xB504F3, 0xD744FE] i 0

/-- An L6 code's value (R29). -/
def l6Decode (x : Nat) : Fv :=
  let s := bitAt x 5
  let c := x % 32
  if c = 0 then (if s then .nan false else .fin false 0 0)
  else .fin s (l6T (c % 4)) ((c / 4 : Nat) - 4 - 23)

/-- Whether y^8 ≤ 2^n for y = m 2^e. -/
def pow8Le (m : Nat) (e n : Int) : Bool :=
  if 8 * e ≤ n then decide (m ^ 8 ≤ 2 ^ (n - 8 * e).toNat) else m == 0

/-- The least code c with y^8 ≤ 2^(2c - 31), at most 32 (R32). -/
def l6Code (m : Nat) (e : Int) : Nat := ((List.range 32).find? fun (c : Nat) => pow8Le m e (2 * (c : Int) - 31)).getD 32

/-- CVTL6 (R32). -/
def cvtL6 (a scale : Nat) : Nat × Nat :=
  match fp32.decode a with
  | .nan s => (0x20, nvIf s)
  | .inf s => if scale = 0xFF then (0x20, 0) else (s.toNat * 32 + 31, overflowFlags)
  | .fin s m e =>
    if scale = 0xFF then (0x20, 0)
    else
      let e := e - (scale : Int) + 127
      let c := l6Code m e
      let r := min c 31
      let same := match l6Decode r with
        | .fin _ m2 e2 => scaled false m e (min e e2) == scaled false m2 e2 (min e e2)
        | _ => false
      (if r = 0 then 0 else s.toNat * 32 + r, (if 31 < c then flagOF else 0) + (if same then 0 else flagNX))

/-- What a scale must make fit (R246). -/
inductive Target where
  | limit (n : Nat)
  | l6
  deriving DecidableEq, Repr

/-- Whether m 2^e fits a target. -/
def fitsTarget (m : Nat) (e : Int) : Target → Bool
  | .limit n => if 0 ≤ e then decide (m * 2 ^ e.toNat ≤ n) else decide (m ≤ n * 2 ^ (-e).toNat)
  | .l6 => pow8Le m e 31

/-- SCLX's derived scale (R246). -/
def sclxDerive (t : Target) (a : Nat) : Nat × Nat :=
  match fp32.decode a with
  | .nan s => (0xFF, nvIf s)
  | .inf _ => (0xFF, 0)
  | .fin _ m e => (((List.range 255).find? fun (k : Nat) => fitsTarget m (e - (k : Int) + 127) t).getD 254, 0)

/-- SCLX.APPLY (R246). -/
def sclxApply (rm : Rm) (a scale : Nat) : Nat × Nat :=
  match fp32.decode a with
  | .nan s => (fp32.qnan, nvIf s)
  | .inf s => if scale = 0xFF then (fp32.qnan, 0) else (fp32.infBits s, 0)
  | .fin s m e => if scale = 0xFF then (fp32.qnan, 0) else fp32.round rm s m (e + 127 - scale) false

/-- RAND's hash (R37). -/
def randHash (k n : Word) : Word :=
  let h := k ^^^ n
  let h := (h ^^^ (h >>> 16)) * 0x7FEB352D
  let h := (h ^^^ (h >>> 15)) * 0x846CA68B
  h ^^^ (h >>> 16)

/-- RAND.U's value (R37). -/
def randU (h : Word) : Nat := (fp32.round .rz false (2 * (h.toNat / 256) + 1) (-25) false).1

end Sys2Proof.Machine
end

