-- ==== Sys2Proof/Machine/Cipher.lean ====
section
/-! DEFINITION. AES-256 and its XTS mode on one block of 16 bytes (R57, R111): the cipher that IEEE 1619 defines, over the block cipher of
FIPS 197. Bytes are numbers below 256 here. -/

namespace Sys2Proof.Machine

/-! The field of 256 elements: bytes as polynomials modulo x^8 + x^4 + x^3 + x + 1. -/

/-- A field element times x. -/
def gfX (a : Nat) : Nat := (2 * a) ^^^ (a / 128 * 0x11B)

/-- The product of two field elements, from the highest power of the second down. -/
def gfMul (a b : Nat) : Nat := (List.range 8).foldr (fun i r => gfX r ^^^ (b / 2 ^ i % 2 * a)) 0

/-- The inverse of a field element, its 254th power; 0 for 0. -/
def gfInv (a : Nat) : Nat :=
  ((List.range 7).foldl (fun (p, s) _ => let s := gfMul s s; (gfMul p s, s)) (1, a)).1

/-- A byte turned left by n bits. -/
def turn8 (a n : Nat) : Nat := a * 2 ^ n % 256 + a / 2 ^ (8 - n)

/-- The substitution of a byte: the inverse, then an affine map of its bits. -/
def aesSub (a : Nat) : Nat :=
  let b := gfInv a
  b ^^^ turn8 b 1 ^^^ turn8 b 2 ^^^ turn8 b 3 ^^^ turn8 b 4 ^^^ 0x63

/-- The substitution undone. -/
def aesSubInv (a : Nat) : Nat := gfInv (turn8 a 1 ^^^ turn8 a 3 ^^^ turn8 a 6 ^^^ 0x05)

/-! A block of 16 bytes is four columns of four; byte r of column c stands at 4 c + r. -/

/-- Two byte strings added. -/
def xorBytes (a b : List Nat) : List Nat := a.zipWith (· ^^^ ·) b

/-- Each row of a block turned: byte r of column c comes from column c + k r. -/
def aesRows (k : Nat) (b : List Nat) : List Nat :=
  (List.range 16).map fun n => b.getD (4 * ((n / 4 + k * (n % 4)) % 4) + n % 4) 0

/-- Each column of a block multiplied by the circulant matrix whose first row is given. -/
def aesCols (m b : List Nat) : List Nat :=
  (List.range 16).map fun n => (List.range 4).foldl (fun r j =>
    r ^^^ gfMul (b.getD (4 * (n / 4) + j) 0) (m.getD ((j + 4 - n % 4) % 4) 0)) 0

/-- The next word of a key schedule after i words, from the last and the eighth last. -/
def aesWord (ws : List (List Nat)) (i : Nat) : List Nat :=
  let t := ws.getD (i - 1) []
  let t :=
    if i % 8 = 0 then xorBytes ((t.drop 1 ++ t.take 1).map aesSub) [2 ^ (i / 8 - 1), 0, 0, 0]
    else if i % 8 = 4 then t.map aesSub
    else t
  xorBytes (ws.getD (i - 8) []) t

/-- The fifteen round keys of a key of 32 bytes. -/
def aesKeys (key : List Nat) : List (List Nat) :=
  let first := (List.range 8).map fun i => (key.drop (4 * i)).take 4
  let ws := (List.range 52).foldl (fun ws i => ws ++ [aesWord ws (8 + i)]) first
  (List.range 15).map fun r => ((ws.drop (4 * r)).take 4).flatten

/-- A block enciphered under a key of 32 bytes: fourteen rounds, the last without its columns. -/
def aesEnc (key b : List Nat) : List Nat :=
  let ks := aesKeys key
  let round := fun b r => xorBytes (aesCols [2, 3, 1, 1] (aesRows 1 (b.map aesSub))) (ks.getD (r + 1) [])
  xorBytes (aesRows 1 (((List.range 13).foldl round (xorBytes b (ks.getD 0 []))).map aesSub)) (ks.getD 14 [])

/-- A block deciphered under a key of 32 bytes. -/
def aesDec (key b : List Nat) : List Nat :=
  let ks := aesKeys key
  let back := fun b => (aesRows 3 b).map aesSubInv
  let round := fun b r => back (aesCols [14, 11, 13, 9] (xorBytes b (ks.getD (13 - r) [])))
  xorBytes ((List.range 13).foldl round (back (xorBytes b (ks.getD 14 [])))) (ks.getD 0 [])

/-- One block of XTS: the two halves of a key of 64 bytes are the key of the data and that of the tweak. A data unit is one block, so the
enciphered tweak stands as it is. -/
def xtsBlock (aes : List Nat → List Nat → List Nat) (key tweak b : List Nat) : List Nat :=
  let t := aesEnc (key.drop 32) tweak
  xorBytes (aes (key.take 32) (xorBytes b t)) t

end Sys2Proof.Machine
end

