-- ==== Sys2Proof/Machine/State.lean ====
section
/-! DEFINITION. The state of the machine as plain data, the ways a step can stop, and the state after reset. -/

namespace Sys2Proof.Machine

/-- Reasons to stop. `noIssuingCourse` is raised by the meaning of an encoded instruction executed in a state in which no
course issues; `step` never executes one there, so it is safe. -/
inductive Fault where
  | noIssuingCourse
  deriving DecidableEq, Repr

/-- Refusals. `notModelled` is raised by an arm of `exec` whose instruction has no meaning yet; it is safe. -/
inductive Refusal where
  | notModelled (mnemonic : String)
  deriving DecidableEq, Repr

/-- The ordering codes (R1). -/
inductive Form where
  | m68 | m64 | p68
  deriving DecidableEq, Repr

/-- The least number of enabled cores of an ordering code (R1). -/
def Form.minCores : Form → Nat
  | .m68 | .p68 => 68
  | .m64 => 64

/-- The power limit of an ordering code in watts; a bare package's is set by the module design (R1). -/
def Form.maxPower : Form → Option Nat
  | .m68 | .m64 => some 1800
  | .p68 => none

/-- What no step changes: the form and the harvest fuses (R1, R55). -/
structure Fixed where
  form : Form
  harv0 : BitVec 64
  harv1 : BitVec 64
  deriving DecidableEq, Repr

/-- Whether the fuses disable a PCN (R55). -/
def harvested (f : Fixed) (pcn : Nat) : Bool := if pcn < 36 then f.harv0.getLsbD pcn else f.harv1.getLsbD (pcn - 36)

/-- The enabled cores, by PCN. -/
def Fixed.enabled (f : Fixed) : List Nat := (List.range 72).filter fun p => !harvested f p

/-- Whether the fuses leave as many cores as the ordering code promises (R1). -/
def Fixed.wf (f : Fixed) : Bool := decide (f.form.minCores ≤ f.enabled.length)

/-- Memory: bytes that differ from what an unlisted address reads as, by rising address. -/
abbrev Memory := List Host.Cell

/-- A write gathered in a step: a byte, or a range that returns to what unlisted addresses read as. -/
inductive Wr where
  | byte (a : Nat) (v : Byte)
  | clear (a n : Nat)
  deriving DecidableEq, Repr

/-- The destination of a deferred result (R67). -/
inductive Dest where
  | v (r : R64)
  | s (r : R64)
  deriving DecidableEq, Repr

/-- A deferred result, outstanding or buffered (R67, R69): its slot and generation, what it writes, and its flags. -/
structure Flight where
  n : Nat
  cid : Nat
  quad : Nat
  slot : Nat
  gen : Nat
  dest : Dest
  mask : Mask
  val : Line
  flags : List (Nat × Nat)
  deriving DecidableEq, Repr

/-- A V line held in the register cache of quadrant `quad` (R62): not dirty is clean; `pend` is spill-pending. -/
structure CLine where
  quad : Nat
  data : Line
  dirty : Bool
  pend : Bool
  poison : Bool
  deriving DecidableEq, Repr

/-- Where a course is (R142, R174): in a slot, parked, ready, on a halted list. -/
inductive Where where
  | resident | parked | ready | halted
  deriving DecidableEq, Repr

/-- What a parked course waits for (R142). `faults` waits only for resolutions. -/
inductive Await where
  | nothing
  | timeline (pcn idx : Nat) (n : Word) (q : Option R8)
  | barrier (n : Nat) (q : Option R8)
  | ticket (d : Nat) (t : Word)
  | sleep
  | queue (header : List Byte) (dest : R64) (mask : Mask) (mark : Bool)
  | faults
  deriving DecidableEq, Repr

/-- Why a resident course does not issue (R65, R47, R45, R161, R109, R168, R196, R330). -/
inductive Stall where
  | fill (v : R64)
  | handle (a : Nat)
  | panel (d : Nat)
  | counter (pcn idx : Nat)
  | scrub (part frame : Nat)
  | link (port : Nat)
  | ats (part asid pasid iova : Nat)
  | claim (u : Unit70)
  | control
  deriving DecidableEq, Repr

/-- A fairness turn: its lane and the instructions it may still issue (R145). -/
structure Turn where
  lane : Nat
  left : Nat
  deriving DecidableEq, Repr

/-- What formation fixes for a course (R39, R58). -/
structure CourseId where
  cid : Nat
  part : Nat
  consort : Nat
  launch : Nat
  j : Nat
  core : Nat
  priv : Bool
  mixed : Bool
  pinned : Bool
  ctx : Nat
  cbase : BitVec 64
  codeAsid : Nat
  frame : Nat
  csave : Nat
  tlallot : BitVec 16
  version : Nat
  ownv : BitVec 128
  payload : Option (BitVec 64)
  wid : Nat
  widths : List Nat
  deriving DecidableEq, Repr

/-- The registers of a course (R39). Words P7 and Q7 are constant and not held. -/
structure Regs where
  s : List Word
  p : List Mask
  q : BitVec 8
  lpc : Line
  status : BitVec 64
  d : List (BitVec 256)
  a : List (BitVec 128)
  tl : List (BitVec 64)
  slots : List (BitVec 512)
  deriving DecidableEq, Repr

/-- A course's cached lines and their bookkeeping (R60, R62): lines, HELD, whether CTXFL has flushed the course since it last left its slot
(R321), holder quadrant, ZMASK, residency mask, lines still to be prefetched (R64), poisoned 32-byte sectors of the control area held in the
slot (by frame sector number). -/
structure VCache where
  lines : Tbl CLine
  held : Bool
  flushed : Bool
  hcore : Nat
  hquad : Nat
  zmask : BitVec 64
  resid : BitVec 64
  pref : BitVec 64
  pois : List Nat
  deriving DecidableEq, Repr

/-- A course's deferred window (R67, R68): entries taken, results buffered, DVMASK and DSMASK as last written, OPEN, and
whether a marker that parked its course on a full launch queue still has the window to close (R288). -/
structure Window where
  used : Nat
  buf : List Flight
  dv : BitVec 64
  ds : BitVec 64
  isOpen : Bool
  closing : Bool
  deriving DecidableEq, Repr

/-- How a course stands in the queues (R141 to R145). `tmo` holds the lanes whose next requests get no reply and whether their targets
perform them all the same, `fetchLost` whether the next fetch gets none (R168); `isNew` is a record whose CODE is not 0 (R141); `newer`
lists the byte ranges of the control area in which the registers changed after the park and the frame does not show it yet (R58, R150,
R283). -/
structure Sched where
  at_ : Where
  slot : Nat
  gen : Nat
  join : Nat
  cause : Nat
  prio : Nat
  order : Nat
  await : Await
  deadline : Option Nat
  bound : Bool
  stall : Option Stall
  tmo : Option (Mask × Bool)
  fetchLost : Bool
  wait : List Nat
  turn : Option Turn
  age : Nat
  stopped : Bool
  succ : Bool
  isNew : Bool
  newer : List (Nat × Nat)
  deriving DecidableEq, Repr

/-- A course with its frame (R39, R57). -/
structure Course where
  id : CourseId
  r : Regs
  v : VCache
  w : Window
  k : Sched
  deriving DecidableEq, Repr

/-- A named barrier's record and the courses that arrived in its phase (R175, R285). -/
structure Bar where
  phase : Nat
  arrived : Nat
  bound : Nat
  who : List Nat
  deriving DecidableEq, Repr

/-- A checked scratch access of the current race phase (R84). -/
structure Race where
  word : Nat
  cid : Nat
  write : Bool
  atom : Bool
  deriving DecidableEq, Repr

/-- A consort's progress through distribution (R139). -/
inductive CSt where
  | slotted | placed
  deriving DecidableEq, Repr

/-- A consort (R139, R85, R88, R71, R174). `rows` and `scales` are
its physical groups by 4 core + quadrant, `away` the units claimed from it, `kept` a resumable consort of a muted core (R186), `cid0` the CID of
its course with WID field 1 equal to 0 (R175), `slotL` and `slotI` the slot it holds. -/
structure Consort where
  launch : Nat
  idx : Nat
  part : Nat
  world : Nat
  ctx : Nat
  pinned : Bool
  cores : List Nat
  st : CSt
  win : Nat
  pw : List Nat
  accN : Nat
  rows : List (List Nat)
  scales : List (List Nat)
  tlFirst : Nat
  tlCnt : Nat
  csave : Nat
  nCourses : Nat
  live : Nat
  bars : Tbl Bar
  full : Nat
  races : List Race
  away : List Unit70
  succ : Option (List Byte)
  succPriv : Bool
  lost : Option Nat
  haltb : Bool
  barPend : Bool
  stuck : Bool
  kept : Bool
  asid0 : Nat
  cid0 : Nat
  slotL : Nat
  slotI : Nat
  deriving DecidableEq, Repr

/-- A launch header's fields (R135). -/
structure Hdr where
  lclb : Nat
  lcladdr : Nat
  compseq : Nat
  compaddr : Nat
  argaddr : Nat
  argsize : Nat
  tlcnt : Nat
  accr : Nat
  scrb : Nat
  ccount : Nat
  w1 : Nat
  w2 : Nat
  w3 : Nat
  w4 : Nat
  w5 : Nat
  entry : Nat
  cpc : Nat
  widthc : Nat
  prio : Nat
  pinned : Bool
  msix : Bool
  event : Bool
  priv : Bool
  fenced : Bool
  ver : Nat
  reserved : Bool
  deriving DecidableEq, Repr

/-- An owner a launch places in a slot (R130, R133, R134). -/
structure Owner where
  asid : Nat
  world : Nat
  prio : Nat
  payload : BitVec 64
  lanes : Nat
  deriving DecidableEq, Repr

/-- How a launch came about (R130, R140, R281). -/
inductive Origin where
  | single | pooled | queue | successor
  deriving DecidableEq, Repr

/-- A slot of a launch: the cores and the consort index it holds (R139). -/
structure LSlot where
  cores : List Nat
  cluster : Nat
  holder : Option Nat
  deriving DecidableEq, Repr

/-- A launch in progress (R135 to R140). `next` is the lowest consort index never given a slot. -/
structure Launch where
  hdr : Hdr
  part : Nat
  origin : Origin
  owners : List Owner
  codeAsid : Nat
  compAsid : Nat
  compPriv : Bool
  ctx : Nat
  fn : Option Nat
  port : Option Nat
  seq : Option Nat
  slots : List LSlot
  next : Nat
  back : List Nat
  ended : Nat
  lost : Nat
  first : Option (Nat × Nat)
  held : Bool
  quiet : Bool
  deriving DecidableEq, Repr

/-- A fault as its queue entry shows it (R148). -/
structure Entry where
  cause : Nat
  merge : Nat
  slotf : Nat
  lanes : Mask
  va : Nat
  asid : Nat
  world : Nat
  part : Nat
  cid : Nat
  pc : Nat
  atype : Nat
  size : Nat
  deriving DecidableEq, Repr

/-- What a resolution of an entry acts on (R150, R301, R322, R323, R175, R140, R71). -/
inductive Waiter where
  | split (cid : Nat) (lanes : Mask)
  | whole (cid : Nat)
  | spill (cid : Nat) (lines : List Nat)
  | control (cid : Nat)
  | engine (op : Nat) (cid : Nat) (counted : Bool)
  | barrier (consort : Nat)
  | launch
  | claim (cid : Nat) (u : Unit70)
  | report (consort : Nat)
  deriving DecidableEq, Repr

/-- An entry, pending or held, with those that wait on it (R149). -/
structure Pending where
  e : Entry
  who : List Waiter
  served : Bool
  deriving DecidableEq, Repr

/-- A pool buffer (R134). -/
structure Pool where
  owners : List Owner
  filled : Nat
  hdr : Nat
  casid : Nat
  ctx : Nat
  poolt : Nat
  world : Nat
  until_ : Nat
  fn : Option Nat
  port : Option Nat
  deriving DecidableEq, Repr

/-- A launch waiting in the device-side launch queue (R140): its entry's position, what LAUNCHQ gave it, and the
launch of the course that issued it. -/
structure Queued where
  pos : Nat
  seq : Nat
  asid : Nat
  world : Nat
  priv : Bool
  codeAsid : Nat
  ctx : Nat
  parent : Nat
  deriving DecidableEq, Repr

/-- A partition's fault queue registers and ring (R55, R148, R149). -/
structure Fq where
  base : BitVec 64
  size : BitVec 64
  head : BitVec 64
  tail : BitVec 64
  pending : List Pending
  held : List Pending
  told11 : Bool
  told16 : Bool
  deriving DecidableEq, Repr

/-- A partition's scheduling contexts (R146, R193). -/
structure Ctxs where
  count : Nat
  slice : Nat
  weights : List Nat
  cur : Nat
  left : Nat
  endAt : Nat
  next : Option (Nat × Nat × List Nat)
  deriving DecidableEq, Repr

/-- A partition (R192, R193, R199). -/
structure Part where
  live : Bool
  cores : BitVec 72
  slices : BitVec 24
  ports : BitVec 12
  asidT : Nat
  armT : Nat
  acctT : Nat
  expT : Option Nat
  impT : Option Nat
  root : Nat
  configured : Bool
  rAsid : Nat
  cAsid : Nat
  ctxBase : Nat
  ctxSize : Nat
  disp : Nat
  evFn : Option Nat
  veract : List Nat
  fq : Fq
  pools : Tbl Pool
  lq : List Queued
  lqTail : Nat
  lqNext : Nat
  lqHold : Bool
  ceiling : Nat
  ctxs : Ctxs
  handler : Option (BitVec 64)
  allow : Tbl Word
  frames : List (Nat × Nat)
  denied : Nat
  deriving DecidableEq, Repr

/-- A tag port's binding (R191). -/
structure TagPort where
  asid : Nat
  world : Nat
  prio : Nat
  valid : Bool
  deriving DecidableEq, Repr

/-- A PCIe function (R190 to R192, R157, R106). -/
structure Fn where
  bound : Bool
  part : Nat
  versel : BitVec 64
  heqBase : BitVec 64
  heqSize : Nat
  heqHead : Nat
  heqTail : Nat
  phase : Bool
  dropped : Nat
  crsel : Nat
  crval : BitVec 64
  denied : Bool
  coalt : Nat
  pwrlim : Nat
  mbreq : BitVec 512
  mbcopy : BitVec 512
  mbrsp : BitVec 512
  pend : Bool
  ignored : Bool
  ports : Tbl TagPort
  msix : Tbl (BitVec 128)
  pba : List Nat
  openIv : Tbl Nat
  tdisp : Nat
  everHeq : Bool
  deriving DecidableEq, Repr

/-- A timeline counter (R161, R312). -/
structure Tlc where
  issued : Word
  done : Word
  marked : List Word
  stat : List (Word × Word)
  deriving DecidableEq, Repr

/-- A ticket dispenser (R162). -/
structure Disp where
  ticket : Word
  serving : Word
  mask : BitVec 72
  deriving DecidableEq, Repr

/-- A core's own state (R8, R161, R173, R70, R88). `cyc0` is the time of the last partition reset (CYC, R55). -/
structure CoreSt where
  tls : Tbl Tlc
  tlOwner : Tbl Nat
  blocks : Tbl Nat
  groups : Tbl Nat
  scales : Tbl Nat
  copyOk : Bool
  collOk : Bool
  actOk : Bool
  withheld : Bool
  ev : Tbl Nat
  cyc0 : Nat
  deriving DecidableEq, Repr

/-- A quadrant's own state (R69, R83, R173). -/
structure Quad where
  world : Nat
  gens : Tbl Nat
  chiselOk : Bool
  withheld : Bool
  deriving DecidableEq, Repr

/-- A tile's heartbeat, vote and router state (R163, R180 to R188) and its droop level (R17). -/
structure Tile where
  word : BitVec 64
  nb : List (BitVec 32)
  votes : List Nat
  voteAge : List Nat
  beats : List Nat
  badPos : List Bool
  watch : List Bool
  lastSeq : List (BitVec 16)
  map : BitVec 96
  heard : List Nat
  periods : Nat
  droop : Nat
  sag : Bool
  deriving DecidableEq, Repr

/-- An answer the device gave to the outside: to a host or hub access, a fabric access, a message of MSI-X. -/
inductive Reply where
  | data (bytes : List Byte)
  | done
  | error
  | refused
  | poison
  | muted
  | msix (fn vec : Nat)
  | ats (iova : Nat)
  | link (port from_ : Nat)
  | resent (port : Nat) (flits : List Nat)
  | deviceError
  deriving DecidableEq, Repr

/-- A Celile port (R196, R178): `key` is the link's key, none on an unencrypted link; `held` the answers that an XOFF holds back;
`unacked` the flits that the other end has not acknowledged, by sequence number. -/
structure Port where
  up : Bool
  ver : Nat
  rx : Nat
  tx : Nat
  discarding : Bool
  replayFrom : Option Nat
  unacked : List Nat
  xoff : BitVec 4
  held : List Reply
  retrain : Option Nat
  key : Option (BitVec 256)
  deriving DecidableEq, Repr

/-- The engine operations of R298 to R311. -/
inductive EKind where
  | mma (ns : Bool) (colA colB : Nat)
  | azero
  | astp (rm : Rm)
  | aldp (add : Bool)
  | arow (o : RowOp)
  | scld (colB : Bool)
  | pswz (rm : Rm) (tr : Bool)
  | copy | copym | copyo | gather
  | coll
  | tlsig
  deriving DecidableEq, Repr

/-- An engine operation in flight (R298 to R301): what its instruction held at issue, and its progress. `b1` and `b2` are
the SCRBASE of the slots that own the descriptors `d1` and `d2`; `tmo` notes a transfer without a reply, which the target performs
when `tmoDone`, and `tmoWalk` a page walk without one (R168, R336). `desc` is a collective's group descriptor once its members have
agreed on it, `mtab` the member table's entries (R310). -/
structure EngOp where
  kind : EKind
  cid : Nat
  consort : Nat
  part : Nat
  launch : Nat
  pcn : Nat
  quad : Nat
  tlPcn : Nat
  tlIdx : Nat
  num : Word
  ah : Nat
  region : BitVec 128
  d1 : BitVec 256
  d2 : BitVec 256
  b1 : Nat
  b2 : Nat
  dnums : List Nat
  comp : Word
  va : BitVec 64
  va2 : BitVec 64
  slot : Nat
  asid : Nat
  priv : Bool
  world : Nat
  pc : Nat
  step : Nat
  total : Nat
  units : List Nat
  code : Nat
  skip : Nat
  stopped : Bool
  tmo : Bool
  tmoDone : Bool
  tmoWalk : Bool
  mixed : Bool
  desc : List Byte
  mtab : List Nat
  faulted : List Nat
  round : Nat
  order : Nat
  deriving DecidableEq, Repr

/-- A TLB entry of a 4 KiB page: the leaves it was formed from (R103, R105). -/
structure TlbEnt where
  part : Nat
  asid : Nat
  page : Nat
  base1 : Nat
  size1 : Nat
  leaf1 : Nat
  ipa : Nat
  leaf2 : Nat
  base2 : Nat
  size2 : Nat
  deriving DecidableEq, Repr

/-- A host page whose access the host granted to an ASID's PASID (R103, R106). -/
structure AtsEnt where
  part : Nat
  asid : Nat
  pasid : Nat
  page : Nat
  rd : Bool
  wr : Bool
  deriving DecidableEq, Repr

/-- An invalidation in progress (R104, R105). -/
structure Inval where
  n : Nat
  part : Nat
  ipa : Nat
  deriving DecidableEq, Repr

/-- A tensor table entry (R110). -/
structure Tensor where
  world : Nat
  index : Nat
  tid : Nat
  ver : Nat
  kref : Nat
  base : Nat
  size : Nat
  valid : Bool
  deriving DecidableEq, Repr

/-- The key and tweak under which a 16-byte block is enciphered: TID, VER and block index, in context space the block's address (R57,
R111). Keys are named by numbers; key 2 w is world w's first default key, 2 w + 1 its first context key, and each later pair lies 2^32
higher (R195). -/
structure Tag where
  key : Nat
  tid : Nat
  ver : Nat
  block : Nat
  deriving DecidableEq, Repr

/-- The security core (R110 to R112, R195). `cipher` holds the tag of each 16-byte block that was written under a key; memory then
holds the block's plaintext. `session` is the key of IDE streams. -/
structure Sec where
  keyed : List Nat
  store : List (Nat × Nat)
  tensors : List Tensor
  keySlots : List Nat
  cipher : Tbl Tag
  spdmOk : Bool
  session : Option (BitVec 256)
  spdmOut : List Nat
  deriving DecidableEq, Repr

/-- A hub core (R4, R333): the partitions that hub firmware lets it serve and HSIG as last stored. -/
structure HubCore where
  serves : List Nat
  hsig : BitVec 64
  deriving DecidableEq, Repr

/-- The hub's device-wide registers (R190, R201, R179, R154, R156, R158, R200, R17); `signals` are the hub
cores' accepted signals that are not taken yet, oldest first, by hub core (R333). -/
structure Hub where
  boot : Nat
  ready : Bool
  failed : Bool
  reason : Nat
  replme : BitVec 64
  lpt : List (BitVec 64)
  matrix : Tbl (BitVec 64)
  fdev : Nat
  dev : Tbl Nat
  sliceEv : Tbl Nat
  ceiling : Nat
  below : Nat
  hot : Bool
  reports : List (Nat × Nat × Nat)
  mutedSlices : List Nat
  reported : List Nat
  appealOn : List Nat
  hubCores : List HubCore
  signals : List (Nat × BitVec 64)
  deriving DecidableEq, Repr

/-- Everything but memory and the fixed part. `lost` lists the partitions for which the device's own accesses get no reply in the
next step (R168). -/
structure W where
  now : Nat
  fresh : Nat
  nextCid : Nat
  nextConsort : Nat
  nextLaunch : Nat
  nextOp : Nat
  nextFlight : Nat
  nextOrder : Nat
  agenda : List Instr
  wb : List Wr
  replies : List Reply
  hub : Hub
  sec : Sec
  fns : Tbl Fn
  parts : Tbl Part
  cores : Tbl CoreSt
  quads : Tbl Quad
  tiles : Tbl Tile
  ports : Tbl Port
  disps : Tbl Disp
  launches : Tbl Launch
  consorts : Tbl Consort
  courses : Tbl Course
  ops : Tbl EngOp
  flights : List Flight
  tlb : List TlbEnt
  invals : List Inval
  ats : List AtsEnt
  lost : List Nat
  poison : List Nat
  scrub : List (Nat × Nat)
  deriving DecidableEq, Repr

/-- The state of the machine. -/
structure State where
  fix : Fixed
  mem : Memory
  w : W
  deriving DecidableEq, Repr

/-! Values that a table's missing entry stands for. -/

/-- A function before its driver writes anything (R190). -/
def Fn.init : Fn where
  bound := false
  part := 0
  versel := 0
  heqBase := 0
  heqSize := 0
  heqHead := 0
  heqTail := 0
  phase := true
  dropped := 0
  crsel := 0
  crval := 0
  denied := false
  coalt := 20
  pwrlim := 1800
  mbreq := 0
  mbcopy := 0
  mbrsp := 0
  pend := false
  ignored := false
  ports := []
  msix := []
  pba := []
  openIv := []
  tdisp := 0
  everHeq := false

/-- A fault queue at partition creation and reset (R55). -/
def Fq.init : Fq where
  base := 0
  size := 0
  head := 0
  tail := 0
  pending := []
  held := []
  told11 := false
  told16 := false

/-- One context of weight 1 (R193). -/
def Ctxs.init : Ctxs where
  count := 1
  slice := 0
  weights := [1]
  cur := 0
  left := 1
  endAt := 0
  next := none

/-- A partition that has not been created (R192). -/
def Part.init : Part where
  live := false
  cores := 0
  slices := 0
  ports := 0
  asidT := 0
  armT := 0
  acctT := 0
  expT := none
  impT := none
  root := 0
  configured := false
  rAsid := 0
  cAsid := 0
  ctxBase := 0
  ctxSize := 0
  disp := 0
  evFn := none
  veract := [0, 0, 0, 0, 0]
  fq := Fq.init
  pools := []
  lq := []
  lqTail := 0
  lqNext := 0
  lqHold := false
  ceiling := 7
  ctxs := Ctxs.init
  handler := none
  allow := []
  frames := []
  denied := 0

/-- A counter at allotment (R161). -/
def Tlc.init : Tlc where
  issued := 0
  done := 0
  marked := []
  stat := []

/-- A dispenser at reset (R162). -/
def Disp.init : Disp where
  ticket := 0
  serving := 0
  mask := 0

/-- A core at reset. -/
def CoreSt.init : CoreSt where
  tls := []
  tlOwner := []
  blocks := []
  groups := []
  scales := []
  copyOk := true
  collOk := true
  actOk := true
  withheld := false
  ev := []
  cyc0 := 0

/-- A quadrant at reset. -/
def Quad.init : Quad where
  world := 0
  gens := []
  chiselOk := true
  withheld := false

/-- A barrier no course has reached (R175). -/
def Bar.init : Bar where
  phase := 0
  arrived := 0
  bound := 0
  who := []

/-- A port before link negotiation (R199). -/
def Port.init : Port where
  up := false
  ver := 0
  rx := 0
  tx := 0
  discarding := false
  replayFrom := none
  unacked := []
  xoff := 0
  held := []
  retrain := none
  key := none

/-- The hub before bring-up (R190, R153). -/
def Hub.init : Hub where
  boot := 0
  ready := false
  failed := false
  reason := 0
  replme := 0
  lpt := List.replicate 72 0
  matrix := []
  fdev := 0
  dev := []
  sliceEv := []
  ceiling := 8
  below := 0
  hot := false
  reports := []
  mutedSlices := []
  reported := []
  appealOn := []
  hubCores := List.replicate 8 ⟨[], 0⟩
  signals := []

/-- The security core before any key (R110). -/
def Sec.init : Sec where
  keyed := []
  store := []
  tensors := []
  keySlots := []
  cipher := []
  spdmOk := false
  session := none
  spdmOut := []

/-- Everything but memory, right after power-on. -/
def W.init : W where
  now := 0
  fresh := 0
  nextCid := 0
  nextConsort := 0
  nextLaunch := 0
  nextOp := 0
  nextFlight := 0
  nextOrder := 0
  agenda := []
  wb := []
  replies := []
  hub := Hub.init
  sec := Sec.init
  fns := []
  parts := []
  cores := []
  quads := []
  tiles := []
  ports := []
  disps := []
  launches := []
  consorts := []
  courses := []
  ops := []
  flights := []
  tlb := []
  invals := []
  ats := []
  lost := []
  poison := []
  scrub := []

/-- The machine right after power-on or a device reset, before the bring-up of R201: BOOTST 0, the tables of R153 at their
reset values, memory with nothing listed. The form and the fuses are log entry 1's. -/
def State.reset : State where
  fix := ⟨.m68, 0, 0⟩
  mem := []
  w := W.init

end Sys2Proof.Machine
end

