-- ==== Sys2Proof/Machine/Mem.lean ====
section
/-! DEFINITION. Memory: the keys of its regions, reading a byte, and writes gathered in a step and made at its end. -/

namespace Sys2Proof.Machine

/-- What a meaning reads and never changes: the fixed part and memory as the step found it. -/
structure Env where
  fix : Fixed
  mem : Memory
  deriving DecidableEq, Repr

/-- Device memory: the local address of a slice (R92). -/
def keyDev (slice loc : Nat) : Nat := slice * 2 ^ 35 + loc

/-- Scratch: a core, the start of a world's bank set among the core's sets, and a physical offset in the set (R77, R83). -/
def keyScr (pcn base p : Nat) : Nat := 2 ^ 41 + pcn * 2 ^ 21 + base + p

/-- An accumulator element: a 64 x 64 block of a quadrant's row group and column block (R85). -/
def keyAcc (pcn quad group cb r c : Nat) : Nat :=
  2 ^ 42 + (((pcn * 4 + quad) * 8 + group) * 4 + cb) * 16384 + (r * 64 + c) * 4

/-- Where scale memory's keys start. -/
def keyScaleBase : Nat := 2 ^ 43

/-- A scale byte: column and entry of a quadrant (R88, R89). -/
def keyScale (pcn quad col entry : Nat) : Nat := keyScaleBase + ((pcn * 4 + quad) * 128 + col) * 512 + entry

/-- The number of scale bytes of the device. -/
def scaleBytes : Nat := 72 * 4 * 128 * 512

/-- Another package's exported space (R108). -/
def keyFab (fdev addr : Nat) : Nat := 2 ^ 72 + fdev * 2 ^ 52 + addr

/-- Host memory: a partition's PASID and an IOVA below 2^64 (R97, R99). -/
def keyHost (p pasid iova : Nat) : Nat := 2 ^ 84 + (p * 2 ^ 20 + pasid) * 2 ^ 64 + iova

/-- What an address not listed reads as: scale 1 in scale memory (R88), 0 elsewhere (log entry 4). -/
def unlisted (a : Nat) : Byte := if keyScaleBase ≤ a ∧ a < keyScaleBase + scaleBytes then 0x7F else 0

/-- The canonical form: addresses rise, and no entry equals what an unlisted address reads as. -/
def Memory.wfAt : Option Nat → Memory → Bool
  | _, [] => true
  | lo, (a, b) :: r => (match lo with | none => true | some l => l < a) && b != unlisted a && Memory.wfAt (some a) r

/-- The canonical form of memory. -/
def Memory.wf (m : Memory) : Bool := Memory.wfAt none m

/-- The byte at an address of memory. -/
def Memory.rd : Memory → Nat → Byte
  | [], a => unlisted a
  | (x, b) :: r, a => if x = a then b else if a < x then unlisted a else Memory.rd r a

/-- Memory with a byte written, its form kept. -/
def Memory.wr : Memory → Nat → Byte → Memory
  | [], a, v => if v = unlisted a then [] else [(a, v)]
  | (x, b) :: r, a, v =>
    if x = a then (if v = unlisted a then r else (a, v) :: r)
    else if a < x then (if v = unlisted a then (x, b) :: r else (a, v) :: (x, b) :: r)
    else (x, b) :: Memory.wr r a v

/-- Memory with a range as if never written. -/
def Memory.clear (m : Memory) (a n : Nat) : Memory := m.filter fun c => c.1 < a || a + n ≤ c.1

/-- One gathered write made. -/
def Memory.apply (m : Memory) : Wr → Memory
  | .byte a v => m.wr a v
  | .clear a n => m.clear a n

/-- The gathered writes made in the order they were gathered; the newest stands first. -/
def flush : List Wr → Memory → Memory
  | [], m => m
  | x :: r, m => (flush r m).apply x

/-- A byte as the step sees it: its own latest write, else memory. -/
def rdW (m : Memory) : List Wr → Nat → Byte
  | [], a => m.rd a
  | .byte x v :: r, a => if x = a then v else rdW m r a
  | .clear x n :: r, a => if x ≤ a ∧ a < x + n then unlisted a else rdW m r a

/-- A byte as the step sees it. -/
def rdB (e : Env) (w : W) (a : Nat) : Byte := rdW e.mem w.wb a

/-- n bytes from an address. -/
def rdBs (e : Env) (w : W) (a n : Nat) : List Byte := (List.range n).map fun i => rdB e w (a + i)

/-- A little-endian number of n bytes. -/
def rdN (e : Env) (w : W) (a n : Nat) : Nat := leNat (rdBs e w a n)

/-- A byte written. -/
def wrB (w : W) (a : Nat) (v : Byte) : W := { w with wb := .byte a v :: w.wb }

/-- A range cleared to what unlisted addresses read as. -/
def wrClear (w : W) (a n : Nat) : W := { w with wb := .clear a n :: w.wb }

/-- A range written with zeros, from its end down. -/
def wrZeros (w : W) (a n : Nat) : W := (List.range n).foldl (fun w i => wrB w (a + (n - 1 - i)) 0) w

/-- Bytes written from an address upwards. -/
def wrBs (w : W) (a : Nat) : List Byte → W
  | [] => w
  | b :: bs => wrBs (wrB w a b) (a + 1) bs

/-- A little-endian number of n bytes written. -/
def wrN (w : W) (a n v : Nat) : W := wrBs w a (leBytes n v)

/-- The state after a step whose meaning is f: its writes made, none left gathered. -/
def commit (f : Env → W → W) (s : State) : State :=
  let w := f ⟨s.fix, s.mem⟩ s.w
  { fix := s.fix, mem := flush w.wb s.mem, w := { w with wb := [] } }

/-- The outcome of an event: it always ends in a next state. -/
def event (f : Env → W → W) (s : State) : Host.Outcome State Fault Refusal := .next (commit f s)

/-! Poison marks (R170): a unit is named by its first key. -/

/-- The unit that holds a key: a 16 KiB accumulator block, else 32 bytes. -/
def unitOf (a : Nat) : Nat :=
  if 2 ^ 42 ≤ a ∧ a < 2 ^ 43 then a / 16384 * 16384 else a / 32 * 32

/-- Whether a key lies in a poisoned unit. -/
def isPois (w : W) (a : Nat) : Bool := w.poison.contains (unitOf a)

/-- A unit marked. -/
def poisonAt (w : W) (a : Nat) : W :=
  if w.poison.contains (unitOf a) then w else { w with poison := unitOf a :: w.poison }

/-- A unit's mark cleared (R172). -/
def cleanAt (w : W) (a : Nat) : W := { w with poison := w.poison.filter (· != unitOf a) }

/-- The marks of a range cleared. -/
def cleanRange (w : W) (a n : Nat) : W := { w with poison := w.poison.filter fun u => u < a || a + n ≤ u }

/-- The poison marks of sectors that one instruction's writes cover whole cleared (R172): keys written. -/
def cleanCovered (w : W) (keys : List Nat) : W :=
  if w.poison = [] then w
  else ((keys.map unitOf).dedup).foldl (fun w u =>
    if w.poison.contains u ∧ (List.range 32).all fun i => keys.contains (u + i) then cleanAt w u else w) w

/-- A value the specification leaves open: a number of its own and the state that has used it (log entry 6). -/
def freshN (w : W) : Nat × W := (w.fresh, { w with fresh := w.fresh + 1 })

end Sys2Proof.Machine
end

