-- ==== Sys2Proof/Machine/Mesh.lean ====
section
/-! DEFINITION. The package: the logical-to-physical table, tiles, memory packages, ports, and the routes of the mesh (R4 to R9, R154,
R184, R196). -/

namespace Sys2Proof.Machine

/-! The logical-to-physical table (R154). -/

/-- Entry l of the table. -/
def lptAt (w : W) (l : Nat) : BitVec 64 := nth w.hub.lpt l 0

def lptPcn (x : BitVec 64) : Nat := bvF x 0 7
def lptCluster (x : BitVec 64) : Nat := bvF x 8 5
def lptValid (x : BitVec 64) : Bool := bvF x 18 1 == 1
def lptAbsent (x : BitVec 64) : Bool := bvF x 16 1 == 1

/-- The PCN of a logical core. -/
def pcnOf (w : W) (l : Nat) : Nat := lptPcn (lptAt w l)

/-- The logical core of a PCN. -/
def lcoreOf (w : W) (pcn : Nat) : Nat :=
  ((List.range 72).find? fun l => lptValid (lptAt w l) && lptPcn (lptAt w l) == pcn).getD 0

/-- Whether a core stands in the table and is absent (R154). -/
def pcnAbsent (w : W) (pcn : Nat) : Bool :=
  !((List.range 72).any fun l => lptValid (lptAt w l) && lptPcn (lptAt w l) == pcn && !lptAbsent (lptAt w l))

/-- Whether a core's tile is muted (R183): its entry has MUTED. -/
def pcnMuted (w : W) (pcn : Nat) : Bool :=
  (List.range 72).any fun l => lptValid (lptAt w l) && lptPcn (lptAt w l) == pcn && bvF (lptAt w l) 17 1 == 1

/-! Clusters, positions and tiles (R5, R6). -/

/-- A PCN's die, column and row. -/
def pcnDie (p : Nat) : Nat := p / 36
def pcnX (p : Nat) : Nat := p % 6 + 1
def pcnY (p : Nat) : Nat := p % 36 / 6
/-- The PCN of a core tile (R6). -/
def pcnAt (d x y : Nat) : Nat := 36 * d + 6 * y + (x - 1)
/-- The cluster of a PCN (R6). -/
def clusterOf (p : Nat) : Nat := 9 * pcnDie p + 3 * (pcnY p / 2) + (pcnX p - 1) / 2
/-- The position of a PCN in its cluster (R6). -/
def posOf (p : Nat) : Nat := 2 * (pcnY p % 2) + (pcnX p - 1) % 2
/-- A slice's die, column and row (R6). -/
def sliceDie (s : Nat) : Nat := s / 12
def sliceX (s : Nat) : Nat := if s % 12 < 6 then 0 else 7
def sliceY (s : Nat) : Nat := s % 6
/-- A tile's number here: 8 times its global row plus its column (R5). -/
def tileAt (x gy : Nat) : Nat := 8 * gy + x
def tileX (t : Nat) : Nat := t % 8
def tileGy (t : Nat) : Nat := t / 8
def tileOfPcn (p : Nat) : Nat := tileAt (pcnX p) (6 * pcnDie p + pcnY p)
def tileOfSlice (s : Nat) : Nat := tileAt (sliceX s) (6 * sliceDie s + sliceY s)
def tileIsCore (t : Nat) : Bool := tileX t != 0 && tileX t != 7
def pcnOfTile (t : Nat) : Nat := pcnAt (tileGy t / 6) (tileX t) (tileGy t % 6)
def sliceOfTile (t : Nat) : Nat := 12 * (tileGy t / 6) + (if tileX t = 0 then 0 else 6) + tileGy t % 6
/-- A tile's number in events: its PCN, or 0x100 + its slice (R183). -/
def tileNumber (t : Nat) : Nat := if tileIsCore t then pcnOfTile t else 0x100 + sliceOfTile t
/-- The tile of an event number. -/
def tileOfNumber (n : Nat) : Nat := if n < 0x100 then tileOfPcn n else tileOfSlice (n - 0x100)

/-- The neighbour of a tile: 0 north (lower row), 1 east, 2 south, 3 west; none beyond the mesh (R7, R180). -/
def neighbour (t dir : Nat) : Option Nat :=
  let x := tileX t
  let y := tileGy t
  match dir with
  | 0 => if y = 0 then none else some (tileAt x (y - 1))
  | 1 => if x = 7 then none else some (tileAt (x + 1) y)
  | 2 => if y = 11 then none else some (tileAt x (y + 1))
  | _ => if x = 0 then none else some (tileAt (x - 1) y)

/-- The number of a tile's mesh neighbours (R7). -/
def neighbours (t : Nat) : Nat := ((List.range 4).filter fun d => (neighbour t d).isSome).length

/-- A tile before any heartbeat: its records' PRESENT bits follow the topology (R163). -/
def Tile.initAt (t : Nat) : Tile where
  word := 0
  nb := (List.range 4).map fun d => if (neighbour t d).isSome then BitVec.ofNat 32 (2 ^ 21) else 0
  votes := [0, 0, 0, 0]
  voteAge := [0, 0, 0, 0]
  beats := [0, 0, 0, 0]
  badPos := [false, false, false, false]
  watch := [false, false, false, false]
  lastSeq := [0, 0, 0, 0]
  map := 0
  heard := []
  periods := 0
  droop := 8
  sag := false

/-- A tile. -/
def tile (w : W) (t : Nat) : Tile := tGetD w.tiles t (Tile.initAt t)

/-- A tile changed. -/
def updTile (w : W) (t : Nat) (f : Tile → Tile) : W := { w with tiles := tPut w.tiles t (f (tile w t)) }

/-- A link port. -/
def port (w : W) (n : Nat) : Port := tGetD w.ports n Port.init

/-- A link port changed. -/
def updPort (w : W) (n : Nat) (f : Port → Port) : W := { w with ports := tPut w.ports n (f (port w n)) }

/-- Whether a port takes a good flit of its link's other end: the link is up, and the flit bears the number that comes next, which after
a bad flit is that flit's own until it is replayed (R196). -/
def takesFlit (w : W) (n seq : Nat) : Bool := (port w n).up && (port w n).rx == seq

/-- A good flit taken in: it acknowledges all flits sent before it, and the one replayed ends a discard (R196, log entry 13). -/
def flitIn (w : W) (n : Nat) : W := updPort w n fun p =>
  { p with rx := p.rx + 1, unacked := [], discarding := false, replayFrom := none }

/-- Whether an XOFF stops a traffic class at a port: 0 requests, 1 replies, 2 collectives, 3 messages (R196). -/
def xoffAt (w : W) (n cls : Nat) : Bool := (port w n).xoff.getLsbD cls

/-- A flit sent, kept until it is acknowledged (R196). -/
def flitOut (w : W) (n : Nat) : W := updPort w n fun p => { p with tx := p.tx + 1, unacked := p.unacked ++ [p.tx] }

/-- A dispenser. -/
def disp (w : W) (d : Nat) : Disp := tGetD w.disps d Disp.init

/-- A dispenser changed. -/
def updDisp (w : W) (d : Nat) (f : Disp → Disp) : W := { w with disps := tPut w.disps d (f (disp w d)) }

/-! Memory packages and the hub link (R4, R5, R9). -/

/-- The memory packages of a slice. -/
def packagesOf (slice : Nat) : List Nat := [2 * slice, 2 * slice + 1]

/-- The package of a channel: channel 16 s + k belongs to package 2 s + k / 8. -/
def packageOf (channel : Nat) : Nat := 2 * (channel / 16) + channel % 16 / 8

/-- The tiles at which the hub link enters the mesh: (3,0) and (4,0) of die 0. -/
def hubEntries : List Nat := [tileAt 3 0, tileAt 4 0]

/-- The slice on which a Celile port sits (R196). -/
def portSlice (n : Nat) : Nat :=
  let d := n / 6
  let j := n % 6
  if j < 3 then 12 * d + 1 + 2 * j else 12 * d + 7 + 2 * (j - 3)

/-- The tile of a requester row of the connection matrix (R156): a core's, an entry of the hub link, a Celile port's slice's. -/
def rowTile (row : Nat) : Nat :=
  if row < 72 then tileOfPcn row else if row = 72 then tileAt 3 0 else tileOfSlice (portSlice (row - 73))

/-! Routes (R7, R184). -/

/-- The coordinates passed from a to b, b included. -/
def span (a b : Nat) : List Nat :=
  if a ≤ b then (List.range (b - a)).map (a + 1 + ·) else (List.range (a - b)).map fun i => a - 1 - i

/-- The tiles after s on the way to t, X first. -/
def xPath (s t : Nat) : List Nat :=
  (span (tileX s) (tileX t)).map (tileAt · (tileGy s)) ++ (span (tileGy s) (tileGy t)).map (tileAt (tileX t))

/-- The tiles after s on the way to t, Y first. -/
def yPath (s t : Nat) : List Nat :=
  (span (tileGy s) (tileGy t)).map (tileAt (tileX s)) ++ (span (tileX s) (tileX t)).map (tileAt · (tileGy t))

/-- Whether a router's map of muted tiles meets a path before its end. -/
def meets (w : W) (r : Nat) (path : List Nat) : Bool := path.dropLast.any fun t => (tile w r).map.getLsbD t

/-- Whether a router sends nothing to a neighbour: GATEOUT of its record (R163). -/
def gateShut (w : W) (r n : Nat) : Bool :=
  (List.range 4).any fun d => neighbour r d == some n && bvF (nth (tile w r).nb d 0) 19 1 == 1

/-- Whether a router finds that a packet to t cannot go on X first: its map shows a muted tile on the way, or its gate to the next
tile is closed. -/
def xBlocked (w : W) (t r : Nat) : Bool :=
  meets w r (xPath r t) || (match xPath r t with | n :: _ :: _ => gateShut w r n | _ => false)

/-- Whether a packet from one tile to another is turned into a MUTED reply on the way: at the first router that cannot send it on
X first, Y first meets a muted tile too. -/
def noRoute (w : W) (s t : Nat) : Bool :=
  !w.tiles.isEmpty && match (s :: (xPath s t).dropLast).find? (xBlocked w t) with
    | none => false
    | some r => meets w r (yPath r t)

/-- Whether a core's requests to another get a MUTED reply: it is muted, or no route leads to it (R81, R129, R184). -/
def coreAway (w : W) (row pcn : Nat) : Bool := pcnMuted w pcn || noRoute w (tileOfPcn row) (tileOfPcn pcn)

end Sys2Proof.Machine
end

