-- ==== Sys2Proof/Machine/Xlate.lean ====
section
/-! DEFINITION. Slices, interleave, encipherment, and two-stage translation (R92 to R113, R336). -/

namespace Sys2Proof.Machine

/-- A partition. -/
def part (w : W) (p : Nat) : Part := tGetD w.parts p Part.init

/-- A partition changed. -/
def updPart (w : W) (p : Nat) (f : Part → Part) : W := { w with parts := tPut w.parts p (f (part w p)) }

/-- A function. -/
def fn (w : W) (n : Nat) : Fn := tGetD w.fns n Fn.init

/-- A function changed. -/
def updFn (w : W) (n : Nat) (f : Fn → Fn) : W := { w with fns := tPut w.fns n (f (fn w n)) }

/-- A core's own state. -/
def core (w : W) (pcn : Nat) : CoreSt := tGetD w.cores pcn CoreSt.init

/-- A core's own state changed. -/
def updCore (w : W) (pcn : Nat) (f : CoreSt → CoreSt) : W := { w with cores := tPut w.cores pcn (f (core w pcn)) }

/-- A quadrant's own state, by 4 PCN + quadrant. -/
def quad (w : W) (q : Nat) : Quad := tGetD w.quads q Quad.init

/-- A quadrant's own state changed. -/
def updQuad (w : W) (q : Nat) (f : Quad → Quad) : W := { w with quads := tPut w.quads q (f (quad w q)) }

/-- A partition's slices in ascending order: SL of R92. -/
def slicesOf (pt : Part) : List Nat := (List.range 24).filter fun s => pt.slices.getLsbD s

/-- The slices that hold 32 GiB (R12). -/
def holds32 (f : Form) (s : Nat) : Bool :=
  match f with
  | .m68 => true
  | .m64 => [0, 1, 6, 7, 12, 13, 18, 19].contains s
  | .p68 => Config.fitted32 s

/-- The bytes of each of a slice's memory packages (R12). -/
def packageBytes (f : Form) (s : Nat) : Nat := if holds32 f s then 2 ^ 34 else 2 ^ 33

/-- The bytes of device memory (R1, R12). -/
def deviceBytes (f : Form) : Nat := ((List.range 24).map fun s => 2 * packageBytes f s).sum

/-- The power limit of an ordering code, in watts (R1). -/
def devicePower (f : Form) : Nat := f.maxPower.getD Config.modulePower

/-- The slice and local address of a local physical address; none beyond the range's end (R92). -/
def physLoc (f : Form) (pt : Part) (pa : Nat) : Option (Nat × Nat) :=
  let sl := slicesOf pt
  let s := sl.length
  let b := pa / 4096
  let o := pa % 4096
  if s = 0 then none
  else if f = .m68 then
    if pa < s * 2 ^ 35 then some (nth sl (b % s) 0, b / s * 4096 + o) else none
  else if pa < s * 2 ^ 34 then some (nth sl (b % s) 0, b / s * 4096 + o)
  else
    let s32 := sl.filter (holds32 f)
    let b2 := b - s * 4194304
    if s32.length = 0 then none
    else if b2 < s32.length * 4194304 then some (nth s32 (b2 % s32.length) 0, 2 ^ 34 + b2 / s32.length * 4096 + o)
    else none

/-- The channel of an offset within a slice's block (R92). -/
def channelOf (slice o : Nat) : Nat := 16 * slice + o % 4096 / 256

/-! Encipherment (R57, R110, R111): a block carries the tag it was written under; world 0's carries none in device memory. -/

/-- The tensor entry of a world that holds a local physical address. -/
def tensorAt (w : W) (wd pa : Nat) : Option Tensor :=
  w.sec.tensors.find? fun t => t.world == wd && t.valid && t.base ≤ pa && pa < t.base + t.size

/-- The number of a world's stored key. -/
def keyNo (wd kref : Nat) : Nat := (kref + 1) * 32 + wd

/-- How often a world has been given keys anew: it gets new ones each time it is given a first quadrant (R195). -/
def keyGen (w : W) (wd : Nat) : Nat := (w.sec.keyed.filter fun k => k % 2 ^ 32 == 2 * wd).length - 1

/-- The number of a world's default key. -/
def defaultKey (w : W) (wd : Nat) : Nat := 2 * wd + 2 ^ 32 * keyGen w wd

/-- The number of a world's context key. -/
def contextKey (w : W) (wd : Nat) : Nat := 2 * wd + 1 + 2 ^ 32 * keyGen w wd

/-- The tag under which a world reads and writes the block of a local physical address (R111). -/
def tagOf (w : W) (wd pa : Nat) : Option Tag :=
  if wd = 0 then none
  else match tensorAt w wd (pa / 16 * 16) with
    | some t => some ⟨keyNo wd t.kref, t.tid, t.ver, (pa / 16 * 16 - t.base) / 16⟩
    | none => some ⟨defaultKey w wd, 0, 0, pa / 16⟩

/-- The tag of a block of a frame or save area: the context key of the course's world and the block's context-space address (R57). -/
def ctxTag (w : W) (wd va : Nat) : Option Tag := some ⟨contextKey w wd, 0, 0, va / 16 * 16⟩

/-- A block under a tag's key and tweak: TID, VER and block, 32, 32 and 64 bits from the highest down; the number's bytes are
little-endian, as IEEE 1619 has them (R111, log entry 10). -/
def xtsUnder (aes : List Nat → List Nat → List Nat) (t : Tag) (x : BitVec 128) : BitVec 128 :=
  let bytes := fun n v => (leBytes n v).map (·.toNat)
  let tweak := t.tid % 2 ^ 32 * 2 ^ 96 + t.ver % 2 ^ 32 * 2 ^ 64 + t.block % 2 ^ 64
  let b := xtsBlock aes (bytes 64 (Config.xtsKey t.key).toNat) (bytes 16 tweak) (bytes 16 x.toNat)
  BitVec.ofNat 128 (leNat (b.map (BitVec.ofNat 8)))

/-- A block under a tag: plaintext without one. -/
def encipher (t : Option Tag) (x : BitVec 128) : BitVec 128 :=
  match t with
  | none => x
  | some t => xtsUnder aesEnc t x

/-- The plaintext of a block under a tag. -/
def decipher (t : Option Tag) (x : BitVec 128) : BitVec 128 :=
  match t with
  | none => x
  | some t => xtsUnder aesDec t x

/-- A block written under one tag as it reads under another: what stands in the memory cells, deciphered (log entry 10). -/
def recipher (bs : List Byte) (have_ want : Option Tag) : List Byte :=
  leBytes 16 (decipher want (encipher have_ (BitVec.ofNat 128 (leNat bs)))).toNat

/-- A byte of device memory read under a tag. -/
def rdTag (e : Env) (w : W) (want : Option Tag) (key : Nat) : Byte :=
  let have_ := tGet? w.sec.cipher (key / 16)
  if have_ = want then rdB e w key
  else (recipher (rdBs e w (key / 16 * 16) 16) have_ want).getD (key % 16) 0

/-- A byte of device memory written under a tag: the rest of its block is first deciphered and re-enciphered when it bears
another. -/
def wrTag (e : Env) (w : W) (want : Option Tag) (key : Nat) (v : Byte) : W :=
  let have_ := tGet? w.sec.cipher (key / 16)
  if have_ = want then wrB w key v
  else
    let b := key / 16 * 16
    let w := wrBs w b (recipher (rdBs e w b 16) have_ want)
    let c := match want with
      | some t => tPut w.sec.cipher (key / 16) t
      | none => tDel w.sec.cipher (key / 16)
    wrB { w with sec := { w.sec with cipher := c } } key v

/-- A byte of device memory as a world reads it. -/
def rdCipher (e : Env) (w : W) (wd pa key : Nat) : Byte := rdTag e w (tagOf w wd pa) key

/-- A byte of device memory written by a world. -/
def wrCipher (e : Env) (w : W) (wd pa key : Nat) (v : Byte) : W := wrTag e w (tagOf w wd pa) key v

/-! Places an access can go (R75, R99). -/

/-- Where a translated byte stands. -/
inductive Loc where
  | dev (slice loc pa : Nat)
  | host (part pasid iova : Nat)
  | fab (fdev addr : Nat)
  deriving DecidableEq, Repr

/-- The memory key of a place. -/
def Loc.key : Loc → Nat
  | .dev s l _ => keyDev s l
  | .host p q i => keyHost p q i
  | .fab f a => keyFab f a

/-- The place n bytes on, within a page. -/
def Loc.add : Loc → Nat → Loc
  | .dev s l p, n => .dev s (l + n) (p + n)
  | .host p q i, n => .host p q (i + n)
  | .fab f a, n => .fab f (a + n)

/-- Whether a place is host or fabric memory, where synchronisation takes effect at SY (R115). -/
def Loc.isOutside : Loc → Bool
  | .dev .. => false
  | _ => true

/-- The 2 MiB frame of its partition's local physical range that holds an address (R92, R109). -/
def frameOf (pa : Nat) : Nat := pa / 2 ^ 21

/-- The frame that holds a local physical address of a slice and waits for its scrub, if one does: the slice's partition and the frame's
number (R109). -/
def scrubAt (w : W) (slice pa : Nat) : Option (Nat × Nat) :=
  w.scrub.find? fun (p, f) => f == frameOf pa && (part w p).slices.getLsbD slice

/-- Whether the frame of a local physical address of a slice waits for its scrub (R109). -/
def scrubbing (w : W) (slice pa : Nat) : Bool := (scrubAt w slice pa).isSome

/-- The first keys of the 4 KiB blocks of a frame at its home slices (R92, R109). -/
def frameKeys (f : Form) (pt : Part) (frame : Nat) : List Nat :=
  (List.range 512).filterMap fun i => (physLoc f pt (frame * 2 ^ 21 + 4096 * i)).map fun (s, l) => keyDev s l

/-- A frame's scrub done: it reads zero, its poison and encipherment are gone, and the accesses that wait for it go on (R109). -/
def scrubFrame (e : Env) (w : W) (p frame : Nat) : W :=
  if !w.scrub.contains (p, frame) then w
  else
    let keys := frameKeys e.fix.form (part w p) frame
    let w := keys.foldl (fun w a => cleanRange (wrClear w a 4096) a 4096) w
    { w with
      scrub := w.scrub.filter (· != (p, frame))
      sec := { w.sec with cipher := w.sec.cipher.filter fun x => !keys.contains (x.1 * 16 / 4096 * 4096) }
      courses := tMap w.courses fun _ c =>
        if c.k.stall = some (.scrub p frame) then { c with k := { c.k with stall := none } } else c }

/-- A frame moved to the head of the scrub order (R109). -/
def scrubFirst (w : W) (p frame : Nat) : W :=
  if w.scrub.contains (p, frame) then { w with scrub := (p, frame) :: w.scrub.filter (· != (p, frame)) } else w

/-- Whether a slice is muted (R129). -/
def sliceMuted (w : W) (s : Nat) : Bool := w.hub.mutedSlices.contains s

/-! Walks (R96 to R101, R336). -/

/-- What a translation is for (R101): the permission it needs. -/
inductive Need where
  | read | write | fetch | atom | red
  deriving DecidableEq, Repr

/-- The result of a translation: a value, a failing cause, or what it waits for. -/
inductive Xr (α : Type) where
  | ok (a : α)
  | fail (cause : Nat)
  | wait (x : Stall)
  deriving DecidableEq, Repr

/-- Results in sequence. -/
def Xr.bind {α β : Type} (x : Xr α) (f : α → Xr β) : Xr β :=
  match x with
  | .ok a => f a
  | .fail c => .fail c
  | .wait s => .wait s

/-- Whether a requester's packets cannot reach a slice round the muted tiles, by its row of the connection matrix (R184); the hub has
two entries to the mesh. -/
def sliceCut (w : W) (row s : Nat) : Bool :=
  (if row = 72 then hubEntries else [rowTile row]).all fun t => noRoute w t (tileOfSlice s)

/-- A table entry of 8 bytes read from device memory; 0x20 for a poisoned sector, 0x21 for a slice that is muted or cut off (R184,
R336). The manual gives the walkers no place (R103): their packets enter the mesh where the hub's do, the model's choice (log
entry 24). -/
def rdEntry (e : Env) (w : W) (p wd pa : Nat) : Xr Nat :=
  match physLoc e.fix.form (part w p) pa with
  | none => .fail 0x16
  | some (s, l) =>
    if sliceMuted w s || sliceCut w 72 s then .fail 0x21
    else if scrubbing w s pa then .ok 0
    else if isPois w (keyDev s l) then .fail 0x20
    else .ok (leNat ((List.range 8).map fun i => rdCipher e w wd (pa + i) (keyDev s l + i)))

/-- The page bytes of a SIZE code (R99). -/
def pageBytes (size : Nat) : Nat := nth [2 ^ 12, 2 ^ 16, 2 ^ 21, 2 ^ 30, 2 ^ 33] size 0

/-- Whether a leaf's SIZE stands at a level (R100). -/
def sizeAt (lvl size : Nat) : Bool :=
  match lvl with
  | 1 => size == 0 || size == 1
  | 2 => size == 2
  | 3 => size == 3 || size == 4
  | _ => false

/-- A walk from a table at a level: the leaf and its level; `bad` is the cause of a malformed entry (R98, R100). -/
def walk (rd : Nat → Xr Nat) (bad : Nat) : Nat → Nat → Nat → Xr (Nat × Nat)
  | 0, _, _ => .fail bad
  | lvl + 1, table, va =>
    (rd (table + 8 * (va / 2 ^ (12 + 9 * lvl) % 512))).bind fun en =>
      if !bitAt en 0 then .fail bad
      else if bitsAt en 1 5 = 0 ∧ bitsAt en 6 3 = 0 then
        if lvl = 0 then .fail bad else walk rd bad lvl (bitsAt en 12 40 * 4096) va
      else if sizeAt (lvl + 1) (bitsAt en 6 3) && bitsAt en 9 2 != 3 then .ok (en, lvl + 1)
      else .fail bad

/-- The address that a leaf at a level gives: its own entry's frame with the offset below the level's step (R100). -/
def leafAddr (en lvl va : Nat) : Nat :=
  let step := 2 ^ (12 + 9 * (lvl - 1))
  bitsAt en 12 40 * 4096 / step * step + va % step

/-- Whether a leaf's permission bits allow an access (R101); none or the failing cause. -/
def permCause (en : Nat) : Need → Option Nat
  | .read => if bitAt en 1 then none else some 0x11
  | .write => if bitAt en 2 then none else some 0x12
  | .fetch => if bitAt en 3 then none else some 0x13
  | .atom => if !bitAt en 1 then some 0x11 else if !bitAt en 2 then some 0x12 else if bitAt en 4 then none else some 0x14
  | .red => if !bitAt en 2 then some 0x12 else if bitAt en 4 then none else some 0x14

/-- Stage 2: an intermediate address to a local physical one, with its leaf and level (R96, R99, R101). Hub firmware writes the
tables, in plaintext, so they are read as world 0 reads; no table maps an address of 2^48 or above (log entry 24). -/
def stage2 (e : Env) (w : W) (p ipa : Nat) (nd : Need) : Xr (Nat × Nat × Nat) :=
  if ipa ≥ 2 ^ 48 then .fail 0x16
  else (walk (rdEntry e w p 0) 0x16 4 (part w p).root ipa).bind fun (en, lvl) =>
    if bitsAt en 9 2 ≠ 0 then .fail 0x16
    else match permCause en nd with
      | some _ => .fail 0x16
      | none =>
        let pa := leafAddr en lvl ipa
        match physLoc e.fix.form (part w p) pa with
        | none => .fail 0x16
        | some _ => .ok (pa, en, lvl)

/-- An ASID table entry: ROOT and PASID (R97). It and the stage-1 tables are read as the accessor's world reads (log entry 24). -/
def asidEntry (e : Env) (w : W) (p wd asid : Nat) : Xr (Nat × Nat) :=
  let a := (part w p).asidT + 16 * asid
  (rdEntry e w p wd a).bind fun lo =>
    (rdEntry e w p wd (a + 8)).bind fun hi =>
      if bitAt lo 0 then .ok (bitsAt lo 12 40 * 4096, bitsAt hi 0 20) else .fail 0x10

/-- Stage 1's leaf and level of a virtual address; every table address passes stage 2 (R96). -/
def stage1 (e : Env) (w : W) (p wd root va : Nat) : Xr (Nat × Nat) :=
  walk (fun a => (stage2 e w p a .read).bind fun (pa, _, _) => rdEntry e w p wd pa) 0x10 4 root va

/-- The ATS grant of a host page to an ASID: whether reads and writes are granted (R106). -/
def atsGrant (w : W) (p asid pasid iova : Nat) : Option (Bool × Bool) :=
  (w.ats.find? fun t => t.part == p && t.asid == asid && t.pasid == pasid && t.page == iova / 4096).map fun t => (t.rd, t.wr)

/-- The cause of a host page whose ATS completion lacks a permission, which for a fetch is R101's of X (R106). -/
def atsCause (g : Bool × Bool) (nd : Need) : Option Nat :=
  if !g.1 && !g.2 then some 0x10
  else match nd with
    | .read => if g.1 then none else some 0x11
    | .fetch => if g.1 then none else some 0x13
    | .write | .red => if g.2 then none else some 0x12
    | .atom => if !g.1 then some 0x11 else if g.2 then none else some 0x12

/-- The place a stage-1 leaf leads to (R99, R106, R108): a confidential world reaches the host only under IDE and a package only over
an encrypted link (R111, R195, R196); a request over a port that is down gets no reply (R173). The manual gives no cause for a host
access that IDE does not cover: the model's choice is that of a link which is not encrypted, PF_STAGE2 (log entry 15). -/
def leafPlace (e : Env) (w : W) (p wd asid pasid en lvl va : Nat) (nd : Need) : Xr Loc :=
  let a := leafAddr en lvl va
  match bitsAt en 9 2 with
  | 0 => (stage2 e w p a nd).bind fun (pa, _, _) =>
      match physLoc e.fix.form (part w p) pa with
      | none => .fail 0x16
      | some (s, l) => .ok (.dev s l pa)
  | 1 =>
    if wd ≠ 0 ∧ w.sec.session.isNone then .fail 0x16
    else match atsGrant w p asid pasid a with
      | none => .wait (.ats p asid pasid (a / 4096))
      | some g => match atsCause g nd with
        | some c => .fail c
        | none => .ok (.host p pasid a)
  | _ =>
    let fdev := bitsAt en 52 10
    let link := port w (Config.fabRoute fdev).val
    if wd ≠ 0 ∧ link.key.isNone then .fail 0x16
    else if fdev ≥ 640 ∨ !link.up then .fail 0x22
    else if Config.fabRefuses fdev (a / 4096) (match nd with | .read => 0 | .write => 1 | .fetch => 0 | .atom => 2 | .red => 2)
      then .fail 0x16
    else .ok (.fab fdev a)

/-- The checks of a stage-1 leaf before its place: P, then R, W, X, A (R101). -/
def leafCause (en : Nat) (nd : Need) (priv : Bool) : Option Nat :=
  if bitAt en 5 && !priv then some 0x15 else permCause en nd

/-- A TLB hit (R103). -/
def tlbHit (w : W) (p asid va : Nat) : Option TlbEnt :=
  w.tlb.find? fun t => t.part == p && t.asid == asid && t.page == va / 4096

/-- Translation of a virtual address for an access: through a TLB entry where one stands, else by a walk, which reads the tables as the
world `wt` does; the access is of the world `wd` (R96 to R106). -/
def translateFor (e : Env) (w : W) (p wt wd asid va : Nat) (nd : Need) (priv : Bool) : Xr Loc :=
  if va ≥ 2 ^ 48 then .fail 0x10
  else match tlbHit w p asid va with
    | some t =>
      match leafCause t.leaf1 nd priv with
      | some c => .fail c
      | none => match permCause t.leaf2 nd with
        | some _ => .fail 0x16
        | none => match physLoc e.fix.form (part w p) (t.base2 + va % 4096) with
          | none => .fail 0x16
          | some (s, l) => .ok (.dev s l (t.base2 + va % 4096))
    | none =>
      (asidEntry e w p wt asid).bind fun (root, pasid) =>
        (stage1 e w p wt root va).bind fun (en, lvl) =>
          match leafCause en nd priv with
          | some c => .fail c
          | none => leafPlace e w p wd asid pasid en lvl va nd

/-- Translation of a virtual address for an access of a world, which reads the tables as that world does (log entry 24). -/
def translate (e : Env) (w : W) (p wd asid va : Nat) (nd : Need) (priv : Bool) : Xr Loc := translateFor e w p wd wd asid va nd priv

/-- A translation for an access that the device makes for itself: an access that must wait for the host's ATS answer goes on with
that answer, whatever it is (log entry 15). -/
def ownAnswer (w : W) (p va : Nat) (nd : Need) : Xr Loc → Xr Loc
  | .wait (.ats _ _ q i) => match atsCause (Config.atsAnswer p q i w.now) nd with
    | some c => .fail c
    | none => .ok (.host p q (i * 4096 + va % 4096))
  | x => x

/-- A translation for an access that the device makes for itself in a world. -/
def translateOwn (e : Env) (w : W) (p wd asid va : Nat) (nd : Need) (priv : Bool) : Xr Loc :=
  ownAnswer w p va nd (translate e w p wd asid va nd priv)

/-- A context-space address, under the partition's context ASID with privilege: every translation failure is CTXPF (R66,
R96, R101), while a failed walk read keeps its cause (R336). The runtime's tables are read as world 0 reads (log entry 24); the data
are of the world of their course, whose traffic leaves the package only encrypted (R106, R195). -/
def ctxPlace (e : Env) (w : W) (p wd va : Nat) (nd : Need) : Xr Loc :=
  match ownAnswer w p va nd (translateFor e w p 0 wd (part w p).cAsid va nd true) with
  | .fail c => .fail (if c ≥ 0x20 then c else 0x17)
  | x => x

/-! Bytes at places. -/

/-- Whether reading a place ends in a poison reply: POISON or MUTED (R129, R170). -/
def readStop (w : W) (l : Loc) : Option Nat :=
  match l with
  | .dev s _ pa =>
    if sliceMuted w s then some 0x21
    else if scrubbing w s pa then none
    else if isPois w l.key then some 0x20 else none
  | _ => none

/-- The byte at a place as a world reads it; a frame that waits for its scrub reads as zero (R109). -/
def rdLoc (e : Env) (w : W) (wd : Nat) (l : Loc) : Byte :=
  match l with
  | .dev s loc pa => if scrubbing w s pa then 0 else rdCipher e w wd pa (keyDev s loc)
  | _ => rdB e w l.key

/-- A byte written at a place by a world. -/
def wrLoc (e : Env) (w : W) (wd : Nat) (l : Loc) (v : Byte) : W :=
  match l with
  | .dev s loc pa => wrCipher e w wd pa (keyDev s loc) v
  | _ => wrB w l.key v

/-- n bytes from a place within its page. -/
def rdLocs (e : Env) (w : W) (wd : Nat) (l : Loc) (n : Nat) : List Byte :=
  (List.range n).map fun i => rdLoc e w wd (l.add i)

/-- Bytes written from a place within its page. -/
def wrLocs (e : Env) (w : W) (wd : Nat) (l : Loc) : List Byte → W
  | [] => w
  | b :: bs => wrLocs e (wrLoc e w wd l b) wd (l.add 1) bs

/-- The pieces of an access of n bytes at a virtual address, cut at page boundaries: address and length. -/
def pieces : Nat → Nat → Nat → List (Nat × Nat)
  | 0, _, _ => []
  | f + 1, va, n =>
    if n = 0 then []
    else
      let m := min n (4096 - va % 4096)
      (va, m) :: pieces f (va + m) (n - m)

/-- The pieces of an access, enough of them for n bytes. -/
def piecesOf (va n : Nat) : List (Nat × Nat) := pieces (n / 4096 + 2) va n

/-- The places of an access's pieces under a translation; the first failing piece's address comes with its cause. -/
def placesOf (tr : Nat → Xr Loc) : List (Nat × Nat) → Except (Nat × Xr Loc) (List (Loc × Nat × Nat))
  | [] => .ok []
  | (va, n) :: r =>
    match tr va with
    | .ok l => match placesOf tr r with
      | .ok ls => .ok ((l, va, n) :: ls)
      | .error x => .error x
    | x => .error (va, x)

/-- The bytes of the pieces' places in order. -/
def rdPlaces (e : Env) (w : W) (wd : Nat) (ls : List (Loc × Nat × Nat)) : List Byte :=
  ls.flatMap fun (l, _, n) => rdLocs e w wd l n

/-- Bytes written to the pieces' places in order. -/
def wrPlaces (e : Env) (w : W) (wd : Nat) : List (Loc × Nat × Nat) → List Byte → W
  | [], _ => w
  | (l, _, n) :: r, bs => wrPlaces e (wrLocs e w wd l (bs.take n)) wd r (bs.drop n)

/-- The first cause with which reading the places ends in a poison reply, with the address of the piece. -/
def placesStop (w : W) (ls : List (Loc × Nat × Nat)) : Option (Nat × Nat) :=
  ls.findSome? fun (l, va, n) =>
    (List.range n).findSome? fun i => (readStop w (l.add i)).map fun c => (c, va + i)

/-- The first muted slice among the places, with the address of its piece (R129). -/
def placesMuted (w : W) (ls : List (Loc × Nat × Nat)) : Option Nat :=
  ls.findSome? fun (l, va, _) => match l with
    | .dev s _ _ => if sliceMuted w s then some va else none
    | _ => none

/-- The first place that a requester's row does not reach: its target slice (R156). -/
def placesRefused (w : W) (row : Nat) (ls : List (Loc × Nat × Nat)) : Option (Nat × Nat) :=
  let m := tGetD w.hub.matrix row 0
  ls.findSome? fun (l, va, _) => match l with
    | .dev s _ _ => if m.getLsbD 31 && m.getLsbD s then none else some (s, va)
    | _ => none

/-- The first frame among the places that waits for its scrub (R109). -/
def placesScrub (w : W) (ls : List (Loc × Nat × Nat)) : Option (Nat × Nat) :=
  ls.findSome? fun (l, _, _) => match l with
    | .dev s _ pa => scrubAt w s pa
    | _ => none

/-- The first port among the places over which an XOFF lets no request leave (R196). -/
def placesXoff (w : W) (ls : List (Loc × Nat × Nat)) : Option Nat :=
  ls.findSome? fun (l, _, _) => match l with
    | .fab fdev _ => let n := (Config.fabRoute fdev).val; if xoffAt w n 0 then some n else none
    | _ => none

/-- The first slice among the places that a requester's packets cannot reach round the muted tiles, with the address of its piece
(R184). -/
def placesCut (w : W) (row : Nat) (ls : List (Loc × Nat × Nat)) : Option Nat :=
  ls.findSome? fun (l, va, _) => match l with
    | .dev s _ _ => if sliceCut w row s then some va else none
    | _ => none

/-- The keys of places' bytes. -/
def placeKeys (ls : List (Loc × Nat × Nat)) : List Nat :=
  ls.flatMap fun (l, _, n) => (List.range n).map fun i => (l.add i).key

/-! The device's own accesses: of the hub die, row 72 of the connection matrix, or of a core's activation unit. -/

/-- What stops an access of the device's own before it is performed, by the requester's row: no reply (R168), a translation, a
refusal of the matrix (R156), a slice out of reach (R129, R184). The address and cause, or the places. -/
def ownPlaces (w : W) (row p : Nat) (tr : Nat → Xr Loc) (va n : Nat) : Except (Nat × Nat) (List (Loc × Nat × Nat)) :=
  if w.lost.contains p then .error (va, 0x22)
  else match placesOf tr (piecesOf va n) with
    | .error (a, .fail c) => .error (a, c)
    | .error (a, _) => .error (a, 0x22)
    | .ok ls => match placesRefused w row ls with
      | some (_, a) => .error (a, 0x16)
      | none => match (placesMuted w ls).orElse fun _ => placesCut w row ls with
        | some a => .error (a, 0x21)
        | none => .ok ls

/-- A local physical address's place: how hub firmware addresses a partition's tables. -/
def physPlace (e : Env) (w : W) (p pa : Nat) : Xr Loc :=
  match physLoc e.fix.form (part w p) pa with
  | none => .fail 0x16
  | some (s, l) => .ok (.dev s l pa)

/-- The bytes of a table in device memory, which hub firmware holds in plaintext; none when they cannot be read. -/
def tableRead (e : Env) (w : W) (p pa n : Nat) : Option (List Byte) :=
  match ownPlaces w 72 p (physPlace e w p) pa n with
  | .error _ => none
  | .ok ls => if (placesStop w ls).isSome then none else some (rdPlaces e w 0 ls)

/-- The frames under the places of a write that waits for their scrubs: scrubbed first (R109, log entry 62). -/
def afterScrub (e : Env) (w : W) (ls : List (Loc × Nat × Nat)) : W :=
  ls.foldl (fun w (l, _, _) => match l with
    | .dev s _ pa => match scrubAt w s pa with
      | some (p, f) => scrubFrame e w p f
      | none => w
    | _ => w) w

/-- Bytes of a table in device memory written by hub firmware in plaintext; none when they cannot be written. -/
def tableWrite (e : Env) (w : W) (p pa : Nat) (bs : List Byte) : Option W :=
  match ownPlaces w 72 p (physPlace e w p) pa bs.length with
  | .error _ => none
  | .ok ls => some (cleanCovered (wrPlaces e (afterScrub e w ls) 0 ls bs) (placeKeys ls))

/-- Privileged device writes to a virtual address: the cause that stopped them, or the state with the bytes written (R101). -/
def devWrite (e : Env) (w : W) (row p wd asid va : Nat) (bs : List Byte) (priv : Bool) : Except Nat W :=
  match ownPlaces w row p (fun a => translateOwn e w p wd asid a .write priv) va bs.length with
  | .error (_, c) => .error c
  | .ok ls => .ok (cleanCovered (wrPlaces e (afterScrub e w ls) wd ls bs) (placeKeys ls))

/-- Device reads of a virtual address: the cause that stopped them, or the bytes (R101, R131). -/
def devRead (e : Env) (w : W) (row p wd asid va n : Nat) (priv : Bool) : Except Nat (List Byte) :=
  match ownPlaces w row p (fun a => translateOwn e w p wd asid a .read priv) va n with
  | .error (_, c) => .error c
  | .ok ls => match placesStop w ls with
    | some (c, _) => .error c
    | none => .ok (rdPlaces e w wd ls)

/-- What stops a context-space access: a refusal counts as a translation failure (R66, R102). -/
def ctxPlaces (e : Env) (w : W) (row p wd va n : Nat) (nd : Need) : Except (Nat × Nat) (List (Loc × Nat × Nat)) :=
  match ownPlaces w row p (fun a => ctxPlace e w p wd a nd) va n with
  | .error (a, c) => .error (a, if c < 0x20 then 0x17 else c)
  | .ok ls => .ok ls

/-- A byte of context space read under its course's world (R57); a frame of memory that waits for its scrub reads as zero. -/
def rdCtx (e : Env) (w : W) (wd va : Nat) (l : Loc) : Byte :=
  match l with
  | .dev s loc pa => if scrubbing w s pa then 0 else rdTag e w (ctxTag w wd va) (keyDev s loc)
  | _ => rdB e w l.key

/-- A byte of context space written under its course's world. -/
def wrCtx (e : Env) (w : W) (wd va : Nat) (l : Loc) (v : Byte) : W :=
  match l with
  | .dev s loc _ => wrTag e w (ctxTag w wd va) (keyDev s loc) v
  | _ => wrB w l.key v

/-- The bytes of a piece of context space. -/
def rdCtxs (e : Env) (w : W) (wd va : Nat) (l : Loc) (n : Nat) : List Byte :=
  (List.range n).map fun i => rdCtx e w wd (va + i) (l.add i)

/-- Bytes written to a piece of context space. -/
def wrCtxs (e : Env) (w : W) (wd va : Nat) (l : Loc) : List Byte → W
  | [] => w
  | b :: bs => wrCtxs e (wrCtx e w wd va l b) wd (va + 1) (l.add 1) bs

/-- Context-space bytes read; the failing address and cause else. Poison travels and stops nothing here. -/
def ctxRead (e : Env) (w : W) (row p wd va n : Nat) : Except (Nat × Nat) (List Byte) :=
  match ctxPlaces e w row p wd va n .read with
  | .error x => .error x
  | .ok ls => .ok (ls.flatMap fun (l, a, n) => rdCtxs e w wd a l n)

/-- Bytes written to the pieces' places of context space in order. -/
def wrCtxPlaces (e : Env) (w : W) (wd : Nat) : List (Loc × Nat × Nat) → List Byte → W
  | [], _ => w
  | (l, a, n) :: r, bs => wrCtxPlaces e (wrCtxs e w wd a l (bs.take n)) wd r (bs.drop n)

/-- The sectors of written places marked whose number from the sector in which the range starts is listed (R170). -/
def markBad (w : W) (va : Nat) (ls : List (Loc × Nat × Nat)) (bad : List Nat) : W :=
  if bad = [] then w
  else ls.foldl (fun w (l, a, n) =>
    (List.range n).foldl (fun w i => if bad.contains ((a + i) / 32 - va / 32) then poisonAt w (l.add i).key else w) w) w

/-- Context-space bytes written; whole sectors written lose their poison (R172), the sectors at the offsets given gain it. -/
def ctxWrite (e : Env) (w : W) (row p wd va : Nat) (bs : List Byte) (bad : List Nat) : Except (Nat × Nat) W :=
  match ctxPlaces e w row p wd va bs.length .write with
  | .error x => .error x
  | .ok ls => .ok (markBad (cleanCovered (wrCtxPlaces e (afterScrub e w ls) wd ls bs) (placeKeys ls)) va ls bad)

/-- The 32-byte sectors of a context-space range that read as poisoned, by number from its start (R109, R170). -/
def ctxPois (e : Env) (w : W) (p wd va n : Nat) : List Nat :=
  (List.range ((n + 31) / 32)).filter fun i =>
    match ctxPlace e w p wd (va + 32 * i) .read with
    | .ok l => readStop w l == some 0x20
    | _ => false

end Sys2Proof.Machine
end

