-- ==== Sys2Proof/Machine/HostEv.lean ====
section
/-! DEFINITION. Host event queues and MSI-X (R151, R157, R190). -/

namespace Sys2Proof.Machine

/-- The periods of 0.625 ns in a microsecond (R282). -/
def usTicks : Nat := 1600

/-- Host memory as a function reaches it without a PASID: its event queue and its MSI-X messages (R157, R190). -/
def fnKey (n iova : Nat) : Nat := keyHost (16 + n) 0 iova

/-- Whether the PCIe link is up: from bring-up step 2 on (R201). -/
def linkUp (w : W) : Bool := decide (2 ≤ w.hub.boot)

/-- Whether a function takes register writes: over a link that is up, the PF, or a bound VF (R190, R201). -/
def takesWrites (w : W) (n : Nat) : Bool := linkUp w && (n == 0 || (fn w n).bound)

/-- A vector's table entry: masked until the host writes it (R157). -/
def msixEntry (f : Fn) (vec : Nat) : BitVec 128 := tGetD f.msix vec (BitVec.ofNat 128 (2 ^ 96))

/-- Whether a vector is masked. -/
def msixMasked (f : Fn) (vec : Nat) : Bool := bvF (msixEntry f vec) 96 1 == 1

/-- A vector's message posted: its data word written at its address (R157); a new coalescing interval opens. -/
def msixSend (w : W) (n vec : Nat) : W :=
  let f := fn w n
  let en := msixEntry f vec
  let w := wrN w (fnKey n (bvF en 0 64)) 4 (bvF en 64 32)
  let w := { w with replies := .msix n vec :: w.replies }
  updFn w n fun f => { f with openIv := tPut f.openIv vec (w.now + f.coalt * usTicks), pba := f.pba.filter (· != vec) }

/-- An event of a vector: its message is posted, or its pending bit set while an interval is open or the vector masked. -/
def msixPost (w : W) (n vec : Nat) : W :=
  let f := fn w n
  if (tGet? f.openIv vec).isSome || msixMasked f vec then
    updFn w n fun f => { f with pba := if f.pba.contains vec then f.pba else vec :: f.pba }
  else msixSend w n vec

/-- The bits of a host event queue entry (R151). -/
def eventBits (lost addr detail wd p code : Nat) (phase : Bool) : Nat :=
  lost % 2 ^ 32 * 2 ^ 128 + addr % 2 ^ 64 * 2 ^ 64 + detail % 2 ^ 32 * 2 ^ 32 + wd % 16 * 2 ^ 20 + p % 16 * 2 ^ 16 +
    phase.toNat * 256 + code % 256

/-- Whether a function's ring takes no entry (R190). -/
def heqFull (f : Fn) : Bool := f.heqSize == 0 || (f.heqTail + 1) % f.heqSize == f.heqHead

/-- An event written to a function's queue, or dropped and counted (R151). -/
def hostEvent (w : W) (n p wd code detail addr : Nat) : W :=
  let f := fn w n
  if heqFull f then updFn w n fun f => { f with dropped := f.dropped + 1 }
  else
    let w := wrN w (fnKey n (f.heqBase.toNat + 32 * f.heqTail)) 32 (eventBits f.dropped addr detail wd p code f.phase)
    let w := updFn w n fun f =>
      { f with
        dropped := 0
        heqTail := (f.heqTail + 1) % f.heqSize
        phase := if f.heqTail + 1 = f.heqSize then !f.phase else f.phase }
    msixPost w n 0

/-- A partition's event function: the one request 0x0C names, else its lowest VF, else the PF (R151). -/
def eventFn (w : W) (p : Nat) : Nat :=
  match (part w p).evFn with
  | some n => n
  | none => ((List.range 64).find? fun n => 0 < n && (fn w n).bound && (fn w n).part == p).getD 0

/-- An event of the event function alone. -/
def evFnEvent (w : W) (p wd code detail addr : Nat) : W := hostEvent w (eventFn w p) p wd code detail addr

/-- An event of a partition's event function and of the PF, once when they are one (R151). -/
def partEvent (w : W) (p wd code detail addr : Nat) : W :=
  let w := evFnEvent w p wd code detail addr
  if eventFn w p = 0 then w else hostEvent w 0 p wd code detail addr

/-- The partitions that exist. -/
def liveParts (w : W) : List Nat := (List.range 16).filter fun p => (part w p).live

/-- An event of the PF and of the event functions of several partitions (R151). -/
def manyEvent (w : W) (ps : List Nat) (code detail addr : Nat) : W :=
  let fs := (ps.map (eventFn w)).dedup
  let w := hostEvent w 0 0 0 code detail addr
  (fs.filter (· != 0)).foldl (fun w n => hostEvent w n (fn w n).part 0 code detail addr) w

/-- REPLME with bits set, and its event when they change it (R179). -/
def raiseReplme (w : W) (bits : Nat) : W :=
  let new := w.hub.replme ||| BitVec.ofNat 64 bits
  if new = w.hub.replme then w
  else
    let w := { w with hub := { w.hub with replme := new } }
    manyEvent w (liveParts w) 0x22 (bvF new 0 32) new.toNat

/-- Counter e of a device, core or slice raised by n (R158). -/
def bumpDev (w : W) (e n : Nat) : W :=
  { w with hub := { w.hub with dev := tPut w.hub.dev e ((tGetD w.hub.dev e 0 + n) % 2 ^ 64) } }

/-- A device sensor's latest sample (R158). -/
def setDev (w : W) (e v : Nat) : W := { w with hub := { w.hub with dev := tPut w.hub.dev e v } }

def bumpCore (w : W) (pcn e n : Nat) : W :=
  updCore w pcn fun c => { c with ev := tPut c.ev e ((tGetD c.ev e 0 + n) % 2 ^ 64) }

def bumpSlice (w : W) (s e n : Nat) : W :=
  { w with hub := { w.hub with
      sliceEv := tPut w.hub.sliceEv (16 * s + e) ((tGetD w.hub.sliceEv (16 * s + e) 0 + n) % 2 ^ 64) } }

end Sys2Proof.Machine
end

