-- ==== Sys2Proof/Machine/Regs.lean ====
section
/-! DEFINITION. Reading and writing the registers of a course (R39 to R53), and its control area's bytes (R58, R59). -/

namespace Sys2Proof.Machine

/-- A course by its CID. -/
def course? (w : W) (cid : Nat) : Option Course := tGet? w.courses cid

/-- A course written back. -/
def setCourse (w : W) (c : Course) : W := { w with courses := tPut w.courses c.id.cid c }

/-- A course changed, where it exists. -/
def updCourse (w : W) (cid : Nat) (f : Course → Course) : W := { w with courses := tUpd w.courses cid f }

/-! Uniform registers (R42). -/

/-- The value of an S register. -/
def getS (c : Course) (i : Nat) : Word := nth c.r.s i 0

/-- An S register written. -/
def putS (c : Course) (i : Nat) (v : Word) : Course :=
  { c with r := { c.r with s := setNth 64 c.r.s i v 0 } }

/-- The 64-bit value of an S pair. -/
def getS2 (c : Course) (i : Nat) : Nat := (getS c i).toNat + (getS c (i + 1)).toNat * 2 ^ 32

/-! Predicates (R40, R43): P7 and Q7 are constant. -/

/-- The lanes' bits of a lane predicate. -/
def getP (c : Course) (i : Nat) : Mask := if i = 7 then BitVec.allOnes 32 else nth c.r.p i 0

/-- A lane predicate written in some lanes; a write of P7 is ignored. -/
def putP (c : Course) (i : Nat) (m bits : Mask) : Course :=
  if i = 7 then c
  else { c with r := { c.r with p := setNth 7 c.r.p i ((bits &&& m) ||| (getP c i &&& ~~~m)) 0 } }

/-- A uniform predicate. -/
def getQ (c : Course) (i : Nat) : Bool := i == 7 || c.r.q.getLsbD i

/-- A uniform predicate written; a write of Q7 is ignored. -/
def putQ (c : Course) (i : Nat) (b : Bool) : Course :=
  if i = 7 then c else { c with r := { c.r with q := bvSet c.r.q i 1 b.toNat } }

/-! Owners and lane status (R50, R51). -/

/-- A lane's owner slot. -/
def own (c : Course) (k : Nat) : Nat := bvF c.id.ownv (4 * k) 3

/-- A lane's status: 0 inactive, 1 live, 2 parked, 3 exited. -/
def laneSt (c : Course) (k : Nat) : Nat := bvF c.r.status (2 * k) 2

/-- A lane's status written. -/
def setLaneSt (c : Course) (k v : Nat) : Course :=
  { c with r := { c.r with status := bvSet c.r.status (2 * k) 2 v } }

/-- The status of the lanes of a mask written. -/
def setStOf (c : Course) (m : Mask) (v : Nat) : Course := (mLanes m).foldl (fun c k => setLaneSt c k v) c

/-- The lanes of a status. -/
def lanesSt (c : Course) (v : Nat) : Mask := mkMask fun k => laneSt c k == v

/-- The live lanes. -/
def liveM (c : Course) : Mask := lanesSt c 1

/-- The live and parked lanes. -/
def liveParked (c : Course) : Mask := mkMask fun k => laneSt c k == 1 || laneSt c k == 2

/-- Whether a course's live and parked lanes name more than one owner slot (R42). -/
def manyOwners (c : Course) : Bool :=
  match (mLanes (liveParked c)).map (own c) with
  | [] => false
  | s :: r => r.any (· != s)

/-! Owner slots (R52). -/

/-- A slot's 64 bytes. -/
def slotBits (c : Course) (s : Nat) : BitVec 512 := nth c.r.slots s 0

/-- A field of a slot. -/
def slotF (c : Course) (s lo n : Nat) : Nat := bvF (slotBits c s) lo n

/-- A field of a slot written. -/
def setSlotF (c : Course) (s lo n v : Nat) : Course :=
  { c with r := { c.r with slots := setNth 8 c.r.slots s (bvSet (slotBits c s) lo n v) 0 } }

def slotAsid (c : Course) (s : Nat) : Nat := slotF c s 0 16
def slotWorld (c : Course) (s : Nat) : Nat := slotF c s 16 4
def slotPrio (c : Course) (s : Nat) : Nat := slotF c s 20 3
def slotValid (c : Course) (s : Nat) : Bool := slotF c s 23 1 == 1
def slotFlags (c : Course) (s : Nat) : Nat := slotF c s 24 5
def slotScrBase (c : Course) (s : Nat) : Nat := slotF c s 64 32
def slotScrLim (c : Course) (s : Nat) : Nat := slotF c s 128 32
def slotLclBase (c : Course) (s : Nat) : Nat := slotF c s 192 64
def slotLclLim (c : Course) (s : Nat) : Nat := slotF c s 256 32
def slotArgBase (c : Course) (s : Nat) : Nat := slotF c s 320 64
def slotArgLim (c : Course) (s : Nat) : Nat := slotF c s 384 32
def slotLanecyc (c : Course) (s : Nat) : Nat := slotF c s 448 64

/-- Flags ORed into a slot's FLAGS (R21, R52): NV, DZ, OF, UF, NX at bits 4 to 0. -/
def orFlags (c : Course) (s f : Nat) : Course :=
  if f = 0 then c else setSlotF c s 24 5 (slotFlags c s ||| f)

/-! Lane PCs (R49). -/

/-- A lane's LPC. -/
def lpc (c : Course) (k : Nat) : Word := laneOf c.r.lpc k

/-- The LPCs of the lanes of a mask written. -/
def setLpcs (c : Course) (m : Mask) (f : Nat → Word) : Course :=
  { c with r := { c.r with lpc := mkLine fun k => if mHas m k then f k else lpc c k } }

/-- The LPCs of the lanes of a mask advanced. -/
def advance (c : Course) (m : Mask) (n : Nat) : Course := setLpcs c m fun k => lpc c k + BitVec.ofNat 32 n

/-! Handles (R44, R46, R48). -/

def getD256 (c : Course) (i : Nat) : BitVec 256 := nth c.r.d i 0
def putD256 (c : Course) (i : Nat) (v : BitVec 256) : Course := { c with r := { c.r with d := setNth 16 c.r.d i v 0 } }
def getA (c : Course) (i : Nat) : BitVec 128 := nth c.r.a i 0
def putA (c : Course) (i : Nat) (v : BitVec 128) : Course := { c with r := { c.r with a := setNth 16 c.r.a i v 0 } }
def getTL (c : Course) (i : Nat) : BitVec 64 := nth c.r.tl i 0
def putTL (c : Course) (i : Nat) (v : BitVec 64) : Course := { c with r := { c.r with tl := setNth 4 c.r.tl i v 0 } }

/-! V lines (R41, R60, R62, R65). -/

/-- Whether a V line has not been written since formation (R60). -/
def isZero (c : Course) (r : Nat) : Bool := c.v.zmask.getLsbD r

/-- A V line cached where the course is resident. -/
def cached? (q : Nat) (c : Course) (r : Nat) : Option CLine :=
  match tGet? c.v.lines r with
  | some l => if l.quad = q then some l else none
  | none => none

/-- A course's quadrant, by core and quadrant number. -/
def quadOf (c : Course) : Nat := c.v.hcore * 4 + c.v.hquad

/-- The value of a V register as an instruction of the resident course reads it. -/
def getV (c : Course) (r : Nat) : Line :=
  match cached? (quadOf c) c r with
  | some l => l.data
  | none => mkLine fun _ => 0

/-- Whether an access to a V line must wait for a fill (R65). -/
def missV (c : Course) (r : Nat) : Bool := !isZero c r && (cached? (quadOf c) c r).isNone

/-- Whether a V line is poisoned. -/
def poisV (c : Course) (r : Nat) : Bool :=
  match cached? (quadOf c) c r with
  | some l => l.poison
  | none => false

/-- The lanes of a mask written in a V register: the line becomes dirty, an unwritten line is allocated as zero, and a
write of every lane clears its poison (R40, R60). -/
def putV (c : Course) (r : Nat) (m : Mask) (new : Line) : Course :=
  if m = 0 then c
  else
    let old := getV c r
    let p := poisV c r && m != BitVec.allOnes 32
    { c with v := { c.v with
        lines := tPut c.v.lines r ⟨quadOf c, mergeLine m new old, true, false, p⟩
        zmask := bvSet c.v.zmask r 1 0 } }

/-- The 64-bit value of a V pair in a lane. -/
def getV2 (c : Course) (r k : Nat) : Nat := (laneOf (getV c r) k).toNat + (laneOf (getV c (r + 1)) k).toNat * 2 ^ 32

/-! Poison of units held in the slot, by the 32-byte sector of the frame (R40, R170). -/

def sectS (r : Nat) : Nat := 256 + r / 8
def sectP : Nat := 264
def sectQ : Nat := 265
/-- The sector of CID, lane status and CBASE too (R58). -/
def sectStatus : Nat := 265
def sectOwnv : Nat := 272
def sectD (n : Nat) : Nat := 274 + n
def sectA (n : Nat) : Nat := 290 + n / 2
def sectTL : Nat := 298
def sectSlot (s half : Nat) : Nat := 299 + 2 * s + half
def poisSect (c : Course) (n : Nat) : Bool := c.v.pois.contains n

/-! The control area (R58, R59). -/

/-- The deferred-state word (R59). -/
def deferredWord (c : Course) : Nat :=
  c.v.held.toNat + c.w.isOpen.toNat * 2 + c.k.gen * 256 + c.k.slot * 65536 + c.v.hquad * 2 ^ 21 + c.v.hcore * 2 ^ 23

/-- The V registers with a buffered result (R67). -/
def bufV (c : Course) : List Nat :=
  c.w.buf.filterMap fun f => match f.dest with
    | .v r => some r.val
    | .s _ => none

/-- DVMASK and DSMASK of buffered results (R58). -/
def destMask (c : Course) (v : Bool) : BitVec 64 :=
  c.w.buf.foldl (fun m f => match f.dest with
    | .v r => if v then bvSet m r.val 1 1 else m
    | .s r => if v then m else bvSet m r.val 1 1) 0

/-- The predicates as the frame holds them, P7 and Q7 included. -/
def pBytes (c : Course) : List Byte := (List.range 8).flatMap fun i => leBytes 4 (getP c i).toNat

def qByte (c : Course) : Nat := (List.range 8).foldl (fun n i => n + (getQ c i).toNat * 2 ^ i) 0

/-- The control area's bytes 0x2000 to 0x275F, as park and halt write them (R58, R60). -/
def ctlBytes (c : Course) : List Byte :=
  (List.range 64).flatMap (fun i => leBytes 4 (getS c i).toNat) ++ pBytes c ++
  leBytes 1 (qByte c) ++ leBytes 1 (c.id.priv.toNat + c.id.mixed.toNat * 2) ++ leBytes 2 c.id.tlallot.toNat ++
  leBytes 4 c.id.cid ++ leBytes 8 c.r.status.toNat ++ leBytes 2 (c.id.cbase.toNat / 2 ^ 32) ++
  leBytes 1 c.k.cause ++ leBytes 1 c.id.version ++ leBytes 2 c.id.codeAsid ++ leBytes 2 0 ++ leBytes 8 c.id.csave ++
  leBytes 64 0 ++ (List.range 32).flatMap (fun k => leBytes 4 (lpc c k).toNat) ++ leBytes 16 c.id.ownv.toNat ++
  leBytes 8 c.v.resid.toNat ++ leBytes 8 (deferredWord c) ++ leBytes 8 c.w.dv.toNat ++ leBytes 8 c.w.ds.toNat ++
  leBytes 8 c.v.zmask.toNat ++ leBytes 8 0 ++
  (List.range 16).flatMap (fun i => leBytes 32 (getD256 c i).toNat) ++
  (List.range 16).flatMap (fun i => leBytes 16 (getA c i).toNat) ++
  (List.range 4).flatMap (fun i => leBytes 8 (getTL c i).toNat) ++
  (List.range 8).flatMap (fun i => leBytes 64 (slotBits c i).toNat)

/-- n bytes of a list from an offset, as a number. -/
def sub (b : List Byte) (off n : Nat) : Nat := leNat ((b.drop off).take n)

/-- A course with the registers that its control area's bytes give (R58): what activation reads back. -/
def ctlLoad (b : List Byte) (c : Course) : Course :=
  { c with
    r := {
      s := (List.range 64).map fun i => BitVec.ofNat 32 (sub b (4 * i) 4)
      p := (List.range 7).map fun i => BitVec.ofNat 32 (sub b (0x100 + 4 * i) 4)
      q := BitVec.ofNat 8 (sub b 0x120 1)
      status := BitVec.ofNat 64 (sub b 0x128 8)
      lpc := mkLine fun k => BitVec.ofNat 32 (sub b (0x180 + 4 * k) 4)
      d := (List.range 16).map fun i => BitVec.ofNat 256 (sub b (0x240 + 32 * i) 32)
      a := (List.range 16).map fun i => BitVec.ofNat 128 (sub b (0x440 + 16 * i) 16)
      tl := (List.range 4).map fun i => BitVec.ofNat 64 (sub b (0x540 + 8 * i) 8)
      slots := (List.range 8).map fun i => BitVec.ofNat 512 (sub b (0x560 + 64 * i) 64) }
    v := { c.v with
      resid := BitVec.ofNat 64 (sub b 0x210 8)
      zmask := BitVec.ofNat 64 (sub b 0x230 8) } }

end Sys2Proof.Machine
end

