-- ==== Sys2Proof/Machine/Wake.lean ====
section
/-! DEFINITION. Records that wake (R142), ticket dispensers (R162) and timeline counters (R161, R147, R312). -/

namespace Sys2Proof.Machine

/-- A consort. -/
def consort? (w : W) (k : Nat) : Option Consort := tGet? w.consorts k

/-- A consort changed, where it exists. -/
def updConsort (w : W) (k : Nat) (f : Consort → Consort) : W := { w with consorts := tUpd w.consorts k f }

/-- A launch. -/
def launch? (w : W) (l : Nat) : Option Launch := tGet? w.launches l

/-- A launch changed, where it exists. -/
def updLaunch (w : W) (l : Nat) (f : Launch → Launch) : W := { w with launches := tUpd w.launches l f }

/-- The cause with which a course's record halts instead of becoming ready: HALTB in force, or its context's slice ended
(R152, R329). -/
def haltCause (w : W) (c : Course) : Option Nat :=
  if ((consort? w c.id.consort).map (·.haltb)).getD false then some 0x86
  else
    let cx := (part w c.id.part).ctxs
    if 1 < cx.count ∧ cx.cur ≠ c.id.ctx ∧ !c.id.pinned then some 0x85 else none

/-- Whether a course has a spill-pending line (R322). -/
def hasPend (c : Course) : Bool := c.v.lines.any fun (_, l) => l.pend

/-- A range of a parked course's control area marked newer in its registers than in its frame (R58). -/
def markNewer (c : Course) (off n : Nat) : Course :=
  { c with k := { c.k with newer := if c.k.newer.contains (off, n) then c.k.newer else (off, n) :: c.k.newer } }

/-- A course with park cause 0x86, which its frame shows (R58, R152). -/
def haltbCause (c : Course) : Course :=
  if c.k.cause = 0x86 then c else markNewer { c with k := { c.k with cause := 0x86 } } 0x132 1

/-- A record whose join counter is 0 enters its ready queue at the tail, or its halted list, or waits for its spills. -/
def enterReady (w : W) (c : Course) : W :=
  if hasPend c then setCourse w { c with k := { c.k with join := 0, at_ := .parked } }
  else
    let o := w.nextOrder
    let w := { w with nextOrder := o + 1 }
    match haltCause w c with
    | some h =>
      let c := if h = 0x86 then haltbCause c else c
      setCourse w { c with k := { c.k with join := 0, at_ := .halted, order := o } }
    | none => setCourse w { c with k := { c.k with join := 0, at_ := .ready, order := o, deadline := none } }

/-- A record's join counter reduced by one (R142). -/
def decJoin (w : W) (cid : Nat) : W :=
  match course? w cid with
  | none => w
  | some c =>
    if c.k.at_ ≠ .parked then w
    else if c.k.join ≤ 1 then enterReady w c
    else setCourse w { c with k := { c.k with join := c.k.join - 1 } }

/-- A Q predicate of a parked course written (R43). -/
def putQParked (c : Course) (q : Nat) (b : Bool) : Course := markNewer (putQ c q b) 0x120 1

/-- A parked record whose awaited event has occurred: it leaves its lists and its counter is reduced. -/
def wake (w : W) (c : Course) : W :=
  decJoin (setCourse w { c with k := { c.k with await := .nothing, deadline := none } }) c.id.cid

/-! Tickets (R162). -/

/-- Whether a ticket is served (R162). -/
def served (d : Disp) (t : Word) : Bool := (d.serving - t).toNat < 2 ^ 31

/-- The courses parked on a dispenser, with their tickets. -/
def sleepersOf (w : W) (d : Nat) : List (Course × Word) :=
  w.courses.filterMap fun (_, c) => match c.k.await with
    | .ticket x t => if x = d then some (c, t) else none
    | _ => none

/-- The sleeper mask recomputed: the cores that have courses parked on the dispenser. -/
def sleeperMask (w : W) (d : Nat) : BitVec 72 :=
  (sleepersOf w d).foldl (fun m (c, _) => m ||| BitVec.ofNat 72 (2 ^ pcnOf w c.v.hcore)) 0

/-- The TKWAIT courses that SERVING has reached released. -/
def ticketWake (w : W) (d : Nat) : W :=
  let w := (sleepersOf w d).foldl (fun w (c, t) => if served (disp w d) t then wake w c else w) w
  updDisp w d fun x => { x with mask := sleeperMask w d }

/-- TKSERVE's effect on a dispenser; one of a muted slice is lost (R162, R149). -/
def serveDisp (w : W) (d : Nat) : W :=
  if sliceMuted w (d / 256) then w
  else ticketWake (updDisp w d fun x => { x with serving := x.serving + 1 }) d

/-! Timeline counters (R161). -/

/-- A counter. -/
def tlc (w : W) (pcn i : Nat) : Tlc := tGetD (core w pcn).tls i Tlc.init

/-- A counter changed. -/
def updTlc (w : W) (pcn i : Nat) (f : Tlc → Tlc) : W :=
  updCore w pcn fun c => { c with tls := tPut c.tls i (f (tGetD c.tls i Tlc.init)) }

/-- Whether a number has been issued (R161). -/
def Tlc.isIssued (t : Tlc) (n : Word) : Bool := (t.issued - n).toNat < 2 ^ 31

/-- Whether a number is reached (R161). -/
def Tlc.reached (t : Tlc) (n : Word) : Bool := t.isIssued n && (t.done - n).toNat < 2 ^ 31

/-- Whether a counter has 256 numbers outstanding (R161). -/
def Tlc.isFull (t : Tlc) : Bool := (t.issued - t.done).toNat ≥ 256

/-- The next number taken, with status 1, not yet done (R161, R312). -/
def Tlc.take (t : Tlc) : Word × Tlc :=
  let n := t.issued + 1
  (n, { t with issued := n, stat := ((n, 1) :: t.stat).take 256 })

/-- A number's status written: CODE and SKIP (R312). -/
def Tlc.setStat (t : Tlc) (n : Word) (code skip : Nat) : Tlc :=
  { t with stat := t.stat.map fun (m, s) => if m = n then (m, BitVec.ofNat 32 (code + skip * 65536)) else (m, s) }

/-- The status ENGST returns: 2 for a number not issued or older than the last 256; number 0 counts as done from allotment (R161,
R312). -/
def Tlc.status (t : Tlc) (n : Word) : Word :=
  if !t.isIssued n then 2
  else match t.stat.find? fun (m, _) => m == n with
    | some (_, s) => s
    | none => if n = 0 ∧ t.issued.toNat < 256 then 0 else 2

/-- DONE advanced over the numbers marked done; `sig` tells the numbers of pending TLSIGs, done once DONE stands just
below them (R161, R312). -/
def Tlc.advance (sig : List Word) : Nat → Tlc → Tlc
  | 0, t => t
  | f + 1, t =>
    let n := t.done + 1
    if t.marked.contains n then Tlc.advance sig f { t with done := n, marked := t.marked.filter (· != n) }
    else if sig.contains n then Tlc.advance sig f ({ t with done := n }.setStat n 0 0)
    else t

/-- The numbers of a counter's pending TLSIGs. -/
def pendingSigs (w : W) (pcn i : Nat) : List Word :=
  w.ops.filterMap fun (_, o) => if o.kind = .tlsig ∧ o.tlPcn = pcn ∧ o.tlIdx = i then some o.num else none

/-- The watch list of a counter: those awaiting a reached number, lowest number first (R147). -/
def watchers (w : W) (pcn i : Nat) : List Course :=
  let t := tlc w pcn i
  let l := w.courses.filterMap fun (_, c) => match c.k.await with
    | .timeline p j n _ => if p = pcn ∧ j = i ∧ t.reached n then some ((t.done - n).toNat, c) else none
    | _ => none
  (l.mergeSort fun a b => b.1 ≤ a.1).map (·.2)

/-- A WAITTL.DL woken because its number is reached writes 1 to its Q (R283). -/
def wakeTimeline (w : W) (c : Course) : W :=
  match c.k.await with
  | .timeline _ _ _ (some q) => wake w (putQParked c q true)
  | _ => wake w c

/-- A counter's DONE brought forward and the records it reaches woken (R147, R161). -/
def settleTlc (w : W) (pcn i : Nat) : W :=
  let sigs := pendingSigs w pcn i
  let w := updTlc w pcn i fun t => Tlc.advance sigs 300 t
  let t := tlc w pcn i
  let w := { w with ops := w.ops.filter fun (_, o) => !(o.kind == .tlsig && o.tlPcn == pcn && o.tlIdx == i && t.reached o.num) }
  (watchers w pcn i).foldl wakeTimeline w

/-- An operation's number marked done with its status (R161, R312). -/
def completeNum (w : W) (pcn i : Nat) (n : Word) (code skip : Nat) : W :=
  settleTlc (updTlc w pcn i fun t => { t.setStat n code skip with marked := n :: t.marked }) pcn i

end Sys2Proof.Machine
end

