-- ==== Sys2Proof/Machine/Fq.lean ====
section
/-! DEFINITION. The fault queue: entries, merging, delivery and held faults (R148, R149, R337). -/

namespace Sys2Proof.Machine

/-- The CID that an entry of no course carries (R148). -/
def noCid : Nat := 2 ^ 32 - 1

/-- The 32 bytes of an entry (R148). -/
def Entry.bytes (x : Entry) : List Byte :=
  leBytes 1 x.cause ++ leBytes 1 x.merge ++ leBytes 2 x.slotf ++ leBytes 4 x.lanes.toNat ++ leBytes 8 x.va ++
  leBytes 2 x.asid ++ leBytes 1 x.world ++ leBytes 1 x.part ++ leBytes 4 x.cid ++ leBytes 4 x.pc ++
  leBytes 1 x.atype ++ leBytes 1 0 ++ leBytes 2 x.size

/-- The slice's POISON entry for a reduction to a poisoned sector (R113, R337). -/
def sliceEntry (p wd pa size : Nat) : Entry where
  cause := 0x20
  merge := 0
  slotf := 0
  lanes := 0
  va := pa / 32 * 32
  asid := 0
  world := wd
  part := p
  cid := noCid
  pc := 0
  atype := 4
  size := size

/-- Whether a fault merges into an entry: translation faults and CTXPF of courses by cause, ASID and page, one kind with
one kind (engine operand or not); POISON entries of slices, which alone of the entries of no course have ATYPE 4, by sector
(R149, R337). -/
def mergesInto (x : Entry) (y : Pending) : Bool :=
  !y.served &&
  (if x.cid = noCid then
    x.cause == 0x20 && x.atype == 4 && y.e.cause == 0x20 && y.e.atype == 4 && y.e.cid == noCid && y.e.va / 32 == x.va / 32 && y.e.part == x.part
   else
    0x10 ≤ x.cause && x.cause ≤ 0x17 && y.e.cid != noCid && y.e.cause == x.cause && y.e.asid == x.asid &&
      y.e.va / 4096 == x.va / 4096 && y.e.slotf / 64 % 2 == x.slotf / 64 % 2)

/-- An entry into which a fault has merged: MERGE rises, the same course's lanes are ORed in, another course sets MULTI and
waits on it (R149). -/
def mergeWith (y : Pending) (x : Pending) : Pending :=
  { y with
    e := { y.e with
      merge := min 255 (y.e.merge + 1)
      slotf := if y.e.cid = x.e.cid ∨ bitAt y.e.slotf 3 then y.e.slotf else y.e.slotf + 8
      lanes := if y.e.cid = x.e.cid then y.e.lanes ||| x.e.lanes else y.e.lanes }
    who := y.who ++ x.who }

/-- The address of ring entry i. -/
def fqAddr (f : Fq) (i : Nat) : Nat := f.base.toNat + 32 * i

/-- Whether the ring takes no entry (R148, R149). -/
def fqFull (f : Fq) : Bool := f.size.toNat == 0 || (f.tail.toNat + 1) % f.size.toNat == f.head.toNat

/-- Whether a partition's queue takes no entry: its ring is full, or no entry version is negotiated (R16, R199, log entry 63). -/
def fqShut (pt : Part) : Bool := fqFull pt.fq || nth pt.veract 2 0 == 0

/-- Whether a course belongs to its partition's handler consort: its launch's COMPSEQ is the registered one (R167). -/
def isHandler (w : W) (c : Course) : Bool :=
  match (part w c.id.part).handler, launch? w c.id.launch with
  | some h, some l => l.hdr.compseq == h.toNat
  | _, _ => false

/-- The course of an entry, when it belongs to the handler consort. -/
def handlerCourse (w : W) (x : Pending) : Option Course :=
  match course? w x.e.cid with
  | some c => if isHandler w c then some c else none
  | none => none

/-- Whether a fault is of the handler consort, which hub firmware serves whether or not the ring takes it (R325). -/
def ofHandler (w : W) (x : Pending) : Bool := (handlerCourse w x).isSome

/-- The ring index of pending entry number i. -/
def fqIndex (f : Fq) (i : Nat) : Nat := if f.size.toNat = 0 then 0 else (f.head.toNat + i) % f.size.toNat

/-- A fault queue changed. -/
def updFq (w : W) (p : Nat) (g : Fq → Fq) : W := updPart w p fun x => { x with fq := g x.fq }

/-- A fault held for want of room, with event 0x11 once a spell (R149). -/
def holdFull (w : W) (p : Nat) (x : Pending) : W :=
  let f := (part w p).fq
  let w := updFq w p fun f => { f with held := f.held ++ [x], told11 := true }
  if f.told11 then w else partEvent w p x.e.world 0x11 f.size.toNat f.base.toNat

/-- A fault held because its entry could not be written, with event 0x16 once a spell (R149). -/
def holdUnwritten (w : W) (p : Nat) (x : Pending) (cause addr : Nat) : W :=
  let f := (part w p).fq
  let w := updFq w p fun f => { f with held := f.held ++ [x], told16 := true }
  if f.told16 then w else partEvent w p x.e.world 0x16 cause addr

/-- A new entry written at FQTAIL, which serves the fault-notify dispenser; `none` when nothing was written (R149). -/
def writeEntry (e : Env) (w : W) (p : Nat) (x : Pending) : Except Nat W :=
  let pt := part w p
  match devWrite e w 72 p 0 pt.rAsid (fqAddr pt.fq pt.fq.tail.toNat) x.e.bytes true with
  | .error c => .error c
  | .ok w =>
    let w := updFq w p fun f =>
      { f with
        pending := f.pending ++ [x]
        tail := BitVec.ofNat 64 ((f.tail.toNat + 1) % f.size.toNat)
        told11 := false
        told16 := false }
    .ok (if pt.configured then serveDisp w pt.disp else w)

/-- A fault set aside without an event: an earlier one is held, or hub firmware serves it out of the ring (R149, R325). -/
def setAside (w : W) (p : Nat) (x : Pending) : W := updFq w p fun f => { f with held := f.held ++ [x] }

/-- A fault that does not merge (R149): one of the handler consort that meets a full queue is never written (R325). -/
def newEntry (e : Env) (w : W) (p : Nat) (x : Pending) : W :=
  let f := (part w p).fq
  if fqShut (part w p) then (if ofHandler w x then setAside w p x else holdFull w p x)
  else if f.held.any fun y => !ofHandler w y then setAside w p x
  else match writeEntry e w p x with
    | .ok w => w
    | .error c => holdUnwritten w p x c (fqAddr f f.tail.toNat)

/-- The first pending entry that a fault merges into, by number. -/
def mergeAt (f : Fq) (x : Entry) : Option Nat := f.pending.findIdx? (mergesInto x)

/-- A fault delivered to a partition's queue (R149). Where the bytes that a merge changes cannot be written, the ring shows the entry
as it was and the merge stands all the same (log entry 63). -/
def deliver (e : Env) (w : W) (p : Nat) (x : Pending) : W :=
  let f := (part w p).fq
  match mergeAt f x.e with
  | some i =>
    let y := mergeWith (f.pending.getD i x) x
    let w := updFq w p fun f => { f with pending := f.pending.set i y }
    match devWrite e w 72 p 0 (part w p).rAsid (fqAddr f (fqIndex f i) + 1) ((y.e.bytes.drop 1).take 7) true with
    | .ok w => w
    | .error _ => w
  | none => newEntry e w p x

/-- Held faults tried again in the order in which they arose, until one is held again (R149). One marked is of the handler consort
and has met a full queue: it stays out of the ring (R325). -/
def deliverHeld (e : Env) (p : Nat) : List (Bool × Pending) → W → W
  | [], w => w
  | (true, x) :: r, w => deliverHeld e p r (setAside w p x)
  | (false, x) :: r, w =>
    let rest := fun w => updFq w p fun f => { f with held := f.held ++ r.map (·.2) }
    if fqShut (part w p) then
      (if ofHandler w x then deliverHeld e p r (setAside w p x) else rest (holdFull w p x))
    else match mergeAt (part w p).fq x.e with
      | some _ => deliverHeld e p r (deliver e w p x)
      | none => match writeEntry e w p x with
        | .ok w => deliverHeld e p r w
        | .error c =>
          let f := (part w p).fq
          rest (holdUnwritten w p x c (fqAddr f f.tail.toNat))

/-- Delivery of all held faults attempted (R149). -/
def retryHeld (e : Env) (w : W) (p : Nat) : W :=
  let hs := (part w p).fq.held
  deliverHeld e p (hs.map fun x => (ofHandler w x, x)) (updFq w p fun f => { f with held := [] })

/-- FQBASE or FQSIZE written: a new value delivers the pending faults again into the new ring (R148). Of a write of the value already
held R148 says that it changes nothing and R149 that each write tries held faults again: the model's choice is that it changes nothing (log
entry 63). -/
def rebuildFq (e : Env) (w : W) (p : Nat) (base size : BitVec 64) : W :=
  let f := (part w p).fq
  if f.base = base ∧ f.size = size then w
  else
    let w' := updFq w p fun f =>
      { f with base := base, size := size, head := 0, tail := 0, pending := [], told11 := false, told16 := false, held := [] }
    deliverHeld e p (((f.pending.filter fun x => !x.served).map fun x => (false, x)) ++
      f.held.map fun x => (ofHandler w x, x)) w'

/-! Reports of actions (R14). -/

/-- The entry that reports an action of hub firmware for which no cause is given: the bytes that would tell of it are free values
(R14, log entry 6); none of them is the access type of a slice's POISON entry, which merges with its own kind alone (R337). -/
def actionEntry (p n : Nat) : Entry where
  cause := (Config.freeByte n).toNat
  merge := 0
  slotf := 0
  lanes := 0
  va := (Config.freeWord n).toNat
  asid := 0
  world := 0
  part := p
  cid := noCid
  pc := 0
  atype := if Config.freeByte (n + 1) = 4 then 0x12 else (Config.freeByte (n + 1)).toNat
  size := 0

/-- An action of hub firmware reported to the fault queues of the partitions concerned (R14). -/
def reportEntries (e : Env) (w : W) (ps : List Nat) : W :=
  let n := w.fresh
  ps.foldl (fun w p => deliver e w p ⟨actionEntry p n, [], false⟩) { w with fresh := n + 2 }

/-- An action reported to the fault queues and to the host event queues, where no event code is given for it (R14, log entry 6). -/
def reportAction (e : Env) (w : W) (ps : List Nat) : W :=
  let w := reportEntries e w ps
  let n := w.fresh
  manyEvent { w with fresh := n + 3 } ps (Config.freeByte n).toNat (Config.freeWord (n + 1)).toNat (Config.freeWord (n + 2)).toNat

/-- The SLOTF word of an entry of a course (R148): owner slot, MIXED, privileged, engine operand. -/
def slotfOf (c : Course) (slot : Nat) (eng : Bool) : Nat :=
  slot + c.id.mixed.toNat * 16 + c.id.priv.toNat * 32 + eng.toNat * 64

end Sys2Proof.Machine
end

