-- ==== Sys2Proof/Machine/Launch.lean ====
section
/-! DEFINITION. Launches: headers, dealing, placement, formation, and the ends of courses, consorts and launches
(R133 to R139, R155, R160, R281, R330). -/

namespace Sys2Proof.Machine

/-! Headers (R135, R136). -/

/-- The fields of a launch header's 128 bytes (R135). -/
def parseHdr (b : List Byte) : Hdr :=
  let n := leNat b
  { lclb := bitsAt n 544 32, lcladdr := bitsAt n 448 64, compseq := bitsAt n 384 64, compaddr := bitsAt n 320 64,
    argaddr := bitsAt n 256 64, argsize := bitsAt n 224 32, tlcnt := bitsAt n 208 8, accr := bitsAt n 192 10,
    scrb := bitsAt n 160 24, ccount := bitsAt n 128 32, w5 := bitsAt n 102 6, w4 := bitsAt n 96 6, w3 := bitsAt n 90 6,
    w2 := bitsAt n 84 6, w1 := bitsAt n 80 3, entry := bitsAt n 32 48, cpc := bitsAt n 22 6, widthc := bitsAt n 20 2,
    prio := bitsAt n 16 3, pinned := bitAt n 12, msix := bitAt n 11, event := bitAt n 10, priv := bitAt n 9,
    fenced := bitAt n 8, ver := bitsAt n 0 8,
    reserved := bitsAt n 576 448 != 0 || bitsAt n 512 32 != 0 || bitsAt n 216 8 != 0 || bitsAt n 202 6 != 0 ||
      bitsAt n 184 8 != 0 || bitsAt n 108 20 != 0 || bitAt n 83 || bitsAt n 28 4 != 0 || bitAt n 19 || bitsAt n 13 3 != 0 }

/-- The consort width of a header. -/
def Hdr.width (h : Hdr) : Nat := 2 ^ h.widthc

/-- The scratch window per core, W (R135). -/
def Hdr.win (h : Hdr) : Nat := roundUp h.scrb 16384

/-- Courses per consort. -/
def Hdr.courses (h : Hdr) : Nat := h.cpc + 1

/-- The checks of R136; `mayPriv` says whether PRIV and PINNED may be set. -/
def Hdr.bad (h : Hdr) (version : Nat) (mayPriv : Bool) : Bool :=
  h.reserved || h.widthc == 3 || version == 0 || h.ver != version || decide (h.cpc + 1 > 2 ^ h.w1) ||
  decide (5 + h.w1 + h.w2 + h.w3 + h.w4 + h.w5 > 64) || h.ccount == 0 ||
  decide (h.ccount > 2 ^ (h.w2 + h.w3 + h.w4 + h.w5)) || h.accr % 64 != 0 || decide (h.accr > 512) || h.tlcnt == 0 ||
  decide (h.tlcnt > 64) || decide (h.scrb > 2 ^ 21) || ((h.priv || h.pinned) && !mayPriv)

/-- The version in force of structure b: 0 launch header, 1 context frame, 2 fault queue entry, 3 arming entry (R190). -/
def verOf (w : W) (p b : Nat) : Nat := nth (part w p).veract b 0

/-! Worlds on a core (R83). -/

/-- The quadrants of a core that a world holds. -/
def worldQuads (w : W) (pcn wd : Nat) : List Nat := (List.range 4).filter fun q => (quad w (4 * pcn + q)).world == wd

/-- Whether a core is fenced (R83). -/
def isFenced (w : W) (pcn : Nat) : Bool :=
  (List.range 4).any fun q => (quad w (4 * pcn + q)).world != (quad w (4 * pcn)).world

/-- The bytes of a world's bank set on a core (R83). -/
def setBytes (w : W) (pcn wd : Nat) : Nat := (worldQuads w pcn wd).length * 2 ^ 19

/-- Where a world's bank set starts among the core's sets: after the sets of worlds with a lower quadrant. -/
def setBase (w : W) (pcn wd : Nat) : Nat :=
  let first := fun x => (worldQuads w pcn x).headD 4
  ((List.range 4).filter fun q => first (quad w (4 * pcn + q)).world < first wd).length * 2 ^ 19

/-- The memory key of a physical scratch offset of a world's set on a core. -/
def scrKey (w : W) (pcn wd p : Nat) : Nat := keyScr pcn (setBase w pcn wd) p

/-! Dealing (R139). -/

/-- Whether a logical core belongs to a partition and is not absent. -/
def corePresent (w : W) (p l : Nat) : Bool :=
  lptValid (lptAt w l) && !lptAbsent (lptAt w l) && (part w p).cores.getLsbD (pcnOf w l)

/-- Whether a core can take a consort of a world with a window and accumulator rows at all (R83). -/
def coreGives (w : W) (win accN wd l : Nat) : Bool :=
  let pcn := pcnOf w l
  let m := (worldQuads w pcn wd).length
  if isFenced w pcn then 0 < m && accN == 0 && win ≤ m * 2 ^ 19 else m == 4

/-- A list cut into whole groups of n; `f` bounds their number. -/
def groupsOf (n : Nat) : Nat → List Nat → List (List Nat)
  | 0, _ => []
  | f + 1, l => if l.length < n ∨ n = 0 then [] else l.take n :: groupsOf n f (l.drop n)

/-- The slots of a cluster, in ascending logical number of their first core (R139). -/
def clusterSlots (w : W) (p : Nat) (h : Hdr) (wd cl : Nat) : List LSlot :=
  let cs := (List.range 72).filter fun l => corePresent w p l && lptCluster (lptAt w l) == cl
  ((groupsOf h.width 4 cs).filter fun g => g.all (coreGives w h.win h.accr wd)).map fun g => ⟨g, cl, none⟩

/-- The slots of a launch in the order of the rounds (R139). -/
def dealSlots (w : W) (p : Nat) (h : Hdr) (wd : Nat) : List LSlot :=
  let by_ := (List.range 18).map (clusterSlots w p h wd)
  (List.range 4).flatMap fun r => by_.filterMap fun l => l[r]?

/-- The world of a launch. -/
def Launch.world (l : Launch) : Nat := ((l.owners.head?).map (·.world)).getD 0

/-- The lowest waiting consort of a launch: one that gave its slot up, or the next never given one. -/
def Launch.waiting (l : Launch) : Option Nat :=
  ((if l.next < l.hdr.ccount then [l.next] else []) ++ l.back).min?

/-- A consort before it is placed (R139). -/
def newConsort (lid idx : Nat) (l : Launch) (cores : List Nat) (slotI : Nat) : Consort where
  launch := lid
  idx := idx
  part := l.part
  world := l.world
  ctx := l.ctx
  pinned := l.hdr.pinned
  cores := cores
  st := .slotted
  win := l.hdr.win
  pw := []
  accN := l.hdr.accr
  rows := []
  scales := []
  tlFirst := 0
  tlCnt := l.hdr.tlcnt
  csave := 0
  nCourses := l.hdr.courses
  live := 0
  bars := []
  full := 0
  races := []
  away := []
  succ := none
  succPriv := false
  lost := none
  haltb := false
  barPend := false
  stuck := false
  kept := false
  asid0 := ((l.owners.head?).map (·.asid)).getD 0
  cid0 := 0
  slotL := lid
  slotI := slotI

/-- A slot given to the lowest waiting consort, unless it is held, gone, fenced off by now, or none waits (R83, R139, R155, R174). -/
def giveSlot (w : W) (lid i : Nat) : W :=
  match launch? w lid with
  | none => w
  | some l =>
    let s := l.slots.getD i ⟨[], 0, none⟩
    if l.held ∨ s.holder.isSome ∨ !(s.cores.all fun c => corePresent w l.part c && coreGives w l.hdr.win l.hdr.accr l.world c) ∨
        s.cores = [] then w
    else match l.waiting with
      | none => w
      | some idx =>
        let l' := { l with
          slots := l.slots.set i { s with holder := some idx }
          next := if idx = l.next then l.next + 1 else l.next
          back := l.back.filter (· != idx) }
        let k := w.nextConsort
        { w with
          nextConsort := k + 1
          launches := tPut w.launches lid l'
          consorts := tPut w.consorts k (newConsort lid idx l s.cores i) }

/-- Free slots given in order. -/
def giveSlots (w : W) (lid : Nat) (order : List Nat) : W := order.foldl (fun w i => giveSlot w lid i) w

/-- The slot numbers of a launch by ascending logical number of their first core. -/
def slotsByCore (l : Launch) : List Nat :=
  (((List.range l.slots.length).map fun i => (((l.slots.getD i ⟨[], 0, none⟩).cores).headD 72, i)).mergeSort
    fun a b => a.1 ≤ b.1).map (·.2)

/-- A slot released (R139). -/
def releaseSlot (w : W) (lid i : Nat) : W :=
  let w := updLaunch w lid fun l => { l with slots := l.slots.set i { (l.slots.getD i ⟨[], 0, none⟩) with holder := none } }
  giveSlot w lid i

/-! Resources (R139 step 4, R193, R330). -/

/-- Whether a consort is halted: HALTB holds it, or its context's slice is over, and no course of it is resident or ready (R70,
R146, R152). -/
def isHalted (w : W) (kc : Nat) (k : Consort) : Bool :=
  let cx := (part w k.part).ctxs
  (k.haltb || (1 < cx.count && cx.cur != k.ctx)) &&
    !(w.courses.any fun (_, c) => c.id.consort == kc && (c.k.at_ == .resident || c.k.at_ == .ready))

/-- Whether a placed consort of another context is halted, so that its scratch and rows count as available (R330). -/
def yields (w : W) (ctx : Nat) (kc : Nat) (k : Consort) : Bool := k.ctx != ctx && !k.pinned && isHalted w kc k

/-- The consorts whose allotments on a logical core keep others out, `soft` leaving out those that yield. -/
def holders (w : W) (ctx : Nat) (lcore : Nat) (soft : Bool) : List Consort :=
  w.consorts.filterMap fun (kc, k) =>
    if k.st = .placed ∧ k.cores.contains lcore ∧ !(soft && yields w ctx kc k) then some k else none

/-- The 16 KiB blocks of a world's set that a consort's window takes on a logical core. -/
def blocksOf (k : Consort) (lcore : Nat) : List Nat :=
  let i := k.cores.findIdx (· == lcore)
  (List.range (k.win / 16384)).map (nth k.pw i 0 / 16384 + ·)

/-- The first run of n numbers below a limit that avoids a list. -/
def firstRun (limit n : Nat) (used : List Nat) : Option Nat :=
  (List.range (limit + 1 - n)).find? fun s => s + n ≤ limit && (List.range n).all fun i => !used.contains (s + i)

/-- A window of a world on a logical core: its physical offset (R81, R83, R330). -/
def findWin (w : W) (ctx wd n lcore : Nat) : Option Nat :=
  let lim := setBytes w (pcnOf w lcore) wd / 16384
  let used := fun soft => ((holders w ctx lcore soft).filter fun k => k.world == wd).flatMap fun k => blocksOf k lcore
  match firstRun lim (n / 16384) (used false) with
  | some s => some (s * 16384)
  | none => (firstRun lim (n / 16384) (used true)).map (· * 16384)

/-- The row groups of a quadrant that a list of consorts has been allotted on a logical core. -/
def groupsUsed (ks : List Consort) (lcore q : Nat) : List Nat :=
  ks.flatMap fun k => nth k.rows (4 * k.cores.findIdx (· == lcore) + q) []

/-- The scale groups of a quadrant that a list of consorts has been allotted on a logical core. -/
def scalesUsed (ks : List Consort) (lcore q : Nat) : List Nat :=
  ks.flatMap fun k => nth k.scales (4 * k.cores.findIdx (· == lcore) + q) []

/-- The lowest n of eight groups outside a list; none when fewer are free. -/
def lowGroups (n : Nat) (used : List Nat) : Option (List Nat) :=
  let free := (List.range 8).filter fun g => !used.contains g
  if free.length < n then none else some (free.take n)

/-- Row groups in a quadrant (R85, R330). -/
def findRows (w : W) (ctx n lcore q : Nat) : Option (List Nat) :=
  match lowGroups n (groupsUsed (holders w ctx lcore false) lcore q) with
  | some g => some g
  | none => lowGroups n (groupsUsed (holders w ctx lcore true) lcore q)

/-- All of a list of options, or none. -/
def allSome {α : Type} : List (Option α) → Option (List α)
  | [] => some []
  | none :: _ => none
  | some a :: r => (allSome r).map (a :: ·)

/-- The first timeline counter of a run free on every core of a slot (R139). -/
def findTl (w : W) (cores : List Nat) (n : Nat) : Option Nat :=
  firstRun 256 n (cores.flatMap fun l => (core w (pcnOf w l)).tlOwner.map (·.1))

/-- Whether a range lies in bounds and meets none of a list. -/
def fits (used : List (Nat × Nat)) (lo hi n a : Nat) : Bool :=
  lo ≤ a && a + n ≤ hi && used.all fun (b, m) => a + n ≤ b || b + m ≤ a

/-- The lowest place of n bytes at an alignment in the context space's pool, past the launch queue and watch lists (R193). -/
def findPool (pt : Part) (n align : Nat) : Option Nat :=
  let lo := pt.ctxBase + 3 * 2 ^ 19
  let hi := pt.ctxBase + pt.ctxSize
  (((lo :: pt.frames.map fun (b, m) => b + m).map fun a => roundUp a align).filter (fits pt.frames lo hi n)).min?

/-- n frames of 12 KiB handed out: their addresses (R57, R193). -/
def takeFrames : Nat → Part → Option (List Nat × Part)
  | 0, pt => some ([], pt)
  | n + 1, pt => match findPool pt 12288 4096 with
    | none => none
    | some a => (takeFrames n { pt with frames := (a, 12288) :: pt.frames }).map fun (l, pt) => (a :: l, pt)

/-- The bytes of a consort save area: windows, row groups, barrier record (R71, R175). -/
def saveBytes (width win n : Nat) : Nat := width * win + 4 * width * n * 1024 + 128

/-- Where the barrier record stands in the save area (R175). -/
def barOffset (width win n : Nat) : Nat := width * win + 4 * width * n * 1024

/-! Formation (R39, R133, R134, R137). -/

/-- The owner vector of owners whose lanes follow one another (R134). -/
def ownvOf (os : List Owner) : BitVec 128 :=
  (os.zipIdx.foldl (fun (st : Nat × Nat) (o, s) =>
    (st.1 + o.lanes, (List.range o.lanes).foldl (fun v i => setBits v (4 * (st.1 + i)) 4 s) st.2)) (0, 0)).2

/-- The lanes of owners in all. -/
def lanesOf (os : List Owner) : Nat := os.foldl (fun n o => n + o.lanes) 0

/-- The lane status of n live lanes. -/
def statusOf (n : Nat) : BitVec 64 := BitVec.ofNat 64 ((List.range n).foldl (fun v k => v + 2 ^ (2 * k)) 0)

/-- A whole-space A0 (R87). -/
def a0Of (width n : Nat) : BitVec 128 :=
  if n = 0 then 0 else BitVec.ofNat 128 (width * n * 2 ^ 32 + 1024 * 2 ^ 44 + 2 * 2 ^ 56)

/-- The 64 bytes of owner slot s at formation (R52, R134, R137). -/
def slotInit (h : Hdr) (pooled : Bool) (u s g : Nat) (o : Owner) : BitVec 512 :=
  let scr := if pooled then h.win / u / 16 * 16 else h.win
  BitVec.ofNat 512 (o.asid % 2 ^ 16 + o.world % 16 * 2 ^ 16 + o.prio % 8 * 2 ^ 20 + 2 ^ 23 +
    (if pooled then s * (h.win / u) / 16 * 16 else 0) * 2 ^ 64 + scr * 2 ^ 128 +
    (h.lcladdr + 32 * h.lclb * g) % 2 ^ 64 * 2 ^ 192 + (if pooled then 0 else h.lclb) * 2 ^ 256 +
    (if pooled then o.payload.toNat else h.argaddr) * 2 ^ 320 + h.argsize * 2 ^ 384)

/-- The registers of course j of a consort at formation (R39). -/
def regsInit (h : Hdr) (l : Launch) (idx j tlFirst : Nat) : Regs where
  s := List.replicate 64 0
  p := List.replicate 7 0
  q := 0
  lpc := List.replicate 32 (BitVec.ofNat 32 (h.entry / 4 * 4))
  status := statusOf (lanesOf l.owners)
  d := List.replicate 16 0
  a := a0Of h.width h.accr :: List.replicate 15 0
  tl := [BitVec.ofNat 64 (tlFirst + j % h.width * 2 ^ 8 + 2 ^ 10), 0, 0, 0]
  slots := (List.range 8).map fun s => match l.owners[s]? with
    | none => 0
    | some o => slotInit h (l.origin == .pooled) l.owners.length s (idx * h.courses + j) o

/-- The highest PRIO among the owner slots of live and parked lanes (R142). -/
def prioOf (c : Course) : Nat := (mLanes (liveParked c)).foldl (fun m k => max m (slotPrio c (own c k))) 0

/-- A course of a placed consort (R39, R137). -/
def courseInit (w : W) (kc : Nat) (k : Consort) (l : Launch) (j frame cid : Nat) : Course :=
  let h := l.hdr
  let c : Course :=
    { id := {
        cid := cid, part := k.part, consort := kc, launch := k.launch, j := j, core := j % h.width, priv := h.priv,
        mixed := decide (1 < l.owners.length), pinned := h.pinned, ctx := l.ctx,
        cbase := BitVec.ofNat 64 (h.entry / 2 ^ 32 * 2 ^ 32), codeAsid := l.codeAsid, frame := frame, csave := k.csave,
        tlallot := BitVec.ofNat 16 (k.tlFirst + k.tlCnt % 256 * 256), version := verOf w k.part 1,
        ownv := ownvOf l.owners,
        payload := if l.origin = .single then (l.owners.head?).map (·.payload) else none,
        wid := (32 * j + 2 ^ (5 + h.w1) * k.idx) % 2 ^ 64, widths := [5, h.w1, h.w2, h.w3, h.w4, h.w5] }
      r := regsInit h l k.idx j k.tlFirst
      v := ⟨[], false, false, nth k.cores (j % h.width) 0, 0, BitVec.allOnes 64, 0, 0, []⟩
      w := ⟨0, [], 0, 0, false, false⟩
      k := {
        at_ := .ready, slot := 0, gen := 0, join := 0, cause := 0, prio := 0, order := 0, await := .nothing,
        deadline := none, bound := false, stall := none, tmo := none, fetchLost := false, wait := List.replicate 32 0, turn := none, age := 0,
        stopped := false, succ := l.origin == .successor, isNew := true, newer := [] } }
  { c with k := { c.k with prio := prioOf c } }

/-- The words of the frame that formation writes; a page that fails translation keeps what it holds (R58). -/
def formFrame (e : Env) (w : W) (c : Course) : W :=
  let put := fun (w : W) (off : Nat) (bs : List Byte) =>
    match ctxWrite e w (pcnOf w c.v.hcore) c.id.part (slotWorld c 0) (c.id.frame + off) bs [] with
    | .ok w => w
    | .error _ => w
  let b := ctlBytes c
  let w := put w 0x2121 ((b.drop 0x121).take 7)
  let w := put w 0x2130 ((b.drop 0x130).take 16)
  let w := put w 0x2200 ((b.drop 0x200).take 16)
  let w := put w 0x2230 ((b.drop 0x230).take 8)
  put w 0x2560 (b.drop 0x560)

/-- A course formed: its frame's words written and its record at the tail of its ready queue (R141, R142). -/
def formCourse (e : Env) (kc : Nat) (k : Consort) (l : Launch) (w : W) (j frame : Nat) : W :=
  let c := courseInit w kc k l j frame w.nextCid
  let w := formFrame e w c
  enterReady { w with nextCid := w.nextCid + 1 } c

/-- All courses of a consort formed in their frames. -/
def formAll (e : Env) (w : W) (kc : Nat) (k : Consort) (l : Launch) (frames : List Nat) : W :=
  let w := updConsort w kc fun _ => { k with live := k.nCourses, st := .placed, cid0 := w.nextCid }
  frames.zipIdx.foldl (fun w (a, j) => formCourse e kc k l w j a) w

/-- A scratch block of a core cleared and given to a consort. -/
def grabBlock (w : W) (kc pcn b : Nat) : W :=
  let a := keyScr pcn 0 (b * 16384)
  updCore (cleanRange (wrClear w a 16384) a 16384) pcn fun c => { c with blocks := tPut c.blocks b kc }

/-- A row group of a quadrant cleared and given to a consort. -/
def grabGroup (w : W) (kc pcn q g : Nat) : W :=
  let a := keyAcc pcn q g 0 0 0
  updCore (cleanRange (wrClear w a 65536) a 65536) pcn fun c => { c with groups := tPut c.groups (8 * q + g) kc }

/-- A group of 16 scale columns set to 0x7F and given to a consort (R88). -/
def grabScale (w : W) (kc pcn q g : Nat) : W :=
  let a := keyScale pcn q (16 * g) 0
  updCore (cleanRange (wrClear w a 8192) a 8192) pcn fun c => { c with scales := tPut c.scales (8 * q + g) kc }

/-- The scratch blocks and row groups of a placed consort on its cores: those no consort holds are cleared and given to it at once (R81,
R85). -/
def grabUnits (w : W) (kc : Nat) (k : Consort) : W :=
  k.cores.zipIdx.foldl (fun w (l, i) =>
    let pcn := pcnOf w l
    let base := setBase w pcn k.world / 16384
    let w := (blocksOf k l).foldl (fun w b =>
      if (tGet? (core w pcn).blocks (base + b)).isSome then w else grabBlock w kc pcn (base + b)) w
    (List.range 4).foldl (fun w q =>
      (nth k.rows (4 * i + q) []).foldl (fun w g =>
        if (tGet? (core w pcn).groups (8 * q + g)).isSome then w else grabGroup w kc pcn q g) w) w) w

/-- The scale columns and timeline counters of a placed consort on its cores (R88, R161). -/
def grabCounters (w : W) (kc : Nat) (k : Consort) : W :=
  k.cores.zipIdx.foldl (fun w (l, i) =>
    let pcn := pcnOf w l
    let w := (List.range 4).foldl (fun w q =>
      (nth k.scales (4 * i + q) []).foldl (fun w g => grabScale w kc pcn q g) w) w
    updCore w pcn fun c =>
      { c with
        tls := (List.range k.tlCnt).foldl (fun t n => tPut t (k.tlFirst + n) Tlc.init) c.tls
        tlOwner := (List.range k.tlCnt).foldl (fun t n => tPut t (k.tlFirst + n) kc) c.tlOwner }) w

/-- What the cores of a slot can give a consort: the places of its windows, its row groups and its scale groups; none where a core cannot
take the consort, being fenced, or has not enough free (R83, R139). -/
def slotPlaces (w : W) (k : Consort) : Option (List Nat × List (List Nat) × List (List Nat)) :=
  let n := k.accN / 64
  let pw := allSome (k.cores.map (findWin w k.ctx k.world k.win))
  let rows := allSome (k.cores.flatMap fun l => (List.range 4).map fun q => if n = 0 then some [] else findRows w k.ctx n l q)
  let scales := allSome (k.cores.flatMap fun l => (List.range 4).map fun q =>
    if n = 0 then some [] else lowGroups n (scalesUsed (holders w k.ctx l false) l q))
  if !(k.cores.all (coreGives w k.win k.accN k.world)) then none
  else match pw, rows, scales with
    | some pw, some rows, some scales => some (pw, rows, scales)
    | _, _, _ => none

/-- A slotted consort with the resources every core of its slot can supply, or none (R83, R139 step 4). -/
def supply (w : W) (k : Consort) : Option (Consort × Part × List Nat) :=
  match slotPlaces w k, findTl w k.cores k.tlCnt with
  | some (pw, rows, scales), some tl =>
    let need := roundUp (saveBytes k.cores.length k.win k.accN) 65536
    match findPool (part w k.part) need 65536 with
    | none => none
    | some cs =>
      let pt := part w k.part
      match takeFrames k.nCourses { pt with frames := (cs, need) :: pt.frames } with
      | none => none
      | some (fs, pt) =>
        some ({ k with pw := pw, rows := rows, scales := scales, tlFirst := tl, csave := cs }, pt, fs)
  | _, _ => none

/-- Whether an earlier launch of the queue waits for resources of the same core (R140). -/
def behindEarlier (w : W) (k : Consort) (l : Launch) : Bool :=
  match l.seq with
  | none => false
  | some n => w.consorts.any fun (_, x) =>
      x.st == .slotted && x.part == k.part && x.cores.any (k.cores.contains ·) &&
        match launch? w x.launch with
        | some y => (match y.seq with | some m => decide (m < n) | none => false)
        | none => false

/-- CONSORT_PLACEMENT: a consort given a slot is placed once every core can supply it (R139). -/
def placeConsort (e : Env) (w : W) (kc : Nat) : W :=
  match consort? w kc with
  | none => w
  | some k =>
    match launch? w k.launch with
    | none => w
    | some l =>
      if k.st ≠ .slotted ∨ l.held ∨ behindEarlier w k l then w
      else match supply w k with
        | none => w
        | some (k, pt, fs) =>
          let w := updPart w k.part fun _ => pt
          let k := { k with st := .placed, live := k.nCourses }
          let w := grabCounters (grabUnits (updConsort w kc fun _ => k) kc k) kc k
          formAll e w kc k l fs

/-! Completion (R138). -/

/-- The 32 bytes of a completion record. -/
def recordBytes (seq status lost first : Nat) : List Byte :=
  leBytes 8 seq ++ leBytes 1 status ++ leBytes 3 0 ++ leBytes 4 lost ++ leBytes 4 first ++ leBytes 12 0

/-- The function to which a launch reports (R151). -/
def reportFn (w : W) (l : Launch) : Nat := l.fn.getD (eventFn w l.part)

/-- The record of a completed launch, its event and its MSI-X (R124, R138). -/
def completeLaunch (e : Env) (w : W) (l : Launch) : W :=
  let h := l.hdr
  let status := (l.first.map (·.2)).getD 0
  let first := (l.first.map (·.1)).getD (2 ^ 32 - 1)
  let wr := devWrite e w 72 l.part l.world l.compAsid h.compaddr (recordBytes h.compseq status l.lost first) l.compPriv
  if l.quiet then (match wr with | .ok w => w | .error _ => w)
  else
    let w := match wr with
      | .ok w =>
        if h.event then
          hostEvent w (reportFn w l) l.part l.world 0x01 (status + min l.lost (2 ^ 24 - 1) * 256) h.compseq
        else w
      | .error c => hostEvent w (reportFn w l) l.part l.world 0x02 c h.compaddr
    if h.msix then msixPost w (reportFn w l) 1 else w

/-- The record and event of a rejected launch (R136). -/
def rejectLaunch (e : Env) (w : W) (l : Launch) : W :=
  let h := l.hdr
  let first := if h.ccount = 0 then 2 ^ 32 - 1 else 0
  let w := match devWrite e w 72 l.part l.world l.compAsid h.compaddr (recordBytes h.compseq 1 h.ccount first) l.compPriv with
    | .ok w => hostEvent w (reportFn w l) l.part l.world 0x02 1 h.compaddr
    | .error c => hostEvent w (reportFn w l) l.part l.world 0x02 c h.compaddr
  if h.msix then msixPost w (reportFn w l) 1 else w

/-- A launch at its start: checked and dealt, or rejected (R136, R139). -/
def startLaunch (e : Env) (w : W) (l : Launch) (mayPriv : Bool) : W :=
  if l.hdr.bad (verOf w l.part 0) mayPriv then rejectLaunch e w l
  else
    let slots := dealSlots w l.part l.hdr l.world
    let lid := w.nextLaunch
    let w := { w with nextLaunch := lid + 1, launches := tPut w.launches lid { l with slots := slots } }
    giveSlots w lid (List.range slots.length)

/-- A launch record before it starts. -/
def mkLaunch (h : Hdr) (p : Nat) (o : Origin) (owners : List Owner) (codeAsid compAsid : Nat) (compPriv : Bool) (ctx : Nat)
    (fn port seq : Option Nat) : Launch where
  hdr := h
  part := p
  origin := o
  owners := owners
  codeAsid := codeAsid
  compAsid := compAsid
  compPriv := compPriv
  ctx := ctx
  fn := fn
  port := port
  seq := seq
  slots := []
  next := 0
  back := []
  ended := 0
  lost := 0
  first := none
  held := false
  quiet := false

/-! Ends (R69, R138, R160, R281). -/

/-- A non-returning 64-bit add of an activation unit at its home slice, under world 0 (R94, R160): lost at a slice out of reach,
after the scrub of its frame, reported and not performed at a poisoned sector (R109, R113, R337). -/
def ownAdd (e : Env) (w : W) (row p pa n : Nat) : W :=
  match ownPlaces w row p (physPlace e w p) pa 8 with
  | .error _ => w
  | .ok ls =>
      let w := afterScrub e w ls
      if (placesStop w ls).isSome then deliver e w p ⟨sliceEntry p 0 pa 8, [], false⟩
      else wrPlaces e w 0 ls (leBytes 8 ((leNat (rdPlaces e w 0 ls) + n) % 2 ^ 64))

/-- A course's LANECYC added to the accounting entries of its owners (R160). -/
def account (e : Env) (w : W) (c : Course) : W :=
  (List.range 8).foldl (fun w s =>
    if !slotValid c s then w
    else ownAdd e w (pcnOf w c.v.hcore) c.id.part ((part w c.id.part).acctT + 8 * slotAsid c s) (slotLanecyc c s)) w

/-- A course ended: accounted, its frame returned, its lines and slot free (R69, R160). -/
def endCourse (e : Env) (w : W) (cid : Nat) : W :=
  match course? w cid with
  | none => w
  | some c =>
    let w := account e w c
    let w := updPart w c.id.part fun p => { p with frames := p.frames.filter fun f => f.1 != c.id.frame }
    let w := updConsort w c.id.consort fun k => { k with live := k.live - 1 }
    let w := { w with courses := tDel w.courses cid }
    match c.k.await with
    | .ticket d _ => updDisp w d fun x => { x with mask := sleeperMask w d }
    | _ => w

/-- The units, counters and save area of a consort given back (R88, R139, R161). -/
def freeUnits (w : W) (kc : Nat) (k : Consort) : W :=
  let w := k.cores.foldl (fun w l =>
    updCore w (pcnOf w l) fun c =>
      { c with
        blocks := c.blocks.filter fun x => x.2 != kc
        groups := c.groups.filter fun x => x.2 != kc
        scales := c.scales.filter fun x => x.2 != kc
        tlOwner := c.tlOwner.filter fun x => x.2 != kc }) w
  updPart w k.part fun p => { p with frames := p.frames.filter fun f => f.1 != k.csave }

/-- A successor header that passes the checks of R281. -/
def succOk (w : W) (k : Consort) (h : Hdr) : Bool :=
  !h.bad (verOf w k.part 0) k.succPriv && 2 ^ h.widthc == k.cores.length && h.win ≤ k.win && h.accr == k.accN &&
  h.tlcnt ≤ k.tlCnt && h.ccount == 1 && !h.fenced

/-- The launch of a consort counted one consort further; completed when it was the last (R138). -/
def countEnd (e : Env) (w : W) (lid idx : Nat) (lost : Option Nat) : W :=
  match launch? w lid with
  | none => w
  | some l =>
    let l := { l with
      ended := l.ended + 1
      lost := if lost.isSome then l.lost + 1 else l.lost
      first := match lost, l.first with
        | none, f => f
        | some s, none => some (idx, s)
        | some s, some (i, t) => if idx < i then some (idx, s) else some (i, t) }
    let w := { w with launches := tPut w.launches lid l }
    if l.ended < l.hdr.ccount then w
    else
      let w := { w with launches := tDel w.launches lid }
      completeLaunch e w l

/-- The owner of a successor: the predecessor's slot 0 with the lower priority (R135, R281). -/
def succOwner (o : Owner) (h : Hdr) : Owner := { o with prio := min o.prio h.prio, lanes := 32 }

/-- A successor's consort in its predecessor's slot, with the units and counters it keeps (R281). -/
def formSuccessor (e : Env) (w : W) (kc : Nat) (k : Consort) (nl : Launch) (fs : List Nat) : W :=
  let lid := w.nextLaunch
  let h := nl.hdr
  let nl := { nl with next := 1 }
  let w := { w with nextLaunch := lid + 1, launches := tPut w.launches lid nl }
  let k := { k with
    launch := lid, idx := 0, nCourses := h.courses, live := h.courses, bars := [], full := 0, races := [], succ := none,
    pinned := h.pinned, tlCnt := h.tlcnt }
  formAll e (updConsort w kc fun _ => k) kc k nl fs

/-- A consort's resources and slot released (R139). -/
def dropConsort (w : W) (kc : Nat) (k : Consort) : W :=
  let w := freeUnits w kc k
  releaseSlot { w with consorts := tDel w.consorts kc } k.slotL k.slotI

/-- A consort's end: a successor formed in its slot, or its resources and slot released; its launch counted (R138, R281). The
end waits while the pool cannot give the successor's frames (R139 step 4). -/
def finishConsort (e : Env) (w : W) (kc : Nat) : W :=
  match consort? w kc with
  | none => w
  | some k =>
    let clear := fun (w : W) => { w with ops := w.ops.filter fun (_, o) => o.consort != kc }
    match launch? w k.launch, k.succ, k.lost with
    | some l, some hb, none =>
      let h := parseHdr hb
      let o := (l.owners.head?).getD ⟨k.asid0, k.world, 0, 0, 32⟩
      let nl := mkLaunch h k.part .successor [succOwner o h] l.codeAsid o.asid k.succPriv k.ctx none none none
      if succOk w k h then
        match takeFrames h.courses (part w k.part) with
        | none => w
        | some (fs, pt) => formSuccessor e (updPart (countEnd e (clear w) k.launch k.idx none) k.part fun _ => pt) kc k nl fs
      else dropConsort (rejectLaunch e (countEnd e (clear w) k.launch k.idx none) nl) kc k
    | _, _, _ => dropConsort (countEnd e (clear w) k.launch k.idx k.lost) kc k

/-- A consort ended as lost with a status: its courses end, its operations stop (R138, R150). -/
def loseConsort (e : Env) (w : W) (kc status : Nat) : W :=
  match consort? w kc with
  | none => w
  | some k =>
    if k.st = .slotted then
      let w := { w with consorts := tDel w.consorts kc }
      let w := countEnd e w k.launch k.idx (some status)
      releaseSlot w k.slotL k.slotI
    else
      let cs := w.courses.filterMap fun (cid, c) => if c.id.consort = kc then some cid else none
      let w := cs.foldl (fun w cid => endCourse e w cid) w
      finishConsort e (updConsort w kc fun k => { k with lost := some status }) kc

/-- Consorts by the logical core of their slot's first core, ascending. -/
def byCore (w : W) (ks : List Nat) : List Nat :=
  ((ks.filterMap fun kc => (consort? w kc).map fun k => (k.cores.headD 72, kc)).mergeSort fun a b => a.1 ≤ b.1).map (·.2)

/-- Consorts ended as lost at once: the slots that they release are served in ascending logical core (R139). -/
def loseConsorts (e : Env) (w : W) (ks : List Nat) (status : Nat) : W :=
  (byCore w ks.dedup).foldl (fun w kc => loseConsort e w kc status) w

end Sys2Proof.Machine
end

