-- ==== Sys2Proof/Machine/Ops.lean ====
section
/-! DEFINITION. The shared operations of courses: parking, taking a fault, lane splits, resolving fault queue entries (the
return from a fault), the register cache, scratch places and the units of a consort (R58 to R84, R142, R150, R164, R165). -/

namespace Sys2Proof.Machine

/-! Entries of a course (R148, R165, R319). -/

/-- An entry of a course for some of its lanes. -/
def entryOf (c : Course) (cause slot : Nat) (lanes : Mask) (va asid pc atype size : Nat) (eng : Bool) : Entry where
  cause := cause
  merge := 0
  slotf := slotfOf c slot eng
  lanes := lanes
  va := va % 2 ^ 64
  asid := asid
  world := slotWorld c slot
  part := c.id.part
  cid := c.id.cid
  pc := pc
  atype := atype
  size := size

/-- An entry of a fault that is no access of R102's kinds: ATYPE and SIZE are free values (R148, log entry 6). -/
def entryFree (c : Course) (cause slot : Nat) (lanes : Mask) (va asid pc : Nat) : Entry :=
  entryOf c cause slot lanes va asid pc (Config.noAtype cause pc).toNat (Config.noSize cause pc).toNat false

/-- The owner slot of the lowest lane of a mask; 0 for none. -/
def slotOfMask (c : Course) (m : Mask) : Nat := if m = 0 then 0 else own c (mLow m)

/-- Lanes divided as entries name them: by owner slot in a mixed course, else together (R165, R319). -/
def bySlot (c : Course) (m : Mask) : List (Nat × Mask) :=
  if c.id.mixed then
    (List.range 8).filterMap fun s =>
      let l := m &&& mkMask fun k => own c k == s
      if l = 0 then none else some (s, l)
  else [(slotOfMask c m, m)]

/-- The low 32 bits of a lane's PC (R49, R148). -/
def pcLow (c : Course) (k : Nat) : Nat := (lpc c k).toNat

/-- A CTXPF entry of a course: live and parked lanes, the lowest lane's slot and LPC (R66, R321, R323). -/
def ctxEntry (w : W) (c : Course) (va atype size cause : Nat) : Entry :=
  let m := liveParked c
  let x := entryOf c cause (slotOfMask c m) m va (part w c.id.part).cAsid (pcLow c (mLow m % 32)) atype size false
  x

/-- A fault of a course delivered, with PF_STAGE2's host event (R102, R149); `matrix` marks a refusal of R156. -/
def report (e : Env) (w : W) (x : Pending) (matrix : Option (Nat × Nat)) : W :=
  let w := deliver e w x.e.part x
  if x.e.cause = 0x16 then
    match matrix with
    | some (row, s) => partEvent w x.e.part x.e.world 0x13 row s
    | none => partEvent w x.e.part x.e.world 0x10 0x16 x.e.va
  else w

/-! Deferred results (R67 to R69). -/

/-- A course's slot and generation as a result's tag (R69). -/
def sameTag (c : Course) (f : Flight) : Bool :=
  f.cid == c.id.cid && f.quad == quadOf c && f.slot == c.k.slot && f.gen == c.k.gen

/-- A result put among buffered ones, which stand in issue order. -/
def insertFlight (f : Flight) : List Flight → List Flight
  | [] => [f]
  | g :: r => if f.n < g.n then f :: g :: r else g :: insertFlight f r

/-- A returned result in the buffer: its value and its flags wait for the marker (R21, R67, R249). -/
def buffer (c : Course) (f : Flight) : Course := { c with w := { c.w with buf := insertFlight f c.w.buf } }

/-- Every outstanding result of a course taken into its buffer in issue order (R68). -/
def drain (w : W) (c : Course) : W × Course :=
  let (mine, rest) := w.flights.partition (sameTag c)
  ({ w with flights := rest }, mine.foldl buffer c)

/-- A buffered result committed to its register in the lanes it wrote, and its flags set (R21, R40). -/
def commitOne (c : Course) (f : Flight) : Course :=
  let c := f.flags.foldl (fun c (s, x) => orFlags c s x) c
  match f.dest with
  | .v r => putV c r.val f.mask f.val
  | .s r => if f.mask = 0 then c else putS c r.val (laneOf f.val 0)

/-! The register cache (R62, R63, R66, R321, R322). -/

/-- The lines cached in a quadrant. -/
def lineCount (w : W) (q : Nat) : Nat :=
  w.courses.foldl (fun n (_, c) => n + (c.v.lines.filter fun x => x.2.quad == q).length) 0

/-- The spill-pending lines of a quadrant. -/
def pendCount (w : W) (q : Nat) : Nat :=
  w.courses.foldl (fun n (_, c) => n + (c.v.lines.filter fun x => x.2.quad == q && x.2.pend).length) 0

/-- A line removed from the cache. -/
def dropLine (c : Course) (r : Nat) : Course := { c with v := { c.v with lines := tDel c.v.lines r } }

/-- A line's bytes. -/
def lineBytes (l : CLine) : List Byte := (List.range 32).flatMap fun k => leBytes 4 (laneOf l.data k).toNat

/-- A cached line written to its frame: poisoned lines write poisoned sectors (R62). -/
def writeLine (e : Env) (w : W) (c : Course) (r : Nat) (l : CLine) : Except (Nat × Nat) W :=
  ctxWrite e w (pcnOf w (l.quad / 4)) c.id.part (slotWorld c 0) (c.id.frame + 128 * r) (lineBytes l) (if l.poison then [0, 1, 2, 3] else [])

/-- HELD cleared once a course that CTXFL flushed has no spill-pending line left, and a record made ready when only its
spills were missing (R59, R321, R322). -/
def afterSpill (w : W) (cid : Nat) : W :=
  match course? w cid with
  | none => w
  | some c =>
    if hasPend c then w
    else
      let c := if c.v.flushed then markNewer { c with v := { c.v with held := false, flushed := false } } 0x218 8 else c
      if c.k.at_ = .parked ∧ c.k.join = 0 then enterReady w c else setCourse w c

/-- The lines of one frame page that could not be spilt reported as one CTXPF entry (R321). -/
def reportSpill (e : Env) (w : W) (cid : Nat) (rs : List Nat) (cause : Nat) : W :=
  match course? w cid, rs with
  | some c, r :: _ => report e w ⟨ctxEntry w c (c.id.frame + 128 * r) 1 128 (if cause < 0x20 then 0x17 else cause),
      [.spill cid rs], false⟩ none
  | _, _ => w

/-- A dirty line spilt: written and dropped, or spill-pending (R62, R66). -/
def spillLine (e : Env) (w : W) (cid r : Nat) : W × Option Nat :=
  match course? w cid with
  | none => (w, none)
  | some c => match tGet? c.v.lines r with
    | none => (w, none)
    | some l =>
      if !l.dirty then (setCourse w (dropLine c r), none)
      else match writeLine e w c r l with
        | .ok w => (bumpCore (setCourse w (dropLine c r)) (pcnOf w (l.quad / 4)) 6 1, none)
        | .error (_, cause) =>
          (setCourse w { c with v := { c.v with lines := tPut c.v.lines r { l with pend := true } } }, some cause)

/-- Several lines of a course spilt; failures reported once per frame page (R321). -/
def spillLines (e : Env) (w : W) (cid : Nat) (rs : List Nat) : W :=
  let (w, bad) := rs.foldl (fun (st : W × List (Nat × Nat)) r =>
    let (w, x) := spillLine e st.1 cid r
    (w, match x with | none => st.2 | some cause => st.2 ++ [(r, cause)])) (w, [])
  let lo := bad.filter fun x => x.1 < 32
  let hi := bad.filter fun x => 32 ≤ x.1
  let w := reportSpill e w cid (lo.map (·.1)) (((lo.head?).map (·.2)).getD 0x17)
  let w := reportSpill e w cid (hi.map (·.1)) (((hi.head?).map (·.2)).getD 0x17)
  afterSpill w cid

/-- Whether a line may be taken for another course: not spill-pending, of a course that is not resident and whose launch is not
PINNED (R63, R135). -/
def takeable (c : Course) (l : CLine) : Bool := c.k.at_ != .resident && !c.id.pinned && !l.pend

/-- A victim of a quadrant: a line that may be taken, clean ones first (R63). -/
def victim (w : W) (q : Nat) : Option (Nat × Nat) :=
  let all := w.courses.flatMap fun (cid, c) =>
    (c.v.lines.filter fun x => x.2.quad == q && takeable c x.2).map fun x => (x.2.dirty, cid, x.1)
  match all.find? fun x => !x.1 with
  | some x => some x.2
  | none => (all.head?).map (·.2)

/-- The lines of a quadrant that may not be taken. -/
def fixedCount (w : W) (q : Nat) : Nat :=
  w.courses.foldl (fun n (_, c) => n + (c.v.lines.filter fun x => x.2.quad == q && !takeable c x.2).length) 0

/-- Room for n lines in a quadrant: victims are dropped or spilt until that many of its 2,048 lines are free, or none is left to
take (R62, R63). -/
def makeRoom (e : Env) (q n : Nat) : Nat → W → W
  | 0, w => w
  | f + 1, w =>
    if lineCount w q + n ≤ 2048 then w
    else match victim w q with
      | none => w
      | some (cid, r) => makeRoom e q n f (spillLines e w cid [r])

/-- Whether a quadrant has room for n lines more. -/
def hasRoom (w : W) (q n : Nat) : Bool := decide (lineCount w q + n ≤ 2048)

/-- Whether a write of a V register allocates its line: never written and not cached (R60). -/
def isNewLine (c : Course) (r : Nat) : Bool := isZero c r && (cached? (quadOf c) c r).isNone

/-- Of V registers, the lines that a write allocates (R60). -/
def newLines (c : Course) (rs : List Nat) : Nat := ((rs.filter (isNewLine c)).dedup).length

/-- Room made in a course's quadrant for the lines that writes of V registers allocate (R60, R62, R63). -/
def roomFor (e : Env) (w : W) (c : Course) (rs : List Nat) : W :=
  if newLines c rs = 0 ∨ lineCount (setCourse w c) (quadOf c) + newLines c rs ≤ 2048 then w
  else makeRoom e (quadOf c) (newLines c rs) 2049 (setCourse w c)

/-- The first line that writes of V registers allocate where the quadrant has no room for all that they allocate (R8, R62). -/
def crampedLine (w : W) (c : Course) (rs : List Nat) : Option Nat :=
  if newLines c rs = 0 ∨ lineCount (setCourse w c) (quadOf c) + newLines c rs ≤ 2048 then none else rs.find? (isNewLine c)

/-- The lines of a course that a slice end found in the quadrant that it had left, brought to where it stands as a remote read
brings them, as far as there is room; the rest are spilt. So the holder fields name the one quadrant that holds lines (R62, R73,
log entry 61). -/
def gather (e : Env) (w : W) (c : Course) : W × Course :=
  let far := c.v.lines.filter fun x => x.2.quad != quadOf c
  if far = [] then (w, c)
  else
    let w := makeRoom e (quadOf c) far.length 2049 (setCourse w { c with k := { c.k with at_ := .resident } })
    let room := 2048 - lineCount w (quadOf c)
    let come := far.take room
    let away := fun (l : CLine) => coreAway w (pcnOf w c.v.hcore) (pcnOf w (l.quad / 4))
    let w := updCourse w c.id.cid fun d => { d with v := { d.v with
      lines := come.foldl (fun ls (r, l) => tPut ls r { l with quad := quadOf c, poison := l.poison || away l }) d.v.lines } }
    let w := spillLines e w c.id.cid ((far.drop room).map (·.1))
    (w, { c with v := { c.v with lines := ((course? w c.id.cid).getD c).v.lines } })

/-- The window closed: buffered results land in issue order, in lines for which room is made (R40, R62, R67). -/
def closeWindow (e : Env) (w : W) (c : Course) : W × Course :=
  let (w, c) := drain w c
  let w := roomFor e w c (bufV c)
  let c := c.w.buf.foldl commitOne c
  (w, { c with w := { c.w with used := 0, buf := [], isOpen := false, closing := false } })

/-! Parking (R60, R68, R142, R323). -/

/-- The V lines of a course that are cached, as the residency mask (R58). -/
def residMask (c : Course) : BitVec 64 := c.v.lines.foldl (fun m (r, _) => bvSet m r 1 1) 0

/-- The poisoned sectors of the control area, by number from the one that holds an offset (R40, R170). -/
def ctlBad (c : Course) (off : Nat) : List Nat := (c.v.pois.filter (256 + off / 32 ≤ ·)).map (· - (256 + off / 32))

/-- The poisoned sectors of a course's control area as its frame holds it (R40, R170). -/
def ctlPois (e : Env) (w : W) (c : Course) : List Nat :=
  if w.poison = [] then [] else (ctxPois e w c.id.part (slotWorld c 0) (c.id.frame + 0x2000) 4096).map (256 + ·)

/-- The control area written to the frame, reserved bytes zero (R60). -/
def writeControl (e : Env) (w : W) (c : Course) : Except (Nat × Nat) W :=
  ctxWrite e w (pcnOf w c.v.hcore) c.id.part (slotWorld c 0) (c.id.frame + 0x2000)
    (ctlBytes c ++ List.replicate (0x1000 - (ctlBytes c).length) 0) (ctlBad c 0)

/-- A course taken out of its slot with its state in the frame: results awaited, masks and OPEN set, the slot kept when
the window is open or the control area cannot be written (R60, R68, R323). A LAUNCHQ on a full queue keeps its window open whether or
not another result is outstanding, which R68 leaves open (the model's choice, log entry 61). With OPEN clear no window goes on, so
the entries that it had taken no longer count (log entry 61). The entry of a failed write serves the fault-notify dispenser, which
may wake this very course. -/
def leaveSlot (e : Env) (w : W) (c : Course) : W × Course :=
  let (w, c) := drain w c
  let (w, c) := gather e w c
  let isOpen := c.w.buf != [] || (match c.k.await with | .queue .. => true | _ => false)
  let c := { c with
    v := { c.v with resid := residMask c, held := true, flushed := false, pref := 0 }
    w := { c.w with
      isOpen := isOpen
      used := if isOpen then c.w.used else 0
      dv := destMask c true
      ds := destMask c false }
    k := { c.k with bound := isOpen, stall := none, turn := none, tmo := none, fetchLost := false } }
  match writeControl e w c with
  | .ok w => (w, c)
  | .error (_, cause) =>
    let c := { c with k := { c.k with bound := true, join := c.k.join + 1 } }
    let w := report e (setCourse w c)
      ⟨ctxEntry w c (c.id.frame + 0x2000) 1 128 (if cause < 0x20 then 0x17 else cause), [.control c.id.cid], false⟩ none
    (w, (course? w c.id.cid).getD c)

/-- TAKING A PARK: the whole course leaves its slot with a cause, what it awaits, a deadline and a join counter
(R58, R142). A counter of 0 makes its record ready at once. -/
def parkCourse (e : Env) (w : W) (c : Course) (cause : Nat) (aw : Await) (join : Nat) (deadline : Option Nat) : W :=
  let c := { c with k := { c.k with
    at_ := .parked, cause := cause, await := aw, join := join, deadline := deadline, prio := prioOf c } }
  let (w, c) := leaveSlot e w c
  if c.k.join = 0 then enterReady w c else setCourse w c

/-- TAKING A FAULT: the course parks with the lowest cause, and one entry per element is written or merged; an access that the
connection matrix refuses writes its host event once, however many entries it has (R142, R156, R164, R165, R286, R319). -/
def takeFaults (e : Env) (w : W) (c : Course) (xs : List Entry) (matrix : Option (Nat × Nat)) : W :=
  let cause := ((xs.map (·.cause)).min?).getD 0
  let w := parkCourse e w c cause .faults xs.length none
  match matrix, xs with
  | some m, x :: r =>
    r.foldl (fun w y => deliver e w y.part ⟨y, [.whole c.id.cid], false⟩) (report e w ⟨x, [.whole c.id.cid], false⟩ (some m))
  | _, _ => xs.foldl (fun w x => report e w ⟨x, [.whole c.id.cid], false⟩ none) w

/-- A fault of group 1 or 2: one entry for each owner slot that has raising lanes (R165, R319). -/
def faultLanes (e : Env) (w : W) (c : Course) (cause : Nat) (lanes : Mask) (va : Nat → Nat) (atype size : Nat) : W :=
  takeFaults e w c ((bySlot c lanes).map fun (s, m) =>
    entryOf c cause s m (va (mLow m)) (slotAsid c s) (pcLow c (mLow m % 32)) atype size false) none

/-- As `faultLanes`, for a fault that is no access. -/
def faultFree (e : Env) (w : W) (c : Course) (cause : Nat) (lanes : Mask) (va : Nat → Nat) : W :=
  takeFaults e w c ((bySlot c lanes).map fun (s, m) =>
    entryFree c cause s m (va (mLow m)) (slotAsid c s) (pcLow c (mLow m % 32))) none

/-- A fault whose VA is the PC: ILLOP, PRIVOP, MIXUNI, TRAPI, BKPT (R164). The PC is that of the lowest lane of `lanes`. -/
def faultPc (e : Env) (w : W) (c : Course) (cause : Nat) (lanes : Mask) : W :=
  let pc := c.id.cbase.toNat + pcLow c (mLow lanes % 32)
  faultFree e w c cause lanes (fun _ => pc)

/-- A CTXPF of a course that parks it (R66, R140). -/
def faultCtx (e : Env) (w : W) (c : Course) (va atype size cause : Nat) : W :=
  let w := parkCourse e w c cause .faults 1 none
  report e w ⟨ctxEntry w c va atype size cause, [.whole c.id.cid], false⟩ none

/-- A lane that splits off: its number, cause and faulting address (R102). -/
structure Split where
  lane : Nat
  cause : Nat
  va : Nat
  matrix : Option (Nat × Nat)
  deriving DecidableEq, Repr

/-- Whether two splitting lanes share an entry: cause, ASID and page (R102). -/
def sameSplit (c : Course) (x y : Split) : Bool :=
  x.cause == y.cause && slotAsid c (own c x.lane) == slotAsid c (own c y.lane) && x.va / 4096 == y.va / 4096 &&
  (own c x.lane == own c y.lane || !c.id.mixed)

/-- The groups of splitting lanes, each led by its lowest lane. -/
def splitGroups (c : Course) : Nat → List Split → List (List Split)
  | 0, _ => []
  | _ + 1, [] => []
  | f + 1, x :: r => (x :: r.filter (sameSplit c x)) :: splitGroups c f (r.filter fun y => !sameSplit c x y)

/-- A lane split: the lanes become parked and one entry per group is written (R51, R102). -/
def splitLanes (e : Env) (w : W) (c : Course) (xs : List Split) (atype size : Nat) : W :=
  if xs = [] then setCourse w c
  else
    let c := xs.foldl (fun c x => setLaneSt c x.lane 2) c
    let w := bumpCore (setCourse w c) (pcnOf w c.v.hcore) 4 1
    (splitGroups c 33 xs).foldl (fun w g =>
      match g with
      | [] => w
      | x :: _ =>
        let m := mkMask fun k => g.any fun y => y.lane == k
        let s := own c x.lane
        report e w ⟨entryOf c x.cause s m x.va (slotAsid c s) (pcLow c x.lane) atype size false,
          [.split c.id.cid m], false⟩ x.matrix) w

/-! Scratch places and the units of a consort (R70, R71, R76, R77, R330). -/

/-- The bank of a physical scratch offset: a core's 128 banks, or a fenced core's N of one world (R77, R83). -/
def bankOf (n p : Nat) : Nat := (p / 16 + p / (16 * n)) % n

/-- The entry of a physical scratch offset (R77, R83). -/
def entryRowOf (n p : Nat) : Nat := p / (16 * n)

/-- The block of a core's scratch that holds a physical offset of a world's set. -/
def blockAt (w : W) (pcn wd p : Nat) : Nat := (setBase w pcn wd + p) / 16384

/-- Whether a unit stands in place for a consort (R70). -/
def inPlace (w : W) (kc : Nat) : Unit70 → Bool
  | .scratch pcn b => tGet? (core w pcn).blocks b == some kc
  | .rows pcn q g => tGet? (core w pcn).groups (8 * q + g) == some kc

/-- The consort that holds a unit. -/
def unitHolder (w : W) : Unit70 → Option Nat
  | .scratch pcn b => tGet? (core w pcn).blocks b
  | .rows pcn q g => tGet? (core w pcn).groups (8 * q + g)

/-- The memory of a unit: key and bytes. -/
def unitMem : Unit70 → Nat × Nat
  | .scratch pcn b => (keyScr pcn 0 (b * 16384), 16384)
  | .rows pcn q g => (keyAcc pcn q g 0 0 0, 65536)

/-- The place of a unit in its consort's save area: the context-space offset of each run of bytes and the key it stands
at (R71). Rows of a group stand column block by column block in memory and whole in the save area. -/
def unitRuns (w : W) (k : Consort) : Unit70 → List (Nat × Nat × Nat)
  | .scratch pcn b =>
    let i := k.cores.findIdx fun l => pcnOf w l == pcn
    let p := b * 16384 - setBase w pcn k.world - nth k.pw i 0
    [(i * k.win + p, keyScr pcn 0 (b * 16384), 16384)]
  | .rows pcn q g =>
    let i := k.cores.findIdx fun l => pcnOf w l == pcn
    let n := (nth k.rows (4 * i + q) []).findIdx (· == g)
    (List.range 64).flatMap fun r => (List.range 4).map fun cb =>
      (k.cores.length * k.win + ((4 * i + q) * k.accN + 64 * n + r) * 1024 + 256 * cb, keyAcc pcn q g cb r 0, 256)

/-- The core that holds a unit. -/
def unitPcn : Unit70 → Nat
  | .scratch pcn _ | .rows pcn _ _ => pcn

/-- Whether a unit holds data: a byte that is not zero, or poison (R70). -/
def unitData (e : Env) (w : W) (u : Unit70) : Bool :=
  let (a, n) := unitMem u
  (List.range n).any fun i => rdB e w (a + i) != 0 || isPois w (a + i)

/-- A unit written to its holder's save area (R70). -/
def saveUnit (e : Env) (w : W) (k : Consort) (u : Unit70) : Except (Nat × Nat) W :=
  (unitRuns w k u).foldl (fun r (off, key, n) =>
    match r with
    | .error x => .error x
    | .ok w => ctxWrite e w (unitPcn u) k.part k.world (k.csave + off) (rdBs e w key n)
        ((List.range (n / 32)).filter fun i => isPois w (key + 32 * i))) (.ok w)

/-- A unit filled from its consort's save area (R71). -/
def loadUnit (e : Env) (w : W) (k : Consort) (u : Unit70) : Except (Nat × Nat) W :=
  (unitRuns w k u).foldl (fun r (off, key, n) =>
    match r with
    | .error x => .error x
    | .ok w => match ctxRead e w (unitPcn u) k.part k.world (k.csave + off) n with
      | .error x => .error x
      | .ok bs =>
        let bad := ctxPois e w k.part k.world (k.csave + off) n
        .ok (bad.foldl (fun w i => poisonAt w (key + 32 * i)) (wrBs w key bs))) (.ok w)

/-- A unit given to a consort. -/
def giveUnit (w : W) (kc : Nat) : Unit70 → W
  | .scratch pcn b => updCore w pcn fun c => { c with blocks := tPut c.blocks b kc }
  | .rows pcn q g => updCore w pcn fun c => { c with groups := tPut c.groups (8 * q + g) kc }

/-- A consort's unit claimed: the holder's data saved, the unit cleared and filled from the claimer's save area if it was
claimed earlier (R70, R71, R330); the failing context-space address and access type else. -/
def claimUnit (e : Env) (w : W) (kc : Nat) (u : Unit70) : Except (Nat × Nat × Nat) W :=
  match consort? w kc with
  | none => .ok w
  | some k =>
    let saved : Except (Nat × Nat × Nat) W := match unitHolder w u with
      | none => .ok w
      | some hc => match consort? w hc with
        | none => .ok w
        | some h =>
          if !unitData e w u then .ok w
          else match saveUnit e w h u with
            | .error (a, c) => .error (a, c, 1)
            | .ok w => .ok (updConsort w hc fun h => { h with away := u :: h.away.filter (· != u) })
    match saved with
    | .error x => .error x
    | .ok w =>
      let (a, n) := unitMem u
      let w := cleanRange (wrClear w a n) a n
      let w := giveUnit w kc u
      if k.away.contains u then
        match loadUnit e w k u with
        | .error (a, c) => .error (a, c, 0)
        | .ok w => .ok (updConsort w kc fun k => { k with away := k.away.filter (· != u) })
      else .ok w

/-- Where an SCR offset of a lane leads: consort core and physical offset; none is SEGLIM (R76). -/
def scrPlace (c : Course) (k : Consort) (slot : Nat) (o n : Nat) : Option (Nat × Nat) :=
  let cc := bitsAt o 21 2
  let t := bitsAt o 0 21
  if o / 2 ^ 23 ≠ 0 ∨ k.cores.length ≤ cc ∨ slotScrLim c slot < t + n ∨ k.win < slotScrBase c slot + t + n then none
  else some (cc, nth k.pw cc 0 + slotScrBase c slot + t)

/-- The PCN of a consort core. -/
def consortPcn (w : W) (k : Consort) (cc : Nat) : Nat := pcnOf w (nth k.cores cc 0)

/-! Barrier records (R175). -/

/-- The 128 bytes of a consort's barrier record. -/
def barBytes (k : Consort) : List Byte :=
  (List.range 16).flatMap fun n =>
    let b := tGetD k.bars n Bar.init
    leBytes 2 b.bound ++ leBytes 2 b.arrived ++ leBytes 2 b.phase ++ leBytes 2 0

/-- The barrier record's context-space address. -/
def barAddr (k : Consort) : Nat := k.csave + barOffset k.cores.length k.win k.accN

/-- The entry of a barrier record that could not be written: of the consort's course with WID field 1 equal to 0, which may have
ended; its PC is then a free value (R175, log entry 6). -/
def barEntry (w : W) (k : Consort) (cause : Nat) : Entry :=
  match course? w k.cid0 with
  | some c => ctxEntry w c (barAddr k) 1 128 cause
  | none => ⟨cause, 0, 0, 0, barAddr k, (part w k.part).cAsid, k.world, k.part, k.cid0,
      (Config.noVa cause (barAddr k)).toNat % 2 ^ 32, 1, 128⟩

/-- The barrier record written, or its failure reported (R175). -/
def writeBar (e : Env) (w : W) (kc : Nat) : W × Bool :=
  match consort? w kc with
  | none => (w, true)
  | some k => match ctxWrite e w (consortPcn w k 0) k.part k.world (barAddr k) (barBytes k) [] with
    | .ok w => (updConsort w kc fun k => { k with barPend := false }, true)
    | .error (_, cause) =>
      let w := updConsort w kc fun k => { k with barPend := true }
      (report e w ⟨barEntry w k (if cause < 0x20 then 0x17 else cause), [.barrier kc], false⟩ none, false)

/-! The device-side launch queue (R140). -/

/-- The context-space address of a queue entry (R140, R193). -/
def queueAddr (w : W) (p pos : Nat) : Nat := (part w p).ctxBase + 128 * pos

/-- Whether the queue is full (R140). -/
def queueFull (w : W) (p : Nat) : Bool := decide (4096 ≤ (part w p).lq.length)

/-- A header's copy enqueued for a course, under the ASID and world of its slot 0: the position, or the failing address and cause
(R140, R288, R314). -/
def enqueue (e : Env) (w : W) (c : Course) (header : List Byte) : Except (Nat × Nat) (W × Nat) :=
  let p := c.id.part
  let pos := (part w p).lqTail
  match ctxWrite e w (pcnOf w c.v.hcore) p (slotWorld c 0) (queueAddr w p pos) header [] with
  | .error x => .error x
  | .ok w =>
    .ok (updPart w p fun x => { x with
      lq := x.lq ++ [⟨pos, x.lqNext, slotAsid c 0, slotWorld c 0, c.id.priv, c.id.codeAsid, c.id.ctx, c.id.launch⟩]
      lqTail := (pos + 1) % 4096
      lqNext := x.lqNext + 1 }, pos)

/-- A course whose LAUNCHQ waited for room: its copy is enqueued, its lanes leave the LAUNCHQ, its result enters the buffer
and its record wakes; a failed write turns the wait into a park for that fault, whose replay executes the LAUNCHQ again; its park
cause is the cause of the entry (R68, R140, R288; the model's choice where the write met POISON, MUTED or TIMEOUT, log entry 22). -/
def enqueueWaiting (e : Env) (w : W) (c : Course) : W :=
  match c.k.await with
  | .queue header dest mask mark =>
    match enqueue e w c header with
    | .error (a, cause) =>
      let cause := if cause < 0x20 then 0x17 else cause
      let w := setCourse w (markNewer { c with k := { c.k with await := .faults, cause := cause } } 0x132 1)
      report e w ⟨ctxEntry w c a 1 128 cause, [.whole c.id.cid], false⟩ none
    | .ok (w, pos) =>
      let f : Flight := ⟨w.nextFlight, c.id.cid, quadOf c, c.k.slot, c.k.gen, .s dest, 1, [BitVec.ofNat 32 pos], []⟩
      let c := markNewer (advance c mask 4) 0x180 128
      let c := { buffer c f with w := { (buffer c f).w with closing := mark } }
      wake { w with nextFlight := w.nextFlight + 1 } c
  | _ => w

/-- The courses parked on a partition's full launch queue. -/
def queueWaiters (w : W) (p : Nat) : List Course :=
  (w.courses.filter fun (_, c) => c.id.part == p && c.k.at_ == .parked &&
    (match c.k.await with | .queue .. => true | _ => false)).map (·.2)

/-- Entries that have freed given to the courses that wait for one (R140, R142). -/
def enqueueWaiters (e : Env) (w : W) (p : Nat) : W :=
  (queueWaiters w p).foldl (fun w c => if queueFull w p then w else enqueueWaiting e w c) w

/-! Resolutions: the return from a fault (R150, R301, R322, R323). -/

/-- The registers of a parked course that its frame does not show yet written there; a page that fails keeps what it holds. -/
def flushNewer (e : Env) (w : W) (cid : Nat) : W :=
  match course? w cid with
  | none => w
  | some c => c.k.newer.foldl (fun w (off, n) =>
      match ctxWrite e w (pcnOf w c.v.hcore) c.id.part (slotWorld c 0) (c.id.frame + 0x2000 + off) (((ctlBytes c).drop off).take n) (ctlBad c off) with
      | .ok w => updCourse w cid fun c => { c with k := { c.k with newer := c.k.newer.filter (· != (off, n)) } }
      | .error _ => w) w

/-- Parked lanes made live at their faulting instruction (R51, R150). -/
def reviveLanes (e : Env) (w : W) (cid : Nat) (lanes : Mask) : W :=
  match course? w cid with
  | none => w
  | some c =>
    let c := (mLanes lanes).foldl (fun c k => if laneSt c k = 2 then setLaneSt c k 1 else c) c
    if c.k.at_ = .resident then setCourse w c
    else flushNewer e (setCourse w (markNewer c 0x128 8)) cid

/-- One waiter of a replayed entry (R150). -/
def replayOne (e : Env) (w : W) : Waiter → W
  | .split cid lanes => reviveLanes e w cid lanes
  | .whole cid => decJoin w cid
  | .spill cid lines => spillLines e w cid lines
  | .control cid => match course? w cid with
    | none => w
    | some c => match writeControl e w c with
      | .ok w => decJoin w cid
      | .error (_, cause) => report e w
          ⟨ctxEntry w c (c.id.frame + 0x2000) 1 128 (if cause < 0x20 then 0x17 else cause), [.control cid], false⟩ none
  | .engine op cid counted =>
    let w := { w with ops := tUpd w.ops op fun o => { o with faulted := o.faulted.drop 1 } }
    if counted then decJoin w cid else w
  | .barrier kc => (writeBar e w kc).1
  | .launch => w
  | .claim cid _ => updCourse w cid fun c => c
  | .report _ => w

/-- The consort that a waiter's terminate resolution ends (R150, R322). -/
def waiterConsort (w : W) : Waiter → Option Nat
  | .split cid _ | .whole cid | .spill cid _ | .control cid | .claim cid _ => (course? w cid).map (·.id.consort)
  | .engine op _ _ => (tGet? w.ops op).map (·.consort)
  | .barrier kc | .report kc => some kc
  | .launch => none

/-- The launch at the head of a held launch queue discarded, which frees its entry (R140, R142). -/
def discardQueued (e : Env) (w : W) (p : Nat) : W :=
  match (part w p).lq with
  | [] => w
  | q :: r =>
    let w := updPart w p fun x => { x with lq := r, lqHold := false }
    enqueueWaiters e (evFnEvent w p q.world 0x02 0x17 ((part w p).ctxBase + 128 * q.pos)) p

/-- An entry's replay resolution (R150). -/
def replayEntry (e : Env) (w : W) (x : Pending) : W :=
  let w := if x.who.contains .launch then updPart w x.e.part fun p => { p with lqHold := false } else w
  x.who.foldl (replayOne e) w

/-- An entry's terminate resolution: every consort that contributed ends as lost with the status (R150). -/
def terminateEntry (e : Env) (w : W) (x : Pending) (status : Nat) : W :=
  let w := if x.who.contains .launch then discardQueued e w x.e.part else w
  loseConsorts e w (x.who.filterMap (waiterConsort w)) status

/-- The resolution that stands in an entry of the ring: the status of a terminate, none for a replay, which a read that fails counts as
(R149, R150). -/
def resolution (e : Env) (w : W) (p addr : Nat) : Option Nat :=
  match devRead e w 72 p 0 (part w p).rAsid addr 2 true with
  | .ok [c, m] => if c = 0xE0 then some m.toNat else none
  | _ => none

/-- An entry that FQHEAD passed, with its resolution (R150); one that hub firmware has served has no effect (R325). -/
def passEntry (e : Env) (w : W) (x : Pending) (r : Option Nat) : W :=
  if x.served then w
  else match r with
    | some status => terminateEntry e w x status
    | none => replayEntry e w x

/-- Whether a value may be written to FQHEAD (R150). -/
def headValid (f : Fq) (h : Nat) : Bool :=
  let n := f.size.toNat
  decide (h < n) && decide ((h + n - f.head.toNat) % n ≤ (f.tail.toNat + n - f.head.toNat) % n)

/-- The host pages for which ATS granted nothing forgotten, so that a replayed access asks again (R106). -/
def forgetRefusals (w : W) (p : Nat) : W :=
  { w with ats := w.ats.filter fun t => t.part != p || t.rd || t.wr }

/-- RETURN FROM FAULTS: FQHEAD moved over pending entries, each acted on as it then stands, then held faults delivered. Every passed
entry is read before the first is acted on, since what that writes may take an entry's place in the ring (R149, R150, R324). -/
def moveHead (e : Env) (w : W) (p h : Nat) : W :=
  let f := (part w p).fq
  let n := (h + f.size.toNat - f.head.toNat) % f.size.toNat
  let passed := (f.pending.take n).zipIdx.map fun (x, i) => (x, resolution e w p (fqAddr f (fqIndex f i)))
  let w := updFq (forgetRefusals w p) p fun f => { f with head := BitVec.ofNat 64 h, pending := f.pending.drop n }
  let w := passed.foldl (fun w (x, r) => passEntry e w x r) w
  retryHeld e w p

end Sys2Proof.Machine
end

