-- ==== Sys2Proof/Machine/Panel.lean ====
section
/-! DEFINITION. Panels, accumulator regions and scale columns: where their elements stand and how they are read, decoded,
encoded and written (R29 to R36, R44, R46, R78, R85 to R89, R305, R308). -/

namespace Sys2Proof.Machine

/-! Panel descriptors (R44, R78). -/

/-- A descriptor's fields. -/
structure Panel where
  col : Bool
  fmt : Nat
  vcols : Nat
  vrows : Nat
  cols : Nat
  rows : Nat
  pitch : Nat
  own : Nat
  csel : Nat
  base : Nat
  deriving DecidableEq, Repr

/-- The fields of a descriptor's 32 bytes (R44). -/
def parsePanel (d : BitVec 256) : Panel :=
  ⟨bvF d 132 1 == 1, bvF d 128 4, bvF d 112 16, bvF d 96 16, bvF d 80 16, bvF d 64 16, bvF d 32 20, bvF d 26 3,
    bvF d 24 2, bvF d 0 24⟩

/-- The field errors of R45. -/
def panelBad (d : BitVec 256) : Bool :=
  let p := parsePanel d
  p.rows == 0 || p.cols == 0 || decide (p.rows < p.vrows) || decide (p.cols < p.vcols) || decide (7 < p.fmt) ||
  p.pitch % 16 != 0 || p.base % 16 != 0 || bvF d 133 123 != 0 || bvF d 52 12 != 0 || bvF d 29 3 != 0

/-- B(j): the byte offset of element j in its line (R78). -/
def lineOff (fmt j : Nat) : Nat :=
  match fmt with
  | 0 | 7 => 4 * j
  | 1 | 2 => 2 * j
  | 6 => 3 * (j / 4)
  | _ => j

/-- X(j): the extent of a line of j elements (R78). -/
def lineExt (fmt j : Nat) : Nat := if fmt = 6 then 3 * ((j + 3) / 4) else lineOff fmt j

/-- δ of an element (R78). -/
def Panel.delta (p : Panel) (r c : Nat) : Nat :=
  if p.col then c * p.pitch + lineOff p.fmt r else r * p.pitch + lineOff p.fmt c

/-- The lines of a panel and the elements of one. -/
def Panel.lines (p : Panel) : Nat := if p.col then p.cols else p.rows
def Panel.per (p : Panel) : Nat := if p.col then p.rows else p.cols

/-- The bytes from BASE to the end of the last line (R78). -/
def Panel.extent (p : Panel) : Nat := (p.lines - 1) * p.pitch + lineExt p.fmt p.per

/-- The segment check of a panel: it also keeps the panel inside the window, as R76 does for every access (R76, R78). -/
def panelSeg (c : Course) (k : Consort) (d : BitVec 256) : Bool :=
  let p := parsePanel d
  let x := p.base + p.extent
  decide (p.csel < k.cores.length) && decide (x ≤ slotScrLim c p.own) && decide (slotScrBase c p.own + x ≤ k.win)

/-- The bytes that hold an element; an L6 element stands in its group of three (R30). -/
def elemBytes (fmt : Nat) : Nat :=
  match fmt with
  | 0 | 7 => 4
  | 1 | 2 => 2
  | 6 => 3
  | _ => 1

/-- The memory key of a panel byte on a consort core: `b` is the SCRBASE of the owner slot (R76, R78). -/
def panelKey (w : W) (k : Consort) (cc b o : Nat) : Nat := scrKey w (consortPcn w k cc) k.world (nth k.pw cc 0 + b + o)

/-- The key of an element's bytes. -/
def elemKey (w : W) (k : Consort) (p : Panel) (b r c : Nat) : Nat := panelKey w k p.csel b (p.base + p.delta r c)

/-- The place of an L6 element in its group. -/
def l6Pos (p : Panel) (r c : Nat) : Nat := if p.col then r % 4 else c % 4

/-- An element's bits; 0 outside the valid counts (R44). -/
def rdElem (e : Env) (w : W) (k : Consort) (p : Panel) (b r c : Nat) : Nat :=
  if p.vrows ≤ r ∨ p.vcols ≤ c then 0
  else
    let v := rdN e w (elemKey w k p b r c) (elemBytes p.fmt)
    if p.fmt = 6 then bitsAt v (6 * l6Pos p r c) 6 else v

/-- Whether a valid element's sector is poisoned (R171). -/
def poisElem (w : W) (k : Consort) (p : Panel) (b r c : Nat) : Bool :=
  !(decide (p.vrows ≤ r) || decide (p.vcols ≤ c)) &&
    (List.range (elemBytes p.fmt)).any fun i => isPois w (elemKey w k p b r c + i)

/-- An element's bits written; an L6 element changes only its 6 bits (R304). -/
def wrElem (e : Env) (w : W) (k : Consort) (p : Panel) (b r c v : Nat) : W :=
  let a := elemKey w k p b r c
  if p.fmt = 6 then wrN w a 3 (setBits (rdN e w a 3) (6 * l6Pos p r c) 6 v) else wrN w a (elemBytes p.fmt) v

/-- An element that a step writes: its row, column, bits, and whether its source is poisoned. -/
structure Put where
  r : Nat
  c : Nat
  v : Nat
  bad : Bool
  deriving DecidableEq, Repr

/-- The keys of the bytes that a step's elements write whole; a group of L6 counts when its four elements are written. -/
def putKeys (w : W) (k : Consort) (p : Panel) (b : Nat) (l : List Put) : List Nat :=
  let l := if p.fmt = 6 then
      l.filter fun x => (List.range 4).all fun i =>
        l.any fun y => elemKey w k p b y.r y.c == elemKey w k p b x.r x.c && l6Pos p y.r y.c == i
    else l
  (l.flatMap fun x => (List.range (elemBytes p.fmt)).map (elemKey w k p b x.r x.c + ·)).dedup

/-- The sectors of keys. -/
def sectorsOf (keys : List Nat) : List Nat := (keys.map unitOf).dedup

/-- Poison after a write: sectors fed from poison gain it; sectors written whole without any lose it (R171, R172). -/
def settlePoison (w : W) (bad whole : List Nat) : W :=
  let bs := sectorsOf bad
  let w := bs.foldl poisonAt w
  if w.poison = [] then w
  else (sectorsOf whole).foldl (fun w u =>
    if w.poison.contains u ∧ !bs.contains u ∧ (List.range 32).all fun i => whole.contains (u + i) then cleanAt w u else w) w

/-- A step's elements written to a panel, with their poison. -/
def putElems (e : Env) (w : W) (k : Consort) (p : Panel) (b : Nat) (l : List Put) : W :=
  let bad := (l.filter (·.bad)).flatMap fun x => (List.range (elemBytes p.fmt)).map (elemKey w k p b x.r x.c + ·)
  let whole := if w.poison = [] then [] else putKeys w k p b l
  settlePoison (l.foldl (fun w x => wrElem e w k p b x.r x.c x.v) w) bad whole

/-! Values of elements (R29 to R32, R304, R305, R308). -/

/-- Whether a format code is an integer format. -/
def fmtInt (fmt : Nat) : Bool := fmt == 5 || fmt == 7

/-- The value of a floating-point or L6 element. -/
def fmtDecode (fmt x : Nat) : Fv :=
  match fmt with
  | 0 => fp32.decode x
  | 1 => bf16.decode x
  | 2 => fp16.decode x
  | 3 => e4m3.decode x
  | 4 => e5m2.decode x
  | _ => l6Decode x

/-- The value of an integer element. -/
def fmtToInt (fmt x : Nat) : Int :=
  if fmt = 5 then (BitVec.ofNat 8 x).toInt else (BitVec.ofNat 32 x).toInt

/-- An element as an FP32 or INT32 word, exactly (R304). -/
def elemWord (fmt x : Nat) : Nat :=
  if fmt = 0 ∨ fmt = 7 then x
  else if fmt = 5 then (BitVec.ofInt 32 (fmtToInt 5 x)).toNat
  else (fp32.ofFv .rne (fmtDecode fmt x)).1

/-- An integer clamped to a format's range. -/
def clampInt (fmt : Nat) (n : Int) : Nat :=
  if fmt = 5 then (BitVec.ofInt 8 (max (-128) (min 127 n))).toNat
  else (BitVec.ofInt 32 (max (-(2 ^ 31)) (min (2 ^ 31 - 1) n))).toNat

/-- A value rounded to a floating-point format, or to L6 with scale 1 (R305). -/
def fmtRound (fmt : Nat) (rm : Rm) (v : Fv) : Nat :=
  match fmt with
  | 0 => (fp32.ofFv rm v).1
  | 1 => (bf16.ofFv rm v).1
  | 2 => (fp16.ofFv rm v).1
  | 3 => (e4m3.ofFv rm v).1
  | 4 => (e5m2.ofFv rm v).1
  | _ => (cvtL6 (fp32.ofFv .rne v).1 127).1

/-- An accumulator word as ASTP encodes it (R305). -/
def astpEncode (fmt : Nat) (rm : Rm) (x : Nat) : Nat :=
  if fmt = 0 ∨ fmt = 7 then x
  else if fmt = 5 then clampInt 5 (fmtToInt 7 x)
  else fmtRound fmt rm (fp32.decode x)

/-- PSWZ's conversion of an element (R308). -/
def pswzConv (src dst : Nat) (rm : Rm) (x : Nat) : Nat :=
  if fmtInt src then
    if fmtInt dst then clampInt dst (fmtToInt src x) else fmtRound dst rm (ofInt (fmtToInt src x))
  else if fmtInt dst then
    let (lo, hi) : Int × Int := if dst = 5 then (-128, 127) else (-(2 ^ 31), 2 ^ 31 - 1)
    clampInt dst (cvtInt rm lo hi (elemWord src x)).1
  else astpEncode dst rm (elemWord src x)

/-! Matrix steps (R31, R34, R35). -/

/-- The product of two L6 elements (R31). -/
def l6Prod (a b : Nat) : Fv :=
  let ca := a % 32
  let cb := b % 32
  if a % 64 = 0x20 ∨ b % 64 = 0x20 then .nan false
  else if ca = 0 ∨ cb = 0 then .fin false 0 0
  else
    let q : Int := (ca : Int) + cb - 32
    .fin (bitAt a 5 != bitAt b 5) (l6T (q % 4).toNat) (q / 4 - 23)

/-- The product of a term (R35). -/
def termOf (fa fb a b : Nat) : Fv := if fa = 6 then l6Prod a b else (mulFv (fmtDecode fa a) (fmtDecode fb b)).1

/-- A step's update of an FP32 accumulator word; `sc` holds the scale bytes of the scaled form (R35). -/
def mmaWord (acc : Nat) (terms : List Fv) (sc : Option (Nat × Nat)) : Nat :=
  let v := fp32.decode acc
  let inf := fun s => terms.any fun t => t.isInf && t.neg == s
  let badScale := match sc with | some (a, b) => a == 0xFF || b == 0xFF | none => false
  if v.isNan || terms.any Fv.isNan || badScale || (inf true && inf false) then fp32.qnan
  else if inf true || inf false then (fp32.ofFv .rne (addFv .rne v (.inf (inf true))).1).1
  else
    let s := terms.foldl (fun x t => (addFv .rne x t).1) (.fin false 0 0)
    let s := match s, sc with
      | .fin n m x, some (a, b) => .fin n m (x + (a : Int) - 127 + b - 127)
      | y, _ => y
    let y := (addFv .rne v s).1
    if y.isZero then 0 else (fp32.ofFv .rne y).1

/-- A step's update of an INT32 accumulator word (R35). -/
def mmaInt (acc : Nat) (as bs : List Nat) : Nat :=
  let s := (as.zip bs).foldl (fun (n : Int) (a, b) => n + fmtToInt 5 a * fmtToInt 5 b) 0
  (BitVec.ofInt 32 ((acc : Int) + s)).toNat

/-- The FMT pairs that MMA accepts, and whether its scaled form does (R34). -/
def mmaPair (fa fb : Nat) (ns : Bool) : Bool :=
  let narrow := fun f => f == 3 || f == 4
  (narrow fa && narrow fb) || (fa == 6 && fb == 6) ||
    (ns && ((fa == 1 && fb == 1) || (fa == 2 && fb == 2) || (fa == 5 && fb == 5)))

/-! Accumulator regions (R46, R85, R86). -/

/-- A handle's region. -/
structure Region where
  scope : Nat
  ncols : Nat
  nrows : Nat
  col : Nat
  row : Nat
  deriving DecidableEq, Repr

/-- The region of a handle (R46). -/
def regionOf (h : BitVec 128) : Region := ⟨bvF h 56 2, bvF h 44 12, bvF h 32 12, bvF h 16 16, bvF h 0 16⟩

/-- Whether a handle's operation is in progress. -/
def isBusy (h : BitVec 128) : Bool := bvF h 58 1 == 1

/-- Whether a region obeys R86 in a consort of w cores with N rows per quadrant. -/
def regionOk (w n : Nat) (r : Region) : Bool :=
  r.nrows != 0 && r.ncols != 0 && r.nrows % 64 == 0 && r.ncols % 64 == 0 && r.row % 64 == 0 && r.col % 64 == 0 &&
  n != 0 && decide (r.col + r.ncols ≤ 1024) && decide (r.row + r.nrows ≤ w * n) &&
  match r.scope with
  | 0 => r.row / n == (r.row + r.nrows - 1) / n && r.col / 256 == (r.col + r.ncols - 1) / 256
  | 1 => r.row / n == (r.row + r.nrows - 1) / n
  | 2 => true
  | _ => false

/-- Whether a region lies inside another. -/
def regionIn (x y : Region) : Bool :=
  decide (y.row ≤ x.row) && decide (x.row + x.nrows ≤ y.row + y.nrows) && decide (y.col ≤ x.col) &&
  decide (x.col + x.ncols ≤ y.col + y.ncols)

/-- Where a 64 x 64 block of consort rows m and columns n stands: PCN, quadrant, row group, column block (R85). -/
structure Block where
  pcn : Nat
  quad : Nat
  group : Nat
  cb : Nat
  deriving DecidableEq, Repr

/-- The block of a consort row and column (R85). -/
def blockOf (w : W) (k : Consort) (m n : Nat) : Block :=
  let cc := m / k.accN
  let q := n / 256
  ⟨consortPcn w k cc, q, nth (nth k.rows (4 * cc + q) []) (m % k.accN / 64) 0, n % 256 / 64⟩

/-- The key of a block's first element. -/
def Block.key (b : Block) : Nat := keyAcc b.pcn b.quad b.group b.cb 0 0

/-- The unit of a block's row group (R70). -/
def Block.unit (b : Block) : Unit70 := .rows b.pcn b.quad b.group

/-- A block's word. -/
def accWord (e : Env) (w : W) (b : Block) (r c : Nat) : Nat := rdN e w (b.key + (64 * r + c) * 4) 4

/-- A block's words written, row by row. -/
def putBlock (w : W) (b : Block) (f : Nat → Nat → Nat) : W :=
  wrBs w b.key ((List.range 64).flatMap fun r => (List.range 64).flatMap fun c => leBytes 4 (f r c))

/-- The region's block number b in row-major order: region row and column of its first element (R303, R304). -/
def blockAtNo (r : Region) (b : Nat) : Nat × Nat :=
  let n := r.ncols / 64
  (64 * (b / n), 64 * (b % n))

/-- The blocks of a region. -/
def blockCount (r : Region) : Nat := r.nrows / 64 * (r.ncols / 64)

/-! Scale columns (R88, R89). -/

/-- The key of a scale byte of a consort column on a core's quadrant. -/
def scaleKey (w : W) (k : Consort) (cc q col entry : Nat) : Nat :=
  keyScale (consortPcn w k cc) q (16 * nth (nth k.scales (4 * cc + q) []) (col / 16) 0 + col % 16) entry

end Sys2Proof.Machine
end

