-- ==== Sys2Proof/Machine/EngOps.lean ====
section
/-! DEFINITION. Engine operations in flight: handles, sequencers, completion, errors, faults, stops and resumption (R47,
R161, R169, R177, R298 to R301, R329, R331). -/

namespace Sys2Proof.Machine

/-- An operation. -/
def op? (w : W) (n : Nat) : Option EngOp := tGet? w.ops n

/-- An operation changed. -/
def updOp (w : W) (n : Nat) (f : EngOp → EngOp) : W := { w with ops := tUpd w.ops n f }

/-- Whether an operation runs on a Chisel sequencer (R299). -/
def EKind.chisel : EKind → Bool
  | .mma .. | .azero | .astp _ | .aldp _ | .arow _ | .scld _ | .pswz .. => true
  | .copy | .copym | .copyo | .gather | .coll | .tlsig => false

/-- Whether an operation is a copy or gather (R309). -/
def EKind.isCopy : EKind → Bool
  | .copy | .copym | .copyo | .gather => true
  | _ => false

/-! The A handle of an operation's course (R47). -/

/-- A course's A handle changed; in the frame too when the course is not resident (R58). -/
def updHandle (e : Env) (w : W) (cid ah : Nat) (f : BitVec 128 → BitVec 128) : W :=
  match course? w cid with
  | none => w
  | some c =>
    let c := putA c ah (f (getA c ah))
    if c.k.at_ = .resident then setCourse w c
    else flushNewer e (setCourse w (markNewer c (0x440 + 16 * ah) 16)) cid

/-- Whether a stall before issue is over: the handle free, the descriptor unused, the counter below 256 outstanding
(R45, R47, R161). -/
def stallOver (w : W) (c : Course) : Stall → Bool
  | .handle a => !isBusy (getA c a)
  | .panel d => !(w.ops.any fun (_, o) => o.cid == c.id.cid && o.dnums.contains d)
  | .counter p i => !(tlc w p i).isFull
  | _ => false

/-- The stalls that have ended cleared. -/
def recheckStalls (w : W) : W :=
  { w with courses := tMap w.courses fun _ c =>
      match c.k.stall with
      | some x => if stallOver w c x then { c with k := { c.k with stall := none } } else c
      | none => c }

/-- An operation completed: its handle free, its number done with its status (R47, R161, R299, R312). -/
def completeOp (e : Env) (w : W) (n : Nat) : W :=
  match op? w n with
  | none => w
  | some o =>
    let w := { w with ops := tDel w.ops n }
    let w := if o.kind.chisel then updHandle e w o.cid o.ah fun h => bvSet h 58 1 0 else w
    recheckStalls (completeNum w o.tlPcn o.tlIdx o.num o.code o.skip)

/-- A status code met: the highest stays (R312). -/
def addCode (o : EngOp) (x : Nat) : EngOp := { o with code := max o.code x }

/-- The consort cores that a COPYM goes to. -/
def copyDests (o : EngOp) : List Nat := (List.range 4).filter fun c => bitAt o.comp.toNat (24 + c)

/-- A COPYM with a destination that is muted, when it starts or while it runs: reported and skipped (R123, R312). -/
def skipDest (o : EngOp) (cc : Nat) : EngOp := { addCode o 0x21 with skip := setBits o.skip cc 1 1 }

/-- The destinations of an operation on a core, or on any muted core, skipped (R123). -/
def skipMuted (w : W) (o : EngOp) : EngOp :=
  if o.kind ≠ .copym then o
  else match consort? w o.consort with
    | none => o
    | some k => ((copyDests o).filter fun cc => pcnMuted w (consortPcn w k cc)).foldl skipDest o

/-! Entries of operations (R169, R301). -/

/-- The SLOTF of an operation's entry: slot, MIXED and privileged from its course, bit 6 for an operand fault. -/
def opSlotf (o : EngOp) (operand : Bool) : Nat := o.slot + o.mixed.toNat * 16 + o.priv.toNat * 32 + operand.toNat * 64

/-- An operation's entry. -/
def opEntry (o : EngOp) (cause : Nat) (lanes : Mask) (va atype size : Nat) (operand : Bool) : Entry where
  cause := cause
  merge := 0
  slotf := opSlotf o operand
  lanes := lanes
  va := va % 2 ^ 64
  asid := o.asid
  world := o.world
  part := o.part
  cid := o.cid
  pc := o.pc
  atype := atype
  size := size

/-- ENGERR: the number is done with status 0x23, an entry is written, no course parks (R169, R177). -/
def engErr (e : Env) (w : W) (n : Nat) : W :=
  match op? w n with
  | none => w
  | some o =>
    let x := opEntry o 0x23 0 o.num.toNat (Config.noAtype 0x23 o.pc).toNat (Config.noSize 0x23 o.pc).toNat false
    let w := completeOp e (updOp w n fun o => addCode o 0x23) n
    report e w ⟨x, [.report o.consort], false⟩ none

/-- The operations in flight on an engine of a core: 0 to 3 the sequencers, 4 copy, 5 collective, 6 activation (R294). -/
def opsOf (w : W) (pcn eng : Nat) : List Nat :=
  w.ops.filterMap fun (n, o) =>
    if o.pcn = pcn ∧ ((o.kind.chisel ∧ o.quad = eng) ∨ (o.kind.isCopy ∧ eng = 4) ∨ (o.kind = .coll ∧ eng = 5))
    then some n else none

/-- The issuing course of a faulted operand parks, or takes one more count; whether an entry counts in its record. A record that YIELD
made ready keeps its park cause (R282, R301). -/
def parkForOp (e : Env) (w : W) (cid cause : Nat) : W × Bool :=
  match course? w cid with
  | none => (w, false)
  | some c =>
    match c.k.at_ with
    | .resident => (parkCourse e w c cause .faults 1 none, true)
    | .parked => (setCourse w { c with k := { c.k with join := c.k.join + 1 } }, true)
    | .ready =>
      let cause := if c.k.cause = 0x84 then 0x84 else cause
      let c := markNewer { c with k := { c.k with at_ := .parked, cause := cause, join := 1, await := .faults } } 0x132 1
      (flushNewer e (setCourse w c) cid, true)
    | .halted => (w, false)

/-- TAKING AN ENGINE OPERAND'S FAULT: the operation stops at the unit, its course parks, the entry is written (R301, R336). -/
def opFault (e : Env) (w : W) (n cause va atype size : Nat) (matrix : Option (Nat × Nat)) : W :=
  match op? w n with
  | none => w
  | some o =>
    let lanes := match course? w o.cid with | some c => liveParked c | none => 0
    let x := opEntry o cause lanes va atype (min size 65535) true
    let (w, counted) := parkForOp e (updOp w n fun o => { o with faulted := va :: o.faulted, tmoWalk := false }) o.cid cause
    report e w ⟨x, [.engine n o.cid counted], false⟩ matrix

/-! Sequencers (R299, R300). -/

/-- The operation that a quadrant's sequencer steps: the one issued first of those not stopped. -/
def headOp (w : W) (pcn q : Nat) : Option (Nat × EngOp) :=
  (w.ops.filter fun (_, o) => o.kind.chisel && o.pcn == pcn && o.quad == q && !o.stopped).foldl
    (fun b x => match b with
      | none => some x
      | some y => if x.2.order < y.2.order then some x else some y) none

/-- The Chisel operations of some courses stopped at their step boundary (R300). -/
def stopOps (w : W) (p : EngOp → Bool) : W :=
  { w with ops := tMap w.ops fun _ o => if o.kind.chisel && p o then { o with stopped := true } else o }

/-- A course's stopped operations continued, in issue order, on the sequencer of a quadrant (R300, R329). -/
def resumeOps (w : W) (cid pcn q : Nat) : W :=
  let mine := (w.ops.filter fun (_, o) => o.cid == cid && o.stopped).mergeSort fun a b => a.2.order ≤ b.2.order
  mine.foldl (fun w (n, _) =>
    { updOp w n (fun o => { o with stopped := false, pcn := pcn, quad := q, order := w.nextOrder }) with
      nextOrder := w.nextOrder + 1 }) w

/-! Units that an operation touches (R70, R331). -/

/-- The scratch blocks of a range of a consort core's window: `o` from the start of the window, n bytes. -/
def blocksTouched (w : W) (k : Consort) (cc o n : Nat) : List Unit70 :=
  let pcn := consortPcn w k cc
  let p := nth k.pw cc 0 + o
  let lo := blockAt w pcn k.world p
  let hi := blockAt w pcn k.world (p + (n - 1))
  if n = 0 then [] else (List.range (hi + 1 - lo)).map fun i => Unit70.scratch pcn (lo + i)

/-- The scratch blocks of a panel. -/
def panelUnits (w : W) (k : Consort) (cc : Nat) (p : Panel) (b : Nat) : List Unit70 :=
  blocksTouched w k cc (b + p.base) p.extent

/-- The region row and column of the first element of an operation's current block. -/
def opBlock (o : EngOp) : Nat × Nat :=
  let r := regionOf o.region
  match o.kind with
  | .mma .. =>
    let p := parsePanel o.d1
    let q := parsePanel o.d2
    let g := (max p.vcols q.vrows + 15) / 16
    blockAtNo r (if g = 0 then 0 else o.step / g)
  | .arow _ => (64 * o.step, 0)
  | _ => blockAtNo r o.step

/-- The units that an operation's next step reads or writes (R331); `line` is a copy's. -/
def opUnits (w : W) (k : Consort) (o : EngOp) : List Unit70 :=
  let p := parsePanel o.d1
  let q := parsePanel o.d2
  let r := regionOf o.region
  let blk := fun (x : Nat × Nat) => (blockOf w k (r.row + x.1) (r.col + x.2)).unit
  match o.kind with
  | .mma .. => blk (opBlock o) :: (panelUnits w k p.csel p o.b1 ++ panelUnits w k q.csel q o.b2)
  | .azero => [blk (opBlock o)]
  | .astp _ | .aldp _ => blk (opBlock o) :: panelUnits w k p.csel p o.b1
  | .arow _ =>
    (List.range (r.ncols / 64)).map (fun j => blk (64 * o.step, 64 * j)) ++ panelUnits w k p.csel p o.b1
  | .scld _ => panelUnits w k p.csel p o.b1
  | .pswz .. => panelUnits w k p.csel p o.b1 ++ panelUnits w k q.csel q o.b2
  | .copy | .copyo | .gather => panelUnits w k p.csel p o.b1
  | .copym => ((List.range 4).filter fun c =>
      bitAt o.comp.toNat (24 + c) && !pcnMuted w (consortPcn w k c)).flatMap fun c => panelUnits w k c p o.b1
  | .coll | .tlsig => []

/-- The first unit that an operation's next step needs and that is not in place for its consort (R331). -/
def opAway (w : W) (o : EngOp) : Option Unit70 :=
  match consort? w o.consort with
  | none => none
  | some k => (opUnits w k o).find? fun u => !inPlace w o.consort u

/-- The block that a matrix step in progress on a sequencer would write: that of its first operation, unless a unit that the step needs
is still to be claimed (R177, R331). -/
def stepBlock (w : W) (pcn q : Nat) : Option Block :=
  match headOp w pcn q with
  | none => none
  | some (_, o) =>
    let writes := match o.kind with | .mma .. | .azero | .aldp _ => true | _ => false
    if !writes ∨ o.total ≤ o.step ∨ (opAway w o).isSome then none
    else (consort? w o.consort).map fun k =>
      let r := regionOf o.region
      blockOf w k (r.row + (opBlock o).1) (r.col + (opBlock o).2)

/-- An engine reset: its operations end with ENGERR, its withholding ends (R173, R177). A sequencer with an operation is within the
operation's next step, whose output block is poisoned (log entry 65). -/
def resetEngine (e : Env) (w : W) (pcn eng : Nat) : W :=
  let w := match (if eng < 4 then stepBlock w pcn eng else none) with
    | some b => poisonAt w b.key
    | none => w
  let w := (opsOf w pcn eng).foldl (engErr e) w
  if eng < 4 then updQuad w (4 * pcn + eng) fun q => { q with chiselOk := true, withheld := false }
  else updCore w pcn fun c =>
    let c := { c with
      copyOk := c.copyOk || eng == 4
      collOk := c.collOk || eng == 5
      actOk := c.actOk || eng == 6 }
    { c with withheld := !(c.copyOk && c.collOk && c.actOk) }

end Sys2Proof.Machine
end

