-- ==== Sys2Proof/WellFormed.lean ====
section
/-! DEFINITION. Which instructions have an encoding: pairs, quads, classes and modifiers of R205, R215, R216, R228. -/

namespace Sys2Proof

/-- A register that starts an even pair (R215); register 63 starts none, being odd. -/
def evenReg (r : R64) : Bool := r.val % 2 == 0

/-- A register that starts an aligned quad (R215). -/
def quadReg (r : R64) : Bool := r.val % 4 == 0

/-- The data register of an access of size z: a pair for 8 bytes (R214, R252). -/
def Sz.okData (z : Sz) (d : R64) : Bool := z != .b8 || evenReg d

/-- The conversions of CVT that round in mode M; the others require M = 00 (R228, R244). -/
def CvtOp.rounds : CvtOp → Bool
  | .i32F32 | .u32F32 | .i8F32 | .intF32 | .f32I32 | .f32U32 | .f16F32 | .bf16F32 => true
  | .f32I8 | .f32F16 _ | .f32BF16 _ | .f32L6 | .f16SR | .bf16SR => false

/-- The forms of CVTF8 that round in mode M (R245). -/
def Cvt8Op.rounds : Cvt8Op → Bool
  | .narrow _ sr => !sr
  | .widen _ _ => false

/-- Whether an instruction satisfies every rule of R215 that its fields' types do not already state. -/
def Instr.wf : Instr → Bool
  | .icmp _ _ c _ _ _ => c != .un
  | .icmpi _ _ c _ _ => c != .un
  | .scmp _ _ c _ _ _ => c != .un
  | .lea _ d a _ _ => evenReg d && evenReg a
  | .plog _ _ o _ b => o != .not || b == 0
  | .qlog _ _ o _ b => o != .not || b == 0
  | .cvt _ _ _ o m => o.rounds || m == .rne
  | .cvtf8 _ _ _ o m => o.rounds || m == .rne
  | .sclx _ _ _ o m => o == .apply || m == .rne
  | .fmaxx _ d a b => evenReg d && evenReg a && evenReg b
  | .ld _ d a z _ => evenReg a && z.okData d
  | .st _ d a z _ => evenReg a && z.okData d
  | .ldacq _ d a z _ => evenReg a && z.okData d
  | .strel _ d a z _ => evenReg a && z.okData d
  | .lds _ d _ z _ => z.okData d
  | .sts _ d _ z _ => z.okData d
  | .ldl _ d _ z _ => z.okData d
  | .stl _ d _ z _ => z.okData d
  | .atadd _ _ _ v a b _ => evenReg a && (v != .i64 || evenReg b)
  | .atmax _ _ _ _ a _ _ => evenReg a
  | .atexch _ _ v a b _ => evenReg a && (v != .w64 || evenReg b)
  | .atcas _ _ v a b _ => evenReg a && (if v = .w64 then quadReg b else evenReg b)
  | .atlog _ _ _ _ a _ _ => evenReg a
  | .atcass _ _ _ b _ => evenReg b
  | .pref _ a _ _ => evenReg a
  | .shfl _ _ _ b o => match o with
    | .lane | .rank => true
    | .step => b.val != 32
    | .flip => b.val < 32
  | .redl _ _ _ o m => o == .fadd || m == .rne
  | .scanl _ _ _ o _ m => o == .fadd || m == .rne
  | .sld _ d a z _ => evenReg a && z.okData d
  | .sst _ d a z _ => evenReg a && z.okData d
  | .exitSucc _ a => evenReg a
  | .launchq _ _ a => evenReg a
  | .dsetD _ _ b => b.val % 8 == 0
  | .dsetA _ _ b _ => quadReg b
  | .dsetTl _ _ b => evenReg b
  | .copy _ _ _ a _ => evenReg a
  | .copym _ _ _ a _ => evenReg a
  | .copyo _ _ _ a _ => evenReg a
  | .gather _ _ _ a _ => quadReg a
  | .coll _ _ a _ => evenReg a
  | .tlbinvPage _ a _ => evenReg a
  | .tlbinvCtx _ a => evenReg a
  | .keyopSet _ _ a => evenReg a
  | .keyopBump _ _ a => evenReg a
  | .keyopClear _ _ a => evenReg a
  | .keyopNewkey _ _ a => evenReg a
  | .svcall _ _ a _ => quadReg a
  | _ => true

end Sys2Proof
end

