-- ==== Sys2Proof/Decode.lean ====
section
/-! DEFINITION. The decoder, total on any bytes, and the encoder, both from the formats of R212 to R224. -/

namespace Sys2Proof

/-- The fields every word has (R212, R214): bit 31, bit 30, [29:23], [22:20], [19:14], [13:8], [7:2], [1:0]. -/
structure Raw where
  set : Nat
  sw : Nat
  op : Nat
  g : Nat
  d : Nat
  a : Nat
  b : Nat
  m : Nat
  deriving DecidableEq, Repr

/-- The field of n values at weight lo in a word. -/
def fld (w lo n : Nat) : Nat := w / lo % n

/-- The fields of a word. -/
def rawOf (w : Nat) : Raw :=
  ⟨fld w 2147483648 2, fld w 1073741824 2, fld w 8388608 128, fld w 1048576 8, fld w 16384 64, fld w 256 64, fld w 4 64, fld w 1 4⟩

/-- The word of given fields. -/
def Raw.word (r : Raw) : Nat :=
  r.set * 2147483648 + r.sw * 1073741824 + r.op * 8388608 + r.g * 1048576 + r.d * 16384 + r.a * 256 + r.b * 4 + r.m

/-- Every field lies within its width. -/
def Raw.ok (r : Raw) : Bool :=
  r.set < 2 && r.sw < 2 && r.op < 128 && r.g < 8 && r.d < 64 && r.a < 64 && r.b < 64 && r.m < 4

/-- A number of a field as wide as the class it names. -/
def fr (n : Nat) [NeZero n] (x : Nat) : Fin n := Fin.ofNat n x

/-- A number that must lie within a class (R215). -/
def fin? (n x : Nat) : Option (Fin n) := if h : x < n then some ⟨x, h⟩ else none

/-- A one-bit modifier in a wider field. -/
def bool? (x : Nat) : Option Bool := if x = 0 then some false else if x = 1 then some true else none

/-- The release forms of HALTB: M of 2 or 3 (R293). -/
def bool2? (x : Nat) : Option Bool := if x = 2 then some false else if x = 3 then some true else none

/-- The code of a rounding mode (R20). -/
def Rm.code : Rm → Nat
  | .rne => 0
  | .rz => 1
  | .ru => 2
  | .rd => 3

/-- The inverse of `Rm.code`; none for an unassigned value. -/
def Rm.of? : Nat → Option Rm
  | 0 => some .rne
  | 1 => some .rz
  | 2 => some .ru
  | 3 => some .rd
  | _ => none

/-- The code of a saturation mode (R231). -/
def Sat.code : Sat → Nat
  | .wrap => 0
  | .ss => 1
  | .us => 2

/-- The inverse of `Sat.code`; none for an unassigned value. -/
def Sat.of? : Nat → Option Sat
  | 0 => some .wrap
  | 1 => some .ss
  | 2 => some .us
  | _ => none

/-- The code of SMUL's part (R274). -/
def MulPart.code : MulPart → Nat
  | .lo => 0
  | .hi => 1
  | .hiu => 2

/-- The inverse of `MulPart.code`; none for an unassigned value. -/
def MulPart.of? : Nat → Option MulPart
  | 0 => some .lo
  | 1 => some .hi
  | 2 => some .hiu
  | _ => none

/-- The code of a relation (R214). -/
def Cc.code : Cc → Nat
  | .eq => 0
  | .ne => 1
  | .lt => 2
  | .le => 3
  | .gt => 4
  | .ge => 5
  | .un => 6

/-- The inverse of `Cc.code`; none for an unassigned value. -/
def Cc.of? : Nat → Option Cc
  | 0 => some .eq
  | 1 => some .ne
  | 2 => some .lt
  | 3 => some .le
  | 4 => some .gt
  | 5 => some .ge
  | 6 => some .un
  | _ => none

/-- The code of a predicate operation (R235). -/
def LogOp.code : LogOp → Nat
  | .and => 0
  | .or => 1
  | .xor => 2
  | .andn => 3
  | .orn => 4
  | .xnor => 5
  | .not => 6

/-- The inverse of `LogOp.code`; none for an unassigned value. -/
def LogOp.of? : Nat → Option LogOp
  | 0 => some .and
  | 1 => some .or
  | 2 => some .xor
  | 3 => some .andn
  | 4 => some .orn
  | 5 => some .xnor
  | 6 => some .not
  | _ => none

/-- The code of FSGN's choice (R239). -/
def SgnOp.code : SgnOp → Nat
  | .copy => 0
  | .inv => 1
  | .xor => 2

/-- The inverse of `SgnOp.code`; none for an unassigned value. -/
def SgnOp.of? : Nat → Option SgnOp
  | 0 => some .copy
  | 1 => some .inv
  | 2 => some .xor
  | _ => none

/-- The selector of a conversion (R244). -/
def CvtOp.code : CvtOp → Nat
  | .i32F32 => 0
  | .u32F32 => 1
  | .i8F32 => 2
  | .intF32 => 3
  | .f32I32 => 4
  | .f32U32 => 5
  | .f32I8 => 6
  | .f16F32 => 8
  | .bf16F32 => 9
  | .f32F16 false => 10
  | .f32F16 true => 11
  | .f32BF16 false => 12
  | .f32BF16 true => 13
  | .f32L6 => 14
  | .f16SR => 40
  | .bf16SR => 41

/-- The inverse of `CvtOp.code`; none for an unassigned value. -/
def CvtOp.of? : Nat → Option CvtOp
  | 0 => some .i32F32
  | 1 => some .u32F32
  | 2 => some .i8F32
  | 3 => some .intF32
  | 4 => some .f32I32
  | 5 => some .f32U32
  | 6 => some .f32I8
  | 8 => some .f16F32
  | 9 => some .bf16F32
  | 10 => some (.f32F16 false)
  | 11 => some (.f32F16 true)
  | 12 => some (.f32BF16 false)
  | 13 => some (.f32BF16 true)
  | 14 => some .f32L6
  | 40 => some .f16SR
  | 41 => some .bf16SR
  | _ => none

/-- The selector of an 8-bit conversion (R245). -/
def Cvt8Op.code : Cvt8Op → Nat
  | .narrow e sr => sr.toNat * 4 + e.toNat
  | .widen e j => j.val * 8 + 2 + e.toNat

/-- The inverse of `Cvt8Op.code`; none for an unassigned value. -/
def Cvt8Op.of? : Nat → Option Cvt8Op
  | 0 => some (.narrow false false)
  | 1 => some (.narrow true false)
  | 2 => some (.widen false 0)
  | 3 => some (.widen true 0)
  | 4 => some (.narrow false true)
  | 5 => some (.narrow true true)
  | 10 => some (.widen false 1)
  | 11 => some (.widen true 1)
  | 18 => some (.widen false 2)
  | 19 => some (.widen true 2)
  | 26 => some (.widen false 3)
  | 27 => some (.widen true 3)
  | _ => none

/-- The selector of SCLX (R246). -/
def SclxOp.code : SclxOp → Nat
  | .e4m3 => 0
  | .e5m2 => 1
  | .l6 => 2
  | .i8 => 3
  | .apply => 8

/-- The inverse of `SclxOp.code`; none for an unassigned value. -/
def SclxOp.of? : Nat → Option SclxOp
  | 0 => some .e4m3
  | 1 => some .e5m2
  | 2 => some .l6
  | 3 => some .i8
  | 8 => some .apply
  | _ => none

/-- The code of an access size (R214). -/
def Sz.code : Sz → Nat
  | .b1 => 0
  | .b2 => 1
  | .b4 => 2
  | .b8 => 3

/-- The inverse of `Sz.code`; none for an unassigned value. -/
def Sz.of? : Nat → Option Sz
  | 0 => some .b1
  | 1 => some .b2
  | 2 => some .b4
  | 3 => some .b8
  | _ => none

/-- The code of a scope (R115). -/
def Scope.code : Scope → Nat
  | .co => 0
  | .cn => 1
  | .dv => 2
  | .sy => 3

/-- The inverse of `Scope.code`; none for an unassigned value. -/
def Scope.of? : Nat → Option Scope
  | 0 => some .co
  | 1 => some .cn
  | 2 => some .dv
  | 3 => some .sy
  | _ => none

/-- The order code (R118). -/
def Ord4.code : Ord4 → Nat
  | .rlx => 0
  | .acq => 1
  | .rel => 2
  | .ar => 3

/-- The inverse of `Ord4.code`; none for an unassigned value. -/
def Ord4.of? : Nat → Option Ord4
  | 0 => some .rlx
  | 1 => some .acq
  | 2 => some .rel
  | 3 => some .ar
  | _ => none

/-- ATADD's variants (R216). -/
def AddVar.code : AddVar → Nat
  | .i32 => 0
  | .f32 => 1
  | .i64 => 2

/-- The inverse of `AddVar.code`; none for an unassigned value. -/
def AddVar.of? : Nat → Option AddVar
  | 0 => some .i32
  | 1 => some .f32
  | 2 => some .i64
  | _ => none

/-- ATMAX's variants (R216). -/
def MaxVar.code : MaxVar → Nat
  | .maxS => 0
  | .maxU => 1
  | .maxF => 2
  | .minS => 4
  | .minU => 5
  | .minF => 6

/-- The inverse of `MaxVar.code`; none for an unassigned value. -/
def MaxVar.of? : Nat → Option MaxVar
  | 0 => some .maxS
  | 1 => some .maxU
  | 2 => some .maxF
  | 4 => some .minS
  | 5 => some .minU
  | 6 => some .minF
  | _ => none

/-- The widths of ATEXCH and ATCAS (R216). -/
def WVar.code : WVar → Nat
  | .w32 => 0
  | .w64 => 1

/-- The inverse of `WVar.code`; none for an unassigned value. -/
def WVar.of? : Nat → Option WVar
  | 0 => some .w32
  | 1 => some .w64
  | _ => none

/-- ATLOG's variants (R216). -/
def LogVar.code : LogVar → Nat
  | .and => 0
  | .or => 1
  | .xor => 2

/-- The inverse of `LogVar.code`; none for an unassigned value. -/
def LogVar.of? : Nat → Option LogVar
  | 0 => some .and
  | 1 => some .or
  | 2 => some .xor
  | _ => none

/-- The modes of SHFL (R259). -/
def ShflOp.code : ShflOp → Nat
  | .lane => 0
  | .step => 1
  | .rank => 2
  | .flip => 3

/-- The inverse of `ShflOp.code`; none for an unassigned value. -/
def ShflOp.of? : Nat → Option ShflOp
  | 0 => some .lane
  | 1 => some .step
  | 2 => some .rank
  | 3 => some .flip
  | _ => none

/-- VOTE's M (R260). -/
def VoteOp.selM : VoteOp → Nat
  | .any => 0
  | .all => 1
  | .mask => 2
  | .maskRank => 2
  | .same => 3

/-- VOTE's B (R260). -/
def VoteOp.selB : VoteOp → Nat
  | .maskRank => 1
  | .any | .all | .mask | .same => 0

/-- VOTE's operation from M and B; none for an unassigned pair (R260). -/
def VoteOp.of? (m b : Nat) : Option VoteOp :=
  if b = 0 then
    match m with
    | 0 => some .any
    | 1 => some .all
    | 2 => some .mask
    | 3 => some .same
    | _ => none
  else if b = 1 ∧ m = 2 then some .maskRank else none

/-- The operations of REDL and SCANL (R261). -/
def RedOp.code : RedOp → Nat
  | .iadd => 0
  | .imin => 1
  | .imax => 2
  | .iminU => 3
  | .imaxU => 4
  | .and => 5
  | .or => 6
  | .xor => 7
  | .fadd => 8
  | .fmin => 9
  | .fmax => 10

/-- The inverse of `RedOp.code`; none for an unassigned value. -/
def RedOp.of? : Nat → Option RedOp
  | 0 => some .iadd
  | 1 => some .imin
  | 2 => some .imax
  | 3 => some .iminU
  | 4 => some .imaxU
  | 5 => some .and
  | 6 => some .or
  | 7 => some .xor
  | 8 => some .fadd
  | 9 => some .fmin
  | 10 => some .fmax
  | _ => none

/-- The forms of OWNQ (R263). -/
def OwnqOp.code : OwnqOp → Nat
  | .slot => 0
  | .mask => 1
  | .rank => 2
  | .count => 3

/-- The inverse of `OwnqOp.code`; none for an unassigned value. -/
def OwnqOp.of? : Nat → Option OwnqOp
  | 0 => some .slot
  | 1 => some .mask
  | 2 => some .rank
  | 3 => some .count
  | _ => none

/-- The operations of AROW (R306). -/
def RowOp.code : RowOp → Nat
  | .sum => 0
  | .max => 1
  | .min => 2
  | .maxx => 3

/-- The inverse of `RowOp.code`; none for an unassigned value. -/
def RowOp.of? : Nat → Option RowOp
  | 0 => some .sum
  | 1 => some .max
  | 2 => some .min
  | 3 => some .maxx
  | _ => none

/-- Lane opcodes 0x00 to 0x1F (R221, R223). -/
def laneA (x : Raw) (_lit : Nat) (h : Hd) : Option Instr :=
  match x.op with
  | 0x00 => (Sat.of? (x.m)).map fun m => .iadd h (fr 64 (x.d)) (fr 64 (x.a)) (fr 64 (x.b)) m
  | 0x01 => (Sat.of? (x.m)).map fun m => .isub h (fr 64 (x.d)) (fr 64 (x.a)) (fr 64 (x.b)) m
  | 0x02 => if x.m = 0 then some (.imul h (fr 64 (x.d)) (fr 64 (x.a)) (fr 64 (x.b))) else none
  | 0x03 => (bool? (x.m)).map fun u => .imulh h (fr 64 (x.d)) (fr 64 (x.a)) (fr 64 (x.b)) u
  | 0x04 => if x.m = 0 then some (.imad h (fr 64 (x.d)) (fr 64 (x.a)) (fr 64 (x.b))) else none
  | 0x05 => (bool? (x.m)).map fun u => .imin h (fr 64 (x.d)) (fr 64 (x.a)) (fr 64 (x.b)) u
  | 0x06 => (bool? (x.m)).map fun u => .imax h (fr 64 (x.d)) (fr 64 (x.a)) (fr 64 (x.b)) u
  | 0x07 => if x.b = 0 then (bool? (x.m)).map fun sat => .iabs h (fr 64 (x.d)) (fr 64 (x.a)) sat else none
  | 0x08 => if x.m = 0 then some (.and h (fr 64 (x.d)) (fr 64 (x.a)) (fr 64 (x.b))) else none
  | 0x09 => if x.m = 0 then some (.or h (fr 64 (x.d)) (fr 64 (x.a)) (fr 64 (x.b))) else none
  | 0x0A => if x.m = 0 then some (.xor h (fr 64 (x.d)) (fr 64 (x.a)) (fr 64 (x.b))) else none
  | 0x0B => if x.m = 0 then some (.andn h (fr 64 (x.d)) (fr 64 (x.a)) (fr 64 (x.b))) else none
  | 0x0C => if x.m = 0 then some (.shl h (fr 64 (x.d)) (fr 64 (x.a)) (fr 64 (x.b))) else none
  | 0x0D => if x.m = 0 then some (.shr h (fr 64 (x.d)) (fr 64 (x.a)) (fr 64 (x.b))) else none
  | 0x0E => if x.m = 0 then some (.sar h (fr 64 (x.d)) (fr 64 (x.a)) (fr 64 (x.b))) else none
  | 0x0F => if x.m = 0 then some (.rotl h (fr 64 (x.d)) (fr 64 (x.a)) (fr 64 (x.b))) else none
  | 0x10 => if x.b = 0 ∧ x.m = 0 then some (.popc h (fr 64 (x.d)) (fr 64 (x.a))) else none
  | 0x11 => if x.b = 0 ∧ x.m = 0 then some (.clz h (fr 64 (x.d)) (fr 64 (x.a))) else none
  | 0x12 => if x.b = 0 ∧ x.m = 0 then some (.brev h (fr 64 (x.d)) (fr 64 (x.a))) else none
  | 0x13 => (bool? (x.m)).map fun s => .bfx h (fr 64 (x.d)) (fr 64 (x.a)) (fr 64 (x.b)) s
  | 0x14 => if x.m = 0 then some (.bfi h (fr 64 (x.d)) (fr 64 (x.a)) (fr 64 (x.b))) else none
  | 0x15 => (fin? 4 (x.m)).map fun n => .sel h (fr 64 (x.d)) (fr 64 (x.a)) (fr 64 (x.b)) n
  | 0x16 => (fin? 8 (x.d / 8)).bind fun p => (Cc.of? (x.d % 8)).bind fun c => (bool? (x.m)).map fun u => .icmp h p c (fr 64 (x.a)) (fr 64 (x.b)) u
  | 0x17 => (fin? 4 (x.m)).map fun n => .lea h (fr 64 (x.d)) (fr 64 (x.a)) (fr 64 (x.b)) n
  | 0x18 => (fin? 256 ((x.b * 4 + x.m))).map fun i => .iaddi h (fr 64 (x.d)) (fr 64 (x.a)) i
  | 0x19 => (fin? 256 ((x.b * 4 + x.m))).map fun i => .imuli h (fr 64 (x.d)) (fr 64 (x.a)) i
  | 0x1A => (fin? 256 ((x.b * 4 + x.m))).map fun i => .andi h (fr 64 (x.d)) (fr 64 (x.a)) i
  | 0x1B => (fin? 256 ((x.b * 4 + x.m))).map fun i => .ori h (fr 64 (x.d)) (fr 64 (x.a)) i
  | 0x1C => (fin? 256 ((x.b * 4 + x.m))).map fun i => .xori h (fr 64 (x.d)) (fr 64 (x.a)) i
  | 0x1D => (fin? 32 ((x.b * 4 + x.m))).map fun i => .shli h (fr 64 (x.d)) (fr 64 (x.a)) i
  | 0x1E => (fin? 32 ((x.b * 4 + x.m))).map fun i => .shri h (fr 64 (x.d)) (fr 64 (x.a)) i
  | 0x1F => (fin? 32 ((x.b * 4 + x.m))).map fun i => .sari h (fr 64 (x.d)) (fr 64 (x.a)) i
  | _ => none

/-- Lane opcodes 0x20 to 0x3F (R221, R223). -/
def laneB (x : Raw) (lit : Nat) (h : Hd) : Option Instr :=
  match x.op with
  | 0x20 => (fin? 16384 ((x.a * 256 + x.b * 4 + x.m))).map fun i => .movi h (fr 64 (x.d)) i
  | 0x21 => if (x.a * 256 + x.b * 4 + x.m) = 0 then some (.movl h (fr 64 (x.d)) (BitVec.ofNat 32 lit)) else none
  | 0x22 => if x.b = 0 ∧ x.m = 0 then some (.mov h (fr 64 (x.d)) (fr 64 (x.a))) else none
  | 0x23 => if x.b = 0 ∧ x.m = 0 then some (.movs h (fr 64 (x.d)) (fr 64 (x.a))) else none
  | 0x24 => if x.m = 0 then (fin? 8 (x.d / 8)).bind fun p => (LogOp.of? (x.d % 8)).bind fun o => (fin? 8 (x.a)).bind fun a => (fin? 8 (x.b)).map fun b => .plog h p o a b else none
  | 0x25 => if x.d % 8 = 0 ∧ x.b = 0 ∧ x.m = 0 then (fin? 8 (x.d / 8)).map fun p => .psetv h p (fr 64 (x.a)) else none
  | 0x26 => if x.b = 0 then (fin? 8 (x.a)).bind fun a => (bool? (x.m)).map fun m => .pgetv h (fr 64 (x.d)) a m else none
  | 0x27 => (fin? 8 (x.d / 8)).bind fun p => (Cc.of? (x.d % 8)).bind fun c => (fin? 256 ((x.b * 4 + x.m))).map fun i => .icmpi h p c (fr 64 (x.a)) i
  | 0x28 => (Rm.of? (x.m)).map fun m => .fadd h (fr 64 (x.d)) (fr 64 (x.a)) (fr 64 (x.b)) m
  | 0x29 => (Rm.of? (x.m)).map fun m => .fsub h (fr 64 (x.d)) (fr 64 (x.a)) (fr 64 (x.b)) m
  | 0x2A => (Rm.of? (x.m)).map fun m => .fmul h (fr 64 (x.d)) (fr 64 (x.a)) (fr 64 (x.b)) m
  | 0x2B => (Rm.of? (x.m)).map fun m => .fmac h (fr 64 (x.d)) (fr 64 (x.a)) (fr 64 (x.b)) m
  | 0x2C => if x.m = 0 then some (.fmin h (fr 64 (x.d)) (fr 64 (x.a)) (fr 64 (x.b))) else none
  | 0x2D => if x.m = 0 then some (.fmax h (fr 64 (x.d)) (fr 64 (x.a)) (fr 64 (x.b))) else none
  | 0x2E => if x.m = 0 then (fin? 8 (x.d / 8)).bind fun p => (Cc.of? (x.d % 8)).map fun c => .fcmp h p c (fr 64 (x.a)) (fr 64 (x.b)) else none
  | 0x2F => (SgnOp.of? (x.m)).map fun o => .fsgn h (fr 64 (x.d)) (fr 64 (x.a)) (fr 64 (x.b)) o
  | 0x30 => if x.b = 0 ∧ x.m = 0 then some (.frcp h (fr 64 (x.d)) (fr 64 (x.a))) else none
  | 0x31 => if x.b = 0 ∧ x.m = 0 then some (.frsq h (fr 64 (x.d)) (fr 64 (x.a))) else none
  | 0x32 => if x.b = 0 then (Rm.of? (x.m)).map fun m => .fsqrt h (fr 64 (x.d)) (fr 64 (x.a)) m else none
  | 0x33 => (Rm.of? (x.m)).map fun m => .fdiv h (fr 64 (x.d)) (fr 64 (x.a)) (fr 64 (x.b)) m
  | 0x34 => if x.b = 0 then (Rm.of? (x.m)).map fun m => .log2 h (fr 64 (x.d)) (fr 64 (x.a)) m else none
  | 0x35 => if x.b = 0 then (Rm.of? (x.m)).map fun m => .exp2 h (fr 64 (x.d)) (fr 64 (x.a)) m else none
  | 0x36 => if x.b = 0 ∧ x.m = 0 then some (.fclass h (fr 64 (x.d)) (fr 64 (x.a))) else none
  | 0x37 => (CvtOp.of? (x.b)).bind fun o => (Rm.of? (x.m)).map fun m => .cvt h (fr 64 (x.d)) (fr 64 (x.a)) o m
  | 0x38 => (Rm.of? (x.m)).map fun m => .hadd2 h (fr 64 (x.d)) (fr 64 (x.a)) (fr 64 (x.b)) m
  | 0x39 => (Rm.of? (x.m)).map fun m => .hmul2 h (fr 64 (x.d)) (fr 64 (x.a)) (fr 64 (x.b)) m
  | 0x3A => (Rm.of? (x.m)).map fun m => .hmac2 h (fr 64 (x.d)) (fr 64 (x.a)) (fr 64 (x.b)) m
  | 0x3B => if x.m = 0 then some (.fmaxx h (fr 64 (x.d)) (fr 64 (x.a)) (fr 64 (x.b))) else none
  | 0x3C => if x.m = 0 then some (.cvtl6 h (fr 64 (x.d)) (fr 64 (x.a)) (fr 64 (x.b))) else none
  | 0x3D => (Cvt8Op.of? (x.b)).bind fun o => (Rm.of? (x.m)).map fun m => .cvtf8 h (fr 64 (x.d)) (fr 64 (x.a)) o m
  | 0x3E => (SclxOp.of? (x.b)).bind fun o => (Rm.of? (x.m)).map fun m => .sclx h (fr 64 (x.d)) (fr 64 (x.a)) o m
  | 0x3F => (bool? (x.m)).map fun u => .rand h (fr 64 (x.d)) (fr 64 (x.a)) (fr 64 (x.b)) u
  | _ => none

/-- Lane opcodes 0x40 to 0x5F (R221, R223). -/
def laneC (x : Raw) (_lit : Nat) (h : Hd) : Option Instr :=
  match x.op with
  | 0x40 => (Sz.of? (x.b / 16)).map fun z => .ld h (fr 64 (x.d)) (fr 64 (x.a)) z (fr 64 ((x.b % 16 * 4 + x.m)))
  | 0x41 => (Sz.of? (x.b / 16)).map fun z => .st h (fr 64 (x.d)) (fr 64 (x.a)) z (fr 64 ((x.b % 16 * 4 + x.m)))
  | 0x42 => if (x.b % 16 * 4 + x.m) % 16 = 0 then (Sz.of? (x.b / 16)).bind fun z => (Scope.of? ((x.b % 16 * 4 + x.m) / 16)).map fun sc => .ldacq h (fr 64 (x.d)) (fr 64 (x.a)) z sc else none
  | 0x43 => if (x.b % 16 * 4 + x.m) % 16 = 0 then (Sz.of? (x.b / 16)).bind fun z => (Scope.of? ((x.b % 16 * 4 + x.m) / 16)).map fun sc => .strel h (fr 64 (x.d)) (fr 64 (x.a)) z sc else none
  | 0x44 => (Sz.of? (x.b / 16)).map fun z => .lds h (fr 64 (x.d)) (fr 64 (x.a)) z (fr 64 ((x.b % 16 * 4 + x.m)))
  | 0x45 => (Sz.of? (x.b / 16)).map fun z => .sts h (fr 64 (x.d)) (fr 64 (x.a)) z (fr 64 ((x.b % 16 * 4 + x.m)))
  | 0x46 => (Sz.of? (x.b / 16)).map fun z => .ldl h (fr 64 (x.d)) (fr 64 (x.a)) z (fr 64 ((x.b % 16 * 4 + x.m)))
  | 0x47 => (Sz.of? (x.b / 16)).map fun z => .stl h (fr 64 (x.d)) (fr 64 (x.a)) z (fr 64 ((x.b % 16 * 4 + x.m)))
  | 0x48 => (Scope.of? (x.d / 16)).bind fun sc => (bool? (x.d / 8 % 2)).bind fun r => (AddVar.of? (x.d % 8)).bind fun v => (Ord4.of? (x.m)).map fun o => .atadd h sc r v (fr 64 (x.a)) (fr 64 (x.b)) o
  | 0x49 => (Scope.of? (x.d / 16)).bind fun sc => (bool? (x.d / 8 % 2)).bind fun r => (MaxVar.of? (x.d % 8)).bind fun v => (Ord4.of? (x.m)).map fun o => .atmax h sc r v (fr 64 (x.a)) (fr 64 (x.b)) o
  | 0x4A => if x.d / 8 % 2 = 1 then (Scope.of? (x.d / 16)).bind fun sc => (WVar.of? (x.d % 8)).bind fun v => (Ord4.of? (x.m)).map fun o => .atexch h sc v (fr 64 (x.a)) (fr 64 (x.b)) o else none
  | 0x4B => if x.d / 8 % 2 = 1 then (Scope.of? (x.d / 16)).bind fun sc => (WVar.of? (x.d % 8)).bind fun v => (Ord4.of? (x.m)).map fun o => .atcas h sc v (fr 64 (x.a)) (fr 64 (x.b)) o else none
  | 0x4C => (Scope.of? (x.d / 16)).bind fun sc => (bool? (x.d / 8 % 2)).bind fun r => (LogVar.of? (x.d % 8)).bind fun v => (Ord4.of? (x.m)).map fun o => .atlog h sc r v (fr 64 (x.a)) (fr 64 (x.b)) o
  | 0x4D => (bool? (x.d / 16)).bind fun cn => (bool? (x.d / 8 % 2)).bind fun r => (bool? (x.d % 8)).bind fun f => (Ord4.of? (x.m)).map fun o => .atadds h cn r f (fr 64 (x.a)) (fr 64 (x.b)) o
  | 0x4E => if x.d / 8 % 2 = 1 ∧ x.d % 8 = 0 then (bool? (x.d / 16)).bind fun cn => (Ord4.of? (x.m)).map fun o => .atcass h cn (fr 64 (x.a)) (fr 64 (x.b)) o else none
  | 0x4F => if x.d = 0 then (Sz.of? (x.b / 16)).map fun z => .pref h (fr 64 (x.a)) z (fr 64 ((x.b % 16 * 4 + x.m))) else none
  | 0x50 => (ShflOp.of? (x.m)).map fun o => .shfl h (fr 64 (x.d)) (fr 64 (x.a)) (fr 64 (x.b)) o
  | 0x51 => (VoteOp.of? x.m x.b).map fun o => .vote h (fr 64 x.d) (fr 64 x.a) o
  | 0x52 => (RedOp.of? (x.b)).bind fun o => (Rm.of? (x.m)).map fun m => .redl h (fr 64 (x.d)) (fr 64 (x.a)) o m
  | 0x53 => (RedOp.of? (x.b % 32)).bind fun o => (bool? (x.b / 32)).bind fun ex => (Rm.of? x.m).map fun m => .scanl h (fr 64 x.d) (fr 64 x.a) o ex m
  | 0x54 => if x.a = 0 ∧ x.b / 4 = 0 then (fin? 6 (x.b % 2 * 4 + x.m)).bind fun f => (bool? (x.b / 2 % 2)).map fun hi => .widx h (fr 64 x.d) f hi else none
  | 0x55 => if x.a = 0 ∧ x.b = 0 then (OwnqOp.of? (x.m)).map fun o => .ownq h (fr 64 (x.d)) o else none
  | 0x56 => (fin? 1048576 ((x.d * 16384 + x.a * 256 + x.b * 4 + x.m))).map fun o => .bra h o
  | 0x57 => if x.d = 0 ∧ x.b = 0 ∧ x.m = 0 then some (.brx h (fr 64 (x.a))) else none
  | 0x58 => (fin? 16384 ((x.a * 256 + x.b * 4 + x.m))).map fun i => .call h (fr 64 (x.d)) i
  | 0x59 => if x.d = 0 ∧ x.b = 0 ∧ x.m = 0 then some (.ret h (fr 64 (x.a))) else none
  | 0x5A => if x.d = 0 ∧ x.a = 0 ∧ x.b = 0 ∧ x.m = 0 then some (.recon h) else none
  | 0x5B => if x.d = 0 ∧ x.a = 0 ∧ x.b = 0 ∧ x.m = 0 then some (.lexit h) else none
  | 0x5C => if x.d = 0 then (fin? 16384 ((x.a * 256 + x.b * 4 + x.m))).map fun i => .trap h i else none
  | 0x5D => if x.d = 0 ∧ x.a = 0 ∧ x.b = 0 ∧ x.m = 0 then some (.nop h) else none
  | 0x5E => if x.d = 0 then (fin? 16384 ((x.a * 256 + x.b * 4 + x.m))).map fun i => .bkpt h i else none
  | 0x5F => if x.d = 0 ∧ x.a = 0 ∧ x.b = 0 ∧ x.m = 0 then some (.spinh h) else none
  | _ => none

/-- Uniform opcodes 0x00 to 0x27 (R222, R224). -/
def uniA (x : Raw) (lit : Nat) (h : Hd) : Option Instr :=
  match x.op with
  | 0x00 => (Sat.of? (x.m)).map fun m => .sadd h (fr 64 (x.d)) (fr 64 (x.a)) (fr 64 (x.b)) m
  | 0x01 => (Sat.of? (x.m)).map fun m => .ssub h (fr 64 (x.d)) (fr 64 (x.a)) (fr 64 (x.b)) m
  | 0x02 => (MulPart.of? (x.m)).map fun m => .smul h (fr 64 (x.d)) (fr 64 (x.a)) (fr 64 (x.b)) m
  | 0x03 => if x.m = 0 then some (.sand h (fr 64 (x.d)) (fr 64 (x.a)) (fr 64 (x.b))) else none
  | 0x04 => if x.m = 0 then some (.sor h (fr 64 (x.d)) (fr 64 (x.a)) (fr 64 (x.b))) else none
  | 0x05 => if x.m = 0 then some (.sxor h (fr 64 (x.d)) (fr 64 (x.a)) (fr 64 (x.b))) else none
  | 0x06 => if x.m = 0 then some (.sshl h (fr 64 (x.d)) (fr 64 (x.a)) (fr 64 (x.b))) else none
  | 0x07 => if x.m = 0 then some (.sshr h (fr 64 (x.d)) (fr 64 (x.a)) (fr 64 (x.b))) else none
  | 0x08 => if x.m = 0 then some (.ssar h (fr 64 (x.d)) (fr 64 (x.a)) (fr 64 (x.b))) else none
  | 0x09 => (bool? (x.m)).map fun u => .smin h (fr 64 (x.d)) (fr 64 (x.a)) (fr 64 (x.b)) u
  | 0x0A => (bool? (x.m)).map fun u => .smax h (fr 64 (x.d)) (fr 64 (x.a)) (fr 64 (x.b)) u
  | 0x0B => (fin? 8 (x.d / 8)).bind fun p => (Cc.of? (x.d % 8)).bind fun c => (bool? (x.m)).map fun u => .scmp h p c (fr 64 (x.a)) (fr 64 (x.b)) u
  | 0x0C => (fin? 256 ((x.b * 4 + x.m))).map fun i => .saddi h (fr 64 (x.d)) (fr 64 (x.a)) i
  | 0x0D => (fin? 16384 ((x.a * 256 + x.b * 4 + x.m))).map fun i => .smovi h (fr 64 (x.d)) i
  | 0x0E => if (x.a * 256 + x.b * 4 + x.m) = 0 then some (.smovl h (fr 64 (x.d)) (BitVec.ofNat 32 lit)) else none
  | 0x0F => if x.b = 0 ∧ x.m = 0 then some (.smov h (fr 64 (x.d)) (fr 64 (x.a))) else none
  | 0x10 => (Sz.of? (x.b / 16)).map fun z => .sld h (fr 64 (x.d)) (fr 64 (x.a)) z (fr 64 ((x.b % 16 * 4 + x.m)))
  | 0x11 => (Sz.of? (x.b / 16)).map fun z => .sst h (fr 64 (x.d)) (fr 64 (x.a)) z (fr 64 ((x.b % 16 * 4 + x.m)))
  | 0x12 => (fin? 8 (x.a)).bind fun slot => (fin? 256 ((x.b * 4 + x.m))).map fun i => .argld h (fr 64 (x.d)) slot i
  | 0x13 => if x.m = 0 then (fin? 32 (x.b)).map fun lane => .vtos h (fr 64 (x.d)) (fr 64 (x.a)) lane else none
  | 0x14 => if x.m = 0 then (fin? 8 (x.d / 8)).bind fun p => (LogOp.of? (x.d % 8)).bind fun o => (fin? 8 (x.a)).bind fun a => (fin? 8 (x.b)).map fun b => .qlog h p o a b else none
  | 0x15 => (fin? 4 (x.m)).map fun n => .scsel h (fr 64 (x.d)) (fr 64 (x.a)) (fr 64 (x.b)) n
  | 0x16 => (bool? (x.m)).map fun s => .sbfx h (fr 64 (x.d)) (fr 64 (x.a)) (fr 64 (x.b)) s
  | 0x17 => if x.m = 0 then some (.spopc h (fr 64 (x.d)) (fr 64 (x.a)) (fr 64 (x.b))) else none
  | 0x18 => (fin? 1048576 ((x.d * 16384 + x.a * 256 + x.b * 4 + x.m))).map fun o => .ubra h o
  | 0x19 => (fin? 16384 ((x.a * 256 + x.b * 4 + x.m))).map fun i => .ucall h (fr 64 (x.d)) i
  | 0x1A => if x.d = 0 ∧ x.b = 0 ∧ x.m = 0 then some (.uret h (fr 64 (x.a))) else none
  | 0x1B => if x.d = 0 ∧ x.b = 0 ∧ x.m = 0 then some (.ujmpx h (fr 64 (x.a))) else none
  | 0x1C => (if x.d = 0 ∧ x.a = 0 ∧ x.b = 0 ∧ x.m = 0 then some (.exit h) else none) <|> (if x.d = 0 ∧ x.b = 0 ∧ x.m = 1 then some (.exitSucc h (fr 64 (x.a))) else none)
  | 0x1D => if x.d = 0 ∧ x.a = 0 ∧ x.b = 0 ∧ x.m = 0 then some (.yield h) else none
  | 0x1E => (if x.d / 2 % 8 = 0 ∧ x.d % 2 = 0 ∧ x.b = 0 ∧ x.m = 0 then (fin? 4 (x.d / 16)).map fun t => .waittl h t (fr 64 (x.a)) else none) <|> (if x.d % 2 = 0 ∧ x.m = 1 then (fin? 4 (x.d / 16)).bind fun t => (fin? 8 (x.d / 2 % 8)).map fun q => .waittlDl h t q (fr 64 (x.a)) (fr 64 (x.b)) else none)
  | 0x1F => if x.d = 0 ∧ x.b = 0 ∧ x.m = 0 then some (.sleep h (fr 64 (x.a))) else none
  | 0x20 => if x.d = 0 ∧ (x.a % 4 * 2 + x.b / 32) = 0 then (fin? 16 (x.a / 4)).bind fun n => (fin? 128 ((x.b % 32 * 4 + x.m))).map fun c => .bar h n c else none
  | 0x21 => if x.d = 0 ∧ (x.a % 4 * 2 + x.b / 32) = 0 then (fin? 16 (x.a / 4)).bind fun n => (fin? 128 ((x.b % 32 * 4 + x.m))).map fun c => .bara h n c else none
  | 0x22 => (fin? 16 (x.a / 4)).bind fun n => (fin? 8 ((x.a % 4 * 2 + x.b / 32))).bind fun q => (fin? 128 ((x.b % 32 * 4 + x.m))).map fun c => .bardl h (fr 64 (x.d)) n q c
  | 0x23 => if x.b = 0 ∧ x.m = 0 then some (.tktake h (fr 64 (x.d)) (fr 64 (x.a))) else none
  | 0x24 => if x.d = 0 ∧ x.b = 0 ∧ x.m = 0 then some (.tkserve h (fr 64 (x.a))) else none
  | 0x25 => if x.d = 0 ∧ x.m = 0 then some (.tkwait h (fr 64 (x.a)) (fr 64 (x.b))) else none
  | 0x26 => if x.d = 0 ∧ x.a = 0 ∧ x.b = 0 then (Scope.of? (x.m)).map fun sc => .fence h sc else none
  | 0x27 => if x.b = 0 ∧ x.m = 0 then some (.launchq h (fr 64 (x.d)) (fr 64 (x.a))) else none
  | _ => none

/-- Uniform opcodes 0x28 to 0x3F (R222, R224). -/
def uniB (x : Raw) (_lit : Nat) (h : Hd) : Option Instr :=
  match x.op with
  | 0x28 => (if x.d / 16 = 0 ∧ x.b / 4 = 0 ∧ (x.b % 4 * 4 + x.m) = 0 then (fin? 16 (x.d % 16)).map fun n => .dsetD h n (fr 64 (x.a)) else none) <|> (if x.d / 16 = 1 ∧ (x.b % 4 * 4 + x.m) = 0 then (fin? 16 (x.d % 16)).bind fun n => (fin? 16 (x.b / 4)).map fun f => .dsetA h n (fr 64 (x.a)) f else none) <|> (if x.d / 16 = 2 ∧ x.b / 4 = 0 ∧ (x.b % 4 * 4 + x.m) = 0 then (fin? 4 (x.d % 16)).map fun n => .dsetTl h n (fr 64 (x.a)) else none)
  | 0x29 => (fin? 32 (x.d / 2)).bind fun d => (bool? (x.d % 2)).bind fun ns => (fin? 16 (x.a / 4)).bind fun ah => (fin? 16 ((x.a % 4 * 4 + x.b / 16))).bind fun da => (fin? 16 (x.b % 16)).bind fun db => (fin? 4 (x.m)).map fun t => .mma h d ns ah da db t
  | 0x2A => if (x.a % 8 * 2 + x.b / 32) = 0 ∧ x.b % 32 = 0 then (fin? 32 (x.d / 2)).bind fun d => (fin? 16 ((x.d % 2 * 8 + x.a / 8))).bind fun ah => (fin? 4 (x.m)).map fun t => .azero h d ah t else none
  | 0x2B => (fin? 32 (x.d / 2)).bind fun d => (fin? 16 ((x.d % 2 * 8 + x.a / 8))).bind fun ah => (fin? 16 ((x.a % 8 * 2 + x.b / 32))).bind fun dp => (Rm.of? (x.b % 32)).bind fun r => (fin? 4 (x.m)).map fun t => .astp h d ah dp r t
  | 0x2C => (fin? 32 (x.d / 2)).bind fun d => (fin? 16 ((x.d % 2 * 8 + x.a / 8))).bind fun ah => (fin? 16 ((x.a % 8 * 2 + x.b / 32))).bind fun dp => (bool? (x.b % 32)).bind fun add => (fin? 4 (x.m)).map fun t => .aldp h d ah dp add t
  | 0x2D => (fin? 32 (x.d / 2)).bind fun d => (fin? 16 ((x.d % 2 * 8 + x.a / 8))).bind fun ah => (fin? 16 ((x.a % 8 * 2 + x.b / 32))).bind fun dp => (RowOp.of? (x.b % 32)).bind fun o => (fin? 4 (x.m)).map fun t => .arow h d ah dp o t
  | 0x2E => (fin? 32 (x.d / 2)).bind fun d => (fin? 16 ((x.d % 2 * 8 + x.a / 8))).bind fun ah => (fin? 16 ((x.a % 8 * 2 + x.b / 32))).bind fun dp => (bool? (x.b % 32)).bind fun colB => (fin? 4 (x.m)).map fun t => .scld h d ah dp colB t
  | 0x2F => if x.b % 8 = 0 then (fin? 32 (x.d / 2)).bind fun d => (fin? 16 ((x.d % 2 * 8 + x.a / 8))).bind fun dp => (fin? 4 (x.m)).map fun t => .copy h d dp (fr 64 ((x.a % 8 * 8 + x.b / 8))) t else none
  | 0x30 => if x.b % 8 = 0 then (fin? 32 (x.d / 2)).bind fun d => (fin? 16 ((x.d % 2 * 8 + x.a / 8))).bind fun dp => (fin? 4 (x.m)).map fun t => .copym h d dp (fr 64 ((x.a % 8 * 8 + x.b / 8))) t else none
  | 0x31 => if x.b % 8 = 0 then (fin? 32 (x.d / 2)).bind fun d => (fin? 16 ((x.d % 2 * 8 + x.a / 8))).bind fun dp => (fin? 4 (x.m)).map fun t => .copyo h d dp (fr 64 ((x.a % 8 * 8 + x.b / 8))) t else none
  | 0x32 => if x.b % 8 = 0 then (fin? 32 (x.d / 2)).bind fun d => (fin? 16 ((x.d % 2 * 8 + x.a / 8))).bind fun dp => (fin? 4 (x.m)).map fun t => .gather h d dp (fr 64 ((x.a % 8 * 8 + x.b / 8))) t else none
  | 0x33 => if (x.a % 2 * 64 + x.b) = 0 then (fin? 32 (x.d / 2)).bind fun d => (fin? 4 (x.m)).map fun t => .coll h d (fr 64 ((x.d % 2 * 32 + x.a / 2))) t else none
  | 0x34 => if x.a = 0 ∧ x.b = 0 then (fin? 4 (x.m)).map fun t => .tlread h (fr 64 (x.d)) t else none
  | 0x35 => if (x.d % 2 * 4096 + x.a * 64 + x.b) = 0 then (fin? 32 (x.d / 2)).bind fun d => (fin? 4 (x.m)).map fun t => .tlsig h d t else none
  | 0x36 => if x.b = 0 then (fin? 4 (x.m)).map fun t => .engst h (fr 64 (x.d)) (fr 64 (x.a)) t else none
  | 0x37 => (Rm.of? (x.b % 32 % 4)).bind fun rm => (bool? (x.b % 32 / 4)).map fun tr => .pswz h (fr 32 (x.d / 2)) (fr 16 (x.d % 2 * 8 + x.a / 8)) (fr 16 (x.a % 8 * 2 + x.b / 32)) rm tr (fr 4 x.m)
  | 0x38 => (bool? (x.d / 32)).bind fun hi => (fin? 32 (x.d % 32)).bind fun s => (fin? 16384 ((x.a * 256 + x.b * 4 + x.m))).map fun i => .mfsr h hi s i
  | 0x39 => (bool? (x.d / 32)).bind fun hi => (fin? 32 (x.d % 32)).bind fun s => (fin? 16384 ((x.a * 256 + x.b * 4 + x.m))).map fun i => .mtsr h hi s i
  | 0x3A => (if x.d = 0 ∧ x.m = 0 then some (.tlbinvPage h (fr 64 (x.a)) (fr 64 (x.b))) else none) <|> (if x.d = 1 ∧ x.a = 0 ∧ x.m = 0 then some (.tlbinvAsid h (fr 64 (x.b))) else none) <|> (if x.d = 2 ∧ x.b = 0 ∧ x.m = 0 then some (.tlbinvCtx h (fr 64 (x.a))) else none)
  | 0x3B => if x.b = 0 ∧ x.m = 0 then some (.ctxfl h (fr 64 (x.d)) (fr 64 (x.a))) else none
  | 0x3C => (if x.b = 0 then (bool? (x.m)).map fun launch => .haltbHalt h (fr 64 (x.d)) (fr 64 (x.a)) launch else none) <|> (if x.b = 0 then (bool2? (x.m)).map fun launch => .haltbRelease h (fr 64 (x.d)) (fr 64 (x.a)) launch else none)
  | 0x3D => if x.m = 0 then (fin? 7 (x.b)).map fun e => .engrst h (fr 64 (x.d)) (fr 64 (x.a)) e else none
  | 0x3E => (if x.b = 0 ∧ x.m = 0 then some (.keyopSet h (fr 64 (x.d)) (fr 64 (x.a))) else none) <|> (if x.b = 1 ∧ x.m = 0 then some (.keyopBump h (fr 64 (x.d)) (fr 64 (x.a))) else none) <|> (if x.b = 2 ∧ x.m = 0 then some (.keyopClear h (fr 64 (x.d)) (fr 64 (x.a))) else none) <|> (if x.b = 3 ∧ x.m = 0 then some (.keyopNewkey h (fr 64 (x.d)) (fr 64 (x.a))) else none)
  | 0x3F => if x.m = 0 then (fin? 8 (x.b)).map fun slot => .svcall h (fr 64 (x.d)) (fr 64 (x.a)) slot else none
  | _ => none

/-- The instruction of given fields, before the checks of `Instr.wf`. -/
def ofRaw (r : Raw) (lit : Nat) : Option Instr :=
  let h : Hd := ⟨r.sw == 1, fr 8 r.g⟩
  if r.set = 0 then
    if r.op < 0x20 then laneA r lit h else if r.op < 0x40 then laneB r lit h else laneC r lit h
  else if r.op < 0x28 then uniA r lit h else uniB r lit h

/-- The instruction of a word and the word that follows it; none for a word that R225 gives the fate ILLOP. -/
def decodeWord (w lit : Nat) : Option Instr :=
  match ofRaw (rawOf w) lit with
  | some i => if i.wf then some i else none
  | none => none

/-- MOVL and SMOVL take the word that follows (R219). -/
def Instr.twoWords : Instr → Bool
  | .movl .. | .smovl .. => true
  | _ => false

/-- Whether a word is one of MOVL or SMOVL, whose literal is fetched with it (R219, R226). -/
def wordHasLiteral (w : Nat) : Bool :=
  match decodeWord w 0 with
  | some i => i.twoWords
  | none => false

/-- The little-endian word that bytes begin with. -/
def word4 : List Byte → Option (Nat × List Byte)
  | a :: b :: c :: d :: rest => some (a.toNat + b.toNat * 256 + c.toNat * 65536 + d.toNat * 16777216, rest)
  | _ => none

/-- The instruction that a list of bytes begins with, and the bytes after it. -/
def decodeBytes (bs : List Byte) : Option (Instr × List Byte) :=
  match word4 bs with
  | none => none
  | some (w, rest) =>
    match decodeWord w 0 with
    | none => none
    | some i =>
      if i.twoWords then
        match word4 rest with
        | none => none
        | some (l, rest') => (decodeWord w l).map fun j => (j, rest')
      else some (i, rest)

/-- The fields of an encoded instruction, with the literal; none for an event, which has no encoding. -/
def toRaw : Instr → Option (Raw × Nat)
  | .iadd h d a b m => some (⟨0, h.sw.toNat, 0x00, h.g, d.val, a.val, b.val, m.code⟩, 0)
  | .isub h d a b m => some (⟨0, h.sw.toNat, 0x01, h.g, d.val, a.val, b.val, m.code⟩, 0)
  | .imul h d a b => some (⟨0, h.sw.toNat, 0x02, h.g, d.val, a.val, b.val, 0⟩, 0)
  | .imulh h d a b u => some (⟨0, h.sw.toNat, 0x03, h.g, d.val, a.val, b.val, u.toNat⟩, 0)
  | .imad h d a b => some (⟨0, h.sw.toNat, 0x04, h.g, d.val, a.val, b.val, 0⟩, 0)
  | .imin h d a b u => some (⟨0, h.sw.toNat, 0x05, h.g, d.val, a.val, b.val, u.toNat⟩, 0)
  | .imax h d a b u => some (⟨0, h.sw.toNat, 0x06, h.g, d.val, a.val, b.val, u.toNat⟩, 0)
  | .iabs h d a sat => some (⟨0, h.sw.toNat, 0x07, h.g, d.val, a.val, 0, sat.toNat⟩, 0)
  | .and h d a b => some (⟨0, h.sw.toNat, 0x08, h.g, d.val, a.val, b.val, 0⟩, 0)
  | .or h d a b => some (⟨0, h.sw.toNat, 0x09, h.g, d.val, a.val, b.val, 0⟩, 0)
  | .xor h d a b => some (⟨0, h.sw.toNat, 0x0A, h.g, d.val, a.val, b.val, 0⟩, 0)
  | .andn h d a b => some (⟨0, h.sw.toNat, 0x0B, h.g, d.val, a.val, b.val, 0⟩, 0)
  | .shl h d a b => some (⟨0, h.sw.toNat, 0x0C, h.g, d.val, a.val, b.val, 0⟩, 0)
  | .shr h d a b => some (⟨0, h.sw.toNat, 0x0D, h.g, d.val, a.val, b.val, 0⟩, 0)
  | .sar h d a b => some (⟨0, h.sw.toNat, 0x0E, h.g, d.val, a.val, b.val, 0⟩, 0)
  | .rotl h d a b => some (⟨0, h.sw.toNat, 0x0F, h.g, d.val, a.val, b.val, 0⟩, 0)
  | .popc h d a => some (⟨0, h.sw.toNat, 0x10, h.g, d.val, a.val, 0, 0⟩, 0)
  | .clz h d a => some (⟨0, h.sw.toNat, 0x11, h.g, d.val, a.val, 0, 0⟩, 0)
  | .brev h d a => some (⟨0, h.sw.toNat, 0x12, h.g, d.val, a.val, 0, 0⟩, 0)
  | .bfx h d a b s => some (⟨0, h.sw.toNat, 0x13, h.g, d.val, a.val, b.val, s.toNat⟩, 0)
  | .bfi h d a b => some (⟨0, h.sw.toNat, 0x14, h.g, d.val, a.val, b.val, 0⟩, 0)
  | .sel h d a b n => some (⟨0, h.sw.toNat, 0x15, h.g, d.val, a.val, b.val, n.val⟩, 0)
  | .icmp h p c a b u => some (⟨0, h.sw.toNat, 0x16, h.g, p.val * 8 + c.code, a.val, b.val, u.toNat⟩, 0)
  | .lea h d a b n => some (⟨0, h.sw.toNat, 0x17, h.g, d.val, a.val, b.val, n.val⟩, 0)
  | .iaddi h d a i => some (⟨0, h.sw.toNat, 0x18, h.g, d.val, a.val, i.val / 4, i.val % 4⟩, 0)
  | .imuli h d a i => some (⟨0, h.sw.toNat, 0x19, h.g, d.val, a.val, i.val / 4, i.val % 4⟩, 0)
  | .andi h d a i => some (⟨0, h.sw.toNat, 0x1A, h.g, d.val, a.val, i.val / 4, i.val % 4⟩, 0)
  | .ori h d a i => some (⟨0, h.sw.toNat, 0x1B, h.g, d.val, a.val, i.val / 4, i.val % 4⟩, 0)
  | .xori h d a i => some (⟨0, h.sw.toNat, 0x1C, h.g, d.val, a.val, i.val / 4, i.val % 4⟩, 0)
  | .shli h d a i => some (⟨0, h.sw.toNat, 0x1D, h.g, d.val, a.val, i.val / 4, i.val % 4⟩, 0)
  | .shri h d a i => some (⟨0, h.sw.toNat, 0x1E, h.g, d.val, a.val, i.val / 4, i.val % 4⟩, 0)
  | .sari h d a i => some (⟨0, h.sw.toNat, 0x1F, h.g, d.val, a.val, i.val / 4, i.val % 4⟩, 0)
  | .movi h d i => some (⟨0, h.sw.toNat, 0x20, h.g, d.val, i.val / 256, i.val / 4 % 64, i.val % 4⟩, 0)
  | .movl h d lit => some (⟨0, h.sw.toNat, 0x21, h.g, d.val, 0 / 256, 0 / 4 % 64, 0 % 4⟩, lit.toNat)
  | .mov h d a => some (⟨0, h.sw.toNat, 0x22, h.g, d.val, a.val, 0, 0⟩, 0)
  | .movs h d a => some (⟨0, h.sw.toNat, 0x23, h.g, d.val, a.val, 0, 0⟩, 0)
  | .plog h p o a b => some (⟨0, h.sw.toNat, 0x24, h.g, p.val * 8 + o.code, a.val, b.val, 0⟩, 0)
  | .psetv h p a => some (⟨0, h.sw.toNat, 0x25, h.g, p.val * 8 + 0, a.val, 0, 0⟩, 0)
  | .pgetv h d a m => some (⟨0, h.sw.toNat, 0x26, h.g, d.val, a.val, 0, m.toNat⟩, 0)
  | .icmpi h p c a i => some (⟨0, h.sw.toNat, 0x27, h.g, p.val * 8 + c.code, a.val, i.val / 4, i.val % 4⟩, 0)
  | .fadd h d a b m => some (⟨0, h.sw.toNat, 0x28, h.g, d.val, a.val, b.val, m.code⟩, 0)
  | .fsub h d a b m => some (⟨0, h.sw.toNat, 0x29, h.g, d.val, a.val, b.val, m.code⟩, 0)
  | .fmul h d a b m => some (⟨0, h.sw.toNat, 0x2A, h.g, d.val, a.val, b.val, m.code⟩, 0)
  | .fmac h d a b m => some (⟨0, h.sw.toNat, 0x2B, h.g, d.val, a.val, b.val, m.code⟩, 0)
  | .fmin h d a b => some (⟨0, h.sw.toNat, 0x2C, h.g, d.val, a.val, b.val, 0⟩, 0)
  | .fmax h d a b => some (⟨0, h.sw.toNat, 0x2D, h.g, d.val, a.val, b.val, 0⟩, 0)
  | .fcmp h p c a b => some (⟨0, h.sw.toNat, 0x2E, h.g, p.val * 8 + c.code, a.val, b.val, 0⟩, 0)
  | .fsgn h d a b o => some (⟨0, h.sw.toNat, 0x2F, h.g, d.val, a.val, b.val, o.code⟩, 0)
  | .frcp h d a => some (⟨0, h.sw.toNat, 0x30, h.g, d.val, a.val, 0, 0⟩, 0)
  | .frsq h d a => some (⟨0, h.sw.toNat, 0x31, h.g, d.val, a.val, 0, 0⟩, 0)
  | .fsqrt h d a m => some (⟨0, h.sw.toNat, 0x32, h.g, d.val, a.val, 0, m.code⟩, 0)
  | .fdiv h d a b m => some (⟨0, h.sw.toNat, 0x33, h.g, d.val, a.val, b.val, m.code⟩, 0)
  | .log2 h d a m => some (⟨0, h.sw.toNat, 0x34, h.g, d.val, a.val, 0, m.code⟩, 0)
  | .exp2 h d a m => some (⟨0, h.sw.toNat, 0x35, h.g, d.val, a.val, 0, m.code⟩, 0)
  | .fclass h d a => some (⟨0, h.sw.toNat, 0x36, h.g, d.val, a.val, 0, 0⟩, 0)
  | .cvt h d a o m => some (⟨0, h.sw.toNat, 0x37, h.g, d.val, a.val, o.code, m.code⟩, 0)
  | .hadd2 h d a b m => some (⟨0, h.sw.toNat, 0x38, h.g, d.val, a.val, b.val, m.code⟩, 0)
  | .hmul2 h d a b m => some (⟨0, h.sw.toNat, 0x39, h.g, d.val, a.val, b.val, m.code⟩, 0)
  | .hmac2 h d a b m => some (⟨0, h.sw.toNat, 0x3A, h.g, d.val, a.val, b.val, m.code⟩, 0)
  | .fmaxx h d a b => some (⟨0, h.sw.toNat, 0x3B, h.g, d.val, a.val, b.val, 0⟩, 0)
  | .cvtl6 h d a b => some (⟨0, h.sw.toNat, 0x3C, h.g, d.val, a.val, b.val, 0⟩, 0)
  | .cvtf8 h d a o m => some (⟨0, h.sw.toNat, 0x3D, h.g, d.val, a.val, o.code, m.code⟩, 0)
  | .sclx h d a o m => some (⟨0, h.sw.toNat, 0x3E, h.g, d.val, a.val, o.code, m.code⟩, 0)
  | .rand h d a b u => some (⟨0, h.sw.toNat, 0x3F, h.g, d.val, a.val, b.val, u.toNat⟩, 0)
  | .ld h d a z o => some (⟨0, h.sw.toNat, 0x40, h.g, d.val, a.val, z.code * 16 + o.val / 4, o.val % 4⟩, 0)
  | .st h d a z o => some (⟨0, h.sw.toNat, 0x41, h.g, d.val, a.val, z.code * 16 + o.val / 4, o.val % 4⟩, 0)
  | .ldacq h d a z sc => some (⟨0, h.sw.toNat, 0x42, h.g, d.val, a.val, z.code * 16 + (sc.code * 16) / 4, (sc.code * 16) % 4⟩, 0)
  | .strel h d a z sc => some (⟨0, h.sw.toNat, 0x43, h.g, d.val, a.val, z.code * 16 + (sc.code * 16) / 4, (sc.code * 16) % 4⟩, 0)
  | .lds h d a z o => some (⟨0, h.sw.toNat, 0x44, h.g, d.val, a.val, z.code * 16 + o.val / 4, o.val % 4⟩, 0)
  | .sts h d a z o => some (⟨0, h.sw.toNat, 0x45, h.g, d.val, a.val, z.code * 16 + o.val / 4, o.val % 4⟩, 0)
  | .ldl h d a z o => some (⟨0, h.sw.toNat, 0x46, h.g, d.val, a.val, z.code * 16 + o.val / 4, o.val % 4⟩, 0)
  | .stl h d a z o => some (⟨0, h.sw.toNat, 0x47, h.g, d.val, a.val, z.code * 16 + o.val / 4, o.val % 4⟩, 0)
  | .atadd h sc r v a b o => some (⟨0, h.sw.toNat, 0x48, h.g, sc.code * 16 + r.toNat * 8 + v.code, a.val, b.val, o.code⟩, 0)
  | .atmax h sc r v a b o => some (⟨0, h.sw.toNat, 0x49, h.g, sc.code * 16 + r.toNat * 8 + v.code, a.val, b.val, o.code⟩, 0)
  | .atexch h sc v a b o => some (⟨0, h.sw.toNat, 0x4A, h.g, sc.code * 16 + 1 * 8 + v.code, a.val, b.val, o.code⟩, 0)
  | .atcas h sc v a b o => some (⟨0, h.sw.toNat, 0x4B, h.g, sc.code * 16 + 1 * 8 + v.code, a.val, b.val, o.code⟩, 0)
  | .atlog h sc r v a b o => some (⟨0, h.sw.toNat, 0x4C, h.g, sc.code * 16 + r.toNat * 8 + v.code, a.val, b.val, o.code⟩, 0)
  | .atadds h cn r f a b o => some (⟨0, h.sw.toNat, 0x4D, h.g, cn.toNat * 16 + r.toNat * 8 + f.toNat, a.val, b.val, o.code⟩, 0)
  | .atcass h cn a b o => some (⟨0, h.sw.toNat, 0x4E, h.g, cn.toNat * 16 + 1 * 8 + 0, a.val, b.val, o.code⟩, 0)
  | .pref h a z o => some (⟨0, h.sw.toNat, 0x4F, h.g, 0, a.val, z.code * 16 + o.val / 4, o.val % 4⟩, 0)
  | .shfl h d a b o => some (⟨0, h.sw.toNat, 0x50, h.g, d.val, a.val, b.val, o.code⟩, 0)
  | .vote h d a o => some (⟨0, h.sw.toNat, 0x51, h.g, d, a, o.selB, o.selM⟩, 0)
  | .redl h d a o m => some (⟨0, h.sw.toNat, 0x52, h.g, d.val, a.val, o.code, m.code⟩, 0)
  | .scanl h d a o ex m => some (⟨0, h.sw.toNat, 0x53, h.g, d, a, ex.toNat * 32 + o.code, m.code⟩, 0)
  | .widx h d f hi => some (⟨0, h.sw.toNat, 0x54, h.g, d, 0, (f.val + hi.toNat * 8) / 4, (f.val + hi.toNat * 8) % 4⟩, 0)
  | .ownq h d o => some (⟨0, h.sw.toNat, 0x55, h.g, d.val, 0, 0, o.code⟩, 0)
  | .bra h o => some (⟨0, h.sw.toNat, 0x56, h.g, o.val / 16384, o.val / 256 % 64, o.val / 4 % 64, o.val % 4⟩, 0)
  | .brx h a => some (⟨0, h.sw.toNat, 0x57, h.g, 0, a.val, 0, 0⟩, 0)
  | .call h d i => some (⟨0, h.sw.toNat, 0x58, h.g, d.val, i.val / 256, i.val / 4 % 64, i.val % 4⟩, 0)
  | .ret h a => some (⟨0, h.sw.toNat, 0x59, h.g, 0, a.val, 0, 0⟩, 0)
  | .recon h => some (⟨0, h.sw.toNat, 0x5A, h.g, 0, 0, 0, 0⟩, 0)
  | .lexit h => some (⟨0, h.sw.toNat, 0x5B, h.g, 0, 0, 0, 0⟩, 0)
  | .trap h i => some (⟨0, h.sw.toNat, 0x5C, h.g, 0, i.val / 256, i.val / 4 % 64, i.val % 4⟩, 0)
  | .nop h => some (⟨0, h.sw.toNat, 0x5D, h.g, 0, 0, 0, 0⟩, 0)
  | .bkpt h i => some (⟨0, h.sw.toNat, 0x5E, h.g, 0, i.val / 256, i.val / 4 % 64, i.val % 4⟩, 0)
  | .spinh h => some (⟨0, h.sw.toNat, 0x5F, h.g, 0, 0, 0, 0⟩, 0)
  | .sadd h d a b m => some (⟨1, h.sw.toNat, 0x00, h.g, d.val, a.val, b.val, m.code⟩, 0)
  | .ssub h d a b m => some (⟨1, h.sw.toNat, 0x01, h.g, d.val, a.val, b.val, m.code⟩, 0)
  | .smul h d a b m => some (⟨1, h.sw.toNat, 0x02, h.g, d.val, a.val, b.val, m.code⟩, 0)
  | .sand h d a b => some (⟨1, h.sw.toNat, 0x03, h.g, d.val, a.val, b.val, 0⟩, 0)
  | .sor h d a b => some (⟨1, h.sw.toNat, 0x04, h.g, d.val, a.val, b.val, 0⟩, 0)
  | .sxor h d a b => some (⟨1, h.sw.toNat, 0x05, h.g, d.val, a.val, b.val, 0⟩, 0)
  | .sshl h d a b => some (⟨1, h.sw.toNat, 0x06, h.g, d.val, a.val, b.val, 0⟩, 0)
  | .sshr h d a b => some (⟨1, h.sw.toNat, 0x07, h.g, d.val, a.val, b.val, 0⟩, 0)
  | .ssar h d a b => some (⟨1, h.sw.toNat, 0x08, h.g, d.val, a.val, b.val, 0⟩, 0)
  | .smin h d a b u => some (⟨1, h.sw.toNat, 0x09, h.g, d.val, a.val, b.val, u.toNat⟩, 0)
  | .smax h d a b u => some (⟨1, h.sw.toNat, 0x0A, h.g, d.val, a.val, b.val, u.toNat⟩, 0)
  | .scmp h p c a b u => some (⟨1, h.sw.toNat, 0x0B, h.g, p.val * 8 + c.code, a.val, b.val, u.toNat⟩, 0)
  | .saddi h d a i => some (⟨1, h.sw.toNat, 0x0C, h.g, d.val, a.val, i.val / 4, i.val % 4⟩, 0)
  | .smovi h d i => some (⟨1, h.sw.toNat, 0x0D, h.g, d.val, i.val / 256, i.val / 4 % 64, i.val % 4⟩, 0)
  | .smovl h d lit => some (⟨1, h.sw.toNat, 0x0E, h.g, d.val, 0 / 256, 0 / 4 % 64, 0 % 4⟩, lit.toNat)
  | .smov h d a => some (⟨1, h.sw.toNat, 0x0F, h.g, d.val, a.val, 0, 0⟩, 0)
  | .sld h d a z o => some (⟨1, h.sw.toNat, 0x10, h.g, d.val, a.val, z.code * 16 + o.val / 4, o.val % 4⟩, 0)
  | .sst h d a z o => some (⟨1, h.sw.toNat, 0x11, h.g, d.val, a.val, z.code * 16 + o.val / 4, o.val % 4⟩, 0)
  | .argld h d slot i => some (⟨1, h.sw.toNat, 0x12, h.g, d.val, slot.val, i.val / 4, i.val % 4⟩, 0)
  | .vtos h d a lane => some (⟨1, h.sw.toNat, 0x13, h.g, d.val, a.val, lane.val, 0⟩, 0)
  | .qlog h p o a b => some (⟨1, h.sw.toNat, 0x14, h.g, p.val * 8 + o.code, a.val, b.val, 0⟩, 0)
  | .scsel h d a b n => some (⟨1, h.sw.toNat, 0x15, h.g, d.val, a.val, b.val, n.val⟩, 0)
  | .sbfx h d a b s => some (⟨1, h.sw.toNat, 0x16, h.g, d.val, a.val, b.val, s.toNat⟩, 0)
  | .spopc h d a b => some (⟨1, h.sw.toNat, 0x17, h.g, d.val, a.val, b.val, 0⟩, 0)
  | .ubra h o => some (⟨1, h.sw.toNat, 0x18, h.g, o.val / 16384, o.val / 256 % 64, o.val / 4 % 64, o.val % 4⟩, 0)
  | .ucall h d i => some (⟨1, h.sw.toNat, 0x19, h.g, d.val, i.val / 256, i.val / 4 % 64, i.val % 4⟩, 0)
  | .uret h a => some (⟨1, h.sw.toNat, 0x1A, h.g, 0, a.val, 0, 0⟩, 0)
  | .ujmpx h a => some (⟨1, h.sw.toNat, 0x1B, h.g, 0, a.val, 0, 0⟩, 0)
  | .exit h => some (⟨1, h.sw.toNat, 0x1C, h.g, 0, 0, 0, 0⟩, 0)
  | .exitSucc h a => some (⟨1, h.sw.toNat, 0x1C, h.g, 0, a.val, 0, 1⟩, 0)
  | .yield h => some (⟨1, h.sw.toNat, 0x1D, h.g, 0, 0, 0, 0⟩, 0)
  | .waittl h t a => some (⟨1, h.sw.toNat, 0x1E, h.g, t.val * 16 + 0 * 2 + 0, a.val, 0, 0⟩, 0)
  | .waittlDl h t q a b => some (⟨1, h.sw.toNat, 0x1E, h.g, t.val * 16 + q.val * 2 + 0, a.val, b.val, 1⟩, 0)
  | .sleep h a => some (⟨1, h.sw.toNat, 0x1F, h.g, 0, a.val, 0, 0⟩, 0)
  | .bar h n c => some (⟨1, h.sw.toNat, 0x20, h.g, 0, n.val * 4 + 0 / 2, 0 % 2 * 32 + c.val / 4, c.val % 4⟩, 0)
  | .bara h n c => some (⟨1, h.sw.toNat, 0x21, h.g, 0, n.val * 4 + 0 / 2, 0 % 2 * 32 + c.val / 4, c.val % 4⟩, 0)
  | .bardl h e n q c => some (⟨1, h.sw.toNat, 0x22, h.g, e.val, n.val * 4 + q.val / 2, q.val % 2 * 32 + c.val / 4, c.val % 4⟩, 0)
  | .tktake h d a => some (⟨1, h.sw.toNat, 0x23, h.g, d.val, a.val, 0, 0⟩, 0)
  | .tkserve h a => some (⟨1, h.sw.toNat, 0x24, h.g, 0, a.val, 0, 0⟩, 0)
  | .tkwait h a b => some (⟨1, h.sw.toNat, 0x25, h.g, 0, a.val, b.val, 0⟩, 0)
  | .fence h sc => some (⟨1, h.sw.toNat, 0x26, h.g, 0, 0, 0, sc.code⟩, 0)
  | .launchq h d a => some (⟨1, h.sw.toNat, 0x27, h.g, d.val, a.val, 0, 0⟩, 0)
  | .dsetD h n b => some (⟨1, h.sw.toNat, 0x28, h.g, 0 * 16 + n.val, b.val, 0 * 4 + 0 / 4, 0 % 4⟩, 0)
  | .dsetA h n b f => some (⟨1, h.sw.toNat, 0x28, h.g, 1 * 16 + n.val, b.val, f.val * 4 + 0 / 4, 0 % 4⟩, 0)
  | .dsetTl h n b => some (⟨1, h.sw.toNat, 0x28, h.g, 2 * 16 + n.val, b.val, 0 * 4 + 0 / 4, 0 % 4⟩, 0)
  | .mma h d ns ah da db t => some (⟨1, h.sw.toNat, 0x29, h.g, d.val * 2 + ns.toNat, ah.val * 4 + da.val / 4, da.val % 4 * 16 + db.val, t.val⟩, 0)
  | .azero h d ah t => some (⟨1, h.sw.toNat, 0x2A, h.g, d.val * 2 + ah.val / 8, ah.val % 8 * 8 + 0 / 2, 0 % 2 * 32 + 0, t.val⟩, 0)
  | .astp h d ah dp r t => some (⟨1, h.sw.toNat, 0x2B, h.g, d.val * 2 + ah.val / 8, ah.val % 8 * 8 + dp.val / 2, dp.val % 2 * 32 + r.code, t.val⟩, 0)
  | .aldp h d ah dp add t => some (⟨1, h.sw.toNat, 0x2C, h.g, d.val * 2 + ah.val / 8, ah.val % 8 * 8 + dp.val / 2, dp.val % 2 * 32 + add.toNat, t.val⟩, 0)
  | .arow h d ah dp o t => some (⟨1, h.sw.toNat, 0x2D, h.g, d.val * 2 + ah.val / 8, ah.val % 8 * 8 + dp.val / 2, dp.val % 2 * 32 + o.code, t.val⟩, 0)
  | .scld h d ah dp colB t => some (⟨1, h.sw.toNat, 0x2E, h.g, d.val * 2 + ah.val / 8, ah.val % 8 * 8 + dp.val / 2, dp.val % 2 * 32 + colB.toNat, t.val⟩, 0)
  | .copy h d dp a t => some (⟨1, h.sw.toNat, 0x2F, h.g, d.val * 2 + dp.val / 8, dp.val % 8 * 8 + a.val / 8, a.val % 8 * 8 + 0, t.val⟩, 0)
  | .copym h d dp a t => some (⟨1, h.sw.toNat, 0x30, h.g, d.val * 2 + dp.val / 8, dp.val % 8 * 8 + a.val / 8, a.val % 8 * 8 + 0, t.val⟩, 0)
  | .copyo h d dp a t => some (⟨1, h.sw.toNat, 0x31, h.g, d.val * 2 + dp.val / 8, dp.val % 8 * 8 + a.val / 8, a.val % 8 * 8 + 0, t.val⟩, 0)
  | .gather h d dp a t => some (⟨1, h.sw.toNat, 0x32, h.g, d.val * 2 + dp.val / 8, dp.val % 8 * 8 + a.val / 8, a.val % 8 * 8 + 0, t.val⟩, 0)
  | .coll h d a t => some (⟨1, h.sw.toNat, 0x33, h.g, d.val * 2 + a.val / 32, a.val % 32 * 2 + 0 / 64, 0 % 64, t.val⟩, 0)
  | .tlread h d t => some (⟨1, h.sw.toNat, 0x34, h.g, d.val, 0, 0, t.val⟩, 0)
  | .tlsig h d t => some (⟨1, h.sw.toNat, 0x35, h.g, d.val * 2 + 0 / 4096, 0 / 64 % 64, 0 % 64, t.val⟩, 0)
  | .engst h d a t => some (⟨1, h.sw.toNat, 0x36, h.g, d.val, a.val, 0, t.val⟩, 0)
  | .pswz h d ah dp rm tr t => some (⟨1, h.sw.toNat, 0x37, h.g, d.val * 2 + ah.val / 8, ah.val % 8 * 8 + dp.val / 2, dp.val % 2 * 32 + (tr.toNat * 4 + rm.code), t⟩, 0)
  | .mfsr h hi s i => some (⟨1, h.sw.toNat, 0x38, h.g, hi.toNat * 32 + s.val, i.val / 256, i.val / 4 % 64, i.val % 4⟩, 0)
  | .mtsr h hi s i => some (⟨1, h.sw.toNat, 0x39, h.g, hi.toNat * 32 + s.val, i.val / 256, i.val / 4 % 64, i.val % 4⟩, 0)
  | .tlbinvPage h a b => some (⟨1, h.sw.toNat, 0x3A, h.g, 0, a.val, b.val, 0⟩, 0)
  | .tlbinvAsid h b => some (⟨1, h.sw.toNat, 0x3A, h.g, 1, 0, b.val, 0⟩, 0)
  | .tlbinvCtx h a => some (⟨1, h.sw.toNat, 0x3A, h.g, 2, a.val, 0, 0⟩, 0)
  | .ctxfl h d a => some (⟨1, h.sw.toNat, 0x3B, h.g, d.val, a.val, 0, 0⟩, 0)
  | .haltbHalt h d a launch => some (⟨1, h.sw.toNat, 0x3C, h.g, d.val, a.val, 0, launch.toNat⟩, 0)
  | .haltbRelease h d a launch => some (⟨1, h.sw.toNat, 0x3C, h.g, d.val, a.val, 0, (launch.toNat + 2)⟩, 0)
  | .engrst h d a e => some (⟨1, h.sw.toNat, 0x3D, h.g, d.val, a.val, e.val, 0⟩, 0)
  | .keyopSet h d a => some (⟨1, h.sw.toNat, 0x3E, h.g, d.val, a.val, 0, 0⟩, 0)
  | .keyopBump h d a => some (⟨1, h.sw.toNat, 0x3E, h.g, d.val, a.val, 1, 0⟩, 0)
  | .keyopClear h d a => some (⟨1, h.sw.toNat, 0x3E, h.g, d.val, a.val, 2, 0⟩, 0)
  | .keyopNewkey h d a => some (⟨1, h.sw.toNat, 0x3E, h.g, d.val, a.val, 3, 0⟩, 0)
  | .svcall h d a slot => some (⟨1, h.sw.toNat, 0x3F, h.g, d.val, a.val, slot.val, 0⟩, 0)
  | _ => none

/-- The words of an instruction. -/
def encode (i : Instr) : Option (List Nat) :=
  (toRaw i).map fun (r, lit) => if i.twoWords then [r.word, lit] else [r.word]

/-- The bytes of a word, lowest address first. -/
def bytes4 (w : Nat) : List Byte :=
  [BitVec.ofNat 8 w, BitVec.ofNat 8 (w / 256), BitVec.ofNat 8 (w / 65536), BitVec.ofNat 8 (w / 16777216)]

/-- The instruction whose bits, as spec/opcode_table.json numbers them, are w; bits above nbits are 0. -/
def decodeTableWord (nbits w : Nat) : Option Instr :=
  let v := w % 2 ^ nbits
  (decodeBytes (bytes4 v ++ bytes4 (v / 4294967296))).map (·.1)

end Sys2Proof
end

