-- ==== Sys2Proof/Machine/Operands.lean ====
section
/-! DEFINITION. Operand forms: guards, lanes that execute, immediates, addresses, and the units an instruction reads
(R40, R42, R170, R214 to R220). -/

namespace Sys2Proof.Machine

/-- The registers an instruction names: V, S, P and Q read, V written, deferred entries taken, and
the frame sectors of the handles read with the numbers of their registers (R40, R67, R220). -/
structure Uses where
  v : List Nat
  s : List Nat
  p : List Nat
  q : List Nat
  d : List Nat
  entries : Nat
  sect : List (Nat × Nat)
  deriving DecidableEq, Repr

/-- An instruction that names nothing. -/
def Uses.none : Uses := ⟨[], [], [], [], [], 0, []⟩

/-- The lanes of X whose lane guard is true (R40). -/
def lanesOn (c : Course) (h : Hd) (x : Mask) : Mask := x &&& getP c h.g.val

/-- Whether a uniform instruction's guard is true (R40). -/
def guardOn (c : Course) (h : Hd) : Bool := getQ c h.g.val

/-- A pair's register numbers. -/
def pairOf (r : Nat) : List Nat := [r, r + 1]

/-- The register numbers of an access of size z (R214). -/
def dataRegs (z : Sz) (r : Nat) : List Nat := if z = .b8 then pairOf r else [r]

/-- The bytes of a size code (R214). -/
def szBytes : Sz → Nat
  | .b1 => 1
  | .b2 => 2
  | .b4 => 4
  | .b8 => 8

/-- A signed immediate of n bits. -/
def immS (n v : Nat) : Word := sxImm n v

/-- An unsigned immediate. -/
def immU (v : Nat) : Word := BitVec.ofNat 32 v

/-- A 64-bit address with an offset added, modulo 2^64. -/
def addOff (a : Nat) (o : Int) : Nat := (((a : Int) + o) % 2 ^ 64).toNat

/-- A 32-bit offset with an offset added, modulo 2^32. -/
def addOff32 (a : Nat) (o : Int) : Nat := (((a : Int) + o) % 2 ^ 32).toNat

/-- The signed reading of a branch field in words, as a displacement in bytes modulo 2^32. -/
def branchOff (n v : Nat) : Word := sxImm n v * 4

/-- The low word of a number. -/
def loW (n : Nat) : Word := BitVec.ofNat 32 n

/-- The high word of a 64-bit number. -/
def hiW (n : Nat) : Word := BitVec.ofNat 32 (n / 2 ^ 32)

/-- The first poisoned unit among those that an instruction reads: the number of its register (R40, R164). -/
def poisonedUnit (c : Course) (u : Uses) : Option Nat :=
  match u.v.find? (poisV c) with
  | some r => some r
  | none => match u.s.find? fun r => poisSect c (sectS r) with
    | some r => some r
    | none => match u.p.find? fun r => r != 7 && poisSect c sectP with
      | some r => some r
      | none => match u.q.find? fun r => r != 7 && poisSect c sectQ with
        | some r => some r
        | none => (u.sect.find? fun x => poisSect c x.1).map (·.2)

/-- The sectors that an instruction reads for the owners of lanes, and for their status when it ranks or lists them (R40, R50, R51);
neither has a register number, so the VA of their POISON is a free value (log entry 6). -/
def ownSect (status : Bool) : List (Nat × Nat) :=
  (sectOwnv, (Config.noVa 0x20 0).toNat) :: (if status then [(sectStatus, (Config.noVa 0x20 1).toNat)] else [])

/-- The number of an owner-slot register: field f of slot s (R55). -/
def slotRegNo (s f : Nat) : Nat := 0x100 + 16 * s + f

/-- The frame sector of an owner-slot register (R52, R58). -/
def slotRegSect (s f : Nat) : Nat := sectSlot s (if 5 ≤ f then 1 else 0)

/-- The owner-slot registers that an instruction reads of one slot, as sectors with the registers' numbers (R40, R55). -/
def slotSects (s : Nat) (fs : List Nat) : List (Nat × Nat) := fs.map fun f => (slotRegSect s f, slotRegNo s f)

/-- The first poisoned register of those that an access reads of its owner's slot (R40, R52, R96). -/
def slotPoison (c : Course) (s : Nat) (fs : List Nat) : Option Nat :=
  (fs.find? fun f => poisSect c (slotRegSect s f)).map (slotRegNo s)

/-- What an access of a lane finds poisoned of the registers that say whose it is and where its segment lies: OWNV, which has no
register number (log entry 6), then its owner's slot (R40, R50, R96). -/
def lanePoison (c : Course) (k : Nat) (fs : List Nat) : Option Nat :=
  if poisSect c sectOwnv then some (Config.noVa 0x20 0).toNat else slotPoison c (own c k) fs

/-- The first V line that an instruction must wait for: one it names (R65), or at a switch marker one that a buffered result
will write, whose fill is part of the marker's wait (R67, log entry 61). -/
def missingLine (c : Course) (u : Uses) (marker : Bool) : Option Nat :=
  (u.v ++ u.d ++ (if marker then bufV c else [])).find? (missV c)

/-- The lanes that consume the sources of an instruction of R227, which reads them for every lane of X: the executing ones, or
all of X when none executes (R40, R229). -/
def readersAll (c : Course) (h : Hd) (x : Mask) : Mask := if lanesOn c h x = 0 then x else lanesOn c h x

/-- The lanes that consume the sources of an instruction that only executing lanes read, or a poisoned guard, which every lane
of X reads (R40, R250). -/
def readers (c : Course) (h : Hd) (x : Mask) : Mask :=
  if lanesOn c h x = 0 ∧ h.g.val ≠ 7 ∧ poisSect c sectP then x else lanesOn c h x

/-- The comparison relations on words (R214, R234). -/
def cmpRel (cc : Cc) (u : Bool) (a b : Word) : Bool :=
  let lt := if u then BitVec.ult a b else BitVec.slt a b
  match cc with
  | .eq => a == b
  | .ne => a != b
  | .lt => lt
  | .le => lt || a == b
  | .gt => !lt && a != b
  | .ge => !lt
  | .un => false

/-- PLOG and QLOG (R235). -/
def logRel (o : LogOp) (x y : Bool) : Bool :=
  match o with
  | .and => x && y
  | .or => x || y
  | .xor => x != y
  | .andn => x && !y
  | .orn => x || !y
  | .xnor => x == y
  | .not => !x

end Sys2Proof.Machine
end

