-- ==== Sys2Proof/Machine/Issue.lean ====
section
/-! DEFINITION. The issue rule: which course issues which word for which lanes (R144, R145), what every issue charges and
settles (R49, R52, R67), and the frames that lane and uniform instructions share (R227, R274). -/

namespace Sys2Proof.Machine

/-! Fetch (R96, R212, R219). -/

/-- A word fetched at a 48-bit PC under the code ASID, or the cause that stops the fetch; `matrix` marks R156's refusal. -/
structure Fetched where
  word : Xr Nat
  matrix : Option (Nat × Nat)
  deriving DecidableEq, Repr

/-- The word at a low PC of a course. -/
def fetchAt (e : Env) (w : W) (c : Course) (pc : Word) : Fetched :=
  let va := c.id.cbase.toNat + pc.toNat
  match translate e w c.id.part (slotWorld c 0) c.id.codeAsid va .fetch c.id.priv with
  | .fail x => ⟨.fail x, none⟩
  | .wait x => ⟨.wait x, none⟩
  | .ok l =>
    match placesRefused w (pcnOf w c.v.hcore) [(l, va, 4)] with
    | some (s, _) => ⟨.fail 0x16, some (pcnOf w c.v.hcore, s)⟩
    | none => match (placesCut w (pcnOf w c.v.hcore) [(l, va, 4)]).elim (readStop w l) fun _ => some 0x21 with
      | some x => ⟨.fail x, none⟩
      | none => match placesXoff w [(l, va, 4)] with
        | some n => ⟨.wait (.link n), none⟩
        | none => ⟨.ok (leNat (rdLocs e w (slotWorld c 0) l 4)), none⟩

/-- Whether a word's opcode is convergent: uniform 0x28 to 0x37, BAR, BARA, BARDL, EXIT, or RECON (R144). -/
def isConvergent (w : Nat) : Bool :=
  let op := bitsAt w 23 7
  if bitAt w 31 then (0x28 ≤ op && op ≤ 0x37) || op == 0x1C || op == 0x20 || op == 0x21 || op == 0x22 else op == 0x5A

/-- Whether the word at a PC is a convergent instruction; a PC that cannot be fetched names none. -/
def convergentAt (e : Env) (w : W) (c : Course) (pc : Word) : Bool :=
  match (fetchAt e w c pc).word with
  | .ok x => isConvergent x
  | _ => false

/-! Choosing the issue PC (R144, R145). -/

/-- What a course issues: the course, the PC, the lanes X, the lanes E - H and H, and the turn in force. -/
structure Sel where
  c : Course
  pc : Word
  x : Mask
  free : Mask
  held : Mask
  turn : Option Turn
  started : Bool
  deriving DecidableEq, Repr

/-- What a course's issue PC comes to: an issue, the convergence ILLOP over H, or nothing (R144). -/
inductive Pick where
  | go (s : Sel)
  | split (c : Course) (held : Mask)
  | nothing
  deriving DecidableEq, Repr

/-- The lowest LPC over lanes. -/
def minLpc (c : Course) (m : Mask) : Word :=
  ((mLanes m).map (lpc c)).foldl (fun (a : Word) b => if b < a then b else a) (BitVec.allOnes 32)

/-- The lanes of a mask at a PC. -/
def lanesAt (c : Course) (m : Mask) (pc : Word) : Mask := m &&& mkMask fun k => lpc c k == pc

/-- The lanes of E that stand at convergent instructions, by distinct PC. -/
def heldLanes (e : Env) (w : W) (c : Course) (en : Mask) : Mask :=
  let pcs := (((mLanes en).map (lpc c)).dedup).filter (convergentAt e w c)
  if pcs = [] then 0 else en &&& mkMask fun k => pcs.contains (lpc c k)

/-- A course's issue (R144): an active turn first, then the lowest PC or a lane that has waited 64 issues. -/
def pick (e : Env) (w : W) (c : Course) : Pick :=
  let en := liveM c
  let held := heldLanes e w c en
  let free := en &&& ~~~held
  let parked := lanesSt c 2
  let active := match c.k.turn with
    | some t => if mHas free t.lane then some t else none
    | none => none
  match active with
  | some t => .go ⟨c, lpc c t.lane, lanesAt c en (lpc c t.lane), free, held, some t, false⟩
  | none =>
    if free ≠ 0 then
      match (mLanes free).find? fun k => 64 ≤ nth c.k.wait k 0 with
      | some k => .go ⟨c, lpc c k, lanesAt c en (lpc c k), free, held, some ⟨k, 16⟩, true⟩
      | none =>
        let pc := minLpc c free
        .go ⟨c, pc, lanesAt c en pc, free, held, none, false⟩
    else if held = 0 ∨ parked ≠ 0 then .nothing
    else
      let pc := minLpc c held
      if lanesAt c held pc = held then .go ⟨c, pc, held, free, held, none, false⟩ else .split c held

/-- A course's issue priority (R144). -/
def issuePrio (c : Course) (x : Mask) : Nat := (mLanes x).foldl (fun m k => max m (slotPrio c (own c k))) 0

/-- Whether a course may issue at all: in a slot, neither stopped, stalled nor to be parked. -/
def canIssue (c : Course) : Bool := c.k.at_ == .resident && !c.k.stopped && c.k.stall.isNone

/-- A course of a quadrant with its pick, priority and the time it last issued. -/
structure Cand where
  quad : Nat
  prio : Nat
  age : Nat
  pick : Pick
  deriving DecidableEq, Repr

/-- The candidates of the device. -/
def candidates (e : Env) (w : W) : List Cand :=
  w.courses.filterMap fun (_, c) =>
    if canIssue c then
      match pick e w c with
      | .nothing => none
      | .go s => some ⟨quadOf c, issuePrio c s.x, c.k.age, .go s⟩
      | .split c m => some ⟨quadOf c, issuePrio c m, c.k.age, .split c m⟩
    else none

/-- Whether a candidate goes before another: in one quadrant by priority, then age; across quadrants by age (R144). -/
def Cand.before (x y : Cand) : Bool :=
  if x.quad = y.quad then decide (y.prio < x.prio) || (x.prio == y.prio && decide (x.age < y.age))
  else decide (x.age < y.age)

/-- The best of a quadrant's candidates, then the one that issued least recently of the quadrants' (R144, log entry 5). -/
def choose : List Cand → Option Cand
  | [] => none
  | x :: r =>
    match choose r with
    | none => some x
    | some y => if Cand.before y x then some y else some x

/-- What the device issues next. -/
def issueOf (e : Env) (w : W) : Pick :=
  let l := candidates e w
  let best := l.filter fun x => !(l.any fun y => y.quad == x.quad && Cand.before y x)
  match choose best with
  | some x => x.pick
  | none => .nothing

/-! What every issue settles (R49, R52, R145, R220). -/

/-- The lanes at the issue PC charged to their owners (R52). -/
def chargeLanes (c : Course) (x : Mask) : Course :=
  (List.range 8).foldl (fun c s =>
    let n := mCount (x &&& mkMask fun k => own c k == s)
    if n = 0 then c else setSlotF c s 448 64 ((slotLanecyc c s + n) % 2 ^ 64)) c

/-- The wait counts and the turn after an issue (R144, R145). `back` is a backward taken branch of the turn lane. -/
def settleTurn (c : Course) (s : Sel) (marker back : Bool) : Course :=
  let wait := (List.range 32).map fun k =>
    if mHas s.free k then (if mHas s.x k then 0 else nth c.k.wait k 0 + 1) else nth c.k.wait k 0
  let turn := match s.turn with
    | none => none
    | some t => if t.left ≤ 1 ∨ marker ∨ back ∨ laneSt c t.lane ≠ 1 then none else some { t with left := t.left - 1 }
  { c with k := { c.k with wait := wait, turn := turn } }

/-- An issue settled: lanes charged, counts kept, the window closed at a marker (R67, R144, R145, R158). -/
def settle (e : Env) (w : W) (c : Course) (s : Sel) (marker back : Bool) : W × Course :=
  let c := settleTurn (chargeLanes c s.x) s marker back
  let c := { c with k := { c.k with age := w.now + 1 } }
  let pcn := pcnOf w c.v.hcore
  let w := bumpCore w pcn 0 1
  let w := if s.started then bumpCore w pcn 3 1 else w
  if marker then closeWindow e w c else (w, c)

/-- The course written back, or ended when no lane is live or parked (R51). -/
def finish (e : Env) (w : W) (c : Course) : W :=
  if liveParked c = 0 then endCourse e (setCourse w c) c.id.cid else setCourse w c

/-- An instruction done: settled and written back. -/
def done (e : Env) (w : W) (c : Course) (s : Sel) (marker back : Bool) : W :=
  let (w, c) := settle e w c s marker back
  finish e w c

/-- A stall before issue: nothing else changes (R65, R329). -/
def stallOn (w : W) (c : Course) (x : Stall) : W := setCourse w { c with k := { c.k with stall := some x } }

/-- The register of a number, below 64. -/
def reg64 (r : Nat) : R64 := Fin.ofNat 64 r

/-- Entries of the window taken (R67). -/
def takeEntries (c : Course) (n : Nat) : Course := { c with w := { c.w with used := c.w.used + n } }

/-- An instruction that issues and ends in a fault: its lanes are charged and the issue is counted; its window stays as it is
(R52, R144). -/
def faulted (e : Env) (w : W) (c : Course) (s : Sel) (f : W → Course → W) : W :=
  let (w, c) := settle e w c s false false
  f w c

/-- What a course does on the state with room for the lines that writes of V registers allocate; where its quadrant has no room and
no line to take, the course waits for the first of them as for a fill (R8, R62, R63, the model's choice, log entry 58). -/
def withRoom (e : Env) (w : W) (c : Course) (rs : List Nat) (f : W → W) : W :=
  let w := roomFor e w c rs
  match crampedLine w c rs with
  | some r => stallOn w c (.fill (reg64 r))
  | none => f w

/-- The V registers that a switch marker's results will write, those on their way included (R67). -/
def markerV (w : W) (c : Course) (marker : Bool) : List Nat := if marker then bufV (drain w c).2 else []

/-- What comes before an instruction issues: its entries must fit the window, or it raises ILLOP unissued and uncharged (R67), no V
line it must wait for misses (R65), and the cache has room for the lines that it and a marker's results allocate (R62). -/
def staged (e : Env) (w : W) (s : Sel) (u : Uses) (marker : Bool) (f : W → W) : W :=
  if 16 < s.c.w.used + u.entries then faultPc e w s.c 0x01 s.x
  else match missingLine s.c u marker with
    | some r => stallOn w s.c (.fill (reg64 r))
    | none => withRoom e w s.c (u.d ++ markerV w s.c marker) f

/-- The poison check of an instruction's sources: with a poisoned one the lanes that consume it stop, the entries of the window
taken; else the effect (R40, R67, R165). -/
def sourced (e : Env) (w : W) (s : Sel) (u : Uses) (reads : Mask) (f : W → W) : W :=
  match if reads = 0 then none else poisonedUnit s.c u with
  | some r => faulted e w (takeEntries s.c u.entries) s fun w c => faultFree e w c 0x20 reads (fun _ => r)
  | none => f w

/-- The checks before the effect of an instruction that can stop only on its sources, then the effect (R40, R65, R67). -/
def guarded (e : Env) (w : W) (s : Sel) (u : Uses) (marker : Bool) (reads : Mask) (f : W → W) : W :=
  staged e w s u marker fun w => sourced e w s u reads f

/-- A meaning of an encoded instruction: what it does to the course that issues it. -/
abbrev Meaning := Env → W → Sel → W

/-- The window of a marker that parked its course closed before anything issues (R67, R288). -/
def closeFirst (e : Env) (w : W) (c : Course) : W :=
  match missingLine c Uses.none true with
  | some r => stallOn w c (.fill (reg64 r))
  | none => withRoom e w c (markerV w c true) fun w => let (w, c) := closeWindow e w c; setCourse w c

/-- An encoded instruction executed: the course, PC and lanes that the issue rule chooses; a fault where none issues. -/
def runIssue (f : Meaning) (s : State) : Host.Outcome State Fault Refusal :=
  match issueOf ⟨s.fix, s.mem⟩ s.w with
  | .go x => .next (commit (fun e w => if x.c.w.closing then closeFirst e w x.c else f e w x) s)
  | _ => .fault .noIssuingCourse

/-- A deferred result on its way (R67, R69). -/
def launchResult (w : W) (c : Course) (dest : Dest) (mask : Mask) (val : Line) (flags : List (Nat × Nat)) : W :=
  if mask = 0 then w
  else
    let f : Flight := ⟨w.nextFlight, c.id.cid, quadOf c, c.k.slot, c.k.gen, dest, mask, val, flags⟩
    { w with nextFlight := w.nextFlight + 1, flights := w.flights ++ [f] }

/-! Lane instructions (R227). -/

/-- The flags of lanes set in their owners' slots (R21). -/
def laneFlags (c : Course) (m : Mask) (f : Nat → Nat) : Course :=
  (mLanes m).foldl (fun c k => orFlags c (own c k) (f k)) c

/-- A line of results in the lanes of a mask. -/
def resultLine (m : Mask) (f : Nat → Word) : Line := mkLine fun k => if mHas m k then f k else 0

/-- The uses of a lane instruction, its guard's predicate included. -/
def laneUses (h : Hd) (u : Uses) : Uses := { u with p := h.g.val :: u.p }

/-- An immediate-class lane instruction: each executing lane writes its destinations and sets its flags (R227). -/
def laneImm (h : Hd) (u : Uses) (f : Course → Nat → List Word × Nat) : Meaning := fun e w s =>
  let u := laneUses h u
  let on := lanesOn s.c h s.x
  guarded e w s u h.sw (readersAll s.c h s.x) fun w =>
    let c := u.d.zipIdx.foldl (fun c (r, i) => putV c r on (resultLine on fun k => nth (f s.c k).1 i 0)) s.c
    let c := laneFlags c on fun k => (f s.c k).2
    done e w (advance c s.x 4) s h.sw false

/-- An immediate-class lane instruction without flags and with one destination. -/
def lane1 (h : Hd) (v : List Nat) (d : Nat) (f : Course → Nat → Word) : Meaning :=
  laneImm h { Uses.none with v := v, d := [d] } fun c k => ([f c k], 0)

/-- An immediate-class lane instruction with one destination and flags, on 32-bit numbers. -/
def laneF (h : Hd) (v : List Nat) (d : Nat) (f : Course → Nat → Nat × Nat) : Meaning :=
  laneImm h { Uses.none with v := v, d := [d] } fun c k => let (r, x) := f c k; ([BitVec.ofNat 32 r], x)

/-- A lane instruction that writes a lane predicate (R43, R234). -/
def lanePred (h : Hd) (v p : List Nat) (d : Nat) (f : Course → Nat → Bool × Nat) : Meaning := fun e w s =>
  let u := laneUses h { Uses.none with v := v, p := p }
  let on := lanesOn s.c h s.x
  guarded e w s u h.sw (readersAll s.c h s.x) fun w =>
    let c := putP s.c d on (mkMask fun k => mHas on k && (f s.c k).1)
    let c := laneFlags c on fun k => (f s.c k).2
    done e w (advance c s.x 4) s h.sw false

/-- A deferred-class lane instruction with one destination and flags; `f` knows the executing lanes, `sect` names the sectors it
reads besides V registers (R220, R230). -/
def laneDef (h : Hd) (v : List Nat) (sect : List (Nat × Nat)) (d : Nat) (f : Mask → Course → Nat → Nat × Nat) : Meaning :=
    fun e w s =>
  let u := laneUses h { Uses.none with v := v, d := [d], entries := 1, sect := sect }
  let on := lanesOn s.c h s.x
  guarded e w s u h.sw (readersAll s.c h s.x) fun w =>
    let c := advance (takeEntries s.c 1) s.x 4
    let w := launchResult w c (.v (reg64 d)) on (resultLine on fun k => BitVec.ofNat 32 (f on s.c k).1)
      ((mLanes on).map fun k => (own s.c k, (f on s.c k).2))
    done e w c s h.sw false

/-- The word of a V register in a lane. -/
def vAt (c : Course) (r : R64) (k : Nat) : Word := laneOf (getV c r.val) k

/-- The number of a V register in a lane. -/
def vNum (c : Course) (r : R64) (k : Nat) : Nat := (vAt c r k).toNat

/-! Uniform instructions (R274). -/

/-- The uses of a uniform instruction, its guard's predicate included. -/
def uniUses (h : Hd) (u : Uses) : Uses := { u with q := h.g.val :: u.q }

/-- The frame of a uniform instruction that checks its sources itself, after its own faults of groups 2 and 3: with a true guard
its group 1 check (ILLOP, PRIVOP, MIXUNI), then its effect once for X; with a false guard it reads the guard alone, and X
advances by `n` bytes (R165, R213, R272, R274). -/
def uniformL (h : Hd) (u : Uses) (n : Nat) (chk : W → Course → Option Nat) (f : Meaning) : Meaning := fun e w s =>
  if guardOn s.c h then
    match if s.c.w.used + u.entries ≤ 16 then chk w s.c else none with
    | some n => faulted e w s.c s fun w c => faultPc e w c n s.x
    | none => staged e w s (uniUses h u) h.sw fun w => f e w s
  else guarded e w s (uniUses h { Uses.none with entries := u.entries }) h.sw s.x fun w =>
    done e w (advance (takeEntries s.c u.entries) s.x n) s h.sw false

/-- A uniform instruction's frame: as `uniformL`, its sources checked before its effect (R274). -/
def uniformC (h : Hd) (u : Uses) (chk : W → Course → Option Nat) (f : Meaning) : Meaning :=
  uniformL h u 4 chk fun e w s => sourced e w s (uniUses h u) s.x fun w => f e w s

/-- A uniform instruction without a check of its own. -/
def uniform (h : Hd) (u : Uses) (f : Meaning) : Meaning := uniformC h u (fun _ _ => none) f

/-- A uniform instruction that writes S registers at once. -/
def uniS (h : Hd) (srcs : List Nat) (qs : List Nat) (f : Course → List (Nat × Word)) : Meaning :=
  uniform h { Uses.none with s := srcs, q := qs } fun e w s =>
    let c := (f s.c).foldl (fun c (r, x) => putS c r x) s.c
    done e w (advance c s.x 4) s h.sw false

/-- A uniform instruction that writes a Q predicate. -/
def uniQ (h : Hd) (srcs qs : List Nat) (d : Nat) (f : Course → Bool) : Meaning :=
  uniform h { Uses.none with s := srcs, q := qs } fun e w s =>
    done e w (advance (putQ s.c d (f s.c)) s.x 4) s h.sw false

/-- A deferred result of S registers. -/
def launchS (w : W) (c : Course) (l : List (Nat × Word)) : W :=
  l.foldl (fun w (r, x) => launchResult w c (.s (reg64 r)) 1 [x] []) w

/-! Fetch faults and words that are no instructions (R101, R144, R225). -/

/-- A failed fetch parks the whole course: code ASID, SLOTF 0 but for its flags, ATYPE 2, SIZE 4 (R96, R101). -/
def fetchFault (e : Env) (w : W) (s : Sel) (pc : Word) (cause : Nat) (matrix : Option (Nat × Nat)) : W :=
  let va := s.c.id.cbase.toNat + pc.toNat
  takeFaults e w s.c [entryOf s.c cause 0 s.x va s.c.id.codeAsid s.pc.toNat 2 4 false] matrix

/-- RESERVED_WORD_ISSUE: ILLOP for the lanes of X (R225). -/
def illopAt (e : Env) (w : W) (s : Sel) : W := faulted e w s.c s fun w c => faultPc e w c 0x01 s.x

end Sys2Proof.Machine
end

