-- ==== Sys2Proof/Machine/LaneInt.lean ====
section
/-! DEFINITION. Lane instructions 0x00 to 0x27: integer arithmetic, logic, selection, comparison, predicates, immediates and
moves (R231 to R237). -/

namespace Sys2Proof.Machine

/-- A two-source integer instruction. -/
def laneRR (h : Hd) (d a b : R64) (f : Word → Word → Word) : Meaning :=
  lane1 h [a.val, b.val] d.val fun c k => f (vAt c a k) (vAt c b k)

/-- A one-source integer instruction. -/
def laneR (h : Hd) (d a : R64) (f : Word → Word) : Meaning := lane1 h [a.val] d.val fun c k => f (vAt c a k)

/-- A two-source instruction that reads its destination. -/
def laneRRD (h : Hd) (d a b : R64) (f : Word → Word → Word → Word) : Meaning :=
  lane1 h [a.val, b.val, d.val] d.val fun c k => f (vAt c a k) (vAt c b k) (vAt c d k)

/-- An integer clamped to a range, as a word. -/
def clampW (lo hi n : Int) : Word := BitVec.ofInt 32 (max lo (min hi n))

/-- IADD and SADD (R232). -/
def addSat (m : Sat) (a b : Word) : Word :=
  match m with
  | .wrap => a + b
  | .ss => clampW (-2 ^ 31) (2 ^ 31 - 1) (a.toInt + b.toInt)
  | .us => BitVec.ofNat 32 (min (a.toNat + b.toNat) (2 ^ 32 - 1))

/-- ISUB and SSUB (R232). -/
def subSat (m : Sat) (a b : Word) : Word :=
  match m with
  | .wrap => a - b
  | .ss => clampW (-2 ^ 31) (2 ^ 31 - 1) (a.toInt - b.toInt)
  | .us => BitVec.ofNat 32 (a.toNat - b.toNat)

/-- The high word of a product (R232). -/
def mulHigh (u : Bool) (a b : Word) : Word :=
  if u then BitVec.ofNat 32 (a.toNat * b.toNat / 2 ^ 32) else BitVec.ofInt 32 (a.toInt * b.toInt / 2 ^ 32)

/-- The lesser or greater of two words (R232). -/
def minmaxW (isMax u : Bool) (a b : Word) : Word :=
  let less := if u then BitVec.ult a b else BitVec.slt a b
  if less != isMax then a else b

/-- IABS (R232). -/
def absW (sat : Bool) (a : Word) : Word :=
  if sat then clampW 0 (2 ^ 31 - 1) a.toInt.natAbs else BitVec.ofNat 32 a.toInt.natAbs

/-- Shifts by an unsigned amount of any size (R232). -/
def shlW (a b : Word) : Word := if b.toNat < 32 then a <<< b.toNat else 0
def shrW (a b : Word) : Word := if b.toNat < 32 then a >>> b.toNat else 0
def sarW (a b : Word) : Word := a.sshiftRight (min b.toNat 31)
/-- Rotation (R232). -/
def rotlW (a b : Word) : Word := a.rotateLeft (b.toNat % 32)

/-- Counts and reversal (R232). -/
def popcW (a : Word) : Word := BitVec.ofNat 32 ((List.range 32).filter fun i => a.getLsbD i).length
def clzW (a : Word) : Word := BitVec.ofNat 32 (((List.range 32).find? fun i => a.getLsbD (31 - i)).getD 32)
def brevW (a : Word) : Word :=
  BitVec.ofNat 32 ((List.range 32).foldl (fun n i => if a.getLsbD (31 - i) then n + 2 ^ i else n) 0)

/-- The position and effective length of a field operand (R232). -/
def fieldOf (b : Word) : Nat × Nat := let p := bvF b 0 5; (p, min (bvF b 8 6) (32 - p))

/-- BFX and SBFX (R232). -/
def bfxW (s : Bool) (a b : Word) : Word :=
  let (p, l) := fieldOf b
  let v := bvF a p l
  if s ∧ 0 < l then sxImm l v else BitVec.ofNat 32 v

/-- BFI (R232). -/
def bfiW (a b d : Word) : Word := let (p, l) := fieldOf b; bvSet d p l a.toNat

def execIadd (h : Hd) (d a b : R64) (m : Sat) (s : State) := runIssue (laneRR h d a b (addSat m)) s
def execIsub (h : Hd) (d a b : R64) (m : Sat) (s : State) := runIssue (laneRR h d a b (subSat m)) s
def execImul (h : Hd) (d a b : R64) (s : State) := runIssue (laneRR h d a b (· * ·)) s
def execImulh (h : Hd) (d a b : R64) (u : Bool) (s : State) := runIssue (laneRR h d a b (mulHigh u)) s
def execImad (h : Hd) (d a b : R64) (s : State) := runIssue (laneRRD h d a b fun a b d => a * b + d) s
def execImin (h : Hd) (d a b : R64) (u : Bool) (s : State) := runIssue (laneRR h d a b (minmaxW false u)) s
def execImax (h : Hd) (d a b : R64) (u : Bool) (s : State) := runIssue (laneRR h d a b (minmaxW true u)) s
def execIabs (h : Hd) (d a : R64) (sat : Bool) (s : State) := runIssue (laneR h d a (absW sat)) s
def execAnd (h : Hd) (d a b : R64) (s : State) := runIssue (laneRR h d a b (· &&& ·)) s
def execOr (h : Hd) (d a b : R64) (s : State) := runIssue (laneRR h d a b (· ||| ·)) s
def execXor (h : Hd) (d a b : R64) (s : State) := runIssue (laneRR h d a b (· ^^^ ·)) s
def execAndn (h : Hd) (d a b : R64) (s : State) := runIssue (laneRR h d a b fun a b => a &&& ~~~b) s
def execShl (h : Hd) (d a b : R64) (s : State) := runIssue (laneRR h d a b shlW) s
def execShr (h : Hd) (d a b : R64) (s : State) := runIssue (laneRR h d a b shrW) s
def execSar (h : Hd) (d a b : R64) (s : State) := runIssue (laneRR h d a b sarW) s
def execRotl (h : Hd) (d a b : R64) (s : State) := runIssue (laneRR h d a b rotlW) s
def execPopc (h : Hd) (d a : R64) (s : State) := runIssue (laneR h d a popcW) s
def execClz (h : Hd) (d a : R64) (s : State) := runIssue (laneR h d a clzW) s
def execBrev (h : Hd) (d a : R64) (s : State) := runIssue (laneR h d a brevW) s
def execBfx (h : Hd) (d a b : R64) (sg : Bool) (s : State) := runIssue (laneRR h d a b (bfxW sg)) s
def execBfi (h : Hd) (d a b : R64) (s : State) := runIssue (laneRRD h d a b bfiW) s

/-- SEL: the predicate selects, the bits pass unchanged (R233). -/
def execSel (h : Hd) (d a b : R64) (n : Fin 4) (s : State) :=
  runIssue (laneImm h { Uses.none with v := [a.val, b.val], p := [n.val], d := [d.val] } fun c k =>
    ([if mHas (getP c n.val) k then vAt c a k else vAt c b k], 0)) s

/-- ICMP (R234). -/
def execIcmp (h : Hd) (p : R8) (cc : Cc) (a b : R64) (u : Bool) (s : State) :=
  runIssue (lanePred h [a.val, b.val] [] p.val fun c k => (cmpRel cc u (vAt c a k) (vAt c b k), 0)) s

/-- LEA (R233). -/
def execLea (h : Hd) (d a b : R64) (x : Fin 4) (s : State) :=
  runIssue (laneImm h { Uses.none with v := pairOf a.val ++ [b.val], d := pairOf d.val } fun c k =>
    let r := addOff (getV2 c a.val k) ((vAt c b k).toInt * 2 ^ x.val)
    ([loW r, hiW r], 0)) s

def execIaddi (h : Hd) (d a : R64) (i : Fin 256) (s : State) := runIssue (laneR h d a (· + immS 8 i.val)) s
def execImuli (h : Hd) (d a : R64) (i : Fin 256) (s : State) := runIssue (laneR h d a (· * immS 8 i.val)) s
def execAndi (h : Hd) (d a : R64) (i : Fin 256) (s : State) := runIssue (laneR h d a (· &&& immU i.val)) s
def execOri (h : Hd) (d a : R64) (i : Fin 256) (s : State) := runIssue (laneR h d a (· ||| immU i.val)) s
def execXori (h : Hd) (d a : R64) (i : Fin 256) (s : State) := runIssue (laneR h d a (· ^^^ immU i.val)) s
def execShli (h : Hd) (d a : R64) (i : Fin 32) (s : State) := runIssue (laneR h d a (shlW · (immU i.val))) s
def execShri (h : Hd) (d a : R64) (i : Fin 32) (s : State) := runIssue (laneR h d a (shrW · (immU i.val))) s
def execSari (h : Hd) (d a : R64) (i : Fin 32) (s : State) := runIssue (laneR h d a (sarW · (immU i.val))) s
def execMovi (h : Hd) (d : R64) (i : Fin 16384) (s : State) := runIssue (lane1 h [] d.val fun _ _ => immS 14 i.val) s

/-- MOVL: the issue unit advances past both words (R219, R237). -/
def execMovl (h : Hd) (d : R64) (lit : Word) (s : State) :=
  runIssue (fun e w s =>
    let on := lanesOn s.c h s.x
    guarded e w s (laneUses h { Uses.none with d := [d.val] }) h.sw (readersAll s.c h s.x) fun w =>
      done e w (advance (putV s.c d.val on (resultLine on fun _ => lit)) s.x 8) s h.sw false) s

def execMov (h : Hd) (d a : R64) (s : State) := runIssue (laneR h d a id) s

/-- MOVS: the shared S register in every executing lane (R237). -/
def execMovs (h : Hd) (d a : R64) (s : State) :=
  runIssue (laneImm h { Uses.none with s := [a.val], d := [d.val] } fun c _ => ([getS c a.val], 0)) s

/-- PLOG (R235). -/
def execPlog (h : Hd) (p : R8) (o : LogOp) (a b : R8) (s : State) :=
  runIssue (lanePred h [] [a.val, b.val] p.val fun c k => (logRel o (mHas (getP c a.val) k) (mHas (getP c b.val) k), 0)) s

/-- PSETV (R235). -/
def execPsetv (h : Hd) (p : R8) (a : R64) (s : State) :=
  runIssue (lanePred h [a.val] [] p.val fun c k => (vAt c a k != 0, 0)) s

/-- The lanes of lane k's owner that are not inactive (R235). -/
def ownerLanes (c : Course) (k : Nat) : Mask := mkMask fun j => laneSt c j != 0 && own c j == own c k

/-- PGETV (R235). -/
def execPgetv (h : Hd) (d : R64) (a : R8) (m : Bool) (s : State) :=
  runIssue (laneImm h { Uses.none with p := [a.val], d := [d.val], sect := if m then ownSect true else [] } fun c k =>
    ([if m then getP c a.val &&& ownerLanes c k else if mHas (getP c a.val) k then 1 else 0], 0)) s

/-- ICMPI (R234). -/
def execIcmpi (h : Hd) (p : R8) (cc : Cc) (a : R64) (i : Fin 256) (s : State) :=
  runIssue (lanePred h [a.val] [] p.val fun c k => (cmpRel cc false (vAt c a k) (immS 8 i.val), 0)) s

end Sys2Proof.Machine
end

