-- ==== Sys2Proof/Machine/LaneMem.lean ====
section
/-! DEFINITION. Lane memory instructions 0x40 to 0x4F: global, lane-local and scratch accesses and atomics (R250 to R257). -/

namespace Sys2Proof.Machine

/-! Atomics (R256). -/

/-- The bytes an atomic works on. -/
def atWidth : AtOp → Nat
  | .add64 | .exch64 | .cas64 => 8
  | _ => 4

/-- The new value of an atomic's location: old value, operand, second operand of a compare-and-swap (R256). -/
def atNew (o : AtOp) (old b c : Nat) : Nat :=
  let x : Word := BitVec.ofNat 32 old
  let y : Word := BitVec.ofNat 32 b
  match o with
  | .add32 => (old + b) % 2 ^ 32
  | .add64 => (old + b) % 2 ^ 64
  | .addF => (fp32.add .rne old b).1
  | .maxS => (minmaxW true false x y).toNat
  | .maxU => (minmaxW true true x y).toNat
  | .maxF => (fp32.minmax true old b).1
  | .minS => (minmaxW false false x y).toNat
  | .minU => (minmaxW false true x y).toNat
  | .minF => (fp32.minmax false old b).1
  | .exch32 | .exch64 => b
  | .cas32 | .cas64 => if old = b then c else old
  | .and => (x &&& y).toNat
  | .or => (x ||| y).toNat
  | .xor => (x ^^^ y).toNat

/-- The atomics a host performs (R257). -/
def atHost : AtOp → Bool
  | .add32 | .add64 | .exch32 | .exch64 | .cas32 | .cas64 => true
  | _ => false

/-! Global accesses (R250, R251, R165). -/

/-- What a global access is: its permission, access type, size, alignment, host support, the owner-slot registers that it reads, and
the pieces of a lane's bytes. -/
structure GlobalOp where
  nd : Need
  atype : Nat
  size : Nat
  align : Bool
  host : Bool
  regs : List Nat
  seg : Nat → Option Nat
  va : Nat → Nat
  pieces : Nat → List (Nat × Nat)

/-- How a lane's access comes out before it is performed. -/
inductive LaneRes where
  | ok (ls : List (Loc × Nat × Nat))
  | split (cause va : Nat) (matrix : Option (Nat × Nat))
  | stop (cause va : Nat)
  | stall (x : Stall)
  deriving DecidableEq, Repr

/-- Whether places include host memory. -/
def anyHost (ls : List (Loc × Nat × Nat)) : Bool :=
  ls.any fun x => match x.1 with | .host .. => true | _ => false

/-- An access that consumes a poisoned register stops with POISON at performance, whatever else it would meet there (R40, R165). -/
def LaneRes.consuming (bad : Option Nat) : LaneRes → LaneRes
  | .ok ls => match bad with | some r => .stop 0x20 r | none => .ok ls
  | .stop x va => match bad with | some r => .stop 0x20 r | none => .stop x va
  | r => r

/-- An access translated and checked, its registers apart (R101, R109, R129, R156, R165, R170, R196, R336). -/
def placedAccess (e : Env) (w : W) (c : Course) (g : GlobalOp) (s k : Nat) : LaneRes :=
  let row := pcnOf w c.v.hcore
  match placesOf (fun a => translate e w c.id.part (slotWorld c s) (slotAsid c s) a g.nd c.id.priv) (g.pieces k) with
  | .error (va, .fail x) => if 0x20 ≤ x then .stop x va else .split x va none
  | .error (_, .wait x) => .stall x
  | .error (va, .ok _) => .stop 0x22 va
  | .ok ls =>
    match placesRefused w row ls with
    | some (sl, va) => .split 0x16 va (some (row, sl))
    | none =>
      if anyHost ls ∧ !g.host then .split 0x14 (g.va k) none
      else match (if g.nd = .read then none else placesScrub w ls) with
        | some (sl, f) => .stall (.scrub sl f)
        | none =>
          let stop := if g.nd = .read ∨ g.nd = .atom then placesStop w ls else (placesMuted w ls).map fun va => (0x21, va)
          match stop.orElse fun _ => (placesCut w row ls).map fun va => (0x21, va) with
          | some (x, va) => .stop x va
          | none => match placesXoff w ls with
            | some n => .stall (.link n)
            | none => .ok ls

/-- An access under an owner slot translated and checked, before it is performed; it reads the slot's ASID (R40, R96). -/
def slotAccess (e : Env) (w : W) (c : Course) (g : GlobalOp) (s k : Nat) : LaneRes :=
  (placedAccess e w c g s k).consuming (slotPoison c s (0 :: g.regs))

/-- A lane's access, under its owner (R96). -/
def laneAccess (e : Env) (w : W) (c : Course) (g : GlobalOp) (k : Nat) : LaneRes :=
  (placedAccess e w c g (own c k) k).consuming (lanePoison c k (0 :: g.regs))

/-- The first stall among lanes. -/
def firstStall (l : List (Nat × LaneRes)) : Option Stall :=
  l.findSome? fun x => match x.2 with | .stall y => some y | _ => none

/-- The lanes that split off. -/
def splitsOf (l : List (Nat × LaneRes)) : List Split :=
  l.filterMap fun (k, r) => match r with | .split x va m => some ⟨k, x, va, m⟩ | _ => none

/-- The lanes that stop, with cause and address. -/
def stopsOf (l : List (Nat × LaneRes)) : List (Nat × Nat × Nat) :=
  l.filterMap fun (k, r) => match r with | .stop x va => some (k, x, va) | _ => none

/-- The lanes that perform their access. -/
def oksOf (l : List (Nat × LaneRes)) : List (Nat × List (Loc × Nat × Nat)) :=
  l.filterMap fun (k, r) => match r with | .ok ls => some (k, ls) | _ => none

/-- A mask of listed lanes. -/
def maskOf (l : List Nat) : Mask := mkMask fun k => l.contains k

/-- The entries of lanes stopped at performance: one per cause met and owner slot (R165). -/
def stopEntries (c : Course) (stops : List (Nat × Nat × Nat)) (atype size : Nat) : List Entry :=
  [0x20, 0x21, 0x22].flatMap fun cause =>
    let l := stops.filter fun x => x.2.1 == cause
    if l = [] then []
    else (bySlot c (maskOf (l.map (·.1)))).map fun (s, m) =>
      let va := ((l.find? fun x => x.1 == mLow m).map (·.2.2)).getD 0
      entryOf c cause s m va (slotAsid c s) (pcLow c (mLow m % 32)) atype size false

/-- The lanes whose requests will get no reply (R168). -/
def timedOut (c : Course) (l : List (Nat × LaneRes)) (va : Nat → Nat) : List (Nat × LaneRes) :=
  match c.k.tmo with
  | none => l
  | some (m, _) => l.map fun (k, r) => match r with
    | .ok ls => if mHas m k then (k, .stop 0x22 (va k)) else (k, .ok ls)
    | r => (k, r)

/-- The lanes whose requests time out but are performed (R168). -/
def ghosts (c : Course) (l : List (Nat × LaneRes)) : List (Nat × List (Loc × Nat × Nat)) :=
  match c.k.tmo with
  | some (m, true) => (oksOf l).filter fun x => mHas m x.1
  | _ => []

/-- What a performed lane access leaves: the state, and the value read where it returns one. -/
abbrev Perform := Env → W → Course → Nat → List (Loc × Nat × Nat) → W × Nat

/-- Lane accesses performed in ascending lane order: the state and each lane's value. -/
def performAll (e : Env) (c : Course) (f : Perform) (w : W) (l : List (Nat × List (Loc × Nat × Nat))) :
    W × List (Nat × Nat) :=
  l.foldl (fun (st : W × List (Nat × Nat)) (k, ls) =>
    let (w, v) := f e st.1 c k ls
    (w, st.2 ++ [(k, v)])) (w, [])

/-- Results of lanes sent to their registers: the low word to the first, the high word to a second (R252). -/
def sendLanes (w : W) (c : Course) (d : List Nat) (vals : List (Nat × Nat)) : W :=
  let m := maskOf (vals.map (·.1))
  d.zipIdx.foldl (fun w (r, i) =>
    launchResult w c (.v (reg64 r)) m
      (resultLine m fun k => BitVec.ofNat 32 (((vals.find? fun x => x.1 == k).map (·.2)).getD 0 / 2 ^ (32 * i))) []) w

/-- How the accesses of a memory instruction came out: the lanes that split, the other lanes that stopped with the entries
that they write, and the values of the rest. -/
structure MemEnd where
  splits : List Split
  stopped : Mask
  entries : Course → List Entry
  vals : List (Nat × Nat)

/-- The end of a memory instruction: entries of the window taken, lanes that neither split nor stopped advanced, results on
their way, the issue settled, splits and stops reported. A switch marker closes the window before a stopped course parks
(R102, R165, R250, log entry 61). -/
def memFinish (e : Env) (w : W) (s : Sel) (h : Hd) (u : Uses) (x : MemEnd) (atype size : Nat) : W :=
  let away := maskOf (x.splits.map (·.lane)) ||| x.stopped
  let c := advance (takeEntries s.c u.entries) (s.x &&& ~~~away) 4
  let c := { c with k := { c.k with tmo := none } }
  let w := sendLanes w c u.d x.vals
  let c := x.splits.foldl (fun c y => setLaneSt c y.lane 2) c
  let (w, c) := settle e w c s h.sw false
  let w := splitLanes e w c x.splits atype size
  if x.stopped = 0 then w
  else match course? w c.id.cid with
    | none => w
    | some c => takeFaults e w c (x.entries c) none

/-- The end of accesses that were performed: the lanes that met POISON, MUTED or TIMEOUT stop with an entry per cause (R165). -/
def performed (u : Uses) (l : List (Nat × LaneRes)) (vals : List (Nat × Nat)) (atype size : Nat) : MemEnd where
  splits := splitsOf l
  stopped := maskOf ((stopsOf l).map (·.1))
  entries := fun c => stopEntries c (stopsOf l) atype size
  vals := if u.d = [] then [] else vals

/-- The end of a memory instruction with a poisoned source: no lane performs its access, and every lane that consumes the source
and did not split stops with POISON (R250). -/
def consumed (l : List (Nat × LaneRes)) (reads : Mask) (r : Nat) : MemEnd where
  splits := splitsOf l
  stopped := reads &&& ~~~(maskOf ((splitsOf l).map (·.lane)))
  entries := fun c => (bySlot c (reads &&& ~~~(maskOf ((splitsOf l).map (·.lane))))).map fun (s, m) =>
    entryFree c 0x20 s m r (slotAsid c s) (pcLow c (mLow m % 32))
  vals := []

/-- A global or lane-local memory instruction (R250): `d` its destinations, `f` what a lane's access does. -/
def globalLanes (h : Hd) (u : Uses) (g : Course → GlobalOp) (f : Perform) : Meaning := fun e w s =>
  let on := lanesOn s.c h s.x
  let u := laneUses h u
  staged e w s u h.sw fun w =>
    let g := g s.c
    let seg := (mLanes on).filter fun k => (g.seg k).isSome
    let mis := (mLanes on).filter fun k => g.align && g.va k % g.size != 0
    let fault := fun cause lanes va =>
      faulted e w (takeEntries s.c u.entries) s fun w c => faultLanes e w c cause (maskOf lanes) va g.atype g.size
    if seg ≠ [] then fault 0x04 seg fun k => (g.seg k).getD 0
    else if mis ≠ [] then fault 0x03 mis g.va
    else
      let l0 := (mLanes on).map fun k => (k, laneAccess e w s.c g k)
      match firstStall l0 with
      | some x => stallOn w s.c x
      | none => match if readers s.c h s.x = 0 then none else poisonedUnit s.c u with
        | some r => memFinish e w s h u (consumed l0 (readers s.c h s.x) r) g.atype g.size
        | none =>
        let l := timedOut s.c l0 g.va
        let w := (performAll e s.c f w (ghosts s.c l0)).1
        let oks := oksOf l
        let (w, vals) := performAll e s.c f w oks
        let w := if g.nd = .write then cleanCovered w (oks.flatMap fun x => placeKeys x.2) else w
        memFinish e w s h u (performed u l vals g.atype g.size) g.atype g.size

/-- A load's effect: the bytes read as a number. -/
def doLoad : Perform := fun e w c k ls => (w, leNat (rdPlaces e w (slotWorld c (own c k)) ls))

/-- A store's effect: the low bytes of the data registers (R252). -/
def doStore (d : R64) (n : Nat) : Perform := fun e w c k ls =>
  let v := if n = 8 then getV2 c d.val k else vNum c d k
  (wrPlaces e w (slotWorld c (own c k)) ls (leBytes n v), 0)

/-- The address of an even V pair with an offset (R251). -/
def pairAddr (c : Course) (a : R64) (o : Int) (k : Nat) : Nat := addOff (getV2 c a.val k) o

/-- A global access at a pair's address. -/
def globalOp (nd : Need) (atype n : Nat) (align : Bool) (a : R64) (o : Int) (c : Course) : GlobalOp where
  nd := nd
  atype := atype
  size := n
  align := align
  host := true
  regs := []
  seg := fun _ => none
  va := pairAddr c a o
  pieces := fun k => piecesOf (pairAddr c a o k) n

/-- The offset of an LM member (R214, R251). -/
def lmOff (z : Sz) (o : R64) : Int := (o.val * szBytes z : Nat)

/-- LD (R253). -/
def execLd (h : Hd) (d a : R64) (z : Sz) (o : R64) (s : State) :=
  runIssue (globalLanes h { Uses.none with v := pairOf a.val, d := dataRegs z d.val, entries := (dataRegs z d.val).length }
    (globalOp .read 0 (szBytes z) false a (lmOff z o)) doLoad) s

/-- ST (R253). -/
def execSt (h : Hd) (d a : R64) (z : Sz) (o : R64) (s : State) :=
  runIssue (globalLanes h { Uses.none with v := pairOf a.val ++ dataRegs z d.val }
    (globalOp .write 1 (szBytes z) false a (lmOff z o)) (doStore d (szBytes z))) s

/-- LDACQ: its acquire is the order of steps (R253, R254, log entry 9). -/
def execLdacq (h : Hd) (d a : R64) (z : Sz) (_sc : Scope) (s : State) :=
  runIssue (globalLanes h { Uses.none with v := pairOf a.val, d := dataRegs z d.val, entries := (dataRegs z d.val).length }
    (globalOp .read 0 (szBytes z) true a 0) doLoad) s

/-- STREL: its release is the order of steps (R253, R254, log entry 9). -/
def execStrel (h : Hd) (d a : R64) (z : Sz) (_sc : Scope) (s : State) :=
  runIssue (globalLanes h { Uses.none with v := pairOf a.val ++ dataRegs z d.val }
    (globalOp .write 1 (szBytes z) true a 0) (doStore d (szBytes z))) s

/-! Lane-local accesses (R76). -/

/-- The pieces of a lane-local access: runs within the interleaved words (R76). -/
def lclPieces (c : Course) (k o n : Nat) : List (Nat × Nat) :=
  let va := fun x => (slotLclBase c (own c k) + 128 * (x / 4) + 4 * k + x % 4) % 2 ^ 64
  let rec go : Nat → Nat → Nat → List (Nat × Nat)
    | 0, _, _ => []
    | f + 1, x, m =>
      if m = 0 then []
      else
        let t := min m (4 - x % 4)
        piecesOf (va x) t ++ go f (x + t) (m - t)
  go 4 o n

/-- The offset of a single-register access (R251). -/
def regOff (c : Course) (a : R64) (o : Int) (k : Nat) : Nat := addOff32 (vNum c a k) o

/-- A lane-local access. -/
def lclOp (nd : Need) (atype n : Nat) (a : R64) (o : Int) (c : Course) : GlobalOp where
  nd := nd
  atype := atype
  size := n
  align := false
  host := true
  regs := [4, 5]
  seg := fun k => if slotLclLim c (own c k) < regOff c a o k + n then some (regOff c a o k) else none
  va := fun k => ((lclPieces c k (regOff c a o k) n).headD (0, 0)).1
  pieces := fun k => lclPieces c k (regOff c a o k) n

/-- LDL (R253). -/
def execLdl (h : Hd) (d a : R64) (z : Sz) (o : R64) (s : State) :=
  runIssue (globalLanes h { Uses.none with v := [a.val], d := dataRegs z d.val, entries := (dataRegs z d.val).length }
    (lclOp .read 0 (szBytes z) a (lmOff z o)) doLoad) s

/-- STL (R253). -/
def execStl (h : Hd) (d a : R64) (z : Sz) (o : R64) (s : State) :=
  runIssue (globalLanes h { Uses.none with v := a.val :: dataRegs z d.val }
    (lclOp .write 1 (szBytes z) a (lmOff z o)) (doStore d (szBytes z))) s

/-- PREF: a read of the home slice that nothing shows; it writes no register and raises nothing (R101, R255). -/
def execPref (h : Hd) (a : R64) (_z : Sz) (_o : R64) (s : State) :=
  runIssue (fun e w s =>
    staged e w s (laneUses h { Uses.none with v := pairOf a.val }) h.sw fun w =>
      done e w (advance s.c s.x 4) s h.sw false) s

/-! Atomics on global memory (R256, R257). -/

/-- An atomic at a place: a reduction to a poisoned sector is not performed and is reported (R94, R113, R256). -/
def atomAt (e : Env) (w : W) (p wd : Nat) (o : AtOp) (ret : Bool) (b c : Nat) (ls : List (Loc × Nat × Nat)) : W × Nat :=
  let poisoned := ls.findSome? fun (l, _, _) => match l with
    | .dev _ _ pa => if (readStop w l).isSome && !ret then some pa else none
    | _ => none
  match poisoned with
  | some pa => (deliver e w p ⟨sliceEntry p wd pa (atWidth o), [], false⟩, 0)
  | none =>
    let old := leNat (rdPlaces e w wd ls)
    (wrPlaces e w wd ls (leBytes (atWidth o) (atNew o old b c)), old)

/-- The registers of an atomic's operand B and of its result (R220, R256). -/
def atRegs (o : AtOp) (b : Nat) : List Nat × List Nat :=
  match o with
  | .cas32 => ([b, b + 1], [b])
  | .cas64 => ([b, b + 1, b + 2, b + 3], [b, b + 1])
  | .add64 | .exch64 => ([b, b + 1], [b, b + 1])
  | _ => ([b], [b])

/-- The operands of an atomic in a lane: B, and the new value of a compare-and-swap. -/
def atOperands (o : AtOp) (c : Course) (b k : Nat) : Nat × Nat :=
  let at_ := fun r => (laneOf (getV c r) k).toNat
  match o with
  | .cas32 => (at_ b, at_ (b + 1))
  | .cas64 => (getV2 c b k, getV2 c (b + 2) k)
  | .add64 | .exch64 => (getV2 c b k, 0)
  | _ => (at_ b, 0)

/-- A lane atomic on global memory (R256). -/
def globalAtomic (h : Hd) (o : AtOp) (ret : Bool) (a b : R64) : Meaning :=
  let (src, dst) := atRegs o b.val
  let d := if ret then dst else []
  globalLanes h { Uses.none with v := pairOf a.val ++ src, d := d, entries := d.length }
    (fun c => { globalOp (if ret then .atom else .red) (if ret then 3 else 4) (atWidth o) true a 0 c with host := atHost o })
    (fun e w c k ls =>
      let (x, y) := atOperands o c b.val k
      atomAt e w c.id.part (slotWorld c (own c k)) o ret x y ls)

def addOpOf : AddVar → AtOp
  | .i32 => .add32
  | .f32 => .addF
  | .i64 => .add64

def maxOpOf : MaxVar → AtOp
  | .maxS => .maxS
  | .maxU => .maxU
  | .maxF => .maxF
  | .minS => .minS
  | .minU => .minU
  | .minF => .minF

def logOpOf : LogVar → AtOp
  | .and => .and
  | .or => .or
  | .xor => .xor

/-- The order and scope of an atomic are the order of steps (R118, log entry 9). -/
def execAtadd (h : Hd) (_sc : Scope) (r : Bool) (v : AddVar) (a b : R64) (_o : Ord4) (s : State) :=
  runIssue (globalAtomic h (addOpOf v) r a b) s
def execAtmax (h : Hd) (_sc : Scope) (r : Bool) (v : MaxVar) (a b : R64) (_o : Ord4) (s : State) :=
  runIssue (globalAtomic h (maxOpOf v) r a b) s
def execAtexch (h : Hd) (_sc : Scope) (v : WVar) (a b : R64) (_o : Ord4) (s : State) :=
  runIssue (globalAtomic h (if v = .w64 then .exch64 else .exch32) true a b) s
def execAtcas (h : Hd) (_sc : Scope) (v : WVar) (a b : R64) (_o : Ord4) (s : State) :=
  runIssue (globalAtomic h (if v = .w64 then .cas64 else .cas32) true a b) s
def execAtlog (h : Hd) (_sc : Scope) (r : Bool) (v : LogVar) (a b : R64) (_o : Ord4) (s : State) :=
  runIssue (globalAtomic h (logOpOf v) r a b) s

/-! Scratch accesses (R76, R81, R84). -/

/-- A scratch access of a lane: lane, offset, PCN, physical offset in the world's set, first key. -/
structure Scr where
  lane : Nat
  off : Nat
  pcn : Nat
  phys : Nat
  key : Nat
  deriving DecidableEq, Repr

/-- A lane's scratch access, or none for SEGLIM (R76). -/
def scrAccess (w : W) (c : Course) (k : Consort) (n lane off : Nat) : Option Scr :=
  (scrPlace c k (own c lane) off n).map fun (cc, p) =>
    let pcn := consortPcn w k cc
    ⟨lane, off, pcn, p, scrKey w pcn k.world p⟩

/-- The 4-byte words an access touches, device-wide (R84, R251). -/
def scrWords (x : Scr) (n : Nat) : List Nat :=
  let a := x.pcn * 2 ^ 21 + x.phys
  (List.range ((a % 4 + n + 3) / 4)).map (a / 4 + ·)

/-- Whether an access races with one on record (R84). -/
def racesWith (k : Consort) (cid : Nat) (write atom : Bool) (word : Nat) : Bool :=
  k.races.any fun r => r.word == word && r.cid != cid && (write || r.write) && !(atom && r.atom)

/-- The checked accesses added to the consort's records. -/
def noteRaces (w : W) (kc cid : Nat) (write atom : Bool) (words : List Nat) : W :=
  updConsort w kc fun k => { k with
    races := words.foldl (fun l x => if l.contains ⟨x, cid, write, atom⟩ then l else ⟨x, cid, write, atom⟩ :: l) k.races }

/-- What a scratch access finds poisoned of its owner's segment registers (R40, R76). -/
def scrPoison (c : Course) (x : Scr) : Option Nat := lanePoison c x.lane [2, 3]

/-- How a scratch access comes out before it is performed (R40, R81, R129, R170). -/
def scrResult (w : W) (c : Course) (x : Scr) (n : Nat) (reads : Bool) : LaneRes :=
  LaneRes.consuming (scrPoison c x) <|
  if coreAway w (pcnOf w c.v.hcore) x.pcn then .stop 0x21 x.off
  else if reads ∧ (List.range n).any fun i => isPois w (x.key + i) then .stop 0x20 x.off
  else .ok []

/-- Whether a lane's access is performed at the core that holds its word, where alone it can race: it consumes no poison, that core is
in reach, and no note says that the request is lost (R40, R81, R84, R91, R168). -/
def arrives (w : W) (c : Course) (x : Scr) : Bool :=
  (scrPoison c x).isNone && !coreAway w (pcnOf w c.v.hcore) x.pcn && (match c.k.tmo with
    | some (m, false) => !mHas m x.lane
    | _ => true)

/-- The units of a consort that accesses touch and that are not in place (R70). -/
def scrAway (w : W) (kc wd : Nat) (l : List Scr) (n : Nat) : Option Unit70 :=
  (l.flatMap fun x => [Unit70.scratch x.pcn (blockAt w x.pcn wd x.phys),
      Unit70.scratch x.pcn (blockAt w x.pcn wd (x.phys + n - 1))]).find? fun u =>
    !inPlace w kc u && !(match u with | .scratch pcn _ => pcnMuted w pcn | _ => false)

/-- What a scratch access does: its lane, first key; the state and the value it returns. -/
abbrev ScrPerform := Env → W → Course → Scr → W × Nat

/-- A scratch memory instruction (R76, R84, R250). -/
def scrLanes (h : Hd) (u : Uses) (atype n : Nat) (align reads write atom : Bool) (off : Course → Nat → Nat)
    (f : ScrPerform) : Meaning := fun e w s =>
  let on := lanesOn s.c h s.x
  let u := laneUses h u
  staged e w s u h.sw fun w =>
    match consort? w s.c.id.consort with
    | none => w
    | some k =>
      let kc := s.c.id.consort
      let all := (mLanes on).map fun l => (l, scrAccess w s.c k n l (off s.c l))
      let seg := all.filterMap fun x => if x.2.isNone then some x.1 else none
      let mis := (mLanes on).filter fun l => align && off s.c l % n != 0
      let fault := fun cause lanes =>
        faulted e w (takeEntries s.c u.entries) s fun w c => faultLanes e w c cause (maskOf lanes) (off c) atype n
      if seg ≠ [] then fault 0x04 seg
      else if mis ≠ [] then fault 0x03 mis
      else
        let acc := all.filterMap (·.2)
        match scrAway w kc k.world acc n with
        | some x => stallOn w s.c (.claim x)
        | none =>
          let raced := acc.filter fun x => arrives w s.c x && (scrWords x n).any (racesWith k s.c.id.cid write atom)
          if readers s.c h s.x ≠ 0 ∧ (poisonedUnit s.c u).isSome then
            memFinish e w s h u (consumed [] (readers s.c h s.x) ((poisonedUnit s.c u).getD 0)) atype n
          else if raced ≠ [] then
            faulted e w { takeEntries s.c u.entries with k := { s.c.k with tmo := none } } s fun w c =>
              faultLanes e (bumpCore w (pcnOf w c.v.hcore) 5 1) c 0x07 (maskOf (raced.map (·.lane))) (off c) atype n
          else
            let l0 := acc.map fun x => (x.lane, scrResult w s.c x n reads)
            let l := timedOut s.c l0 (off s.c)
            let go := fun (ls : List (Nat × LaneRes)) => acc.filter fun x => (oksOf ls).any fun y => y.1 == x.lane
            let run := fun (w : W) (xs : List Scr) => xs.foldl (fun (st : W × List (Nat × Nat)) x =>
              let (w, v) := f e st.1 s.c x
              (w, st.2 ++ [(x.lane, v)])) (w, [])
            let late := acc.filter fun x => (ghosts s.c l0).any fun y => y.1 == x.lane
            let w := noteRaces w kc s.c.id.cid write atom ((late ++ go l).flatMap fun x => scrWords x n)
            let w := (run w late).1
            let (w, vals) := run w (go l)
            let w := if write ∧ !atom then cleanCovered w ((go l).flatMap fun x => (List.range n).map (x.key + ·)) else w
            memFinish e w s h u (performed u l vals atype n) atype n

/-- LDS (R253). -/
def execLds (h : Hd) (d a : R64) (z : Sz) (o : R64) (s : State) :=
  runIssue (scrLanes h { Uses.none with v := [a.val], d := dataRegs z d.val, entries := (dataRegs z d.val).length }
    0 (szBytes z) false true false false (fun c k => regOff c a (lmOff z o) k)
    (fun e w _ x => (w, rdN e w x.key (szBytes z)))) s

/-- STS (R253). -/
def execSts (h : Hd) (d a : R64) (z : Sz) (o : R64) (s : State) :=
  runIssue (scrLanes h { Uses.none with v := a.val :: dataRegs z d.val }
    1 (szBytes z) false false true false (fun c k => regOff c a (lmOff z o) k)
    (fun _ w c x =>
      (wrN w x.key (szBytes z) (if z = .b8 then getV2 c d.val x.lane else vNum c d x.lane), 0))) s

/-- A scratch atomic (R256). -/
def scrAtomic (h : Hd) (o : AtOp) (ret : Bool) (a b : R64) : Meaning :=
  let (src, dst) := atRegs o b.val
  let d := if ret then dst else []
  scrLanes h { Uses.none with v := a.val :: src, d := d, entries := d.length } (if ret then 3 else 4) 4 true true true true
    (fun c k => vNum c a k)
    (fun e w c x =>
      let (y, z) := atOperands o c b.val x.lane
      let old := rdN e w x.key 4
      (wrN w x.key 4 (atNew o old y z), old))

def execAtadds (h : Hd) (_cn : Bool) (r : Bool) (f : Bool) (a b : R64) (_o : Ord4) (s : State) :=
  runIssue (scrAtomic h (if f then .addF else .add32) r a b) s
def execAtcass (h : Hd) (_cn : Bool) (a b : R64) (_o : Ord4) (s : State) := runIssue (scrAtomic h .cas32 true a b) s

end Sys2Proof.Machine
end

