-- ==== Sys2Proof/Machine/UniMem.lean ====
section
/-! DEFINITION. Uniform memory and moves: SLD, SST, ARGLD, VTOS, and the uniform access they share (R272, R275 to R277). -/

namespace Sys2Proof.Machine

/-- MIXUNI in a course of several owners (R42). -/
def mixCheck : W → Course → Option Nat := fun _ c => if manyOwners c then some 0x05 else none

/-- The owner slot under which a uniform access translates (R96). -/
def uniSlot (s : Sel) : Nat := slotOfMask s.c s.x

/-- A uniform access stopped at performance: the whole course parks, its entries of the window taken, with one entry per owner
slot of X in a mixed course (R67, R165, R319). -/
def uniStop (e : Env) (w : W) (s : Sel) (u : Uses) (g : GlobalOp) (cause va : Nat) : W :=
  let c := takeEntries { s.c with k := { s.c.k with tmo := none } } u.entries
  faulted e w c s fun w c => takeFaults e w c ((bySlot c s.x).map fun (sl, m) =>
    entryOf c cause sl m va (slotAsid c sl) s.pc.toNat g.atype g.size false) none

/-- A uniform access: a translation fault parks the whole course with the lanes of X, its entries of the window taken, and has no other
effect, a wait stalls it; with clean sources `act` is its effect on memory and `f` the rest, unless it stops at performance (R101, R165,
R168, R272, log entry 61). -/
def uniAccess (e : Env) (w : W) (s : Sel) (u : Uses) (g : GlobalOp) (slot : Nat) (act f : W → List (Loc × Nat × Nat) → W) : W :=
  match slotAccess e w s.c g slot 0 with
  | .stall x => stallOn w s.c x
  | .split cause va m => faulted e w (takeEntries { s.c with k := { s.c.k with tmo := none } } u.entries) s fun w c =>
      takeFaults e w c [entryOf c cause slot s.x va (slotAsid c slot) s.pc.toNat g.atype g.size false] m
  | .stop cause va => sourced e w s u s.x fun w => uniStop e w s u g cause va
  | .ok ls => sourced e w s u s.x fun w =>
    match s.c.k.tmo with
    | some (_, performed) => uniStop e (if performed then act w ls else w) s u g 0x22 (g.va 0)
    | none => f (act w ls) ls

/-- A uniform access of n bytes at an address. -/
def uniOp (nd : Need) (n va : Nat) : GlobalOp where
  nd := nd
  atype := if nd = .read then 0 else 1
  size := n
  align := false
  host := true
  regs := []
  seg := fun _ => none
  va := fun _ => va
  pieces := fun _ => piecesOf va n

/-- S results of a read, low word first. -/
def sWords (d : List Nat) (v : Nat) : List (Nat × Word) := d.zipIdx.map fun (r, i) => (r, BitVec.ofNat 32 (v / 2 ^ (32 * i)))

/-- SLD (R275). -/
def execSld (h : Hd) (d a : R64) (z : Sz) (o : R64) (s : State) :=
  runIssue (
    let ds := dataRegs z d.val
    let u := { Uses.none with s := pairOf a.val, entries := ds.length }
    uniformL h u 4 mixCheck fun e w s =>
      let va := addOff (getS2 s.c a.val) (lmOff z o)
      uniAccess e w s (uniUses h u) (uniOp .read (szBytes z) va) (uniSlot s) (fun w _ => w) fun w ls =>
        let v := leNat (rdPlaces e w (slotWorld s.c (uniSlot s)) ls)
        let c := advance (takeEntries s.c ds.length) s.x 4
        done e (launchS w c (sWords ds v)) c s h.sw false) s

/-- SST (R275). -/
def execSst (h : Hd) (d a : R64) (z : Sz) (o : R64) (s : State) :=
  runIssue (
    let u := { Uses.none with s := pairOf a.val ++ dataRegs z d.val }
    uniformL h u 4 mixCheck fun e w s =>
      let va := addOff (getS2 s.c a.val) (lmOff z o)
      let v := if z = .b8 then getS2 s.c d.val else (getS s.c d.val).toNat
      uniAccess e w s (uniUses h u) (uniOp .write (szBytes z) va) (uniSlot s)
        (fun w ls => wrPlaces e w (slotWorld s.c (uniSlot s)) ls (leBytes (szBytes z) v))
        fun w _ => done e w (advance s.c s.x 4) s h.sw false) s

/-- ARGLD (R276): bytes 0 to 7 of a single launch's slot 0 are the message's PAYLOAD (R133). -/
def execArgld (h : Hd) (d : R64) (slot : R8) (i : Fin 256) (s : State) :=
  runIssue (
    let u := { Uses.none with entries := 1, sect := slotSects slot.val [6, 7] }
    uniformL h u 4 (fun _ _ => none) fun e w s =>
    let o := 4 * i.val
    let c := advance (takeEntries s.c 1) s.x 4
    if slotArgLim s.c slot.val < o + 4 then
      faulted e w (takeEntries s.c 1) s fun w c => faultLanes e w c 0x04 s.x (fun _ => o) 0 4
    else match (if slot.val = 0 ∧ o < 8 then s.c.id.payload else none) with
      | some p => sourced e w s (uniUses h u) s.x fun w =>
        done e (launchS w c [(d.val, BitVec.ofNat 32 (p.toNat / 2 ^ (8 * o)))]) c s h.sw false
      | none =>
        let va := addOff (slotArgBase s.c slot.val) o
        uniAccess e w s (uniUses h u) (uniOp .read 4 va) slot.val (fun w _ => w) fun w ls =>
          let v := leNat (rdPlaces e w (slotWorld s.c slot.val) ls)
          done e (launchS w c [(d.val, BitVec.ofNat 32 v)]) c s h.sw false) s

/-- VTOS (R277). -/
def execVtos (h : Hd) (d a : R64) (lane : Fin 32) (s : State) :=
  runIssue (uniformC h { Uses.none with v := [a.val], entries := 1 } mixCheck fun e w s =>
    let c := advance (takeEntries s.c 1) s.x 4
    done e (launchS w c [(d.val, vAt s.c a lane.val)]) c s h.sw false) s

end Sys2Proof.Machine
end

