-- ==== Sys2Proof/Machine/UniCtl.lean ====
section
/-! DEFINITION. Uniform control 0x18 to 0x1F: UBRA, UCALL, URET, UJMPX, EXIT, YIELD, SLEEP, WAITTL (R279 to R283). -/

namespace Sys2Proof.Machine

/-- Whether the turn lane is among the lanes that jump to a lower address (R145, R279). -/
def uniBack (s : Sel) (target : Word) : Bool :=
  match s.turn with
  | some t => mHas s.x t.lane && decide (target < s.pc)
  | none => false

/-- A transfer of every lane of X to the value of a register; a target off a word raises MISALIGN (R279). -/
def uniJumpReg (h : Hd) (a : R64) : Meaning :=
  let u := { Uses.none with s := [a.val] }
  uniformL h u 4 (fun _ _ => none) fun e w s =>
    let t := getS s.c a.val
    if t.toNat % 4 ≠ 0 then faulted e w s.c s fun w c => faultFree e w c 0x03 s.x (fun _ => t.toNat)
    else sourced e w s (uniUses h u) s.x fun w => done e w (setLpcs s.c s.x fun _ => t) s h.sw (uniBack s t)

/-- UBRA (R279). -/
def execUbra (h : Hd) (o : Fin 1048576) (s : State) :=
  runIssue (uniform h Uses.none fun e w s =>
    let t := s.pc + branchOff 20 o.val
    done e w (setLpcs s.c s.x fun _ => t) s h.sw (uniBack s t)) s

/-- UCALL (R279). -/
def execUcall (h : Hd) (d : R64) (i : Fin 16384) (s : State) :=
  runIssue (uniform h Uses.none fun e w s =>
    let t := s.pc + branchOff 14 i.val
    done e w (setLpcs (putS s.c d.val (s.pc + 4)) s.x fun _ => t) s h.sw false) s

/-- URET (R279). -/
def execUret (h : Hd) (a : R64) (s : State) := runIssue (uniJumpReg h a) s

/-- UJMPX (R279). -/
def execUjmpx (h : Hd) (a : R64) (s : State) := runIssue (fun e w s => uniJumpReg h a e w s) s

/-- Every live lane exited: the course ends (R280, R51). -/
def exitCourse (h : Hd) : Meaning := fun e w s => done e w (setStOf s.c (liveM s.c) 3) s h.sw false

/-- EXIT (R280). -/
def execExit (h : Hd) (s : State) := runIssue (uniform h Uses.none (exitCourse h)) s

/-- EXIT.SUCC's own checks: WID field 1 equal to 0, a single owner (R281). -/
def succCheck : W → Course → Option Nat := fun w c => if c.id.j ≠ 0 then some 0x01 else mixCheck w c

/-- EXIT.SUCC: the header is read, named as the consort's successor, and the course ends (R280, R281). -/
def execExitSucc (h : Hd) (a : R64) (s : State) :=
  runIssue (
    let u := { Uses.none with s := pairOf a.val }
    uniformL h u 4 succCheck fun e w s =>
    uniAccess e w s (uniUses h u) (uniOp .read 128 (getS2 s.c a.val)) (uniSlot s) (fun w _ => w) fun w ls =>
      let hd := rdPlaces e w (slotWorld s.c (uniSlot s)) ls
      let w := updConsort w s.c.id.consort fun k => { k with succ := some hd, succPriv := s.c.id.priv }
      exitCourse h e w s) s

/-- A park at a switch marker: the issue settles, the window closes, then the whole course parks (R67, R142). -/
def parkMark (e : Env) (w : W) (c : Course) (s : Sel) (cause : Nat) (aw : Await) (join : Nat) (dl : Option Nat) : W :=
  let (w, c) := settle e w c s true false
  parkCourse e w c cause aw join dl

/-- YIELD (R282). -/
def execYield (h : Hd) (s : State) :=
  runIssue (fun e w s => uniform { h with sw := true } Uses.none
    (fun e w s => parkMark e w (advance s.c s.x 4) s 0x84 .nothing 0 none) e w s) s

/-- SLEEP (R282): t ticks; a time of 0 acts as YIELD. -/
def execSleep (h : Hd) (a : R64) (s : State) :=
  runIssue (uniform { h with sw := true } { Uses.none with s := [a.val] } fun e w s =>
    let t := (getS s.c a.val).toNat
    let c := advance s.c s.x 4
    if t = 0 then parkMark e w c s 0x84 .nothing 0 none
    else parkMark e w c s 0x81 .sleep 1 (some (w.now + t))) s

/-- Whether a TL handle names a counter (R48). -/
def tlValid (v : BitVec 64) : Bool := bvF v 10 1 == 1

/-- The PCN and number of the counter that a TL handle of a course names (R48, R161). -/
def tlPlace (w : W) (c : Course) (v : BitVec 64) : Nat × Nat :=
  (match consort? w c.id.consort with
    | some k => consortPcn w k (bvF v 8 2)
    | none => 0, bvF v 0 8)

/-- ILLOP for a TL handle with VALID 0 (R48). -/
def tlCheck (t : Fin 4) : W → Course → Option Nat := fun _ c => if tlValid (getTL c t.val) then none else some 0x01

/-- A request of a course to another tile, which is no access of R102's kinds, that ends in a fault: the course parks with one entry per
owner slot in a mixed course (R165, R286, R319). -/
def dispFault (e : Env) (w : W) (c : Course) (s : Sel) (d cause : Nat) (mx : Option (Nat × Nat)) : W :=
  faulted e w { c with k := { c.k with tmo := none } } s fun w c => takeFaults e w c ((bySlot c s.x).map fun (sl, m) =>
    entryFree c cause sl m d (slotAsid c sl) s.pc.toNat) mx

/-- An operation on the state of a core of the consort: where that core is muted or no route leads to it, the course stops with MUTED,
its entries of the window taken, and the operation is not performed; no address names what it would have reached, so the VA is a free
value (R67, R129, R164, R184, log entry 6). -/
def unlessAway (e : Env) (w : W) (s : Sel) (entries pcn : Nat) (f : W → W) : W :=
  if coreAway w (pcnOf w s.c.v.hcore) pcn then
    dispFault e w (takeEntries s.c entries) s (Config.noVa 0x21 s.pc.toNat).toNat 0x21 none
  else f w

/-- WAITTL's body; `dl` is the DL form's Q and deadline register (R283). -/
def waitTl (h : Hd) (t : Fin 4) (a : R64) (dl : Option (R8 × R64)) : Meaning :=
  uniformC { h with sw := true }
    { Uses.none with
      s := a.val :: (match dl with | some (_, b) => [b.val] | none => [])
      sect := [(sectTL, t.val)] } (tlCheck t) fun e w s =>
    let (p, i) := tlPlace w s.c (getTL s.c t.val)
    let n := getS s.c a.val
    let c := advance s.c s.x 4
    unlessAway e w s 0 p fun w =>
    let set := fun c (b : Bool) => match dl with | some (q, _) => putQ c q.val b | none => c
    if (tlc w p i).reached n then done e w (set c true) s true false
    else match dl with
      | none => parkMark e w c s 0x80 (.timeline p i n none) 1 none
      | some (q, b) =>
        let d := (getS s.c b.val).toNat
        if d = 0 then done e w (putQ c q.val false) s true false
        else parkMark e w c s 0x80 (.timeline p i n (some q)) 1 (some (w.now + d))

def execWaittl (h : Hd) (t : Fin 4) (a : R64) (s : State) := runIssue (waitTl h t a none) s
def execWaittlDl (h : Hd) (t : Fin 4) (q : R8) (a b : R64) (s : State) := runIssue (waitTl h t a (some (q, b))) s

end Sys2Proof.Machine
end

