-- ==== Sys2Proof/Machine/Engine.lean ====
section
/-! DEFINITION. Engine instructions 0x28 to 0x37: their issue, numbers and checks (R298, R302 to R312). -/

namespace Sys2Proof.Machine

/-! What the instructions read (R298). -/

/-- A course's consort; one with no cores where there is none. -/
def consortOf (w : W) (c : Course) : Consort :=
  (consort? w c.id.consort).getD
    { launch := 0, idx := 0, part := 0, world := 0, ctx := 0, pinned := false, cores := [], st := .slotted, win := 0, pw := [],
      accN := 0, rows := [], scales := [], tlFirst := 0, tlCnt := 0, csave := 0, nCourses := 0, live := 0, bars := [], full := 0,
      races := [], away := [], succ := none, succPriv := false, lost := none, haltb := false, barPend := false, stuck := false, kept := false,
      asid0 := 0, cid0 := 0, slotL := 0, slotI := 0 }

/-- The frame sectors and numbers of the handles an instruction names. -/
def handleSect (ds as ts : List Nat) : List (Nat × Nat) :=
  ds.map (fun n => (sectD n, n)) ++ as.map (fun n => (sectA n, n)) ++ ts.map fun n => (sectTL, n)

/-- An engine instruction that takes a number: its S destination, its registers, its descriptors, its A handle, its TL
handle, its own ILLOP check and the operation it starts. -/
structure EngInstr where
  sd : Nat
  comp : Bool
  srcs : List Nat
  ds : Course → List Nat
  ah : Option Nat
  tl : Nat
  check : Course → Consort → Bool
  kind : EKind
  op : Nat

/-- The companion register's value (R218). -/
def EngInstr.compVal (x : EngInstr) (c : Course) : Word := getS c (x.sd + 32)

/-- The ILLOP checks at issue: TL handle, A handle, descriptors, the entry's own (R45, R47, R48, R298). -/
def EngInstr.ill (x : EngInstr) (c : Course) (k : Consort) : Bool :=
  !tlValid (getTL c x.tl) ||
  (match x.ah with
    | some a => !regionOk k.cores.length k.accN (regionOf (getA c a))
    | none => false) ||
  (x.ds c).any (fun d => panelBad (getD256 c d)) || x.check c k

/-- The segment check of the panels (R78). -/
def EngInstr.segOk (x : EngInstr) (c : Course) (k : Consort) : Bool := (x.ds c).all fun d => panelSeg c k (getD256 c d)

/-- The VA of a panel's SEGLIM: the consort address of its element (0, 0), which is the offset that was checked (R78, R164). -/
def EngInstr.segVa (x : EngInstr) (c : Course) (k : Consort) : Nat :=
  match (x.ds c).find? fun d => !panelSeg c k (getD256 c d) with
  | some d => (parsePanel (getD256 c d)).csel * 2 ^ 21 + (parsePanel (getD256 c d)).base
  | none => 0

/-- The owner slots whose registers an engine instruction reads: those of its panels, with their segments, or COLL's (R78, R298). -/
def EngInstr.slotSect (x : EngInstr) (c : Course) : List (Nat × Nat) :=
  if x.kind = .coll then slotSects (bvF (x.compVal c) 0 3) [0]
  else (x.ds c).flatMap fun d => slotSects (parsePanel (getD256 c d)).own [0, 2, 3]

/-- The registers of an engine instruction. -/
def EngInstr.uses (x : EngInstr) (c : Course) : Uses :=
  { Uses.none with
    s := x.srcs ++ (if x.comp then [x.sd + 32] else [])
    sect := handleSect (x.ds c) x.ah.toList [x.tl] ++ x.slotSect c }

/-- Whether the engine that would take an operation accepts one (R173). -/
def engineOk (w : W) (c : Course) (k : EKind) : Bool :=
  let p := pcnOf w c.v.hcore
  if k.chisel then (quad w (4 * p + c.v.hquad)).chiselOk
  else if k.isCopy then (core w p).copyOk
  else if k = .coll then (core w p).collOk else true

/-- The steps of a Chisel operation (R303 to R308). -/
def stepCount (k : EKind) (region : BitVec 128) (d1 d2 : BitVec 256) : Nat :=
  let r := regionOf region
  let p := parsePanel d1
  let q := parsePanel d2
  match k with
  | .mma .. => blockCount r * ((max p.vcols q.vrows + 15) / 16)
  | .azero | .astp _ | .aldp _ => blockCount r
  | .arow _ => r.nrows / 64
  | .scld b => if b then p.rows else p.cols
  | .pswz .. => (q.rows + 63) / 64 * ((q.cols + 63) / 64)
  | _ => 0

/-- The lines of a copy: VROWS in row mode, VCOLS in column mode (R309). -/
def copyLines (p : Panel) : Nat := if p.col then p.vcols else p.vrows

/-- The elements of a copy's line. -/
def copyPer (p : Panel) : Nat := if p.col then p.vrows else p.vcols

/-- The operation that an instruction hands to its engine (R298). -/
def EngInstr.make (x : EngInstr) (w : W) (c : Course) (s : Sel) (n : Word) : EngOp :=
  let ds := x.ds c
  let d1 := (ds.head?.map (getD256 c)).getD 0
  let d2 := (ds[1]?.map (getD256 c)).getD 0
  let p := parsePanel d1
  let slot := if x.kind = .coll then bvF (x.compVal c) 0 3 else if ds = [] then slotOfMask c s.x else p.own
  let region := getA c (x.ah.getD 0)
  let (tp, ti) := tlPlace w c (getTL c x.tl)
  let sa := x.srcs.headD 0
  { kind := x.kind, cid := c.id.cid, consort := c.id.consort, part := c.id.part, launch := c.id.launch,
    pcn := pcnOf w c.v.hcore, quad := c.v.hquad, tlPcn := tp, tlIdx := ti, num := n, ah := x.ah.getD 0, region := region,
    d1 := d1, d2 := d2, b1 := slotScrBase c p.own, b2 := slotScrBase c (parsePanel d2).own, dnums := ds,
    comp := x.compVal c, va := BitVec.ofNat 64 (getS2 c sa), va2 := BitVec.ofNat 64 (getS2 c (sa + 2)), slot := slot,
    asid := slotAsid c slot, priv := c.id.priv, world := slotWorld c slot, pc := s.pc.toNat, step := 0,
    total := stepCount x.kind region d1 d2,
    units := if x.kind.isCopy then List.range (copyLines p) else [],
    code := 0, skip := 0, stopped := false, tmo := false, tmoDone := false, tmoWalk := false,
    mixed := c.id.mixed, desc := [], mtab := [], faulted := [], round := 0, order := w.nextOrder }

/-- The A handle of an operation at its issue: SEQ, OP, TLH, BUSY, STEP 0 (R47, R298). -/
def handleStart (h : BitVec 128) (n : Word) (op tl : Nat) : BitVec 128 :=
  bvSet (bvSet (bvSet (bvSet (bvSet h 96 32 n.toNat) 72 24 0) 64 7 op) 60 2 tl) 58 1 1

/-- A number taken on a counter through a TL handle: the state, the number, the course with LAST and S(SD) written (R48,
R161, R298). -/
def takeNumber (w : W) (c : Course) (tl sd : Nat) : W × Word × Course :=
  let (p, i) := tlPlace w c (getTL c tl)
  let (n, t) := (tlc w p i).take
  let w := updTlc w p i fun _ => t
  (w, n, putS (putTL c tl (bvSet (getTL c tl) 32 32 n.toNat)) sd n)

/-- The operation handed over (R298, R299). One without lines completes at once; a TLSIG is done when its counter stands
just below it. -/
def handOver (e : Env) (w : W) (o : EngOp) : W :=
  let n := w.nextOp
  let w := { w with nextOp := n + 1, nextOrder := w.nextOrder + 1, ops := tPut w.ops n (skipMuted w o) }
  if o.kind.isCopy ∧ o.units = [] then completeOp e w n
  else if o.kind = .tlsig then recheckStalls (settleTlc w o.tlPcn o.tlIdx)
  else w

/-- The issue of an engine instruction that takes a number (R298); a counter on a muted core gives none (R129). -/
def engIssue (h : Hd) (x : EngInstr) : Meaning := fun e w s =>
  uniformL h (x.uses s.c) 4 (fun w c => if x.ill c (consortOf w c) then some 0x01 else none) (fun e w s =>
    let k := consortOf w s.c
    if !x.segOk s.c k then faulted e w s.c s fun w c => faultFree e w c 0x04 s.x (fun _ => x.segVa c k)
    else sourced e w s (uniUses h (x.uses s.c)) s.x fun w =>
      let (p, i) := tlPlace w s.c (getTL s.c x.tl)
      unlessAway e w s 0 p fun w => match x.ah with
        | some a => if isBusy (getA s.c a) then stallOn w s.c (.handle a) else engGo e w s p i
        | none => engGo e w s p i) e w s
where
  /-- The number taken and the operation handed over, once no handle is busy. -/
  engGo (e : Env) (w : W) (s : Sel) (p i : Nat) : W :=
    if (tlc w p i).isFull then stallOn w s.c (.counter p i)
    else if !engineOk w s.c x.kind then stallOn w s.c .control
    else
      let o := x.make w s.c s ((tlc w p i).take).1
      let (w, n, c) := takeNumber w s.c x.tl x.sd
      let c := match x.ah with
        | some a => putA c a (handleStart (getA c a) n x.op x.tl)
        | none => c
      handOver e (done e w (advance c s.x 4) s h.sw false) o

/-! DSET (R302). -/

/-- A DSET's frame: its own ILLOP and SEGLIM checks, its stall, its write. -/
def dsetWith (h : Hd) (u : Uses) (ill seg : W → Course → Bool) (stall : W → Course → Option Stall)
    (f : Course → Course) : Meaning :=
  uniformL h u 4 (fun w c => if ill w c then some 0x01 else none) fun e w s =>
    if seg w s.c then
      faulted e w s.c s fun w c => faultFree e w c 0x04 s.x (fun _ => (Config.noVa 0x04 s.pc.toNat).toNat)
    else sourced e w s (uniUses h u) s.x fun w => match stall w s.c with
      | some x => stallOn w s.c x
      | none => done e w (advance (f s.c) s.x 4) s h.sw false

/-- A register run of S registers as a number, the first lowest. -/
def sRun (c : Course) (b n : Nat) : Nat := (List.range n).foldl (fun v i => v + (getS c (b + i)).toNat * 2 ^ (32 * i)) 0

/-- DSET.D: it stalls while an operation of the course uses the register (R45, R302). -/
def execDsetD (h : Hd) (n : Fin 16) (b : R64) (s : State) :=
  runIssue (dsetWith h { Uses.none with s := (List.range 8).map (b.val + ·) } (fun _ _ => false) (fun _ _ => false)
    (fun w c => if w.ops.any fun (_, o) => o.cid == c.id.cid && o.dnums.contains n.val then some (.panel n.val) else none)
    fun c => putD256 c n.val (BitVec.ofNat 256 (sRun c b.val 8))) s

/-- The handle that DSET.A would write: bits 127:58 are 0 (R302). -/
def newHandle (c : Course) (b : R64) : BitVec 128 := BitVec.ofNat 128 (getS2 c b.val % 2 ^ 58)

/-- DSET.A (R302). -/
def execDsetA (h : Hd) (n : Fin 16) (b : R64) (f : Fin 16) (s : State) :=
  runIssue (dsetWith h { Uses.none with s := pairOf b.val, sect := handleSect [] [f.val] [] }
    (fun w c =>
      let k := consortOf w c
      let from_ := regionOf (getA c f.val)
      let new := regionOf (newHandle c b)
      from_.nrows == 0 || from_.ncols == 0 || !regionOk k.cores.length k.accN new || !regionIn new from_)
    (fun _ _ => false)
    (fun _ c =>
      if isBusy (getA c n.val) then some (.handle n.val)
      else if isBusy (getA c f.val) then some (.handle f.val) else none)
    fun c => putA c n.val (newHandle c b)) s

/-- DSET.TL, which reads TLALLOT (R40, R48, R55, R302). -/
def execDsetTl (h : Hd) (n : Fin 4) (b : R64) (s : State) :=
  runIssue (dsetWith h { Uses.none with s := pairOf b.val, sect := [(sectStatus, 6)] }
    (fun _ c => getS2 c b.val / 2 ^ 11 != 0)
    (fun w c =>
      let t := getS2 c b.val
      let first := bvF c.id.tlallot 0 8
      bitAt t 10 && (decide ((consortOf w c).cores.length ≤ bitsAt t 8 2) || decide (bitsAt t 0 8 < first) ||
        decide (first + bvF c.id.tlallot 8 8 ≤ bitsAt t 0 8)))
    (fun _ _ => none)
    fun c => putTL c n.val (BitVec.ofNat 64 (getS2 c b.val % 2 ^ 11))) s

/-! Chisel operations (R303 to R308). -/

/-- The columns of the companion of a scaled MMA (R218). -/
def mmaCols (x : Word) : Nat × Nat := (bvF x 0 16, bvF x 16 16)

/-- MMA's own checks (R34, R89, R303). -/
def mmaCheck (ns : Bool) (da db sd : Nat) (c : Course) (k : Consort) : Bool :=
  let p := parsePanel (getD256 c da)
  let q := parsePanel (getD256 c db)
  let g := (max p.vcols q.vrows + 15) / 16
  let (ca, cb) := mmaCols (getS c (sd + 32))
  !mmaPair p.fmt q.fmt ns || (!ns && (decide (k.accN / 4 < ca + g) || decide (k.accN / 4 < cb + g)))

/-- MMA (R303). -/
def execMma (h : Hd) (d : Fin 32) (ns : Bool) (ah da db : Fin 16) (t : Fin 4) (s : State) :=
  runIssue (fun e w s =>
    let (ca, cb) := mmaCols (getS s.c (d.val + 32))
    engIssue h
      { sd := d.val, comp := !ns, srcs := [], ds := fun _ => [da.val, db.val], ah := some ah.val, tl := t.val,
        check := mmaCheck ns da.val db.val d.val, kind := .mma ns ca cb, op := 0x29 } e w s) s

/-- The layout shared by the other Chisel instructions (R304). -/
def chiselInstr (op : Nat) (k : EKind) (comp : Bool) (d : Fin 32) (ah : Fin 16) (ds : Course → List Nat) (t : Fin 4)
    (check : Course → Consort → Bool) : EngInstr :=
  { sd := d.val, comp := comp, srcs := [], ds := ds, ah := some ah.val, tl := t.val, check := check, kind := k, op := op }

/-- AZERO (R304). -/
def execAzero (h : Hd) (d : Fin 32) (ah : Fin 16) (t : Fin 4) (s : State) :=
  runIssue (engIssue h (chiselInstr 0x2A .azero false d ah (fun _ => []) t fun _ _ => false)) s

/-- ASTP; an L6 panel rounds only to nearest even (R304, R305). -/
def execAstp (h : Hd) (d : Fin 32) (ah dp : Fin 16) (r : Rm) (t : Fin 4) (s : State) :=
  runIssue (engIssue h (chiselInstr 0x2B (.astp r) false d ah (fun _ => [dp.val]) t fun c _ =>
    (parsePanel (getD256 c dp.val)).fmt == 6 && r != .rne)) s

/-- ALDP (R304). -/
def execAldp (h : Hd) (d : Fin 32) (ah dp : Fin 16) (add : Bool) (t : Fin 4) (s : State) :=
  runIssue (engIssue h (chiselInstr 0x2C (.aldp add) false d ah (fun _ => [dp.val]) t fun _ _ => false)) s

/-- AROW; its panel is FP32 (R306). -/
def execArow (h : Hd) (d : Fin 32) (ah dp : Fin 16) (o : RowOp) (t : Fin 4) (s : State) :=
  runIssue (engIssue h (chiselInstr 0x2D (.arow o) false d ah (fun _ => [dp.val]) t fun c _ =>
    (parsePanel (getD256 c dp.val)).fmt != 0)) s

/-- SCLD's own checks of its panel and companion (R307). -/
def scldCheck (colB : Bool) (d dp : Nat) (c : Course) (k : Consort) : Bool :=
  let p := parsePanel (getD256 c dp)
  let x := getS c (d + 32)
  let col := bvF x 0 9
  let e0 := bvF x 9 9
  p.fmt != 5 || bvF x 20 4 == 0 || decide (k.cores.length ≤ bvF x 18 2) || bvF x 24 8 != 0 ||
  (if colB then decide (k.accN / 4 < col + p.rows) || decide (256 < e0 + p.cols)
   else decide (k.accN / 4 < col + p.cols) || decide (512 < e0 + p.rows))

/-- SCLD (R307). -/
def execScld (h : Hd) (d : Fin 32) (ah dp : Fin 16) (colB : Bool) (t : Fin 4) (s : State) :=
  runIssue (engIssue h (chiselInstr 0x2E (.scld colB) true d ah (fun _ => [dp.val]) t (scldCheck colB d.val dp.val))) s

/-- The byte range of a panel from its consort core's window: core, first and end offsets (R308). -/
def panelRange (c : Course) (p : Panel) : Nat × Nat × Nat :=
  (p.csel, slotScrBase c p.own + p.base, slotScrBase c p.own + p.base + p.extent)

/-- PSWZ's own checks: the companion, an L6 destination's rounding, overlapping panels (R308). -/
def pswzCheck (r : Rm) (d dp : Nat) (c : Course) (_ : Consort) : Bool :=
  let x := getS c (d + 32)
  let p := parsePanel (getD256 c dp)
  let q := parsePanel (getD256 c (bvF x 0 4))
  let (ca, la, ha) := panelRange c p
  let (cb, lb, hb) := panelRange c q
  bvF x 4 28 != 0 || (q.fmt == 6 && r != .rne) || (ca == cb && decide (la < hb) && decide (lb < ha))

/-- PSWZ (R308). -/
def execPswz (h : Hd) (d : Fin 32) (ah dp : Fin 16) (r : Rm) (tr : Bool) (t : Fin 4) (s : State) :=
  runIssue (engIssue h (chiselInstr 0x37 (.pswz r tr) true d ah
    (fun c => [dp.val, bvF (getS c (d.val + 32)) 0 4]) t (pswzCheck r d.val dp.val))) s

/-! Copies and collectives (R309, R310). -/

/-- The checks of a copy's companion: reserved bits and CMASK (R309). -/
def copyCheck (multi : Bool) (d : Nat) (c : Course) (k : Consort) : Bool :=
  let x := getS c (d + 32)
  let m := bvF x 24 4
  bvF x 28 4 != 0 || (if multi then m == 0 || decide (2 ^ k.cores.length ≤ m) else m != 0)

/-- The layout of the copy instructions (R309). -/
def copyInstr (op : Nat) (k : EKind) (d : Fin 32) (dp : Fin 16) (srcs : List Nat) (t : Fin 4) : EngInstr :=
  { sd := d.val, comp := true, srcs := srcs, ds := fun _ => [dp.val], ah := none, tl := t.val,
    check := copyCheck (k == .copym) d.val, kind := k, op := op }

def execCopy (h : Hd) (d : Fin 32) (dp : Fin 16) (a : R64) (t : Fin 4) (s : State) :=
  runIssue (engIssue h (copyInstr 0x2F .copy d dp (pairOf a.val) t)) s
def execCopym (h : Hd) (d : Fin 32) (dp : Fin 16) (a : R64) (t : Fin 4) (s : State) :=
  runIssue (engIssue h (copyInstr 0x30 .copym d dp (pairOf a.val) t)) s
def execCopyo (h : Hd) (d : Fin 32) (dp : Fin 16) (a : R64) (t : Fin 4) (s : State) :=
  runIssue (engIssue h (copyInstr 0x31 .copyo d dp (pairOf a.val) t)) s
def execGather (h : Hd) (d : Fin 32) (dp : Fin 16) (a : R64) (t : Fin 4) (s : State) :=
  runIssue (engIssue h (copyInstr 0x32 .gather d dp ((List.range 4).map (a.val + ·)) t)) s

/-- COLL (R310). -/
def execColl (h : Hd) (d : Fin 32) (a : R64) (t : Fin 4) (s : State) :=
  runIssue (engIssue h
    { sd := d.val, comp := true, srcs := pairOf a.val, ds := fun _ => [], ah := none, tl := t.val,
      check := fun c _ => bvF (getS c (d.val + 32)) 3 29 != 0, kind := .coll, op := 0x33 }) s

/-! Timelines (R312). -/

/-- TLSIG takes a number (R312, R122). -/
def execTlsig (h : Hd) (d : Fin 32) (t : Fin 4) (s : State) :=
  runIssue (engIssue h
    { sd := d.val, comp := false, srcs := [], ds := fun _ => [], ah := none, tl := t.val, check := fun _ _ => false,
      kind := .tlsig, op := 0x35 }) s

/-- TLREAD (R312). -/
def execTlread (h : Hd) (d : R64) (t : Fin 4) (s : State) :=
  runIssue (uniformC h { Uses.none with entries := 1, sect := handleSect [] [] [t.val] } (tlCheck t) fun e w s =>
    let (p, i) := tlPlace w s.c (getTL s.c t.val)
    let c := advance (takeEntries s.c 1) s.x 4
    unlessAway e w s 1 p fun w => done e (launchS w c [(d.val, (tlc w p i).done)]) c s h.sw false) s

/-- ENGST (R312). -/
def execEngst (h : Hd) (d a : R64) (t : Fin 4) (s : State) :=
  runIssue (uniformC h { Uses.none with s := [a.val], entries := 1, sect := handleSect [] [] [t.val] } (tlCheck t)
    fun e w s =>
      let (p, i) := tlPlace w s.c (getTL s.c t.val)
      let c := advance (takeEntries s.c 1) s.x 4
      unlessAway e w s 1 p fun w => done e (launchS w c [(d.val, (tlc w p i).status (getS s.c a.val))]) c s h.sw false) s

end Sys2Proof.Machine
end

