-- ==== Sys2Proof/Machine/Message.lean ====
section
/-! DEFINITION. Messages, arming entries and pools, and the device-side launch queue's entries (R130 to R134, R140, R314). -/

namespace Sys2Proof.Machine

/-- Who sends a message (R130): ASID, world, priority, and the function and tag port it came through. -/
structure Sender where
  asid : Nat
  world : Nat
  prio : Nat
  fn : Option Nat
  port : Option Nat
  deriving DecidableEq, Repr

/-- An arming entry's fields (R132). -/
structure Arming where
  hdr : Nat
  casid : Nat
  ctx : Nat
  poolt : Nat
  pooled : Bool
  valid : Bool
  ver : Nat
  deriving DecidableEq, Repr

/-- The fields of an entry's 32 bytes. -/
def parseArming (n : Nat) : Arming :=
  ⟨bitsAt n 80 48, bitsAt n 64 16, bitsAt n 32 2, bitsAt n 16 16, bitAt n 9, bitAt n 8, bitsAt n 0 8⟩

/-- The arming entry of a TAG; none when it cannot be read. -/
def armingAt (e : Env) (w : W) (p tag : Nat) : Option Arming :=
  (tableRead e w p ((part w p).armT + 32 * tag) 32).map fun b => parseArming (leNat b)

/-- The function to which a message of an origin reports (R151). -/
def senderFn (w : W) (p : Nat) (fn : Option Nat) : Nat := fn.getD (eventFn w p)

/-- A rejected message: host event 0x03 (R131). -/
def rejectMessage (w : W) (p : Nat) (x : Sender) (data : Nat) : W :=
  hostEvent w (senderFn w p x.fn) p x.world 0x03 (bitsAt data 64 12) (bitsAt data 0 48)

/-- A launch header read under CASID with privilege (R101, R131). -/
def readHdr (e : Env) (w : W) (p wd casid va : Nat) : Except Nat Hdr :=
  match devRead e w 72 p wd casid va 128 true with
  | .ok b => .ok (parseHdr b)
  | .error c => .error c

/-- A launch from an arming entry started, or host event 0x02 for an unreadable header (R131). -/
def fireLaunch (e : Env) (w : W) (p : Nat) (o : Origin) (owners : List Owner) (hdr casid ctx : Nat) (fn port : Option Nat) : W :=
  let wd := ((owners.head?).map (·.world)).getD 0
  match readHdr e w p wd casid hdr with
  | .error c => hostEvent w (senderFn w p fn) p wd 0x02 c hdr
  | .ok h =>
    let l := mkLaunch h p o owners casid casid true ctx fn port none
    if o = .pooled ∧ (h.widthc ≠ 0 ∨ h.cpc ≠ 0 ∨ h.ccount ≠ 1) then rejectLaunch e w l
    else startLaunch e w l (casid == (part w p).rAsid)

/-- A pool fired: its course forms as a launch of one consort; the pool empties and its timer stops (R134). -/
def firePool (e : Env) (w : W) (p tag : Nat) : W :=
  match tGet? (part w p).pools tag with
  | none => w
  | some q =>
    let w := updPart w p fun x => { x with pools := tDel x.pools tag }
    fireLaunch e w p .pooled q.owners q.hdr q.casid q.ctx q.fn q.port

/-- A tag's pool fired when its timer has run out: in one cycle with a message the timer is served first (R134). -/
def expirePool (e : Env) (w : W) (p tag : Nat) : W :=
  match tGet? (part w p).pools tag with
  | some q => if q.until_ ≤ w.now then firePool e w p tag else w
  | none => w

/-- The µs of a POOLT value (R132). -/
def pooltUs (t : Nat) : Nat := if t = 0 then 20 else t

/-- Whether a pool's values still are its entry's (R134). -/
def samePool (q : Pool) (a : Arming) : Bool :=
  a.pooled && q.hdr == a.hdr && q.casid == a.casid && q.ctx == a.ctx && q.poolt == a.poolt

/-- The conditions of a pooled entry (R134); a header that cannot be read breaks none of them. -/
def pooledOk (e : Env) (w : W) (p wd : Nat) (a : Arming) : Bool :=
  a.casid == (part w p).rAsid && decide (a.poolt ≤ 1000) &&
  match readHdr e w p wd a.casid a.hdr with
  | .ok h => h.widthc == 0 && h.cpc == 0 && h.ccount == 1
  | .error _ => true

/-- A message joining its entry's pool (R134). The pool's launch reports to the function, and came through the port, of its first
message. -/
def joinPool (e : Env) (w : W) (p tag : Nat) (a : Arming) (o : Owner) (fn port : Option Nat) : W :=
  let w := match tGet? (part w p).pools tag with
    | some q => if 32 < q.filled + o.lanes ∨ q.owners.length = 8 ∨ o.world ≠ q.world then firePool e w p tag else w
    | none => w
  let q := (tGet? (part w p).pools tag).getD
    ⟨[], 0, a.hdr, a.casid, a.ctx, a.poolt, o.world, w.now + pooltUs a.poolt * usTicks, fn, port⟩
  let q := { q with owners := q.owners ++ [o], filled := q.filled + o.lanes }
  let w := updPart w p fun x => { x with pools := tPut x.pools tag q }
  if q.filled = 32 then firePool e w p tag else w

/-- A message under its arming entry as it stands: a launch, a place in a pool, or rejected; whether it was accepted
(R131, R133, R134). -/
def takeMessage (e : Env) (w : W) (p : Nat) (x : Sender) (data : Nat) : W × Bool :=
  let lanes := bitsAt data 80 6
  let tag := bitsAt data 64 12
  let bad := lanes = 0 ∨ 32 < lanes ∨ bitsAt data 86 42 ≠ 0 ∨ bitsAt data 76 4 ≠ 0 ∨ bitsAt data 48 16 ≠ 0 ∨
    !(part w p).configured
  let reject := (rejectMessage w p x data, false)
  if bad then reject
  else match armingAt e w p tag with
    | none => reject
    | some a =>
      let w := expirePool e w p tag
      let w := match tGet? (part w p).pools tag with
        | some q => if samePool q a then w else firePool e w p tag
        | none => w
      if !a.valid ∨ a.ver ≠ verOf w p 3 ∨ verOf w p 3 = 0 then (rejectMessage w p x data, false)
      else
        let o : Owner := ⟨x.asid, x.world, x.prio, BitVec.ofNat 64 (bitsAt data 0 48), lanes⟩
        if !a.pooled then (fireLaunch e w p .single [o] a.hdr a.casid a.ctx x.fn x.port, true)
        else if pooledOk e w p x.world a then (joinPool e w p tag a o x.fn x.port, true)
        else (rejectMessage w p x data, false)

end Sys2Proof.Machine
end

