-- ==== Sys2Proof/Machine/UniSync.lean ====
section
/-! DEFINITION. Barriers, tickets, FENCE and LAUNCHQ, 0x20 to 0x27 (R284 to R288, R162, R175). -/

namespace Sys2Proof.Machine

/-! Barriers (R284, R285). -/

/-- The courses of a consort as it was launched: CPC + 1; 0 where there is no consort. -/
def fullCount (w : W) (c : Course) : Nat := ((consort? w c.id.consort).map (·.nCourses)).getD 0

/-- The count that C names (R284). -/
def barCount (w : W) (c : Course) (n : Fin 128) : Nat := if n.val = 0 then fullCount w c else n.val

/-- ILLOP for a count above CPC + 1 (R284). -/
def barCheck (n : Fin 128) : W → Course → Option Nat := fun w c => if fullCount w c < n.val then some 0x01 else none

/-- A barrier's record in a consort. -/
def barOf (w : W) (kc n : Nat) : Bar := ((consort? w kc).map fun k => tGetD k.bars n Bar.init).getD Bar.init

/-- A BARDL's Q set to 1 at its wake (R285). -/
def wakeBar (w : W) (c : Course) : W :=
  match c.k.await with
  | .barrier _ (some q) => wake w (putQParked c q.val true)
  | _ => wake w c

/-- The courses of a consort parked on a barrier. -/
def barWaiters (w : W) (kc n : Nat) : List Course :=
  w.courses.filterMap fun (_, c) => match c.k.await with
    | .barrier m _ => if c.id.consort = kc ∧ m = n then some c else none
    | _ => none

/-- An arrival of a course: whether the phase completes with it (R285). A full phase opens a new race phase (R84). -/
def arrive (w : W) (c : Course) (n count : Nat) : W × Bool :=
  let kc := c.id.consort
  let b := barOf w kc n
  let bound := if b.bound = 0 then count else b.bound
  let who := if b.who.contains c.id.cid then b.who else c.id.cid :: b.who
  let arrived := if b.who.contains c.id.cid then b.arrived else b.arrived + 1
  if arrived = bound then
    let full := bound == fullCount w c
    let w := updConsort w kc fun k =>
      { k with
        bars := tPut k.bars n ⟨(b.phase + 1) % 2 ^ 16, 0, 0, []⟩
        full := if full then k.full + 1 else k.full
        races := if full then [] else k.races }
    ((barWaiters w kc n).foldl wakeBar w, true)
  else (updConsort w kc fun k => { k with bars := tPut k.bars n ⟨b.phase, arrived, bound, who⟩ }, false)

/-- Whether a consort's barrier or ticket state is corrupt, so that its courses stop at their next operation on it (R173). -/
def isStuck (w : W) (c : Course) : Bool := ((consort? w c.id.consort).map (·.stuck)).getD false

/-- What a barrier instruction does once the arrival has been made; `true` when the phase has completed. -/
abbrev AfterArrive := Env → W → Course → Sel → Bool → W

/-- The core that holds a consort's barriers: consort core 0 (R284). -/
def barPcn (w : W) (kc : Nat) : Nat := ((consort? w kc).map fun k => consortPcn w k 0).getD 0

/-- The frame of BAR, BARA and BARDL: the count checked, BARCOUNT, the arrival, then the form's own end; where the core that holds the
barrier is muted or cut off, MUTED and no arrival (R129, R284, R285). -/
def barWith (h : Hd) (srcs : List Nat) (n : Fin 16) (cnt : Fin 128) (after : AfterArrive) : Meaning := fun e w s =>
  let b := barOf w s.c.id.consort n.val
  if guardOn s.c h ∧ cnt.val ≤ fullCount w s.c ∧ !isStuck w s.c ∧ b.bound ≠ 0 ∧ barCount w s.c cnt ≠ b.bound then
    faulted e w s.c s fun w c => faultFree e w c 0x06 s.x (fun _ => n.val)
  else
    uniformC { h with sw := true } { Uses.none with s := srcs } (barCheck cnt) (fun e w s =>
      if isStuck w s.c then stallOn w s.c .control
      else unlessAway e w s 0 (barPcn w s.c.id.consort) fun w =>
        let c := advance s.c s.x 4
        let (w, completes) := arrive (setCourse w s.c) c n.val (barCount w s.c cnt)
        after e w c s completes) e w s

/-- BAR (R285). -/
def execBar (h : Hd) (n : Fin 16) (c : Fin 128) (s : State) :=
  runIssue (barWith h [] n c fun e w c s completes =>
    if completes then done e w c s true false
    else parkMark e w c s 0x83 (.barrier n.val none) 1 none) s

/-- BARA (R285). -/
def execBara (h : Hd) (n : Fin 16) (c : Fin 128) (s : State) :=
  runIssue (barWith h [] n c fun e w c s _ => done e w c s true false) s

/-- BARDL (R285). -/
def execBardl (h : Hd) (d : R64) (n : Fin 16) (q : R8) (c : Fin 128) (s : State) :=
  runIssue (barWith h [d.val] n c fun e w c s completes =>
    let t := (getS s.c d.val).toNat
    if completes then done e w (putQ c q.val true) s true false
    else if t = 0 then done e w (putQ c q.val false) s true false
    else parkMark e w c s 0x83 (.barrier n.val (some q)) 1 (some (w.now + t))) s

/-! Tickets (R286, R162). -/

/-- A ticket instruction: SEGLIM, then the connection matrix, poisoned sources, a muted slice or a request without a reply, then
its effect; `act` is what it does to the dispenser (R156, R162, R165, R168, R286). -/
def withDisp (h : Hd) (srcs : List Nat) (entries : Nat) (a : R64) (act : W → Nat → W) (f : Nat → Meaning) : Meaning :=
  let u := { Uses.none with s := a.val :: srcs, entries := entries }
  uniformL h u 4 (fun _ _ => none) fun e w s =>
    let d := (getS s.c a.val).toNat
    let row := pcnOf w s.c.v.hcore
    let m := tGetD w.hub.matrix row 0
    if 6144 ≤ d then faulted e w (takeEntries s.c entries) s fun w c => faultFree e w c 0x04 s.x (fun _ => d)
    else if !(m.getLsbD 31 && m.getLsbD (d / 256)) then dispFault e w (takeEntries s.c entries) s d 0x16 (some (row, d / 256))
    else sourced e w s (uniUses h u) s.x fun w =>
      if sliceMuted w (d / 256) || noRoute w (tileOfPcn row) (tileOfSlice (d / 256)) then dispFault e w (takeEntries s.c entries) s d 0x21 none
      else if isStuck w s.c then stallOn w s.c .control
      else match s.c.k.tmo with
        | some (_, performed) => dispFault e (if performed then act w d else w) (takeEntries s.c entries) s d 0x22 none
        | none => f d e w s

/-- A ticket taken (R162). -/
def takeTicket (w : W) (n : Nat) : W := updDisp w n fun x => { x with ticket := x.ticket + 1 }

/-- TKTAKE (R286). -/
def execTktake (h : Hd) (d a : R64) (s : State) :=
  runIssue (withDisp h [] 1 a takeTicket fun n e w s =>
    let c := advance (takeEntries s.c 1) s.x 4
    done e (launchS (takeTicket w n) c [(d.val, (disp w n).ticket)]) c s h.sw false) s

/-- TKSERVE (R286). -/
def execTkserve (h : Hd) (a : R64) (s : State) :=
  runIssue (withDisp h [] 0 a serveDisp fun n e w s => done e (serveDisp w n) (advance s.c s.x 4) s h.sw false) s

/-- TKWAIT (R286). -/
def execTkwait (h : Hd) (a b : R64) (s : State) :=
  runIssue (withDisp { h with sw := true } [b.val] 0 a (fun w _ => w) fun n e w s =>
    let t := getS s.c b.val
    let c := advance s.c s.x 4
    if served (disp w n) t then done e w c s true false
    else
      let w := parkMark e w c s 0x82 (.ticket n t) 1 none
      updDisp w n fun x => { x with mask := sleeperMask w n }) s

/-- FENCE (R287): accesses are performed in program order here (log entry 9), so it only advances. -/
def execFence (h : Hd) (_sc : Scope) (s : State) :=
  runIssue (uniform h Uses.none fun e w s => done e w (advance s.c s.x 4) s h.sw false) s

/-- LAUNCHQ (R288, R140): the header is read and enqueued; a full queue parks the course at the instruction, whose lanes
leave it when the copy is enqueued. -/
def execLaunchq (h : Hd) (d a : R64) (s : State) :=
  runIssue (
    let u := { Uses.none with s := pairOf a.val, entries := 1 }
    uniformL h u 4 mixCheck fun e w s =>
    let va := getS2 s.c a.val
    let slot := uniSlot s
    if va % 128 ≠ 0 then faulted e w (takeEntries s.c 1) s fun w c => faultLanes e w c 0x03 s.x (fun _ => va) 0 128
    else uniAccess e w s (uniUses h u) (uniOp .read 128 va) slot (fun w _ => w) fun w ls =>
      let hd := rdPlaces e w (slotWorld s.c slot) ls
      if queueFull w s.c.id.part then
        faulted e w (takeEntries s.c 1) s fun w c => parkCourse e w c 0x87 (.queue hd d s.x h.sw) 1 none
      else match enqueue e w s.c hd with
        | .error (va, cause) => faulted e w (takeEntries s.c 1) s fun w c =>
            faultCtx e w c va 1 128 (if cause < 0x20 then 0x17 else cause)
        | .ok (w, pos) =>
          let c := advance (takeEntries s.c 1) s.x 4
          done e (launchS w c [(d.val, BitVec.ofNat 32 pos)]) c s h.sw false) s

end Sys2Proof.Machine
end

