-- ==== Sys2Proof/Machine/UniSys.lean ====
section
/-! DEFINITION. System registers and privileged instructions, 0x38 to 0x3F (R54 to R56, R289 to R296). -/

namespace Sys2Proof.Machine

/-! System registers (R54 to R56). -/

/-- Whether a number names a system register (R54, R55). -/
def srAssigned (n : Nat) : Bool :=
  decide (n ≤ 6) || (decide (0x100 ≤ n) && decide (n < 0x180) && decide (n % 16 ≤ 8)) ||
  (decide (0x400 ≤ n) && decide (n ≤ 0x406)) || (decide (0x500 ≤ n) && decide (n < 0x548))

/-- Whether a number names an owner-slot register. -/
def srIsSlot (n : Nat) : Bool := decide (0x100 ≤ n) && decide (n < 0x180)

/-- CSTAT (R55). -/
def cstat (c : Course) : Nat :=
  c.id.priv.toNat + c.id.mixed.toNat * 2 + c.v.hquad * 4 + c.k.slot * 16 + c.v.hcore * 512

/-- An owner-slot register: field f of slot s (R52, R55). -/
def slotReg (c : Course) (s f : Nat) : Nat :=
  match f with
  | 0 => slotF c s 0 32
  | 1 => slotFlags c s
  | 2 => slotScrBase c s
  | 3 => slotScrLim c s
  | 4 => slotLclBase c s
  | 5 => slotLclLim c s
  | 6 => slotArgBase c s
  | 7 => slotArgLim c s
  | _ => slotLanecyc c s

/-- The value of a system register as an instruction of a course samples it (R55). -/
def srValue (e : Env) (w : W) (c : Course) (n : Nat) : Nat :=
  let f := (part w c.id.part).fq
  if srIsSlot n then slotReg c ((n - 0x100) / 16) (n % 16)
  else if 0x500 ≤ n then (lptAt w (n - 0x500)).toNat
  else match n with
    | 0x000 => c.id.cid
    | 0x001 => cstat c
    | 0x002 => c.id.cbase.toNat
    | 0x003 => c.id.frame
    | 0x004 => c.k.gen
    | 0x005 => w.now - (core w (pcnOf w c.v.hcore)).cyc0
    | 0x006 => c.id.tlallot.toNat
    | 0x400 => f.base.toNat
    | 0x401 => f.size.toNat
    | 0x402 => f.head.toNat
    | 0x403 => f.tail.toNat
    | 0x404 => e.fix.harv0.toNat
    | 0x405 => e.fix.harv1.toNat
    | _ => w.hub.replme.toNat

/-- An owner-slot register that an unprivileged course may not touch: some live or parked lane names another slot (R56). -/
def srMixed (c : Course) (n : Nat) : Bool :=
  srIsSlot n && !c.id.priv && (mLanes (liveParked c)).any fun k => own c k != (n - 0x100) / 16

/-- The checks of MFSR in R56's order. -/
def mfsrCheck (n : Nat) : W → Course → Option Nat := fun _ c =>
  if !c.id.priv ∧ (n = 3 ∨ (0x400 ≤ n ∧ n ≤ 0x403)) then some 0x02
  else if srMixed c n then some 0x05 else none

/-- The registers with RWP fields (R55). -/
def srRwp (n : Nat) : Bool :=
  (srIsSlot n && decide (2 ≤ n % 16) && decide (n % 16 ≤ 7)) || (decide (0x400 ≤ n) && decide (n ≤ 0x402))

/-- The value of a register with one half written. -/
def halfSet (old : Nat) (hi : Bool) (v : Word) : Nat := setBits (old % 2 ^ 64) (if hi then 32 else 0) 32 v.toNat

/-- The checks of MTSR: an FQHEAD value that R150 does not allow, an owner-slot register of another owner (R56's own order), a
privileged write (R165, R225). -/
def mtsrCheck (n : Nat) (hi : Bool) (a : Nat) : W → Course → Option Nat := fun w c =>
  if n = 0x402 ∧ !headValid (part w c.id.part).fq (halfSet (part w c.id.part).fq.head.toNat hi (getS c a)) then some 0x01
  else if srMixed c n then some 0x05
  else if srRwp n ∧ !c.id.priv then some 0x02
  else none

/-- An owner-slot register written; reserved bits of the register keep reading 0 (R52, R55). -/
def slotWrite (c : Course) (s f : Nat) (hi : Bool) (v : Word) : Course :=
  let put := fun lo n => setSlotF c s lo n (halfSet (slotReg c s f) hi v)
  match f with
  | 1 => put 24 5
  | 2 => put 64 32
  | 3 => put 128 32
  | 4 => put 192 64
  | 5 => put 256 32
  | 6 => put 320 64
  | 7 => put 384 32
  | _ => c

/-- The sizes that FQSIZE takes (R55). -/
def fqSizeOk (n : Nat) : Bool := n == 0 || (List.range 16).any fun i => n == 2 ^ (i + 1)

/-- A partition's register written by a privileged course (R55, R148, R150). -/
def partWrite (e : Env) (w : W) (p n : Nat) (hi : Bool) (v : Word) : W :=
  let f := (part w p).fq
  match n with
  | 0x400 => rebuildFq e w p (BitVec.ofNat 64 (halfSet f.base.toNat hi v / 32 * 32)) f.size
  | 0x401 =>
    let x := halfSet f.size.toNat hi v
    if fqSizeOk x then rebuildFq e w p f.base (BitVec.ofNat 64 x) else w
  | 0x402 => moveHead e w p (halfSet f.head.toNat hi v)
  | _ => w

/-- The frame sectors that hold a system register of the course, with the register's number (R40, R55, R58): those of CID, CSTAT
and CBASE, of the deferred-state word, and of the owner slots. -/
def srSect (n : Nat) : List (Nat × Nat) :=
  if srIsSlot n then
    let s := (n - 0x100) / 16
    if 5 ≤ n % 16 then [(sectSlot s 1, n)] else [(sectSlot s 0, n)]
  else if n ≤ 2 ∨ n = 6 then [(sectStatus, n)]
  else if n = 4 then [(sectOwnv, n)]
  else []

/-- MFSR (R289). -/
def execMfsr (h : Hd) (hi : Bool) (d : Fin 32) (i : Fin 16384) (s : State) :=
  runIssue (fun e w s =>
    if !srAssigned i.val then illopAt e w s
    else uniformC h { Uses.none with entries := 1, sect := srSect i.val } (mfsrCheck i.val) (fun e w s =>
      let v := srValue e w s.c i.val
      let c := advance (takeEntries s.c 1) s.x 4
      done e (launchS w c [(d.val, if hi then hiW v else loW v)]) c s h.sw false) e w s) s

/-- MTSR (R289). -/
def execMtsr (h : Hd) (hi : Bool) (a : Fin 32) (i : Fin 16384) (s : State) :=
  runIssue (fun e w s =>
    if !srAssigned i.val then illopAt e w s
    else uniformC h { Uses.none with s := [a.val] } (mtsrCheck i.val hi a.val) (fun e w s =>
      let v := getS s.c a.val
      let c := advance s.c s.x 4
      if srIsSlot i.val then
        done e w (slotWrite c ((i.val - 0x100) / 16) (i.val % 16) hi v) s h.sw false
      else partWrite e (done e w c s h.sw false) s.c.id.part i.val hi v) e w s) s

/-! Privileged instructions (R290). -/

/-- PRIVOP after an instruction's own ILLOP check and before its MIXUNI check (R165, R290). -/
def privCheck (ill : W → Course → Bool) (mix : Bool) : W → Course → Option Nat := fun w c =>
  if ill w c then some 0x01
  else if !c.id.priv then some 0x02
  else if mix then mixCheck w c else none

/-- A privileged instruction: its work is done at once, and its status is an immediate result (R290). The course is written
back before the work and settled after it, so that work on other courses and on this one's own operations stands. -/
def privWith (h : Hd) (u : Uses) (ill : W → Course → Bool) (d : Option Nat) (f : Env → W → Course → Sel → W × Nat) : Meaning :=
  uniformC h u (privCheck ill false) fun e w s =>
    let (w, st) := f e (setCourse w s.c) s.c s
    let c := (course? w s.c.id.cid).getD s.c
    let c := match d with | some r => putS c r (BitVec.ofNat 32 st) | none => c
    done e w (advance c s.x 4) s h.sw false

/-- A privileged instruction without an ILLOP check of its own. -/
def privOp (h : Hd) (u : Uses) (d : Option Nat) (f : Env → W → Course → Sel → W × Nat) : Meaning :=
  privWith h u (fun _ _ => false) d f

/-! TLBINV (R291, R104). -/

/-- A partition's TLB entries that a test names removed; the invalidation completes at once, since every access is
performed when it issues. -/
def dropTlb (w : W) (p : Nat) (f : TlbEnt → Bool) : W := { w with tlb := w.tlb.filter fun t => !(t.part == p && f t) }

/-- The host entries of an ASID forgotten, whatever page they serve (R104, R106). -/
def dropHost (w : W) (p asid : Nat) : W := { w with ats := w.ats.filter fun t => !(t.part == p && t.asid == asid) }

/-- Whether an entry's stage-1 page contains an address (R291). -/
def tlbCovers (t : TlbEnt) (va : Nat) : Bool := decide (t.base1 ≤ va) && decide (va < t.base1 + t.size1)

def execTlbinvPage (h : Hd) (a b : R64) (s : State) :=
  runIssue (privOp h { Uses.none with s := pairOf a.val ++ [b.val] } none fun _ w c _ =>
    let asid := (getS c b.val).toNat % 2 ^ 16
    let va := getS2 c a.val
    (dropHost (dropTlb w c.id.part fun t => t.asid == asid && tlbCovers t va) c.id.part asid, 0)) s

def execTlbinvAsid (h : Hd) (b : R64) (s : State) :=
  runIssue (privOp h { Uses.none with s := [b.val] } none fun _ w c _ =>
    let asid := (getS c b.val).toNat % 2 ^ 16
    (dropHost (dropTlb w c.id.part fun t => t.asid == asid) c.id.part asid, 0)) s

def execTlbinvCtx (h : Hd) (a : R64) (s : State) :=
  runIssue (privOp h { Uses.none with s := pairOf a.val } none fun _ w c _ =>
    let asid := (part w c.id.part).cAsid
    let va := getS2 c a.val
    (dropHost (dropTlb w c.id.part fun t => t.asid == asid && tlbCovers t va) c.id.part asid, 0)) s

/-! CTXFL (R292, R72, R321). -/

/-- A course of a partition. -/
def courseIn (w : W) (p cid : Nat) : Option Course :=
  match course? w cid with
  | some c => if c.id.part = p then some c else none
  | none => none

/-- A parked or halted course flushed: lines written or dropped, control state in the frame, HELD cleared when none waits
(R72, R321). -/
def flushCourse (e : Env) (w : W) (t : Course) : W :=
  let w := updCourse w t.id.cid fun c => { c with v := { c.v with flushed := true } }
  let w := spillLines e w t.id.cid ((t.v.lines.filter fun x => !x.2.pend).map (·.1))
  let ranges := [(0x0, 0x121), (0x128, 8), (0x180, 128), (0x218, 8), (0x240, 0x520)]
  let w := updCourse w t.id.cid fun c => ranges.foldl (fun c (o, n) => markNewer c o n) c
  flushNewer e w t.id.cid

/-- CTXFL's status and effect (R292). -/
def ctxfl (e : Env) (w : W) (c : Course) (cid : Nat) : W × Nat :=
  match courseIn w c.id.part cid with
  | none => (w, 1)
  | some t =>
    if t.k.at_ = .resident then (w, 2)
    else if slotWorld t 0 ≠ 0 ∧ slotWorld t 0 ≠ slotWorld c 0 then (w, 3)
    else (flushCourse e w t, 0)

def execCtxfl (h : Hd) (d a : R64) (s : State) :=
  runIssue (privOp h { Uses.none with s := [a.val] } (some d.val) fun e w c _ => ctxfl e w c (getS c a.val).toNat) s

/-! HALTB (R293, R174, R175). -/

/-- TAKING A HALT: a course leaves its slot or its ready queue for a halted list; a parked one stays where it is (R70, R174,
R293, R329). A control area that cannot be written keeps the record waiting (R323). -/
def haltCourse (e : Env) (w : W) (c : Course) (cause : Nat) : W :=
  let o := w.nextOrder
  let w := { w with nextOrder := o + 1 }
  match c.k.at_ with
  | .parked => w
  | .resident =>
    let (w, c) := leaveSlot e w { c with k := { c.k with
      at_ := .halted, cause := cause, await := .nothing, join := 0, deadline := none, order := o, prio := prioOf c } }
    setCourse w (if c.k.join = 0 then c else { c with k := { c.k with at_ := .parked, await := .faults } })
  | .ready | .halted =>
    let c := markNewer { c with k := { c.k with at_ := .halted, cause := cause, order := o } } 0x132 1
    flushNewer e (setCourse w c) c.id.cid

/-- A course that is resident or in a queue by now halted. -/
def haltNow (e : Env) (cause : Nat) (w : W) (cid : Nat) : W :=
  match course? w cid with
  | some c => haltCourse e w c cause
  | none => w

/-- The courses of a consort. -/
def coursesOf (w : W) (kc : Nat) : List Course := (w.courses.filter fun x => x.2.id.consort == kc).map (·.2)

/-- A consort halted: its courses, its accumulator operations, its barrier record; one already halted stays so. -/
def haltConsort (e : Env) (w : W) (kc : Nat) : W :=
  if ((consort? w kc).map (·.haltb)).getD true then w
  else
    let w := updConsort w kc fun k => { k with haltb := true }
    let w := ((coursesOf w kc).map (·.id.cid)).foldl (haltNow e 0x86) w
    let w := stopOps w fun o => o.consort == kc
    (writeBar e w kc).1

/-- The consorts of a list that HALTB holds. -/
def heldOf (w : W) (ks : List Nat) : List Nat := ks.filter fun kc => ((consort? w kc).map (·.haltb)).getD false

/-- Halted consorts released: their halted records return to the ready queues in the order of their halts, their stopped operations
of parked and ended courses go on (R174, R293, R329); whether any record was halted. -/
def releaseConsorts (w : W) (ks : List Nat) : W × Bool :=
  let ks := heldOf w ks
  let w := ks.foldl (fun w kc => updConsort w kc fun k => { k with haltb := false }) w
  let all := ks.flatMap (coursesOf w)
  let hs := (all.filter fun c => c.k.at_ == .halted).mergeSort fun a b => a.k.order ≤ b.k.order
  let w := hs.foldl enterReady w
  let w := (all.filter fun c => c.k.at_ == .parked).foldl (fun w c =>
    if (haltCause w c).isSome then w else resumeOps w c.id.cid (pcnOf w c.v.hcore) c.v.hquad) w
  let gone := ((w.ops.filter fun (_, o) => ks.contains o.consort && o.stopped && (course? w o.cid).isNone).map
    fun (_, o) => (o.cid, o.pcn, o.quad)).dedup
  (gone.foldl (fun w (cid, p, q) => resumeOps w cid p q) w, hs != [])

/-- The placed consorts of a target: one, or a launch's. -/
def haltTarget (w : W) (t : Course) (whole : Bool) : List Nat :=
  if whole then (w.consorts.filter fun (_, k) => k.launch == t.id.launch && k.st == .placed).map (·.1)
  else [t.id.consort]

/-- ILLOP for a target that contains the issuer (R174, R293). -/
def haltSelf (a : Nat) (whole : Bool) : W → Course → Bool := fun w c =>
  match courseIn w c.id.part (getS c a).toNat with
  | none => false
  | some t => if whole then t.id.launch == c.id.launch else t.id.consort == c.id.consort

/-- HALTB.CONS and HALTB.LAUNCH (R293). -/
def haltb (e : Env) (w : W) (c : Course) (cid : Nat) (whole : Bool) : W × Nat :=
  match courseIn w c.id.part cid with
  | none => (w, 1)
  | some t =>
    let w := if whole then updLaunch w t.id.launch fun l => { l with held := true } else w
    let ks := haltTarget w t whole
    let w := ks.foldl (haltConsort e) w
    (w, if ks.any fun kc => ((consort? w kc).map (·.barPend)).getD false then 3 else 0)

/-- HALTB.RELCONS and HALTB.RELLAUNCH (R293). -/
def relb (w : W) (c : Course) (cid : Nat) (whole : Bool) : W × Nat :=
  match courseIn w c.id.part cid with
  | none => (w, 1)
  | some t =>
    let (w, any) := releaseConsorts w (haltTarget w t whole)
    let w := if whole then
        let w := updLaunch w t.id.launch fun l => { l with held := false }
        match launch? w t.id.launch with
        | some l => giveSlots w t.id.launch (slotsByCore l)
        | none => w
      else w
    (w, if any then 0 else 2)

def execHaltbHalt (h : Hd) (d a : R64) (launch : Bool) (s : State) :=
  runIssue (privWith h { Uses.none with s := [a.val] } (haltSelf a.val launch) (some d.val) fun e w c _ =>
    haltb e w c (getS c a.val).toNat launch) s

def execHaltbRelease (h : Hd) (d a : R64) (launch : Bool) (s : State) :=
  runIssue (privOp h { Uses.none with s := [a.val] } (some d.val) fun _ w c _ =>
    relb w c (getS c a.val).toNat launch) s

/-! ENGRST (R294, R177): an engine reset is reported (R14). -/

def execEngrst (h : Hd) (d a : R64) (x : Fin 7) (s : State) :=
  runIssue (privOp h { Uses.none with s := [a.val] } (some d.val) fun e w c _ =>
    let l := (getS c a.val).toNat
    if l < 72 ∧ corePresent w c.id.part l then
      (reportAction e (resetEngine e w (pcnOf w l) x.val) [c.id.part], 0)
    else (w, 1)) s

/-! KEYOP (R295, R110). -/

/-- A request block's fields (R295). -/
structure KeyReq where
  index : Nat
  tid : Nat
  kref : Nat
  base : Nat
  size : Nat
  reserved : Bool
  deriving DecidableEq, Repr

def parseKeyReq (b : List Byte) : KeyReq :=
  ⟨sub b 0 4, sub b 4 4, sub b 8 2, sub b 16 8, sub b 24 8, sub b 10 6 != 0 || sub b 32 32 != 0⟩

/-- A tensor table entry; one never written reads as zeros (R110). -/
def tensorEntry (w : W) (wd i : Nat) : Tensor :=
  (w.sec.tensors.find? fun t => t.world == wd && t.index == i).getD ⟨wd, i, 0, 0, 0, 0, 0, false⟩

/-- A tensor table entry written. -/
def putTensor (w : W) (t : Tensor) : W :=
  { w with sec := { w.sec with
      tensors := t :: w.sec.tensors.filter fun x => !(x.world == t.world && x.index == t.index) } }

/-- Whether a range overlaps a valid entry of any world other than the one it replaces (R110). -/
def tensorClash (w : W) (wd i base size : Nat) : Bool :=
  w.sec.tensors.any fun t => t.valid && !(t.world == wd && t.index == i) && decide (base < t.base + t.size) &&
    decide (t.base < base + size)

/-- The operations of KEYOP. -/
inductive KeyAct where
  | set | bump | clear | newkey
  deriving DecidableEq, Repr

/-- The most key slots (R112). -/
def keySlotMax : Nat := 2048

/-- A key in one of the key slots; the policy of eviction is not architectural: the oldest goes (R112, R153). -/
def loadKey (w : W) (key : Nat) : W :=
  if w.sec.keySlots.contains key then w
  else { w with sec := { w.sec with keySlots := (key :: w.sec.keySlots).take keySlotMax } }

/-- The security core's answer to a request: the state and the status word; a new key's reference is its choice (log
entry 6). It refuses only what R295 lists, so a BASE or SIZE that is no multiple of 4 KiB and TID 0 are taken, and an operation that
names a key puts it in a key slot (log entry 64). -/
def keyAct (w : W) (wd : Nat) (o : KeyAct) (q : KeyReq) : W × Nat :=
  if wd = 0 ∨ q.reserved then (w, 1)
  else if o ≠ .newkey ∧ 4095 < q.index then (w, 2)
  else
    let t := tensorEntry w wd q.index
    match o with
    | .set =>
      if !w.sec.store.contains (wd, q.kref) || tensorClash w wd q.index q.base q.size then (w, 1)
      else (putTensor (loadKey w (keyNo wd q.kref)) ⟨wd, q.index, q.tid, 0, q.kref, q.base, q.size, true⟩, 0)
    | .bump => (putTensor w { t with ver := (t.ver + 1) % 2 ^ 32 }, 0)
    | .clear => (putTensor w { t with valid := false }, 0)
    | .newkey =>
      let (n, w) := freshN w
      let k := (Config.freeWord n).toNat % 2 ^ 16
      (loadKey { w with sec := { w.sec with store := (wd, k) :: w.sec.store.filter (· != (wd, k)) } } (keyNo wd k), k * 2 ^ 16)

/-- KEYOP: the block is read as a uniform read, then the security core acts (R295). -/
def keyop (h : Hd) (o : KeyAct) (d a : R64) : Meaning :=
  let u := { Uses.none with s := pairOf a.val }
  uniformL h u 4 (privCheck (fun _ _ => false) true) fun e w s =>
    let slot := uniSlot s
    uniAccess e w s (uniUses h u) (uniOp .read 64 (getS2 s.c a.val)) slot (fun w _ => w) fun w ls =>
      let wd := slotWorld s.c slot
      let (w, st) := keyAct w wd o (parseKeyReq (rdPlaces e w wd ls))
      done e w (advance (putS s.c d.val (BitVec.ofNat 32 st)) s.x 4) s h.sw false

def execKeyopSet (h : Hd) (d a : R64) (s : State) := runIssue (keyop h .set d a) s
def execKeyopBump (h : Hd) (d a : R64) (s : State) := runIssue (keyop h .bump d a) s
def execKeyopClear (h : Hd) (d a : R64) (s : State) := runIssue (keyop h .clear d a) s
def execKeyopNewkey (h : Hd) (d a : R64) (s : State) := runIssue (keyop h .newkey d a) s

/-! SVCALL (R296, R130). -/

def execSvcall (h : Hd) (d a : R64) (slot : R8) (s : State) :=
  runIssue (privOp h { Uses.none with s := (List.range 4).map (a.val + ·), sect := slotSects slot.val [0] } (some d.val) fun e w c _ =>
    let i := slot.val
    if !slotValid c i then (w, 2)
    else
      let m := getS2 c a.val + getS2 c (a.val + 2) * 2 ^ 64
      let (w, ok) := takeMessage e w c.id.part ⟨slotAsid c i, slotWorld c i, slotPrio c i, none, none⟩ m
      (w, if ok then 0 else 1)) s

end Sys2Proof.Machine
end

