-- ==== Sys2Proof/Machine/EvCache.lean ====
section
/-! DEFINITION. Activation, fills and spills of the register cache, lazy claims and the return of deferred results (R60 to R73,
R141, R143, R322, R330, R331). -/

namespace Sys2Proof.Machine

/-! Activation (R60, R61, R63, R64, R69, R143). -/

/-- The courses that hold a slot of a quadrant: resident in it, or bound to it (R64, R68). -/
def slotHolders (w : W) (q : Nat) : List Course :=
  w.courses.filterMap fun (_, c) => if quadOf c = q ∧ (c.k.at_ = .resident ∨ c.k.bound) then some c else none

/-- The free slots of a quadrant, of its 32. -/
def freeSlots (w : W) (q : Nat) : List Nat :=
  (List.range 32).filter fun s => !((slotHolders w q).any fun c => c.k.slot == s)

/-- The resident courses of a quadrant. -/
def residentCount (w : W) (q : Nat) : Nat :=
  (w.courses.filter fun (_, c) => quadOf c == q && c.k.at_ == .resident).length

/-- Whether a quadrant of a logical core can take a record of a world, a slot apart: its world, the activation reserve, and not
withheld (R63, R143, R173). -/
def quadAdmits (w : W) (l x wd : Nat) : Bool :=
  let y := quad w (4 * pcnOf w l + x)
  let q := 4 * l + x
  !y.withheld && y.world == wd && decide ((residentCount w q + 1) * 64 + pendCount w q ≤ 2048)

/-- Whether a quadrant of a logical core can take a record of a world in a free slot. -/
def quadTakes (w : W) (l x wd : Nat) : Bool := quadAdmits w l x wd && freeSlots w (4 * l + x) != []

/-- The quadrant of a core with the most free slots, the lower on a tie (R143). -/
def bestQuad (w : W) (l wd : Nat) : Option Nat :=
  ((List.range 4).filter (fun x => quadTakes w l x wd)).foldl (fun b x =>
    match b with
    | none => some x
    | some y => if (freeSlots w (4 * l + y)).length < (freeSlots w (4 * l + x)).length then some x else some y) none

/-- Where a ready record may be activated on a core: quadrant and slot; an OPEN record only in its bound slot (R64, R143). -/
def spotOf (w : W) (l : Nat) (c : Course) : Option (Nat × Nat) :=
  if c.k.bound then
    if c.v.hcore = l ∧ quadAdmits w l c.v.hquad (slotWorld c 0) then some (c.v.hquad, c.k.slot) else none
  else (bestQuad w l (slotWorld c 0)).map fun x => (x, (freeSlots w (4 * l + x)).headD 0)

/-- Whether a ready record goes before another: level, then SUCC, then age in its queue (R143). -/
def readyBefore (x y : Course) : Bool :=
  if x.k.prio ≠ y.k.prio then decide (y.k.prio < x.k.prio)
  else if x.k.succ != y.k.succ then x.k.succ
  else decide (x.k.order < y.k.order)

/-- The ready records of a core that have a place there now; one with a spill-pending line waits for its spill (R322). -/
def readyFor (w : W) (p l : Nat) : List (Course × Nat × Nat) :=
  w.courses.filterMap fun (_, c) =>
    match consort? w c.id.consort with
    | none => none
    | some k =>
      if c.k.at_ = .ready ∧ !hasPend c ∧ c.id.part = p ∧ !k.kept ∧ nth k.cores c.id.core 72 = l then
        (spotOf w l c).map fun (x, s) => (c, x, s)
      else none

/-- The record that a core's activation unit takes next (R143). -/
def bestReady (w : W) (p l : Nat) : Option (Course × Nat × Nat) :=
  (readyFor w p l).foldl (fun b x =>
    match b with
    | none => some x
    | some y => if readyBefore x.1 y.1 then some x else some y) none

/-- A slot's next generation: one more, past values that still tag an outstanding result of the quadrant (R69). -/
def nextGen (used : List Nat) : Nat → Nat → Nat
  | 0, g => (g + 1) % 256
  | f + 1, g => if used.contains ((g + 1) % 256) then nextGen used f ((g + 1) % 256) else (g + 1) % 256

/-- A quadrant's and slot's generation at an activation. -/
def takeGen (w : W) (l x slot : Nat) : Nat × W :=
  let n := 4 * pcnOf w l + x
  let used := (w.flights.filter fun f => f.quad == 4 * l + x).map (·.gen)
  let g := nextGen used 256 (tGetD (quad w n).gens slot 0)
  (g, updQuad w n fun y => { y with gens := tPut y.gens slot g })

/-- Bytes of the control area with the ranges that the frame does not show yet taken from the registers. -/
def patchNewer (c : Course) (b : List Byte) : List Byte :=
  let mine := ctlBytes c
  c.k.newer.foldl (fun b (off, n) => b.take off ++ (mine.drop off).take n ++ b.drop (off + n)) b

/-- ACTIVATION: a record placed in a slot, its control state in the slot, its lines to be prefetched (R64, R69, R145). -/
def placeCourse (w : W) (c : Course) (l x slot : Nat) : W :=
  let (g, w) := takeGen w l x slot
  let q := 4 * l + x
  let pref := (List.range 64).foldl (fun (m : BitVec 64) r =>
    if c.v.resid.getLsbD r && !isZero c r && (cached? q c r).isNone then bvSet m r 1 1 else m) 0
  let c := { c with
    v := { c.v with held := false, flushed := false, hcore := l, hquad := x, pref := pref }
    w := { c.w with isOpen := false, used := if c.k.bound then c.w.used else 0 }
    k := { c.k with
      at_ := .resident, slot := slot, gen := g, join := 0, await := .nothing, deadline := none, bound := false,
      stall := none, tmo := none, fetchLost := false, wait := List.replicate 32 0, turn := none, stopped := false, isNew := false, newer := [] } }
  resumeOps (setCourse w c) c.id.cid (pcnOf w l) x

/-- A record of a frame of another version, or where no version is negotiated, left parked and reported (R61, R199). -/
def badVersion (e : Env) (w : W) (c : Course) : W :=
  let w := setCourse w { c with k := { c.k with at_ := .parked, join := 1, await := .faults } }
  let m := liveParked c
  let x := entryFree c 0x01 (slotOfMask c m) m c.id.frame (part w c.id.part).cAsid (pcLow c (mLow m % 32))
  partEvent (report e w ⟨x, [.whole c.id.cid], false⟩ none) c.id.part (slotWorld c 0) 0x10 0x01 c.id.frame

/-- A control area that cannot be read: the record stays parked (R64). -/
def badControl (e : Env) (w : W) (c : Course) (cause : Nat) : W :=
  let w := setCourse w { c with k := { c.k with at_ := .parked, join := 1, await := .faults } }
  report e w ⟨ctxEntry w c (c.id.frame + 0x2000) 0 128 (if cause < 0x20 then 0x17 else cause), [.whole c.id.cid], false⟩ none

/-- A placed course's deferred-state word written to its frame: OPEN and HELD clear, its place the new one, GEN that of its last
park or halt (R58, R59); a write that fails is dropped (log entry 53). -/
def notePlace (e : Env) (w : W) (cid wd gen : Nat) : W :=
  match course? w cid with
  | none => w
  | some c =>
    let word := deferredWord { c with k := { c.k with gen := gen } }
    match ctxWrite e w (pcnOf w c.v.hcore) c.id.part wd (c.id.frame + 0x2218) (leBytes 8 word) [] with
    | .ok w => w
    | .error _ => w

/-- A record activated in a place: a new course from formation, another from its frame (R61, R64). -/
def activate (e : Env) (w : W) (c : Course) (l x slot : Nat) : W :=
  let wd := slotWorld c 0
  if c.k.isNew then notePlace e (placeCourse w c l x slot) c.id.cid wd c.k.gen
  else
    let a := c.id.frame + 0x2000
    match ctxRead e w (pcnOf w l) c.id.part wd a 4096 with
    | .error (_, cause) => badControl e w c cause
    | .ok b =>
      if verOf w c.id.part 1 = 0 ∨ sub b 0x133 1 ≠ verOf w c.id.part 1 then badVersion e w c
      else
        let c := ctlLoad (patchNewer c b) { c with v := { c.v with pois := ctlPois e w c } }
        notePlace e (placeCourse w c l x slot) c.id.cid wd c.k.gen

/-- Whether a core's activation unit runs: the core is the partition's, present, and neither stopped nor withheld. -/
def canActivate (w : W) (p l : Nat) : Bool :=
  let c := core w (pcnOf w l)
  corePresent w p l && c.actOk && !c.withheld

def execActivation (part_ lcore : Nat) (s : State) :=
  event (fun e w =>
    if !canActivate w part_ lcore then w
    else match bestReady w part_ lcore with
      | some (c, x, slot) => activate e w c lcore x slot
      | none => w) s

/-! Fills (R64, R65, R66, R73). -/

/-- Whether a resident course's quadrant is filling a line: a miss stalls the course, or a prefetch is due. -/
def wantsLine (c : Course) (r : Nat) : Bool :=
  c.k.at_ == .resident && (cached? (quadOf c) c r).isNone &&
  (c.k.stall == some (.fill (Fin.ofNat 64 r)) || c.v.pref.getLsbD r)

/-- A line in the reader's cache: its prefetch is over and an instruction that waited for it may issue. -/
def landLine (w : W) (c : Course) (r : Nat) (l : CLine) : W :=
  let stall := if c.k.stall = some (.fill (Fin.ofNat 64 r)) then none else c.k.stall
  setCourse w { c with
    v := { c.v with lines := tPut c.v.lines r l, pref := bvSet c.v.pref r 1 0 }
    k := { c.k with stall := stall } }

/-- A register of a course never written for which the course waits: its line is allocated as zeros (R60, R62, log entry 58). -/
def allocLine (w : W) (c : Course) (r : Nat) : W :=
  landLine w { c with v := { c.v with zmask := bvSet c.v.zmask r 1 0 } } r ⟨quadOf c, mkLine fun _ => 0, true, false, false⟩

/-- A fill from the frame that its translation stops: dropped for a prefetch, CTXPF for a demand (R64, R66). -/
def failFill (e : Env) (w : W) (c : Course) (r cause : Nat) : W :=
  if c.k.stall = some (.fill (Fin.ofNat 64 r)) then
    faultCtx e w c (c.id.frame + 128 * r) 0 128 (if cause < 0x20 then 0x17 else cause)
  else setCourse w { c with v := { c.v with pref := bvSet c.v.pref r 1 0 } }

/-- REGISTER_FILL_COMPLETE: a line that no quadrant caches comes from the frame; one never written is allocated. In a quadrant
without a free line or one to take, nothing happens yet (R8, R63, log entry 58). -/
def execRegisterFillComplete (cid : Nat) (v : R64) (s : State) :=
  event (fun e w =>
    match course? w cid with
    | none => w
    | some c =>
      if !wantsLine c v.val ∨ (tGet? c.v.lines v.val).isSome then w
      else
        let w := makeRoom e (quadOf c) 1 2049 w
        if !hasRoom w (quadOf c) 1 then w
        else if isZero c v.val then allocLine w c v.val
        else match ctxRead e w (pcnOf w c.v.hcore) c.id.part (slotWorld c 0) (c.id.frame + 128 * v.val) 128 with
        | .error (_, cause) => failFill e w c v.val cause
        | .ok b =>
          let bad := w.poison != [] && ctxPois e w c.id.part (slotWorld c 0) (c.id.frame + 128 * v.val) 128 != []
          let data := mkLine fun k => BitVec.ofNat 32 (sub b (4 * k) 4)
          landLine w c v.val ⟨quadOf c, data, false, false, bad⟩) s

/-- REMOTE_LINE_READ: the holder quadrant sends a line and drops its copy; it arrives dirty if it was (R73), and poisoned when the
reader gets a MUTED reply instead (R74). In a quadrant without a free line or one to take, nothing happens yet (R8, R63, log
entry 58). -/
def execRemoteLineRead (cid : Nat) (v : R64) (s : State) :=
  event (fun e w =>
    match course? w cid with
    | none => w
    | some c =>
      match tGet? c.v.lines v.val with
      | none => w
      | some l =>
        if !wantsLine c v.val then w
        else
          let away := coreAway w (pcnOf w c.v.hcore) (pcnOf w (l.quad / 4))
          let w := makeRoom e (quadOf c) 1 2049 w
          if !hasRoom w (quadOf c) 1 then w else landLine w c v.val { l with quad := quadOf c, poison := l.poison || away }) s

/-- LINE_SPILL_COMPLETE: a victim, a line of a course that is neither resident nor PINNED, is written to its frame and leaves the
cache, or becomes spill-pending (R63, R66, R135). -/
def execLineSpillComplete (cid : Nat) (v : R64) (s : State) :=
  event (fun e w =>
    match course? w cid with
    | none => w
    | some c =>
      match tGet? c.v.lines v.val with
      | none => w
      | some l => if !takeable c l then w else spillLines e w cid [v.val]) s

/-! Claims (R70, R71, R330, R331). -/

/-- Whether a claim of a unit waits for a resolution. -/
def claimFaulted (w : W) (p : Nat) (u : Unit70) : Bool :=
  let f := (part w p).fq
  (f.pending ++ f.held).any fun x => x.who.any fun y => match y with | .claim _ v => v == u | _ => false

/-- A course or operation of a consort that waits for a unit: the course's CID. -/
def claimer (w : W) (kc : Nat) (u : Unit70) : Option Nat :=
  match w.courses.find? fun (_, c) => c.id.consort == kc && c.k.at_ == .resident && c.k.stall == some (.claim u) with
  | some (cid, _) => some cid
  | none => (w.ops.find? fun (_, o) => o.consort == kc && !o.stopped && o.faulted == [] && opAway w o == some u).map (·.2.cid)

/-- Whether a unit may be taken: no consort holds it, or one that is halted, not pinned, none of whose copies it awaits. -/
def claimable (w : W) (kc : Nat) (u : Unit70) : Bool :=
  match unitHolder w u with
  | none => true
  | some hc =>
    hc != kc && match consort? w hc with
      | none => true
      | some h => yields w (((consort? w kc).map (·.ctx)).getD 0) hc h &&
          !(w.ops.any fun (_, o) => o.consort == hc && o.kind.isCopy && (opUnits w h o).contains u)

/-- The entry of a claim whose transfer cannot be translated: the claimer's course is named (R71). -/
def claimFault (e : Env) (w : W) (cid kc : Nat) (u : Unit70) (a cause atype : Nat) : W :=
  let cause := if cause < 0x20 then 0x17 else cause
  match course? w cid with
  | some c => report e w ⟨ctxEntry w c a atype 128 cause, [.claim cid u], false⟩ none
  | none => match consort? w kc with
    | none => w
    | some k => report e w
        ⟨⟨cause, 0, 0, 0, a, (part w k.part).cAsid, k.world, k.part, cid, 0, atype, 128⟩, [.claim cid u], false⟩ none

/-- LAZY_CLAIM: a first touch claims a unit; the accesses that waited for it go on. -/
def execLazyClaim (consort : Nat) (u : Unit70) (s : State) :=
  event (fun e w =>
    match consort? w consort, claimer w consort u with
    | some k, some cid =>
      if !claimable w consort u ∨ claimFaulted w k.part u then w
      else match claimUnit e w consort u with
        | .error (a, cause, atype) => claimFault e w cid consort u a cause atype
        | .ok w =>
          let w := bumpCore w (unitPcn u) 7 1
          { w with courses := tMap w.courses fun _ c =>
            if c.id.consort = consort ∧ c.k.stall = some (.claim u) then { c with k := { c.k with stall := none } } else c }
    | _, _ => w) s

/-! Deferred results (R67, R69). -/

/-- DEFERRED_RESULT_RETURN: a result enters its course's buffer, or is discarded when its slot's generation differs. -/
def execDeferredResultReturn (n : Nat) (s : State) :=
  event (fun _ w =>
    match w.flights.find? fun f => f.n == n with
    | none => w
    | some f =>
      let w := { w with flights := w.flights.filter fun f => f.n != n }
      match course? w f.cid with
      | none => w
      | some c => if sameTag c f then setCourse w (buffer c f) else w) s

end Sys2Proof.Machine
end

