-- ==== Sys2Proof/Machine/EvEngine.lean ====
section
/-! DEFINITION. What the engines do: CHISEL_STEP, COPY_LINE, COLL_CHUNK (R299 to R311, R331). -/

namespace Sys2Proof.Machine

/-! Chisel steps (R303 to R308). -/

/-- What a step does to a placed consort; it is told whether a read of its operands ended in a MUTED or TIMEOUT reply, which poisons
what it writes (R301). -/
abbrev StepFn := Bool → Env → W → Consort → EngOp → W

/-- A block's poison after a step: marked, or cleared by a whole write (R171, R172). -/
def blockPoison (w : W) (b : Block) (bad whole : Bool) : W :=
  if bad then poisonAt w b.key else if whole then cleanAt w b.key else w

/-- MMA's step (R303, R35). -/
def stepMma (ns : Bool) (ca cb : Nat) : StepFn := fun gone e w k o =>
  let p := parsePanel o.d1
  let q := parsePanel o.d2
  let rg := regionOf o.region
  let gn := (max p.vcols q.vrows + 15) / 16
  let g := o.step % gn
  let (br, bc) := blockAtNo rg (o.step / gn)
  let m0 := rg.row + br
  let n0 := rg.col + bc
  let blk := blockOf w k m0 n0
  let cc := m0 / k.accN
  let as := (List.range 64).map fun r => (List.range 16).map fun j => rdElem e w k p o.b1 (br + r) (16 * g + j)
  let bs := (List.range 64).map fun c => (List.range 16).map fun j => rdElem e w k q o.b2 (16 * g + j) (bc + c)
  let sk := fun col x => scaleKey w k cc blk.quad col x
  let sa := fun r => (rdB e w (sk (ca + g) ((m0 + r) % k.accN))).toNat
  let sb := fun c => (rdB e w (sk (cb + g) ((n0 + c) % 256))).toNat
  let word := fun r c =>
    let acc := accWord e w blk r c
    let a := nth as r []
    let b := nth bs c []
    if p.fmt = 5 then mmaInt acc a b
    else mmaWord acc ((a.zip b).map fun (x, y) => termOf p.fmt q.fmt x y) (if ns then none else some (sa r, sb c))
  let bad := gone || w.poison != [] &&
    ((List.range 64).any (fun r => (List.range 16).any fun j =>
        poisElem w k p o.b1 (br + r) (16 * g + j) || poisElem w k q o.b2 (16 * g + j) (bc + r)) ||
      (!ns && (List.range 64).any fun r =>
        isPois w (sk (ca + g) ((m0 + r) % k.accN)) || isPois w (sk (cb + g) ((n0 + r) % 256))))
  blockPoison (putBlock w blk word) blk bad false

/-- AZERO's step (R304). -/
def stepAzero : StepFn := fun _ _ w k o =>
  let rg := regionOf o.region
  let (br, bc) := blockAtNo rg o.step
  let blk := blockOf w k (rg.row + br) (rg.col + bc)
  blockPoison (wrClear w blk.key 16384) blk false true

/-- ALDP's step (R304). -/
def stepAldp (add : Bool) : StepFn := fun gone e w k o =>
  let p := parsePanel o.d1
  let rg := regionOf o.region
  let (br, bc) := blockAtNo rg o.step
  let blk := blockOf w k (rg.row + br) (rg.col + bc)
  let word := fun r c =>
    let x := elemWord p.fmt (rdElem e w k p o.b1 (br + r) (bc + c))
    if !add then x
    else
      let acc := accWord e w blk r c
      if fmtInt p.fmt then (acc + x) % 2 ^ 32 else (fp32.add .rne acc x).1
  let bad := gone || w.poison != [] &&
    (List.range 64).any fun r => (List.range 64).any fun c => poisElem w k p o.b1 (br + r) (bc + c)
  blockPoison (putBlock w blk word) blk bad (!add)

/-- ASTP's step (R304, R305). -/
def stepAstp (rm : Rm) : StepFn := fun gone e w k o =>
  let p := parsePanel o.d1
  let rg := regionOf o.region
  let (br, bc) := blockAtNo rg o.step
  let blk := blockOf w k (rg.row + br) (rg.col + bc)
  let bad := gone || isPois w blk.key
  putElems e w k p o.b1 ((List.range 64).flatMap fun r => (List.range 64).filterMap fun c =>
    if br + r < p.vrows ∧ bc + c < p.vcols then
      some ⟨br + r, bc + c, astpEncode p.fmt rm (accWord e w blk r c), bad⟩
    else none)

/-- The exact sum of a row, rounded once; −0 only when every element is −0 (R306). -/
def rowSum (xs : List Nat) : Nat :=
  let vs := xs.map fp32.decode
  if vs.all fun v => v.isZero && v.neg then 2 ^ 31
  else
    let s := vs.foldl (fun x v => (addFv .rne x v).1) (.fin false 0 0)
    if s.isZero then 0 else (fp32.ofFv .rne s).1

/-- The largest or smallest of a row (R27, R306). -/
def rowMinMax (isMax : Bool) : List Nat → Nat
  | [] => fp32.qnan
  | x :: xs => xs.foldl (fun a b => (fp32.minmax isMax a b).1) (fp32.minmax isMax x x).1

/-- The largest of a row with its index, from the sentinel (R28, R306). -/
def rowMaxx (xs : List Nat) : Nat × Nat :=
  xs.zipIdx.foldl (fun (v, i) (x, j) => let (a, b, _) := fmaxx v i x j; (a, b)) (0x7FC00000, 0xFFFFFFFF)

/-- What AROW writes for a row: its columns' words (R306). -/
def rowOut (o : RowOp) (xs : List Nat) : List Nat :=
  match o with
  | .sum => [rowSum xs]
  | .max => [rowMinMax true xs]
  | .min => [rowMinMax false xs]
  | .maxx => let (a, b) := rowMaxx xs; [a, b]

/-- AROW's step: a group of 64 region rows (R306). -/
def stepArow (op : RowOp) : StepFn := fun gone e w k o =>
  let p := parsePanel o.d1
  let rg := regionOf o.region
  let r0 := 64 * o.step
  let blks := (List.range (rg.ncols / 64)).map fun j => blockOf w k (rg.row + r0) (rg.col + 64 * j)
  let bad := gone || blks.any fun b => isPois w b.key
  putElems e w k p o.b1 ((List.range 64).flatMap fun r =>
    if p.vrows ≤ r0 + r then []
    else
      let xs := blks.flatMap fun b => (List.range 64).map fun c => accWord e w b r c
      (rowOut op xs).zipIdx.filterMap fun (v, c) => if c < p.vcols then some ⟨r0 + r, c, v, bad⟩ else none)

/-- SCLD's step: one scale column in every quadrant of QMASK (R307). -/
def stepScld (colB : Bool) : StepFn := fun gone e w k o =>
  let p := parsePanel o.d1
  let x := o.comp
  let col := bvF x 0 9 + o.step
  let e0 := bvF x 9 9
  let cells := if colB then (List.range p.cols).map fun c => (o.step, c) else (List.range p.rows).map fun r => (r, o.step)
  ((List.range 4).filter fun q => bitAt x.toNat (20 + q)).foldl (fun w q =>
    let key := fun i => scaleKey w k (bvF x 18 2) q col (e0 + i)
    let w := cells.zipIdx.foldl (fun w ((r, c), i) => wrB w (key i) (BitVec.ofNat 8 (rdElem e w k p o.b1 r c))) w
    let bad := if gone then (List.range cells.length).map key else if w.poison = [] then [] else
      (cells.zipIdx.filter fun ((r, c), _) => poisElem w k p o.b1 r c).map fun (_, i) => key i
    settlePoison w bad (if w.poison = [] then [] else (List.range cells.length).map key)) w

/-- PSWZ's step: a 64 x 64 block of the destination's extent (R308). -/
def stepPswz (rm : Rm) (tr : Bool) : StepFn := fun gone e w k o =>
  let p := parsePanel o.d1
  let q := parsePanel o.d2
  let nb := (q.cols + 63) / 64
  let r0 := 64 * (o.step / nb)
  let c0 := 64 * (o.step % nb)
  putElems e w k q o.b2 ((List.range 64).flatMap fun r => (List.range 64).filterMap fun c =>
    let (r, c) := (r0 + r, c0 + c)
    if r < q.vrows ∧ c < q.vcols then
      let (sr, sc) := if tr then (c, r) else (r, c)
      some ⟨r, c, pswzConv p.fmt q.fmt rm (rdElem e w k p o.b1 sr sc), gone || poisElem w k p o.b1 sr sc⟩
    else none)

/-- The step of an operation's kind. -/
def stepOf : EKind → StepFn
  | .mma ns a b => stepMma ns a b
  | .azero => stepAzero
  | .astp rm => stepAstp rm
  | .aldp add => stepAldp add
  | .arow op => stepArow op
  | .scld b => stepScld b
  | .pswz rm tr => stepPswz rm tr
  | .copy | .copym | .copyo | .gather | .coll | .tlsig => fun _ _ w _ _ => w

/-- The consort cores that a step reads and those that it writes: of the panels, the block and the scale columns (R299, R301). -/
def stepCores (k : Consort) (o : EngOp) : List Nat × List Nat :=
  let p := parsePanel o.d1
  let q := parsePanel o.d2
  let blk := ((regionOf o.region).row + (opBlock o).1) / k.accN
  match o.kind with
  | .mma .. => ([p.csel, q.csel], [blk])
  | .azero => ([], [blk])
  | .aldp _ => ([p.csel], [blk])
  | .astp _ | .arow _ => ([blk], [p.csel])
  | .scld _ => ([p.csel], [bvF o.comp 18 2])
  | .pswz .. => ([p.csel], [q.csel])
  | .copy | .copym | .copyo | .gather | .coll | .tlsig => ([], [])

/-- A step performed as its requests to other cores come out: a write out of reach is not performed, a read without data poisons what
the step writes (R129, R168, R301); the state and the status met. -/
def runStep (e : Env) (w : W) (k : Consort) (o : EngOp) : W × Nat :=
  let away := fun cc => coreAway w o.pcn (consortPcn w k cc)
  let (src, dst) := stepCores k o
  if dst.any away then (w, if o.tmo then 0x22 else 0x21)
  else if o.tmo ∧ src = [] then (if o.tmoDone then stepOf o.kind false e w k o else w, 0x22)
  else
    let code := if o.tmo then 0x22 else if src.any away then 0x21 else 0
    (stepOf o.kind (code != 0) e w k o, code)

/-- Whether a sequencer may perform a step: its core not muted, control state sound, every unit in place (R129, R173, R331). -/
def chiselReady (w : W) (pcn q : Nat) : Option (Nat × EngOp) :=
  match headOp w pcn q with
  | some (n, o) =>
    if (quad w (4 * pcn + q)).chiselOk && !pcnMuted w pcn && (opAway w o).isNone then some (n, o) else none
  | none => none

/-- CHISEL_STEP: the head operation's next step performed, STEP advanced; its last step, or having none, completes it
(R299, R47). The manual does not say which core's counter counts a matrix step whose block another core holds, nor whether a step that is
not performed counts: the model's choice is the sequencer's core and every step (R158, log entry 56). -/
def execChiselStep (pcn q : Nat) (s : State) :=
  event (fun e w =>
    match chiselReady w pcn q with
    | none => w
    | some (n, o) => match consort? w o.consort with
      | none => w
      | some k =>
        if o.total ≤ o.step then completeOp e w n
        else
          let (w, code) := runStep e w k o
          let w := match o.kind with | .mma .. => bumpCore w pcn 2 1 | _ => w
          let w := updOp w n fun o => { addCode o code with step := o.step + 1, tmo := false }
          let w := updHandle e w o.cid o.ah fun h => bvSet h 72 24 (o.step + 1)
          if o.total ≤ o.step + 1 then completeOp e w n else w) s

/-! Copies (R309). -/

/-- How an engine access of global bytes comes out before it is performed. -/
inductive EngRes where
  | ok (ls : List (Loc × Nat × Nat))
  | fault (cause va : Nat) (matrix : Option (Nat × Nat))
  | wait (scrub : Option (Nat × Nat))
  deriving DecidableEq, Repr

/-- An engine's access of n bytes translated and checked under its slot (R96, R101, R109, R156, R301, R336). -/
def engAccess (e : Env) (w : W) (o : EngOp) (nd : Need) (va n : Nat) : EngRes :=
  if o.tmoWalk then .fault 0x22 va none
  else match placesOf (fun a => translate e w o.part o.world o.asid (a % 2 ^ 64) nd o.priv) (piecesOf va n) with
  | .error (_, .wait _) => .wait none
  | .error (a, .fail x) => .fault x a none
  | .error (a, .ok _) => .fault 0x22 a none
  | .ok ls => match placesRefused w o.pcn ls with
    | some (s, a) => .fault 0x16 a (some (o.pcn, s))
    | none => match (if nd = .write then placesScrub w ls else none) with
      | some x => .wait (some x)
      | none => if (placesXoff w ls).isSome then .wait none else .ok ls

/-- An access that waits: its frame comes first in the scrub order (R109). -/
def waitOn (w : W) (x : Option (Nat × Nat)) : W :=
  match x with
  | some (s, f) => scrubFirst w s f
  | none => w

/-- Whether a piece of an engine access lies at a slice out of reach (R129, R184). -/
def pieceAway (w : W) (o : EngOp) (x : Loc × Nat × Nat) : Bool := (placesMuted w [x]).isSome || (placesCut w o.pcn [x]).isSome

/-- The status of an engine access with pieces out of reach or whose request times out (R301, R312). -/
def lostCode (w : W) (o : EngOp) (ls : List (Loc × Nat × Nat)) : Nat :=
  if o.tmo then 0x22 else if ls.any (pieceAway w o) then 0x21 else 0

/-- The numbers of a run's bytes that an engine reads without data: poisoned sectors, pieces out of reach, or all of a request without
a reply (R171, R301). -/
def lostBytes (w : W) (o : EngOp) (ls : List (Loc × Nat × Nat)) : List Nat :=
  if w.poison = [] ∧ lostCode w o ls = 0 then []
  else ((ls.flatMap fun x => (List.range x.2.2).map fun i =>
    o.tmo || pieceAway w o x || readStop w (x.1.add i) == some 0x20).zipIdx.filter (·.1)).map (·.2)

/-- The keys of places' bytes. -/
def locKeys (ls : List (Loc × Nat × Nat)) : List Nat := ls.flatMap fun (l, _, n) => (List.range n).map fun i => (l.add i).key

/-- Bytes written by an engine at keys, with poison for the bytes of the numbers given (R171, R172). -/
def wrKeys (w : W) (keys : List Nat) (bs : List Byte) (bad : List Nat) : W :=
  let w := (keys.zip bs).foldl (fun w (a, b) => wrB w a b) w
  settlePoison w (bad.filterMap fun i => keys[i]?) (if w.poison = [] then [] else keys)

/-- A line's global address; the index of a GATHER is read first (R309). -/
def lineVa (o : EngOp) (idx : Nat) : Nat := (o.va.toNat + idx * bvF o.comp 0 24) % 2 ^ 64

/-- A line's byte offset in its segment: its first element's (R309). -/
def lineAt (p : Panel) (l : Nat) : Nat := p.base + (if p.col then p.delta 0 l else p.delta l 0)

/-- The keys of a line's bytes on a consort core. -/
def lineKeys (w : W) (k : Consort) (o : EngOp) (p : Panel) (cc l n : Nat) : List Nat :=
  (List.range n).map fun i => panelKey w k cc o.b1 (lineAt p l + i)

/-- A line marked performed; the last completes the operation (R299). -/
def lineDone (e : Env) (w : W) (n l : Nat) (f : EngOp → EngOp) : W :=
  let w := updOp w n fun o => f { o with units := o.units.filter (· != l) }
  match op? w n with
  | some o => if o.units = [] then completeOp e w n else w
  | none => w

/-- A run's bytes written by an engine, with poison for the bytes of the numbers given: pieces out of reach are not written, and a
request without a reply writes nothing unless its target performs it (R168, R301). -/
def writeRun (e : Env) (w : W) (o : EngOp) (ls : List (Loc × Nat × Nat)) (bs : List Byte) (bad : List Nat) : W :=
  if o.tmo ∧ !o.tmoDone then w
  else (ls.foldl (fun (st : W × Nat) x =>
    let (w, at_) := st
    let w := if pieceAway w o x then w
      else
        let keys := locKeys [x]
        let bad := (bad.filter fun i => at_ ≤ i && decide (i < at_ + x.2.2)).map (· - at_)
        settlePoison (wrPlaces e w o.world [x] ((bs.drop at_).take x.2.2)) (bad.filterMap fun i => keys[i]?)
          (if w.poison = [] ∧ bad = [] then [] else keys)
    (w, at_ + x.2.2)) (w, 0)).1

/-- A copy's line into consort cores, from bytes already read: cores out of reach are skipped (R123, R309). -/
def writeLines (w : W) (k : Consort) (o : EngOp) (p : Panel) (l : Nat) (ccs : List Nat) (bs : List Byte) (bad : List Nat) : W :=
  ccs.foldl (fun w cc =>
    if coreAway w o.pcn (consortPcn w k cc) then w else wrKeys w (lineKeys w k o p cc l bs.length) bs bad) w

/-- The cores a copy's line goes to. -/
def lineCores (o : EngOp) (p : Panel) : List Nat :=
  if o.kind = .copym then copyDests o else [p.csel]

/-- A line copied into panels (R309, R301). -/
def lineIn (e : Env) (w : W) (k : Consort) (n : Nat) (o : EngOp) (l idx : Nat) : W :=
  let p := parsePanel o.d1
  let lb := lineExt p.fmt (if p.col then p.vrows else p.vcols)
  let va := lineVa o idx
  match engAccess e w o .read va lb with
  | .wait x => waitOn w x
  | .fault x a m => opFault e w n x a 5 lb m
  | .ok ls =>
    let ccs := lineCores o p
    let skip := ccs.filter fun cc => coreAway w o.pcn (consortPcn w k cc)
    let code := max (lostCode w o ls) (if skip = [] then 0 else 0x21)
    let w := writeLines w k o p l ccs (rdPlaces e w o.world ls) (lostBytes w o ls)
    lineDone e w n l fun o =>
      let o : EngOp := { addCode o code with tmo := false }
      if o.kind = .copym then skip.foldl skipDest o else o

/-- A line copied out of its panel (R309, R301). -/
def lineOut (e : Env) (w : W) (k : Consort) (n : Nat) (o : EngOp) (l : Nat) : W :=
  let p := parsePanel o.d1
  let lb := lineExt p.fmt (if p.col then p.vrows else p.vcols)
  match engAccess e w o .write (lineVa o l) lb with
  | .wait x => waitOn w x
  | .fault x a m => opFault e w n x a 6 lb m
  | .ok ls =>
    let keys := lineKeys w k o p p.csel l lb
    let gone := coreAway w o.pcn (consortPcn w k p.csel)
    let code := max (lostCode w o ls) (if gone then 0x21 else 0)
    let bad := if gone then List.range lb
      else if w.poison = [] then [] else (keys.zipIdx.filter fun x => isPois w x.1).map (·.2)
    let w := writeRun e w o ls (keys.map (rdB e w)) bad
    lineDone e w n l fun o => { addCode o code with tmo := false }

/-- COPY_LINE: one line of a copy or gather performed, unless the operation has stopped on a fault (R299, R301, R309). -/
def execCopyLine (n l : Nat) (s : State) :=
  event (fun e w =>
    match op? w n with
    | none => w
    | some o => match consort? w o.consort with
      | none => w
      | some k =>
        if !o.kind.isCopy ∨ !o.units.contains l ∨ o.faulted ≠ [] ∨ (opAway w o).isSome ∨ !(core w o.pcn).copyOk ∨
            pcnMuted w o.pcn then w
        else match o.kind with
          | .copyo => lineOut e w k n o l
          | .gather =>
            let va := (o.va2.toNat + 4 * l) % 2 ^ 64
            match engAccess e w o .read va 4 with
            | .wait x => waitOn w x
            | .fault x a m => opFault e w n x a 5 (lineExt (parsePanel o.d1).fmt
                (if (parsePanel o.d1).col then (parsePanel o.d1).vrows else (parsePanel o.d1).vcols)) m
            | .ok ls =>
              let gone := coreAway w o.pcn (consortPcn w k (parsePanel o.d1).csel)
              let code := max (lostCode w o ls) (if gone then 0x21 else 0)
              if lostBytes w o ls = [] then lineIn e w k n o l (leNat (rdPlaces e w o.world ls))
              else
                let p := parsePanel o.d1
                let lb := lineExt p.fmt (if p.col then p.vrows else p.vcols)
                let w := writeLines w k o p l [p.csel] (List.replicate lb 0) (List.range lb)
                lineDone e w n l fun o => { (addCode o code) with tmo := false }
          | _ => lineIn e w k n o l l) s

/-! Collectives (R310, R311). -/

/-- A group descriptor's fields (R310). -/
structure Group where
  mtab : Nat
  dst : Nat
  src : Nat
  root : Nat
  group : Nat
  count : Nat
  members : Nat
  rank : Nat
  rop : Nat
  fmt : Nat
  kind : Nat
  reserved : Bool
  ver : Nat
  deriving DecidableEq, Repr

/-- The fields of a descriptor's 64 bytes. -/
def parseGroup (b : List Byte) : Group :=
  let n := leNat b
  ⟨bitsAt n 320 64, bitsAt n 256 64, bitsAt n 192 64, bitsAt n 160 32, bitsAt n 128 32, bitsAt n 96 32, bitsAt n 80 16,
    bitsAt n 64 16, bitsAt n 20 4, bitsAt n 16 4, bitsAt n 8 8, bitsAt n 384 128 != 0 || bitsAt n 24 40 != 0, bitsAt n 0 8⟩

/-- The size of an element (R311). -/
def Group.z (g : Group) : Nat := if g.fmt = 1 then 2 else 4

/-- The bytes of SRC. -/
def Group.bytes (g : Group) : Nat := g.count * g.z

/-- The bytes of DST: ALLGATHER's holds every member's. -/
def Group.dstBytes (g : Group) : Nat := if g.kind = 2 then g.bytes * g.members else g.bytes

/-- A value outside its range, a non-zero reserved field, or ranges that overlap without being equal (R310, R311). -/
def Group.bad (g : Group) : Bool :=
  g.reserved || g.ver != 1 || decide (3 < g.kind) || !(g.fmt == 0 || g.fmt == 1 || g.fmt == 7) || decide (2 < g.rop) ||
  g.count == 0 || g.members == 0 || decide (640 < g.members) || decide (g.members ≤ g.rank) || g.mtab % 8 != 0 ||
  ((g.kind == 0 || g.kind == 3) && decide (g.members ≤ g.root)) ||
  (decide (g.src < g.dst + g.dstBytes) && decide (g.dst < g.src + g.bytes) &&
    !(g.src == g.dst && g.bytes == g.dstBytes))

/-- Whether a member's terms agree (R311). -/
def Group.agrees (g : Group) (x : PeerPart) : Bool :=
  !x.answers || (x.kind == g.kind && x.fmt == g.fmt && x.rop == g.rop && x.count == g.count && x.members == g.members &&
    x.root == g.root)

/-- Whether the elements are summed as FP32 values, which a BF16 element is widened to (R311). -/
def Group.wide (g : Group) : Bool := g.fmt == 1 && g.rop == 0

/-- Two elements combined: BF16 terms of a sum as FP32 values, so that the result alone is rounded to BF16 (R311). -/
def Group.comb (g : Group) (a b : Nat) : Nat :=
  let f := if g.fmt = 1 ∧ !g.wide then bf16 else fp32
  if g.fmt = 7 then
    match g.rop with
    | 0 => (a + b) % 2 ^ 32
    | 1 => if BitVec.slt (BitVec.ofNat 32 a) (BitVec.ofNat 32 b) then b else a
    | _ => if BitVec.slt (BitVec.ofNat 32 a) (BitVec.ofNat 32 b) then a else b
  else match g.rop with
    | 0 => (f.add .rne a b).1
    | 1 => (f.minmax true a b).1
    | _ => (f.minmax false a b).1

/-- The elements of bytes. -/
def elemsOf (z : Nat) : Nat → List Byte → List Nat
  | 0, _ => []
  | f + 1, b => if b.length < z ∨ z = 0 then [] else leNat (b.take z) :: elemsOf z f (b.drop z)

/-- Element-wise combination in the order of the list; the grouping is the event's choice (R38, R311). -/
def Group.reduce (g : Group) (own : List Byte) (ps : List PeerPart) : List Byte :=
  let terms := fun bs => (elemsOf g.z own.length bs).map fun x => if g.wide then x * 2 ^ 16 else x
  let r := ps.foldl (fun acc p => (acc.zip (terms p.bytes)).map fun (a, b) => g.comb a b) (terms own)
  r.flatMap fun x => leBytes g.z (if g.wide then (bf16.ofFv .rne (fp32.decode x)).1 else x)

/-- A collective's status without effect: the number done (R311). -/
def endColl (e : Env) (w : W) (n code : Nat) : W := completeOp e (updOp w n fun o => addCode o code) n

/-- An entry of the member table: FDEV and partition in range, the other bits zero (R196, R310). -/
def memberOk (entry : Nat) : Bool := decide (bitsAt entry 0 10 < 640) && bitsAt entry 14 50 == 0

/-- Whether RANK names the member's own entry of the member table, its FDEV and partition, and every entry is well formed (R310,
R311). -/
def Group.tableOk (g : Group) (w : W) (o : EngOp) (mtab : List Nat) : Bool :=
  mtab.all memberOk && bitsAt (nth mtab g.rank 0) 0 10 == w.hub.fdev && bitsAt (nth mtab g.rank 0) 10 4 == o.part

/-- The port over which a member of another package is reached; none for one of this package (R196). -/
def memberLink (w : W) (entry : Nat) : Option Port :=
  if bitsAt entry 0 10 = w.hub.fdev then none else some (port w (Config.fabRoute (bitsAt entry 0 10)).val)

/-- Whether an XOFF of the collectives' class stops what a member sends to the others (R196). -/
def collXoff (w : W) (mtab : List Nat) : Bool :=
  mtab.any fun x => bitsAt x 0 10 != w.hub.fdev && xoffAt w (Config.fabRoute (bitsAt x 0 10)).val 2

/-- What an ended or waiting access makes of a chunk; `f` goes on with the places. -/
def withAccess (e : Env) (w : W) (n : Nat) (o : EngOp) (nd : Need) (va len size : Nat)
    (f : List (Loc × Nat × Nat) → W) : W :=
  match engAccess e w o nd va len with
  | .wait x => waitOn w x
  | .fault x a m => opFault e w n x a (if nd = .read then 5 else 6) size m
  | .ok ls => f ls

/-- The numbers of a member's bytes whose source sector is poisoned. -/
def peerBad (p : PeerPart) : List Nat := (List.range p.bytes.length).filter fun i => p.poison.contains (i / 32)

/-- The runs of DST that a chunk writes: address, bytes, and the numbers of its poisoned bytes; `gone` tells the ranks that
gave no answer, whose elements are poisoned (R311). -/
def Group.chunkOut (g : Group) (chunk len : Nat) (own : List Byte) (bad : List Nat) (ps : List PeerPart)
    (gone : Nat → Bool) : List (Nat × List Byte × List Nat) :=
  let off := 4096 * chunk
  let all := List.range len
  let lost := (List.range g.members).any fun j => j != g.rank && gone j
  let red := (g.dst + off, g.reduce own ps, if lost then all else all.filter fun i => bad.contains i || ps.any fun p => (peerBad p).contains i)
  let get := fun j =>
    if j = g.rank then (own, bad)
    else match ps.find? fun p => p.rank == j with
      | some p => if gone j then (List.replicate len 0, all) else (p.bytes, peerBad p)
      | none => (List.replicate len 0, all)
  match g.kind with
  | 0 => if g.rank = g.root then [red] else []
  | 1 => [red]
  | 2 => (List.range g.members).map fun j => (g.dst + j * g.bytes + off, get j)
  | _ => [(g.dst + off, get g.root)]

/-- The runs of a chunk written in order; the first that faults stops the operation there, targets out of reach are not written
(R301). The status met, or none where the chunk is not over. -/
def writeRuns (e : Env) (n len : Nat) : List (Nat × List Byte × List Nat) → Nat → W → W × Option Nat
  | [], code, w => (w, some code)
  | (va, bs, bad) :: r, code, w =>
    match op? w n with
    | none => (w, none)
    | some o =>
      match engAccess e w o .write va len with
      | .wait x => (waitOn w x, none)
      | .fault x a m => (opFault e w n x a 6 len m, none)
      | .ok ls => writeRuns e n len r (max code (lostCode w o ls)) (writeRun e w o ls bs bad)

/-- Whether what an event brings names every other member once, with as many bytes as the chunk has (R311). -/
def Group.fullRound (g : Group) (len : Nat) (ps : List PeerPart) : Bool :=
  (List.range g.members).all fun j => j == g.rank ||
    match ps.filter fun p => p.rank == j with
    | [p] => !p.answers || p.bytes.length == len
    | _ => false

/-- Whether the member itself gives bytes to the round: all but a BROADCAST's other members (R311). -/
def Group.gives (g : Group) : Bool := g.kind != 3 || g.rank == g.root

/-- A chunk's exchange once the members have agreed (R311): members that gave no answer, now or earlier in the round, or whose link is down,
are gone. An XOFF of their class keeps a chunk back (R196). No chunk of a confidential world leaves over a link that is not encrypted
(R195). -/
def collMove (e : Env) (w : W) (n : Nat) (o : EngOp) (g : Group) (chunk : Nat) (peers : List PeerPart) : W :=
  let len := min 4096 (g.bytes - 4096 * chunk)
  let total := (g.bytes + 4095) / 4096
  let move := fun (code : Nat) (own : List Byte) (bad : List Nat) =>
    let ps := peers.filter fun p => p.rank < g.members && p.rank != g.rank
    let down := fun j => ((memberLink w (nth o.mtab j 0)).map fun x => !x.up).getD false
    let gone := fun j => bitAt o.round j || down j || ps.any fun p => p.rank == j && !p.answers
    let late := (List.range g.members).filter fun j => j != g.rank && gone j
    let code := if late = [] then code else max code 0x22
    match writeRuns e n len (g.chunkOut chunk len own bad (ps.filter fun p => !gone p.rank) gone) code w with
    | (w, none) => w
    | (w, some code) =>
      let w := updOp w n fun o =>
        { (addCode o code) with
          units := chunk :: o.units
          round := late.foldl (fun v j => setBits v j 1 1) o.round
          tmo := false }
      if ((op? w n).map (fun o => decide (total ≤ o.units.length))).getD false then completeOp e w n else w
  if total ≤ chunk ∨ !g.fullRound len peers ∨ collXoff w o.mtab then w
  else if o.world ≠ 0 ∧ o.mtab.any fun x => ((memberLink w x).map fun l => l.key.isNone).getD false then
    opFault e w n 0x16 (g.src + 4096 * chunk) 5 len none
  else if g.gives then withAccess e w n o .read (g.src + 4096 * chunk) len len fun ls =>
    move (lostCode w o ls) (rdPlaces e w o.world ls) (lostBytes w o ls)
  else move 0 (List.replicate len 0) []

/-- A descriptor or member table read by the port: its bytes given to `f`; one that cannot be read as data ends the collective with
that status (R301, R310). -/
def collRead (e : Env) (w : W) (n : Nat) (o : EngOp) (va len : Nat) (f : List Byte → W) : W :=
  withAccess e w n o .read va len len fun ls =>
    if lostBytes w o ls = [] then f (rdPlaces e w o.world ls) else endColl e w n (max 0x20 (lostCode w o ls))

/-- COLL_CHUNK: the port reads the descriptor and the member table once; the members compare their terms until they all agree, and chunks
are exchanged; one of a confidential world faults over a link that is not encrypted (R195, R196, R310, R311). The event's argument is what the
other members bring to the chunk. -/
def execCollChunk (n chunk : Nat) (peers : List PeerPart) (s : State) :=
  event (fun e w =>
    match op? w n with
    | none => w
    | some o =>
      if o.kind ≠ .coll ∨ o.faulted ≠ [] ∨ o.units.contains chunk ∨ !(core w o.pcn).collOk ∨ pcnMuted w o.pcn then w
      else if o.desc ≠ [] then
        if o.units = [] ∧ !peers.all (parseGroup o.desc).agrees then endColl e w n 0x23
        else collMove e w n o (parseGroup o.desc) chunk peers
      else collRead e w n o o.va.toNat 64 fun b =>
        let g := parseGroup b
        if g.bad then endColl e w n 0x23
        else collRead e w n o g.mtab (8 * g.members) fun t =>
          let mtab := elemsOf 8 g.members t
          if !g.tableOk w o mtab ∨ !peers.all g.agrees then endColl e w n 0x23
          else
            let o := { o with desc := b, mtab := mtab }
            collMove e (updOp w n fun _ => o) n o g chunk peers) s

end Sys2Proof.Machine
end

