-- ==== Sys2Proof/Machine/EvMem.lean ====
section
/-! DEFINITION. Events of device memory and translation (R93 to R113, R156, R336, R337). -/

namespace Sys2Proof.Machine

/-- An answer given to the outside. -/
def reply (w : W) (r : Reply) : W := { w with replies := r :: w.replies }

/-! Requests at a slice (R93, R94, R109, R113, R129, R156, R170). -/

/-- A request performed at its home slice. -/
def sliceDo (e : Env) (w : W) (r : SliceReq) (ls : List (Loc × Nat × Nat)) : W :=
  match r.acc with
  | .read => match placesStop w ls with
    | some (c, _) => reply w (if c = 0x21 then .muted else .poison)
    | none => reply w (.data (rdPlaces e w r.world ls))
  | .write =>
    if (placesMuted w ls).isSome then reply w .muted
    else reply (cleanCovered (wrPlaces e w r.world ls (r.data.take r.size)) (placeKeys ls)) .done
  | .atom => match placesStop w ls with
    | some (c, _) => reply w (if c = 0x21 then .muted else .poison)
    | none =>
      let (w, old) := atomAt e w r.part r.world r.op true (leNat r.data) (leNat r.data2) ls
      reply w (.data (leBytes (atWidth r.op) old))
  | .red =>
    if (placesMuted w ls).isSome then reply w .muted
    else reply (atomAt e w r.part r.world r.op false (leNat r.data) (leNat r.data2) ls).1 .done

/-- The bytes that a request touches. -/
def reqSize (r : SliceReq) : Nat :=
  match r.acc with
  | .read | .write => r.size
  | .atom | .red => atWidth r.op

/-- A request that no rule refuses: it meets a muted tile on the way, or is performed, a write or an atomic after the scrub that its
frame waits for (R109, R129, R184). -/
def sliceServe (e : Env) (w : W) (r : SliceReq) (ls : List (Loc × Nat × Nat)) : W :=
  if (placesCut w r.row ls).isSome then reply w .muted
  else sliceDo e (if r.acc = .read then w else afterScrub e w ls) r ls

/-- SLICE_REQUEST: a request of a requester row within one sector: refused by the matrix, or served. A core's refusal writes host event
0x13; of a refused hub or Celile access R156 names an error to its originator alone, and the model writes no event for it, its choice
(log entry 59). -/
def execSliceRequest (r : SliceReq) (s : State) :=
  event (fun e w =>
    match physLoc e.fix.form (part w r.part) r.pa with
    | none => reply w .error
    | some (sl, l) =>
      let n := reqSize r
      if r.pa % 32 + n > 32 ∨ n = 0 then reply w .error
      else
        let ls := [(Loc.dev sl l r.pa, r.pa, n)]
        if (placesRefused w r.row ls).isSome then
          reply (if r.row < 72 then partEvent w r.part r.world 0x13 r.row sl else w) .error
        else sliceServe e w r ls) s

/-! Walks and the TLBs (R101 to R105). -/

/-- The world whose keys a walk of an ASID uses: that of a course's owner slot under it. -/
def asidWorld (w : W) (p asid : Nat) : Nat :=
  (w.courses.findSome? fun (_, c) =>
    if c.id.part ≠ p then none
    else (List.range 8).findSome? fun s =>
      if slotValid c s ∧ slotAsid c s = asid then some (slotWorld c s) else none).getD 0

/-- A walk's combined entry for a page of device memory; none where the walk fails or the page is no device memory. -/
def walkEntry (e : Env) (w : W) (p asid va : Nat) (priv : Bool) : Option TlbEnt :=
  let wd := asidWorld w p asid
  if va ≥ 2 ^ 48 then none
  else match asidEntry e w p wd asid with
    | .ok (root, _) => match stage1 e w p wd root va with
      | .ok (en, lvl) =>
        if bitsAt en 9 2 ≠ 0 ∨ (bitAt en 5 && !priv) then none
        else
          let ipa := leafAddr en lvl va
          match if ipa ≥ 2 ^ 48 then .fail 0x16 else walk (rdEntry e w p 0) 0x16 4 (part w p).root ipa with
          | .ok (en2, lvl2) =>
            if bitsAt en2 9 2 ≠ 0 then none
            else
              let n1 := pageBytes (bitsAt en 6 3)
              let n2 := pageBytes (bitsAt en2 6 3)
              some ⟨p, asid, va / 4096, va / n1 * n1, n1, en, ipa / 4096 * 4096, en2,
                leafAddr en2 lvl2 ipa / 4096 * 4096, n2⟩
          | _ => none
      | _ => none
    | _ => none

/-- PAGE_WALK_COMPLETE: a finished walk's translation enters the TLBs; a failed one caches nothing (R101, R336). -/
def execPageWalkComplete (part_ asid va : Nat) (priv : Bool) (s : State) :=
  event (fun e w =>
    match walkEntry e w part_ asid va priv with
    | some t => if (tlbHit w part_ asid va).isSome then w else { w with tlb := t :: w.tlb }
    | none => w) s

/-- STAGE2_INVALIDATION: hub firmware writes a stage-2 entry and starts its invalidation (R104, R105). -/
def execStage2Invalidation (part_ ipa entryAddr : Nat) (entry : BitVec 64) (s : State) :=
  event (fun e w =>
    if entryAddr % 8 ≠ 0 then w
    else match tableWrite e w part_ entryAddr (leBytes 8 entry.toNat) with
      | none => w
      | some w =>
        let n := ((w.invals.map (·.n)).foldl max 0) + 1
        { w with invals := w.invals ++ [⟨n, part_, ipa⟩] }) s

/-- TLB_INVALIDATION_COMPLETE: no TLB holds an entry formed from the changed page any more (R104, R105). Every access is
performed when it issues, so none is awaited. -/
def execTlbInvalidationComplete (n : Nat) (s : State) :=
  event (fun _ w =>
    match w.invals.find? fun x => x.n == n with
    | none => w
    | some x =>
      { w with
        invals := w.invals.filter fun y => y.n != n
        tlb := w.tlb.filter fun t => !(t.part == x.part && t.ipa / t.size2 == x.ipa / t.size2) }) s

/-! ATS (R106, R107). -/

/-- Whether a grant serves a page of a partition's PASID. -/
def AtsEnt.serves (t : AtsEnt) (p pasid page : Nat) : Bool := t.part == p && t.pasid == pasid && t.page == page

/-- ATS_TRANSLATION_COMPLETION: the host grants or refuses a page to the ASID that asked for it; the accesses that waited for it go
on (R103, R106). -/
def execAtsTranslationCompletion (n : FnNo) (asid pasid iova : Nat) (g : Grant) (s : State) :=
  event (fun _ w =>
    let p := (fn w n.val).part
    let page := iova / 4096
    { w with
      ats := ⟨p, asid, pasid, page, g.r, g.w⟩ :: w.ats.filter fun t => !(t.serves p pasid page && t.asid == asid)
      courses := tMap w.courses fun _ c =>
        if c.k.stall = some (.ats p asid pasid page) then { c with k := { c.k with stall := none } } else c }) s

/-- ATS_INVALIDATION_REQUEST: the translation is forgotten, whatever ASID it was granted to, and the request answered; every access
that used it has completed, since each is performed when it issues, and one that comes later asks again (R107). -/
def execAtsInvalidationRequest (n : FnNo) (pasid iova : Nat) (s : State) :=
  event (fun _ w =>
    let p := (fn w n.val).part
    reply { w with ats := w.ats.filter fun t => !t.serves p pasid (iova / 4096) } (.ats iova)) s

/-! Keys and scrubs (R109, R112). -/

/-- KEY_LOAD_COMPLETE: a key stands in one of the 2,048 slots; nothing else shows it. -/
def execKeyLoadComplete (key : Nat) (s : State) :=
  event (fun _ w =>
    if w.sec.keySlots.contains key then w else bumpDev (loadKey w key) 4 1) s

/-- Frames set scrub-pending. -/
def setScrub (w : W) (p : Nat) (frames : List Nat) : W :=
  { w with scrub := w.scrub ++ ((frames.dedup).filter fun f => !w.scrub.contains (p, f)).map fun f => (p, f) }

/-- SCRUB_ON_BIND: hub firmware sets the bits of the frames of a partition's range that it takes from one tenant for another. -/
def execScrubOnBind (part_ : Nat) (frames : List Nat) (s : State) :=
  event (fun e w => setScrub w part_ (frames.filter fun f => (physLoc e.fix.form (part w part_) (f * 2 ^ 21)).isSome)) s

/-- SCRUB_FRAME_COMPLETE: a frame reads zero, its poison and encipherment are gone, and its waiting accesses go on. -/
def execScrubFrameComplete (part_ frame : Nat) (s : State) :=
  event (fun e w => scrubFrame e w part_ frame) s

end Sys2Proof.Machine
end

