-- ==== Sys2Proof/Machine/EvQueue.lean ====
section
/-! DEFINITION. Events of the fault queue, of issue, of messages and of launches (R131 to R140, R144, R148, R150, R157,
R186, R191, R198, R225). -/

namespace Sys2Proof.Machine

/-- The step's course, counter or interval falls due: time is not earlier than its deadline. -/
def reachTime (w : W) (t : Nat) : W := { w with now := max w.now t }

/-! Fault queue registers (R55, R148, R150). -/

/-- FQHEAD_WRITE: a value that R150 allows moves the head and resolves entries; another changes nothing. -/
def execFqheadWrite (part_ : Nat) (v : BitVec 64) (s : State) :=
  event (fun e w => if headValid (part w part_).fq v.toNat then moveHead e w part_ v.toNat else w) s

/-- FQ_CONFIG_WRITE: FQBASE or FQSIZE takes a value, and pending faults are delivered again. -/
def execFqConfigWrite (part_ : Nat) (size : Bool) (v : BitVec 64) (s : State) :=
  event (fun e w =>
    let f := (part w part_).fq
    if size then (if fqSizeOk v.toNat then rebuildFq e w part_ f.base v else w)
    else rebuildFq e w part_ (BitVec.ofNat 64 (v.toNat / 32 * 32)) f.size) s

/-! Issue that executes no instruction (R144, R225). -/

/-- CONVERGENCE_ILLOP: every live lane stands at a convergent instruction, no lane is parked, and they do not stand at one
PC; one entry for each owner slot that has live lanes in a mixed course (R144, R319). -/
def convergeIllop (e : Env) (w : W) (c : Course) (held : Mask) : W :=
  let pc := (minLpc c held).toNat
  takeFaults e w c ((bySlot c held).map fun (s, m) => entryFree c 0x01 s m (c.id.cbase.toNat + pc) (slotAsid c s) pc) none

def execConvergenceIllop (cid : Nat) (s : State) :=
  event (fun e w =>
    match course? w cid with
    | none => w
    | some c =>
      if !canIssue c then w
      else match pick e w c with
        | .split c held => convergeIllop e w c held
        | _ => w) s

/-- RESERVED_WORD_ISSUE: the word that issues next decodes to no instruction (R225). -/
def execReservedWordIssue (x : Word) (s : State) :=
  event (fun e w =>
    match issueOf e w with
    | .go t =>
      if t.c.w.closing then w
      else match (fetchAt e w t.c t.pc).word with
        | .ok y => if y = x.toNat ∧ (decodeWord y 0).isNone then illopAt e w t else w
        | _ => w
    | _ => w) s

/-! Messages (R130, R131, R134, R191, R198). -/

/-- TAGPORT_WRITE: a naturally aligned 16-byte write to a valid port forms a message; any other write, or one to a port of a
confidential world outside TDISP RUN, is a rejected message (R191). A write of an unbound VF is ignored (R190). -/
def execTagportWrite (n : FnNo) (port_ : Fin 64) (whole : Bool) (data : BitVec 128) (s : State) :=
  event (fun e w =>
    let f := fn w n.val
    let b := tGetD f.ports port_.val ⟨0, 0, 0, false⟩
    if !takesWrites w n.val then w
    else
      let x : Sender := ⟨b.asid, b.world, b.prio, some n.val, some port_.val⟩
      if whole ∧ b.valid ∧ (b.world = 0 ∨ f.tdisp = 2) then (takeMessage e w f.part x data.toNat).1
      else rejectMessage w f.part x data.toNat) s

/-- POOL_TIMER_EXPIRY: a pool's timer runs out and the pool fires (R134). -/
def execPoolTimerExpiry (part_ tag : Nat) (s : State) :=
  event (fun e w =>
    match tGet? (part w part_).pools tag with
    | none => w
    | some q => firePool e (reachTime w q.until_) part_ tag) s

/-- An import entry's owner and match (R198). -/
structure Import where
  fdev : Nat
  spart : Nat
  first : Nat
  last : Nat
  asid : Nat
  world : Nat
  prio : Nat
  valid : Bool
  deriving DecidableEq, Repr

/-- Entry i of a partition's import table; none when it cannot be read. -/
def importAt (e : Env) (w : W) (p base i : Nat) : Option Import :=
  (tableRead e w p (base + 16 * i) 16).map fun b =>
    let n := (Config.importForm (BitVec.ofNat 128 (leNat b))).toNat
    ⟨bitsAt n 0 10, bitsAt n 10 4, bitsAt n 14 12, bitsAt n 26 12, bitsAt n 38 16, bitsAt n 54 4, bitsAt n 58 3, bitAt n 61⟩

/-- The owner a peer's message takes: the lowest valid matching entry (R198). -/
def importOwner (e : Env) (w : W) (p fdev spart tag : Nat) : Option Import :=
  match (part w p).impT with
  | none => none
  | some base => (List.range 256).findSome? fun i =>
      match importAt e w p base i with
      | some x => if x.valid ∧ x.fdev = fdev ∧ x.spart = spart ∧ x.first ≤ tag ∧ tag ≤ x.last then some x else none
      | none => none

/-- CELILE_MESSAGE: a peer's message that a link port takes in finds its owner in the import table, or is rejected (R130, R131, R196,
R198). -/
def execCelileMessage (from_ : FabDev) (part_ spart : Nat) (data : BitVec 128) (s : State) :=
  event (fun e w =>
    if !takesFlit w from_.port.val from_.seq then w
    else
      let w := flitIn w from_.port.val
      match importOwner e w part_ from_.fdev spart (bitsAt data.toNat 64 12) with
      | some x => (takeMessage e w part_ ⟨x.asid, x.world, x.prio, none, none⟩ data.toNat).1
      | none => rejectMessage w part_ ⟨0, 0, 0, none, none⟩ data.toNat) s

/-! The device-side launch queue (R140, R314). -/

/-- Whether an earlier launch of a queue, or the launch of the course that issued this one, has not completed (R140, R297). -/
def earlierOpen (w : W) (p : Nat) (q : Queued) : Bool :=
  (launch? w q.parent).isSome ||
  w.launches.any fun (_, l) => l.part == p && (match l.seq with | some m => decide (m < q.seq) | none => false)

/-- A launch that left the queue: one owner in slot 0, with the lower of its PRIO and the ceiling (R314). -/
def queueLaunch (w : W) (p : Nat) (q : Queued) (h : Hdr) : Launch :=
  mkLaunch h p .queue [⟨q.asid, q.world, min h.prio (part w p).ceiling, 0, 32⟩] q.codeAsid q.asid q.priv q.ctx none none
    (some q.seq)

/-- An entry of the queue's head that cannot be read holds the queue (R140). -/
def holdQueue (e : Env) (w : W) (p : Nat) (q : Queued) (cause : Nat) : W :=
  let w := updPart w p fun x => { x with lqHold := true }
  let x : Entry := ⟨if cause < 0x20 then 0x17 else cause, 0, 0, 0, queueAddr w p q.pos, (part w p).cAsid, q.world, p, noCid,
    0, 0, 128⟩
  report e w ⟨x, [.launch], false⟩ none

/-- LAUNCH_QUEUE_DEPART: the launch at the queue's head leaves it and starts (R140). -/
def departQueue (e : Env) (w : W) (p : Nat) : W :=
  match (part w p).lq with
  | [] => w
  | q :: r =>
    if (part w p).lqHold then w
    else match ctxRead e w 72 p q.world (queueAddr w p q.pos) 128 with
      | .error (_, cause) => holdQueue e w p q cause
      | .ok b =>
        let h := parseHdr b
        if h.fenced ∧ earlierOpen w p q then w
        else
          let w := updPart w p fun x => { x with lq := r }
          enqueueWaiters e (startLaunch e w (queueLaunch w p q h) q.priv) p

def execLaunchQueueDepart (part_ : Nat) (s : State) := event (fun e w => departQueue e w part_) s

/-- LAUNCH_QUEUE_CEILING_CHANGE: it applies to launches that leave the queue after it (R143). -/
def execLaunchQueueCeilingChange (part_ : Nat) (prio : Fin 8) (s : State) :=
  event (fun _ w => updPart w part_ fun x => { x with ceiling := prio.val }) s

/-! Consorts (R138, R139, R186). -/

/-- CONSORT_PLACEMENT. -/
def execConsortPlacement (consort : Nat) (s : State) := event (fun e w => placeConsort e w consort) s

/-- Whether a consort has ended: placed, no course left, no engine operation of it in flight (R138). -/
def consortOver (w : W) (kc : Nat) (k : Consort) : Bool :=
  k.st == .placed && k.live == 0 && !(w.ops.any fun (_, o) => o.consort == kc)

/-- CONSORT_END. -/
def execConsortEnd (consort : Nat) (s : State) :=
  event (fun e w =>
    match consort? w consort with
    | some k => if consortOver w consort k then finishConsort e w consort else w
    | none => w) s

/-- The units of a consort that stand in place. -/
def unitsOf (w : W) (kc : Nat) (k : Consort) : List Unit70 :=
  k.cores.flatMap fun l =>
    let pcn := pcnOf w l
    (((core w pcn).blocks.filter fun x => x.2 == kc).map fun x => Unit70.scratch pcn x.1) ++
    (((core w pcn).groups.filter fun x => x.2 == kc).map fun x => Unit70.rows pcn (x.1 / 8) (x.1 % 8))

/-- Units saved one after another; the first that cannot be stops. -/
def saveUnits (e : Env) (k : Consort) : List Unit70 → W → Option W
  | [], w => some w
  | u :: r, w => match saveUnit e w k u with
    | .ok w => saveUnits e k r w
    | .error _ => none

/-- A unit of a consort's allotment as it stands in another allotment of it (R186). -/
def moveUnit (w : W) (old new : Consort) : Unit70 → Unit70
  | .scratch pcn b =>
    let i := old.cores.findIdx fun l => pcnOf w l == pcn
    let p := consortPcn w new i
    .scratch p ((setBase w p new.world + nth new.pw i 0) / 16384 + (b - (setBase w pcn old.world + nth old.pw i 0) / 16384))
  | .rows pcn q g =>
    let i := old.cores.findIdx fun l => pcnOf w l == pcn
    .rows (consortPcn w new i) q (nth (nth new.rows (4 * i + q) []) ((nth old.rows (4 * i + q) []).findIdx (· == g)) 0)

/-- A race record of a consort that moves: its word on the old core and window stands on the new ones (R84, R186). `old` and `new`
list core and window start by consort core. -/
def moveRace (old new : List (Nat × Nat)) (r : Race) : Race :=
  let i := old.findIdx fun x => x.1 == r.word / 2 ^ 19
  let o := nth old i (0, 0)
  let n := nth new i (0, 0)
  { r with word := n.1 * 2 ^ 19 + n.2 / 4 + (r.word % 2 ^ 19 - o.2 / 4) }

/-- A number of a list as it stands in another list at the same place; one that is not in the first stays. -/
def atSame (old new : List Nat) (p : Nat) : Nat := nth new (old.findIdx (· == p)) p

/-- A consort's waits and operations turned to the counters of its new cores, its courses to the cores themselves (R161, R186). -/
def moveWork (w : W) (kc : Nat) (slot old new : List Nat) : W :=
  { w with
    ops := tMap w.ops fun _ o => if o.consort = kc then { o with tlPcn := atSame old new o.tlPcn } else o
    courses := tMap w.courses fun _ c =>
      if c.id.consort = kc then
        { c with
          v := { c.v with hcore := nth slot c.id.core 0, hquad := 0 }
          k := { c.k with await := match c.k.await with
            | .timeline p i n q => .timeline (atSame old new p) i n q
            | a => a } }
      else c }

/-- The sleeper masks of the dispensers on which a consort's courses wait, once these stand on other cores (R162). -/
def moveSleepers (w : W) (kc : Nat) : W :=
  (coursesOf w kc).foldl (fun w c => match c.k.await with
    | .ticket d _ => updDisp w d fun x => { x with mask := sleeperMask w d }
    | _ => w) w

/-- A launch's slots with a consort moved to a slot of theirs, or to one that they did not hold yet, and that slot's number. -/
def moveSlot (w : W) (l : Launch) (k : Consort) (slot : List Nat) : Launch × Nat :=
  let left := l.slots.set k.slotI { (l.slots.getD k.slotI ⟨[], 0, none⟩) with holder := none }
  let n := left.findIdx fun s => s.cores == slot
  let here : LSlot := ⟨slot, lptCluster (lptAt w (slot.headD 0)), some k.idx⟩
  ({ l with slots := if n < left.length then left.set n here else left ++ [here] }, n)

/-- A resumable consort re-placed on a slot of the same width: its units that hold data stay in the save area and come back when they are
claimed, its records keep their frames and its timeline counters their numbers and values (R90, R186). -/
def replaceConsort (e : Env) (w : W) (kc : Nat) (k : Consort) (slot : List Nat) : W :=
  match saveUnits e k (unitsOf w kc k) w with
  | none => w
  | some w =>
    let old := k.cores.map (pcnOf w)
    let new := slot.map (pcnOf w)
    let tls := old.map fun p => (core w p).tls
    let kept := (unitsOf w kc k ++ k.away).dedup
    let w0 := freeUnits w kc { k with csave := 2 ^ 64 }
    let w0 := { w0 with consorts := tDel w0.consorts kc }
    let tlFree := new.all fun p => (List.range k.tlCnt).all fun i => (tGet? (core w0 p).tlOwner (k.tlFirst + i)).isNone
    match slotPlaces w0 { k with cores := slot }, tlFree with
    | some (pw, rows, scales), true =>
      let dest := { k with cores := slot, pw := pw, rows := rows, scales := scales }
      let moved := ((launch? w0 k.slotL).map fun l => moveSlot w0 l k slot)
      let dest := { dest with
        st := .placed, kept := false
        away := kept.map (moveUnit w k dest)
        races := k.races.map (moveRace (old.zip k.pw) (new.zip pw))
        slotI := (moved.map (·.2)).getD k.slotI }
      let w0 := match moved with
        | some (l, _) => { w0 with launches := tPut w0.launches k.slotL l }
        | none => w0
      let w := grabCounters { w0 with consorts := tPut w0.consorts kc dest } kc dest
      let w := new.zipIdx.foldl (fun w (p, i) => updCore w p fun c =>
        { c with tls := (List.range k.tlCnt).foldl (fun t j =>
            tPut t (k.tlFirst + j) (tGetD (nth tls i []) (k.tlFirst + j) Tlc.init)) c.tls }) w
      moveSleepers (moveWork w kc slot old new) kc
    | _, _ => w

/-- Whether cores are a slot that a consort of a launch may have: of one cluster as the launch would be dealt, in its world, and held by
no other consort of the launch (R83, R139, R186). -/
def slotFor (w : W) (kc : Nat) (k : Consort) (slot : List Nat) : Bool :=
  (match launch? w k.launch with
    | some l => (dealSlots w k.part l.hdr k.world).any fun s => s.cores == slot
    | none => false) &&
  !(w.consorts.any fun (n, x) => n != kc && x.slotL == k.slotL && x.cores.any slot.contains)

/-- RESUMABLE_CONSORT_REPLACE: the runtime's decision for a resumable consort: re-placed on a slot of its width in its partition, or lost
with status MUTED (R186). -/
def execResumableConsortReplace (consort : Nat) (slot : List Nat) (keep : Bool) (s : State) :=
  event (fun e w =>
    match consort? w consort with
    | none => w
    | some k =>
      if !k.kept then w
      else if !keep then loseConsort e w consort 0x21
      else if slot.length ≠ k.cores.length ∨ !slotFor w consort k slot then w
      else replaceConsort e w consort k slot) s

/-! MSI-X coalescing (R157). -/

/-- COALESCE_INTERVAL_END: a vector's interval ends; one message covers what was held in it. -/
def execCoalesceIntervalEnd (n : FnNo) (vec : Fin 2) (s : State) :=
  event (fun _ w =>
    match tGet? (fn w n.val).openIv vec.val with
    | none => w
    | some t =>
      let w := updFn (reachTime w t) n.val fun f => { f with openIv := tDel f.openIv vec.val }
      let f := fn w n.val
      if f.pba.contains vec.val ∧ !msixMasked f vec.val then msixSend w n.val vec.val else w) s

end Sys2Proof.Machine
end

