-- ==== Sys2Proof/Machine/EvLink.lean ====
section
/-! DEFINITION. Celile links and incoming fabric accesses (R173, R178, R196, R197, R199). -/

namespace Sys2Proof.Machine

/-! Incoming fabric accesses (R197). -/

/-- An export entry's fields (R197). -/
structure Export where
  spart : Nat
  sdev : Nat
  limit : Nat
  ipa : Nat
  a : Bool
  w : Bool
  r : Bool
  valid : Bool
  deriving DecidableEq, Repr

/-- The fields of an entry's 32 bytes. -/
def parseExport (n : Nat) : Export :=
  ⟨bitsAt n 208 4, bitsAt n 198 10, bitsAt n 128 64, bitsAt n 64 64, bitAt n 3, bitAt n 2, bitAt n 1, bitAt n 0⟩

/-- Entry i of a partition's export table; none when no base is set or it cannot be read. -/
def exportAt (e : Env) (w : W) (p i : Nat) : Option Export :=
  match (part w p).expT with
  | none => none
  | some base => (tableRead e w p (base + 32 * i) 32).map fun b => parseExport (leNat b)

/-- What an access needs of an entry and of stage 2. -/
def accNeed : Acc → Need
  | .read => .read
  | .write => .write
  | .atom => .atom
  | .red => .red

/-- Whether an entry admits an access. -/
def Export.admits (x : Export) (sdev spart off n : Nat) (acc : Acc) : Bool :=
  x.valid && x.sdev == sdev && x.spart == spart && decide (off + n ≤ x.limit) &&
  match acc with
  | .read => x.r
  | .write => x.w
  | .atom | .red => x.a

/-- The place of an address of an export window: stage 2 of the target maps it (R197). -/
def exportPlace (e : Env) (w : W) (p : Nat) (nd : Need) (ipa : Nat) : Xr Loc :=
  (stage2 e w p ipa nd).bind fun (pa, _, _) => physPlace e w p pa

/-- An access of another package at its target: refused by the export table or by stage 2, an error where the port's row of the
connection matrix does not reach the slice, or served (R156, R197). -/
def fabricServe (e : Env) (w : W) (port_ part_ sdev spart addr : Nat) (r : SliceReq) : W :=
  let n := reqSize r
  let off := addr % 2 ^ 36
  match exportAt e w part_ (addr / 2 ^ 36 % 4096) with
  | none => reply w .refused
  | some x =>
    if !x.admits sdev spart off n r.acc ∨ n = 0 then reply w .refused
    else match placesOf (exportPlace e w part_ (accNeed r.acc)) (piecesOf (x.ipa + off) n) with
      | .error _ => reply w .refused
      | .ok ls => if (placesRefused w (73 + port_) ls).isSome then reply w .error else sliceServe e w r ls

/-- The answer just given sent as a flit over a port; an XOFF of the replies' class holds it back (R196). -/
def answerOut (w : W) (n : Nat) : W :=
  if xoffAt w n 1 then
    match w.replies with
    | [] => w
    | r :: rs => updPort { w with replies := rs } n fun p => { p with held := p.held ++ [r] }
  else flitOut w n

/-- FABRIC_ACCESS_IN: an access of another package that a link port takes in, answered by a flit (R196, R197). -/
def execFabricAccessIn (from_ : FabDev) (part_ spart addr : Nat) (acc : Acc) (op : AtOp) (size : Nat) (data data2 : List Byte)
    (s : State) :=
  event (fun e w =>
    let n := from_.port.val
    if !takesFlit w n from_.seq then w
    else
      let r : SliceReq := ⟨73 + n, part_, 0, acc, op, 0, size, data, data2⟩
      answerOut (fabricServe e (flitIn w n) n part_ from_.fdev spart addr r) n) s

/-! Links (R178, R196). -/

/-- CELILE_FLIT_CRC_ERROR: the receiver discards the flit and those that follow, and asks for replay from its number; where that is the
link's other end, the flits kept from that number on are sent again (R196). -/
def execCelileFlitCrcError (x : FlitError) (s : State) :=
  event (fun _ w =>
    let n := x.port.val
    let p := port w n
    match x.far with
    | none =>
      if !p.up ∨ p.discarding then w
      else reply (updPort w n fun p => { p with discarding := true, replayFrom := some p.rx }) (.link n p.rx)
    | some seq =>
      let lost := p.unacked.filter (seq ≤ ·)
      if !p.up ∨ lost = [] then w else reply w (.resent n lost)) s

/-- The partitions that have a port. -/
def portParts (w : W) (n : Nat) : List Nat := (liveParts w).filter fun p => (part w p).ports.getLsbD n

/-- The courses that wait for a port go on: with the request that an XOFF kept back, or to its TIMEOUT over a link that is down (R173,
R196). -/
def linkWake (w : W) (n : Nat) : W :=
  { w with courses := tMap w.courses fun _ c =>
      if c.k.stall = some (.link n) then { c with k := { c.k with stall := none } } else c }

/-- A port taken down, its link's session gone, and host event 0x14 with a reason. -/
def portDown (w : W) (n reason : Nat) : W :=
  let w := updPort (linkWake w n) n fun p => { p with
    up := false, unacked := [], held := [], retrain := none, discarding := false, replayFrom := none, key := none }
  match portParts w n with
  | [] => hostEvent w 0 0 0 0x14 (n + reason * 256) 0
  | ps => ps.foldl (fun w p => partEvent w p 0 0x14 (n + reason * 256) 0) w

/-- The highest version of the Celile protocol that a link's other end advertises too; 0 for none (R199). -/
def linkVer (partner : Nat) : Nat := if bitAt partner 1 then 2 else if bitAt partner 0 then 1 else 0

/-- A link back from its training under a version: what stood unacknowledged is sent again in order (R178, R199). -/
def linkBack (w : W) (n ver : Nat) : W :=
  let lost := (port w n).unacked
  let w := updPort w n fun p => { p with up := true, ver := ver, retrain := none }
  if lost = [] then w else reply w (.resent n lost)

/-- CELILE_LINK_RESET: hub firmware retrains a port, which ends a discard. Of the versions that the other
end advertises when the link is back within 100 µs the highest common one is taken, and without one the link stays down (R199). While
it is not back no request passes. The reset is reported (R14). -/
def execCelileLinkReset (x : LinkReset) (s : State) :=
  event (fun e w =>
    let n := x.port.val
    let w := reportAction e w (portParts w n)
    let w := updPort w n fun p => { p with discarding := false, replayFrom := none }
    if x.versions = 0 then updPort (linkWake w n) n fun p => { p with up := false, retrain := some (w.now + 100 * usTicks) }
    else if linkVer x.versions = 0 then portDown w n 2
    else linkBack w n (linkVer x.versions)) s

/-- CELILE_RETRAIN_TIMEOUT: a link not back within 100 µs loses the packets sent before its reset; requests over it end in TIMEOUT
as over any link that is down (R168, R173, R178). -/
def execCelileRetrainTimeout (port_ : Fin 12) (s : State) :=
  event (fun _ w =>
    match (port w port_.val).retrain with
    | none => w
    | some t => updPort (reachTime w t) port_.val fun p => { p with retrain := none, unacked := [] }) s

/-- CELILE_LINK_DOWN: a link that is up goes down for one of the reasons 1 to 4. -/
def execCelileLinkDown (port_ : Fin 12) (reason : Fin 5) (s : State) :=
  event (fun _ w => if !(port w port_.val).up ∨ reason.val = 0 then w else portDown w port_.val reason.val) s

/-- An XON of a class: of the requests, after which the courses that wait for the port go on; of the replies, after which the answers
held back leave (R196). -/
def xonAt (w : W) (n cls : Nat) : W :=
  match cls with
  | 0 => linkWake w n
  | 1 =>
    let out := (port w n).held
    let w := out.foldl (fun w r => flitOut (reply w r) n) w
    updPort w n fun p => { p with held := [] }
  | _ => w

/-- CELILE_XON_XOFF: sending in a traffic class starts or stops: requests of lanes, uniform instructions, fetches and engines, replies to
accesses of other packages, and collectives wait for their XON; no class waits for another. The device sends no message to another
package (R196, log entry 13). -/
def execCelileXonXoff (port_ : Fin 12) (cls : Fin 4) (on : Bool) (s : State) :=
  event (fun _ w =>
    let w := updPort w port_.val fun p => { p with xoff := bvSet p.xoff cls.val 1 (!on).toNat }
    if on then xonAt w port_.val cls.val else w) s

end Sys2Proof.Machine
end

