-- ==== Sys2Proof/Machine/Mute.lean ====
section
/-! DEFINITION. What hub firmware does when a tile is muted or retuned: the table, the losses, the reports (R15, R154, R155,
R179, R183, R186, R188). -/

namespace Sys2Proof.Machine

/-! The table and REPLME (R15, R154, R179). -/

/-- The entry of a PCN changed in the logical-to-physical table. -/
def setLpt (w : W) (pcn lo n v : Nat) : W :=
  let l := w.hub.lpt.map fun x => if lptValid x ∧ lptPcn x = pcn then bvSet x lo n v else x
  { w with hub := { w.hub with lpt := l } }

/-- The absent cores of a die: those the table does not name, and those whose entry is ABSENT (R15). -/
def absentOn (w : W) (d : Nat) : Nat := ((List.range 36).filter fun i => pcnAbsent w (36 * d + i)).length

/-- The bits of REPLME that hold now (R179). -/
def replmeBits (w : W) : Nat :=
  (if 2 < absentOn w 0 then 1 else 0) + (if 2 < absentOn w 1 then 2 else 0) +
  (if w.hub.mutedSlices = [] then 0 else 4) +
  (List.range 24).foldl (fun n s => if sliceMuted w s then n + 2 ^ (24 + s) else n) 0

/-! Partitions concerned (R183). -/

/-- The partition of a matrix row that is VALID. -/
def rowPart (w : W) (row : Nat) : Option Nat :=
  let m := tGetD w.hub.matrix row 0
  if m.getLsbD 31 then some (bvF m 24 4) else none

/-- The partitions whose connection matrix rows include a tile; the hub die's row belongs to none. -/
def tileParts (w : W) (t : Nat) : List Nat :=
  if tileIsCore t then (rowPart w (pcnOfTile t)).toList
  else
    ((((List.range 85).filter (· != 72)).filterMap fun r =>
      if (tGetD w.hub.matrix r 0).getLsbD (sliceOfTile t) then rowPart w r else none).dedup)

/-- The fault queue entry of a muted or retuned tile. -/
def tileEntry (p t atype : Nat) : Entry := ⟨0x21, 0, 0, 0, tileNumber t, 0, 0, p, noCid, 0, atype, 0⟩

/-- The report of a tile to the partitions concerned and to the host (R151, R183, R188). -/
def reportTile (e : Env) (w : W) (t atype code lastSeq : Nat) : W :=
  let ps := tileParts w t
  let w := ps.foldl (fun w p => deliver e w p ⟨tileEntry p t atype, [], false⟩) w
  manyEvent w ps code (tileNumber t) lastSeq

/-! Consorts on a muted core (R155, R186). -/

/-- A consort that has a slot on an absent core and is not placed gives the slot up and waits again; the slot is gone. A slot of the
launch that stands free goes to the lowest waiting consort at once (log entry 61). -/
def giveUpSlot (w : W) (kc : Nat) (k : Consort) : W :=
  let w := { w with consorts := tDel w.consorts kc }
  let w := updLaunch w k.launch fun l => { l with
    slots := l.slots.set k.slotI ⟨[], 0, none⟩
    back := k.idx :: l.back }
  match launch? w k.launch with
  | some l => giveSlots w k.launch (slotsByCore l)
  | none => w

/-- Whether a consort is resumable after a mute of a PCN: every course parked or halted with HELD 0 and OPEN 0, and its
units there in the save area (R186). -/
def resumable (w : W) (kc pcn : Nat) : Bool :=
  (coursesOf w kc).all (fun c => (c.k.at_ == .parked || c.k.at_ == .halted) && !c.v.held && !c.k.bound) &&
  !((core w pcn).blocks.any fun x => x.2 == kc) && !((core w pcn).groups.any fun x => x.2 == kc)

/-- Whether a consort has work on a core: a course of it, or an operation in flight there (R186, R187). -/
def worksOn (w : W) (kc : Nat) (k : Consort) (l pcn : Nat) : Bool :=
  (coursesOf w kc).any (fun c => nth k.cores c.id.core 72 == l) || w.ops.any fun (_, o) => o.consort == kc && o.pcn == pcn

/-- The consorts of a logical core after its mute. -/
def loseOnCore (e : Env) (w : W) (l pcn : Nat) : W :=
  let ks := w.consorts.filter fun (_, k) => k.cores.contains l
  ks.foldl (fun w (kc, _) =>
    match consort? w kc with
    | none => w
    | some k =>
      if k.st = .slotted then giveUpSlot w kc k
      else if !worksOn w kc k l pcn then w
      else if resumable w kc pcn then updConsort w kc fun k => { k with kept := true }
      else loseConsort e w kc 0x21) w

/-! Mute and retune at the hub (R183, R188). -/

/-- APPEAL written in the neighbour records that face a tile (R187). -/
def setAppeal (w : W) (t : Nat) (on : Bool) : W :=
  (List.range 4).foldl (fun w d =>
    match neighbour t d with
    | none => w
    | some n => updTile w n fun x =>
        { x with nb := x.nb.mapIdx fun i r => if i = (d + 2) % 4 then bvSet r 22 1 on.toNat else r }) w

/-- What a mute does to the work on a core: its consorts, and the destinations on it of operations of other cores (R123, R186). -/
def muteCore (e : Env) (w : W) (pcn : Nat) : W :=
  loseOnCore e { w with ops := tMap w.ops fun _ o => skipMuted w o } (lcoreOf w pcn) pcn

/-- What a mute does to a slice: its dispensers are lost and its ports go down (R162, R186). -/
def muteSlice (w : W) (s : Nat) : W :=
  ((List.range 12).filter fun n => portSlice n == s && (port w n).up).foldl (fun w n => portDown w n 4)
    { w with disps := w.disps.filter fun x => x.1 / 256 != s }

/-- A tile's first mute report served. -/
def hubMute (e : Env) (w : W) (t lastSeq : Nat) : W :=
  let w := { w with hub := { w.hub with reported := t :: w.hub.reported } }
  let w := reportTile e w t 0x10 0x20 lastSeq
  let w :=
    if tileIsCore t then setLpt w (pcnOfTile t) 16 2 3
    else { w with hub := { w.hub with mutedSlices := sliceOfTile t :: w.hub.mutedSlices } }
  let w := if w.hub.appealOn.contains t then setAppeal w t true else w
  let w := if tileIsCore t then muteCore e w (pcnOfTile t) else muteSlice w (sliceOfTile t)
  raiseReplme w (replmeBits w)

/-- A tile's first retune report served. -/
def hubRetune (e : Env) (w : W) (t lastSeq : Nat) : W :=
  let w := { w with hub := { w.hub with reported := w.hub.reported.filter (· != t) } }
  let w := reportTile e w t 0x11 0x21 lastSeq
  if tileIsCore t then setLpt w (pcnOfTile t) 16 2 0
  else { w with hub := { w.hub with mutedSlices := w.hub.mutedSlices.filter (· != sliceOfTile t) } }

end Sys2Proof.Machine
end

