-- ==== Sys2Proof/Machine/EvError.lean ====
section
/-! DEFINITION. Uncorrectable and control-state errors (R170, R173). -/

namespace Sys2Proof.Machine

/-- A unit held in a course's slot marked by its frame sector (R40). -/
def markSlotUnit (w : W) (cid n : Nat) : W :=
  updCourse w cid fun c => { c with v := { c.v with pois := if c.v.pois.contains n then c.v.pois else n :: c.v.pois } }

/-- A corrected error counted: in slice event 3 of a slice's tile, and in the HEALTH word of any (R173, R180); no core event counts
it (R158), so HEALTH is a core's counter. -/
def noteCorrected (w : W) (t : Nat) : W :=
  let w := updTile w t fun x => { x with word := bvSet x.word 40 8 (min 255 (bvF x.word 40 8 + 1)) }
  if tileIsCore t then w else bumpSlice w (sliceOfTile t) 3 1

/-- UNCORRECTABLE_ERROR: the unit is poisoned; an error in DRAM or the home cache counts in slice event 4, a corrected one is only
counted, and a failure of the hub die ends in a device error (R14, R173). -/
def execUncorrectableError (u : ErrUnit) (s : State) :=
  event (fun _ w =>
    match u with
    | .sector sl l => bumpSlice (poisonAt w (keyDev sl l)) sl 4 1
    | .scratch pcn o => poisonAt w (keyScr pcn 0 o)
    | .line cid r => updCourse w cid fun c => { c with v := { c.v with lines := tUpd c.v.lines r.val fun l => { l with poison := true } } }
    | .granule cid g => markSlotUnit w cid (sectS (8 * g.val))
    | .pred cid => markSlotUnit (markSlotUnit w cid sectP) cid sectQ
    | .accBlock pcn q g cb => poisonAt w (keyAcc pcn q g cb 0 0)
    | .scale pcn q col g => poisonAt w (keyScale pcn q col (32 * g))
    | .corrected t => noteCorrected w t.val
    | .hubDie => reply { w with hub := { w.hub with failed := true } } .deviceError) s

/-- Consorts ended as lost with status 0x23 by hub firmware, which their launches' completion records report (R138, R173), and
reported as an action (R14). -/
def loseAll (e : Env) (w : W) (ks : List Nat) : W :=
  let ps := (ks.filterMap fun kc => (consort? w kc).map (·.part)).dedup
  let w := loseConsorts e w ks 0x23
  if ps = [] then w else reportAction e w ps

/-- The consorts with a course in a quadrant. -/
def quadConsorts (w : W) (pcn q : Nat) : List Nat :=
  w.courses.filterMap fun (_, c) =>
    if quadOf c = 4 * lcoreOf w pcn + q ∧ (c.k.at_ = .resident ∨ c.k.bound) then some c.id.consort else none

/-- The placed consorts on a core. -/
def coreConsorts (w : W) (pcn : Nat) : List Nat :=
  w.consorts.filterMap fun (kc, k) => if k.st = .placed ∧ k.cores.contains (lcoreOf w pcn) then some kc else none

/-- A withholding reported to the fault queue of the core's partition, and as host event 0x12 (R14, R173). -/
def withheldEvent (e : Env) (w : W) (pcn detail : Nat) : W :=
  match rowPart w pcn with
  | some p => partEvent (reportEntries e w [p]) p 0 0x12 detail pcn
  | none => hostEvent w 0 0 0 0x12 detail pcn

/-- An engine of a core whose state is corrupt: its operations end with ENGERR, it takes no other, its core is withheld. -/
def stopCoreEngine (e : Env) (w : W) (pcn eng : Nat) (f : CoreSt → CoreSt) : W :=
  let w := (opsOf w pcn eng).foldl (engErr e) w
  let w := updCore w pcn fun c => { f c with withheld := true }
  withheldEvent e (loseAll e w (coreConsorts w pcn)) pcn (0x23 + 2 ^ 10)

/-- CONTROL_STATE_ERROR: the unit found corrupt stops, hub firmware ends consorts and withholds what the table names. -/
def execControlStateError (u : CtlUnit) (s : State) :=
  event (fun e w =>
    match u with
    | .slot cid => match course? w cid with
      | none => w
      | some c => loseAll e (updCourse w cid fun c => { c with k := { c.k with stopped := true } }) [c.id.consort]
    | .barrier kc | .ticket kc => loseAll e (updConsort w kc fun k => { k with stuck := true }) [kc]
    | .chisel pcn q =>
      let w := (opsOf w pcn (q % 4)).foldl (engErr e) w
      let w := updQuad w (4 * pcn + q % 4) fun x => { x with chiselOk := false, withheld := true }
      withheldEvent e (loseAll e w (quadConsorts w pcn (q % 4))) pcn (0x23 + q % 4 * 2 ^ 8)
    | .copyEngine pcn => stopCoreEngine e w pcn 4 fun c => { c with copyOk := false }
    | .collPort pcn => stopCoreEngine e w pcn 5 fun c => { c with collOk := false }
    | .actUnit pcn => stopCoreEngine e w pcn 6 fun c => { c with actOk := false }) s

end Sys2Proof.Machine
end

