-- ==== Sys2Proof/Machine/EvHub.lean ====
section
/-! DEFINITION. What hub firmware and hub cores do: entries of the handler consort, hub services, the context port, HSIG and
dispenser resets (R73, R162, R167, R325 to R328, R333). -/

namespace Sys2Proof.Machine

/-! Entries of the handler consort (R167, R325). -/

/-- Whether an entry requests a hub service: TRAP 0x100 of a privileged handler course (R326). -/
def isService (w : W) (x : Pending) : Bool :=
  !x.served && x.e.cause == 0x08 && x.e.size == 0x100 && ((handlerCourse w x).map (·.id.priv)).getD false

/-- Pending entry i marked served: 0xFF in its CAUSE byte (R325). -/
def markServed (e : Env) (w : W) (p i : Nat) : W :=
  let f := (part w p).fq
  let w := updFq w p fun f => { f with pending := f.pending.mapIdx fun j x => if j = i then { x with served := true } else x }
  match devWrite e w 72 p 0 (part w p).rAsid (fqAddr f (fqIndex f i)) [0xFF] true with
  | .ok w => w
  | .error _ => w

/-- An entry served: taken out of the held faults, or marked in the ring, and resolved as a replay. `i` counts pending
entries, then held ones. -/
def serveEntry (e : Env) (w : W) (p i : Nat) (x : Pending) : W :=
  let n := (part w p).fq.pending.length
  let w := if i < n then markServed e w p i
    else updFq w p fun f => { f with held := f.held.eraseIdx (i - n) }
  replayEntry e w x

/-- The pending and held entries of a partition. -/
def allEntries (w : W) (p : Nat) : List Pending := (part w p).fq.pending ++ (part w p).fq.held

/-- HANDLER_ENTRY_SERVICE: hub firmware replays an entry of the handler consort that requests no service (R167, R325). -/
def execHandlerEntryService (part_ idx : Nat) (s : State) :=
  event (fun e w =>
    match (allEntries w part_)[idx]? with
    | none => w
    | some x =>
      if x.served ∨ (handlerCourse w x).isNone ∨ isService w x then w else serveEntry e w part_ idx x) s

/-! The context port (R58, R73, R195). -/

/-- A parked or halted course's frame brought up to date: dirty lines spilt, newer registers written (R73). -/
def upToDate (e : Env) (w : W) (cid : Nat) : W :=
  match course? w cid with
  | none => w
  | some c =>
    flushNewer e (spillLines e w cid ((c.v.lines.filter fun x => x.2.dirty && !x.2.pend).map (·.1))) cid

/-- Whether the registers show a byte of the control area newer than the frame does (R58). -/
def isNewer (c : Course) (o : Nat) : Bool := c.k.newer.any fun (off, n) => decide (off ≤ o) && decide (o < off + n)

/-- A byte of a course's frame as its own reads would see it, with its poison: an unwritten line reads zero, a cached line
its value, a newer register its value, the rest the frame's bytes `b` (R58, R60, R73). -/
def frameByte (c : Course) (b : List (Byte × Bool)) (off i : Nat) : Byte × Bool :=
  let a := off + i
  let r := a / 128
  if 0x2000 ≤ a then
    (if isNewer c (a - 0x2000) then ((ctlBytes c).getD (a - 0x2000) 0, poisSect c (a / 32)) else b.getD i (0, false))
  else if isZero c r then (0, false)
  else match tGet? c.v.lines r with
    | some l => (BitVec.ofNat 8 ((laneOf l.data (a % 128 / 4)).toNat / 2 ^ (8 * (a % 4))), l.poison)
    | none => b.getD i (0, false)

/-- n context-space bytes with their poison, page by page up to the first page that fails; whether all were read. -/
def ctxBytes (e : Env) (w : W) (p wd : Nat) : List (Nat × Nat) → List (Byte × Bool) × Bool
  | [] => ([], true)
  | (va, n) :: r =>
    match ctxPlaces e w 72 p wd va n .read with
    | .error _ => ([], false)
    | .ok ls =>
      let bs := ls.flatMap fun (l, a, n) => (rdCtxs e w wd a l n).zipIdx.map fun (b, i) => (b, readStop w (l.add i) == some 0x20)
      let (rest, ok) := ctxBytes e w p wd r
      (bs ++ rest, ok)

/-- Bytes of a course's frame from an offset, up to the first page that fails. -/
def frameBytes (e : Env) (w : W) (c : Course) (off n : Nat) : List (Byte × Bool) × Bool :=
  let (b, ok) := ctxBytes e w c.id.part (slotWorld c 0) (piecesOf (c.id.frame + off) n)
  ((List.range b.length).map (frameByte c b off), ok)

/-- Whether a requester may reach a course through the context port: anyone one of world 0, a privileged course one of its own
world (R195). `from_` is the requesting course, none for a host or hub access. -/
def portAllows (w : W) (c : Course) (from_ : Option Nat) : Bool :=
  slotWorld c 0 == 0 || match from_.bind (course? w) with
    | some r => r.id.priv && slotWorld r 0 == slotWorld c 0
    | none => false

/-- The bits of a byte of the control area that the context port writes: S and P registers, Q0 to Q6, LPC but its two low bits, D,
the RW fields of A and TL handles, and FLAGS. A write of any other bit is ignored: it is constant, reserved, RO, or written only by
formation, the activation unit or a privileged MTSR (R2, R3, R43, R46, R48, R49, R51, R52, R58, R59). -/
def portMask (o : Nat) : Byte :=
  if o < 0x11C then 0xFF
  else if o = 0x120 then 0x7F
  else if 0x180 ≤ o ∧ o < 0x200 then (if o % 4 = 0 then 0xFC else 0xFF)
  else if 0x240 ≤ o ∧ o < 0x440 then 0xFF
  else if 0x440 ≤ o ∧ o < 0x540 then (if o % 16 < 7 then 0xFF else if o % 16 = 7 then 0x03 else 0)
  else if 0x540 ≤ o ∧ o < 0x560 then (if o % 8 = 0 then 0xFF else if o % 8 = 1 then 0x07 else 0)
  else if 0x560 ≤ o ∧ o < 0x760 then (if (o - 0x560) % 64 = 3 then 0x1F else 0)
  else 0

/-- Bytes written over the control area's bytes from an offset, where the port writes. -/
def portBytes (old : List Byte) (o : Nat) (bs : List Byte) : List Byte :=
  bs.mapIdx fun i b => (b &&& portMask (o + i)) ||| (old.getD (o + i) 0 &&& ~~~portMask (o + i))

/-- A line that the context port writes in part: its cached copy is gone; one never written becomes a written line of zeros, which
the frame's ZMASK then shows (R41, R73). -/
def portLine (e : Env) (w : W) (cid r : Nat) : W :=
  match course? w cid with
  | none => w
  | some c =>
    if isZero c r then
      match ctxWrite e w 72 c.id.part (slotWorld c 0) (c.id.frame + 128 * r) (List.replicate 128 0) [] with
      | .error _ => w
      | .ok w => updCourse w cid fun c => markNewer { c with v := { c.v with zmask := bvSet c.v.zmask r 1 0 } } 0x230 8
    else
      let w := spillLines e w cid [r]
      updCourse w cid fun c => dropLine c r

/-- Bytes of a list replaced from an offset. -/
def patchAt (b : List Byte) (off : Nat) (bs : List Byte) : List Byte := b.take off ++ bs ++ b.drop (off + bs.length)

/-- The lines that a range of the frame meets. -/
def linesOf (off n : Nat) : List Nat :=
  if off < 0x2000 then (List.range ((off + n + 127) / 128 - off / 128)).map (off / 128 + ·) else []

/-- Bytes with their poison written into a parked course's frame within one page: cached copies of the lines leave the cache first,
registers follow the control area (R73, R171); the cause of a failing page else. -/
def portWrite (e : Env) (w : W) (cid off : Nat) (bs : List (Byte × Bool)) : Except Nat W :=
  match course? w cid with
  | none => .ok w
  | some c =>
    match ctxPlaces e w 72 c.id.part (slotWorld c 0) (c.id.frame + off) bs.length .write with
    | .error (_, x) => .error x
    | .ok ls =>
      let w := flushNewer e ((linesOf off bs.length).foldl (fun w r => portLine e w cid r) w) cid
      let data := bs.map (·.1)
      let data := if off < 0x2000 then data else portBytes (ctlBytes c) (off - 0x2000) data
      match ctxWrite e w 72 c.id.part (slotWorld c 0) (c.id.frame + off) data [] with
      | .error (_, x) => .error x
      | .ok w =>
        let w := (((placeKeys ls).zip (bs.map (·.2))).filter (·.2)).foldl (fun w x => poisonAt w x.1) w
        .ok (if off < 0x2000 then w
          else
            let bad := ctlPois e w c
            updCourse w cid fun c => ctlLoad (patchAt (ctlBytes c) (off - 0x2000) data) { c with v := { c.v with pois := bad } })

/-- CONTEXT_PORT_READ: bytes of a parked or halted course's frame; refused for a resident course or another confidential
world (R73, R195). -/
def execContextPortRead (from_ : Option Nat) (cid off len : Nat) (s : State) :=
  event (fun e w =>
    match course? w cid with
    | none => reply w .error
    | some c =>
      if c.k.at_ = .resident ∨ !portAllows w c from_ then reply w .refused
      else if 0x3000 < off + len then reply w .error
      else
        let w := upToDate e w cid
        let (b, ok) := frameBytes e w ((course? w cid).getD c) off len
        if !ok then reply w .error
        else if b.any (·.2) then reply w .poison else reply w (.data (b.map (·.1)))) s

/-- The pieces of bytes cut at page boundaries of a range from an address. -/
def cutPages {α : Type} (va : Nat) (bs : List α) : List (Nat × List α) :=
  (piecesOf va bs.length).map fun (a, n) => (a - va, (bs.drop (a - va)).take n)

/-- Pieces written through the context port in order; the first failing page stops. The bytes written and whether all were. -/
def portWrites (e : Env) (cid off : Nat) : List (Nat × List (Byte × Bool)) → Nat → W → W × Nat × Bool
  | [], n, w => (w, n, true)
  | (d, bs) :: r, n, w => match portWrite e w cid (off + d) bs with
    | .ok w => portWrites e cid off r (n + bs.length) w
    | .error _ => (w, n, false)

/-- CONTEXT_PORT_WRITE: bytes of a parked or halted course's frame written (R73, R195); what the port does not write is ignored. -/
def execContextPortWrite (from_ : Option Nat) (cid off : Nat) (bytes : List Byte) (s : State) :=
  event (fun e w =>
    match course? w cid with
    | none => reply w .error
    | some c =>
      if c.k.at_ = .resident ∨ !portAllows w c from_ then reply w .refused
      else if 0x3000 < off + bytes.length then reply w .error
      else
        let (w, _, ok) := portWrites e cid off (cutPages (c.id.frame + off) (bytes.map fun b => (b, false))) 0 w
        reply w (if ok then .done else .error)) s

/-! Hub services (R326, R327). -/

/-- A request block's fields (R327). -/
structure SvcReq where
  kind : Nat
  coreN : Nat
  cid : Nat
  off : Nat
  len : Nat
  dest : Nat
  reserved : Bool
  deriving DecidableEq, Repr

/-- The fields of a block's 32 bytes. -/
def parseSvc (b : List Byte) : SvcReq :=
  ⟨sub b 0 1, sub b 1 1, sub b 4 4, sub b 8 4, sub b 12 4, sub b 16 8, sub b 2 2 != 0 || sub b 26 2 != 0⟩

/-- What a service's source comes to: a status and cause that end it, or bytes with their poison and whether all were read. -/
inductive SvcSrc where
  | stop (status cause : Nat)
  | bytes (l : List (Byte × Bool)) (ok : Bool)
  | wait
  deriving DecidableEq, Repr

/-- The bytes of a consort's scratch window on one core, cut at 16 KiB blocks: in place, where an absent core gives poison, from the
save area once claimed, or zeros where a claim dropped the block (R70, R71, R82, R327). -/
def windowBytes (e : Env) (w : W) (kc : Nat) (k : Consort) (cc : Nat) : Nat → Nat → Nat → List (Byte × Bool) × Bool
  | 0, _, _ => ([], true)
  | f + 1, off, n =>
    if n = 0 then ([], true)
    else
      let m := min n (16384 - off % 16384)
      let pcn := consortPcn w k cc
      let p := nth k.pw cc 0 + off
      let u := Unit70.scratch pcn (blockAt w pcn k.world p)
      let (b, ok) :=
        if inPlace w kc u then
          let a := scrKey w pcn k.world p
          let gone := pcnAbsent w pcn || pcnMuted w pcn
          ((List.range m).map fun i => if gone then (0, true) else (rdB e w (a + i), isPois w (a + i)), true)
        else if k.away.contains u then ctxBytes e w k.part k.world (piecesOf (k.csave + cc * k.win + off) m)
        else (List.replicate m (0, false), true)
      if !ok then (b, false)
      else
        let (r, ok) := windowBytes e w kc k cc f (off + m) (n - m)
        (b ++ r, ok)

/-- Whether copies, gathers and collectives of a consort still move (R327, KIND 3). -/
def stillMoving (w : W) (kc : Nat) : Bool :=
  w.ops.any fun (_, o) => o.consort == kc && (o.kind.isCopy || o.kind == .coll) && o.faulted == []

/-- ISSUED and DONE of a consort's counters on every core (R327, KIND 3). -/
def drainBytes (w : W) (k : Consort) : List Byte :=
  k.cores.flatMap fun l => (List.range k.tlCnt).flatMap fun i =>
    let t := tlc w (pcnOf w l) (k.tlFirst + i)
    leBytes 4 t.issued.toNat ++ leBytes 4 t.done.toNat

/-- The bytes that a hub service may write into a frame (R327, KIND 4). -/
def svcFixed (off n : Nat) : Bool :=
  let meets := fun lo hi => decide (off < hi) && decide (lo < off + n)
  meets 0x2121 0x2138 || meets 0x2200 0x2238 || meets 0x2560 0x3000

/-- The checks before a service's source is read: status 1 for a reserved field, 2 for no course, 4 for another confidential
world, 5 for a resident course, 1 for a limit (R327). -/
def svcCheck (w : W) (c : Course) (q : SvcReq) : Option Nat :=
  if q.reserved ∨ 4 < q.kind ∨ (q.kind ≠ 1 ∧ q.coreN ≠ 0) then some 1
  else match courseIn w c.id.part q.cid with
    | none => some 2
    | some t =>
      match consort? w t.id.consort with
      | none => some 2
      | some k =>
        if !portAllows w t (some c.id.cid) then some 4
        else if q.kind ≠ 3 ∧ t.k.at_ = .resident then some 5
        else
          let ok := match q.kind with
            | 0 => decide (q.off + q.len ≤ 0x3000)
            | 1 => decide (q.coreN < k.cores.length) && decide (q.off + q.len ≤ k.win)
            | 2 => decide (q.off + q.len ≤ saveBytes k.cores.length k.win k.accN)
            | 3 => q.off == 0 && q.len == 8 * k.tlCnt * k.cores.length
            | _ => decide (q.off + q.len ≤ 0x3000) && q.off % 4 == 0 && q.len % 4 == 0 && !svcFixed q.off q.len
          if ok then none else some 1

/-- A service's source bytes (R327). -/
def svcSource (e : Env) (w : W) (c : Course) (q : SvcReq) : SvcSrc :=
  match svcCheck w c q with
  | some st => .stop st 0
  | none =>
    match course? w q.cid with
    | none => .stop 2 0
    | some t =>
      match consort? w t.id.consort with
      | none => .stop 2 0
      | some k =>
        match q.kind with
        | 0 => let (b, ok) := frameBytes e w t q.off q.len; .bytes b ok
        | 1 => let (b, ok) := windowBytes e w t.id.consort k q.coreN 130 q.off q.len; .bytes b ok
        | 2 => let (b, ok) := ctxBytes e w k.part k.world (piecesOf (k.csave + q.off) q.len); .bytes b ok
        | _ => if stillMoving w t.id.consort then .wait else .bytes ((drainBytes w k).map fun b => (b, false)) true

/-- The place of an address under the ASID of a requester's slot 0. -/
def svcPlace (e : Env) (w : W) (c : Course) (nd : Need) (va : Nat) : Xr Loc :=
  translateOwn e w c.id.part (slotWorld c 0) (slotAsid c 0) (va % 2 ^ 64) nd c.id.priv

/-- Bytes written to a destination in ascending order, one page at a time, with their poison: the state, the bytes written
and the cause of the page that failed (R327). -/
def svcCopy (e : Env) (c : Course) (b : List (Byte × Bool)) (dest : Nat) : List (Nat × Nat) → Nat → W → W × Nat × Option Nat
  | [], n, w => (w, n, none)
  | (va, m) :: r, n, w =>
    match ownPlaces w 72 c.id.part (svcPlace e w c .write) va m with
    | .error (_, x) => (w, n, some x)
    | .ok ls =>
      let now := (b.drop (va - dest)).take m
      let keys := placeKeys ls
      let w := wrPlaces e (afterScrub e w ls) (slotWorld c 0) ls (now.map (·.1))
      svcCopy e c b dest r (n + m) (settlePoison w (((keys.zip (now.map (·.2))).filter (·.2)).map (·.1)) keys)

/-- KIND 4: bytes read from the source in ascending order, one page at a time, and written into the frame, poisoned ones poisoned: the
state, the bytes written, and the status and cause that end it early (R327). -/
def svcInto (e : Env) (c : Course) (q : SvcReq) : List (Nat × Nat) → Nat → W → W × Nat × Option (Nat × Nat)
  | [], n, w => (w, n, none)
  | (va, m) :: r, n, w =>
    match ownPlaces w 72 c.id.part (svcPlace e w c .read) va m with
    | .error (_, x) => (w, n, some (3, x))
    | .ok ls =>
      let bs := (rdPlaces e w (slotWorld c 0) ls).zip ((placeKeys ls).map (isPois w))
      let off := q.off + (va - q.dest)
      match course? w q.cid with
      | none => (w, n, some (2, 0))
      | some t =>
        let (w, k, ok) := portWrites e q.cid off (cutPages (t.id.frame + off) bs) 0 w
        if ok then svcInto e c q r (n + m) w else (w, n + k, some (6, 0x17))

/-- STATUS, CAUSE and DONE written into the request block (R327). -/
def svcAnswer (e : Env) (w : W) (c : Course) (va status cause n : Nat) : W :=
  let put := fun w a bs => match devWrite e w 72 c.id.part (slotWorld c 0) (slotAsid c 0) a bs c.id.priv with
    | .ok w => w
    | .error _ => w
  put (put w (va + 24) (leBytes 1 status ++ leBytes 1 cause)) (va + 28) (leBytes 4 n)

/-- The service performed: its status, cause and byte count; none while a drain waits. -/
def svcRun (e : Env) (w : W) (c : Course) (q : SvcReq) : Option (W × Nat × Nat × Nat) :=
  if q.kind = 4 then
    match svcCheck w c q with
    | some st => some (w, st, 0, 0)
    | none => match svcInto e c q (piecesOf q.dest q.len) 0 w with
      | (w, n, none) => some (w, 0, 0, n)
      | (w, n, some (st, x)) => some (w, st, x, n)
  else
    match svcSource e w c q with
    | .wait => none
    | .stop st x => some (w, st, x, 0)
    | .bytes b ok => match svcCopy e c b q.dest (piecesOf q.dest b.length) 0 w with
      | (w, n, some x) => some (w, 3, x, n)
      | (w, n, none) => if ok then some (w, 0, 0, n) else some (w, 6, 0x17, n)

/-- The cause for which a request block is unusable, or its bytes (R326). -/
def svcBlock (e : Env) (w : W) (c : Course) (va : Nat) : Except Nat (List Byte) :=
  if va % 32 ≠ 0 then .error 0x03
  else match devRead e w 72 c.id.part (slotWorld c 0) (slotAsid c 0) va 32 c.id.priv with
    | .error x => .error x
    | .ok b => match devWrite e w 72 c.id.part (slotWorld c 0) (slotAsid c 0) va b c.id.priv with
      | .error x => .error x
      | .ok _ => .ok b

/-- HUB_SERVICE: the entry of a course's service trap, the block its S2:S3 names, the service of the kinds given, and the
course's resumption (R326). -/
def hubService (e : Env) (w : W) (cid : Nat) (kinds : Nat → Bool) : W :=
  match course? w cid with
  | none => w
  | some c =>
    let p := c.id.part
    match (allEntries w p).findIdx? fun x => x.e.cid == cid && isService w x with
    | none => w
    | some i =>
      match (allEntries w p)[i]? with
      | none => w
      | some x =>
        let va := getS2 c 2
        match svcBlock e w c va with
        | .error cause => serveEntry e (partEvent w p (slotWorld c 0) 0x15 cause va) p i x
        | .ok b =>
          let q := parseSvc b
          if !kinds q.kind then w
          else match svcRun e w c q with
            | none => w
            | some (w, st, cause, n) => serveEntry e (svcAnswer e w c va st cause n) p i x

/-- HUB_SERVICE_FRAME: KIND 0, and the reserved kinds, which end with STATUS 1. -/
def execHubServiceFrame (cid : Nat) (s : State) := event (fun e w => hubService e w cid fun k => k == 0 || decide (4 < k)) s
def execHubServiceScratch (cid : Nat) (s : State) := event (fun e w => hubService e w cid (· == 1)) s
def execHubServiceSaveArea (cid : Nat) (s : State) := event (fun e w => hubService e w cid (· == 2)) s
def execHubServiceDrain (cid : Nat) (s : State) := event (fun e w => hubService e w cid (· == 3)) s
def execHubServiceFrameWrite (cid : Nat) (s : State) := event (fun e w => hubService e w cid (· == 4)) s

/-! HSIG (R333, R334). -/

/-- The operation of a signal: a TLSIG of a consort's counter. -/
def sigOp (w : W) (c : Course) (pcn i : Nat) (n : Word) : EngOp :=
  { kind := .tlsig, cid := c.id.cid, consort := c.id.consort, part := c.id.part, launch := c.id.launch, pcn := pcn, quad := 0,
    tlPcn := pcn, tlIdx := i, num := n, ah := 0, region := 0, d1 := 0, d2 := 0, b1 := 0, b2 := 0, dnums := [], comp := 0,
    va := 0, va2 := 0, slot := 0, asid := slotAsid c 0, priv := c.id.priv, world := slotWorld c 0, pc := 0, step := 0,
    total := 0, units := [], code := 0, skip := 0, stopped := false, tmo := false, tmoDone := false, tmoWalk := false,
    mixed := c.id.mixed, desc := [], mtab := [], faulted := [], round := 0, order := w.nextOrder }

/-- The partitions that hub firmware lets a hub core serve. -/
def servesOf (w : W) (hc : Nat) : List Nat := (nth w.hub.hubCores hc ⟨[], 0⟩).serves

/-- Whether a signal of a hub core is dropped, else its consort's course, core and counter (R333). -/
def sigTarget (w : W) (hc v : Nat) : Option (Course × Nat × Nat) :=
  let p := bitsAt v 40 4
  if !(servesOf w hc).contains p ∨ bitsAt v 44 20 ≠ 0 then none
  else match courseIn w p (bitsAt v 0 32) with
    | none => none
    | some c => match consort? w c.id.consort with
      | none => none
      | some k =>
        if k.cores.length ≤ bitsAt v 38 2 ∨ k.tlCnt ≤ bitsAt v 32 6 then none
        else some (c, consortPcn w k (bitsAt v 38 2), k.tlFirst + bitsAt v 32 6)

/-- The first accepted signal that can be taken, by its place among them. A full counter holds a signal, and with it the later
signals of its hub core and the later signals to its counter (R333, R335). -/
def firstSignal (w : W) : List (Nat × BitVec 64) → List Nat → List (Nat × Nat) → Nat → Option Nat
  | [], _, _, _ => none
  | (hc, v) :: r, cores, full, i =>
    match sigTarget w hc v.toNat with
    | none => if cores.contains hc then firstSignal w r cores full (i + 1) else some i
    | some (_, pcn, n) =>
      if cores.contains hc ∨ full.contains (pcn, n) ∨ (tlc w pcn n).isFull then
        firstSignal w r (hc :: cores) ((pcn, n) :: full) (i + 1)
      else some i

/-- The accepted signal that is taken next. -/
def nextSignal (w : W) : Option Nat := firstSignal w w.hub.signals [] [] 0

/-- An accepted signal taken: it takes the next number of its counter, or is dropped and counted (R333). -/
def takeSignal (e : Env) (w : W) (i : Nat) : W :=
  match w.hub.signals[i]? with
  | none => w
  | some (hc, v) =>
    let w := { w with hub := { w.hub with signals := w.hub.signals.eraseIdx i } }
    match sigTarget w hc v.toNat with
    | none => bumpDev w 5 1
    | some (c, pcn, t) =>
      let (n, x) := (tlc w pcn t).take
      handOver e (updTlc w pcn t fun _ => x) (sigOp w c pcn t n)

/-- HSIG_SIGNAL: a hub core's store to HSIG completes, its reserved bits ignored by the register, and the hub accepts its signal; it is
taken at once unless a counter with 256 numbers outstanding holds it, or one before it, in the hub (R3, R333). -/
def execHsigSignal (hc : HubAgent) (v : BitVec 64) (s : State) :=
  event (fun e w =>
    let h := w.hub
    let w := { w with hub := { h with
      hubCores := setNth 8 h.hubCores hc.core.val ⟨hc.serves, v &&& BitVec.ofNat 64 (2 ^ 44 - 1)⟩ ⟨[], 0⟩
      signals := h.signals ++ [(hc.core.val, v)] } }
    match nextSignal w with
    | some i => takeSignal e w i
    | none => w) s

/-! Dispensers (R162). -/

/-- DISPENSER_RESET: refused while courses sleep on it; a muted slice's dispensers are lost. -/
def execDispenserReset (part_ d : Nat) (s : State) :=
  event (fun _ w =>
    let sl := d / 256
    if !(part w part_).slices.getLsbD sl ∨ sliceMuted w sl then w
    else if sleepersOf w d ≠ [] then reply w .refused
    else reply (updDisp w d fun _ => Disp.init) .done) s

end Sys2Proof.Machine
end

