-- ==== Sys2Proof/Machine/EvTile.lean ====
section
/-! DEFINITION. Tiles: heartbeats, accusations, muting, self-tests, appeals and retunes; supply, power and temperature (R17,
R163, R180 to R188, R200). -/

namespace Sys2Proof.Machine

/-! Heartbeat-class flits (R180). -/

/-- One bit of the CRC-16 of polynomial 0x1021. -/
def crcBit (c : Nat) (b : Bool) : Nat :=
  let t := bitAt c 15 != b
  let c := c * 2 % 2 ^ 16
  if t then (BitVec.ofNat 16 c ^^^ 0x1021).toNat else c

/-- The CRC-16 of the n low bits of a number, the highest first, from 0xFFFF. -/
def crcOf (v n : Nat) : Nat := (List.range n).foldl (fun c i => crcBit c (bitAt v (n - 1 - i))) 0xFFFF

/-- A flit from its lower 112 bits. -/
def flitOf (v : Nat) : BitVec 128 := BitVec.ofNat 128 (v % 2 ^ 112 + crcOf (v % 2 ^ 112) 112 * 2 ^ 112)

/-- Whether a flit's CHECK is good and its KIND is not reserved. -/
def flitGood (f : BitVec 128) : Bool := bvF f 112 16 == crcOf (bvF f 0 112) 112 && decide (bvF f 96 4 ≤ 6)

def flitKind (f : BitVec 128) : Nat := bvF f 96 4

/-- The tile that SROW and SCOL name. -/
def flitSuspect (f : BitVec 128) : Nat := tileAt (bvF f 32 3) (bvF f 36 4)

/-- The tile that AROW and ACOL name. -/
def flitSender (f : BitVec 128) : Nat := tileAt (bvF f 4 3) (bvF f 8 4)

/-! Tile words and neighbour records (R163). -/

/-- STATE of a tile. -/
def tileState (w : W) (t : Nat) : Nat := bvF (tile w t).word 16 4

def setTileState (w : W) (t v : Nat) : W := updTile w t fun x => { x with word := bvSet x.word 16 4 v }

/-- Whether a tile works or appeals, and so sends heartbeats (R180). -/
def tileSends (w : W) (t : Nat) : Bool := tileState w t == 0 || tileState w t == 3

/-- Whether a tile's neighbour records change: those of a muted tile keep their values until it is retuned (R163). -/
def recordsLive (w : W) (t : Nat) : Bool := tileState w t == 0

/-- The record of a direction. -/
def nbRec (w : W) (t d : Nat) : BitVec 32 := nth (tile w t).nb d 0

/-- A record's field written. -/
def setNb (w : W) (t d lo n v : Nat) : W := updTile w t fun x => { x with nb := setNth 4 x.nb d (bvSet (nth x.nb d 0) lo n v) 0 }

/-- The bit of a side: N, E, S, W at bits 3 to 0. -/
def sideBit (d : Nat) : Nat := 2 ^ (3 - d % 4)

/-- The number of sides in a set. -/
def sideCount (m : Nat) : Nat := ((List.range 4).filter fun i => bitAt m i).length

/-- Sides joined. -/
def sideOr (m d : Nat) : Nat := setBits m (3 - d % 4) 1 1

/-- The votes a suspect needs (R181). -/
def need (t : Nat) : Nat := if neighbours t = 4 then 3 else 2

/-- The direction from a tile to a neighbour. -/
def dirTo (t n : Nat) : Option Nat := (List.range 4).find? fun d => neighbour t d == some n

/-- Whether a tile is muted or absent, so that a rotation stops there (R182). -/
def tileGone (w : W) (t : Nat) : Bool := tileState w t != 0 || (tileIsCore t && pcnAbsent w (pcnOfTile t))

/-- Events that follow, at the agenda's end. -/
def later (w : W) (l : List Instr) : W := { w with agenda := w.agenda ++ l }

/-- The bits of a flit of a tile about a suspect. -/
def flitAbout (kind suspect sender side : Nat) : BitVec 128 :=
  flitOf (kind * 2 ^ 96 + tileGy suspect * 2 ^ 36 + tileX suspect * 2 ^ 32 + tileGy sender * 2 ^ 8 + tileX sender * 2 ^ 4 + side)

/-- The next neighbour of a suspect in a rotation from one of its sides; none at the mesh edge or at a diagonal tile that is
muted or absent (R182). -/
def nextRound (w : W) (suspect side : Nat) (cw : Bool) : Option Nat :=
  let d := if cw then (side + 1) % 4 else (side + 3) % 4
  match neighbour suspect side, neighbour suspect d with
  | some a, some n =>
    match neighbour a d with
    | some g => if tileGone w g then none else some n
    | none => none
  | _, _ => none

/-- An accusation or vote handed to the next neighbour of a rotation. -/
def passOn (w : W) (suspect side : Nat) (cw vote : Bool) (f : BitVec 128) : W :=
  match nextRound w suspect side cw with
  | none => w
  | some n => later w [if vote then .retuneVoteReceive (Fin.ofNat 96 n) cw f else .accusationReceive (Fin.ofNat 96 n) cw f]

/-- An accusation (KIND 1) or retune vote (KIND 4) of a tile, sent in both rotations. -/
def sendRound (w : W) (t d : Nat) (vote : Bool) : W :=
  match neighbour t d with
  | none => w
  | some s =>
    let side := (d + 2) % 4
    let f := flitAbout (if vote then 4 else 1) s t (sideBit side)
    passOn (passOn w s side true vote f) s side false vote f

/-! Heartbeats (R180, R181). -/

/-- HEARTBEAT_SEND: the next number goes to every present neighbour, in states 0 and 3. -/
def execHeartbeatSend (tile_ : Fin 96) (s : State) :=
  event (fun _ w =>
    let t := tile_.val
    if !tileSends w t then w
    else
      let w := updTile w t fun x => { x with word := bvSet x.word 0 16 (bvF x.word 0 16 + 1) }
      let x := tile w t
      let accuse := (List.range 4).foldl (fun m d => if bitAt (nbRec w t d).toNat 11 then sideOr m d else m) 0
      let f := flitOf (bvF x.word 32 32 * 2 ^ 64 + bvF x.word 0 16 * 2 ^ 48 + accuse * 2 ^ 44 + tileGy t * 2 ^ 8 + tileX t * 2 ^ 4)
      later w ((List.range 4).filterMap fun d => (neighbour t d).map fun n =>
        .heartbeatReceive (Fin.ofNat 96 n) (Fin.ofNat 4 ((d + 2) % 4)) f)) s

/-- HEARTBEAT_RECEIVE: a flit from a neighbour enters its record: the position it names, whatever its KIND (R181), one check bit for
a heartbeat, good or bad, and its number (R183). -/
def execHeartbeatReceive (tile_ : Fin 96) (dir : Fin 4) (flit : BitVec 128) (s : State) :=
  event (fun _ w =>
    let t := tile_.val
    let d := dir.val
    match neighbour t d with
    | none => w
    | some n =>
      if !recordsLive w t then w
      else
        let good := flitGood flit
        let w := if good ∧ flitSender flit ≠ n then
            updTile w t fun x => { x with badPos := setNth 4 x.badPos d true false } else w
        if good ∧ flitKind flit ≠ 0 then w
        else
          let r := nbRec w t d
          let chk := bvF r 3 8 / 2 + (if good then 0 else 128)
          let w := setNb w t d 3 8 chk
          updTile w t fun x => { x with
            beats := setNth 4 x.beats d (nth x.beats d 0 + 1) 0
            lastSeq := setNth 4 x.lastSeq d (BitVec.ofNat 16 (bvF flit 48 16)) 0 }) s

/-- A neighbour muted by a tile: notice, gates, map and report, in this order (R183). -/
def muteNeighbour (w : W) (t d n : Nat) : W :=
  let w := later w [.muteNoticeReceive (Fin.ofNat 96 n)]
  let w := setNb (setNb w t d 19 2 3) t d 11 8 0
  later w (((List.range 96).map fun r => .muteMapUpdate (Fin.ofNat 96 r) (Fin.ofNat 96 n)) ++
    [.muteReport (Fin.ofNat 96 n) (nth (tile w t).lastSeq d 0)])

/-- A neighbour retuned by a tile: notice, record, routers and report (R188). -/
def retuneNeighbour (w : W) (t d n : Nat) : W :=
  let last := nth (tile w t).lastSeq d 0
  let w := setNb (setNb (setNb w t d 19 2 0) t d 22 6 0) t d 0 11 0
  let w := updTile w t fun x => { x with
    votes := setNth 4 x.votes d 0 0
    voteAge := setNth 4 x.voteAge d 0 0
    watch := setNth 4 x.watch d false false }
  later w (.retuneNoticeReceive (Fin.ofNat 96 n) (Fin.ofNat 96 n) ::
    (((List.range 96).filter (· != n)).map fun r => .retuneNoticeReceive (Fin.ofNat 96 r) (Fin.ofNat 96 n)) ++
    [.retuneReport (Fin.ofNat 96 n) last])

/-- The watch of an appealing neighbour at a period's end, and the votes for it (R188). The manual does not say whether a record that still
watches with CLEAN 16 votes once more when its vote set has expired: the model's choice is that it does (log entry 26). -/
def watchPeriod (w : W) (t d n : Nat) : W :=
  let x := tile w t
  let r := nth x.nb d 0
  let clean := nth x.beats d 0 == 1 && !(nth x.badPos d false) && !(bitAt r.toNat 10)
  let w :=
    if !(nth x.watch d false) then w
    else if clean then setNb w t d 23 5 (min 16 (bvF r 23 5 + 1))
    else updTile (setNb w t d 23 5 0) t fun x => { x with watch := setNth 4 x.watch d false false }
  let held := nth x.votes d 0
  let w := if held = 0 then w else updTile w t fun x => { x with voteAge := setNth 4 x.voteAge d (nth x.voteAge d 0 + 1) 0 }
  let own := sideBit ((d + 2) % 4)
  let casts := bvF (nbRec w t d) 23 5 == 16 && nth (tile w t).watch d false && held &&& own == 0
  let w := if casts then
      sendRound (updTile w t fun x => { x with
        votes := setNth 4 x.votes d (sideOr held ((d + 2) % 4)) 0
        voteAge := if held = 0 then setNth 4 x.voteAge d 0 0 else x.voteAge }) t d true
    else w
  let y := tile w t
  if bitAt (nbRec w t d).toNat 22 ∧ need n ≤ sideCount (nth y.votes d 0) then retuneNeighbour w t d n
  else if 4 < nth y.voteAge d 0 then
    updTile w t fun x => { x with votes := setNth 4 x.votes d 0 0, voteAge := setNth 4 x.voteAge d 0 0 }
  else w

/-- The tests of a neighbour that is not muted, at a period's end (R181). -/
def testPeriod (w : W) (t d n : Nat) : W :=
  let x := tile w t
  let r := nth x.nb d 0
  let beats := nth x.beats d 0
  let miss := if beats = 0 then min 7 (bvF r 0 3 + 1) else 0
  let bad := decide (4 ≤ miss) || decide (2 < beats) ||
    decide (3 ≤ ((List.range 8).filter fun i => bitAt r.toNat (3 + i)).length) || nth x.badPos d false
  let acc := bvF r 12 4
  let win := if acc = 0 then bvF r 16 3 else bvF r 16 3 + 1
  let accuses := bad && !(bitAt r.toNat 11)
  let win := if accuses ∧ acc = 0 then 0 else win
  let acc := if accuses then sideOr acc ((d + 2) % 4) else acc
  let w := setNb (setNb (setNb w t d 0 3 miss) t d 12 4 acc) t d 16 3 (min win 7)
  let w := if accuses then sendRound (setNb w t d 11 1 1) t d false else w
  if need n ≤ sideCount acc then muteNeighbour w t d n
  else if 4 < win then setNb w t d 11 8 0
  else w

/-- A period of the neighbour records (R181, R188). -/
def recordPeriod (w : W) (t : Nat) : W :=
  (List.range 4).foldl (fun w d =>
    match neighbour t d with
    | none => w
    | some n =>
      let w := watchPeriod w t d n
      if bitAt (nbRec w t d).toNat 20 then w else testPeriod w t d n) w

/-- PERIOD_BOUNDARY: a tile in state 0 updates every neighbour record; a muted tile's records keep their values. Every 1,000 periods
an appealing tile appeals again, which APPEAL_SEND bounds by APPEALS (R187). -/
def execPeriodBoundary (tile_ : Fin 96) (s : State) :=
  event (fun _ w =>
    let t := tile_.val
    if !tileSends w t then w
    else
      let w := if recordsLive w t then recordPeriod w t else w
      let w := updTile w t fun x => { x with
        beats := [0, 0, 0, 0], badPos := [false, false, false, false], periods := x.periods + 1 }
      if tileState w t = 3 ∧ (tile w t).periods % 1000 = 0 then later w [.appealSend tile_] else w) s

/-! Accusations and votes (R182). -/

/-- The side that an accusation or vote names. -/
def flitSide (f : BitVec 128) : Option Nat := (List.range 4).find? fun d => bvF f 0 4 == sideBit d

/-- ACCUSATION_RECEIVE: a neighbour of the suspect records a side it did not hold and forwards it once, whether or not its gate is
closed (R182). -/
def execAccusationReceive (tile_ : Fin 96) (cw : Bool) (flit : BitVec 128) (s : State) :=
  event (fun _ w =>
    let t := tile_.val
    let n := flitSuspect flit
    match dirTo t n, flitSide flit with
    | some d, some side =>
      let r := nbRec w t d
      if !flitGood flit ∨ flitKind flit ≠ 1 ∨ !recordsLive w t ∨ neighbour n side ≠ some (flitSender flit) ∨
          bitAt (bvF r 12 4) (3 - side) then w
      else
        let acc := bvF r 12 4
        let w := if acc = 0 then setNb w t d 16 3 0 else w
        passOn (setNb w t d 12 4 (sideOr acc side)) n ((d + 2) % 4) cw false flit
    | _, _ => w) s

/-- RETUNE_VOTE_RECEIVE: a neighbour records a vote in its vote set and forwards it once. -/
def execRetuneVoteReceive (tile_ : Fin 96) (cw : Bool) (flit : BitVec 128) (s : State) :=
  event (fun _ w =>
    let t := tile_.val
    let n := flitSuspect flit
    match dirTo t n, flitSide flit with
    | some d, some side =>
      let held := nth (tile w t).votes d 0
      if !flitGood flit ∨ flitKind flit ≠ 4 ∨ !recordsLive w t ∨ neighbour n side ≠ some (flitSender flit) ∨
          bitAt held (3 - side) then w
      else
        let w := updTile w t fun x => { x with
          votes := setNth 4 x.votes d (sideOr held side) 0
          voteAge := if held = 0 then setNth 4 x.voteAge d 0 0 else x.voteAge }
        passOn w n ((d + 2) % 4) cw true flit
    | _, _ => w) s

/-! Muted tiles (R183, R184, R187). -/

/-- MUTE_NOTICE_RECEIVE: the first notice mutes the tile, whose self-test starts at once. -/
def execMuteNoticeReceive (tile_ : Fin 96) (s : State) :=
  event (fun _ w =>
    if tileState w tile_.val ≠ 0 then w
    else updTile (setTileState w tile_.val 2) tile_.val fun x => { x with heard := [] }) s

/-- MUTE_MAP_UPDATE: a router records a muted tile. -/
def execMuteMapUpdate (router suspect : Fin 96) (s : State) :=
  event (fun _ w => updTile w router.val fun x => { x with map := bvSet x.map suspect.val 1 1 }) s

/-- MUTE_REPORT: hub firmware acts once per muted tile, on the first report. -/
def execMuteReport (suspect : Fin 96) (lastSeq : BitVec 16) (s : State) :=
  event (fun e w =>
    if w.hub.reported.contains suspect.val then w else hubMute e w suspect.val lastSeq.toNat) s

/-- What a core tile's self-test clears: scratch, accumulators and scale memory, with their poison, timeline counters and event
counters (R187). An engine that stands stopped and what firmware withholds for it stay so until ENGRST (R173): the manual does not say
what a self-test does to them, and this is the model's choice (log entry 26). -/
def clearCoreTile (w : W) (p : Nat) : W :=
  let w := cleanRange (wrClear w (keyScr p 0 0) (2 ^ 21)) (keyScr p 0 0) (2 ^ 21)
  let w := cleanRange (wrClear w (keyAcc p 0 0 0 0 0) (2 ^ 21)) (keyAcc p 0 0 0 0 0) (2 ^ 21)
  let w := cleanRange (wrClear w (keyScale p 0 0 0) (2 ^ 18)) (keyScale p 0 0 0) (2 ^ 18)
  updCore w p fun c => { c with tls := [], ev := [] }

/-- What a slice tile's self-test clears: dispensers and event counters (R187). The manual does not say what becomes of dirty data in its
home cache and of their poison: the model's choice is that device memory stays as it stood (log entry 26). -/
def clearSliceTile (w : W) (s : Nat) : W :=
  { w with
    disps := w.disps.filter fun x => x.1 / 256 != s
    hub := { w.hub with sliceEv := w.hub.sliceEv.filter fun x => x.1 / 16 != s } }

/-- The state of a tile that its self-test leaves: APPEALS, SEQ, the droop level and the router's map, which only mute-map flits and
retune notices change (R184); HEALTH tells the result and whether droop slowing goes on (R163, R180, R187). -/
def testedTile (x : Tile) (t : Nat) (pass : Bool) : Tile :=
  { Tile.initAt t with
    word := bvSet (bvSet x.word 32 32 (pass.toNat + 2 * (decide (x.droop < 8)).toNat)) 22 10 0
    map := x.map
    droop := x.droop
    sag := x.sag }

/-- What a tile's self-test clears. -/
def clearTile (w : W) (t : Nat) : W :=
  if tileIsCore t then clearCoreTile w (pcnOfTile t) else clearSliceTile w (sliceOfTile t)

/-- SELF_TEST_COMPLETE: the tile's state is cleared but for APPEALS and SEQ; it appeals, or stays muted. -/
def execSelfTestComplete (tile_ : Fin 96) (pass : Bool) (s : State) :=
  event (fun _ w =>
    let t := tile_.val
    if tileState w t ≠ 2 then w
    else
      let w := updTile (clearTile w t) t fun x => testedTile x t pass
      if pass ∧ bvF (tile w t).word 20 2 < 3 then later (setTileState w t 3) [.appealSend tile_] else setTileState w t 1) s

/-! Appeals and retunes (R187, R188). -/

/-- APPEAL_SEND: an appealing tile sends an appeal to every neighbour; hub firmware updates APPEALS in the table (R154). -/
def execAppealSend (tile_ : Fin 96) (s : State) :=
  event (fun _ w =>
    let t := tile_.val
    let n := bvF (tile w t).word 20 2
    if tileState w t ≠ 3 ∨ 3 ≤ n then w
    else
      let w := updTile w t fun x => { x with word := bvSet x.word 20 2 (n + 1) }
      let w := if tileIsCore t then setLpt w (pcnOfTile t) 24 8 (n + 1) else w
      later w ((List.range 4).filterMap fun d => (neighbour t d).map fun m =>
        .appealReceive (Fin.ofNat 96 m) (Fin.ofNat 4 ((d + 2) % 4)))) s

/-- APPEAL_RECEIVE: a record with APPEAL set starts its watch; another ignores the appeal. -/
def execAppealReceive (tile_ : Fin 96) (dir : Fin 4) (s : State) :=
  event (fun _ w =>
    let t := tile_.val
    let d := dir.val
    if !recordsLive w t ∨ !(bitAt (nbRec w t d).toNat 22) ∨ nth (tile w t).watch d false then w
    else updTile (setNb w t d 23 5 0) t fun x => { x with watch := setNth 4 x.watch d true false }) s

/-- The present neighbours of a tile that are not muted. -/
def soundNeighbours (w : W) (t : Nat) : Nat :=
  ((List.range 4).filter fun d => match neighbour t d with
    | some n => !tileGone w n
    | none => false).length

/-- RETUNE_NOTICE_RECEIVE: a router's map readmits the suspect; the suspect returns to normal once every present, unmuted
neighbour has sent it a notice. -/
def execRetuneNoticeReceive (tile_ suspect : Fin 96) (s : State) :=
  event (fun _ w =>
    let t := tile_.val
    let w := updTile w t fun x => { x with map := bvSet x.map suspect.val 1 0 }
    if tile_ ≠ suspect ∨ tileState w t ≠ 3 then w
    else
      let w := updTile w t fun x => { x with heard := x.heard.length :: x.heard }
      if soundNeighbours w t ≤ (tile w t).heard.length then
        updTile (setTileState w t 0) t fun x => { x with heard := [] }
      else w) s

/-- RETUNE_REPORT: hub firmware acts on the first report of a retuned tile. -/
def execRetuneReport (suspect : Fin 96) (lastSeq : BitVec 16) (s : State) :=
  event (fun e w =>
    if w.hub.reported.contains suspect.val then hubRetune e w suspect.val lastSeq.toNat else w) s

/-! Supply, power and temperature (R17, R200). -/

/-- A tile's droop slowing: eighths of 1.6 GHz, and HEALTH's bit. -/
def setDroop (w : W) (t n : Nat) (sag : Bool) : W :=
  updTile w t fun x => { x with droop := n, sag := sag, word := bvSet x.word 33 1 (decide (n < 8)).toNat }

/-- SUPPLY_DROOP: the supply falls below its threshold and the clock to 7/8. -/
def execSupplyDroop (tile_ : Fin 96) (s : State) :=
  event (fun _ w =>
    let w := if (tile w tile_.val).droop = 8 then bumpDev w 3 1 else w
    setDroop w tile_.val (min 7 (tile w tile_.val).droop) true) s

/-- DROOP_STEP: while the sag persists, a further eighth, down to 4/8. -/
def execDroopStep (tile_ : Fin 96) (s : State) :=
  event (fun _ w =>
    if (tile w tile_.val).sag then setDroop w tile_.val (max 4 ((tile w tile_.val).droop - 1)) true else w) s

/-- DROOP_RECOVERY: after 1 µs above the threshold the clock returns to 8/8. -/
def execDroopRecovery (tile_ : Fin 96) (s : State) := event (fun _ w => setDroop w tile_.val 8 false) s

/-- The clock ceiling in force, in eighths of 1.6 GHz (R200). -/
def clockCeiling (w : W) : Nat := if w.hub.hot then 4 else w.hub.ceiling

/-- A tile's arithmetic clock: the lower of the ceiling and its droop level (R200). -/
def tileClock (w : W) (t : Nat) : Nat := min (clockCeiling w) (tile w t).droop

/-- POWER_CHECK_TICK: once a millisecond the ceiling falls an eighth above PWRLIM, and rises one after 10 ms below 95 % of it. -/
def execPowerCheckTick (mW : Nat) (s : State) :=
  event (fun _ w =>
    let w := setDev w 2 mW
    let lim := (fn w 0).pwrlim * 1000
    let h := w.hub
    if lim < mW then { w with hub := { h with ceiling := max 4 (h.ceiling - 1), below := 0 } }
    else if mW * 100 < lim * 95 then
      if 9 ≤ h.below then { w with hub := { h with ceiling := min 8 (h.ceiling + 1), below := 0 } }
      else { w with hub := { h with below := h.below + 1 } }
    else { w with hub := { h with below := 0 } }) s

/-- THERMAL_TRIP: a die at 105 °C or more, in sixteenths of a degree, sets the ceiling to 4/8. -/
def execThermalTrip (die : Fin 2) (t16 : Nat) (s : State) :=
  event (fun _ w =>
    let w := setDev w die.val t16
    if 105 * 16 ≤ t16 then { w with hub := { w.hub with hot := true } } else w) s

/-- THERMAL_CEILING_RELEASE: both dies below 100 °C lift it. -/
def execThermalCeilingRelease (t0 t1 : Nat) (s : State) :=
  event (fun _ w =>
    let w := setDev (setDev w 0 t0) 1 t1
    if t0 < 100 * 16 ∧ t1 < 100 * 16 then { w with hub := { w.hub with hot := false } } else w) s

end Sys2Proof.Machine
end

