-- ==== Sys2Proof/Machine/EvTime.lean ====
section
/-! DEFINITION. Deadlines, scheduling slices and request timeouts (R142, R146, R168, R283, R285, R329). -/

namespace Sys2Proof.Machine

/-- A deadline expired: a WAITTL.DL or BARDL writes 0 to its Q, and the record is decremented (R142, R283, R285). -/
def expire (w : W) (c : Course) : W :=
  match c.k.await with
  | .timeline _ _ _ (some q) => wake w (putQParked c q.val false)
  | .barrier _ (some q) => wake w (putQParked c q.val false)
  | _ => wake w c

/-- DEADLINE_EXPIRY: time reaches a parked record's deadline. -/
def execDeadlineExpiry (cid : Nat) (s : State) :=
  event (fun _ w =>
    match course? w cid with
    | none => w
    | some c =>
      match c.k.at_, c.k.deadline with
      | .parked, some t => expire (reachTime w t) c
      | _, _ => w) s

/-! Scheduling slices (R146, R329). -/

/-- The contexts after a slice: a setting that waited applies, the turn goes on within the weight or to the next context. -/
def nextSlice (x : Ctxs) : Ctxs :=
  let x := match x.next with
    | some (n, t, ws) => { x with count := n, slice := t, weights := ws, next := none }
    | none => x
  if 1 < x.left ∧ x.cur < x.count then { x with left := x.left - 1 }
  else
    let c := if x.count ≤ 1 then 0 else (x.cur + 1) % x.count
    { x with cur := c, left := max 1 (nth x.weights c 1) }

/-- The courses of a partition's context that halt at its slice's end: those of launches that are not pinned. -/
def sliceCourses (w : W) (p ctx : Nat) : List Course :=
  (w.courses.filter fun (_, c) => c.id.part == p && c.id.ctx == ctx && !c.id.pinned).map (·.2)

/-- The courses of a context halted, their Chisel operations stopped (R300, R329). -/
def haltCtx (e : Env) (w : W) (p ctx : Nat) : W :=
  let cs := sliceCourses w p ctx
  let w := ((cs.filter fun c => c.k.at_ = .resident || c.k.at_ = .ready).map (·.id.cid)).foldl (haltNow e 0x85) w
  stopOps w fun o => cs.any fun c => c.id.cid == o.cid

/-- The records of ready queues moved behind records that enter next. -/
def readyBehind (w : W) (p : Nat) (n : Nat) : W :=
  { w with
    courses := tMap w.courses fun _ c =>
      if c.id.part = p ∧ c.k.at_ = .ready then { c with k := { c.k with order := c.k.order + n } } else c
    nextOrder := w.nextOrder + n }

/-- A record that re-enters a ready queue with an order number of its own. -/
def reenter (w : W) (c : Course) (o : Nat) : W :=
  let next := w.nextOrder
  let w := enterReady w c
  { (updCourse w c.id.cid fun c => if c.k.at_ = .ready then { c with k := { c.k with order := o } } else c) with
    nextOrder := next + 1 }

/-- Halted records that may run again re-enter the ready queues in the order of their halts, ahead of records of equal level;
stopped operations of parked courses go on (R146, R329). Ready records' numbers all rise past those of the halted ones. -/
def startCtx (w : W) (p : Nat) : W :=
  let hs := ((w.courses.filter fun (_, c) => c.id.part == p && c.k.at_ == .halted && (haltCause w c).isNone).map
    (·.2)).mergeSort fun a b => a.k.order ≤ b.k.order
  let first := w.nextOrder
  let w := readyBehind w p (first + hs.length)
  let w := hs.zipIdx.foldl (fun w (c, i) => reenter w c i) w
  let parked := (w.courses.filter fun (_, c) => c.id.part == p && c.k.at_ == .parked && (haltCause w c).isNone).map (·.2)
  parked.foldl (fun w c => resumeOps w c.id.cid (pcnOf w c.v.hcore) c.v.hquad) w

/-- SCHEDULING_SLICE_END: the running context's slice ends at its time; with one context no slice ever ends. Every slice end halts
the context's courses, also one between two slices that its weight gives it (R70, R193, R329). -/
def execSchedulingSliceEnd (part_ : Nat) (s : State) :=
  event (fun e w =>
    let x := (part w part_).ctxs
    if x.count ≤ 1 then w
    else
      let w := reachTime w x.endAt
      let y := nextSlice x
      let y := { y with endAt := w.now + y.slice * usTicks }
      let w := updPart w part_ fun q => { q with ctxs := y }
      startCtx (haltCtx e w part_ x.cur) part_) s

/-! Request timeouts (R168). -/

/-- REQUEST_TIMEOUT: the next requests of a requester get no reply in time: of some lanes of a resident course, of its fetch, of an
engine operation's transfers or page walks, or of the device itself for a partition in the step that follows; `performed` tells
whether the targets perform a course's or an operation's requests all the same (R168, R336). -/
def execRequestTimeout (who : Requester) (id : Nat) (lanes : Mask) (performed : Bool) (s : State) :=
  event (fun _ w =>
    match who with
    | .course => updCourse w id fun c =>
        if c.k.at_ = .resident ∧ lanes ≠ 0 then { c with k := { c.k with tmo := some (lanes, performed) } } else c
    | .fetch => updCourse w id fun c => if c.k.at_ = .resident then { c with k := { c.k with fetchLost := true } } else c
    | .engine => updOp w id fun o => { o with tmo := true, tmoDone := performed }
    | .engineWalk => updOp w id fun o => { o with tmoWalk := true }
    | .device => { w with lost := id :: w.lost }) s

end Sys2Proof.Machine
end

