-- ==== Sys2Proof/Machine/EvMailbox.lean ====
section
/-! DEFINITION. Hub requests through the mailbox, partition reset and the loss of whole launches (R83, R156, R167, R176, R187,
R191 to R194, R197, R198). -/

namespace Sys2Proof.Machine

/-! The mailbox (R190, R192). -/

/-- What a request comes to: refused with status 1, or done with its effect and a result. -/
abbrev Request := Env → W → Option (W × Nat)

/-- Whether a function has a pending request of a code: byte 0 of the copy hub firmware took. -/
def asks (w : W) (n code : Nat) : Bool := (fn w n).pend && bvF (fn w n).mbcopy 0 8 == code

/-- A request finished: MBRSP and MBDOOR (R190, R192). -/
def finishReq (w : W) (n status result : Nat) : W :=
  updFn w n fun f => { f with mbrsp := BitVec.ofNat 512 (status + result % 2 ^ 56 * 256), pend := false }

/-- A request of a code from a function: refused changes nothing else. -/
def mailbox (n code : Nat) (from_ : W → Bool) (r : Request) : Env → W → W := fun e w =>
  if !asks w n code then w
  else if !from_ w then finishReq w n 1 0
  else match r e w with
    | none => finishReq w n 1 0
    | some (w, x) => finishReq w n 0 x

/-- The physical function asks. -/
def fromPf (n : Nat) : W → Bool := fun _ => n == 0

/-- A function bound to a live partition asks. -/
def fromPart (n : Nat) : W → Bool := fun w => n != 0 && (fn w n).bound && (part w (fn w n).part).live

/-- A partition exists. -/
def isLive (w : W) (p : Nat) : Bool := decide (p < 16) && (part w p).live

/-! Whole launches lost (R138, R176, R194). -/

/-- The consorts of a launch that wait for a slot counted as lost. -/
def loseWaiting (l : Launch) (status : Nat) : Launch :=
  let n := l.back.length + (l.hdr.ccount - l.next)
  match l.waiting with
  | none => l
  | some i => { l with
      ended := l.ended + n
      lost := l.lost + n
      next := max l.next l.hdr.ccount
      back := []
      first := match l.first with
        | none => some (i, status)
        | some (j, s) => if i < j then some (i, status) else some (j, s) }

/-- Every consort of a launch ended as lost. -/
def loseLaunch (e : Env) (w : W) (lid status : Nat) : W :=
  let w := updLaunch w lid fun l => loseWaiting l status
  let w := loseConsorts e w ((w.consorts.filter fun (_, k) => k.launch == lid).map (·.1)) status
  match launch? w lid with
  | none => w
  | some l => if l.ended < l.hdr.ccount then w else completeLaunch e { w with launches := tDel w.launches lid } l

/-- Launches lost one after another. -/
def loseLaunches (e : Env) (w : W) (ls : List Nat) (status : Nat) : W := ls.foldl (fun w l => loseLaunch e w l status) w

/-! Partition reset (R176). -/

/-- The tiles of a partition: its cores' and its slices'. -/
def partTiles (pt : Part) : List Nat :=
  ((List.range 72).filter fun p => pt.cores.getLsbD p).map tileOfPcn ++ (slicesOf pt).map tileOfSlice

/-- A core's memories, counters and engines cleared; its cycle counter starts again. The manual does not say whether a partition reset ends
what R173 withholds until ENGRST: the model's choice is that it does, and that a stopped engine goes on (R176, log entry 33). -/
def clearCore (w : W) (pcn : Nat) : W :=
  let w := clearTile w (tileOfPcn pcn)
  let w := (List.range 4).foldl (fun w q => updQuad w (4 * pcn + q) fun x => { x with gens := [], chiselOk := true, withheld := false }) w
  updCore w pcn fun _ => { CoreSt.init with cyc0 := w.now }

/-- The records of a tile's neighbours that face it, changed. -/
def facing (w : W) (t : Nat) (f : Nat → Tile → Tile) : W :=
  (List.range 4).foldl (fun w d => match neighbour t d with
    | none => w
    | some n => updTile w n (f ((d + 2) % 4))) w

/-- The gates and maps that face a tile opened (R176, R188). -/
def openGates (w : W) (t : Nat) : W :=
  let w := facing w t fun b x => { x with
    nb := setNth 4 x.nb b (bvSet (bvSet (bvSet (nth x.nb b 0) 19 2 0) 22 6 0) 0 11 0) 0
    votes := setNth 4 x.votes b 0 0
    watch := setNth 4 x.watch b false false }
  { w with tiles := tMap w.tiles fun _ x => { x with map := bvSet x.map t 1 0 } }

/-- The gates that face a tile closed, and every router's map shows it (R176, R183). -/
def closeGates (w : W) (t : Nat) : W :=
  let w := facing w t fun b x => { x with nb := setNth 4 x.nb b (bvSet (nth x.nb b 0) 19 2 3) 0 }
  (List.range 96).foldl (fun w r => updTile w r fun x => { x with map := bvSet x.map t 1 1 }) w

/-- A tile that passes the self-test of a partition reset: heartbeat and vote state as new, its gates to muted neighbours closed as
before (R163, R176). -/
def freshTile (x : Tile) (t : Nat) : Tile :=
  { Tile.initAt t with
    word := BitVec.ofNat 64 (2 ^ 32 + 2 ^ 33 * (decide (x.droop < 8)).toNat)
    nb := (Tile.initAt t).nb.mapIdx fun d r => bvSet r 19 2 (bvF (nth x.nb d 0) 19 2)
    map := x.map
    droop := x.droop
    sag := x.sag }

/-- A muted tile that passes is readmitted, which a fault queue entry and host event 0x21 report (R148, R176). -/
def readmit (e : Env) (w : W) (t last : Nat) : W :=
  let w := openGates w t
  let w := { w with hub := { w.hub with
    reported := w.hub.reported.filter (· != t)
    mutedSlices := if tileIsCore t then w.hub.mutedSlices else w.hub.mutedSlices.filter (· != sliceOfTile t) } }
  let w := if tileIsCore t then setLpt (setLpt w (pcnOfTile t) 16 2 0) (pcnOfTile t) 24 8 0 else w
  reportTile e w t 0x11 0x21 last

/-- A tile after the self-test of a partition reset: one that passes is as new and readmitted, one that fails stays or becomes muted. -/
def retestTile (e : Env) (w : W) (t : Nat) (fails : Bool) : W :=
  let last := bvF (tile w t).word 0 16
  let was := w.hub.reported.contains t
  if fails then
    let w := updTile w t fun x => { x with word := bvSet (bvSet x.word 16 4 1) 32 1 0 }
    if was then w else closeGates (hubMute e w t last) t
  else
    let w := updTile w t fun x => freshTile x t
    if was then readmit e w t last else w

/-- A partition reset, reported (R14); `failed` lists the tiles whose self-test fails. -/
def resetPart (e : Env) (w : W) (p : Nat) (failed : List Nat) : W :=
  let pt := part w p
  let w := updPart w p fun x => { x with pools := [], lq := [], lqHold := false }
  let w := loseLaunches e w ((w.launches.filter fun (_, l) => l.part == p).map (·.1)) 0xFF
  let w := { w with
    ops := w.ops.filter fun (_, o) => o.part != p
    tlb := w.tlb.filter fun t => t.part != p
    ats := w.ats.filter fun t => t.part != p
    invals := w.invals.filter fun x => x.part != p }
  let w := ((List.range 72).filter fun c => pt.cores.getLsbD c).foldl clearCore w
  let w := (slicesOf pt).foldl clearSliceTile w
  let w := updPart w p fun x => { x with fq := Fq.init, denied := 0, lqTail := 0, lqNext := 0 }
  reportAction e ((partTiles pt).foldl (fun w t => retestTile e w t (failed.contains t)) w) [p]

/-! The requests (R192). -/

/-- Whether a requester row is free of courses that forbid a change: none of the partition resident or halted there (R156). -/
def rowQuiet (w : W) (pcn : Nat) : Bool :=
  !(w.courses.any fun (_, c) => pcnOf w c.v.hcore == pcn && (c.k.at_ == .resident || c.k.at_ == .halted))

/-- Whether no course of any consort on a core is resident or halted (R83). -/
def coreQuiet (w : W) (pcn : Nat) : Bool :=
  rowQuiet w pcn && !(w.courses.any fun (_, c) => (c.k.at_ == .resident || c.k.at_ == .halted) &&
    (((consort? w c.id.consort).map (·.cores)).getD []).any fun l => pcnOf w l == pcn)

/-- A row of the connection matrix (R156). -/
def matrixRow (p : Nat) (slices : BitVec 24) : BitVec 64 := BitVec.ofNat 64 (2 ^ 31 + p * 2 ^ 24 + slices.toNat)

/-- 0x01, create partition: every port it names must be free. The hub die's row reaches the slices of every partition (log entry 2). -/
def createPart (p : Nat) (cores : BitVec 72) (slices : BitVec 24) (ports : BitVec 12) (asidT armT acctT : Nat) : Request := fun _ w =>
  let rows := ((List.range 72).filter fun c => cores.getLsbD c) ++ ((List.range 12).filter fun c => ports.getLsbD c).map (73 + ·)
  if 16 ≤ p ∨ (part w p).live ∨ rows.any (fun r => (rowPart w r).isSome || !rowQuiet w r) then none
  else
    let m := rows.foldl (fun m r => tPut m r (matrixRow p slices)) w.hub.matrix
    let m := tPut m 72 (matrixRow 0 (slices ||| BitVec.ofNat 24 (tGetD m 72 0).toNat))
    let w := { w with hub := { w.hub with matrix := m } }
    some (updPart w p fun _ => { Part.init with
      live := true, cores := cores, slices := slices, ports := ports, asidT := asidT, armT := armT, acctT := acctT }, 0)

def execCreatePartition (n : FnNo) (part_ : Nat) (cores : BitVec 72) (slices : BitVec 24) (ports : BitVec 12)
    (asidT armT acctT : Nat) (s : State) :=
  event (mailbox n.val 0x01 (fromPf n.val) (createPart part_ cores slices ports asidT armT acctT)) s

/-- 0x02, reset partition (R176). -/
def execResetPartition (n : FnNo) (part_ : Nat) (failed : List Nat) (s : State) :=
  event (mailbox n.val 0x02 (fromPf n.val) fun e w =>
    if isLive w part_ then some (resetPart e w part_ failed, 0) else none) s

/-- 0x03, bind VF: a VF without open launches, whose TDISP interface is not locked. -/
def execBindVf (n vf : FnNo) (part_ : Nat) (s : State) :=
  event (mailbox n.val 0x03 (fromPf n.val) fun _ w =>
    let f := fn w vf.val
    if vf.val = 0 ∨ !isLive w part_ ∨ (w.launches.any fun (_, l) => l.fn == some vf.val) ∨ f.tdisp = 1 ∨ f.tdisp = 2 then none
    else some (updFn w vf.val fun f => { f with bound := true, part := part_ }, 0)) s

/-- 0x04, set stage-2 root. -/
def execSetStage2Root (n : FnNo) (part_ root : Nat) (s : State) :=
  event (mailbox n.val 0x04 (fromPf n.val) fun _ w =>
    if isLive w part_ ∧ root % 4096 = 0 then some (updPart w part_ fun x => { x with root := root }, 0) else none) s

/-- The world whose data a numbered key enciphers. -/
def keyWorld (key : Nat) : Nat := if key % 2 ^ 32 < 32 then key % 2 ^ 32 / 2 else key % 32

/-- Whether a world holds a quadrant of the device. -/
def worldHeld (w : W) (wd : Nat) : Bool := (List.range 288).any fun q => (quad w q).world == wd

/-- Quadrants of a core given to a world: its banks and scale memory become zero; a world that has no quadrant yet, or none any more, gets
a new context key and default key with its first (R83, R195), and a world left without one has no key in a slot any more (R153). -/
def giveWorld (w : W) (pcn : Nat) (quads : BitVec 4) (wd : Nat) : W :=
  let first := wd != 0 && quads != 0 && !worldHeld w wd
  let w := cleanRange (wrClear w (keyScr pcn 0 0) (2 ^ 21)) (keyScr pcn 0 0) (2 ^ 21)
  let w := cleanRange (wrZeros w (keyScale pcn 0 0 0) (2 ^ 18)) (keyScale pcn 0 0 0) (2 ^ 18)
  let w := (List.range 4).foldl (fun w q =>
    if quads.getLsbD q then updQuad w (4 * pcn + q) fun x => { x with world := wd } else w) w
  let w := { w with sec := { w.sec with keySlots := w.sec.keySlots.filter fun k => worldHeld w (keyWorld k) } }
  let key := 2 * wd + 2 ^ 32 * (w.sec.keyed.filter fun k => k % 2 ^ 32 == 2 * wd).length
  if first then { w with sec := { w.sec with keyed := w.sec.keyed ++ [key, key + 1] } } else w

/-- The free slots of every launch offered again (R83, R139). -/
def offerSlots (w : W) : W := w.launches.foldl (fun w (lid, l) => giveSlots w lid (slotsByCore l)) w

/-- 0x05, assign world: refused while a course is resident or halted on the core (R83); a slot that no consort could take may suit one
now. -/
def execAssignWorld (n : FnNo) (pcn : Nat) (quads : BitVec 4) (world : Nat) (s : State) :=
  event (mailbox n.val 0x05 (fromPf n.val) fun _ w =>
    if 72 ≤ pcn ∨ 16 ≤ world ∨ !coreQuiet w pcn then none else some (offerSlots (giveWorld w pcn quads world), 0)) s

/-- Whether a world has a quadrant in a partition. -/
def worldIn (w : W) (p wd : Nat) : Bool :=
  (List.range 72).any fun c => (part w p).cores.getLsbD c && worldQuads w c wd != []

/-- 0x06, bind tag port (R191). -/
def execBindTagPort (n : FnNo) (port_ : Fin 64) (asid world prio : Nat) (s : State) :=
  event (mailbox n.val 0x06 (fromPart n.val) fun _ w =>
    let f := fn w n.val
    if 2 ^ 16 ≤ asid ∨ 16 ≤ world ∨ 8 ≤ prio ∨ !worldIn w f.part world ∨ f.tdisp = 1 ∨ f.tdisp = 2 then none
    else some (updFn w n.val fun f => { f with ports := tPut f.ports port_.val ⟨asid, world, prio, true⟩ }, 0)) s

/-- 0x07, set allow-list entry (R159). -/
def execSetAllowListEntry (n : FnNo) (part_ index : Nat) (entry : Word) (s : State) :=
  event (mailbox n.val 0x07 (fromPf n.val) fun _ w =>
    if isLive w part_ ∧ index < 256 then
      some (updPart w part_ fun x => { x with allow := tPut x.allow index (entry &&& 0x1FFFF) }, 0)
    else none) s

/-- 0x08, appeal policy: APPEAL in the records that face the tile, at once when it is muted (R187). -/
def execAppealPolicy (n : FnNo) (tile_ : Fin 96) (enable : Bool) (s : State) :=
  event (mailbox n.val 0x08 (fromPf n.val) fun _ w =>
    let t := tile_.val
    let l := w.hub.appealOn.filter (· != t)
    let w := { w with hub := { w.hub with appealOn := if enable then t :: l else l } }
    some (if w.hub.reported.contains t then setAppeal w t enable else w, 0)) s

/-- The bits of an export entry that are not reserved (R197). -/
def exportMask : BitVec 256 :=
  BitVec.ofNat 256 (0xF + (2 ^ 64 - 1) * 2 ^ 64 + (2 ^ 64 - 1) * 2 ^ 128 + (2 ^ 14 - 1) * 2 ^ 198)

/-- Whether an export entry's LIMIT is a multiple of 4 KiB of at most 64 GiB (R197). -/
def limitOk (entry : BitVec 256) : Bool := decide (bvF entry 128 64 ≤ 2 ^ 36) && bvF entry 128 12 == 0

/-- 0x09, write export or import entry, or place a table; reserved bits of an export entry stay 0 (R3, R197, R198). -/
def execWriteExportOrImportEntry (n : FnNo) (imp : Bool) (index : Nat) (entry : BitVec 256) (s : State) :=
  event (mailbox n.val 0x09 (fromPart n.val) fun e w =>
    let p := (fn w n.val).part
    let base := if imp then (part w p).impT else (part w p).expT
    if index = 0xFFFF then
      let a := bvF entry 0 64
      some (updPart w p fun x => if imp then { x with impT := some a } else { x with expT := some a }, 0)
    else match base with
      | none => none
      | some b =>
        if imp then
          if index < 256 then (tableWrite e w p (b + 16 * index) (leBytes 16 (bvF entry 0 128))).map fun w => (w, 0)
          else none
        else if index < 4096 ∧ limitOk entry then
          (tableWrite e w p (b + 32 * index) (leBytes 32 (entry &&& exportMask).toNat)).map fun w => (w, 0)
        else none) s

/-- 0x0A, register handler consort (R167). -/
def execRegisterHandlerConsort (n : FnNo) (seq : BitVec 64) (s : State) :=
  event (mailbox n.val 0x0A (fromPart n.val) fun _ w =>
    some (updPart w (fn w n.val).part fun x => { x with handler := some seq }, 0)) s

/-- 0x0B, terminate fault entry: an entry of the handler consort, at the request of its partition's function or the PF, reported (R14,
R167). -/
def execTerminateFaultEntry (n : FnNo) (part_ idx : Nat) (s : State) :=
  event (mailbox n.val 0x0B (fun w => fromPf n.val w || (fromPart n.val w && (fn w n.val).part == part_)) fun e w =>
    match (allEntries w part_)[idx]? with
    | none => none
    | some x =>
      if x.served ∨ (handlerCourse w x).isNone then none
      else
        let k := (part w part_).fq.pending.length
        let w := if idx < k then markServed e w part_ idx
          else updFq w part_ fun f => { f with held := f.held.eraseIdx (idx - k) }
        some (reportAction e (terminateEntry e w x 0xFF) [part_], 0)) s

/-- 0x0C, configure partition runtime: refused while a consort of the partition exists (R193). -/
def execConfigurePartitionRuntime (n : FnNo) (part_ rAsid cAsid base size disp_ evFn_ : Nat) (s : State) :=
  event (mailbox n.val 0x0C (fromPf n.val) fun _ w =>
    let two := 2 ^ 21
    let okFn := evFn_ = 0 ∨ (evFn_ < 64 ∧ (fn w evFn_).bound ∧ (fn w evFn_).part = part_)
    if !isLive w part_ ∨ (w.consorts.any fun (_, k) => k.part == part_) ∨ 2 ^ 16 ≤ rAsid ∨ 2 ^ 16 ≤ cAsid ∨ base % two ≠ 0 ∨
        size % two ≠ 0 ∨ size < 2 ^ 26 ∨ !(part w part_).slices.getLsbD (disp_ / 256) ∨ ¬okFn then none
    else some (updPart w part_ fun x => { x with
      configured := true, rAsid := rAsid, cAsid := cAsid, ctxBase := base, ctxSize := size, disp := disp_,
      evFn := some evFn_, frames := [] }, 0)) s

/-- 0x0D, set scheduling contexts: from the next slice boundary; with one context running, which has none, at once (R193). -/
def execSetSchedulingContexts (n : FnNo) (part_ count slice : Nat) (weights : List Nat) (s : State) :=
  event (mailbox n.val 0x0D (fromPf n.val) fun e w =>
    if !isLive w part_ ∨ count = 0 ∨ 4 < count ∨ slice < 10 ∨ 100000 < slice ∨ weights.length ≠ count ∨
        weights.any (fun x => x == 0 || decide (15 < x)) then none
    else
      let x := (part w part_).ctxs
      if 1 < x.count then
        some (updPart w part_ fun q => { q with ctxs := { x with next := some (count, slice, weights) } }, 0)
      else
        let y : Ctxs := ⟨count, slice, weights, 0, nth weights 0 1, w.now + slice * usTicks, none⟩
        let w := updPart w part_ fun q => { q with ctxs := y }
        some (if count ≤ 1 then w else [1, 2, 3].foldl (fun w c => haltCtx e w part_ c) w, 0)) s

/-- The item of a partition that 0x0E returns (R193). -/
def queryItem (w : W) (p item : Nat) : Nat :=
  let x := part w p
  match item with
  | 0 => x.rAsid
  | 1 => x.cAsid
  | 2 => x.ctxBase
  | 3 => x.ctxSize
  | 4 => x.disp
  | 5 => eventFn w p
  | 6 => x.ctxs.count + x.ctxs.slice * 16
  | _ => x.ctxBase

/-- 0x0E, query partition (R193). -/
def execQueryPartition (n : FnNo) (part_ item : Nat) (s : State) :=
  event (mailbox n.val 0x0E (fun w => fromPf n.val w || (fromPart n.val w && (fn w n.val).part == part_)) fun _ w =>
    if isLive w part_ ∧ item < 8 then some (w, queryItem w part_ item) else none) s

end Sys2Proof.Machine
end

