-- ==== Sys2Proof/Machine/EvHost.lean ====
section
/-! DEFINITION. The host's accesses to a function's registers, resets, bring-up, TDISP and SPDM (R2, R106, R151, R157, R159,
R190, R194, R195, R199, R201). -/

namespace Sys2Proof.Machine

/-! Host event queue registers (R151, R179, R190). -/

/-- The sizes that HEQSIZE takes. -/
def heqSizeOk (v : Nat) : Bool := v == 0 || (List.range 11).any fun i => v == 2 ^ (6 + i)

/-- What bring-up found, told when the PF's queue is first set up, and REPLME as it stands, told to the PF and to each
partition's event function when its queue is first set up (R179, R201). -/
def firstReports (w : W) (n : Nat) : W :=
  let w := if n ≠ 0 then w
    else { (w.hub.reports.foldl (fun w (code, detail, addr) => hostEvent w 0 0 0 code detail addr) w) with
      hub := { w.hub with reports := [] } }
  if w.hub.replme ≠ 0 ∧ (n = 0 ∨ (liveParts w).any fun p => eventFn w p == n) then
    hostEvent w n (fn w n).part 0 0x22 (bvF w.hub.replme 0 32) w.hub.replme.toNat
  else w

/-- HEQ_CONFIG_WRITE: a new base or permitted size sets head and tail to 0 and PHASE to 1. R190 says of a base only that it is 4 KiB
aligned; the low 12 bits of a write are dropped (DESIGN CHOICE, log entry 66). -/
def execHeqConfigWrite (n : FnNo) (size : Bool) (v : BitVec 64) (s : State) :=
  event (fun _ w =>
    if !takesWrites w n.val ∨ (size ∧ !heqSizeOk v.toNat) then w
    else
      let w := updFn w n.val fun f => { f with
        heqBase := if size then f.heqBase else BitVec.ofNat 64 (v.toNat / 4096 * 4096)
        heqSize := if size then v.toNat else f.heqSize
        heqHead := 0
        heqTail := 0
        phase := true }
      if !(fn w n.val).everHeq ∧ (fn w n.val).heqSize ≠ 0 then
        firstReports (updFn w n.val fun f => { f with everHeq := true }) n.val
      else w) s

/-- HEQHEAD_WRITE: a write that would move the head past HEQTAIL is ignored. -/
def execHeqheadWrite (n : FnNo) (v : BitVec 64) (s : State) :=
  event (fun _ w =>
    let f := fn w n.val
    let m := f.heqSize
    if !takesWrites w n.val ∨ m ≤ v.toNat ∨ (f.heqTail + m - f.heqHead) % m < (v.toNat + m - f.heqHead) % m then w
    else updFn w n.val fun f => { f with heqHead := v.toNat }) s

/-! Versions (R16, R199). -/

/-- VERCAP (R190). -/
def verCap : Nat := 0x0301010101

/-- The highest version set in both of two bytes; 0 when there is none. -/
def verBest (x : Nat) : Nat := ((List.range 8).filter fun v => bitAt x v).foldl (fun _ v => v + 1) 0

/-- The versions in force of structures 0 to 4. -/
def verAct (sel : Nat) : List Nat :=
  (List.range 5).map fun b => verBest (BitVec.ofNat 8 (bitsAt verCap (8 * b) 8) &&& BitVec.ofNat 8 (bitsAt sel (8 * b) 8)).toNat

/-- VERSEL_WRITE: ignored while a consort of the partition exists. Bits above byte 4 are dropped (DESIGN CHOICE, log entry 66). Faults
held for want of an entry version are tried again (log entry 63). -/
def execVerselWrite (n : FnNo) (v : BitVec 64) (s : State) :=
  event (fun e w =>
    let f := fn w n.val
    if !takesWrites w n.val ∨ (w.consorts.any fun (_, k) => k.part == f.part) then w
    else
      let w := updFn w n.val fun f => { f with versel := BitVec.ofNat 64 (v.toNat % 2 ^ 40) }
      if n.val = 0 then w else retryHeld e (updPart w f.part fun x => { x with veract := verAct v.toNat }) f.part) s

/-! Counters (R158, R159). -/

/-- The partition that owns an identifier. -/
def counterPart (w : W) (id : Nat) : Option Nat :=
  if 0x1000 ≤ id ∧ id < 0x1000 + 64 * 72 then rowPart w ((id - 0x1000) / 64)
  else if 0x3000 ≤ id ∧ id < 0x3000 + 16 * 24 then
    (liveParts w).find? fun p => (part w p).slices.getLsbD ((id - 0x3000) / 16)
  else if 0x4000 ≤ id ∧ id < 0x4010 then some (id - 0x4000) else none

/-- The events whose counts only timing and caching make: a core's register-miss stall cycles, a slice's home-cache hits and misses. What
they read is a free value (R158, log entry 6). -/
def countsTiming (id : Nat) : Bool :=
  (decide (0x1000 ≤ id) && decide (id < 0x1000 + 64 * 72) && (id - 0x1000) % 64 == 1) ||
  (decide (0x3000 ≤ id) && decide (id < 0x3000 + 16 * 24) && decide ((id - 0x3000) % 16 < 2))

/-- The value of a counter or sensor; unassigned ones read zero. -/
def counterValue (w : W) (id : Nat) : Nat :=
  if id < 6 then tGetD w.hub.dev id 0
  else if 0x1000 ≤ id ∧ id < 0x1000 + 64 * 72 then
    (if (id - 0x1000) % 64 < 8 then tGetD (core w ((id - 0x1000) / 64)).ev ((id - 0x1000) % 64) 0 else 0)
  else if 0x3000 ≤ id ∧ id < 0x3000 + 16 * 24 then
    (if (id - 0x3000) % 16 < 5 then tGetD w.hub.sliceEv (id - 0x3000) 0 else 0)
  else if 0x4000 ≤ id ∧ id < 0x4010 then (part w (id - 0x4000)).denied else 0

/-- Whether a VF may read an identifier. -/
def counterAllowed (w : W) (p id : Nat) : Bool :=
  id == 0x4000 + p || (part w p).allow.any fun (_, x) => bvF x 16 1 == 1 && bvF x 0 16 == id

/-- A counter sampled: its value and the state that has used a free one. -/
def sampleCounter (w : W) (id : Nat) : Nat × W :=
  if countsTiming id then
    ((Config.freeWord w.fresh).toNat + (Config.freeWord (w.fresh + 1)).toNat * 2 ^ 32, { w with fresh := w.fresh + 2 })
  else (counterValue w id, w)

/-- COUNTER_READ: a read of CRVAL. -/
def execCounterRead (n : FnNo) (s : State) :=
  event (fun _ w =>
    let f := fn w n.val
    if !linkUp w then w
    else if n.val ≠ 0 ∧ !f.bound then reply w (.data (leBytes 8 0))
    else if n.val = 0 ∨ counterAllowed w f.part f.crsel then
      let (v, w) := sampleCounter w f.crsel
      reply (updFn w n.val fun f => { f with crval := BitVec.ofNat 64 v, denied := false }) (.data (leBytes 8 v))
    else
      let w := updFn w n.val fun f => { f with crval := 0, denied := true }
      let w := updPart w ((counterPart w f.crsel).getD f.part) fun x => { x with denied := (x.denied + 1) % 2 ^ 64 }
      reply w (.data (leBytes 8 0))) s

/-! Other registers (R2, R157, R190, R192). -/

/-- COALT_WRITE: 1 to 1,000 µs; bits above [9:0] are dropped first (DESIGN CHOICE, log entry 66). -/
def execCoaltWrite (n : FnNo) (v : BitVec 64) (s : State) :=
  event (fun _ w =>
    let x := bvF v 0 10
    if !takesWrites w n.val ∨ x = 0 ∨ 1000 < x then w else updFn w n.val fun f => { f with coalt := x }) s

/-- PWRLIM_WRITE: the PF alone, 600 to 1,800 W; bits above [10:0] are dropped first (DESIGN CHOICE, log entry 66). -/
def execPwrlimWrite (n : FnNo) (v : BitVec 64) (s : State) :=
  event (fun _ w =>
    let x := bvF v 0 11
    if n.val ≠ 0 ∨ !linkUp w ∨ x < 600 ∨ 1800 < x then w else updFn w 0 fun f => { f with pwrlim := x }) s

/-- A write of MBDOOR: a request submitted, or ignored while one is pending; IGNORED cleared by 1 (R190, R192). A request code
that the table does not list is malformed. Of a write with both bits while a request is pending the clear comes first, so that IGNORED
ends set (DESIGN CHOICE, log entry 66). -/
def doorbell (w : W) (n : Nat) (v : BitVec 64) : W :=
  let w := if v.getLsbD 1 then updFn w n fun f => { f with ignored := false } else w
  if !v.getLsbD 0 then w
  else if (fn w n).pend then updFn w n fun f => { f with ignored := true }
  else
    let w := updFn w n fun f => { f with mbcopy := f.mbreq, pend := true }
    let code := bvF (fn w n).mbcopy 0 8
    if code = 0 ∨ 0x0E < code then finishReq w n 2 0 else w

/-- A vector that is not masked and holds its pending bit outside an interval posts (R157). -/
def postUnmasked (w : W) (n vec : Nat) : W :=
  let f := fn w n
  if f.pba.contains vec && !msixMasked f vec && (tGet? f.openIv vec).isNone then msixSend w n vec else w

/-- An 8-byte half of an MSI-X table entry written; one that clears the mask bit unmasks the vector. -/
def msixWrite (w : W) (n vec : Nat) (hi : Bool) (v : BitVec 64) : W :=
  postUnmasked (updFn w n fun f =>
    { f with msix := tPut f.msix vec (bvSet (msixEntry f vec) (if hi then 64 else 0) 64 v.toNat) }) n vec

/-- The vectors of a function (R157). -/
def vectors (n : Nat) : Nat := if n = 0 then 256 else 32

/-- REGISTER_WRITE: an 8-byte write at an offset of BAR 0: CRSEL, MBREQ, MBDOOR, the MSI-X table, a tag port, which takes it as
a rejected message (R191); read-only and reserved places ignore it. -/
def execRegisterWrite (n : FnNo) (off : Nat) (v : BitVec 64) (s : State) :=
  event (fun _ w =>
    let k := n.val
    if !takesWrites w k ∨ off % 8 ≠ 0 then w
    else if off = 0x100 then updFn w k fun f => { f with crsel := bvF v 0 16 }
    else if 0x400 ≤ off ∧ off < 0x440 then updFn w k fun f => { f with mbreq := bvSet f.mbreq (8 * (off - 0x400)) 64 v.toNat }
    else if off = 0x480 then doorbell w k v
    else if 0x1000 ≤ off ∧ off < 0x1400 then
      let f := fn w k
      let b := tGetD f.ports ((off - 0x1000) / 16) ⟨0, 0, 0, false⟩
      rejectMessage w f.part ⟨b.asid, b.world, b.prio, some k, none⟩ (v.toNat * 2 ^ (8 * (off % 16)))
    else if 0x8000 ≤ off ∧ off < 0x8000 + 16 * vectors k then msixWrite w k ((off - 0x8000) / 16) (off % 16 != 0) v
    else w) s

/-- MSIX_VECTOR_UNMASK: the mask bit clears; a vector that holds its pending bit posts, unless its interval is still open. -/
def execMsixVectorUnmask (n : FnNo) (vec : Fin 256) (s : State) :=
  event (fun _ w =>
    let k := n.val
    if !takesWrites w k ∨ vectors k ≤ vec.val then w
    else postUnmasked (updFn w k fun f => { f with msix := tPut f.msix vec.val (bvSet (msixEntry f vec.val) 96 1 0) }) k vec.val) s

/-! Reads of BAR 0 (R190, R191, R157, R159, R201). -/

/-- BOOTST, as the host reads it over a link that is up and the module's sideband interface at any time (R190, R201). -/
def bootWord (w : W) : Nat :=
  w.hub.boot + 16 * w.hub.ready.toNat + 32 * w.hub.failed.toNat + 256 * w.hub.reason

/-- FNINFO. -/
def fnInfo (w : W) (n : Nat) : Nat := n + 256 * (fn w n).part + 4096 * (fn w n).bound.toNat

/-- The first 8 bytes of a tag port as it reads (R191). -/
def tagPortWord (b : TagPort) : Nat := b.asid + b.world * 2 ^ 32 + b.prio * 2 ^ 36 + b.valid.toNat * 2 ^ 39

/-- The word of BAR 0 at an 8-byte offset that a bound function, or the PF, reads; a read of CRVAL is a COUNTER_READ before it. -/
def boundWord (w : W) (n off : Nat) : Nat :=
  let f := fn w n
  if off = 0x10 then verCap
  else if off = 0x18 then f.versel.toNat
  else if off = 0x20 then (if n = 0 then 0 else leNat ((part w f.part).veract.map (BitVec.ofNat 8)))
  else if off = 0x40 then f.heqBase.toNat
  else if off = 0x48 then f.heqSize
  else if off = 0x50 then f.heqHead
  else if off = 0x58 then f.heqTail
  else if off = 0x100 then f.crsel
  else if off = 0x108 then f.crval.toNat
  else if off = 0x110 then f.denied.toNat
  else if off = 0x120 then f.coalt
  else if off = 0x200 then (if n = 0 then f.pwrlim else 0)
  else if 0x400 ≤ off ∧ off < 0x440 then bvF f.mbreq (8 * (off - 0x400)) 64
  else if 0x440 ≤ off ∧ off < 0x480 then bvF f.mbrsp (8 * (off - 0x440)) 64
  else if off = 0x480 then f.pend.toNat + 2 * f.ignored.toNat
  else if 0x1000 ≤ off ∧ off < 0x1400 then
    (if off % 16 = 0 then tagPortWord (tGetD f.ports ((off - 0x1000) / 16) ⟨0, 0, 0, false⟩) else 0)
  else if 0x8000 ≤ off ∧ off < 0x8000 + 16 * vectors n then
    bvF (msixEntry f ((off - 0x8000) / 16)) (8 * (off % 16)) 64
  else if 0x9000 ≤ off ∧ off < 0x9000 + vectors n / 8 then
    (List.range 64).foldl (fun x i => x + (f.pba.contains (8 * (off - 0x9000) + i)).toNat * 2 ^ i) 0
  else 0

/-- What a read of 8 bytes of a function's BAR 0 returns; nothing answers without a link. An unbound VF shows FNINFO and BOOTST alone. -/
def barRead (w : W) (n off : Nat) : Option Nat :=
  if !linkUp w then none
  else if off = 0 then some (fnInfo w n)
  else if off = 8 then some (bootWord w)
  else if n ≠ 0 ∧ !(fn w n).bound then some 0
  else some (boundWord w n off)

/-! Resets (R176, R194). -/

/-- FUNCTION_LEVEL_RESET: a VF's registers, messages, tag ports and launches; of the PF, every partition. Consorts ended by a VF's are
reported to the fault queues of their partitions, and to no host event queue (R14, R194). -/
def execFunctionLevelReset (n : FnNo) (s : State) :=
  event (fun e w =>
    if !linkUp w then w
    else if n.val = 0 then (liveParts w).foldl (fun w p => resetPart e w p []) w
    else
      let f := fn w n.val
      let w := updFn w n.val fun _ => { Fn.init with bound := f.bound, part := f.part }
      let ls := (w.launches.filter fun (_, l) => l.fn == some n.val && l.port.isSome).map (·.1)
      let w := ls.foldl (fun w l => updLaunch w l fun l => { l with quiet := true }) w
      let ps := (ls.filterMap fun l => (launch? w l).map (·.part)).dedup
      reportEntries e (loseLaunches e w ls 0xFF) ps) s

/-! Bring-up (R12, R13, R15, R154, R199, R201). -/

/-- The table as built: entry l names the l-th enabled core, with its cluster and position (R13, R154). -/
def buildLpt (f : Fixed) : List (BitVec 64) :=
  (List.range 72).map fun l => match f.enabled[l]? with
    | none => 0
    | some p => BitVec.ofNat 64 (p + clusterOf p * 2 ^ 8 + posOf p * 2 ^ 13 + 2 ^ 18)

/-- A tile muted at bring-up: STATE 1, its neighbours' gates closed, every router's map, and its report for later. -/
def muteAtStart (w : W) (t : Nat) : W :=
  let w := updTile w t fun x => { x with word := BitVec.ofNat 64 (2 ^ 16) }
  let w := (List.range 4).foldl (fun w d =>
    match neighbour t d with
    | none => w
    | some n => updTile w n fun x => { x with
        nb := setNth 4 x.nb ((d + 2) % 4) (bvSet (nth x.nb ((d + 2) % 4) 0) 19 2 3) 0 }) w
  let w := (List.range 96).foldl (fun w r => updTile w r fun x => { x with map := bvSet x.map t 1 1 }) w
  { w with hub := { w.hub with
    reported := t :: w.hub.reported
    reports := w.hub.reports ++ [(0x20, tileNumber t, 0)]
    mutedSlices := if tileIsCore t then w.hub.mutedSlices else sliceOfTile t :: w.hub.mutedSlices } }

/-- A port after link negotiation: the highest version that both ends advertise, or down with a reason (R199, R201). The
second number of a listed port is the partner's advertised versions, one bit each; 0 for training that failed. -/
def startPort (l : List (Nat × Nat)) (w : W) (n : Nat) : W :=
  let adv := ((l.find? fun x => x.1 == n).map (·.2)).getD 0
  let v := verBest ((BitVec.ofNat 2 adv).toNat)
  if v ≠ 0 then updPort w n fun p => { p with up := true, ver := v }
  else { w with hub := { w.hub with reports := w.hub.reports ++ [(0x14, n + (if adv = 0 then 1 else 2) * 256, 0)] } }

/-- A hub that stopped at a step with a reason. -/
def failBoot (w : W) (step reason : Nat) : W :=
  { w with hub := { w.hub with boot := step, failed := true, reason := reason } }

/-- The action of a bring-up step, with what the hub finds at it (R201): 4 reads fuses, which are fixed; 5 tests the tiles; 6 builds the
table; 7 trains memory; 8 negotiates the links; 9 evaluates REPLME. -/
def bootAct (e : Env) (w : W) (b : BringUp) (step : Nat) : W :=
  match step with
  | 1 => if b.secureBoot then w else failBoot w 1 1
  | 2 => if b.hubStart then w else failBoot w 2 2
  | 3 => if b.meshTrain then w else failBoot w 3 3
  | 5 =>
    let w := (List.range 96).foldl (fun w t => updTile w t fun x => { x with word := BitVec.ofNat 64 (2 ^ 32) }) w
    ((b.badTiles.filter (· < 96)).dedup).foldl muteAtStart w
  | 6 =>
    let w := { w with hub := { w.hub with lpt := buildLpt e.fix } }
    (w.hub.reported.filter tileIsCore).foldl (fun w t => setLpt w (pcnOfTile t) 16 2 3) w
  | 7 => ((((b.badChannels.filter (· < 384)).map fun c => tileOfSlice (c / 16)).dedup).filter
      fun t => !w.hub.reported.contains t).foldl muteAtStart w
  | 8 =>
    let w := (List.range 12).foldl (startPort b.ports) w
    { w with hub := { w.hub with fdev := b.fdev % 640 } }
  | 9 => { w with hub := { w.hub with ready := true, replme := BitVec.ofNat 64 (replmeBits w) } }
  | _ => w

/-- A bring-up step: its number stands in BOOTST as it starts. -/
def bootStep (e : Env) (w : W) (b : BringUp) : W :=
  let n := w.hub.boot + 1
  bootAct e { w with hub := { w.hub with boot := n } } b n

/-- DEVICE_BRING_UP: the next of the hub's nine steps after power-on or a device reset; none after a failed one. -/
def execDeviceBringUp (b : BringUp) (s : State) :=
  event (fun e w => if w.hub.failed ∨ 9 ≤ w.hub.boot then w else bootStep e w b) s

/-! TDISP and SPDM (R106, R195). -/

/-- TDISP_STATE_CHANGE: CONFIG_UNLOCKED 0, CONFIG_LOCKED 1, RUN 2, ERROR 3: locked from unlocked, RUN from locked. -/
def execTdispStateChange (n : FnNo) (st : Fin 4) (s : State) :=
  event (fun _ w =>
    let now := (fn w n.val).tdisp
    if n.val = 0 ∨ (st.val = 1 ∧ now ≠ 0) ∨ (st.val = 2 ∧ now ≠ 1) then w
    else updFn w n.val fun f => { f with tdisp := st.val }) s

/-- What the security core answers a requester: named content, not SPDM's own message format (log entry 12). -/
def spdmAnswer (w : W) (l : List Nat) : W := { w with sec := { w.sec with spdmOut := l } }

/-- SPDM_NEGOTIATE_ALGORITHMS: version 1.4 with the one signature algorithm, hash and key establishment; an error otherwise. -/
def execSpdmNegotiateAlgorithms (version : Nat) (mldsa44 sha3_256 mlkem768 : Bool) (s : State) :=
  event (fun _ w =>
    let ok := version == 0x14 && mldsa44 && sha3_256 && mlkem768
    let w := { w with sec := { w.sec with spdmOk := ok, session := none } }
    if ok then reply (spdmAnswer w [0x14, 44, 256, 768]) .done else reply (spdmAnswer w []) .error) s

/-- SPDM_KEY_EXCHANGE: a session key with ML-KEM-768, once algorithms are negotiated: of the IDE streams, or of a Celile link, whose
traffic is encrypted from then on (R195, R196). -/
def execSpdmKeyExchange (mlkem768 : Bool) (x : KeyOffer) (s : State) :=
  event (fun _ w =>
    if !w.sec.spdmOk ∨ !mlkem768 then reply w .error
    else
      let k := Config.spdmKey [x.peer.toNat]
      match x.link with
      | none => reply { w with sec := { w.sec with session := some k } } .done
      | some n => reply (updPort w n.val fun p => { p with key := some k }) .done) s

/-- The content of a measurement block (R195). -/
def measured (e : Env) (w : W) (index : Nat) : List Nat :=
  match index with
  | 4 => e.fix.harv0.toNat :: e.fix.harv1.toNat :: (buildLpt e.fix).map (·.toNat)
  | 5 => (liveParts w).flatMap fun p =>
      p :: (part w p).root :: (w.hub.matrix.filter fun (r, _) => rowPart w r == some p).flatMap fun (r, m) => [r, m.toNat]
  | 6 => (liveParts w).flatMap fun p => p :: (part w p).veract
  | 7 => (List.range 288).map fun q => (quad w q).world
  | i => [i]

/-- SPDM_GET_MEASUREMENTS: block 1 to 7. -/
def execSpdmGetMeasurements (index : Nat) (s : State) :=
  event (fun e w =>
    if index = 0 ∨ 7 < index then reply w .error
    else reply (spdmAnswer w [index, (Config.spdmDigest (index :: measured e w index)).toNat]) .done) s

end Sys2Proof.Machine
end

