-- ==== Sys2Proof/Machine/LaneCtl.lean ====
section
/-! DEFINITION. Lane control 0x56 to 0x5F: branches, calls, RECON, LEXIT, traps, NOP, SPINH (R264 to R269). -/

namespace Sys2Proof.Machine

/-- Whether the turn lane takes a backward transfer (R145, R264). -/
def goesBack (s : Sel) (on : Mask) (target : Nat → Word) : Bool :=
  match s.turn with
  | some t => mHas on t.lane && decide (target t.lane < s.pc)
  | none => false

/-- The executing lanes at their targets, the others of X advanced (R264). -/
def moveLanes (c : Course) (x on : Mask) (target : Nat → Word) : Course :=
  setLpcs (advance c (x &&& ~~~on) 4) on target

/-- A direct transfer (R264). -/
def laneJump (h : Hd) (off : Word) : Meaning := fun e w s =>
  let on := lanesOn s.c h s.x
  guarded e w s (laneUses h Uses.none) h.sw (readers s.c h s.x) fun w =>
    let t := fun _ => s.pc + off
    done e w (moveLanes s.c s.x on t) s h.sw (goesBack s on t)

/-- A register transfer; a target that is not a multiple of 4 raises MISALIGN (R264). -/
def laneJumpReg (h : Hd) (a : R64) : Meaning := fun e w s =>
  let on := lanesOn s.c h s.x
  let u := laneUses h { Uses.none with v := [a.val] }
  staged e w s u h.sw fun w =>
    let bad := on &&& mkMask fun k => (vAt s.c a k).toNat % 4 != 0
    if bad ≠ 0 then faulted e w s.c s fun w c => faultFree e w c 0x03 bad (vNum c a)
    else sourced e w s u (readers s.c h s.x) fun w =>
      done e w (moveLanes s.c s.x on (vAt s.c a)) s h.sw (goesBack s on (vAt s.c a))

def execBra (h : Hd) (o : Fin 1048576) (s : State) := runIssue (laneJump h (branchOff 20 o.val)) s
def execBrx (h : Hd) (a : R64) (s : State) := runIssue (laneJumpReg h a) s

/-- CALL: the return address is an immediate-class result (R264). -/
def execCall (h : Hd) (d : R64) (i : Fin 16384) (s : State) :=
  runIssue (fun e w s =>
    let on := lanesOn s.c h s.x
    guarded e w s (laneUses h { Uses.none with d := [d.val] }) h.sw (readers s.c h s.x) fun w =>
      let t := fun _ => s.pc + branchOff 14 i.val
      let c := putV s.c d.val on (resultLine on fun _ => s.pc + 4)
      done e w (moveLanes c s.x on t) s h.sw (goesBack s on t)) s

def execRet (h : Hd) (a : R64) (s : State) := runIssue (fun e w s => laneJumpReg h a e w s) s

/-- RECON: convergence is the issue rule's; it advances every lane (R265). -/
def execRecon (h : Hd) (s : State) :=
  runIssue (fun e w s => guarded e w s (laneUses h Uses.none) h.sw (readers s.c h s.x) fun w =>
    done e w (advance s.c s.x 4) s h.sw false) s

/-- LEXIT (R266). -/
def execLexit (h : Hd) (s : State) :=
  runIssue (fun e w s =>
    let on := lanesOn s.c h s.x
    guarded e w s (laneUses h Uses.none) h.sw (readers s.c h s.x) fun w =>
      done e w (setStOf (advance s.c (s.x &&& ~~~on) 4) on 3) s h.sw false) s

/-- TRAP and BKPT: the lanes advance, the course parks with one entry (R267). -/
def trapWith (h : Hd) (cause code : Nat) : Meaning := fun e w s =>
  let on := lanesOn s.c h s.x
  guarded e w s (laneUses h Uses.none) h.sw (readers s.c h s.x) fun w =>
    if on = 0 then done e w (advance s.c s.x 4) s h.sw false
    else
      let slot := slotOfMask s.c on
      let x := entryOf s.c cause slot on (s.c.id.cbase.toNat + s.pc.toNat) (slotAsid s.c slot) s.pc.toNat
        0 code false
      let (w, c) := settle e w (advance s.c s.x 4) s h.sw false
      takeFaults e w c [x] none

def execTrap (h : Hd) (i : Fin 16384) (s : State) := runIssue (trapWith h 0x08 i.val) s
def execBkpt (h : Hd) (i : Fin 16384) (s : State) := runIssue (trapWith h 0x09 i.val) s

/-- NOP (R268). -/
def execNop (h : Hd) (s : State) :=
  runIssue (fun e w s => guarded e w s (laneUses h Uses.none) h.sw (readers s.c h s.x) fun w =>
    done e w (advance s.c s.x 4) s h.sw false) s

/-- SPINH: 15 more on the wait counts of the free lanes outside X (R269). -/
def execSpinh (h : Hd) (s : State) :=
  runIssue (fun e w s =>
    let on := lanesOn s.c h s.x
    guarded e w s (laneUses h Uses.none) h.sw (readers s.c h s.x) fun w =>
      let c := advance s.c s.x 4
      let wait := (List.range 32).map fun k =>
        nth c.k.wait k 0 + (if on != 0 && mHas s.free k && !mHas s.x k then 15 else 0)
      done e w { c with k := { c.k with wait := wait } } s h.sw false) s

end Sys2Proof.Machine
end

