-- ==== Sys2Proof/Machine/LaneFloat.lean ====
section
/-! DEFINITION. Lane instructions 0x28 to 0x3F: floating point, conversions and RAND (R238 to R248). -/

namespace Sys2Proof.Machine

/-- A two-source floating-point instruction. -/
def laneFF (h : Hd) (d a b : R64) (f : Nat → Nat → Nat × Nat) : Meaning :=
  laneF h [a.val, b.val] d.val fun c k => f (vNum c a k) (vNum c b k)

/-- A one-source floating-point instruction. -/
def laneFR (h : Hd) (d a : R64) (f : Nat → Nat × Nat) : Meaning := laneF h [a.val] d.val fun c k => f (vNum c a k)

/-- A deferred one-source floating-point instruction (R241). -/
def laneDR (h : Hd) (d a : R64) (f : Nat → Nat × Nat) : Meaning := laneDef h [a.val] [] d.val fun _ c k => f (vNum c a k)

/-- Both FP16 halves of words, flags ORed (R242). -/
def halves (f : Nat → Nat → Nat → Nat × Nat) (a b d : Nat) : Nat × Nat :=
  let (l, x) := f (a % 65536) (b % 65536) (d % 65536)
  let (g, y) := f (a / 65536) (b / 65536) (d / 65536)
  (l + g * 65536, x ||| y)

def execFadd (h : Hd) (d a b : R64) (m : Rm) (s : State) := runIssue (laneFF h d a b (fp32.add m)) s
def execFsub (h : Hd) (d a b : R64) (m : Rm) (s : State) := runIssue (laneFF h d a b (fp32.sub m)) s
def execFmul (h : Hd) (d a b : R64) (m : Rm) (s : State) := runIssue (laneFF h d a b (fp32.mul m)) s
def execFmac (h : Hd) (d a b : R64) (m : Rm) (s : State) :=
  runIssue (laneF h [a.val, b.val, d.val] d.val fun c k => fp32.fma m (vNum c a k) (vNum c b k) (vNum c d k)) s
def execFmin (h : Hd) (d a b : R64) (s : State) := runIssue (laneFF h d a b (fp32.minmax false)) s
def execFmax (h : Hd) (d a b : R64) (s : State) := runIssue (laneFF h d a b (fp32.minmax true)) s

/-- FCMP (R240). -/
def execFcmp (h : Hd) (p : R8) (cc : Cc) (a b : R64) (s : State) :=
  runIssue (lanePred h [a.val, b.val] [] p.val fun c k =>
    let x := fp32.decode (vNum c a k)
    let y := fp32.decode (vNum c b k)
    (fcmpRel cc x y, fcmpFlags cc x y)) s

/-- The sign that FSGN chooses (R239). -/
def sgnOf (o : SgnOp) (a b : Word) : Bool :=
  match o with
  | .copy => b.msb
  | .inv => !b.msb
  | .xor => a.msb != b.msb

/-- FSGN (R239). -/
def execFsgn (h : Hd) (d a b : R64) (o : SgnOp) (s : State) :=
  runIssue (laneRR h d a b fun x y => bvSet x 31 1 (sgnOf o x y).toNat) s

def execFrcp (h : Hd) (d a : R64) (s : State) := runIssue (laneDR h d a frcp) s
def execFrsq (h : Hd) (d a : R64) (s : State) := runIssue (laneDR h d a frsq) s
def execFsqrt (h : Hd) (d a : R64) (m : Rm) (s : State) := runIssue (laneDR h d a (fsqrt m)) s
def execFdiv (h : Hd) (d a b : R64) (m : Rm) (s : State) :=
  runIssue (laneDef h [a.val, b.val] [] d.val fun _ c k => fdiv m (vNum c a k) (vNum c b k)) s
def execLog2 (h : Hd) (d a : R64) (m : Rm) (s : State) := runIssue (laneDR h d a (flog2 m)) s
def execExp2 (h : Hd) (d a : R64) (m : Rm) (s : State) := runIssue (laneDR h d a (fexp2 m)) s
def execFclass (h : Hd) (d a : R64) (s : State) := runIssue (laneFR h d a fun x => (fclass x, 0)) s

/-- CVT (R244): a the source, r the prior destination. -/
def cvt (o : CvtOp) (m : Rm) (a r : Nat) : Nat × Nat :=
  let word := fun (x : Int × Nat) => ((BitVec.ofInt 32 x.1).toNat, x.2)
  match o with
  | .i32F32 => word (cvtInt m (-2 ^ 31) (2 ^ 31 - 1) a)
  | .u32F32 => word (cvtInt m 0 (2 ^ 32 - 1) a)
  | .i8F32 => word (cvtInt m (-128) 127 a)
  | .intF32 => cvtIntegral m a
  | .f32I32 => fp32.ofFv m (ofInt (BitVec.ofNat 32 a).toInt)
  | .f32U32 => fp32.ofFv m (ofInt a)
  | .f32I8 => fp32.ofFv m (ofInt (BitVec.ofNat 8 a).toInt)
  | .f16F32 => fp16.ofFv m (fp32.decode a)
  | .bf16F32 => bf16.ofFv m (fp32.decode a)
  | .f32F16 hi => fp32.ofFv .rne (fp16.decode (bitsAt a (if hi then 16 else 0) 16))
  | .f32BF16 hi => fp32.ofFv .rne (bf16.decode (bitsAt a (if hi then 16 else 0) 16))
  | .f32L6 => fp32.ofFv .rne (l6Decode (a % 64))
  | .f16SR => fp16.ofFvSr r (fp32.decode a)
  | .bf16SR => bf16.ofFvSr r (fp32.decode a)

/-- CVT: the stochastic forms read the destination (R227, R244). -/
def execCvt (h : Hd) (d a : R64) (o : CvtOp) (m : Rm) (s : State) :=
  runIssue (laneF h (a.val :: match o with | .f16SR | .bf16SR => [d.val] | _ => []) d.val fun c k =>
    cvt o m (vNum c a k) (vNum c d k)) s

def execHadd2 (h : Hd) (d a b : R64) (m : Rm) (s : State) :=
  runIssue (laneFF h d a b fun a b => halves (fun x y _ => fp16.add m x y) a b 0) s
def execHmul2 (h : Hd) (d a b : R64) (m : Rm) (s : State) :=
  runIssue (laneFF h d a b fun a b => halves (fun x y _ => fp16.mul m x y) a b 0) s
def execHmac2 (h : Hd) (d a b : R64) (m : Rm) (s : State) :=
  runIssue (laneF h [a.val, b.val, d.val] d.val fun c k => halves (fp16.fma m) (vNum c a k) (vNum c b k) (vNum c d k)) s

/-- FMAXX on register pairs (R243). -/
def execFmaxx (h : Hd) (d a b : R64) (s : State) :=
  runIssue (laneImm h { Uses.none with v := pairOf a.val ++ pairOf b.val, d := pairOf d.val } fun c k =>
    let at_ := fun r => (laneOf (getV c r) k).toNat
    let (v, i, x) := fmaxx (at_ a.val) (at_ (a.val + 1)) (at_ b.val) (at_ (b.val + 1))
    ([BitVec.ofNat 32 v, BitVec.ofNat 32 i], x)) s

/-- CVTL6 (R247). -/
def execCvtl6 (h : Hd) (d a b : R64) (s : State) := runIssue (laneFF h d a b fun x y => cvtL6 x (y % 256)) s

/-- CVTF8 (R245). -/
def cvtf8 (o : Cvt8Op) (m : Rm) (a r : Nat) : Nat × Nat :=
  match o with
  | .narrow g sr =>
    let f := if g then e5m2 else e4m3
    if sr then f.ofFvSr r (fp32.decode a) else f.ofFv m (fp32.decode a)
  | .widen g j => fp32.ofFv .rne ((if g then e5m2 else e4m3).decode (bitsAt a (8 * j.val) 8))

def execCvtf8 (h : Hd) (d a : R64) (o : Cvt8Op) (m : Rm) (s : State) :=
  runIssue (laneF h (a.val :: match o with | .narrow _ true => [d.val] | _ => []) d.val fun c k =>
    cvtf8 o m (vNum c a k) (vNum c d k)) s

/-- SCLX (R246). -/
def sclx (o : SclxOp) (m : Rm) (a d : Nat) : Nat × Nat :=
  match o with
  | .e4m3 => sclxDerive (.limit 448) a
  | .e5m2 => sclxDerive (.limit 57344) a
  | .l6 => sclxDerive .l6 a
  | .i8 => sclxDerive (.limit 127) a
  | .apply => sclxApply m a (d % 256)

def execSclx (h : Hd) (d a : R64) (o : SclxOp) (m : Rm) (s : State) :=
  runIssue (laneF h (a.val :: if o = .apply then [d.val] else []) d.val fun c k => sclx o m (vNum c a k) (vNum c d k)) s

/-- RAND: the key is an S register (R248). -/
def execRand (h : Hd) (d a b : R64) (u : Bool) (s : State) :=
  runIssue (laneImm h { Uses.none with v := [a.val], s := [b.val], d := [d.val] } fun c k =>
    let r := randHash (getS c b.val) (vAt c a k)
    ([if u then BitVec.ofNat 32 (randU r) else r], 0)) s

end Sys2Proof.Machine
end

