-- ==== Sys2Proof/Machine/LaneXchg.lean ====
section
/-! DEFINITION. Cross-lane exchange 0x50 to 0x55: SHFL, VOTE, REDL, SCANL, WIDX, OWNQ (R258 to R263). -/

namespace Sys2Proof.Machine

/-- The partners of lane k: executing lanes of its owner (R258). -/
def partners (on : Mask) (c : Course) (k : Nat) : Mask := mkMask fun j => mHas on j && own c j == own c k

/-- The rank of a lane among its owner's lanes (R263). -/
def rankOf (c : Course) (k : Nat) : Nat := ((mLanes (ownerLanes c k)).filter (· < k)).length

/-- The source lane of SHFL (R259): `b` the operand or step. -/
def shflLane (o : ShflOp) (c : Course) (k : Nat) (b : R64) : Option Nat :=
  match o with
  | .lane => let j := vNum c b k; if j < 32 then some j else none
  | .step =>
    let j : Int := (k : Int) + (if b.val < 32 then (b.val : Int) else (b.val : Int) - 64)
    if 0 ≤ j ∧ j < 32 then some j.toNat else none
  | .rank => (mLanes (ownerLanes c k)).find? fun j => rankOf c j == vNum c b k
  | .flip => some (k ^^^ b.val)

/-- SHFL (R259): the own operand where the source is no partner. -/
def execShfl (h : Hd) (d a b : R64) (o : ShflOp) (s : State) :=
  runIssue (laneDef h (a.val :: match o with | .lane | .rank => [b.val] | _ => []) (ownSect (o == .rank)) d.val fun on c k =>
    match shflLane o c k b with
    | some j => (if mHas (partners on c k) j then vNum c a j else vNum c a k, 0)
    | none => (vNum c a k, 0)) s

/-- VOTE's result for a lane (R260). -/
def voteOf (o : VoteOp) (c : Course) (m : Mask) (a : R64) (k : Nat) : Nat :=
  let ls := mLanes m
  match o with
  | .any => (ls.any fun j => vAt c a j != 0).toNat
  | .all => (ls.all fun j => vAt c a j != 0).toNat
  | .mask => (mkMask fun j => mHas m j && vAt c a j != 0).toNat
  | .maskRank => (mkMask fun r => ls.any fun j => rankOf c j == r && vAt c a j != 0).toNat
  | .same => (ls.all fun j => vAt c a j == vAt c a k).toNat

/-- VOTE (R260). -/
def execVote (h : Hd) (d a : R64) (o : VoteOp) (s : State) :=
  runIssue (laneDef h [a.val] (ownSect (o == .maskRank)) d.val fun on c k => (voteOf o c (partners on c k) a k, 0)) s

/-- The exact sum of values, rounded once (R261). -/
def sumExact (m : Rm) (l : List Nat) : Nat × Nat :=
  let vs := l.map fp32.decode
  if vs = [] then (0x80000000, 0)
  else if vs.any Fv.isNan then (fp32.qnan, nvIf (vs.any Fv.isSnan))
  else
    let pos := vs.any fun v => v == .inf false
    let neg := vs.any fun v => v == .inf true
    if pos && neg then (fp32.qnan, flagNV)
    else if pos then (fp32.infBits false, 0)
    else if neg then (fp32.infBits true, 0)
    else
      let n := vs.foldl (fun (n : Int) v => match v with
        | .fin s k e => n + scaled s k e (-149)
        | _ => n) 0
      if n = 0 then
        (fp32.sign (vs.all (fun v => v.isZero && v.neg) || m == .rd), 0)
      else fp32.round m (decide (n < 0)) n.natAbs (-149) false

/-- An integer or logic combination (R261). -/
def redWord (o : RedOp) (a b : Word) : Word :=
  match o with
  | .iadd => a + b
  | .imin => minmaxW false false a b
  | .imax => minmaxW true false a b
  | .iminU => minmaxW false true a b
  | .imaxU => minmaxW true true a b
  | .and => a &&& b
  | .or => a ||| b
  | .xor => a ^^^ b
  | .fadd | .fmin | .fmax => a

/-- The identity of an operation (R261). -/
def redIdentity (o : RedOp) : Word :=
  match o with
  | .iadd => 0
  | .imin => 0x7FFFFFFF
  | .imax => 0x80000000
  | .iminU => 0xFFFFFFFF
  | .imaxU => 0
  | .and => 0xFFFFFFFF
  | .or => 0
  | .xor => 0
  | .fadd => 0x80000000
  | .fmin => 0x7FC00000
  | .fmax => 0x7FC00000

/-- The combination of a lane's operand set (R261). -/
def reduce (o : RedOp) (m : Rm) (l : List Word) : Nat × Nat :=
  match o with
  | .fadd => sumExact m (l.map (·.toNat))
  | .fmin => match l with
    | [] => (0x7FC00000, 0)
    | x :: r => r.foldl (fun (v, f) y => let (z, g) := fp32.minmax false v y.toNat; (z, f ||| g)) (oneMin x)
  | .fmax => match l with
    | [] => (0x7FC00000, 0)
    | x :: r => r.foldl (fun (v, f) y => let (z, g) := fp32.minmax true v y.toNat; (z, f ||| g)) (oneMin x)
  | o => ((l.foldl (redWord o) (redIdentity o)).toNat, 0)
where
  /-- A single operand of FMIN or FMAX against the identity: a NaN becomes canonical, a signalling one sets NV. -/
  oneMin (x : Word) : Nat × Nat :=
    let v := fp32.decode x.toNat
    (if v.isNan then fp32.qnan else x.toNat, nvIf v.isSnan)

/-- The operand set of SCANL for lane k (R261). -/
def scanSet (m : Mask) (ex : Bool) (k : Nat) : Mask := mkMask fun j => mHas m j && (j < k || (j == k && !ex))

/-- REDL (R261). -/
def execRedl (h : Hd) (d a : R64) (o : RedOp) (m : Rm) (s : State) :=
  runIssue (laneDef h [a.val] (ownSect false) d.val fun on c k => reduce o m ((mLanes (partners on c k)).map (vAt c a))) s

/-- SCANL (R261). -/
def execScanl (h : Hd) (d a : R64) (o : RedOp) (ex : Bool) (m : Rm) (s : State) :=
  runIssue (laneDef h [a.val] (ownSect false) d.val fun on c k =>
    reduce o m ((mLanes (scanSet (partners on c k) ex k)).map (vAt c a))) s

/-- A lane's work-identifier field (R137, R262). -/
def widField (c : Course) (k f : Nat) : Nat :=
  bitsAt (c.id.wid + k) (sumNat (c.id.widths.take f)) (nth c.id.widths f 0)

/-- WIDX (R262). -/
def execWidx (h : Hd) (d : R64) (f : Fin 6) (hi : Bool) (s : State) :=
  runIssue (lane1 h [] d.val fun c k => BitVec.ofNat 32 (widField c k f.val / 2 ^ (if hi then 32 else 0))) s

/-- OWNQ (R263). -/
def execOwnq (h : Hd) (d : R64) (o : OwnqOp) (s : State) :=
  runIssue (laneImm h { Uses.none with d := [d.val], sect := ownSect (o != .slot) } fun c k => ([match o with
    | .slot => BitVec.ofNat 32 (own c k)
    | .mask => ownerLanes c k
    | .rank => BitVec.ofNat 32 (rankOf c k)
    | .count => BitVec.ofNat 32 (mCount (ownerLanes c k))], 0)) s

end Sys2Proof.Machine
end

