-- ==== Sys2Proof/Machine/UniScalar.lean ====
section
/-! DEFINITION. Uniform scalar instructions 0x00 to 0x0F and 0x14 to 0x17 (R274, R278). -/

namespace Sys2Proof.Machine

/-- A two-source scalar instruction. -/
def uniRR (h : Hd) (d a b : R64) (f : Word → Word → Word) : Meaning :=
  uniS h [a.val, b.val] [] fun c => [(d.val, f (getS c a.val) (getS c b.val))]

/-- SMUL's parts (R274). -/
def mulPart (m : MulPart) (a b : Word) : Word :=
  match m with
  | .lo => a * b
  | .hi => mulHigh false a b
  | .hiu => mulHigh true a b

def execSadd (h : Hd) (d a b : R64) (m : Sat) (s : State) := runIssue (uniRR h d a b (addSat m)) s
def execSsub (h : Hd) (d a b : R64) (m : Sat) (s : State) := runIssue (uniRR h d a b (subSat m)) s
def execSmul (h : Hd) (d a b : R64) (m : MulPart) (s : State) := runIssue (uniRR h d a b (mulPart m)) s
def execSand (h : Hd) (d a b : R64) (s : State) := runIssue (uniRR h d a b (· &&& ·)) s
def execSor (h : Hd) (d a b : R64) (s : State) := runIssue (uniRR h d a b (· ||| ·)) s
def execSxor (h : Hd) (d a b : R64) (s : State) := runIssue (uniRR h d a b (· ^^^ ·)) s
def execSshl (h : Hd) (d a b : R64) (s : State) := runIssue (uniRR h d a b shlW) s
def execSshr (h : Hd) (d a b : R64) (s : State) := runIssue (uniRR h d a b shrW) s
def execSsar (h : Hd) (d a b : R64) (s : State) := runIssue (uniRR h d a b sarW) s
def execSmin (h : Hd) (d a b : R64) (u : Bool) (s : State) := runIssue (uniRR h d a b (minmaxW false u)) s
def execSmax (h : Hd) (d a b : R64) (u : Bool) (s : State) := runIssue (uniRR h d a b (minmaxW true u)) s
def execScmp (h : Hd) (p : R8) (cc : Cc) (a b : R64) (u : Bool) (s : State) :=
  runIssue (uniQ h [a.val, b.val] [] p.val fun c => cmpRel cc u (getS c a.val) (getS c b.val)) s
def execSaddi (h : Hd) (d a : R64) (i : Fin 256) (s : State) :=
  runIssue (uniS h [a.val] [] fun c => [(d.val, getS c a.val + immS 8 i.val)]) s
def execSmovi (h : Hd) (d : R64) (i : Fin 16384) (s : State) :=
  runIssue (uniS h [] [] fun _ => [(d.val, immS 14 i.val)]) s

/-- SMOVL: the issue unit advances past both words, guard or not (R219, R272). -/
def execSmovl (h : Hd) (d : R64) (lit : Word) (s : State) :=
  runIssue (uniformL h Uses.none 8 (fun _ _ => none) fun e w s => sourced e w s (uniUses h Uses.none) s.x fun w =>
    done e w (advance (putS s.c d.val lit) s.x 8) s h.sw false) s

def execSmov (h : Hd) (d a : R64) (s : State) := runIssue (uniS h [a.val] [] fun c => [(d.val, getS c a.val)]) s
def execQlog (h : Hd) (p : R8) (o : LogOp) (a b : R8) (s : State) :=
  runIssue (uniQ h [] [a.val, b.val] p.val fun c => logRel o (getQ c a.val) (getQ c b.val)) s
def execScsel (h : Hd) (d a b : R64) (n : Fin 4) (s : State) :=
  runIssue (uniS h [a.val, b.val] [n.val] fun c => [(d.val, if getQ c n.val then getS c a.val else getS c b.val)]) s
def execSbfx (h : Hd) (d a b : R64) (sg : Bool) (s : State) := runIssue (uniRR h d a b (bfxW sg)) s
def execSpopc (h : Hd) (d a b : R64) (s : State) := runIssue (uniRR h d a b fun x y => popcW (x &&& y)) s

end Sys2Proof.Machine
end

