-- ==== Sys2Proof/Machine/Dispatch.lean ====
section
/-! DEFINITION. One arm for each instruction and event: a direct call of its meaning. -/

namespace Sys2Proof.Machine

/-- The outcome of an instruction or event in a state. -/
def exec (i : Instr) (s : State) : Host.Outcome State Fault Refusal :=
  match i with
  | .iadd x1 x2 x3 x4 x5 => Sys2Proof.Machine.execIadd x1 x2 x3 x4 x5 s
  | .isub x1 x2 x3 x4 x5 => Sys2Proof.Machine.execIsub x1 x2 x3 x4 x5 s
  | .imul x1 x2 x3 x4 => Sys2Proof.Machine.execImul x1 x2 x3 x4 s
  | .imulh x1 x2 x3 x4 x5 => Sys2Proof.Machine.execImulh x1 x2 x3 x4 x5 s
  | .imad x1 x2 x3 x4 => Sys2Proof.Machine.execImad x1 x2 x3 x4 s
  | .imin x1 x2 x3 x4 x5 => Sys2Proof.Machine.execImin x1 x2 x3 x4 x5 s
  | .imax x1 x2 x3 x4 x5 => Sys2Proof.Machine.execImax x1 x2 x3 x4 x5 s
  | .iabs x1 x2 x3 x4 => Sys2Proof.Machine.execIabs x1 x2 x3 x4 s
  | .and x1 x2 x3 x4 => Sys2Proof.Machine.execAnd x1 x2 x3 x4 s
  | .or x1 x2 x3 x4 => Sys2Proof.Machine.execOr x1 x2 x3 x4 s
  | .xor x1 x2 x3 x4 => Sys2Proof.Machine.execXor x1 x2 x3 x4 s
  | .andn x1 x2 x3 x4 => Sys2Proof.Machine.execAndn x1 x2 x3 x4 s
  | .shl x1 x2 x3 x4 => Sys2Proof.Machine.execShl x1 x2 x3 x4 s
  | .shr x1 x2 x3 x4 => Sys2Proof.Machine.execShr x1 x2 x3 x4 s
  | .sar x1 x2 x3 x4 => Sys2Proof.Machine.execSar x1 x2 x3 x4 s
  | .rotl x1 x2 x3 x4 => Sys2Proof.Machine.execRotl x1 x2 x3 x4 s
  | .popc x1 x2 x3 => Sys2Proof.Machine.execPopc x1 x2 x3 s
  | .clz x1 x2 x3 => Sys2Proof.Machine.execClz x1 x2 x3 s
  | .brev x1 x2 x3 => Sys2Proof.Machine.execBrev x1 x2 x3 s
  | .bfx x1 x2 x3 x4 x5 => Sys2Proof.Machine.execBfx x1 x2 x3 x4 x5 s
  | .bfi x1 x2 x3 x4 => Sys2Proof.Machine.execBfi x1 x2 x3 x4 s
  | .sel x1 x2 x3 x4 x5 => Sys2Proof.Machine.execSel x1 x2 x3 x4 x5 s
  | .icmp x1 x2 x3 x4 x5 x6 => Sys2Proof.Machine.execIcmp x1 x2 x3 x4 x5 x6 s
  | .lea x1 x2 x3 x4 x5 => Sys2Proof.Machine.execLea x1 x2 x3 x4 x5 s
  | .iaddi x1 x2 x3 x4 => Sys2Proof.Machine.execIaddi x1 x2 x3 x4 s
  | .imuli x1 x2 x3 x4 => Sys2Proof.Machine.execImuli x1 x2 x3 x4 s
  | .andi x1 x2 x3 x4 => Sys2Proof.Machine.execAndi x1 x2 x3 x4 s
  | .ori x1 x2 x3 x4 => Sys2Proof.Machine.execOri x1 x2 x3 x4 s
  | .xori x1 x2 x3 x4 => Sys2Proof.Machine.execXori x1 x2 x3 x4 s
  | .shli x1 x2 x3 x4 => Sys2Proof.Machine.execShli x1 x2 x3 x4 s
  | .shri x1 x2 x3 x4 => Sys2Proof.Machine.execShri x1 x2 x3 x4 s
  | .sari x1 x2 x3 x4 => Sys2Proof.Machine.execSari x1 x2 x3 x4 s
  | .movi x1 x2 x3 => Sys2Proof.Machine.execMovi x1 x2 x3 s
  | .movl x1 x2 x3 => Sys2Proof.Machine.execMovl x1 x2 x3 s
  | .mov x1 x2 x3 => Sys2Proof.Machine.execMov x1 x2 x3 s
  | .movs x1 x2 x3 => Sys2Proof.Machine.execMovs x1 x2 x3 s
  | .plog x1 x2 x3 x4 x5 => Sys2Proof.Machine.execPlog x1 x2 x3 x4 x5 s
  | .psetv x1 x2 x3 => Sys2Proof.Machine.execPsetv x1 x2 x3 s
  | .pgetv x1 x2 x3 x4 => Sys2Proof.Machine.execPgetv x1 x2 x3 x4 s
  | .icmpi x1 x2 x3 x4 x5 => Sys2Proof.Machine.execIcmpi x1 x2 x3 x4 x5 s
  | .fadd x1 x2 x3 x4 x5 => Sys2Proof.Machine.execFadd x1 x2 x3 x4 x5 s
  | .fsub x1 x2 x3 x4 x5 => Sys2Proof.Machine.execFsub x1 x2 x3 x4 x5 s
  | .fmul x1 x2 x3 x4 x5 => Sys2Proof.Machine.execFmul x1 x2 x3 x4 x5 s
  | .fmac x1 x2 x3 x4 x5 => Sys2Proof.Machine.execFmac x1 x2 x3 x4 x5 s
  | .fmin x1 x2 x3 x4 => Sys2Proof.Machine.execFmin x1 x2 x3 x4 s
  | .fmax x1 x2 x3 x4 => Sys2Proof.Machine.execFmax x1 x2 x3 x4 s
  | .fcmp x1 x2 x3 x4 x5 => Sys2Proof.Machine.execFcmp x1 x2 x3 x4 x5 s
  | .fsgn x1 x2 x3 x4 x5 => Sys2Proof.Machine.execFsgn x1 x2 x3 x4 x5 s
  | .frcp x1 x2 x3 => Sys2Proof.Machine.execFrcp x1 x2 x3 s
  | .frsq x1 x2 x3 => Sys2Proof.Machine.execFrsq x1 x2 x3 s
  | .fsqrt x1 x2 x3 x4 => Sys2Proof.Machine.execFsqrt x1 x2 x3 x4 s
  | .fdiv x1 x2 x3 x4 x5 => Sys2Proof.Machine.execFdiv x1 x2 x3 x4 x5 s
  | .log2 x1 x2 x3 x4 => Sys2Proof.Machine.execLog2 x1 x2 x3 x4 s
  | .exp2 x1 x2 x3 x4 => Sys2Proof.Machine.execExp2 x1 x2 x3 x4 s
  | .fclass x1 x2 x3 => Sys2Proof.Machine.execFclass x1 x2 x3 s
  | .cvt x1 x2 x3 x4 x5 => Sys2Proof.Machine.execCvt x1 x2 x3 x4 x5 s
  | .hadd2 x1 x2 x3 x4 x5 => Sys2Proof.Machine.execHadd2 x1 x2 x3 x4 x5 s
  | .hmul2 x1 x2 x3 x4 x5 => Sys2Proof.Machine.execHmul2 x1 x2 x3 x4 x5 s
  | .hmac2 x1 x2 x3 x4 x5 => Sys2Proof.Machine.execHmac2 x1 x2 x3 x4 x5 s
  | .fmaxx x1 x2 x3 x4 => Sys2Proof.Machine.execFmaxx x1 x2 x3 x4 s
  | .cvtl6 x1 x2 x3 x4 => Sys2Proof.Machine.execCvtl6 x1 x2 x3 x4 s
  | .cvtf8 x1 x2 x3 x4 x5 => Sys2Proof.Machine.execCvtf8 x1 x2 x3 x4 x5 s
  | .sclx x1 x2 x3 x4 x5 => Sys2Proof.Machine.execSclx x1 x2 x3 x4 x5 s
  | .rand x1 x2 x3 x4 x5 => Sys2Proof.Machine.execRand x1 x2 x3 x4 x5 s
  | .ld x1 x2 x3 x4 x5 => Sys2Proof.Machine.execLd x1 x2 x3 x4 x5 s
  | .st x1 x2 x3 x4 x5 => Sys2Proof.Machine.execSt x1 x2 x3 x4 x5 s
  | .ldacq x1 x2 x3 x4 x5 => Sys2Proof.Machine.execLdacq x1 x2 x3 x4 x5 s
  | .strel x1 x2 x3 x4 x5 => Sys2Proof.Machine.execStrel x1 x2 x3 x4 x5 s
  | .lds x1 x2 x3 x4 x5 => Sys2Proof.Machine.execLds x1 x2 x3 x4 x5 s
  | .sts x1 x2 x3 x4 x5 => Sys2Proof.Machine.execSts x1 x2 x3 x4 x5 s
  | .ldl x1 x2 x3 x4 x5 => Sys2Proof.Machine.execLdl x1 x2 x3 x4 x5 s
  | .stl x1 x2 x3 x4 x5 => Sys2Proof.Machine.execStl x1 x2 x3 x4 x5 s
  | .atadd x1 x2 x3 x4 x5 x6 x7 => Sys2Proof.Machine.execAtadd x1 x2 x3 x4 x5 x6 x7 s
  | .atmax x1 x2 x3 x4 x5 x6 x7 => Sys2Proof.Machine.execAtmax x1 x2 x3 x4 x5 x6 x7 s
  | .atexch x1 x2 x3 x4 x5 x6 => Sys2Proof.Machine.execAtexch x1 x2 x3 x4 x5 x6 s
  | .atcas x1 x2 x3 x4 x5 x6 => Sys2Proof.Machine.execAtcas x1 x2 x3 x4 x5 x6 s
  | .atlog x1 x2 x3 x4 x5 x6 x7 => Sys2Proof.Machine.execAtlog x1 x2 x3 x4 x5 x6 x7 s
  | .atadds x1 x2 x3 x4 x5 x6 x7 => Sys2Proof.Machine.execAtadds x1 x2 x3 x4 x5 x6 x7 s
  | .atcass x1 x2 x3 x4 x5 => Sys2Proof.Machine.execAtcass x1 x2 x3 x4 x5 s
  | .pref x1 x2 x3 x4 => Sys2Proof.Machine.execPref x1 x2 x3 x4 s
  | .shfl x1 x2 x3 x4 x5 => Sys2Proof.Machine.execShfl x1 x2 x3 x4 x5 s
  | .vote x1 x2 x3 x4 => Sys2Proof.Machine.execVote x1 x2 x3 x4 s
  | .redl x1 x2 x3 x4 x5 => Sys2Proof.Machine.execRedl x1 x2 x3 x4 x5 s
  | .scanl x1 x2 x3 x4 x5 x6 => Sys2Proof.Machine.execScanl x1 x2 x3 x4 x5 x6 s
  | .widx x1 x2 x3 x4 => Sys2Proof.Machine.execWidx x1 x2 x3 x4 s
  | .ownq x1 x2 x3 => Sys2Proof.Machine.execOwnq x1 x2 x3 s
  | .bra x1 x2 => Sys2Proof.Machine.execBra x1 x2 s
  | .brx x1 x2 => Sys2Proof.Machine.execBrx x1 x2 s
  | .call x1 x2 x3 => Sys2Proof.Machine.execCall x1 x2 x3 s
  | .ret x1 x2 => Sys2Proof.Machine.execRet x1 x2 s
  | .recon x1 => Sys2Proof.Machine.execRecon x1 s
  | .lexit x1 => Sys2Proof.Machine.execLexit x1 s
  | .trap x1 x2 => Sys2Proof.Machine.execTrap x1 x2 s
  | .nop x1 => Sys2Proof.Machine.execNop x1 s
  | .bkpt x1 x2 => Sys2Proof.Machine.execBkpt x1 x2 s
  | .spinh x1 => Sys2Proof.Machine.execSpinh x1 s
  | .sadd x1 x2 x3 x4 x5 => Sys2Proof.Machine.execSadd x1 x2 x3 x4 x5 s
  | .ssub x1 x2 x3 x4 x5 => Sys2Proof.Machine.execSsub x1 x2 x3 x4 x5 s
  | .smul x1 x2 x3 x4 x5 => Sys2Proof.Machine.execSmul x1 x2 x3 x4 x5 s
  | .sand x1 x2 x3 x4 => Sys2Proof.Machine.execSand x1 x2 x3 x4 s
  | .sor x1 x2 x3 x4 => Sys2Proof.Machine.execSor x1 x2 x3 x4 s
  | .sxor x1 x2 x3 x4 => Sys2Proof.Machine.execSxor x1 x2 x3 x4 s
  | .sshl x1 x2 x3 x4 => Sys2Proof.Machine.execSshl x1 x2 x3 x4 s
  | .sshr x1 x2 x3 x4 => Sys2Proof.Machine.execSshr x1 x2 x3 x4 s
  | .ssar x1 x2 x3 x4 => Sys2Proof.Machine.execSsar x1 x2 x3 x4 s
  | .smin x1 x2 x3 x4 x5 => Sys2Proof.Machine.execSmin x1 x2 x3 x4 x5 s
  | .smax x1 x2 x3 x4 x5 => Sys2Proof.Machine.execSmax x1 x2 x3 x4 x5 s
  | .scmp x1 x2 x3 x4 x5 x6 => Sys2Proof.Machine.execScmp x1 x2 x3 x4 x5 x6 s
  | .saddi x1 x2 x3 x4 => Sys2Proof.Machine.execSaddi x1 x2 x3 x4 s
  | .smovi x1 x2 x3 => Sys2Proof.Machine.execSmovi x1 x2 x3 s
  | .smovl x1 x2 x3 => Sys2Proof.Machine.execSmovl x1 x2 x3 s
  | .smov x1 x2 x3 => Sys2Proof.Machine.execSmov x1 x2 x3 s
  | .sld x1 x2 x3 x4 x5 => Sys2Proof.Machine.execSld x1 x2 x3 x4 x5 s
  | .sst x1 x2 x3 x4 x5 => Sys2Proof.Machine.execSst x1 x2 x3 x4 x5 s
  | .argld x1 x2 x3 x4 => Sys2Proof.Machine.execArgld x1 x2 x3 x4 s
  | .vtos x1 x2 x3 x4 => Sys2Proof.Machine.execVtos x1 x2 x3 x4 s
  | .qlog x1 x2 x3 x4 x5 => Sys2Proof.Machine.execQlog x1 x2 x3 x4 x5 s
  | .scsel x1 x2 x3 x4 x5 => Sys2Proof.Machine.execScsel x1 x2 x3 x4 x5 s
  | .sbfx x1 x2 x3 x4 x5 => Sys2Proof.Machine.execSbfx x1 x2 x3 x4 x5 s
  | .spopc x1 x2 x3 x4 => Sys2Proof.Machine.execSpopc x1 x2 x3 x4 s
  | .ubra x1 x2 => Sys2Proof.Machine.execUbra x1 x2 s
  | .ucall x1 x2 x3 => Sys2Proof.Machine.execUcall x1 x2 x3 s
  | .uret x1 x2 => Sys2Proof.Machine.execUret x1 x2 s
  | .ujmpx x1 x2 => Sys2Proof.Machine.execUjmpx x1 x2 s
  | .exit x1 => Sys2Proof.Machine.execExit x1 s
  | .exitSucc x1 x2 => Sys2Proof.Machine.execExitSucc x1 x2 s
  | .yield x1 => Sys2Proof.Machine.execYield x1 s
  | .waittl x1 x2 x3 => Sys2Proof.Machine.execWaittl x1 x2 x3 s
  | .waittlDl x1 x2 x3 x4 x5 => Sys2Proof.Machine.execWaittlDl x1 x2 x3 x4 x5 s
  | .sleep x1 x2 => Sys2Proof.Machine.execSleep x1 x2 s
  | .bar x1 x2 x3 => Sys2Proof.Machine.execBar x1 x2 x3 s
  | .bara x1 x2 x3 => Sys2Proof.Machine.execBara x1 x2 x3 s
  | .bardl x1 x2 x3 x4 x5 => Sys2Proof.Machine.execBardl x1 x2 x3 x4 x5 s
  | .tktake x1 x2 x3 => Sys2Proof.Machine.execTktake x1 x2 x3 s
  | .tkserve x1 x2 => Sys2Proof.Machine.execTkserve x1 x2 s
  | .tkwait x1 x2 x3 => Sys2Proof.Machine.execTkwait x1 x2 x3 s
  | .fence x1 x2 => Sys2Proof.Machine.execFence x1 x2 s
  | .launchq x1 x2 x3 => Sys2Proof.Machine.execLaunchq x1 x2 x3 s
  | .dsetD x1 x2 x3 => Sys2Proof.Machine.execDsetD x1 x2 x3 s
  | .dsetA x1 x2 x3 x4 => Sys2Proof.Machine.execDsetA x1 x2 x3 x4 s
  | .dsetTl x1 x2 x3 => Sys2Proof.Machine.execDsetTl x1 x2 x3 s
  | .mma x1 x2 x3 x4 x5 x6 x7 => Sys2Proof.Machine.execMma x1 x2 x3 x4 x5 x6 x7 s
  | .azero x1 x2 x3 x4 => Sys2Proof.Machine.execAzero x1 x2 x3 x4 s
  | .astp x1 x2 x3 x4 x5 x6 => Sys2Proof.Machine.execAstp x1 x2 x3 x4 x5 x6 s
  | .aldp x1 x2 x3 x4 x5 x6 => Sys2Proof.Machine.execAldp x1 x2 x3 x4 x5 x6 s
  | .arow x1 x2 x3 x4 x5 x6 => Sys2Proof.Machine.execArow x1 x2 x3 x4 x5 x6 s
  | .scld x1 x2 x3 x4 x5 x6 => Sys2Proof.Machine.execScld x1 x2 x3 x4 x5 x6 s
  | .copy x1 x2 x3 x4 x5 => Sys2Proof.Machine.execCopy x1 x2 x3 x4 x5 s
  | .copym x1 x2 x3 x4 x5 => Sys2Proof.Machine.execCopym x1 x2 x3 x4 x5 s
  | .copyo x1 x2 x3 x4 x5 => Sys2Proof.Machine.execCopyo x1 x2 x3 x4 x5 s
  | .gather x1 x2 x3 x4 x5 => Sys2Proof.Machine.execGather x1 x2 x3 x4 x5 s
  | .coll x1 x2 x3 x4 => Sys2Proof.Machine.execColl x1 x2 x3 x4 s
  | .tlread x1 x2 x3 => Sys2Proof.Machine.execTlread x1 x2 x3 s
  | .tlsig x1 x2 x3 => Sys2Proof.Machine.execTlsig x1 x2 x3 s
  | .engst x1 x2 x3 x4 => Sys2Proof.Machine.execEngst x1 x2 x3 x4 s
  | .pswz x1 x2 x3 x4 x5 x6 x7 => Sys2Proof.Machine.execPswz x1 x2 x3 x4 x5 x6 x7 s
  | .mfsr x1 x2 x3 x4 => Sys2Proof.Machine.execMfsr x1 x2 x3 x4 s
  | .mtsr x1 x2 x3 x4 => Sys2Proof.Machine.execMtsr x1 x2 x3 x4 s
  | .tlbinvPage x1 x2 x3 => Sys2Proof.Machine.execTlbinvPage x1 x2 x3 s
  | .tlbinvAsid x1 x2 => Sys2Proof.Machine.execTlbinvAsid x1 x2 s
  | .tlbinvCtx x1 x2 => Sys2Proof.Machine.execTlbinvCtx x1 x2 s
  | .ctxfl x1 x2 x3 => Sys2Proof.Machine.execCtxfl x1 x2 x3 s
  | .haltbHalt x1 x2 x3 x4 => Sys2Proof.Machine.execHaltbHalt x1 x2 x3 x4 s
  | .haltbRelease x1 x2 x3 x4 => Sys2Proof.Machine.execHaltbRelease x1 x2 x3 x4 s
  | .engrst x1 x2 x3 x4 => Sys2Proof.Machine.execEngrst x1 x2 x3 x4 s
  | .keyopSet x1 x2 x3 => Sys2Proof.Machine.execKeyopSet x1 x2 x3 s
  | .keyopBump x1 x2 x3 => Sys2Proof.Machine.execKeyopBump x1 x2 x3 s
  | .keyopClear x1 x2 x3 => Sys2Proof.Machine.execKeyopClear x1 x2 x3 s
  | .keyopNewkey x1 x2 x3 => Sys2Proof.Machine.execKeyopNewkey x1 x2 x3 s
  | .svcall x1 x2 x3 x4 => Sys2Proof.Machine.execSvcall x1 x2 x3 x4 s
  | .fqheadWrite x1 x2 => Sys2Proof.Machine.execFqheadWrite x1 x2 s
  | .fqConfigWrite x1 x2 x3 => Sys2Proof.Machine.execFqConfigWrite x1 x2 x3 s
  | .convergenceIllop x1 => Sys2Proof.Machine.execConvergenceIllop x1 s
  | .reservedWordIssue x1 => Sys2Proof.Machine.execReservedWordIssue x1 s
  | .tagportWrite x1 x2 x3 x4 => Sys2Proof.Machine.execTagportWrite x1 x2 x3 x4 s
  | .poolTimerExpiry x1 x2 => Sys2Proof.Machine.execPoolTimerExpiry x1 x2 s
  | .celileMessage x1 x2 x3 x4 => Sys2Proof.Machine.execCelileMessage x1 x2 x3 x4 s
  | .launchQueueDepart x1 => Sys2Proof.Machine.execLaunchQueueDepart x1 s
  | .consortPlacement x1 => Sys2Proof.Machine.execConsortPlacement x1 s
  | .consortEnd x1 => Sys2Proof.Machine.execConsortEnd x1 s
  | .coalesceIntervalEnd x1 x2 => Sys2Proof.Machine.execCoalesceIntervalEnd x1 x2 s
  | .launchQueueCeilingChange x1 x2 => Sys2Proof.Machine.execLaunchQueueCeilingChange x1 x2 s
  | .resumableConsortReplace x1 x2 x3 => Sys2Proof.Machine.execResumableConsortReplace x1 x2 x3 s
  | .activation x1 x2 => Sys2Proof.Machine.execActivation x1 x2 s
  | .registerFillComplete x1 x2 => Sys2Proof.Machine.execRegisterFillComplete x1 x2 s
  | .lineSpillComplete x1 x2 => Sys2Proof.Machine.execLineSpillComplete x1 x2 s
  | .remoteLineRead x1 x2 => Sys2Proof.Machine.execRemoteLineRead x1 x2 s
  | .lazyClaim x1 x2 => Sys2Proof.Machine.execLazyClaim x1 x2 s
  | .deferredResultReturn x1 => Sys2Proof.Machine.execDeferredResultReturn x1 s
  | .chiselStep x1 x2 => Sys2Proof.Machine.execChiselStep x1 x2 s
  | .copyLine x1 x2 => Sys2Proof.Machine.execCopyLine x1 x2 s
  | .collChunk x1 x2 x3 => Sys2Proof.Machine.execCollChunk x1 x2 x3 s
  | .deadlineExpiry x1 => Sys2Proof.Machine.execDeadlineExpiry x1 s
  | .schedulingSliceEnd x1 => Sys2Proof.Machine.execSchedulingSliceEnd x1 s
  | .requestTimeout x1 x2 x3 x4 => Sys2Proof.Machine.execRequestTimeout x1 x2 x3 x4 s
  | .sliceRequest x1 => Sys2Proof.Machine.execSliceRequest x1 s
  | .pageWalkComplete x1 x2 x3 x4 => Sys2Proof.Machine.execPageWalkComplete x1 x2 x3 x4 s
  | .tlbInvalidationComplete x1 => Sys2Proof.Machine.execTlbInvalidationComplete x1 s
  | .atsInvalidationRequest x1 x2 x3 => Sys2Proof.Machine.execAtsInvalidationRequest x1 x2 x3 s
  | .atsTranslationCompletion x1 x2 x3 x4 x5 => Sys2Proof.Machine.execAtsTranslationCompletion x1 x2 x3 x4 x5 s
  | .stage2Invalidation x1 x2 x3 x4 => Sys2Proof.Machine.execStage2Invalidation x1 x2 x3 x4 s
  | .keyLoadComplete x1 => Sys2Proof.Machine.execKeyLoadComplete x1 s
  | .scrubOnBind x1 x2 => Sys2Proof.Machine.execScrubOnBind x1 x2 s
  | .scrubFrameComplete x1 x2 => Sys2Proof.Machine.execScrubFrameComplete x1 x2 s
  | .fabricAccessIn x1 x2 x3 x4 x5 x6 x7 x8 x9 => Sys2Proof.Machine.execFabricAccessIn x1 x2 x3 x4 x5 x6 x7 x8 x9 s
  | .celileFlitCrcError x1 => Sys2Proof.Machine.execCelileFlitCrcError x1 s
  | .celileLinkReset x1 => Sys2Proof.Machine.execCelileLinkReset x1 s
  | .celileRetrainTimeout x1 => Sys2Proof.Machine.execCelileRetrainTimeout x1 s
  | .celileLinkDown x1 x2 => Sys2Proof.Machine.execCelileLinkDown x1 x2 s
  | .celileXonXoff x1 x2 x3 => Sys2Proof.Machine.execCelileXonXoff x1 x2 x3 s
  | .handlerEntryService x1 x2 => Sys2Proof.Machine.execHandlerEntryService x1 x2 s
  | .hubServiceFrame x1 => Sys2Proof.Machine.execHubServiceFrame x1 s
  | .hubServiceScratch x1 => Sys2Proof.Machine.execHubServiceScratch x1 s
  | .hubServiceSaveArea x1 => Sys2Proof.Machine.execHubServiceSaveArea x1 s
  | .hubServiceDrain x1 => Sys2Proof.Machine.execHubServiceDrain x1 s
  | .hubServiceFrameWrite x1 => Sys2Proof.Machine.execHubServiceFrameWrite x1 s
  | .hsigSignal x1 x2 => Sys2Proof.Machine.execHsigSignal x1 x2 s
  | .contextPortRead x1 x2 x3 x4 => Sys2Proof.Machine.execContextPortRead x1 x2 x3 x4 s
  | .contextPortWrite x1 x2 x3 x4 => Sys2Proof.Machine.execContextPortWrite x1 x2 x3 x4 s
  | .dispenserReset x1 x2 => Sys2Proof.Machine.execDispenserReset x1 x2 s
  | .heartbeatSend x1 => Sys2Proof.Machine.execHeartbeatSend x1 s
  | .heartbeatReceive x1 x2 x3 => Sys2Proof.Machine.execHeartbeatReceive x1 x2 x3 s
  | .periodBoundary x1 => Sys2Proof.Machine.execPeriodBoundary x1 s
  | .accusationReceive x1 x2 x3 => Sys2Proof.Machine.execAccusationReceive x1 x2 x3 s
  | .muteNoticeReceive x1 => Sys2Proof.Machine.execMuteNoticeReceive x1 s
  | .muteMapUpdate x1 x2 => Sys2Proof.Machine.execMuteMapUpdate x1 x2 s
  | .muteReport x1 x2 => Sys2Proof.Machine.execMuteReport x1 x2 s
  | .selfTestComplete x1 x2 => Sys2Proof.Machine.execSelfTestComplete x1 x2 s
  | .appealSend x1 => Sys2Proof.Machine.execAppealSend x1 s
  | .appealReceive x1 x2 => Sys2Proof.Machine.execAppealReceive x1 x2 s
  | .retuneVoteReceive x1 x2 x3 => Sys2Proof.Machine.execRetuneVoteReceive x1 x2 x3 s
  | .retuneNoticeReceive x1 x2 => Sys2Proof.Machine.execRetuneNoticeReceive x1 x2 s
  | .retuneReport x1 x2 => Sys2Proof.Machine.execRetuneReport x1 x2 s
  | .supplyDroop x1 => Sys2Proof.Machine.execSupplyDroop x1 s
  | .droopStep x1 => Sys2Proof.Machine.execDroopStep x1 s
  | .droopRecovery x1 => Sys2Proof.Machine.execDroopRecovery x1 s
  | .powerCheckTick x1 => Sys2Proof.Machine.execPowerCheckTick x1 s
  | .thermalTrip x1 x2 => Sys2Proof.Machine.execThermalTrip x1 x2 s
  | .thermalCeilingRelease x1 x2 => Sys2Proof.Machine.execThermalCeilingRelease x1 x2 s
  | .uncorrectableError x1 => Sys2Proof.Machine.execUncorrectableError x1 s
  | .controlStateError x1 => Sys2Proof.Machine.execControlStateError x1 s
  | .deviceBringUp x1 => Sys2Proof.Machine.execDeviceBringUp x1 s
  | .functionLevelReset x1 => Sys2Proof.Machine.execFunctionLevelReset x1 s
  | .createPartition x1 x2 x3 x4 x5 x6 x7 x8 => Sys2Proof.Machine.execCreatePartition x1 x2 x3 x4 x5 x6 x7 x8 s
  | .resetPartition x1 x2 x3 => Sys2Proof.Machine.execResetPartition x1 x2 x3 s
  | .bindVf x1 x2 x3 => Sys2Proof.Machine.execBindVf x1 x2 x3 s
  | .setStage2Root x1 x2 x3 => Sys2Proof.Machine.execSetStage2Root x1 x2 x3 s
  | .assignWorld x1 x2 x3 x4 => Sys2Proof.Machine.execAssignWorld x1 x2 x3 x4 s
  | .bindTagPort x1 x2 x3 x4 x5 => Sys2Proof.Machine.execBindTagPort x1 x2 x3 x4 x5 s
  | .setAllowListEntry x1 x2 x3 x4 => Sys2Proof.Machine.execSetAllowListEntry x1 x2 x3 x4 s
  | .appealPolicy x1 x2 x3 => Sys2Proof.Machine.execAppealPolicy x1 x2 x3 s
  | .writeExportOrImportEntry x1 x2 x3 x4 => Sys2Proof.Machine.execWriteExportOrImportEntry x1 x2 x3 x4 s
  | .registerHandlerConsort x1 x2 => Sys2Proof.Machine.execRegisterHandlerConsort x1 x2 s
  | .terminateFaultEntry x1 x2 x3 => Sys2Proof.Machine.execTerminateFaultEntry x1 x2 x3 s
  | .configurePartitionRuntime x1 x2 x3 x4 x5 x6 x7 x8 => Sys2Proof.Machine.execConfigurePartitionRuntime x1 x2 x3 x4 x5 x6 x7 x8 s
  | .setSchedulingContexts x1 x2 x3 x4 x5 => Sys2Proof.Machine.execSetSchedulingContexts x1 x2 x3 x4 x5 s
  | .queryPartition x1 x2 x3 => Sys2Proof.Machine.execQueryPartition x1 x2 x3 s
  | .heqConfigWrite x1 x2 x3 => Sys2Proof.Machine.execHeqConfigWrite x1 x2 x3 s
  | .heqheadWrite x1 x2 => Sys2Proof.Machine.execHeqheadWrite x1 x2 s
  | .verselWrite x1 x2 => Sys2Proof.Machine.execVerselWrite x1 x2 s
  | .counterRead x1 => Sys2Proof.Machine.execCounterRead x1 s
  | .coaltWrite x1 x2 => Sys2Proof.Machine.execCoaltWrite x1 x2 s
  | .pwrlimWrite x1 x2 => Sys2Proof.Machine.execPwrlimWrite x1 x2 s
  | .registerWrite x1 x2 x3 => Sys2Proof.Machine.execRegisterWrite x1 x2 x3 s
  | .msixVectorUnmask x1 x2 => Sys2Proof.Machine.execMsixVectorUnmask x1 x2 s
  | .tdispStateChange x1 x2 => Sys2Proof.Machine.execTdispStateChange x1 x2 s
  | .spdmNegotiateAlgorithms x1 x2 x3 x4 => Sys2Proof.Machine.execSpdmNegotiateAlgorithms x1 x2 x3 x4 s
  | .spdmKeyExchange x1 x2 => Sys2Proof.Machine.execSpdmKeyExchange x1 x2 s
  | .spdmGetMeasurements x1 => Sys2Proof.Machine.execSpdmGetMeasurements x1 s

end Sys2Proof.Machine
end

