-- ==== Sys2Proof/Machine/Internal.lean ====
section
/-! DEFINITION. Which event comes next: those that time or the state brings about by themselves, in a fixed order, and the
fetch of the instruction that issues (R96, R144, R212, log entry 5). -/

namespace Sys2Proof.Machine

/-! Events of time (R134, R142, R146, R157). -/

def dueDeadline (s : State) : Option Instr :=
  s.w.courses.findSome? fun (cid, c) =>
    match c.k.at_, c.k.deadline with
    | .parked, some t => if t ≤ s.w.now then some (.deadlineExpiry cid) else none
    | _, _ => none

def dueSlice (s : State) : Option Instr :=
  s.w.parts.findSome? fun (p, x) =>
    if 1 < x.ctxs.count ∧ x.ctxs.endAt ≤ s.w.now then some (.schedulingSliceEnd p) else none

def duePool (s : State) : Option Instr :=
  s.w.parts.findSome? fun (p, x) => x.pools.findSome? fun (tag, q) =>
    if q.until_ ≤ s.w.now then some (.poolTimerExpiry p tag) else none

def dueInterval (s : State) : Option Instr :=
  s.w.fns.findSome? fun (n, f) => f.openIv.findSome? fun (v, t) =>
    if t ≤ s.w.now ∧ v < 2 then some (.coalesceIntervalEnd (Fin.ofNat 64 n) (Fin.ofNat 2 v)) else none

/-! Hub firmware (R325, R326). -/

/-- The service event of a course's request block; none while a drain waits. -/
def serviceEvent (e : Env) (w : W) (c : Course) : Option Instr :=
  match svcBlock e w c (getS2 c 2) with
  | .error _ => some (.hubServiceFrame c.id.cid)
  | .ok b =>
    match (parseSvc b).kind with
    | 1 => some (.hubServiceScratch c.id.cid)
    | 2 => some (.hubServiceSaveArea c.id.cid)
    | 3 => if (svcRun e w c (parseSvc b)).isSome then some (.hubServiceDrain c.id.cid) else none
    | 4 => some (.hubServiceFrameWrite c.id.cid)
    | _ => some (.hubServiceFrame c.id.cid)

def dueHandler (s : State) : Option Instr :=
  s.w.parts.findSome? fun (p, _) => (allEntries s.w p).zipIdx.findSome? fun (x, i) =>
    if x.served then none
    else match handlerCourse s.w x with
      | none => none
      | some c => if isService s.w x then serviceEvent ⟨s.fix, s.mem⟩ s.w c else some (.handlerEntryService p i)

/-! Distribution and activation (R138 to R140, R143). -/

/-- Whether a consort that is over can be finished now: a successor's frames may be wanting (R139). -/
def canFinish (w : W) (k : Consort) : Bool :=
  match launch? w k.launch, k.succ, k.lost with
  | some _, some hb, none =>
    !succOk w k (parseHdr hb) || (takeFrames (parseHdr hb).courses (part w k.part)).isSome
  | _, _, _ => true

def dueEnd (s : State) : Option Instr :=
  s.w.consorts.findSome? fun (kc, k) => if consortOver s.w kc k && canFinish s.w k then some (.consortEnd kc) else none

def duePlacement (s : State) : Option Instr :=
  s.w.consorts.findSome? fun (kc, k) =>
    match launch? s.w k.launch with
    | none => none
    | some l =>
      if k.st = .slotted ∧ !l.held ∧ !behindEarlier s.w k l ∧ (supply s.w k).isSome then some (.consortPlacement kc) else none

def dueDepart (s : State) : Option Instr :=
  s.w.parts.findSome? fun (p, x) =>
    match x.lq with
    | [] => none
    | q :: _ =>
      if x.lqHold then none
      else match ctxRead ⟨s.fix, s.mem⟩ s.w 72 p q.world (queueAddr s.w p q.pos) 128 with
        | .error _ => some (.launchQueueDepart p)
        | .ok b => if (parseHdr b).fenced ∧ earlierOpen s.w p q then none else some (.launchQueueDepart p)

def dueActivation (s : State) : Option Instr :=
  if s.w.courses.all (fun (_, c) => c.k.at_ != .ready) then none
  else s.w.parts.findSome? fun (p, _) => (List.range 72).findSome? fun l =>
    if canActivate s.w p l && (bestReady s.w p l).isSome then some (.activation p l) else none

/-! The register cache, claims and results (R64, R65, R67, R70). -/

def dueFill (s : State) : Option Instr :=
  s.w.courses.findSome? fun (cid, c) =>
    let want := match c.k.stall with
      | some (.fill v) => some v.val
      | _ => (List.range 64).find? fun r => wantsLine c r
    match want with
    | none => none
    | some r =>
      if !wantsLine c r ∨ 2048 ≤ fixedCount s.w (quadOf c) then none
      else if (tGet? c.v.lines r).isSome then some (.remoteLineRead cid (reg64 r))
      else some (.registerFillComplete cid (reg64 r))

def dueClaim (s : State) : Option Instr :=
  let waits := (s.w.courses.filterMap fun (_, c) => match c.k.stall with
      | some (.claim u) => some (c.id.consort, u)
      | _ => none) ++
    (s.w.ops.filterMap fun (_, o) => if o.stopped ∨ o.faulted ≠ [] then none else (opAway s.w o).map fun u => (o.consort, u))
  waits.findSome? fun (kc, u) =>
    match consort? s.w kc with
    | none => none
    | some k => if claimable s.w kc u && !claimFaulted s.w k.part u then some (.lazyClaim kc u) else none

def dueResult (s : State) : Option Instr := (s.w.flights.head?).map fun f => .deferredResultReturn f.n

/-! Engines and scrubbers (R109, R299, R309). -/

def dueChisel (s : State) : Option Instr :=
  s.w.ops.findSome? fun (_, o) =>
    if o.kind.chisel && (chiselReady s.w o.pcn o.quad).isSome then some (.chiselStep o.pcn o.quad) else none

/-- Whether an event changes the state. -/
def moves (s : State) (i : Instr) : Bool :=
  match exec i s with
  | .next t => t != s
  | _ => false

def dueCopy (s : State) : Option Instr :=
  (s.w.ops.filterMap fun (n, o) =>
    if o.kind.isCopy ∧ o.faulted = [] then (o.units.head?).map fun l => .copyLine n l else none).find? (moves s)

/-- A frame for which an access waits goes first (R109). -/
def dueScrub (s : State) : Option Instr :=
  let waited := s.w.courses.findSome? fun (_, c) => match c.k.stall with
    | some (.scrub sl f) => if s.w.scrub.contains (sl, f) then some (sl, f) else none
    | _ => none
  match waited with
  | some (sl, f) => some (.scrubFrameComplete sl f)
  | none => (s.w.scrub.head?).map fun (sl, f) => .scrubFrameComplete sl f

def dueInval (s : State) : Option Instr := (s.w.invals.head?).map fun x => .tlbInvalidationComplete x.n

/-- The event that happens by itself next, in a fixed order; none lets an instruction issue. -/
def nextInternal (s : State) : Option Instr :=
  [dueDeadline, dueSlice, duePool, dueInterval, dueHandler, dueEnd, duePlacement, dueDepart, dueActivation, dueFill,
    dueClaim, dueResult, dueScrub, dueChisel, dueCopy, dueInval].findSome? fun f => f s

/-! The issue of a fetched instruction (R96, R101, R144, R219). -/

/-- A bring-up in which everything passes and no Celile partner answers (R201, log entry 5). -/
def goodBringUp : BringUp := ⟨true, true, true, [], [], [], 0⟩

/-- What a step does when nothing else comes first. -/
inductive Issue where
  | run (i : Instr)
  | close (c : Course)
  | fetchFail (x : Sel) (pc : Word) (cause : Nat) (matrix : Option (Nat × Nat))
  | fetchWait (c : Course) (x : Stall)
  | idle
  deriving DecidableEq, Repr

/-- A fetched word with its literal decoded: an instruction, or a word that is none (R225). -/
def decoded (word lit : Nat) : Issue :=
  match decodeWord word lit with
  | some i => .run i
  | none => .run (.reservedWordIssue (BitVec.ofNat 32 word))

/-- The instruction that issues in a selection, its literal word fetched too; a fetch without a reply ends in TIMEOUT (R168). -/
def fetchIssue (e : Env) (w : W) (x : Sel) : Issue :=
  if x.c.k.fetchLost then .fetchFail x x.pc 0x22 none
  else
  let a := fetchAt e w x.c x.pc
  match a.word with
  | .fail cause => .fetchFail x x.pc cause a.matrix
  | .wait y => .fetchWait x.c y
  | .ok word =>
    if wordHasLiteral word then
      let b := fetchAt e w x.c (x.pc + 4)
      match b.word with
      | .fail cause => .fetchFail x (x.pc + 4) cause b.matrix
      | .wait y => .fetchWait x.c y
      | .ok lit => decoded word lit
    else decoded word 0

/-- What the device issues. -/
def issueNow (e : Env) (w : W) : Issue :=
  match issueOf e w with
  | .nothing => .idle
  | .split c _ => .run (.convergenceIllop c.id.cid)
  | .go x => if x.c.w.closing then .close x.c else fetchIssue e w x

/-- What an issue comes to. -/
def doIssue (s : State) : Issue → Host.Outcome State Fault Refusal
  | .run i => exec i s
  | .close c => event (fun e w => closeFirst e w c) s
  | .fetchFail x pc cause m => event (fun e w => fetchFault e w x pc cause m) s
  | .fetchWait c x => event (fun _ w => stallOn w c x) s
  | .idle => .next s

/-- Time goes on by one after a step (log entry 5). -/
def tick : Host.Outcome State Fault Refusal → Host.Outcome State Fault Refusal
  | .next s => .next { s with w := { s.w with now := s.w.now + 1 } }
  | .fault r => .fault r
  | .refused r => .refused r

/-- What a step executes when nothing stands in the agenda: bring-up, an event that happens by itself, an issue. -/
def stepSelf (s : State) : Host.Outcome State Fault Refusal :=
  if s.w.hub.failed then .next s
  else if !s.w.hub.ready then exec (.deviceBringUp goodBringUp) s
  else match nextInternal s with
    | some i => exec i s
    | none => doIssue s (issueNow ⟨s.fix, s.mem⟩ s.w)

/-- What a step executes before time goes on: a hub core's signal that was held until now, an event of the agenda, or what the device
does by itself (R333, log entry 5). -/
def stepBody (s : State) : Host.Outcome State Fault Refusal :=
  match nextSignal s.w, s.w.agenda with
  | some i, _ => event (fun e w => takeSignal e w i) s
  | none, i :: r => exec i { s with w := { s.w with agenda := r } }
  | none, [] => stepSelf s

/-- The notes that the device's own accesses get no reply are over with the step they were made for (R168). -/
def answered (n : Nat) : Host.Outcome State Fault Refusal → Host.Outcome State Fault Refusal
  | .next s => .next { s with w := { s.w with lost := s.w.lost.take (s.w.lost.length - n) } }
  | .fault r => .fault r
  | .refused r => .refused r

/-! A program's first instruction placed by the outside (log entry 16). -/

/-- Where `fetchState` puts its first instruction. -/
def progBase : Nat := 0x100000

/-- The 8-byte entries of a translation that maps the first 1 GiB to itself, by local physical address: an ASID table
entry, and two tables for each stage (R97 to R100). -/
def identityTables : List (Nat × Nat) :=
  let ptr := fun a => a + 1
  let leaf := 2 ^ 0 + 2 ^ 1 + 2 ^ 2 + 2 ^ 3 + 2 ^ 4 + 3 * 2 ^ 6
  [(0x1000, ptr 0x2000), (0x2000, leaf), (0x3000, ptr 0x4000), (0x4000, leaf), (0x10000, ptr 0x3000)]

/-- A number's bytes written to device memory of slice 0. -/
def poke (m : Memory) (a n v : Nat) : Memory :=
  (leBytes n v).zipIdx.foldl (fun m (b, i) => m.wr (keyDev 0 (a + i)) b) m

/-- The partition of the placed program: core PCN 0, slice 0, a context space, no queues. -/
def progPart : Part :=
  { Part.init with
    live := true, cores := 1, slices := 1, asidT := 0x10000, armT := 0x200000, acctT := 0x220000, root := 0x1000,
    configured := true, ctxBase := 0x10000000, ctxSize := 0x4000000, veract := [1, 1, 1, 1, 0],
    frames := [(0x10180000, 12288), (0x10190000, 65536)] }

/-- The launch header of the placed program: one consort of one course, privileged. -/
def progHdr : Hdr :=
  { parseHdr [] with ccount := 1, tlcnt := 1, entry := progBase, priv := true, ver := 1 }

/-- The placed program's launch: one owner with one lane. -/
def progLaunch : Launch :=
  { mkLaunch progHdr 0 .single [⟨0, 0, 0, 0, 1⟩] 0 0 true 0 none none none with
    slots := [⟨[0], 0, some 0⟩], next := 1 }

/-- The placed program's consort, placed on logical core 0. -/
def progConsort : Consort := { newConsort 0 0 progLaunch [0] 0 with st := .placed, pw := [0], csave := 0x10190000, live := 1 }

/-- The placed program's course, resident in slot 0 of quadrant 0. -/
def progCourse (w : W) : Course :=
  let c := courseInit w 0 progConsort progLaunch 0 0x10180000 0
  { c with k := { c.k with at_ := .resident, isNew := false } }

/-- A state in which an instruction's bytes stand at the PC of the one resident course, and nothing else comes first. -/
def fetchState (s : State) (v : Nat) : State :=
  let m := identityTables.foldl (fun m (a, x) => poke m a 8 x) s.mem
  let m := poke m progBase 8 v
  let h := { s.w.hub with
    boot := 9, ready := true, failed := false, lpt := BitVec.ofNat 64 (2 ^ 18) :: List.replicate 71 0,
    matrix := [(0, BitVec.ofNat 64 (2 ^ 31 + 1)), (72, BitVec.ofNat 64 (2 ^ 31 + 1))], mutedSlices := [], signals := [] }
  let w := { s.w with
    agenda := [], wb := [], lost := [], hub := h, tiles := [], fns := [], parts := [(0, progPart)], launches := [(0, progLaunch)],
    consorts := [(0, progConsort)], ops := [], flights := [], invals := [], poison := [], scrub := [],
    tlb := [⟨0, 0, progBase / 4096, 0, 2 ^ 30, 0xDF, progBase, 0xDF, progBase, 2 ^ 30⟩],
    nextCid := 1, nextConsort := 1, nextLaunch := 1 }
  { s with mem := m, w := { w with courses := [(0, progCourse w)] } }

end Sys2Proof.Machine
end

