-- ==== Sys2Proof/Machine/Step.lean ====
section
/-! DEFINITION. One step of the machine, and the placing of an instruction where it fetches next. -/

namespace Sys2Proof.Machine

/-- One step: an event or an instruction, then one tick of time. -/
def step (s : State) : Host.Outcome State Fault Refusal := tick (answered s.w.lost.length (stepBody s))

/-- A state with an instruction's words, in the table's numbering, at the PC of a resident course, the bits above nbits zero;
it stands for a launch from outside that has been placed and activated (log entry 16). -/
def State.withFetchWord (s : State) (nbits w : Nat) : State := fetchState s (w % 2 ^ nbits)

end Sys2Proof.Machine
end

