-- ==== Sys2Proof/Laws/Encode.lean ====
section
/-! SUPPORT. The fields of a word, the codes of each modifier, and what decoding a word of given fields answers. -/

namespace Sys2Proof

theorem fld_mid {hi v lo k n : Nat} (h1 : v < n) (h2 : lo < k) : fld ((hi * n + v) * k + lo) k n = v := by
  unfold fld
  rw [Nat.add_comm, Nat.add_mul_div_right _ _ (by omega), Nat.div_eq_of_lt h2, Nat.zero_add, Nat.add_comm, Nat.add_mul_mod_self_right,
    Nat.mod_eq_of_lt h1]

/-- The fields of the word of given fields are those fields. -/
theorem rawOf_word {r : Raw} (h : r.ok = true) : rawOf r.word = r := by
  cases r with
  | mk s w o g d a b m =>
    simp only [Raw.ok, Bool.and_eq_true, decide_eq_true_eq] at h
    unfold rawOf Raw.word
    congr 1
    · exact Eq.trans (by congr 1; ring) (fld_mid (hi := 0) (v := s)
        (lo := w * 1073741824 + o * 8388608 + g * 1048576 + d * 16384 + a * 256 + b * 4 + m) (by omega) (by omega))
    · exact Eq.trans (by congr 1; ring) (fld_mid (hi := s) (v := w)
        (lo := o * 8388608 + g * 1048576 + d * 16384 + a * 256 + b * 4 + m) (by omega) (by omega))
    · exact Eq.trans (by congr 1; ring) (fld_mid (hi := s * 2 + w) (v := o)
        (lo := g * 1048576 + d * 16384 + a * 256 + b * 4 + m) (by omega) (by omega))
    · exact Eq.trans (by congr 1; ring) (fld_mid (hi := s * 256 + w * 128 + o) (v := g)
        (lo := d * 16384 + a * 256 + b * 4 + m) (by omega) (by omega))
    · exact Eq.trans (by congr 1; ring) (fld_mid (hi := s * 2048 + w * 1024 + o * 8 + g) (v := d)
        (lo := a * 256 + b * 4 + m) (n := 64) (by omega) (by omega))
    · exact Eq.trans (by congr 1; ring) (fld_mid (hi := (s * 256 + w * 128 + o) * 512 + g * 64 + d) (v := a)
        (lo := b * 4 + m) (n := 64) (by omega) (by omega))
    · exact Eq.trans (by congr 1; ring) (fld_mid (hi := (s * 256 + w * 128 + o) * 32768 + g * 4096 + d * 64 + a) (v := b)
        (lo := m) (n := 64) (by omega) (by omega))
    · exact Eq.trans (by congr 1; ring) (fld_mid (k := 1) (lo := 0) (v := m)
        (hi := (s * 256 + w * 128 + o) * 2097152 + g * 262144 + d * 4096 + a * 64 + b) (n := 4) (by omega) (by omega))

theorem word_lt {r : Raw} (h : r.ok = true) : r.word < 4294967296 := by
  simp only [Raw.ok, Bool.and_eq_true, decide_eq_true_eq] at h
  simp only [Raw.word]
  omega

theorem bytes4_sum {w : Nat} (h : w / 16777216 / 256 = 0) : w % 256 + w / 256 % 256 * 256 + w / 65536 % 256 * 65536 + w / 16777216 % 256 * 16777216 = w := by
  have h1 : w / 65536 = w / 256 / 256 := by rw [Nat.div_div_eq_div_mul]
  have h2 : w / 16777216 = w / 256 / 256 / 256 := by rw [Nat.div_div_eq_div_mul, Nat.div_div_eq_div_mul]
  rw [h2] at h
  rw [h1, h2]
  have a := Nat.div_add_mod w 256
  have b := Nat.div_add_mod (w/256) 256
  have c := Nat.div_add_mod (w/256/256) 256
  have d := Nat.div_add_mod (w/256/256/256) 256
  clear h1 h2
  generalize w / 256 / 256 / 256 / 256 = e at *
  generalize w / 256 / 256 / 256 = e1 at *
  generalize w / 256 / 256 = e2 at *
  generalize w / 256  = e3 at *
  omega

/-- The four bytes of a word read back. -/
theorem word4_bytes4 {w : Nat} (h : w < 4294967296) (rest : List Byte) : word4 (bytes4 w ++ rest) = some (w, rest) := by
  have h' : w / 16777216 / 256 = 0 := by rw [Nat.div_div_eq_div_mul]; exact Nat.div_eq_of_lt h
  simp only [bytes4, List.cons_append, List.nil_append, word4, BitVec.toNat_ofNat, Option.some.injEq, Prod.mk.injEq, and_true]
  exact bytes4_sum h'

/-- A word of given fields decodes to the instruction they make, if it is well formed. -/
theorem decodeWord_of {w : Nat} {r : Raw} {lit : Nat} {i : Instr} (hr : rawOf w = r) (hi : ofRaw r lit = some i)
    (hw : i.wf = true) : decodeWord w lit = some i := by
  subst hr
  unfold decodeWord
  rw [hi]
  exact if_pos hw

@[simp] theorem hd_eq (h : Hd) : (⟨h.sw.toNat == 1, fr 8 h.g.val⟩ : Hd) = h := by
  rcases h with ⟨_ | _, g⟩ <;> simp [fr]

@[simp] theorem fr_val {n : Nat} [NeZero n] (x : Fin n) : fr n x.val = x := by simp [fr]

theorem fr_of {n : Nat} [NeZero n] (v : Fin n) {x : Nat} (h : x = v.val) : fr n x = v := by rw [h, fr_val]

@[simp] theorem fin?_val {n : Nat} (x : Fin n) : fin? n x.val = some x := by simp [fin?]

theorem fin?_of {n : Nat} (v : Fin n) {x : Nat} (h : x = v.val) : fin? n x = some v := by rw [h, fin?_val]

@[simp] theorem bool?_toNat (b : Bool) : bool? b.toNat = some b := by cases b <;> rfl

theorem bool?_of (b : Bool) {x : Nat} (h : x = b.toNat) : bool? x = some b := by rw [h, bool?_toNat]

@[simp] theorem Rm.of?_code (x : Rm) : Rm.of? x.code = some x := by cases x <;> rfl

theorem Rm.code_lt (x : Rm) : x.code < 4 := by cases x <;> decide

theorem Rm.of?_of (v : Rm) {x : Nat} (h : x = v.code) : Rm.of? x = some v := by rw [h, Rm.of?_code]

@[simp] theorem Sat.of?_code (x : Sat) : Sat.of? x.code = some x := by cases x <;> rfl

theorem Sat.code_lt (x : Sat) : x.code < 3 := by cases x <;> decide

theorem Sat.of?_of (v : Sat) {x : Nat} (h : x = v.code) : Sat.of? x = some v := by rw [h, Sat.of?_code]

@[simp] theorem MulPart.of?_code (x : MulPart) : MulPart.of? x.code = some x := by cases x <;> rfl

theorem MulPart.code_lt (x : MulPart) : x.code < 3 := by cases x <;> decide

theorem MulPart.of?_of (v : MulPart) {x : Nat} (h : x = v.code) : MulPart.of? x = some v := by rw [h, MulPart.of?_code]

@[simp] theorem Cc.of?_code (x : Cc) : Cc.of? x.code = some x := by cases x <;> rfl

theorem Cc.code_lt (x : Cc) : x.code < 7 := by cases x <;> decide

theorem Cc.of?_of (v : Cc) {x : Nat} (h : x = v.code) : Cc.of? x = some v := by rw [h, Cc.of?_code]

@[simp] theorem LogOp.of?_code (x : LogOp) : LogOp.of? x.code = some x := by cases x <;> rfl

theorem LogOp.code_lt (x : LogOp) : x.code < 7 := by cases x <;> decide

theorem LogOp.of?_of (v : LogOp) {x : Nat} (h : x = v.code) : LogOp.of? x = some v := by rw [h, LogOp.of?_code]

@[simp] theorem SgnOp.of?_code (x : SgnOp) : SgnOp.of? x.code = some x := by cases x <;> rfl

theorem SgnOp.code_lt (x : SgnOp) : x.code < 3 := by cases x <;> decide

theorem SgnOp.of?_of (v : SgnOp) {x : Nat} (h : x = v.code) : SgnOp.of? x = some v := by rw [h, SgnOp.of?_code]

@[simp] theorem CvtOp.of?_code (x : CvtOp) : CvtOp.of? x.code = some x := by 
  rcases x with _ | _ | _ | _ | _ | _ | _ | _ | _ | (_ | _) | (_ | _) | _ | _ | _ <;> rfl

theorem CvtOp.code_lt (x : CvtOp) : x.code < 42 := by 
  rcases x with _ | _ | _ | _ | _ | _ | _ | _ | _ | (_ | _) | (_ | _) | _ | _ | _ <;> decide

theorem CvtOp.of?_of (v : CvtOp) {x : Nat} (h : x = v.code) : CvtOp.of? x = some v := by rw [h, CvtOp.of?_code]

@[simp] theorem Cvt8Op.of?_code (x : Cvt8Op) : Cvt8Op.of? x.code = some x := by 
  rcases x with ⟨_ | _, _ | _⟩ | ⟨_ | _, j⟩ <;> (try revert j) <;> decide

theorem Cvt8Op.code_lt (x : Cvt8Op) : x.code < 28 := by 
  rcases x with ⟨_ | _, _ | _⟩ | ⟨_ | _, j⟩ <;> (try revert j) <;> decide

theorem Cvt8Op.of?_of (v : Cvt8Op) {x : Nat} (h : x = v.code) : Cvt8Op.of? x = some v := by rw [h, Cvt8Op.of?_code]

@[simp] theorem SclxOp.of?_code (x : SclxOp) : SclxOp.of? x.code = some x := by cases x <;> rfl

theorem SclxOp.code_lt (x : SclxOp) : x.code < 9 := by cases x <;> decide

theorem SclxOp.of?_of (v : SclxOp) {x : Nat} (h : x = v.code) : SclxOp.of? x = some v := by rw [h, SclxOp.of?_code]

@[simp] theorem Sz.of?_code (x : Sz) : Sz.of? x.code = some x := by cases x <;> rfl

theorem Sz.code_lt (x : Sz) : x.code < 4 := by cases x <;> decide

theorem Sz.of?_of (v : Sz) {x : Nat} (h : x = v.code) : Sz.of? x = some v := by rw [h, Sz.of?_code]

@[simp] theorem Scope.of?_code (x : Scope) : Scope.of? x.code = some x := by cases x <;> rfl

theorem Scope.code_lt (x : Scope) : x.code < 4 := by cases x <;> decide

theorem Scope.of?_of (v : Scope) {x : Nat} (h : x = v.code) : Scope.of? x = some v := by rw [h, Scope.of?_code]

@[simp] theorem Ord4.of?_code (x : Ord4) : Ord4.of? x.code = some x := by cases x <;> rfl

theorem Ord4.code_lt (x : Ord4) : x.code < 4 := by cases x <;> decide

theorem Ord4.of?_of (v : Ord4) {x : Nat} (h : x = v.code) : Ord4.of? x = some v := by rw [h, Ord4.of?_code]

@[simp] theorem AddVar.of?_code (x : AddVar) : AddVar.of? x.code = some x := by cases x <;> rfl

theorem AddVar.code_lt (x : AddVar) : x.code < 3 := by cases x <;> decide

theorem AddVar.of?_of (v : AddVar) {x : Nat} (h : x = v.code) : AddVar.of? x = some v := by rw [h, AddVar.of?_code]

@[simp] theorem MaxVar.of?_code (x : MaxVar) : MaxVar.of? x.code = some x := by cases x <;> rfl

theorem MaxVar.code_lt (x : MaxVar) : x.code < 7 := by cases x <;> decide

theorem MaxVar.of?_of (v : MaxVar) {x : Nat} (h : x = v.code) : MaxVar.of? x = some v := by rw [h, MaxVar.of?_code]

@[simp] theorem WVar.of?_code (x : WVar) : WVar.of? x.code = some x := by cases x <;> rfl

theorem WVar.code_lt (x : WVar) : x.code < 2 := by cases x <;> decide

theorem WVar.of?_of (v : WVar) {x : Nat} (h : x = v.code) : WVar.of? x = some v := by rw [h, WVar.of?_code]

@[simp] theorem LogVar.of?_code (x : LogVar) : LogVar.of? x.code = some x := by cases x <;> rfl

theorem LogVar.code_lt (x : LogVar) : x.code < 3 := by cases x <;> decide

theorem LogVar.of?_of (v : LogVar) {x : Nat} (h : x = v.code) : LogVar.of? x = some v := by rw [h, LogVar.of?_code]

@[simp] theorem ShflOp.of?_code (x : ShflOp) : ShflOp.of? x.code = some x := by cases x <;> rfl

theorem ShflOp.code_lt (x : ShflOp) : x.code < 4 := by cases x <;> decide

theorem ShflOp.of?_of (v : ShflOp) {x : Nat} (h : x = v.code) : ShflOp.of? x = some v := by rw [h, ShflOp.of?_code]

@[simp] theorem RedOp.of?_code (x : RedOp) : RedOp.of? x.code = some x := by cases x <;> rfl

theorem RedOp.code_lt (x : RedOp) : x.code < 11 := by cases x <;> decide

theorem RedOp.of?_of (v : RedOp) {x : Nat} (h : x = v.code) : RedOp.of? x = some v := by rw [h, RedOp.of?_code]

@[simp] theorem OwnqOp.of?_code (x : OwnqOp) : OwnqOp.of? x.code = some x := by cases x <;> rfl

theorem OwnqOp.code_lt (x : OwnqOp) : x.code < 4 := by cases x <;> decide

theorem OwnqOp.of?_of (v : OwnqOp) {x : Nat} (h : x = v.code) : OwnqOp.of? x = some v := by rw [h, OwnqOp.of?_code]

@[simp] theorem RowOp.of?_code (x : RowOp) : RowOp.of? x.code = some x := by cases x <;> rfl

theorem RowOp.code_lt (x : RowOp) : x.code < 4 := by cases x <;> decide

theorem RowOp.of?_of (v : RowOp) {x : Nat} (h : x = v.code) : RowOp.of? x = some v := by rw [h, RowOp.of?_code]

@[simp] theorem VoteOp.of?_sel (x : VoteOp) : VoteOp.of? x.selM x.selB = some x := by cases x <;> rfl

theorem VoteOp.selM_lt (x : VoteOp) : x.selM < 4 := by cases x <;> decide

theorem VoteOp.selB_lt (x : VoteOp) : x.selB < 2 := by cases x <;> decide

end Sys2Proof
end

