-- ==== Sys2Proof/Laws/PerInstr.lean ====
section
/-! SUPPORT. Decoding the bytes of an encoded instruction gives it back: one lemma for each constructor (R212 to R224). -/

namespace Sys2Proof.Laws

/-- Decoding the bytes of a well-formed instruction's words gives the instruction and leaves the bytes after them. -/
def RoundTrip.Statement (i : Instr) : Prop :=
  i.wf = true → ∀ ws, encode i = some ws → ∀ rest, decodeBytes (ws.flatMap bytes4 ++ rest) = some (i, rest)

theorem word4_flat {w : Nat} (ws : List Nat) (hl : w < 4294967296) (rest : List Byte) :
    word4 ((w :: ws).flatMap bytes4 ++ rest) = some (w, ws.flatMap bytes4 ++ rest) := by
  rw [List.flatMap_cons, List.append_assoc]
  exact word4_bytes4 hl _

theorem decodeBytes_one {bs rest : List Byte} {w : Nat} {i : Instr} (h : word4 bs = some (w, rest))
    (hd : decodeWord w 0 = some i) (h1 : i.twoWords = false) : decodeBytes bs = some (i, rest) := by
  unfold decodeBytes
  rw [h]
  simp only [hd, h1, Bool.false_eq_true, if_false]

theorem decodeBytes_two {bs r1 rest : List Byte} {w l : Nat} {i j : Instr} (h : word4 bs = some (w, r1))
    (h' : word4 r1 = some (l, rest)) (hd0 : decodeWord w 0 = some j) (h2 : j.twoWords = true) (hd : decodeWord w l = some i) :
    decodeBytes bs = some (i, rest) := by
  unfold decodeBytes
  rw [h]
  simp only [hd0, h2, if_true, h', hd, Option.map_some]

theorem encode_of {i : Instr} {r : Raw} {l : Nat} (h : toRaw i = some (r, l)) :
    encode i = some (if i.twoWords then [r.word, l] else [r.word]) := by
  unfold encode
  rw [h, Option.map_some]

theorem roundTrip_one {i : Instr} {r : Raw} (h : toRaw i = some (r, 0)) (hr : r.ok = true) (h1 : i.twoWords = false)
    (hi : ofRaw r 0 = some i) : RoundTrip.Statement i := by
  intro hw ws hws rest
  rw [encode_of h, h1] at hws
  obtain rfl := Option.some.inj hws
  exact decodeBytes_one (word4_flat [] (word_lt hr) rest) (decodeWord_of (rawOf_word hr) hi hw) h1

theorem roundTrip_two {i : Instr} {r : Raw} {lit : Word} {j : Instr} (h : toRaw i = some (r, lit.toNat)) (hr : r.ok = true)
    (h1 : i.twoWords = true) (hj : ofRaw r 0 = some j) (h2 : j.twoWords = true) (hwj : j.wf = true)
    (hi : ofRaw r lit.toNat = some i) : RoundTrip.Statement i := by
  intro hw ws hws rest
  rw [encode_of h, h1] at hws
  obtain rfl := Option.some.inj hws
  exact decodeBytes_two (word4_flat [lit.toNat] (word_lt hr) rest) (word4_flat [] lit.isLt rest)
    (decodeWord_of (rawOf_word hr) hj hwj) h2 (decodeWord_of (rawOf_word hr) hi hw)

theorem roundTrip_event {i : Instr} (h : toRaw i = none) : RoundTrip.Statement i := by
  intro _ ws hws
  unfold encode at hws
  rw [h] at hws
  cases hws

theorem RoundTrip.iadd (h : Hd) (d : R64) (a : R64) (b : R64) (m : Sat) : RoundTrip.Statement (.iadd h d a b m) := by
  have hs := Bool.toNat_lt h.sw
  have := Sat.code_lt m
  refine roundTrip_one rfl ?_ rfl ?_
  · simp only [Raw.ok, Bool.and_eq_true, decide_eq_true_eq]; omega
  · simp [ofRaw, laneA]

theorem RoundTrip.isub (h : Hd) (d : R64) (a : R64) (b : R64) (m : Sat) : RoundTrip.Statement (.isub h d a b m) := by
  have hs := Bool.toNat_lt h.sw
  have := Sat.code_lt m
  refine roundTrip_one rfl ?_ rfl ?_
  · simp only [Raw.ok, Bool.and_eq_true, decide_eq_true_eq]; omega
  · simp [ofRaw, laneA]

theorem RoundTrip.imul (h : Hd) (d : R64) (a : R64) (b : R64) : RoundTrip.Statement (.imul h d a b) := by
  have hs := Bool.toNat_lt h.sw
  refine roundTrip_one rfl ?_ rfl ?_
  · simp only [Raw.ok, Bool.and_eq_true, decide_eq_true_eq]; omega
  · simp [ofRaw, laneA]

theorem RoundTrip.imulh (h : Hd) (d : R64) (a : R64) (b : R64) (u : Bool) : RoundTrip.Statement (.imulh h d a b u) := by
  have hs := Bool.toNat_lt h.sw
  have := Bool.toNat_lt u
  refine roundTrip_one rfl ?_ rfl ?_
  · simp only [Raw.ok, Bool.and_eq_true, decide_eq_true_eq]; omega
  · simp [ofRaw, laneA]

theorem RoundTrip.imad (h : Hd) (d : R64) (a : R64) (b : R64) : RoundTrip.Statement (.imad h d a b) := by
  have hs := Bool.toNat_lt h.sw
  refine roundTrip_one rfl ?_ rfl ?_
  · simp only [Raw.ok, Bool.and_eq_true, decide_eq_true_eq]; omega
  · simp [ofRaw, laneA]

theorem RoundTrip.imin (h : Hd) (d : R64) (a : R64) (b : R64) (u : Bool) : RoundTrip.Statement (.imin h d a b u) := by
  have hs := Bool.toNat_lt h.sw
  have := Bool.toNat_lt u
  refine roundTrip_one rfl ?_ rfl ?_
  · simp only [Raw.ok, Bool.and_eq_true, decide_eq_true_eq]; omega
  · simp [ofRaw, laneA]

theorem RoundTrip.imax (h : Hd) (d : R64) (a : R64) (b : R64) (u : Bool) : RoundTrip.Statement (.imax h d a b u) := by
  have hs := Bool.toNat_lt h.sw
  have := Bool.toNat_lt u
  refine roundTrip_one rfl ?_ rfl ?_
  · simp only [Raw.ok, Bool.and_eq_true, decide_eq_true_eq]; omega
  · simp [ofRaw, laneA]

theorem RoundTrip.iabs (h : Hd) (d : R64) (a : R64) (sat : Bool) : RoundTrip.Statement (.iabs h d a sat) := by
  have hs := Bool.toNat_lt h.sw
  have := Bool.toNat_lt sat
  refine roundTrip_one rfl ?_ rfl ?_
  · simp only [Raw.ok, Bool.and_eq_true, decide_eq_true_eq]; omega
  · simp [ofRaw, laneA]

theorem RoundTrip.and (h : Hd) (d : R64) (a : R64) (b : R64) : RoundTrip.Statement (.and h d a b) := by
  have hs := Bool.toNat_lt h.sw
  refine roundTrip_one rfl ?_ rfl ?_
  · simp only [Raw.ok, Bool.and_eq_true, decide_eq_true_eq]; omega
  · simp [ofRaw, laneA]

theorem RoundTrip.or (h : Hd) (d : R64) (a : R64) (b : R64) : RoundTrip.Statement (.or h d a b) := by
  have hs := Bool.toNat_lt h.sw
  refine roundTrip_one rfl ?_ rfl ?_
  · simp only [Raw.ok, Bool.and_eq_true, decide_eq_true_eq]; omega
  · simp [ofRaw, laneA]

theorem RoundTrip.xor (h : Hd) (d : R64) (a : R64) (b : R64) : RoundTrip.Statement (.xor h d a b) := by
  have hs := Bool.toNat_lt h.sw
  refine roundTrip_one rfl ?_ rfl ?_
  · simp only [Raw.ok, Bool.and_eq_true, decide_eq_true_eq]; omega
  · simp [ofRaw, laneA]

theorem RoundTrip.andn (h : Hd) (d : R64) (a : R64) (b : R64) : RoundTrip.Statement (.andn h d a b) := by
  have hs := Bool.toNat_lt h.sw
  refine roundTrip_one rfl ?_ rfl ?_
  · simp only [Raw.ok, Bool.and_eq_true, decide_eq_true_eq]; omega
  · simp [ofRaw, laneA]

theorem RoundTrip.shl (h : Hd) (d : R64) (a : R64) (b : R64) : RoundTrip.Statement (.shl h d a b) := by
  have hs := Bool.toNat_lt h.sw
  refine roundTrip_one rfl ?_ rfl ?_
  · simp only [Raw.ok, Bool.and_eq_true, decide_eq_true_eq]; omega
  · simp [ofRaw, laneA]

theorem RoundTrip.shr (h : Hd) (d : R64) (a : R64) (b : R64) : RoundTrip.Statement (.shr h d a b) := by
  have hs := Bool.toNat_lt h.sw
  refine roundTrip_one rfl ?_ rfl ?_
  · simp only [Raw.ok, Bool.and_eq_true, decide_eq_true_eq]; omega
  · simp [ofRaw, laneA]

theorem RoundTrip.sar (h : Hd) (d : R64) (a : R64) (b : R64) : RoundTrip.Statement (.sar h d a b) := by
  have hs := Bool.toNat_lt h.sw
  refine roundTrip_one rfl ?_ rfl ?_
  · simp only [Raw.ok, Bool.and_eq_true, decide_eq_true_eq]; omega
  · simp [ofRaw, laneA]

theorem RoundTrip.rotl (h : Hd) (d : R64) (a : R64) (b : R64) : RoundTrip.Statement (.rotl h d a b) := by
  have hs := Bool.toNat_lt h.sw
  refine roundTrip_one rfl ?_ rfl ?_
  · simp only [Raw.ok, Bool.and_eq_true, decide_eq_true_eq]; omega
  · simp [ofRaw, laneA]

theorem RoundTrip.popc (h : Hd) (d : R64) (a : R64) : RoundTrip.Statement (.popc h d a) := by
  have hs := Bool.toNat_lt h.sw
  refine roundTrip_one rfl ?_ rfl ?_
  · simp only [Raw.ok, Bool.and_eq_true, decide_eq_true_eq]; omega
  · simp [ofRaw, laneA]

theorem RoundTrip.clz (h : Hd) (d : R64) (a : R64) : RoundTrip.Statement (.clz h d a) := by
  have hs := Bool.toNat_lt h.sw
  refine roundTrip_one rfl ?_ rfl ?_
  · simp only [Raw.ok, Bool.and_eq_true, decide_eq_true_eq]; omega
  · simp [ofRaw, laneA]

theorem RoundTrip.brev (h : Hd) (d : R64) (a : R64) : RoundTrip.Statement (.brev h d a) := by
  have hs := Bool.toNat_lt h.sw
  refine roundTrip_one rfl ?_ rfl ?_
  · simp only [Raw.ok, Bool.and_eq_true, decide_eq_true_eq]; omega
  · simp [ofRaw, laneA]

theorem RoundTrip.bfx (h : Hd) (d : R64) (a : R64) (b : R64) (s : Bool) : RoundTrip.Statement (.bfx h d a b s) := by
  have hs := Bool.toNat_lt h.sw
  have := Bool.toNat_lt s
  refine roundTrip_one rfl ?_ rfl ?_
  · simp only [Raw.ok, Bool.and_eq_true, decide_eq_true_eq]; omega
  · simp [ofRaw, laneA]

theorem RoundTrip.bfi (h : Hd) (d : R64) (a : R64) (b : R64) : RoundTrip.Statement (.bfi h d a b) := by
  have hs := Bool.toNat_lt h.sw
  refine roundTrip_one rfl ?_ rfl ?_
  · simp only [Raw.ok, Bool.and_eq_true, decide_eq_true_eq]; omega
  · simp [ofRaw, laneA]

theorem RoundTrip.sel (h : Hd) (d : R64) (a : R64) (b : R64) (n : Fin 4) : RoundTrip.Statement (.sel h d a b n) := by
  have hs := Bool.toNat_lt h.sw
  refine roundTrip_one rfl ?_ rfl ?_
  · simp only [Raw.ok, Bool.and_eq_true, decide_eq_true_eq]; omega
  · simp [ofRaw, laneA]

theorem RoundTrip.icmp (h : Hd) (p : R8) (c : Cc) (a : R64) (b : R64) (u : Bool) : RoundTrip.Statement (.icmp h p c a b u) := by
  have hs := Bool.toNat_lt h.sw
  have := Cc.code_lt c
  have := Bool.toNat_lt u
  refine roundTrip_one rfl ?_ rfl ?_
  · simp only [Raw.ok, Bool.and_eq_true, decide_eq_true_eq]; omega
  · have e1 : fin? 8 ((p.val * 8 + c.code) / 8) = some p := fin?_of p (by omega)
    have e2 : Cc.of? ((p.val * 8 + c.code) % 8) = some c := Cc.of?_of c (by omega)
    have e3 : bool? ((u.toNat)) = some u := bool?_of u (by omega)
    have e4 : (fr 64 ((a.val))) = a := fr_of a (by omega)
    have e5 : (fr 64 ((b.val))) = b := fr_of b (by omega)
    simp only [ofRaw, laneA, hd_eq, e1, e2, e3, e4, e5, Option.bind_some, Option.map_some, Nat.reduceLT, if_true, if_false, OfNat.ofNat_ne_zero, one_ne_zero]

theorem RoundTrip.lea (h : Hd) (d : R64) (a : R64) (b : R64) (x : Fin 4) : RoundTrip.Statement (.lea h d a b x) := by
  have hs := Bool.toNat_lt h.sw
  refine roundTrip_one rfl ?_ rfl ?_
  · simp only [Raw.ok, Bool.and_eq_true, decide_eq_true_eq]; omega
  · simp [ofRaw, laneA]

theorem RoundTrip.iaddi (h : Hd) (d : R64) (a : R64) (i : Fin 256) : RoundTrip.Statement (.iaddi h d a i) := by
  have hs := Bool.toNat_lt h.sw
  refine roundTrip_one rfl ?_ rfl ?_
  · simp only [Raw.ok, Bool.and_eq_true, decide_eq_true_eq]; omega
  · have e1 : fin? 256 (((i.val / 4) * 4 + (i.val % 4))) = some i := fin?_of i (by omega)
    have e2 : (fr 64 ((d.val))) = d := fr_of d (by omega)
    have e3 : (fr 64 ((a.val))) = a := fr_of a (by omega)
    simp only [ofRaw, laneA, hd_eq, e1, e2, e3, Option.bind_some, Option.map_some, Nat.reduceLT, if_true, if_false, OfNat.ofNat_ne_zero, one_ne_zero]

theorem RoundTrip.imuli (h : Hd) (d : R64) (a : R64) (i : Fin 256) : RoundTrip.Statement (.imuli h d a i) := by
  have hs := Bool.toNat_lt h.sw
  refine roundTrip_one rfl ?_ rfl ?_
  · simp only [Raw.ok, Bool.and_eq_true, decide_eq_true_eq]; omega
  · have e1 : fin? 256 (((i.val / 4) * 4 + (i.val % 4))) = some i := fin?_of i (by omega)
    have e2 : (fr 64 ((d.val))) = d := fr_of d (by omega)
    have e3 : (fr 64 ((a.val))) = a := fr_of a (by omega)
    simp only [ofRaw, laneA, hd_eq, e1, e2, e3, Option.bind_some, Option.map_some, Nat.reduceLT, if_true, if_false, OfNat.ofNat_ne_zero, one_ne_zero]

theorem RoundTrip.andi (h : Hd) (d : R64) (a : R64) (i : Fin 256) : RoundTrip.Statement (.andi h d a i) := by
  have hs := Bool.toNat_lt h.sw
  refine roundTrip_one rfl ?_ rfl ?_
  · simp only [Raw.ok, Bool.and_eq_true, decide_eq_true_eq]; omega
  · have e1 : fin? 256 (((i.val / 4) * 4 + (i.val % 4))) = some i := fin?_of i (by omega)
    have e2 : (fr 64 ((d.val))) = d := fr_of d (by omega)
    have e3 : (fr 64 ((a.val))) = a := fr_of a (by omega)
    simp only [ofRaw, laneA, hd_eq, e1, e2, e3, Option.bind_some, Option.map_some, Nat.reduceLT, if_true, if_false, OfNat.ofNat_ne_zero, one_ne_zero]

theorem RoundTrip.ori (h : Hd) (d : R64) (a : R64) (i : Fin 256) : RoundTrip.Statement (.ori h d a i) := by
  have hs := Bool.toNat_lt h.sw
  refine roundTrip_one rfl ?_ rfl ?_
  · simp only [Raw.ok, Bool.and_eq_true, decide_eq_true_eq]; omega
  · have e1 : fin? 256 (((i.val / 4) * 4 + (i.val % 4))) = some i := fin?_of i (by omega)
    have e2 : (fr 64 ((d.val))) = d := fr_of d (by omega)
    have e3 : (fr 64 ((a.val))) = a := fr_of a (by omega)
    simp only [ofRaw, laneA, hd_eq, e1, e2, e3, Option.bind_some, Option.map_some, Nat.reduceLT, if_true, if_false, OfNat.ofNat_ne_zero, one_ne_zero]

theorem RoundTrip.xori (h : Hd) (d : R64) (a : R64) (i : Fin 256) : RoundTrip.Statement (.xori h d a i) := by
  have hs := Bool.toNat_lt h.sw
  refine roundTrip_one rfl ?_ rfl ?_
  · simp only [Raw.ok, Bool.and_eq_true, decide_eq_true_eq]; omega
  · have e1 : fin? 256 (((i.val / 4) * 4 + (i.val % 4))) = some i := fin?_of i (by omega)
    have e2 : (fr 64 ((d.val))) = d := fr_of d (by omega)
    have e3 : (fr 64 ((a.val))) = a := fr_of a (by omega)
    simp only [ofRaw, laneA, hd_eq, e1, e2, e3, Option.bind_some, Option.map_some, Nat.reduceLT, if_true, if_false, OfNat.ofNat_ne_zero, one_ne_zero]

theorem RoundTrip.shli (h : Hd) (d : R64) (a : R64) (i : Fin 32) : RoundTrip.Statement (.shli h d a i) := by
  have hs := Bool.toNat_lt h.sw
  refine roundTrip_one rfl ?_ rfl ?_
  · simp only [Raw.ok, Bool.and_eq_true, decide_eq_true_eq]; omega
  · have e1 : fin? 32 (((i.val / 4) * 4 + (i.val % 4))) = some i := fin?_of i (by omega)
    have e2 : (fr 64 ((d.val))) = d := fr_of d (by omega)
    have e3 : (fr 64 ((a.val))) = a := fr_of a (by omega)
    simp only [ofRaw, laneA, hd_eq, e1, e2, e3, Option.bind_some, Option.map_some, Nat.reduceLT, if_true, if_false, OfNat.ofNat_ne_zero, one_ne_zero]

theorem RoundTrip.shri (h : Hd) (d : R64) (a : R64) (i : Fin 32) : RoundTrip.Statement (.shri h d a i) := by
  have hs := Bool.toNat_lt h.sw
  refine roundTrip_one rfl ?_ rfl ?_
  · simp only [Raw.ok, Bool.and_eq_true, decide_eq_true_eq]; omega
  · have e1 : fin? 32 (((i.val / 4) * 4 + (i.val % 4))) = some i := fin?_of i (by omega)
    have e2 : (fr 64 ((d.val))) = d := fr_of d (by omega)
    have e3 : (fr 64 ((a.val))) = a := fr_of a (by omega)
    simp only [ofRaw, laneA, hd_eq, e1, e2, e3, Option.bind_some, Option.map_some, Nat.reduceLT, if_true, if_false, OfNat.ofNat_ne_zero, one_ne_zero]

theorem RoundTrip.sari (h : Hd) (d : R64) (a : R64) (i : Fin 32) : RoundTrip.Statement (.sari h d a i) := by
  have hs := Bool.toNat_lt h.sw
  refine roundTrip_one rfl ?_ rfl ?_
  · simp only [Raw.ok, Bool.and_eq_true, decide_eq_true_eq]; omega
  · have e1 : fin? 32 (((i.val / 4) * 4 + (i.val % 4))) = some i := fin?_of i (by omega)
    have e2 : (fr 64 ((d.val))) = d := fr_of d (by omega)
    have e3 : (fr 64 ((a.val))) = a := fr_of a (by omega)
    simp only [ofRaw, laneA, hd_eq, e1, e2, e3, Option.bind_some, Option.map_some, Nat.reduceLT, if_true, if_false, OfNat.ofNat_ne_zero, one_ne_zero]

theorem RoundTrip.movi (h : Hd) (d : R64) (i : Fin 16384) : RoundTrip.Statement (.movi h d i) := by
  have hs := Bool.toNat_lt h.sw
  refine roundTrip_one rfl ?_ rfl ?_
  · simp only [Raw.ok, Bool.and_eq_true, decide_eq_true_eq]; omega
  · have e1 : fin? 16384 (((i.val / 256) * 256 + (i.val / 4 % 64) * 4 + (i.val % 4))) = some i := fin?_of i (by omega)
    have e2 : (fr 64 ((d.val))) = d := fr_of d (by omega)
    simp only [ofRaw, laneB, hd_eq, e1, e2, Option.bind_some, Option.map_some, Nat.reduceLT, if_true, if_false, OfNat.ofNat_ne_zero, one_ne_zero]

theorem RoundTrip.movl (h : Hd) (d : R64) (lit : Word) : RoundTrip.Statement (.movl h d lit) := by
  refine roundTrip_two (lit := lit) (j := .movl h d 0) rfl ?_ rfl ?_ rfl rfl ?_
  · have := Bool.toNat_lt h.sw
    simp only [Raw.ok, Bool.and_eq_true, decide_eq_true_eq]; omega
  · simp [ofRaw, laneB]
  · simp [ofRaw, laneB]

theorem RoundTrip.mov (h : Hd) (d : R64) (a : R64) : RoundTrip.Statement (.mov h d a) := by
  have hs := Bool.toNat_lt h.sw
  refine roundTrip_one rfl ?_ rfl ?_
  · simp only [Raw.ok, Bool.and_eq_true, decide_eq_true_eq]; omega
  · simp [ofRaw, laneB]

theorem RoundTrip.movs (h : Hd) (d : R64) (a : R64) : RoundTrip.Statement (.movs h d a) := by
  have hs := Bool.toNat_lt h.sw
  refine roundTrip_one rfl ?_ rfl ?_
  · simp only [Raw.ok, Bool.and_eq_true, decide_eq_true_eq]; omega
  · simp [ofRaw, laneB]

theorem RoundTrip.plog (h : Hd) (p : R8) (o : LogOp) (a : R8) (b : R8) : RoundTrip.Statement (.plog h p o a b) := by
  have hs := Bool.toNat_lt h.sw
  have := LogOp.code_lt o
  refine roundTrip_one rfl ?_ rfl ?_
  · simp only [Raw.ok, Bool.and_eq_true, decide_eq_true_eq]; omega
  · have e1 : fin? 8 ((p.val * 8 + o.code) / 8) = some p := fin?_of p (by omega)
    have e2 : LogOp.of? ((p.val * 8 + o.code) % 8) = some o := LogOp.of?_of o (by omega)
    have e3 : fin? 8 ((a.val)) = some a := fin?_of a (by omega)
    have e4 : fin? 8 ((b.val)) = some b := fin?_of b (by omega)
    have e5 : (0) = 0 := by omega
    simp only [ofRaw, laneB, hd_eq, e1, e2, e3, e4, if_pos e5, Option.bind_some, Option.map_some, Nat.reduceLT, if_true, if_false, OfNat.ofNat_ne_zero, one_ne_zero]

theorem RoundTrip.psetv (h : Hd) (p : R8) (a : R64) : RoundTrip.Statement (.psetv h p a) := by
  have hs := Bool.toNat_lt h.sw
  refine roundTrip_one rfl ?_ rfl ?_
  · simp only [Raw.ok, Bool.and_eq_true, decide_eq_true_eq]; omega
  · have e1 : fin? 8 ((p.val * 8 + 0) / 8) = some p := fin?_of p (by omega)
    have e2 : (fr 64 ((a.val))) = a := fr_of a (by omega)
    have e3 : (p.val * 8 + 0) % 8 = 0 ∧ (0) = 0 ∧ (0) = 0 := by omega
    simp only [ofRaw, laneB, hd_eq, e1, e2, Option.bind_some, Option.map_some, Nat.reduceLT, if_true, if_false, OfNat.ofNat_ne_zero, one_ne_zero]
    exact if_pos (by simp only [true_and, and_self, and_true]; omega)

theorem RoundTrip.pgetv (h : Hd) (d : R64) (a : R8) (m : Bool) : RoundTrip.Statement (.pgetv h d a m) := by
  have hs := Bool.toNat_lt h.sw
  have := Bool.toNat_lt m
  refine roundTrip_one rfl ?_ rfl ?_
  · simp only [Raw.ok, Bool.and_eq_true, decide_eq_true_eq]; omega
  · simp [ofRaw, laneB]

theorem RoundTrip.icmpi (h : Hd) (p : R8) (c : Cc) (a : R64) (i : Fin 256) : RoundTrip.Statement (.icmpi h p c a i) := by
  have hs := Bool.toNat_lt h.sw
  have := Cc.code_lt c
  refine roundTrip_one rfl ?_ rfl ?_
  · simp only [Raw.ok, Bool.and_eq_true, decide_eq_true_eq]; omega
  · have e1 : fin? 8 ((p.val * 8 + c.code) / 8) = some p := fin?_of p (by omega)
    have e2 : Cc.of? ((p.val * 8 + c.code) % 8) = some c := Cc.of?_of c (by omega)
    have e3 : fin? 256 (((i.val / 4) * 4 + (i.val % 4))) = some i := fin?_of i (by omega)
    have e4 : (fr 64 ((a.val))) = a := fr_of a (by omega)
    simp only [ofRaw, laneB, hd_eq, e1, e2, e3, e4, Option.bind_some, Option.map_some, Nat.reduceLT, if_true, if_false, OfNat.ofNat_ne_zero, one_ne_zero]

theorem RoundTrip.fadd (h : Hd) (d : R64) (a : R64) (b : R64) (m : Rm) : RoundTrip.Statement (.fadd h d a b m) := by
  have hs := Bool.toNat_lt h.sw
  have := Rm.code_lt m
  refine roundTrip_one rfl ?_ rfl ?_
  · simp only [Raw.ok, Bool.and_eq_true, decide_eq_true_eq]; omega
  · simp [ofRaw, laneB]

theorem RoundTrip.fsub (h : Hd) (d : R64) (a : R64) (b : R64) (m : Rm) : RoundTrip.Statement (.fsub h d a b m) := by
  have hs := Bool.toNat_lt h.sw
  have := Rm.code_lt m
  refine roundTrip_one rfl ?_ rfl ?_
  · simp only [Raw.ok, Bool.and_eq_true, decide_eq_true_eq]; omega
  · simp [ofRaw, laneB]

theorem RoundTrip.fmul (h : Hd) (d : R64) (a : R64) (b : R64) (m : Rm) : RoundTrip.Statement (.fmul h d a b m) := by
  have hs := Bool.toNat_lt h.sw
  have := Rm.code_lt m
  refine roundTrip_one rfl ?_ rfl ?_
  · simp only [Raw.ok, Bool.and_eq_true, decide_eq_true_eq]; omega
  · simp [ofRaw, laneB]

theorem RoundTrip.fmac (h : Hd) (d : R64) (a : R64) (b : R64) (m : Rm) : RoundTrip.Statement (.fmac h d a b m) := by
  have hs := Bool.toNat_lt h.sw
  have := Rm.code_lt m
  refine roundTrip_one rfl ?_ rfl ?_
  · simp only [Raw.ok, Bool.and_eq_true, decide_eq_true_eq]; omega
  · simp [ofRaw, laneB]

theorem RoundTrip.fmin (h : Hd) (d : R64) (a : R64) (b : R64) : RoundTrip.Statement (.fmin h d a b) := by
  have hs := Bool.toNat_lt h.sw
  refine roundTrip_one rfl ?_ rfl ?_
  · simp only [Raw.ok, Bool.and_eq_true, decide_eq_true_eq]; omega
  · simp [ofRaw, laneB]

theorem RoundTrip.fmax (h : Hd) (d : R64) (a : R64) (b : R64) : RoundTrip.Statement (.fmax h d a b) := by
  have hs := Bool.toNat_lt h.sw
  refine roundTrip_one rfl ?_ rfl ?_
  · simp only [Raw.ok, Bool.and_eq_true, decide_eq_true_eq]; omega
  · simp [ofRaw, laneB]

theorem RoundTrip.fcmp (h : Hd) (p : R8) (c : Cc) (a : R64) (b : R64) : RoundTrip.Statement (.fcmp h p c a b) := by
  have hs := Bool.toNat_lt h.sw
  have := Cc.code_lt c
  refine roundTrip_one rfl ?_ rfl ?_
  · simp only [Raw.ok, Bool.and_eq_true, decide_eq_true_eq]; omega
  · have e1 : fin? 8 ((p.val * 8 + c.code) / 8) = some p := fin?_of p (by omega)
    have e2 : Cc.of? ((p.val * 8 + c.code) % 8) = some c := Cc.of?_of c (by omega)
    have e3 : (fr 64 ((a.val))) = a := fr_of a (by omega)
    have e4 : (fr 64 ((b.val))) = b := fr_of b (by omega)
    have e5 : (0) = 0 := by omega
    simp only [ofRaw, laneB, hd_eq, e1, e2, e3, e4, if_pos e5, Option.bind_some, Option.map_some, Nat.reduceLT, if_true, if_false, OfNat.ofNat_ne_zero, one_ne_zero]

theorem RoundTrip.fsgn (h : Hd) (d : R64) (a : R64) (b : R64) (o : SgnOp) : RoundTrip.Statement (.fsgn h d a b o) := by
  have hs := Bool.toNat_lt h.sw
  have := SgnOp.code_lt o
  refine roundTrip_one rfl ?_ rfl ?_
  · simp only [Raw.ok, Bool.and_eq_true, decide_eq_true_eq]; omega
  · simp [ofRaw, laneB]

theorem RoundTrip.frcp (h : Hd) (d : R64) (a : R64) : RoundTrip.Statement (.frcp h d a) := by
  have hs := Bool.toNat_lt h.sw
  refine roundTrip_one rfl ?_ rfl ?_
  · simp only [Raw.ok, Bool.and_eq_true, decide_eq_true_eq]; omega
  · simp [ofRaw, laneB]

theorem RoundTrip.frsq (h : Hd) (d : R64) (a : R64) : RoundTrip.Statement (.frsq h d a) := by
  have hs := Bool.toNat_lt h.sw
  refine roundTrip_one rfl ?_ rfl ?_
  · simp only [Raw.ok, Bool.and_eq_true, decide_eq_true_eq]; omega
  · simp [ofRaw, laneB]

theorem RoundTrip.fsqrt (h : Hd) (d : R64) (a : R64) (m : Rm) : RoundTrip.Statement (.fsqrt h d a m) := by
  have hs := Bool.toNat_lt h.sw
  have := Rm.code_lt m
  refine roundTrip_one rfl ?_ rfl ?_
  · simp only [Raw.ok, Bool.and_eq_true, decide_eq_true_eq]; omega
  · simp [ofRaw, laneB]

theorem RoundTrip.fdiv (h : Hd) (d : R64) (a : R64) (b : R64) (m : Rm) : RoundTrip.Statement (.fdiv h d a b m) := by
  have hs := Bool.toNat_lt h.sw
  have := Rm.code_lt m
  refine roundTrip_one rfl ?_ rfl ?_
  · simp only [Raw.ok, Bool.and_eq_true, decide_eq_true_eq]; omega
  · simp [ofRaw, laneB]

theorem RoundTrip.log2 (h : Hd) (d : R64) (a : R64) (m : Rm) : RoundTrip.Statement (.log2 h d a m) := by
  have hs := Bool.toNat_lt h.sw
  have := Rm.code_lt m
  refine roundTrip_one rfl ?_ rfl ?_
  · simp only [Raw.ok, Bool.and_eq_true, decide_eq_true_eq]; omega
  · simp [ofRaw, laneB]

theorem RoundTrip.exp2 (h : Hd) (d : R64) (a : R64) (m : Rm) : RoundTrip.Statement (.exp2 h d a m) := by
  have hs := Bool.toNat_lt h.sw
  have := Rm.code_lt m
  refine roundTrip_one rfl ?_ rfl ?_
  · simp only [Raw.ok, Bool.and_eq_true, decide_eq_true_eq]; omega
  · simp [ofRaw, laneB]

theorem RoundTrip.fclass (h : Hd) (d : R64) (a : R64) : RoundTrip.Statement (.fclass h d a) := by
  have hs := Bool.toNat_lt h.sw
  refine roundTrip_one rfl ?_ rfl ?_
  · simp only [Raw.ok, Bool.and_eq_true, decide_eq_true_eq]; omega
  · simp [ofRaw, laneB]

theorem RoundTrip.cvt (h : Hd) (d : R64) (a : R64) (o : CvtOp) (m : Rm) : RoundTrip.Statement (.cvt h d a o m) := by
  have hs := Bool.toNat_lt h.sw
  have := CvtOp.code_lt o
  have := Rm.code_lt m
  refine roundTrip_one rfl ?_ rfl ?_
  · simp only [Raw.ok, Bool.and_eq_true, decide_eq_true_eq]; omega
  · simp [ofRaw, laneB]

theorem RoundTrip.hadd2 (h : Hd) (d : R64) (a : R64) (b : R64) (m : Rm) : RoundTrip.Statement (.hadd2 h d a b m) := by
  have hs := Bool.toNat_lt h.sw
  have := Rm.code_lt m
  refine roundTrip_one rfl ?_ rfl ?_
  · simp only [Raw.ok, Bool.and_eq_true, decide_eq_true_eq]; omega
  · simp [ofRaw, laneB]

theorem RoundTrip.hmul2 (h : Hd) (d : R64) (a : R64) (b : R64) (m : Rm) : RoundTrip.Statement (.hmul2 h d a b m) := by
  have hs := Bool.toNat_lt h.sw
  have := Rm.code_lt m
  refine roundTrip_one rfl ?_ rfl ?_
  · simp only [Raw.ok, Bool.and_eq_true, decide_eq_true_eq]; omega
  · simp [ofRaw, laneB]

theorem RoundTrip.hmac2 (h : Hd) (d : R64) (a : R64) (b : R64) (m : Rm) : RoundTrip.Statement (.hmac2 h d a b m) := by
  have hs := Bool.toNat_lt h.sw
  have := Rm.code_lt m
  refine roundTrip_one rfl ?_ rfl ?_
  · simp only [Raw.ok, Bool.and_eq_true, decide_eq_true_eq]; omega
  · simp [ofRaw, laneB]

theorem RoundTrip.fmaxx (h : Hd) (d : R64) (a : R64) (b : R64) : RoundTrip.Statement (.fmaxx h d a b) := by
  have hs := Bool.toNat_lt h.sw
  refine roundTrip_one rfl ?_ rfl ?_
  · simp only [Raw.ok, Bool.and_eq_true, decide_eq_true_eq]; omega
  · simp [ofRaw, laneB]

theorem RoundTrip.cvtl6 (h : Hd) (d : R64) (a : R64) (b : R64) : RoundTrip.Statement (.cvtl6 h d a b) := by
  have hs := Bool.toNat_lt h.sw
  refine roundTrip_one rfl ?_ rfl ?_
  · simp only [Raw.ok, Bool.and_eq_true, decide_eq_true_eq]; omega
  · simp [ofRaw, laneB]

theorem RoundTrip.cvtf8 (h : Hd) (d : R64) (a : R64) (o : Cvt8Op) (m : Rm) : RoundTrip.Statement (.cvtf8 h d a o m) := by
  have hs := Bool.toNat_lt h.sw
  have := Cvt8Op.code_lt o
  have := Rm.code_lt m
  refine roundTrip_one rfl ?_ rfl ?_
  · simp only [Raw.ok, Bool.and_eq_true, decide_eq_true_eq]; omega
  · simp [ofRaw, laneB]

theorem RoundTrip.sclx (h : Hd) (d : R64) (a : R64) (o : SclxOp) (m : Rm) : RoundTrip.Statement (.sclx h d a o m) := by
  have hs := Bool.toNat_lt h.sw
  have := SclxOp.code_lt o
  have := Rm.code_lt m
  refine roundTrip_one rfl ?_ rfl ?_
  · simp only [Raw.ok, Bool.and_eq_true, decide_eq_true_eq]; omega
  · simp [ofRaw, laneB]

theorem RoundTrip.rand (h : Hd) (d : R64) (a : R64) (b : R64) (u : Bool) : RoundTrip.Statement (.rand h d a b u) := by
  have hs := Bool.toNat_lt h.sw
  have := Bool.toNat_lt u
  refine roundTrip_one rfl ?_ rfl ?_
  · simp only [Raw.ok, Bool.and_eq_true, decide_eq_true_eq]; omega
  · simp [ofRaw, laneB]

theorem RoundTrip.ld (h : Hd) (d : R64) (a : R64) (z : Sz) (o : R64) : RoundTrip.Statement (.ld h d a z o) := by
  have hs := Bool.toNat_lt h.sw
  have := Sz.code_lt z
  refine roundTrip_one rfl ?_ rfl ?_
  · simp only [Raw.ok, Bool.and_eq_true, decide_eq_true_eq]; omega
  · have e1 : Sz.of? ((z.code * 16 + o.val / 4) / 16) = some z := Sz.of?_of z (by omega)
    have e2 : (fr 64 ((d.val))) = d := fr_of d (by omega)
    have e3 : (fr 64 ((a.val))) = a := fr_of a (by omega)
    have e4 : (fr 64 (((z.code * 16 + o.val / 4) % 16 * 4 + (o.val % 4)))) = o := fr_of o (by omega)
    simp only [ofRaw, laneC, hd_eq, e1, e2, e3, e4, Option.bind_some, Option.map_some, Nat.reduceLT, if_true, if_false, OfNat.ofNat_ne_zero, one_ne_zero]

theorem RoundTrip.st (h : Hd) (d : R64) (a : R64) (z : Sz) (o : R64) : RoundTrip.Statement (.st h d a z o) := by
  have hs := Bool.toNat_lt h.sw
  have := Sz.code_lt z
  refine roundTrip_one rfl ?_ rfl ?_
  · simp only [Raw.ok, Bool.and_eq_true, decide_eq_true_eq]; omega
  · have e1 : Sz.of? ((z.code * 16 + o.val / 4) / 16) = some z := Sz.of?_of z (by omega)
    have e2 : (fr 64 ((d.val))) = d := fr_of d (by omega)
    have e3 : (fr 64 ((a.val))) = a := fr_of a (by omega)
    have e4 : (fr 64 (((z.code * 16 + o.val / 4) % 16 * 4 + (o.val % 4)))) = o := fr_of o (by omega)
    simp only [ofRaw, laneC, hd_eq, e1, e2, e3, e4, Option.bind_some, Option.map_some, Nat.reduceLT, if_true, if_false, OfNat.ofNat_ne_zero, one_ne_zero]

theorem RoundTrip.ldacq (h : Hd) (d : R64) (a : R64) (z : Sz) (sc : Scope) : RoundTrip.Statement (.ldacq h d a z sc) := by
  have hs := Bool.toNat_lt h.sw
  have := Sz.code_lt z
  have := Scope.code_lt sc
  refine roundTrip_one rfl ?_ rfl ?_
  · simp only [Raw.ok, Bool.and_eq_true, decide_eq_true_eq]; omega
  · have e1 : Sz.of? ((z.code * 16 + (sc.code * 16) / 4) / 16) = some z := Sz.of?_of z (by omega)
    have e2 : Scope.of? (((z.code * 16 + (sc.code * 16) / 4) % 16 * 4 + ((sc.code * 16) % 4)) / 16) = some sc := Scope.of?_of sc (by omega)
    have e3 : (fr 64 ((d.val))) = d := fr_of d (by omega)
    have e4 : (fr 64 ((a.val))) = a := fr_of a (by omega)
    have e5 : ((z.code * 16 + (sc.code * 16) / 4) % 16 * 4 + ((sc.code * 16) % 4)) % 16 = 0 := by omega
    simp only [ofRaw, laneC, hd_eq, e1, e2, e3, e4, if_pos e5, Option.bind_some, Option.map_some, Nat.reduceLT, if_true, if_false, OfNat.ofNat_ne_zero, one_ne_zero]

theorem RoundTrip.strel (h : Hd) (d : R64) (a : R64) (z : Sz) (sc : Scope) : RoundTrip.Statement (.strel h d a z sc) := by
  have hs := Bool.toNat_lt h.sw
  have := Sz.code_lt z
  have := Scope.code_lt sc
  refine roundTrip_one rfl ?_ rfl ?_
  · simp only [Raw.ok, Bool.and_eq_true, decide_eq_true_eq]; omega
  · have e1 : Sz.of? ((z.code * 16 + (sc.code * 16) / 4) / 16) = some z := Sz.of?_of z (by omega)
    have e2 : Scope.of? (((z.code * 16 + (sc.code * 16) / 4) % 16 * 4 + ((sc.code * 16) % 4)) / 16) = some sc := Scope.of?_of sc (by omega)
    have e3 : (fr 64 ((d.val))) = d := fr_of d (by omega)
    have e4 : (fr 64 ((a.val))) = a := fr_of a (by omega)
    have e5 : ((z.code * 16 + (sc.code * 16) / 4) % 16 * 4 + ((sc.code * 16) % 4)) % 16 = 0 := by omega
    simp only [ofRaw, laneC, hd_eq, e1, e2, e3, e4, if_pos e5, Option.bind_some, Option.map_some, Nat.reduceLT, if_true, if_false, OfNat.ofNat_ne_zero, one_ne_zero]

theorem RoundTrip.lds (h : Hd) (d : R64) (a : R64) (z : Sz) (o : R64) : RoundTrip.Statement (.lds h d a z o) := by
  have hs := Bool.toNat_lt h.sw
  have := Sz.code_lt z
  refine roundTrip_one rfl ?_ rfl ?_
  · simp only [Raw.ok, Bool.and_eq_true, decide_eq_true_eq]; omega
  · have e1 : Sz.of? ((z.code * 16 + o.val / 4) / 16) = some z := Sz.of?_of z (by omega)
    have e2 : (fr 64 ((d.val))) = d := fr_of d (by omega)
    have e3 : (fr 64 ((a.val))) = a := fr_of a (by omega)
    have e4 : (fr 64 (((z.code * 16 + o.val / 4) % 16 * 4 + (o.val % 4)))) = o := fr_of o (by omega)
    simp only [ofRaw, laneC, hd_eq, e1, e2, e3, e4, Option.bind_some, Option.map_some, Nat.reduceLT, if_true, if_false, OfNat.ofNat_ne_zero, one_ne_zero]

theorem RoundTrip.sts (h : Hd) (d : R64) (a : R64) (z : Sz) (o : R64) : RoundTrip.Statement (.sts h d a z o) := by
  have hs := Bool.toNat_lt h.sw
  have := Sz.code_lt z
  refine roundTrip_one rfl ?_ rfl ?_
  · simp only [Raw.ok, Bool.and_eq_true, decide_eq_true_eq]; omega
  · have e1 : Sz.of? ((z.code * 16 + o.val / 4) / 16) = some z := Sz.of?_of z (by omega)
    have e2 : (fr 64 ((d.val))) = d := fr_of d (by omega)
    have e3 : (fr 64 ((a.val))) = a := fr_of a (by omega)
    have e4 : (fr 64 (((z.code * 16 + o.val / 4) % 16 * 4 + (o.val % 4)))) = o := fr_of o (by omega)
    simp only [ofRaw, laneC, hd_eq, e1, e2, e3, e4, Option.bind_some, Option.map_some, Nat.reduceLT, if_true, if_false, OfNat.ofNat_ne_zero, one_ne_zero]

theorem RoundTrip.ldl (h : Hd) (d : R64) (a : R64) (z : Sz) (o : R64) : RoundTrip.Statement (.ldl h d a z o) := by
  have hs := Bool.toNat_lt h.sw
  have := Sz.code_lt z
  refine roundTrip_one rfl ?_ rfl ?_
  · simp only [Raw.ok, Bool.and_eq_true, decide_eq_true_eq]; omega
  · have e1 : Sz.of? ((z.code * 16 + o.val / 4) / 16) = some z := Sz.of?_of z (by omega)
    have e2 : (fr 64 ((d.val))) = d := fr_of d (by omega)
    have e3 : (fr 64 ((a.val))) = a := fr_of a (by omega)
    have e4 : (fr 64 (((z.code * 16 + o.val / 4) % 16 * 4 + (o.val % 4)))) = o := fr_of o (by omega)
    simp only [ofRaw, laneC, hd_eq, e1, e2, e3, e4, Option.bind_some, Option.map_some, Nat.reduceLT, if_true, if_false, OfNat.ofNat_ne_zero, one_ne_zero]

theorem RoundTrip.stl (h : Hd) (d : R64) (a : R64) (z : Sz) (o : R64) : RoundTrip.Statement (.stl h d a z o) := by
  have hs := Bool.toNat_lt h.sw
  have := Sz.code_lt z
  refine roundTrip_one rfl ?_ rfl ?_
  · simp only [Raw.ok, Bool.and_eq_true, decide_eq_true_eq]; omega
  · have e1 : Sz.of? ((z.code * 16 + o.val / 4) / 16) = some z := Sz.of?_of z (by omega)
    have e2 : (fr 64 ((d.val))) = d := fr_of d (by omega)
    have e3 : (fr 64 ((a.val))) = a := fr_of a (by omega)
    have e4 : (fr 64 (((z.code * 16 + o.val / 4) % 16 * 4 + (o.val % 4)))) = o := fr_of o (by omega)
    simp only [ofRaw, laneC, hd_eq, e1, e2, e3, e4, Option.bind_some, Option.map_some, Nat.reduceLT, if_true, if_false, OfNat.ofNat_ne_zero, one_ne_zero]

theorem RoundTrip.atadd (h : Hd) (sc : Scope) (r : Bool) (v : AddVar) (a : R64) (b : R64) (o : Ord4) : RoundTrip.Statement (.atadd h sc r v a b o) := by
  have hs := Bool.toNat_lt h.sw
  have := Scope.code_lt sc
  have := Bool.toNat_lt r
  have := AddVar.code_lt v
  have := Ord4.code_lt o
  refine roundTrip_one rfl ?_ rfl ?_
  · simp only [Raw.ok, Bool.and_eq_true, decide_eq_true_eq]; omega
  · have e1 : Scope.of? ((sc.code * 16 + r.toNat * 8 + v.code) / 16) = some sc := Scope.of?_of sc (by omega)
    have e2 : bool? ((sc.code * 16 + r.toNat * 8 + v.code) / 8 % 2) = some r := bool?_of r (by omega)
    have e3 : AddVar.of? ((sc.code * 16 + r.toNat * 8 + v.code) % 8) = some v := AddVar.of?_of v (by omega)
    have e4 : Ord4.of? ((o.code)) = some o := Ord4.of?_of o (by omega)
    have e5 : (fr 64 ((a.val))) = a := fr_of a (by omega)
    have e6 : (fr 64 ((b.val))) = b := fr_of b (by omega)
    simp only [ofRaw, laneC, hd_eq, e1, e2, e3, e4, e5, e6, Option.bind_some, Option.map_some, Nat.reduceLT, if_true, if_false, OfNat.ofNat_ne_zero, one_ne_zero]

theorem RoundTrip.atmax (h : Hd) (sc : Scope) (r : Bool) (v : MaxVar) (a : R64) (b : R64) (o : Ord4) : RoundTrip.Statement (.atmax h sc r v a b o) := by
  have hs := Bool.toNat_lt h.sw
  have := Scope.code_lt sc
  have := Bool.toNat_lt r
  have := MaxVar.code_lt v
  have := Ord4.code_lt o
  refine roundTrip_one rfl ?_ rfl ?_
  · simp only [Raw.ok, Bool.and_eq_true, decide_eq_true_eq]; omega
  · have e1 : Scope.of? ((sc.code * 16 + r.toNat * 8 + v.code) / 16) = some sc := Scope.of?_of sc (by omega)
    have e2 : bool? ((sc.code * 16 + r.toNat * 8 + v.code) / 8 % 2) = some r := bool?_of r (by omega)
    have e3 : MaxVar.of? ((sc.code * 16 + r.toNat * 8 + v.code) % 8) = some v := MaxVar.of?_of v (by omega)
    have e4 : Ord4.of? ((o.code)) = some o := Ord4.of?_of o (by omega)
    have e5 : (fr 64 ((a.val))) = a := fr_of a (by omega)
    have e6 : (fr 64 ((b.val))) = b := fr_of b (by omega)
    simp only [ofRaw, laneC, hd_eq, e1, e2, e3, e4, e5, e6, Option.bind_some, Option.map_some, Nat.reduceLT, if_true, if_false, OfNat.ofNat_ne_zero, one_ne_zero]

theorem RoundTrip.atexch (h : Hd) (sc : Scope) (v : WVar) (a : R64) (b : R64) (o : Ord4) : RoundTrip.Statement (.atexch h sc v a b o) := by
  have hs := Bool.toNat_lt h.sw
  have := Scope.code_lt sc
  have := WVar.code_lt v
  have := Ord4.code_lt o
  refine roundTrip_one rfl ?_ rfl ?_
  · simp only [Raw.ok, Bool.and_eq_true, decide_eq_true_eq]; omega
  · have e1 : Scope.of? ((sc.code * 16 + 1 * 8 + v.code) / 16) = some sc := Scope.of?_of sc (by omega)
    have e2 : WVar.of? ((sc.code * 16 + 1 * 8 + v.code) % 8) = some v := WVar.of?_of v (by omega)
    have e3 : Ord4.of? ((o.code)) = some o := Ord4.of?_of o (by omega)
    have e4 : (fr 64 ((a.val))) = a := fr_of a (by omega)
    have e5 : (fr 64 ((b.val))) = b := fr_of b (by omega)
    have e6 : (sc.code * 16 + 1 * 8 + v.code) / 8 % 2 = 1 := by omega
    simp only [ofRaw, laneC, hd_eq, e1, e2, e3, e4, e5, if_pos e6, Option.bind_some, Option.map_some, Nat.reduceLT, if_true, if_false, OfNat.ofNat_ne_zero, one_ne_zero]

theorem RoundTrip.atcas (h : Hd) (sc : Scope) (v : WVar) (a : R64) (b : R64) (o : Ord4) : RoundTrip.Statement (.atcas h sc v a b o) := by
  have hs := Bool.toNat_lt h.sw
  have := Scope.code_lt sc
  have := WVar.code_lt v
  have := Ord4.code_lt o
  refine roundTrip_one rfl ?_ rfl ?_
  · simp only [Raw.ok, Bool.and_eq_true, decide_eq_true_eq]; omega
  · have e1 : Scope.of? ((sc.code * 16 + 1 * 8 + v.code) / 16) = some sc := Scope.of?_of sc (by omega)
    have e2 : WVar.of? ((sc.code * 16 + 1 * 8 + v.code) % 8) = some v := WVar.of?_of v (by omega)
    have e3 : Ord4.of? ((o.code)) = some o := Ord4.of?_of o (by omega)
    have e4 : (fr 64 ((a.val))) = a := fr_of a (by omega)
    have e5 : (fr 64 ((b.val))) = b := fr_of b (by omega)
    have e6 : (sc.code * 16 + 1 * 8 + v.code) / 8 % 2 = 1 := by omega
    simp only [ofRaw, laneC, hd_eq, e1, e2, e3, e4, e5, if_pos e6, Option.bind_some, Option.map_some, Nat.reduceLT, if_true, if_false, OfNat.ofNat_ne_zero, one_ne_zero]

theorem RoundTrip.atlog (h : Hd) (sc : Scope) (r : Bool) (v : LogVar) (a : R64) (b : R64) (o : Ord4) : RoundTrip.Statement (.atlog h sc r v a b o) := by
  have hs := Bool.toNat_lt h.sw
  have := Scope.code_lt sc
  have := Bool.toNat_lt r
  have := LogVar.code_lt v
  have := Ord4.code_lt o
  refine roundTrip_one rfl ?_ rfl ?_
  · simp only [Raw.ok, Bool.and_eq_true, decide_eq_true_eq]; omega
  · have e1 : Scope.of? ((sc.code * 16 + r.toNat * 8 + v.code) / 16) = some sc := Scope.of?_of sc (by omega)
    have e2 : bool? ((sc.code * 16 + r.toNat * 8 + v.code) / 8 % 2) = some r := bool?_of r (by omega)
    have e3 : LogVar.of? ((sc.code * 16 + r.toNat * 8 + v.code) % 8) = some v := LogVar.of?_of v (by omega)
    have e4 : Ord4.of? ((o.code)) = some o := Ord4.of?_of o (by omega)
    have e5 : (fr 64 ((a.val))) = a := fr_of a (by omega)
    have e6 : (fr 64 ((b.val))) = b := fr_of b (by omega)
    simp only [ofRaw, laneC, hd_eq, e1, e2, e3, e4, e5, e6, Option.bind_some, Option.map_some, Nat.reduceLT, if_true, if_false, OfNat.ofNat_ne_zero, one_ne_zero]

theorem RoundTrip.atadds (h : Hd) (cn : Bool) (r : Bool) (f : Bool) (a : R64) (b : R64) (o : Ord4) : RoundTrip.Statement (.atadds h cn r f a b o) := by
  have hs := Bool.toNat_lt h.sw
  have := Bool.toNat_lt cn
  have := Bool.toNat_lt r
  have := Bool.toNat_lt f
  have := Ord4.code_lt o
  refine roundTrip_one rfl ?_ rfl ?_
  · simp only [Raw.ok, Bool.and_eq_true, decide_eq_true_eq]; omega
  · have e1 : bool? ((cn.toNat * 16 + r.toNat * 8 + f.toNat) / 16) = some cn := bool?_of cn (by omega)
    have e2 : bool? ((cn.toNat * 16 + r.toNat * 8 + f.toNat) / 8 % 2) = some r := bool?_of r (by omega)
    have e3 : bool? ((cn.toNat * 16 + r.toNat * 8 + f.toNat) % 8) = some f := bool?_of f (by omega)
    have e4 : Ord4.of? ((o.code)) = some o := Ord4.of?_of o (by omega)
    have e5 : (fr 64 ((a.val))) = a := fr_of a (by omega)
    have e6 : (fr 64 ((b.val))) = b := fr_of b (by omega)
    simp only [ofRaw, laneC, hd_eq, e1, e2, e3, e4, e5, e6, Option.bind_some, Option.map_some, Nat.reduceLT, if_true, if_false, OfNat.ofNat_ne_zero, one_ne_zero]

theorem RoundTrip.atcass (h : Hd) (cn : Bool) (a : R64) (b : R64) (o : Ord4) : RoundTrip.Statement (.atcass h cn a b o) := by
  have hs := Bool.toNat_lt h.sw
  have := Bool.toNat_lt cn
  have := Ord4.code_lt o
  refine roundTrip_one rfl ?_ rfl ?_
  · simp only [Raw.ok, Bool.and_eq_true, decide_eq_true_eq]; omega
  · have e1 : bool? ((cn.toNat * 16 + 1 * 8 + 0) / 16) = some cn := bool?_of cn (by omega)
    have e2 : Ord4.of? ((o.code)) = some o := Ord4.of?_of o (by omega)
    have e3 : (fr 64 ((a.val))) = a := fr_of a (by omega)
    have e4 : (fr 64 ((b.val))) = b := fr_of b (by omega)
    have e5 : (cn.toNat * 16 + 1 * 8 + 0) / 8 % 2 = 1 ∧ (cn.toNat * 16 + 1 * 8 + 0) % 8 = 0 := by omega
    simp only [ofRaw, laneC, hd_eq, e1, e2, e3, e4, if_pos e5, Option.bind_some, Option.map_some, Nat.reduceLT, if_true, if_false, OfNat.ofNat_ne_zero, one_ne_zero]

theorem RoundTrip.pref (h : Hd) (a : R64) (z : Sz) (o : R64) : RoundTrip.Statement (.pref h a z o) := by
  have hs := Bool.toNat_lt h.sw
  have := Sz.code_lt z
  refine roundTrip_one rfl ?_ rfl ?_
  · simp only [Raw.ok, Bool.and_eq_true, decide_eq_true_eq]; omega
  · have e1 : Sz.of? ((z.code * 16 + o.val / 4) / 16) = some z := Sz.of?_of z (by omega)
    have e2 : (fr 64 ((a.val))) = a := fr_of a (by omega)
    have e3 : (fr 64 (((z.code * 16 + o.val / 4) % 16 * 4 + (o.val % 4)))) = o := fr_of o (by omega)
    have e4 : (0) = 0 := by omega
    simp only [ofRaw, laneC, hd_eq, e1, e2, e3, if_pos e4, Option.bind_some, Option.map_some, Nat.reduceLT, if_true, if_false, OfNat.ofNat_ne_zero, one_ne_zero]

theorem RoundTrip.shfl (h : Hd) (d : R64) (a : R64) (b : R64) (o : ShflOp) : RoundTrip.Statement (.shfl h d a b o) := by
  have hs := Bool.toNat_lt h.sw
  have := ShflOp.code_lt o
  refine roundTrip_one rfl ?_ rfl ?_
  · simp only [Raw.ok, Bool.and_eq_true, decide_eq_true_eq]; omega
  · simp [ofRaw, laneC]

theorem RoundTrip.vote (h : Hd) (d : R64) (a : R64) (o : VoteOp) : RoundTrip.Statement (.vote h d a o) := by
  have hs := Bool.toNat_lt h.sw
  have := VoteOp.selM_lt o
  have := VoteOp.selB_lt o
  refine roundTrip_one rfl ?_ rfl ?_
  · simp only [Raw.ok, Bool.and_eq_true, decide_eq_true_eq]; omega
  · simp [ofRaw, laneC]

theorem RoundTrip.redl (h : Hd) (d : R64) (a : R64) (o : RedOp) (m : Rm) : RoundTrip.Statement (.redl h d a o m) := by
  have hs := Bool.toNat_lt h.sw
  have := RedOp.code_lt o
  have := Rm.code_lt m
  refine roundTrip_one rfl ?_ rfl ?_
  · simp only [Raw.ok, Bool.and_eq_true, decide_eq_true_eq]; omega
  · simp [ofRaw, laneC]

theorem RoundTrip.scanl (h : Hd) (d : R64) (a : R64) (o : RedOp) (ex : Bool) (m : Rm) : RoundTrip.Statement (.scanl h d a o ex m) := by
  have hs := Bool.toNat_lt h.sw
  have := RedOp.code_lt o
  have := Bool.toNat_lt ex
  have := Rm.code_lt m
  refine roundTrip_one rfl ?_ rfl ?_
  · simp only [Raw.ok, Bool.and_eq_true, decide_eq_true_eq]; omega
  · have e1 : RedOp.of? ((ex.toNat * 32 + o.code) % 32) = some o := RedOp.of?_of o (by omega)
    have e2 : bool? ((ex.toNat * 32 + o.code) / 32) = some ex := bool?_of ex (by omega)
    have e3 : Rm.of? (m.code) = some m := Rm.of?_of m (by omega)
    have e4 : (fr 64 (d)) = d := fr_of d (by omega)
    have e5 : (fr 64 (a)) = a := fr_of a (by omega)
    simp only [ofRaw, laneC, hd_eq, e1, e2, e3, e4, e5, Option.bind_some, Option.map_some, Nat.reduceLT, if_true, if_false, OfNat.ofNat_ne_zero, one_ne_zero]

theorem RoundTrip.widx (h : Hd) (d : R64) (f : Fin 6) (hi : Bool) : RoundTrip.Statement (.widx h d f hi) := by
  have hs := Bool.toNat_lt h.sw
  have := Bool.toNat_lt hi
  refine roundTrip_one rfl ?_ rfl ?_
  · simp only [Raw.ok, Bool.and_eq_true, decide_eq_true_eq]; omega
  · have e1 : fin? 6 (((f.val + hi.toNat * 8) / 4) % 2 * 4 + ((f.val + hi.toNat * 8) % 4)) = some f := fin?_of f (by omega)
    have e2 : bool? (((f.val + hi.toNat * 8) / 4) / 2 % 2) = some hi := bool?_of hi (by omega)
    have e3 : (fr 64 (d)) = d := fr_of d (by omega)
    have e4 : (0) = 0 ∧ ((f.val + hi.toNat * 8) / 4) / 4 = 0 := by omega
    simp only [ofRaw, laneC, hd_eq, e1, e2, e3, Option.bind_some, Option.map_some, Nat.reduceLT, if_true, if_false, OfNat.ofNat_ne_zero, one_ne_zero]
    exact if_pos (by simp only [true_and, and_self, and_true]; omega)

theorem RoundTrip.ownq (h : Hd) (d : R64) (o : OwnqOp) : RoundTrip.Statement (.ownq h d o) := by
  have hs := Bool.toNat_lt h.sw
  have := OwnqOp.code_lt o
  refine roundTrip_one rfl ?_ rfl ?_
  · simp only [Raw.ok, Bool.and_eq_true, decide_eq_true_eq]; omega
  · simp [ofRaw, laneC]

theorem RoundTrip.bra (h : Hd) (o : Fin 1048576) : RoundTrip.Statement (.bra h o) := by
  have hs := Bool.toNat_lt h.sw
  refine roundTrip_one rfl ?_ rfl ?_
  · simp only [Raw.ok, Bool.and_eq_true, decide_eq_true_eq]; omega
  · have e1 : fin? 1048576 (((o.val / 16384) * 16384 + (o.val / 256 % 64) * 256 + (o.val / 4 % 64) * 4 + (o.val % 4))) = some o := fin?_of o (by omega)
    simp only [ofRaw, laneC, hd_eq, e1, Option.bind_some, Option.map_some, Nat.reduceLT, if_true, if_false, OfNat.ofNat_ne_zero, one_ne_zero]

theorem RoundTrip.brx (h : Hd) (a : R64) : RoundTrip.Statement (.brx h a) := by
  have hs := Bool.toNat_lt h.sw
  refine roundTrip_one rfl ?_ rfl ?_
  · simp only [Raw.ok, Bool.and_eq_true, decide_eq_true_eq]; omega
  · simp [ofRaw, laneC]

theorem RoundTrip.call (h : Hd) (d : R64) (i : Fin 16384) : RoundTrip.Statement (.call h d i) := by
  have hs := Bool.toNat_lt h.sw
  refine roundTrip_one rfl ?_ rfl ?_
  · simp only [Raw.ok, Bool.and_eq_true, decide_eq_true_eq]; omega
  · have e1 : fin? 16384 (((i.val / 256) * 256 + (i.val / 4 % 64) * 4 + (i.val % 4))) = some i := fin?_of i (by omega)
    have e2 : (fr 64 ((d.val))) = d := fr_of d (by omega)
    simp only [ofRaw, laneC, hd_eq, e1, e2, Option.bind_some, Option.map_some, Nat.reduceLT, if_true, if_false, OfNat.ofNat_ne_zero, one_ne_zero]

theorem RoundTrip.ret (h : Hd) (a : R64) : RoundTrip.Statement (.ret h a) := by
  have hs := Bool.toNat_lt h.sw
  refine roundTrip_one rfl ?_ rfl ?_
  · simp only [Raw.ok, Bool.and_eq_true, decide_eq_true_eq]; omega
  · simp [ofRaw, laneC]

theorem RoundTrip.recon (h : Hd) : RoundTrip.Statement (.recon h) := by
  have hs := Bool.toNat_lt h.sw
  refine roundTrip_one rfl ?_ rfl ?_
  · simp only [Raw.ok, Bool.and_eq_true, decide_eq_true_eq]; omega
  · simp [ofRaw, laneC]

theorem RoundTrip.lexit (h : Hd) : RoundTrip.Statement (.lexit h) := by
  have hs := Bool.toNat_lt h.sw
  refine roundTrip_one rfl ?_ rfl ?_
  · simp only [Raw.ok, Bool.and_eq_true, decide_eq_true_eq]; omega
  · simp [ofRaw, laneC]

theorem RoundTrip.trap (h : Hd) (i : Fin 16384) : RoundTrip.Statement (.trap h i) := by
  have hs := Bool.toNat_lt h.sw
  refine roundTrip_one rfl ?_ rfl ?_
  · simp only [Raw.ok, Bool.and_eq_true, decide_eq_true_eq]; omega
  · have e1 : fin? 16384 (((i.val / 256) * 256 + (i.val / 4 % 64) * 4 + (i.val % 4))) = some i := fin?_of i (by omega)
    have e2 : (0) = 0 := by omega
    simp only [ofRaw, laneC, hd_eq, e1, if_pos e2, Option.bind_some, Option.map_some, Nat.reduceLT, if_true, if_false, OfNat.ofNat_ne_zero, one_ne_zero]

theorem RoundTrip.nop (h : Hd) : RoundTrip.Statement (.nop h) := by
  have hs := Bool.toNat_lt h.sw
  refine roundTrip_one rfl ?_ rfl ?_
  · simp only [Raw.ok, Bool.and_eq_true, decide_eq_true_eq]; omega
  · simp [ofRaw, laneC]

theorem RoundTrip.bkpt (h : Hd) (i : Fin 16384) : RoundTrip.Statement (.bkpt h i) := by
  have hs := Bool.toNat_lt h.sw
  refine roundTrip_one rfl ?_ rfl ?_
  · simp only [Raw.ok, Bool.and_eq_true, decide_eq_true_eq]; omega
  · have e1 : fin? 16384 (((i.val / 256) * 256 + (i.val / 4 % 64) * 4 + (i.val % 4))) = some i := fin?_of i (by omega)
    have e2 : (0) = 0 := by omega
    simp only [ofRaw, laneC, hd_eq, e1, if_pos e2, Option.bind_some, Option.map_some, Nat.reduceLT, if_true, if_false, OfNat.ofNat_ne_zero, one_ne_zero]

theorem RoundTrip.spinh (h : Hd) : RoundTrip.Statement (.spinh h) := by
  have hs := Bool.toNat_lt h.sw
  refine roundTrip_one rfl ?_ rfl ?_
  · simp only [Raw.ok, Bool.and_eq_true, decide_eq_true_eq]; omega
  · simp [ofRaw, laneC]

theorem RoundTrip.sadd (h : Hd) (d : R64) (a : R64) (b : R64) (m : Sat) : RoundTrip.Statement (.sadd h d a b m) := by
  have hs := Bool.toNat_lt h.sw
  have := Sat.code_lt m
  refine roundTrip_one rfl ?_ rfl ?_
  · simp only [Raw.ok, Bool.and_eq_true, decide_eq_true_eq]; omega
  · simp [ofRaw, uniA]

theorem RoundTrip.ssub (h : Hd) (d : R64) (a : R64) (b : R64) (m : Sat) : RoundTrip.Statement (.ssub h d a b m) := by
  have hs := Bool.toNat_lt h.sw
  have := Sat.code_lt m
  refine roundTrip_one rfl ?_ rfl ?_
  · simp only [Raw.ok, Bool.and_eq_true, decide_eq_true_eq]; omega
  · simp [ofRaw, uniA]

theorem RoundTrip.smul (h : Hd) (d : R64) (a : R64) (b : R64) (m : MulPart) : RoundTrip.Statement (.smul h d a b m) := by
  have hs := Bool.toNat_lt h.sw
  have := MulPart.code_lt m
  refine roundTrip_one rfl ?_ rfl ?_
  · simp only [Raw.ok, Bool.and_eq_true, decide_eq_true_eq]; omega
  · simp [ofRaw, uniA]

theorem RoundTrip.sand (h : Hd) (d : R64) (a : R64) (b : R64) : RoundTrip.Statement (.sand h d a b) := by
  have hs := Bool.toNat_lt h.sw
  refine roundTrip_one rfl ?_ rfl ?_
  · simp only [Raw.ok, Bool.and_eq_true, decide_eq_true_eq]; omega
  · simp [ofRaw, uniA]

theorem RoundTrip.sor (h : Hd) (d : R64) (a : R64) (b : R64) : RoundTrip.Statement (.sor h d a b) := by
  have hs := Bool.toNat_lt h.sw
  refine roundTrip_one rfl ?_ rfl ?_
  · simp only [Raw.ok, Bool.and_eq_true, decide_eq_true_eq]; omega
  · simp [ofRaw, uniA]

theorem RoundTrip.sxor (h : Hd) (d : R64) (a : R64) (b : R64) : RoundTrip.Statement (.sxor h d a b) := by
  have hs := Bool.toNat_lt h.sw
  refine roundTrip_one rfl ?_ rfl ?_
  · simp only [Raw.ok, Bool.and_eq_true, decide_eq_true_eq]; omega
  · simp [ofRaw, uniA]

theorem RoundTrip.sshl (h : Hd) (d : R64) (a : R64) (b : R64) : RoundTrip.Statement (.sshl h d a b) := by
  have hs := Bool.toNat_lt h.sw
  refine roundTrip_one rfl ?_ rfl ?_
  · simp only [Raw.ok, Bool.and_eq_true, decide_eq_true_eq]; omega
  · simp [ofRaw, uniA]

theorem RoundTrip.sshr (h : Hd) (d : R64) (a : R64) (b : R64) : RoundTrip.Statement (.sshr h d a b) := by
  have hs := Bool.toNat_lt h.sw
  refine roundTrip_one rfl ?_ rfl ?_
  · simp only [Raw.ok, Bool.and_eq_true, decide_eq_true_eq]; omega
  · simp [ofRaw, uniA]

theorem RoundTrip.ssar (h : Hd) (d : R64) (a : R64) (b : R64) : RoundTrip.Statement (.ssar h d a b) := by
  have hs := Bool.toNat_lt h.sw
  refine roundTrip_one rfl ?_ rfl ?_
  · simp only [Raw.ok, Bool.and_eq_true, decide_eq_true_eq]; omega
  · simp [ofRaw, uniA]

theorem RoundTrip.smin (h : Hd) (d : R64) (a : R64) (b : R64) (u : Bool) : RoundTrip.Statement (.smin h d a b u) := by
  have hs := Bool.toNat_lt h.sw
  have := Bool.toNat_lt u
  refine roundTrip_one rfl ?_ rfl ?_
  · simp only [Raw.ok, Bool.and_eq_true, decide_eq_true_eq]; omega
  · simp [ofRaw, uniA]

theorem RoundTrip.smax (h : Hd) (d : R64) (a : R64) (b : R64) (u : Bool) : RoundTrip.Statement (.smax h d a b u) := by
  have hs := Bool.toNat_lt h.sw
  have := Bool.toNat_lt u
  refine roundTrip_one rfl ?_ rfl ?_
  · simp only [Raw.ok, Bool.and_eq_true, decide_eq_true_eq]; omega
  · simp [ofRaw, uniA]

theorem RoundTrip.scmp (h : Hd) (p : R8) (c : Cc) (a : R64) (b : R64) (u : Bool) : RoundTrip.Statement (.scmp h p c a b u) := by
  have hs := Bool.toNat_lt h.sw
  have := Cc.code_lt c
  have := Bool.toNat_lt u
  refine roundTrip_one rfl ?_ rfl ?_
  · simp only [Raw.ok, Bool.and_eq_true, decide_eq_true_eq]; omega
  · have e1 : fin? 8 ((p.val * 8 + c.code) / 8) = some p := fin?_of p (by omega)
    have e2 : Cc.of? ((p.val * 8 + c.code) % 8) = some c := Cc.of?_of c (by omega)
    have e3 : bool? ((u.toNat)) = some u := bool?_of u (by omega)
    have e4 : (fr 64 ((a.val))) = a := fr_of a (by omega)
    have e5 : (fr 64 ((b.val))) = b := fr_of b (by omega)
    simp only [ofRaw, uniA, hd_eq, e1, e2, e3, e4, e5, Option.bind_some, Option.map_some, Nat.reduceLT, if_true, if_false, OfNat.ofNat_ne_zero, one_ne_zero]

theorem RoundTrip.saddi (h : Hd) (d : R64) (a : R64) (i : Fin 256) : RoundTrip.Statement (.saddi h d a i) := by
  have hs := Bool.toNat_lt h.sw
  refine roundTrip_one rfl ?_ rfl ?_
  · simp only [Raw.ok, Bool.and_eq_true, decide_eq_true_eq]; omega
  · have e1 : fin? 256 (((i.val / 4) * 4 + (i.val % 4))) = some i := fin?_of i (by omega)
    have e2 : (fr 64 ((d.val))) = d := fr_of d (by omega)
    have e3 : (fr 64 ((a.val))) = a := fr_of a (by omega)
    simp only [ofRaw, uniA, hd_eq, e1, e2, e3, Option.bind_some, Option.map_some, Nat.reduceLT, if_true, if_false, OfNat.ofNat_ne_zero, one_ne_zero]

theorem RoundTrip.smovi (h : Hd) (d : R64) (i : Fin 16384) : RoundTrip.Statement (.smovi h d i) := by
  have hs := Bool.toNat_lt h.sw
  refine roundTrip_one rfl ?_ rfl ?_
  · simp only [Raw.ok, Bool.and_eq_true, decide_eq_true_eq]; omega
  · have e1 : fin? 16384 (((i.val / 256) * 256 + (i.val / 4 % 64) * 4 + (i.val % 4))) = some i := fin?_of i (by omega)
    have e2 : (fr 64 ((d.val))) = d := fr_of d (by omega)
    simp only [ofRaw, uniA, hd_eq, e1, e2, Option.bind_some, Option.map_some, Nat.reduceLT, if_true, if_false, OfNat.ofNat_ne_zero, one_ne_zero]

theorem RoundTrip.smovl (h : Hd) (d : R64) (lit : Word) : RoundTrip.Statement (.smovl h d lit) := by
  refine roundTrip_two (lit := lit) (j := .smovl h d 0) rfl ?_ rfl ?_ rfl rfl ?_
  · have := Bool.toNat_lt h.sw
    simp only [Raw.ok, Bool.and_eq_true, decide_eq_true_eq]; omega
  · simp [ofRaw, uniA]
  · simp [ofRaw, uniA]

theorem RoundTrip.smov (h : Hd) (d : R64) (a : R64) : RoundTrip.Statement (.smov h d a) := by
  have hs := Bool.toNat_lt h.sw
  refine roundTrip_one rfl ?_ rfl ?_
  · simp only [Raw.ok, Bool.and_eq_true, decide_eq_true_eq]; omega
  · simp [ofRaw, uniA]

theorem RoundTrip.sld (h : Hd) (d : R64) (a : R64) (z : Sz) (o : R64) : RoundTrip.Statement (.sld h d a z o) := by
  have hs := Bool.toNat_lt h.sw
  have := Sz.code_lt z
  refine roundTrip_one rfl ?_ rfl ?_
  · simp only [Raw.ok, Bool.and_eq_true, decide_eq_true_eq]; omega
  · have e1 : Sz.of? ((z.code * 16 + o.val / 4) / 16) = some z := Sz.of?_of z (by omega)
    have e2 : (fr 64 ((d.val))) = d := fr_of d (by omega)
    have e3 : (fr 64 ((a.val))) = a := fr_of a (by omega)
    have e4 : (fr 64 (((z.code * 16 + o.val / 4) % 16 * 4 + (o.val % 4)))) = o := fr_of o (by omega)
    simp only [ofRaw, uniA, hd_eq, e1, e2, e3, e4, Option.bind_some, Option.map_some, Nat.reduceLT, if_true, if_false, OfNat.ofNat_ne_zero, one_ne_zero]

theorem RoundTrip.sst (h : Hd) (d : R64) (a : R64) (z : Sz) (o : R64) : RoundTrip.Statement (.sst h d a z o) := by
  have hs := Bool.toNat_lt h.sw
  have := Sz.code_lt z
  refine roundTrip_one rfl ?_ rfl ?_
  · simp only [Raw.ok, Bool.and_eq_true, decide_eq_true_eq]; omega
  · have e1 : Sz.of? ((z.code * 16 + o.val / 4) / 16) = some z := Sz.of?_of z (by omega)
    have e2 : (fr 64 ((d.val))) = d := fr_of d (by omega)
    have e3 : (fr 64 ((a.val))) = a := fr_of a (by omega)
    have e4 : (fr 64 (((z.code * 16 + o.val / 4) % 16 * 4 + (o.val % 4)))) = o := fr_of o (by omega)
    simp only [ofRaw, uniA, hd_eq, e1, e2, e3, e4, Option.bind_some, Option.map_some, Nat.reduceLT, if_true, if_false, OfNat.ofNat_ne_zero, one_ne_zero]

theorem RoundTrip.argld (h : Hd) (d : R64) (slot : R8) (i : Fin 256) : RoundTrip.Statement (.argld h d slot i) := by
  have hs := Bool.toNat_lt h.sw
  refine roundTrip_one rfl ?_ rfl ?_
  · simp only [Raw.ok, Bool.and_eq_true, decide_eq_true_eq]; omega
  · have e1 : fin? 8 ((slot.val)) = some slot := fin?_of slot (by omega)
    have e2 : fin? 256 (((i.val / 4) * 4 + (i.val % 4))) = some i := fin?_of i (by omega)
    have e3 : (fr 64 ((d.val))) = d := fr_of d (by omega)
    simp only [ofRaw, uniA, hd_eq, e1, e2, e3, Option.bind_some, Option.map_some, Nat.reduceLT, if_true, if_false, OfNat.ofNat_ne_zero, one_ne_zero]

theorem RoundTrip.vtos (h : Hd) (d : R64) (a : R64) (lane : Fin 32) : RoundTrip.Statement (.vtos h d a lane) := by
  have hs := Bool.toNat_lt h.sw
  refine roundTrip_one rfl ?_ rfl ?_
  · simp only [Raw.ok, Bool.and_eq_true, decide_eq_true_eq]; omega
  · simp [ofRaw, uniA]

theorem RoundTrip.qlog (h : Hd) (p : R8) (o : LogOp) (a : R8) (b : R8) : RoundTrip.Statement (.qlog h p o a b) := by
  have hs := Bool.toNat_lt h.sw
  have := LogOp.code_lt o
  refine roundTrip_one rfl ?_ rfl ?_
  · simp only [Raw.ok, Bool.and_eq_true, decide_eq_true_eq]; omega
  · have e1 : fin? 8 ((p.val * 8 + o.code) / 8) = some p := fin?_of p (by omega)
    have e2 : LogOp.of? ((p.val * 8 + o.code) % 8) = some o := LogOp.of?_of o (by omega)
    have e3 : fin? 8 ((a.val)) = some a := fin?_of a (by omega)
    have e4 : fin? 8 ((b.val)) = some b := fin?_of b (by omega)
    have e5 : (0) = 0 := by omega
    simp only [ofRaw, uniA, hd_eq, e1, e2, e3, e4, if_pos e5, Option.bind_some, Option.map_some, Nat.reduceLT, if_true, if_false, OfNat.ofNat_ne_zero, one_ne_zero]

theorem RoundTrip.scsel (h : Hd) (d : R64) (a : R64) (b : R64) (n : Fin 4) : RoundTrip.Statement (.scsel h d a b n) := by
  have hs := Bool.toNat_lt h.sw
  refine roundTrip_one rfl ?_ rfl ?_
  · simp only [Raw.ok, Bool.and_eq_true, decide_eq_true_eq]; omega
  · simp [ofRaw, uniA]

theorem RoundTrip.sbfx (h : Hd) (d : R64) (a : R64) (b : R64) (s : Bool) : RoundTrip.Statement (.sbfx h d a b s) := by
  have hs := Bool.toNat_lt h.sw
  have := Bool.toNat_lt s
  refine roundTrip_one rfl ?_ rfl ?_
  · simp only [Raw.ok, Bool.and_eq_true, decide_eq_true_eq]; omega
  · simp [ofRaw, uniA]

theorem RoundTrip.spopc (h : Hd) (d : R64) (a : R64) (b : R64) : RoundTrip.Statement (.spopc h d a b) := by
  have hs := Bool.toNat_lt h.sw
  refine roundTrip_one rfl ?_ rfl ?_
  · simp only [Raw.ok, Bool.and_eq_true, decide_eq_true_eq]; omega
  · simp [ofRaw, uniA]

theorem RoundTrip.ubra (h : Hd) (o : Fin 1048576) : RoundTrip.Statement (.ubra h o) := by
  have hs := Bool.toNat_lt h.sw
  refine roundTrip_one rfl ?_ rfl ?_
  · simp only [Raw.ok, Bool.and_eq_true, decide_eq_true_eq]; omega
  · have e1 : fin? 1048576 (((o.val / 16384) * 16384 + (o.val / 256 % 64) * 256 + (o.val / 4 % 64) * 4 + (o.val % 4))) = some o := fin?_of o (by omega)
    simp only [ofRaw, uniA, hd_eq, e1, Option.bind_some, Option.map_some, Nat.reduceLT, if_true, if_false, OfNat.ofNat_ne_zero, one_ne_zero]

theorem RoundTrip.ucall (h : Hd) (d : R64) (i : Fin 16384) : RoundTrip.Statement (.ucall h d i) := by
  have hs := Bool.toNat_lt h.sw
  refine roundTrip_one rfl ?_ rfl ?_
  · simp only [Raw.ok, Bool.and_eq_true, decide_eq_true_eq]; omega
  · have e1 : fin? 16384 (((i.val / 256) * 256 + (i.val / 4 % 64) * 4 + (i.val % 4))) = some i := fin?_of i (by omega)
    have e2 : (fr 64 ((d.val))) = d := fr_of d (by omega)
    simp only [ofRaw, uniA, hd_eq, e1, e2, Option.bind_some, Option.map_some, Nat.reduceLT, if_true, if_false, OfNat.ofNat_ne_zero, one_ne_zero]

theorem RoundTrip.uret (h : Hd) (a : R64) : RoundTrip.Statement (.uret h a) := by
  have hs := Bool.toNat_lt h.sw
  refine roundTrip_one rfl ?_ rfl ?_
  · simp only [Raw.ok, Bool.and_eq_true, decide_eq_true_eq]; omega
  · simp [ofRaw, uniA]

theorem RoundTrip.ujmpx (h : Hd) (a : R64) : RoundTrip.Statement (.ujmpx h a) := by
  have hs := Bool.toNat_lt h.sw
  refine roundTrip_one rfl ?_ rfl ?_
  · simp only [Raw.ok, Bool.and_eq_true, decide_eq_true_eq]; omega
  · simp [ofRaw, uniA]

theorem RoundTrip.exit (h : Hd) : RoundTrip.Statement (.exit h) := by
  have hs := Bool.toNat_lt h.sw
  refine roundTrip_one rfl ?_ rfl ?_
  · simp only [Raw.ok, Bool.and_eq_true, decide_eq_true_eq]; omega
  · simp [ofRaw, uniA]

theorem RoundTrip.exitSucc (h : Hd) (a : R64) : RoundTrip.Statement (.exitSucc h a) := by
  have hs := Bool.toNat_lt h.sw
  refine roundTrip_one rfl ?_ rfl ?_
  · simp only [Raw.ok, Bool.and_eq_true, decide_eq_true_eq]; omega
  · simp [ofRaw, uniA]

theorem RoundTrip.yield (h : Hd) : RoundTrip.Statement (.yield h) := by
  have hs := Bool.toNat_lt h.sw
  refine roundTrip_one rfl ?_ rfl ?_
  · simp only [Raw.ok, Bool.and_eq_true, decide_eq_true_eq]; omega
  · simp [ofRaw, uniA]

theorem RoundTrip.waittl (h : Hd) (t : Fin 4) (a : R64) : RoundTrip.Statement (.waittl h t a) := by
  have hs := Bool.toNat_lt h.sw
  refine roundTrip_one rfl ?_ rfl ?_
  · simp only [Raw.ok, Bool.and_eq_true, decide_eq_true_eq]; omega
  · simp [ofRaw, uniA, show t.val * 16 / 2 % 8 = 0 by omega, show t.val * 16 % 2 = 0 by omega]

theorem RoundTrip.waittlDl (h : Hd) (t : Fin 4) (q : R8) (a : R64) (b : R64) : RoundTrip.Statement (.waittlDl h t q a b) := by
  have hs := Bool.toNat_lt h.sw
  refine roundTrip_one rfl ?_ rfl ?_
  · simp only [Raw.ok, Bool.and_eq_true, decide_eq_true_eq]; omega
  · simp [ofRaw, uniA, show (t.val * 16 + q.val * 2) % 2 = 0 by omega, fin?_of t (show (t.val * 16 + q.val * 2) / 16 = t.val by omega), fin?_of q (show (t.val * 16 + q.val * 2) / 2 % 8 = q.val by omega)]

theorem RoundTrip.sleep (h : Hd) (a : R64) : RoundTrip.Statement (.sleep h a) := by
  have hs := Bool.toNat_lt h.sw
  refine roundTrip_one rfl ?_ rfl ?_
  · simp only [Raw.ok, Bool.and_eq_true, decide_eq_true_eq]; omega
  · simp [ofRaw, uniA]

theorem RoundTrip.bar (h : Hd) (n : Fin 16) (c : Fin 128) : RoundTrip.Statement (.bar h n c) := by
  have hs := Bool.toNat_lt h.sw
  refine roundTrip_one rfl ?_ rfl ?_
  · simp only [Raw.ok, Bool.and_eq_true, decide_eq_true_eq]; omega
  · have e1 : fin? 16 ((n.val * 4 + 0 / 2) / 4) = some n := fin?_of n (by omega)
    have e2 : fin? 128 (((0 % 2 * 32 + c.val / 4) % 32 * 4 + (c.val % 4))) = some c := fin?_of c (by omega)
    have e3 : (0) = 0 ∧ ((n.val * 4 + 0 / 2) % 4 * 2 + (0 % 2 * 32 + c.val / 4) / 32) = 0 := by omega
    simp only [ofRaw, uniA, hd_eq, e1, e2, Option.bind_some, Option.map_some, Nat.reduceLT, if_true, if_false, OfNat.ofNat_ne_zero, one_ne_zero]
    exact if_pos (by simp only [true_and, and_self, and_true]; omega)

theorem RoundTrip.bara (h : Hd) (n : Fin 16) (c : Fin 128) : RoundTrip.Statement (.bara h n c) := by
  have hs := Bool.toNat_lt h.sw
  refine roundTrip_one rfl ?_ rfl ?_
  · simp only [Raw.ok, Bool.and_eq_true, decide_eq_true_eq]; omega
  · have e1 : fin? 16 ((n.val * 4 + 0 / 2) / 4) = some n := fin?_of n (by omega)
    have e2 : fin? 128 (((0 % 2 * 32 + c.val / 4) % 32 * 4 + (c.val % 4))) = some c := fin?_of c (by omega)
    have e3 : (0) = 0 ∧ ((n.val * 4 + 0 / 2) % 4 * 2 + (0 % 2 * 32 + c.val / 4) / 32) = 0 := by omega
    simp only [ofRaw, uniA, hd_eq, e1, e2, Option.bind_some, Option.map_some, Nat.reduceLT, if_true, if_false, OfNat.ofNat_ne_zero, one_ne_zero]
    exact if_pos (by simp only [true_and, and_self, and_true]; omega)

theorem RoundTrip.bardl (h : Hd) (e : R64) (n : Fin 16) (q : R8) (c : Fin 128) : RoundTrip.Statement (.bardl h e n q c) := by
  have hs := Bool.toNat_lt h.sw
  refine roundTrip_one rfl ?_ rfl ?_
  · simp only [Raw.ok, Bool.and_eq_true, decide_eq_true_eq]; omega
  · have e1 : fin? 16 ((n.val * 4 + q.val / 2) / 4) = some n := fin?_of n (by omega)
    have e2 : fin? 8 (((n.val * 4 + q.val / 2) % 4 * 2 + (q.val % 2 * 32 + c.val / 4) / 32)) = some q := fin?_of q (by omega)
    have e3 : fin? 128 (((q.val % 2 * 32 + c.val / 4) % 32 * 4 + (c.val % 4))) = some c := fin?_of c (by omega)
    have e4 : (fr 64 ((e.val))) = e := fr_of e (by omega)
    simp only [ofRaw, uniA, hd_eq, e1, e2, e3, e4, Option.bind_some, Option.map_some, Nat.reduceLT, if_true, if_false, OfNat.ofNat_ne_zero, one_ne_zero]

theorem RoundTrip.tktake (h : Hd) (d : R64) (a : R64) : RoundTrip.Statement (.tktake h d a) := by
  have hs := Bool.toNat_lt h.sw
  refine roundTrip_one rfl ?_ rfl ?_
  · simp only [Raw.ok, Bool.and_eq_true, decide_eq_true_eq]; omega
  · simp [ofRaw, uniA]

theorem RoundTrip.tkserve (h : Hd) (a : R64) : RoundTrip.Statement (.tkserve h a) := by
  have hs := Bool.toNat_lt h.sw
  refine roundTrip_one rfl ?_ rfl ?_
  · simp only [Raw.ok, Bool.and_eq_true, decide_eq_true_eq]; omega
  · simp [ofRaw, uniA]

theorem RoundTrip.tkwait (h : Hd) (a : R64) (b : R64) : RoundTrip.Statement (.tkwait h a b) := by
  have hs := Bool.toNat_lt h.sw
  refine roundTrip_one rfl ?_ rfl ?_
  · simp only [Raw.ok, Bool.and_eq_true, decide_eq_true_eq]; omega
  · simp [ofRaw, uniA]

theorem RoundTrip.fence (h : Hd) (sc : Scope) : RoundTrip.Statement (.fence h sc) := by
  have hs := Bool.toNat_lt h.sw
  have := Scope.code_lt sc
  refine roundTrip_one rfl ?_ rfl ?_
  · simp only [Raw.ok, Bool.and_eq_true, decide_eq_true_eq]; omega
  · simp [ofRaw, uniA]

theorem RoundTrip.launchq (h : Hd) (d : R64) (a : R64) : RoundTrip.Statement (.launchq h d a) := by
  have hs := Bool.toNat_lt h.sw
  refine roundTrip_one rfl ?_ rfl ?_
  · simp only [Raw.ok, Bool.and_eq_true, decide_eq_true_eq]; omega
  · simp [ofRaw, uniA]

theorem RoundTrip.dsetD (h : Hd) (n : Fin 16) (b : R64) : RoundTrip.Statement (.dsetD h n b) := by
  have hs := Bool.toNat_lt h.sw
  refine roundTrip_one rfl ?_ rfl ?_
  · simp only [Raw.ok, Bool.and_eq_true, decide_eq_true_eq]; omega
  · simp [ofRaw, uniB, show n.val / 16 = 0 by omega, fin?_of n (show n.val % 16 = n.val by omega)]

theorem RoundTrip.dsetA (h : Hd) (n : Fin 16) (b : R64) (f : Fin 16) : RoundTrip.Statement (.dsetA h n b f) := by
  have hs := Bool.toNat_lt h.sw
  refine roundTrip_one rfl ?_ rfl ?_
  · simp only [Raw.ok, Bool.and_eq_true, decide_eq_true_eq]; omega
  · simp [ofRaw, uniB, fin?_of n (show n.val % 16 = n.val by omega), show (16 + n.val) / 16 = 1 by omega, fin?_of n (show (16 + n.val) % 16 = n.val by omega), fin?_of f (show f.val * 4 / 4 = f.val by omega)]

theorem RoundTrip.dsetTl (h : Hd) (n : Fin 4) (b : R64) : RoundTrip.Statement (.dsetTl h n b) := by
  have hs := Bool.toNat_lt h.sw
  refine roundTrip_one rfl ?_ rfl ?_
  · simp only [Raw.ok, Bool.and_eq_true, decide_eq_true_eq]; omega
  · simp [ofRaw, uniB, show (32 + n.val) / 16 = 2 by omega, fin?_of n (show (32 + n.val) % 16 = n.val by omega)]

theorem RoundTrip.mma (h : Hd) (d : Fin 32) (ns : Bool) (ah : Fin 16) (da : Fin 16) (db : Fin 16) (t : Fin 4) : RoundTrip.Statement (.mma h d ns ah da db t) := by
  have hs := Bool.toNat_lt h.sw
  have := Bool.toNat_lt ns
  refine roundTrip_one rfl ?_ rfl ?_
  · simp only [Raw.ok, Bool.and_eq_true, decide_eq_true_eq]; omega
  · have e1 : fin? 32 ((d.val * 2 + ns.toNat) / 2) = some d := fin?_of d (by omega)
    have e2 : bool? ((d.val * 2 + ns.toNat) % 2) = some ns := bool?_of ns (by omega)
    have e3 : fin? 16 ((ah.val * 4 + da.val / 4) / 4) = some ah := fin?_of ah (by omega)
    have e4 : fin? 16 (((ah.val * 4 + da.val / 4) % 4 * 4 + (da.val % 4 * 16 + db.val) / 16)) = some da := fin?_of da (by omega)
    have e5 : fin? 16 ((da.val % 4 * 16 + db.val) % 16) = some db := fin?_of db (by omega)
    have e6 : fin? 4 ((t.val)) = some t := fin?_of t (by omega)
    simp only [ofRaw, uniB, hd_eq, e1, e2, e3, e4, e5, e6, Option.bind_some, Option.map_some, Nat.reduceLT, if_true, if_false, OfNat.ofNat_ne_zero, one_ne_zero]

theorem RoundTrip.azero (h : Hd) (d : Fin 32) (ah : Fin 16) (t : Fin 4) : RoundTrip.Statement (.azero h d ah t) := by
  have hs := Bool.toNat_lt h.sw
  refine roundTrip_one rfl ?_ rfl ?_
  · simp only [Raw.ok, Bool.and_eq_true, decide_eq_true_eq]; omega
  · have e1 : fin? 32 ((d.val * 2 + ah.val / 8) / 2) = some d := fin?_of d (by omega)
    have e2 : fin? 16 (((d.val * 2 + ah.val / 8) % 2 * 8 + (ah.val % 8 * 8 + 0 / 2) / 8)) = some ah := fin?_of ah (by omega)
    have e3 : fin? 4 ((t.val)) = some t := fin?_of t (by omega)
    have e4 : ((ah.val % 8 * 8 + 0 / 2) % 8 * 2 + (0 % 2 * 32 + 0) / 32) = 0 ∧ (0 % 2 * 32 + 0) % 32 = 0 := by omega
    simp only [ofRaw, uniB, hd_eq, e1, e2, e3, Option.bind_some, Option.map_some, Nat.reduceLT, if_true, if_false, OfNat.ofNat_ne_zero, one_ne_zero]
    exact if_pos (by simp only [true_and, and_self, and_true]; omega)

theorem RoundTrip.astp (h : Hd) (d : Fin 32) (ah : Fin 16) (dp : Fin 16) (r : Rm) (t : Fin 4) : RoundTrip.Statement (.astp h d ah dp r t) := by
  have hs := Bool.toNat_lt h.sw
  have := Rm.code_lt r
  refine roundTrip_one rfl ?_ rfl ?_
  · simp only [Raw.ok, Bool.and_eq_true, decide_eq_true_eq]; omega
  · have e1 : fin? 32 ((d.val * 2 + ah.val / 8) / 2) = some d := fin?_of d (by omega)
    have e2 : fin? 16 (((d.val * 2 + ah.val / 8) % 2 * 8 + (ah.val % 8 * 8 + dp.val / 2) / 8)) = some ah := fin?_of ah (by omega)
    have e3 : fin? 16 (((ah.val % 8 * 8 + dp.val / 2) % 8 * 2 + (dp.val % 2 * 32 + r.code) / 32)) = some dp := fin?_of dp (by omega)
    have e4 : Rm.of? ((dp.val % 2 * 32 + r.code) % 32) = some r := Rm.of?_of r (by omega)
    have e5 : fin? 4 ((t.val)) = some t := fin?_of t (by omega)
    simp only [ofRaw, uniB, hd_eq, e1, e2, e3, e4, e5, Option.bind_some, Option.map_some, Nat.reduceLT, if_true, if_false, OfNat.ofNat_ne_zero, one_ne_zero]

theorem RoundTrip.aldp (h : Hd) (d : Fin 32) (ah : Fin 16) (dp : Fin 16) (add : Bool) (t : Fin 4) : RoundTrip.Statement (.aldp h d ah dp add t) := by
  have hs := Bool.toNat_lt h.sw
  have := Bool.toNat_lt add
  refine roundTrip_one rfl ?_ rfl ?_
  · simp only [Raw.ok, Bool.and_eq_true, decide_eq_true_eq]; omega
  · have e1 : fin? 32 ((d.val * 2 + ah.val / 8) / 2) = some d := fin?_of d (by omega)
    have e2 : fin? 16 (((d.val * 2 + ah.val / 8) % 2 * 8 + (ah.val % 8 * 8 + dp.val / 2) / 8)) = some ah := fin?_of ah (by omega)
    have e3 : fin? 16 (((ah.val % 8 * 8 + dp.val / 2) % 8 * 2 + (dp.val % 2 * 32 + add.toNat) / 32)) = some dp := fin?_of dp (by omega)
    have e4 : bool? ((dp.val % 2 * 32 + add.toNat) % 32) = some add := bool?_of add (by omega)
    have e5 : fin? 4 ((t.val)) = some t := fin?_of t (by omega)
    simp only [ofRaw, uniB, hd_eq, e1, e2, e3, e4, e5, Option.bind_some, Option.map_some, Nat.reduceLT, if_true, if_false, OfNat.ofNat_ne_zero, one_ne_zero]

theorem RoundTrip.arow (h : Hd) (d : Fin 32) (ah : Fin 16) (dp : Fin 16) (o : RowOp) (t : Fin 4) : RoundTrip.Statement (.arow h d ah dp o t) := by
  have hs := Bool.toNat_lt h.sw
  have := RowOp.code_lt o
  refine roundTrip_one rfl ?_ rfl ?_
  · simp only [Raw.ok, Bool.and_eq_true, decide_eq_true_eq]; omega
  · have e1 : fin? 32 ((d.val * 2 + ah.val / 8) / 2) = some d := fin?_of d (by omega)
    have e2 : fin? 16 (((d.val * 2 + ah.val / 8) % 2 * 8 + (ah.val % 8 * 8 + dp.val / 2) / 8)) = some ah := fin?_of ah (by omega)
    have e3 : fin? 16 (((ah.val % 8 * 8 + dp.val / 2) % 8 * 2 + (dp.val % 2 * 32 + o.code) / 32)) = some dp := fin?_of dp (by omega)
    have e4 : RowOp.of? ((dp.val % 2 * 32 + o.code) % 32) = some o := RowOp.of?_of o (by omega)
    have e5 : fin? 4 ((t.val)) = some t := fin?_of t (by omega)
    simp only [ofRaw, uniB, hd_eq, e1, e2, e3, e4, e5, Option.bind_some, Option.map_some, Nat.reduceLT, if_true, if_false, OfNat.ofNat_ne_zero, one_ne_zero]

theorem RoundTrip.scld (h : Hd) (d : Fin 32) (ah : Fin 16) (dp : Fin 16) (colB : Bool) (t : Fin 4) : RoundTrip.Statement (.scld h d ah dp colB t) := by
  have hs := Bool.toNat_lt h.sw
  have := Bool.toNat_lt colB
  refine roundTrip_one rfl ?_ rfl ?_
  · simp only [Raw.ok, Bool.and_eq_true, decide_eq_true_eq]; omega
  · have e1 : fin? 32 ((d.val * 2 + ah.val / 8) / 2) = some d := fin?_of d (by omega)
    have e2 : fin? 16 (((d.val * 2 + ah.val / 8) % 2 * 8 + (ah.val % 8 * 8 + dp.val / 2) / 8)) = some ah := fin?_of ah (by omega)
    have e3 : fin? 16 (((ah.val % 8 * 8 + dp.val / 2) % 8 * 2 + (dp.val % 2 * 32 + colB.toNat) / 32)) = some dp := fin?_of dp (by omega)
    have e4 : bool? ((dp.val % 2 * 32 + colB.toNat) % 32) = some colB := bool?_of colB (by omega)
    have e5 : fin? 4 ((t.val)) = some t := fin?_of t (by omega)
    simp only [ofRaw, uniB, hd_eq, e1, e2, e3, e4, e5, Option.bind_some, Option.map_some, Nat.reduceLT, if_true, if_false, OfNat.ofNat_ne_zero, one_ne_zero]

theorem RoundTrip.copy (h : Hd) (d : Fin 32) (dp : Fin 16) (a : R64) (t : Fin 4) : RoundTrip.Statement (.copy h d dp a t) := by
  have hs := Bool.toNat_lt h.sw
  refine roundTrip_one rfl ?_ rfl ?_
  · simp only [Raw.ok, Bool.and_eq_true, decide_eq_true_eq]; omega
  · have e1 : fin? 32 ((d.val * 2 + dp.val / 8) / 2) = some d := fin?_of d (by omega)
    have e2 : fin? 16 (((d.val * 2 + dp.val / 8) % 2 * 8 + (dp.val % 8 * 8 + a.val / 8) / 8)) = some dp := fin?_of dp (by omega)
    have e3 : fin? 4 ((t.val)) = some t := fin?_of t (by omega)
    have e4 : (fr 64 (((dp.val % 8 * 8 + a.val / 8) % 8 * 8 + (a.val % 8 * 8 + 0) / 8))) = a := fr_of a (by omega)
    have e5 : (a.val % 8 * 8 + 0) % 8 = 0 := by omega
    simp only [ofRaw, uniB, hd_eq, e1, e2, e3, e4, if_pos e5, Option.bind_some, Option.map_some, Nat.reduceLT, if_true, if_false, OfNat.ofNat_ne_zero, one_ne_zero]

theorem RoundTrip.copym (h : Hd) (d : Fin 32) (dp : Fin 16) (a : R64) (t : Fin 4) : RoundTrip.Statement (.copym h d dp a t) := by
  have hs := Bool.toNat_lt h.sw
  refine roundTrip_one rfl ?_ rfl ?_
  · simp only [Raw.ok, Bool.and_eq_true, decide_eq_true_eq]; omega
  · have e1 : fin? 32 ((d.val * 2 + dp.val / 8) / 2) = some d := fin?_of d (by omega)
    have e2 : fin? 16 (((d.val * 2 + dp.val / 8) % 2 * 8 + (dp.val % 8 * 8 + a.val / 8) / 8)) = some dp := fin?_of dp (by omega)
    have e3 : fin? 4 ((t.val)) = some t := fin?_of t (by omega)
    have e4 : (fr 64 (((dp.val % 8 * 8 + a.val / 8) % 8 * 8 + (a.val % 8 * 8 + 0) / 8))) = a := fr_of a (by omega)
    have e5 : (a.val % 8 * 8 + 0) % 8 = 0 := by omega
    simp only [ofRaw, uniB, hd_eq, e1, e2, e3, e4, if_pos e5, Option.bind_some, Option.map_some, Nat.reduceLT, if_true, if_false, OfNat.ofNat_ne_zero, one_ne_zero]

theorem RoundTrip.copyo (h : Hd) (d : Fin 32) (dp : Fin 16) (a : R64) (t : Fin 4) : RoundTrip.Statement (.copyo h d dp a t) := by
  have hs := Bool.toNat_lt h.sw
  refine roundTrip_one rfl ?_ rfl ?_
  · simp only [Raw.ok, Bool.and_eq_true, decide_eq_true_eq]; omega
  · have e1 : fin? 32 ((d.val * 2 + dp.val / 8) / 2) = some d := fin?_of d (by omega)
    have e2 : fin? 16 (((d.val * 2 + dp.val / 8) % 2 * 8 + (dp.val % 8 * 8 + a.val / 8) / 8)) = some dp := fin?_of dp (by omega)
    have e3 : fin? 4 ((t.val)) = some t := fin?_of t (by omega)
    have e4 : (fr 64 (((dp.val % 8 * 8 + a.val / 8) % 8 * 8 + (a.val % 8 * 8 + 0) / 8))) = a := fr_of a (by omega)
    have e5 : (a.val % 8 * 8 + 0) % 8 = 0 := by omega
    simp only [ofRaw, uniB, hd_eq, e1, e2, e3, e4, if_pos e5, Option.bind_some, Option.map_some, Nat.reduceLT, if_true, if_false, OfNat.ofNat_ne_zero, one_ne_zero]

theorem RoundTrip.gather (h : Hd) (d : Fin 32) (dp : Fin 16) (a : R64) (t : Fin 4) : RoundTrip.Statement (.gather h d dp a t) := by
  have hs := Bool.toNat_lt h.sw
  refine roundTrip_one rfl ?_ rfl ?_
  · simp only [Raw.ok, Bool.and_eq_true, decide_eq_true_eq]; omega
  · have e1 : fin? 32 ((d.val * 2 + dp.val / 8) / 2) = some d := fin?_of d (by omega)
    have e2 : fin? 16 (((d.val * 2 + dp.val / 8) % 2 * 8 + (dp.val % 8 * 8 + a.val / 8) / 8)) = some dp := fin?_of dp (by omega)
    have e3 : fin? 4 ((t.val)) = some t := fin?_of t (by omega)
    have e4 : (fr 64 (((dp.val % 8 * 8 + a.val / 8) % 8 * 8 + (a.val % 8 * 8 + 0) / 8))) = a := fr_of a (by omega)
    have e5 : (a.val % 8 * 8 + 0) % 8 = 0 := by omega
    simp only [ofRaw, uniB, hd_eq, e1, e2, e3, e4, if_pos e5, Option.bind_some, Option.map_some, Nat.reduceLT, if_true, if_false, OfNat.ofNat_ne_zero, one_ne_zero]

theorem RoundTrip.coll (h : Hd) (d : Fin 32) (a : R64) (t : Fin 4) : RoundTrip.Statement (.coll h d a t) := by
  have hs := Bool.toNat_lt h.sw
  refine roundTrip_one rfl ?_ rfl ?_
  · simp only [Raw.ok, Bool.and_eq_true, decide_eq_true_eq]; omega
  · have e1 : fin? 32 ((d.val * 2 + a.val / 32) / 2) = some d := fin?_of d (by omega)
    have e2 : fin? 4 ((t.val)) = some t := fin?_of t (by omega)
    have e3 : (fr 64 (((d.val * 2 + a.val / 32) % 2 * 32 + (a.val % 32 * 2 + 0 / 64) / 2))) = a := fr_of a (by omega)
    have e4 : ((a.val % 32 * 2 + 0 / 64) % 2 * 64 + (0 % 64)) = 0 := by omega
    simp only [ofRaw, uniB, hd_eq, e1, e2, e3, if_pos e4, Option.bind_some, Option.map_some, Nat.reduceLT, if_true, if_false, OfNat.ofNat_ne_zero, one_ne_zero]

theorem RoundTrip.tlread (h : Hd) (d : R64) (t : Fin 4) : RoundTrip.Statement (.tlread h d t) := by
  have hs := Bool.toNat_lt h.sw
  refine roundTrip_one rfl ?_ rfl ?_
  · simp only [Raw.ok, Bool.and_eq_true, decide_eq_true_eq]; omega
  · simp [ofRaw, uniB]

theorem RoundTrip.tlsig (h : Hd) (d : Fin 32) (t : Fin 4) : RoundTrip.Statement (.tlsig h d t) := by
  have hs := Bool.toNat_lt h.sw
  refine roundTrip_one rfl ?_ rfl ?_
  · simp only [Raw.ok, Bool.and_eq_true, decide_eq_true_eq]; omega
  · have e1 : fin? 32 ((d.val * 2 + 0 / 4096) / 2) = some d := fin?_of d (by omega)
    have e2 : fin? 4 ((t.val)) = some t := fin?_of t (by omega)
    have e3 : ((d.val * 2 + 0 / 4096) % 2 * 4096 + (0 / 64 % 64) * 64 + (0 % 64)) = 0 := by omega
    simp only [ofRaw, uniB, hd_eq, e1, e2, if_pos e3, Option.bind_some, Option.map_some, Nat.reduceLT, if_true, if_false, OfNat.ofNat_ne_zero, one_ne_zero]

theorem RoundTrip.engst (h : Hd) (d : R64) (a : R64) (t : Fin 4) : RoundTrip.Statement (.engst h d a t) := by
  have hs := Bool.toNat_lt h.sw
  refine roundTrip_one rfl ?_ rfl ?_
  · simp only [Raw.ok, Bool.and_eq_true, decide_eq_true_eq]; omega
  · simp [ofRaw, uniB]

theorem RoundTrip.pswz (h : Hd) (d : Fin 32) (ah : Fin 16) (dp : Fin 16) (r : Rm) (tr : Bool) (t : Fin 4) : RoundTrip.Statement (.pswz h d ah dp r tr t) := by
  have hs := Bool.toNat_lt h.sw
  have := Rm.code_lt r
  have := Bool.toNat_lt tr
  refine roundTrip_one rfl ?_ rfl ?_
  · simp only [Raw.ok, Bool.and_eq_true, decide_eq_true_eq]; omega
  · have e1 : Rm.of? ((dp.val % 2 * 32 + (tr.toNat * 4 + r.code)) % 32 % 4) = some r := Rm.of?_of r (by omega)
    have e2 : bool? ((dp.val % 2 * 32 + (tr.toNat * 4 + r.code)) % 32 / 4) = some tr := bool?_of tr (by omega)
    have e3 : (fr 32 ((d.val * 2 + ah.val / 8) / 2)) = d := fr_of d (by omega)
    have e4 : (fr 16 ((d.val * 2 + ah.val / 8) % 2 * 8 + (ah.val % 8 * 8 + dp.val / 2) / 8)) = ah := fr_of ah (by omega)
    have e5 : (fr 16 ((ah.val % 8 * 8 + dp.val / 2) % 8 * 2 + (dp.val % 2 * 32 + (tr.toNat * 4 + r.code)) / 32)) = dp := fr_of dp (by omega)
    have e6 : (fr 4 (t)) = t := fr_of t (by omega)
    simp only [ofRaw, uniB, hd_eq, e1, e2, e3, e4, e5, e6, Option.bind_some, Option.map_some, Nat.reduceLT, if_true, if_false, OfNat.ofNat_ne_zero, one_ne_zero]

theorem RoundTrip.mfsr (h : Hd) (hi : Bool) (s : Fin 32) (i : Fin 16384) : RoundTrip.Statement (.mfsr h hi s i) := by
  have hs := Bool.toNat_lt h.sw
  have := Bool.toNat_lt hi
  refine roundTrip_one rfl ?_ rfl ?_
  · simp only [Raw.ok, Bool.and_eq_true, decide_eq_true_eq]; omega
  · have e1 : bool? ((hi.toNat * 32 + s.val) / 32) = some hi := bool?_of hi (by omega)
    have e2 : fin? 32 ((hi.toNat * 32 + s.val) % 32) = some s := fin?_of s (by omega)
    have e3 : fin? 16384 (((i.val / 256) * 256 + (i.val / 4 % 64) * 4 + (i.val % 4))) = some i := fin?_of i (by omega)
    simp only [ofRaw, uniB, hd_eq, e1, e2, e3, Option.bind_some, Option.map_some, Nat.reduceLT, if_true, if_false, OfNat.ofNat_ne_zero, one_ne_zero]

theorem RoundTrip.mtsr (h : Hd) (hi : Bool) (s : Fin 32) (i : Fin 16384) : RoundTrip.Statement (.mtsr h hi s i) := by
  have hs := Bool.toNat_lt h.sw
  have := Bool.toNat_lt hi
  refine roundTrip_one rfl ?_ rfl ?_
  · simp only [Raw.ok, Bool.and_eq_true, decide_eq_true_eq]; omega
  · have e1 : bool? ((hi.toNat * 32 + s.val) / 32) = some hi := bool?_of hi (by omega)
    have e2 : fin? 32 ((hi.toNat * 32 + s.val) % 32) = some s := fin?_of s (by omega)
    have e3 : fin? 16384 (((i.val / 256) * 256 + (i.val / 4 % 64) * 4 + (i.val % 4))) = some i := fin?_of i (by omega)
    simp only [ofRaw, uniB, hd_eq, e1, e2, e3, Option.bind_some, Option.map_some, Nat.reduceLT, if_true, if_false, OfNat.ofNat_ne_zero, one_ne_zero]

theorem RoundTrip.tlbinvPage (h : Hd) (a : R64) (b : R64) : RoundTrip.Statement (.tlbinvPage h a b) := by
  have hs := Bool.toNat_lt h.sw
  refine roundTrip_one rfl ?_ rfl ?_
  · simp only [Raw.ok, Bool.and_eq_true, decide_eq_true_eq]; omega
  · simp [ofRaw, uniB]

theorem RoundTrip.tlbinvAsid (h : Hd) (b : R64) : RoundTrip.Statement (.tlbinvAsid h b) := by
  have hs := Bool.toNat_lt h.sw
  refine roundTrip_one rfl ?_ rfl ?_
  · simp only [Raw.ok, Bool.and_eq_true, decide_eq_true_eq]; omega
  · simp [ofRaw, uniB]

theorem RoundTrip.tlbinvCtx (h : Hd) (a : R64) : RoundTrip.Statement (.tlbinvCtx h a) := by
  have hs := Bool.toNat_lt h.sw
  refine roundTrip_one rfl ?_ rfl ?_
  · simp only [Raw.ok, Bool.and_eq_true, decide_eq_true_eq]; omega
  · simp [ofRaw, uniB]

theorem RoundTrip.ctxfl (h : Hd) (d : R64) (a : R64) : RoundTrip.Statement (.ctxfl h d a) := by
  have hs := Bool.toNat_lt h.sw
  refine roundTrip_one rfl ?_ rfl ?_
  · simp only [Raw.ok, Bool.and_eq_true, decide_eq_true_eq]; omega
  · simp [ofRaw, uniB]

theorem RoundTrip.haltbHalt (h : Hd) (d : R64) (a : R64) (launch : Bool) : RoundTrip.Statement (.haltbHalt h d a launch) := by
  have hs := Bool.toNat_lt h.sw
  have := Bool.toNat_lt launch
  refine roundTrip_one rfl ?_ rfl ?_
  · simp only [Raw.ok, Bool.and_eq_true, decide_eq_true_eq]; omega
  · simp [ofRaw, uniB]

theorem RoundTrip.haltbRelease (h : Hd) (d : R64) (a : R64) (launch : Bool) : RoundTrip.Statement (.haltbRelease h d a launch) := by
  have hs := Bool.toNat_lt h.sw
  have := Bool.toNat_lt launch
  refine roundTrip_one rfl ?_ rfl ?_
  · simp only [Raw.ok, Bool.and_eq_true, decide_eq_true_eq]; omega
  · cases launch <;> simp [ofRaw, uniB, bool?, bool2?]

theorem RoundTrip.engrst (h : Hd) (d : R64) (a : R64) (e : Fin 7) : RoundTrip.Statement (.engrst h d a e) := by
  have hs := Bool.toNat_lt h.sw
  refine roundTrip_one rfl ?_ rfl ?_
  · simp only [Raw.ok, Bool.and_eq_true, decide_eq_true_eq]; omega
  · simp [ofRaw, uniB]

theorem RoundTrip.keyopSet (h : Hd) (d : R64) (a : R64) : RoundTrip.Statement (.keyopSet h d a) := by
  have hs := Bool.toNat_lt h.sw
  refine roundTrip_one rfl ?_ rfl ?_
  · simp only [Raw.ok, Bool.and_eq_true, decide_eq_true_eq]; omega
  · simp [ofRaw, uniB]

theorem RoundTrip.keyopBump (h : Hd) (d : R64) (a : R64) : RoundTrip.Statement (.keyopBump h d a) := by
  have hs := Bool.toNat_lt h.sw
  refine roundTrip_one rfl ?_ rfl ?_
  · simp only [Raw.ok, Bool.and_eq_true, decide_eq_true_eq]; omega
  · simp [ofRaw, uniB]

theorem RoundTrip.keyopClear (h : Hd) (d : R64) (a : R64) : RoundTrip.Statement (.keyopClear h d a) := by
  have hs := Bool.toNat_lt h.sw
  refine roundTrip_one rfl ?_ rfl ?_
  · simp only [Raw.ok, Bool.and_eq_true, decide_eq_true_eq]; omega
  · simp [ofRaw, uniB]

theorem RoundTrip.keyopNewkey (h : Hd) (d : R64) (a : R64) : RoundTrip.Statement (.keyopNewkey h d a) := by
  have hs := Bool.toNat_lt h.sw
  refine roundTrip_one rfl ?_ rfl ?_
  · simp only [Raw.ok, Bool.and_eq_true, decide_eq_true_eq]; omega
  · simp [ofRaw, uniB]

theorem RoundTrip.svcall (h : Hd) (d : R64) (a : R64) (slot : R8) : RoundTrip.Statement (.svcall h d a slot) := by
  have hs := Bool.toNat_lt h.sw
  refine roundTrip_one rfl ?_ rfl ?_
  · simp only [Raw.ok, Bool.and_eq_true, decide_eq_true_eq]; omega
  · simp [ofRaw, uniB]

theorem RoundTrip.fqheadWrite (part : Nat) (v : BitVec 64) : RoundTrip.Statement (.fqheadWrite part v) :=
  roundTrip_event rfl

theorem RoundTrip.fqConfigWrite (part : Nat) (size : Bool) (v : BitVec 64) : RoundTrip.Statement (.fqConfigWrite part size v) :=
  roundTrip_event rfl

theorem RoundTrip.convergenceIllop (cid : Nat) : RoundTrip.Statement (.convergenceIllop cid) :=
  roundTrip_event rfl

theorem RoundTrip.reservedWordIssue (w : Word) : RoundTrip.Statement (.reservedWordIssue w) :=
  roundTrip_event rfl

theorem RoundTrip.tagportWrite (fn : FnNo) (port : Fin 64) (whole : Bool) (data : BitVec 128) : RoundTrip.Statement (.tagportWrite fn port whole data) :=
  roundTrip_event rfl

theorem RoundTrip.poolTimerExpiry (part : Nat) (tag : Nat) : RoundTrip.Statement (.poolTimerExpiry part tag) :=
  roundTrip_event rfl

theorem RoundTrip.celileMessage (from_ : FabDev) (part : Nat) (spart : Nat) (data : BitVec 128) : RoundTrip.Statement (.celileMessage from_ part spart data) :=
  roundTrip_event rfl

theorem RoundTrip.launchQueueDepart (part : Nat) : RoundTrip.Statement (.launchQueueDepart part) :=
  roundTrip_event rfl

theorem RoundTrip.consortPlacement (consort : Nat) : RoundTrip.Statement (.consortPlacement consort) :=
  roundTrip_event rfl

theorem RoundTrip.consortEnd (consort : Nat) : RoundTrip.Statement (.consortEnd consort) :=
  roundTrip_event rfl

theorem RoundTrip.coalesceIntervalEnd (fn : FnNo) (vec : Fin 2) : RoundTrip.Statement (.coalesceIntervalEnd fn vec) :=
  roundTrip_event rfl

theorem RoundTrip.launchQueueCeilingChange (part : Nat) (prio : Fin 8) : RoundTrip.Statement (.launchQueueCeilingChange part prio) :=
  roundTrip_event rfl

theorem RoundTrip.resumableConsortReplace (consort : Nat) (slot : List Nat) (keep : Bool) : RoundTrip.Statement (.resumableConsortReplace consort slot keep) :=
  roundTrip_event rfl

theorem RoundTrip.activation (part : Nat) (lcore : Nat) : RoundTrip.Statement (.activation part lcore) :=
  roundTrip_event rfl

theorem RoundTrip.registerFillComplete (cid : Nat) (v : R64) : RoundTrip.Statement (.registerFillComplete cid v) :=
  roundTrip_event rfl

theorem RoundTrip.lineSpillComplete (cid : Nat) (v : R64) : RoundTrip.Statement (.lineSpillComplete cid v) :=
  roundTrip_event rfl

theorem RoundTrip.remoteLineRead (cid : Nat) (v : R64) : RoundTrip.Statement (.remoteLineRead cid v) :=
  roundTrip_event rfl

theorem RoundTrip.lazyClaim (consort : Nat) (u : Unit70) : RoundTrip.Statement (.lazyClaim consort u) :=
  roundTrip_event rfl

theorem RoundTrip.deferredResultReturn (n : Nat) : RoundTrip.Statement (.deferredResultReturn n) :=
  roundTrip_event rfl

theorem RoundTrip.chiselStep (pcn : Nat) (quad : Nat) : RoundTrip.Statement (.chiselStep pcn quad) :=
  roundTrip_event rfl

theorem RoundTrip.copyLine (op : Nat) (line : Nat) : RoundTrip.Statement (.copyLine op line) :=
  roundTrip_event rfl

theorem RoundTrip.collChunk (op : Nat) (chunk : Nat) (peers : List PeerPart) : RoundTrip.Statement (.collChunk op chunk peers) :=
  roundTrip_event rfl

theorem RoundTrip.deadlineExpiry (cid : Nat) : RoundTrip.Statement (.deadlineExpiry cid) :=
  roundTrip_event rfl

theorem RoundTrip.schedulingSliceEnd (part : Nat) : RoundTrip.Statement (.schedulingSliceEnd part) :=
  roundTrip_event rfl

theorem RoundTrip.requestTimeout (who : Requester) (id : Nat) (lanes : Mask) (performed : Bool) : RoundTrip.Statement (.requestTimeout who id lanes performed) :=
  roundTrip_event rfl

theorem RoundTrip.sliceRequest (r : SliceReq) : RoundTrip.Statement (.sliceRequest r) :=
  roundTrip_event rfl

theorem RoundTrip.pageWalkComplete (part : Nat) (asid : Nat) (va : Nat) (priv : Bool) : RoundTrip.Statement (.pageWalkComplete part asid va priv) :=
  roundTrip_event rfl

theorem RoundTrip.tlbInvalidationComplete (n : Nat) : RoundTrip.Statement (.tlbInvalidationComplete n) :=
  roundTrip_event rfl

theorem RoundTrip.atsInvalidationRequest (fn : FnNo) (pasid : Nat) (iova : Nat) : RoundTrip.Statement (.atsInvalidationRequest fn pasid iova) :=
  roundTrip_event rfl

theorem RoundTrip.atsTranslationCompletion (fn : FnNo) (asid : Nat) (pasid : Nat) (iova : Nat) (grant : Grant) : RoundTrip.Statement (.atsTranslationCompletion fn asid pasid iova grant) :=
  roundTrip_event rfl

theorem RoundTrip.stage2Invalidation (part : Nat) (ipa : Nat) (entryAddr : Nat) (entry : BitVec 64) : RoundTrip.Statement (.stage2Invalidation part ipa entryAddr entry) :=
  roundTrip_event rfl

theorem RoundTrip.keyLoadComplete (key : Nat) : RoundTrip.Statement (.keyLoadComplete key) :=
  roundTrip_event rfl

theorem RoundTrip.scrubOnBind (slice : Nat) (frames : List Nat) : RoundTrip.Statement (.scrubOnBind slice frames) :=
  roundTrip_event rfl

theorem RoundTrip.scrubFrameComplete (slice : Nat) (frame : Nat) : RoundTrip.Statement (.scrubFrameComplete slice frame) :=
  roundTrip_event rfl

theorem RoundTrip.fabricAccessIn (from_ : FabDev) (part : Nat) (spart : Nat) (addr : Nat) (acc : Acc) (op : AtOp) (size : Nat) (data : List Byte) (data2 : List Byte) : RoundTrip.Statement (.fabricAccessIn from_ part spart addr acc op size data data2) :=
  roundTrip_event rfl

theorem RoundTrip.celileFlitCrcError (error : FlitError) : RoundTrip.Statement (.celileFlitCrcError error) :=
  roundTrip_event rfl

theorem RoundTrip.celileLinkReset (reset : LinkReset) : RoundTrip.Statement (.celileLinkReset reset) :=
  roundTrip_event rfl

theorem RoundTrip.celileRetrainTimeout (port : Fin 12) : RoundTrip.Statement (.celileRetrainTimeout port) :=
  roundTrip_event rfl

theorem RoundTrip.celileLinkDown (port : Fin 12) (reason : Fin 5) : RoundTrip.Statement (.celileLinkDown port reason) :=
  roundTrip_event rfl

theorem RoundTrip.celileXonXoff (port : Fin 12) (cls : Fin 4) (on : Bool) : RoundTrip.Statement (.celileXonXoff port cls on) :=
  roundTrip_event rfl

theorem RoundTrip.handlerEntryService (part : Nat) (idx : Nat) : RoundTrip.Statement (.handlerEntryService part idx) :=
  roundTrip_event rfl

theorem RoundTrip.hubServiceFrame (cid : Nat) : RoundTrip.Statement (.hubServiceFrame cid) :=
  roundTrip_event rfl

theorem RoundTrip.hubServiceScratch (cid : Nat) : RoundTrip.Statement (.hubServiceScratch cid) :=
  roundTrip_event rfl

theorem RoundTrip.hubServiceSaveArea (cid : Nat) : RoundTrip.Statement (.hubServiceSaveArea cid) :=
  roundTrip_event rfl

theorem RoundTrip.hubServiceDrain (cid : Nat) : RoundTrip.Statement (.hubServiceDrain cid) :=
  roundTrip_event rfl

theorem RoundTrip.hubServiceFrameWrite (cid : Nat) : RoundTrip.Statement (.hubServiceFrameWrite cid) :=
  roundTrip_event rfl

theorem RoundTrip.hsigSignal (hc : HubAgent) (v : BitVec 64) : RoundTrip.Statement (.hsigSignal hc v) :=
  roundTrip_event rfl

theorem RoundTrip.contextPortRead (from_ : Option Nat) (cid : Nat) (off : Nat) (len : Nat) : RoundTrip.Statement (.contextPortRead from_ cid off len) :=
  roundTrip_event rfl

theorem RoundTrip.contextPortWrite (from_ : Option Nat) (cid : Nat) (off : Nat) (bytes : List Byte) : RoundTrip.Statement (.contextPortWrite from_ cid off bytes) :=
  roundTrip_event rfl

theorem RoundTrip.dispenserReset (part : Nat) (d : Nat) : RoundTrip.Statement (.dispenserReset part d) :=
  roundTrip_event rfl

theorem RoundTrip.heartbeatSend (tile : Fin 96) : RoundTrip.Statement (.heartbeatSend tile) :=
  roundTrip_event rfl

theorem RoundTrip.heartbeatReceive (tile : Fin 96) (dir : Fin 4) (flit : BitVec 128) : RoundTrip.Statement (.heartbeatReceive tile dir flit) :=
  roundTrip_event rfl

theorem RoundTrip.periodBoundary (tile : Fin 96) : RoundTrip.Statement (.periodBoundary tile) :=
  roundTrip_event rfl

theorem RoundTrip.accusationReceive (tile : Fin 96) (cw : Bool) (flit : BitVec 128) : RoundTrip.Statement (.accusationReceive tile cw flit) :=
  roundTrip_event rfl

theorem RoundTrip.muteNoticeReceive (tile : Fin 96) : RoundTrip.Statement (.muteNoticeReceive tile) :=
  roundTrip_event rfl

theorem RoundTrip.muteMapUpdate (router : Fin 96) (suspect : Fin 96) : RoundTrip.Statement (.muteMapUpdate router suspect) :=
  roundTrip_event rfl

theorem RoundTrip.muteReport (suspect : Fin 96) (lastSeq : BitVec 16) : RoundTrip.Statement (.muteReport suspect lastSeq) :=
  roundTrip_event rfl

theorem RoundTrip.selfTestComplete (tile : Fin 96) (pass : Bool) : RoundTrip.Statement (.selfTestComplete tile pass) :=
  roundTrip_event rfl

theorem RoundTrip.appealSend (tile : Fin 96) : RoundTrip.Statement (.appealSend tile) :=
  roundTrip_event rfl

theorem RoundTrip.appealReceive (tile : Fin 96) (dir : Fin 4) : RoundTrip.Statement (.appealReceive tile dir) :=
  roundTrip_event rfl

theorem RoundTrip.retuneVoteReceive (tile : Fin 96) (cw : Bool) (flit : BitVec 128) : RoundTrip.Statement (.retuneVoteReceive tile cw flit) :=
  roundTrip_event rfl

theorem RoundTrip.retuneNoticeReceive (tile : Fin 96) (suspect : Fin 96) : RoundTrip.Statement (.retuneNoticeReceive tile suspect) :=
  roundTrip_event rfl

theorem RoundTrip.retuneReport (suspect : Fin 96) (lastSeq : BitVec 16) : RoundTrip.Statement (.retuneReport suspect lastSeq) :=
  roundTrip_event rfl

theorem RoundTrip.supplyDroop (tile : Fin 96) : RoundTrip.Statement (.supplyDroop tile) :=
  roundTrip_event rfl

theorem RoundTrip.droopStep (tile : Fin 96) : RoundTrip.Statement (.droopStep tile) :=
  roundTrip_event rfl

theorem RoundTrip.droopRecovery (tile : Fin 96) : RoundTrip.Statement (.droopRecovery tile) :=
  roundTrip_event rfl

theorem RoundTrip.powerCheckTick (mW : Nat) : RoundTrip.Statement (.powerCheckTick mW) :=
  roundTrip_event rfl

theorem RoundTrip.thermalTrip (die : Fin 2) (t16 : Nat) : RoundTrip.Statement (.thermalTrip die t16) :=
  roundTrip_event rfl

theorem RoundTrip.thermalCeilingRelease (t0 : Nat) (t1 : Nat) : RoundTrip.Statement (.thermalCeilingRelease t0 t1) :=
  roundTrip_event rfl

theorem RoundTrip.uncorrectableError (u : ErrUnit) : RoundTrip.Statement (.uncorrectableError u) :=
  roundTrip_event rfl

theorem RoundTrip.controlStateError (u : CtlUnit) : RoundTrip.Statement (.controlStateError u) :=
  roundTrip_event rfl

theorem RoundTrip.deviceBringUp (b : BringUp) : RoundTrip.Statement (.deviceBringUp b) :=
  roundTrip_event rfl

theorem RoundTrip.functionLevelReset (fn : FnNo) : RoundTrip.Statement (.functionLevelReset fn) :=
  roundTrip_event rfl

theorem RoundTrip.createPartition (fn : FnNo) (part : Nat) (cores : BitVec 72) (slices : BitVec 24) (ports : BitVec 12) (asidT : Nat) (armT : Nat) (acctT : Nat) : RoundTrip.Statement (.createPartition fn part cores slices ports asidT armT acctT) :=
  roundTrip_event rfl

theorem RoundTrip.resetPartition (fn : FnNo) (part : Nat) (failed : List Nat) : RoundTrip.Statement (.resetPartition fn part failed) :=
  roundTrip_event rfl

theorem RoundTrip.bindVf (fn : FnNo) (vf : FnNo) (part : Nat) : RoundTrip.Statement (.bindVf fn vf part) :=
  roundTrip_event rfl

theorem RoundTrip.setStage2Root (fn : FnNo) (part : Nat) (root : Nat) : RoundTrip.Statement (.setStage2Root fn part root) :=
  roundTrip_event rfl

theorem RoundTrip.assignWorld (fn : FnNo) (pcn : Nat) (quads : BitVec 4) (world : Nat) : RoundTrip.Statement (.assignWorld fn pcn quads world) :=
  roundTrip_event rfl

theorem RoundTrip.bindTagPort (fn : FnNo) (port : Fin 64) (asid : Nat) (world : Nat) (prio : Nat) : RoundTrip.Statement (.bindTagPort fn port asid world prio) :=
  roundTrip_event rfl

theorem RoundTrip.setAllowListEntry (fn : FnNo) (part : Nat) (index : Nat) (entry : Word) : RoundTrip.Statement (.setAllowListEntry fn part index entry) :=
  roundTrip_event rfl

theorem RoundTrip.appealPolicy (fn : FnNo) (tile : Fin 96) (enable : Bool) : RoundTrip.Statement (.appealPolicy fn tile enable) :=
  roundTrip_event rfl

theorem RoundTrip.writeExportOrImportEntry (fn : FnNo) (imp : Bool) (index : Nat) (entry : BitVec 256) : RoundTrip.Statement (.writeExportOrImportEntry fn imp index entry) :=
  roundTrip_event rfl

theorem RoundTrip.registerHandlerConsort (fn : FnNo) (seq : BitVec 64) : RoundTrip.Statement (.registerHandlerConsort fn seq) :=
  roundTrip_event rfl

theorem RoundTrip.terminateFaultEntry (fn : FnNo) (part : Nat) (idx : Nat) : RoundTrip.Statement (.terminateFaultEntry fn part idx) :=
  roundTrip_event rfl

theorem RoundTrip.configurePartitionRuntime (fn : FnNo) (part : Nat) (rAsid : Nat) (cAsid : Nat) (base : Nat) (size : Nat) (disp : Nat) (evFn : Nat) : RoundTrip.Statement (.configurePartitionRuntime fn part rAsid cAsid base size disp evFn) :=
  roundTrip_event rfl

theorem RoundTrip.setSchedulingContexts (fn : FnNo) (part : Nat) (count : Nat) (slice : Nat) (weights : List Nat) : RoundTrip.Statement (.setSchedulingContexts fn part count slice weights) :=
  roundTrip_event rfl

theorem RoundTrip.queryPartition (fn : FnNo) (part : Nat) (item : Nat) : RoundTrip.Statement (.queryPartition fn part item) :=
  roundTrip_event rfl

theorem RoundTrip.heqConfigWrite (fn : FnNo) (size : Bool) (v : BitVec 64) : RoundTrip.Statement (.heqConfigWrite fn size v) :=
  roundTrip_event rfl

theorem RoundTrip.heqheadWrite (fn : FnNo) (v : BitVec 64) : RoundTrip.Statement (.heqheadWrite fn v) :=
  roundTrip_event rfl

theorem RoundTrip.verselWrite (fn : FnNo) (v : BitVec 64) : RoundTrip.Statement (.verselWrite fn v) :=
  roundTrip_event rfl

theorem RoundTrip.counterRead (fn : FnNo) : RoundTrip.Statement (.counterRead fn) :=
  roundTrip_event rfl

theorem RoundTrip.coaltWrite (fn : FnNo) (v : BitVec 64) : RoundTrip.Statement (.coaltWrite fn v) :=
  roundTrip_event rfl

theorem RoundTrip.pwrlimWrite (fn : FnNo) (v : BitVec 64) : RoundTrip.Statement (.pwrlimWrite fn v) :=
  roundTrip_event rfl

theorem RoundTrip.registerWrite (fn : FnNo) (off : Nat) (v : BitVec 64) : RoundTrip.Statement (.registerWrite fn off v) :=
  roundTrip_event rfl

theorem RoundTrip.msixVectorUnmask (fn : FnNo) (vec : Fin 256) : RoundTrip.Statement (.msixVectorUnmask fn vec) :=
  roundTrip_event rfl

theorem RoundTrip.tdispStateChange (fn : FnNo) (st : Fin 4) : RoundTrip.Statement (.tdispStateChange fn st) :=
  roundTrip_event rfl

theorem RoundTrip.spdmNegotiateAlgorithms (version : Nat) (mldsa44 : Bool) (sha3_256 : Bool) (mlkem768 : Bool) : RoundTrip.Statement (.spdmNegotiateAlgorithms version mldsa44 sha3_256 mlkem768) :=
  roundTrip_event rfl

theorem RoundTrip.spdmKeyExchange (mlkem768 : Bool) (offer : KeyOffer) : RoundTrip.Statement (.spdmKeyExchange mlkem768 offer) :=
  roundTrip_event rfl

theorem RoundTrip.spdmGetMeasurements (index : Nat) : RoundTrip.Statement (.spdmGetMeasurements index) :=
  roundTrip_event rfl

end Sys2Proof.Laws
end

