-- ==== Sys2Proof/Safety.lean ====
section
/-! DEFINITION. The terms in which claims speak: a safe run, the invariant of every state, an issue whose checks pass, and what a
completed instruction leaves alone. -/

namespace Sys2Proof.Machine

/-- What a meaning reads of a state and never changes. -/
abbrev State.env (s : State) : Env := ⟨s.fix, s.mem⟩

/-- A safe step: it ends in a next state. -/
def SafeStep (s : State) : Prop := ∃ t, step s = .next t

/-- A safe run of n steps: no step of it ends in a fault or a refusal. -/
def SafeRun (n : Nat) (s : Sys2Proof.core.State) : Prop := ∃ t, Sys2Proof.core.run n s = .next t

/-- What holds of every state a step leaves: memory is canonical, and no gathered write is left over. -/
structure State.Inv (s : State) : Prop where
  mem : s.mem.wf = true
  wb : s.w.wb = []

/-- The device issues the selection x, its course's window is not still to be closed, memory is canonical, and no gathered write is
left over. -/
structure Issues (s : State) (x : Sel) : Prop where
  pick : issueOf s.env s.w = .go x
  shut : x.c.w.closing = false
  wb : s.w.wb = []
  mem : s.mem.wf = true

/-- The checks of R165 that every instruction makes pass: the deferred window has room (R67), no register it names misses
(R65), no unit it reads is poisoned when lanes read (R40), and the cache has room for the lines it allocates (R62). -/
structure Clear (s : State) (x : Sel) (u : Uses) (reads : Mask) : Prop where
  window : x.c.w.used + u.entries ≤ 16
  lines : missingLine x.c u false = none
  clean : reads = 0 ∨ poisonedUnit x.c u = none
  room : newLines x.c u.d = 0 ∨ lineCount (setCourse s.w x.c) (quadOf x.c) + newLines x.c u.d ≤ 2048

/-- What a uniform instruction reads of a course: its guard, and the rest only where the guard is true (R213, R272). -/
def uniReads (c : Course) (h : Hd) (u : Uses) : Uses :=
  uniUses h (if guardOn c h then u else { Uses.none with entries := u.entries })

/-- The word is no switch marker, or no result is outstanding or buffered, so that closing the window writes nothing (R67). -/
def Quiet (s : State) (x : Sel) (sw : Bool) : Prop :=
  sw = false ∨ (x.c.w.buf = [] ∧ ∀ f ∈ s.w.flights, sameTag x.c f = false)

/-- The lanes of X that an owner slot owns. -/
def ownedBy (x : Sel) (n : Nat) : Mask := x.x &&& mkMask fun k => own x.c k == n

/-- An instruction of x ran: its course stands as c', charged for the lanes of X (R52); no other course changed, and of the
cores only event counters (R158). -/
structure Ran (s t : State) (x : Sel) (c' : Course) : Prop where
  here : course? t.w x.c.id.cid = some c'
  id : c'.id = x.c.id
  others : ∀ n, n ≠ x.c.id.cid → course? t.w n = course? s.w n
  charge : ∀ n, n < 8 → slotLanecyc c' n = (slotLanecyc x.c n + mCount (ownedBy x n)) % 2 ^ 64
  cores : ∀ n, { core t.w n with ev := (core s.w n).ev } = core s.w n
  fix : t.fix = s.fix

/-- Nothing but courses, event counters and deferred results on their way differs; every byte of memory reads as before. -/
structure Still (s t : State) : Prop where
  mem : ∀ a, t.mem.rd a = s.mem.rd a
  rest : t.w = { s.w with
    courses := t.w.courses, cores := t.w.cores, flights := t.w.flights, nextFlight := t.w.nextFlight }

/-- The registers of a course left alone, but for the V, S, P and Q registers listed, the PC, and FLAGS and LANECYC of the owner
slots. -/
structure Keeps (c c' : Course) (vs ss ps qs : List Nat) : Prop where
  v : ∀ r, r ∉ vs → getV c' r = getV c r ∧ poisV c' r = poisV c r
  s : ∀ r, r < 64 → r ∉ ss → getS c' r = getS c r
  p : ∀ r, r < 8 → r ∉ ps → getP c' r = getP c r
  q : ∀ r, r < 8 → r ∉ qs → getQ c' r = getQ c r
  d : c'.r.d = c.r.d
  a : c'.r.a = c.r.a
  tl : c'.r.tl = c.r.tl
  status : c'.r.status = c.r.status
  slots : ∀ n, n < 8 → ∀ i, i < 448 → (i < 24 ∨ 29 ≤ i) → (slotBits c' n).getLsbD i = (slotBits c n).getLsbD i

/-- The sticky flags of every owner slot as before (R21). -/
def FlagsKept (c c' : Course) : Prop := ∀ n, n < 8 → slotFlags c' n = slotFlags c n

/-- The lanes of X stand n bytes further, the others where they stood (R49). -/
def Advanced (x : Sel) (c' : Course) (n : Nat) : Prop :=
  ∀ k, k < 32 → lpc c' k = if mHas x.x k then lpc x.c k + BitVec.ofNat 32 n else lpc x.c k

/-- The lanes of a mask at a target, the others of X advanced by 4, all others where they stood (R264). -/
def Jumped (x : Sel) (c' : Course) (on : Mask) (target : Nat → Word) : Prop :=
  ∀ k, k < 32 → lpc c' k =
    if mHas on k then target k else if mHas x.x k then lpc x.c k + 4 else lpc x.c k

/-- The word of a V register in the lanes of a mask satisfies a relation; in the other lanes it is as before. -/
def Wrote (c c' : Course) (r : Nat) (on : Mask) (f : Nat → Word → Prop) : Prop :=
  ∀ k, k < 32 → if mHas on k then f k (laneOf (getV c' r) k) else laneOf (getV c' r) k = laneOf (getV c r) k

/-- The lanes of a mask raise flags in their owners' slots; a flag once set stays set (R21). -/
def FlagsRaised (c c' : Course) (on : Mask) (f : Nat → Nat) : Prop :=
  ∀ n, n < 8 → ∀ i, i < 5 → (slotFlags c' n).testBit i =
    ((slotFlags c n).testBit i || (mLanes on).any fun k => own c k == n && (f k).testBit i)

end Sys2Proof.Machine
end

