-- ==== Sys2Proof/Certificates/Slice0/Obligations.lean ====
section
/-! DEFINITION. The statements for the provers, from the numbered rules of the spec. -/

namespace Sys2Proof.Claims

open Sys2Proof.Machine

/-! ## Lane instructions: what the spec's tables say of each, as relations on words -/

/-- A lane instruction of one V destination: its head, the registers it names but for the guard, the destination, and what its
result in a lane must satisfy, from the course as it was. -/
structure LaneRow where
  h : Hd
  u : Uses
  d : R64
  res : Course → Nat → Word → Prop

/-- Its registers with the guard's predicate. -/
def LaneRow.uses (r : LaneRow) : Uses := laneUses r.h r.u

/-- The lanes that execute it, and the lanes that read its sources (R227). -/
def LaneRow.on (r : LaneRow) (x : Sel) : Mask := lanesOn x.c r.h x.x
def LaneRow.reads (r : LaneRow) (x : Sel) : Mask := readersAll x.c r.h x.x

/-- A row of two V sources. -/
def rowRR (h : Hd) (d a b : R64) (f : Word → Word → Word → Prop) : LaneRow :=
  ⟨h, { Uses.none with v := [a.val, b.val], d := [d.val] }, d, fun c k r => f (vAt c a k) (vAt c b k) r⟩

/-- A row of two V sources that reads its destination too. -/
def rowRRD (h : Hd) (d a b : R64) (f : Word → Word → Word → Word → Prop) : LaneRow :=
  ⟨h, { Uses.none with v := [a.val, b.val, d.val], d := [d.val] }, d, fun c k r => f (vAt c a k) (vAt c b k) (vAt c d k) r⟩

/-- A row of one V source. -/
def rowR (h : Hd) (d a : R64) (f : Word → Word → Prop) : LaneRow :=
  ⟨h, { Uses.none with v := [a.val], d := [d.val] }, d, fun c k r => f (vAt c a k) r⟩

/-- A row without a V source. -/
def row0 (h : Hd) (d : R64) (f : Course → Nat → Word → Prop) : LaneRow := ⟨h, { Uses.none with d := [d.val] }, d, f⟩

/-- The signed reading of an n-bit immediate. -/
def simm (n v : Nat) : Int := if v < 2 ^ (n - 1) then v else (v : Int) - 2 ^ n

/-- An integer clamped (R232). -/
def clampTo (lo hi n : Int) : Int := max lo (min n hi)

/-- Sums and differences by saturation (R232). -/
def addRel (m : Sat) (a b r : Word) : Prop :=
  match m with
  | .wrap => r.toNat = (a.toNat + b.toNat) % 2 ^ 32
  | .ss => r.toInt = clampTo (-2 ^ 31) (2 ^ 31 - 1) (a.toInt + b.toInt)
  | .us => r.toNat = min (a.toNat + b.toNat) (2 ^ 32 - 1)
def subRel (m : Sat) (a b r : Word) : Prop :=
  match m with
  | .wrap => (r.toNat : Int) = ((a.toNat : Int) - b.toNat) % 2 ^ 32
  | .ss => r.toInt = clampTo (-2 ^ 31) (2 ^ 31 - 1) (a.toInt - b.toInt)
  | .us => (r.toNat : Int) = max ((a.toNat : Int) - b.toNat) 0

/-- High words of products, floor division by 2^32 (R232). -/
def mulhRel (u : Bool) (a b r : Word) : Prop :=
  if u then r.toNat = a.toNat * b.toNat / 2 ^ 32 else r.toInt = a.toInt * b.toInt / 2 ^ 32

/-- The lesser, the greater (R232). -/
def minRel (u : Bool) (a b r : Word) : Prop := if u then r.toNat = min a.toNat b.toNat else r.toInt = min a.toInt b.toInt
def maxRel (u : Bool) (a b r : Word) : Prop := if u then r.toNat = max a.toNat b.toNat else r.toInt = max a.toInt b.toInt

/-- Absolute values (R232). -/
def absRel (sat : Bool) (a r : Word) : Prop :=
  if sat then r.toNat = min a.toInt.natAbs (2 ^ 31 - 1) else r.toNat = a.toInt.natAbs % 2 ^ 32

/-- Bitwise results (R232). -/
def bitRel (f : Bool → Bool → Bool) (a b r : Word) : Prop := ∀ i, i < 32 → r.getLsbD i = f (a.getLsbD i) (b.getLsbD i)

/-- Shifts by any unsigned amount, and rotation (R232). -/
def shlRel (a r : Word) (n : Nat) : Prop := r.toNat = if n < 32 then a.toNat * 2 ^ n % 2 ^ 32 else 0
def shrRel (a r : Word) (n : Nat) : Prop := r.toNat = if n < 32 then a.toNat / 2 ^ n else 0
def sarRel (a r : Word) (n : Nat) : Prop :=
  r.toInt = if n < 32 then a.toInt / 2 ^ n else if a.toInt < 0 then -1 else 0
def rotlRel (a b r : Word) : Prop := ∀ i, i < 32 → r.getLsbD ((i + b.toNat) % 32) = a.getLsbD i

/-- Counts and reversal (R232). -/
def popcRel (a r : Word) : Prop := r.toNat = ((Finset.range 32).filter fun i => a.getLsbD i = true).card
def clzRel (a r : Word) : Prop :=
  r.toNat ≤ 32 ∧ (∀ i, i < r.toNat → a.getLsbD (31 - i) = false) ∧ (r.toNat < 32 → a.getLsbD (31 - r.toNat) = true)
def brevRel (a r : Word) : Prop := ∀ i, i < 32 → r.getLsbD (31 - i) = a.getLsbD i

/-- The position and the effective length of a bit field (R232). -/
def fieldPos (b : Word) : Nat := b.toNat % 32
def fieldLen (b : Word) : Nat := min (b.toNat / 256 % 64) (32 - fieldPos b)

/-- Bit fields taken and put (R232). -/
def bfxRel (s : Bool) (a b r : Word) : Prop :=
  ∀ i, i < 32 → r.getLsbD i =
    if i < fieldLen b then a.getLsbD (fieldPos b + i)
    else if s ∧ 0 < fieldLen b then a.getLsbD (fieldPos b + fieldLen b - 1) else false
def bfiRel (a b d r : Word) : Prop :=
  ∀ i, i < 32 → r.getLsbD i =
    if fieldPos b ≤ i ∧ i < fieldPos b + fieldLen b then a.getLsbD (i - fieldPos b) else d.getLsbD i

/-- Integer arithmetic: IADD to IABS, and the immediate forms (R232, R236). -/
def arithRow : Instr → Option LaneRow
  | .iadd h d a b m => some (rowRR h d a b (addRel m))
  | .isub h d a b m => some (rowRR h d a b (subRel m))
  | .imul h d a b => some (rowRR h d a b fun a b r => r.toNat = a.toNat * b.toNat % 2 ^ 32)
  | .imulh h d a b u => some (rowRR h d a b (mulhRel u))
  | .imad h d a b => some (rowRRD h d a b fun a b d r => r.toNat = (a.toNat * b.toNat + d.toNat) % 2 ^ 32)
  | .imin h d a b u => some (rowRR h d a b (minRel u))
  | .imax h d a b u => some (rowRR h d a b (maxRel u))
  | .iabs h d a s => some (rowR h d a (absRel s))
  | .iaddi h d a i => some (rowR h d a fun a r => (r.toNat : Int) = ((a.toNat : Int) + simm 8 i.val) % 2 ^ 32)
  | .imuli h d a i => some (rowR h d a fun a r => (r.toNat : Int) = ((a.toNat : Int) * simm 8 i.val) % 2 ^ 32)
  | _ => none

/-- Logic, shifts, rotation, counts, reversal and bit fields, and the immediate forms (R232, R236). -/
def bitsRow : Instr → Option LaneRow
  | .and h d a b => some (rowRR h d a b (bitRel (· && ·)))
  | .or h d a b => some (rowRR h d a b (bitRel (· || ·)))
  | .xor h d a b => some (rowRR h d a b (bitRel (· ^^ ·)))
  | .andn h d a b => some (rowRR h d a b (bitRel fun x y => x && !y))
  | .shl h d a b => some (rowRR h d a b fun a b r => shlRel a r b.toNat)
  | .shr h d a b => some (rowRR h d a b fun a b r => shrRel a r b.toNat)
  | .sar h d a b => some (rowRR h d a b fun a b r => sarRel a r b.toNat)
  | .rotl h d a b => some (rowRR h d a b rotlRel)
  | .popc h d a => some (rowR h d a popcRel)
  | .clz h d a => some (rowR h d a clzRel)
  | .brev h d a => some (rowR h d a brevRel)
  | .bfx h d a b s => some (rowRR h d a b (bfxRel s))
  | .bfi h d a b => some (rowRRD h d a b bfiRel)
  | .andi h d a i => some (rowR h d a fun a r => ∀ j, j < 32 → r.getLsbD j = (a.getLsbD j && i.val.testBit j))
  | .ori h d a i => some (rowR h d a fun a r => ∀ j, j < 32 → r.getLsbD j = (a.getLsbD j || i.val.testBit j))
  | .xori h d a i => some (rowR h d a fun a r => ∀ j, j < 32 → r.getLsbD j = (a.getLsbD j ^^ i.val.testBit j))
  | .shli h d a i => some (rowR h d a fun a r => shlRel a r i.val)
  | .shri h d a i => some (rowR h d a fun a r => shrRel a r i.val)
  | .sari h d a i => some (rowR h d a fun a r => sarRel a r i.val)
  | _ => none

/-- The lanes of lane k's owner that are live, parked or exited, at most 32 of them (R235, R258, R263). -/
def ownerSet (c : Course) (k : Nat) : Finset Nat := (Finset.range 32).filter fun j => laneSt c j ≠ 0 ∧ own c j = own c k

/-- Moves, selection, predicates read into V, work identifiers, owner queries, signs and random words: R233, R235, R237, R239,
R248, R262, R263. -/
def moveRow : Instr → Option LaneRow
  | .mov h d a => some (rowR h d a fun a r => r = a)
  | .movi h d i => some (row0 h d fun _ _ r => r.toInt = simm 14 i.val)
  | .movs h d a => some ⟨h, { Uses.none with s := [a.val], d := [d.val] }, d, fun c _ r => r = getS c a.val⟩
  | .sel h d a b n => some ⟨h, { Uses.none with v := [a.val, b.val], p := [n.val], d := [d.val] }, d,
      fun c k r => r = if mHas (getP c n.val) k then vAt c a k else vAt c b k⟩
  | .pgetv h d a m => some ⟨h, { Uses.none with p := [a.val], d := [d.val], sect := if m then ownSect true else [] }, d, fun c k r =>
      if m then ∀ j, j < 32 → r.getLsbD j = (decide (j ∈ ownerSet c k) && mHas (getP c a.val) j)
      else r.toNat = (mHas (getP c a.val) k).toNat⟩
  | .fsgn h d a b o => some (rowRR h d a b fun a b r => (∀ i, i < 31 → r.getLsbD i = a.getLsbD i) ∧
      r.getLsbD 31 = match o with
        | .copy => b.getLsbD 31
        | .inv => !b.getLsbD 31
        | .xor => a.getLsbD 31 ^^ b.getLsbD 31)
  | .widx h d f hi => some (row0 h d fun c k r =>
      let field := (c.id.wid + k) / 2 ^ (c.id.widths.take f.val).sum % 2 ^ c.id.widths.getD f.val 0
      r.toNat = if hi then field / 2 ^ 32 % 2 ^ 32 else field % 2 ^ 32)
  | .ownq h d o => some ⟨h, { Uses.none with d := [d.val], sect := ownSect (o ≠ .slot) }, d, fun c k r => match o with
      | .slot => r.toNat = own c k
      | .mask => ∀ j, j < 32 → r.getLsbD j = decide (j ∈ ownerSet c k)
      | .rank => r.toNat = ((ownerSet c k).filter (· < k)).card
      | .count => r.toNat = (ownerSet c k).card⟩
  | _ => none

/-- What a lane instruction of one V destination does that sets no flag: it completes, each executing lane holds a result that
satisfies the row, the lanes of X advance, and everything else stays (R227). -/
def LaneResult (i : Instr) (row : LaneRow) : Prop :=
  ∀ s x, Issues s x → Clear s x row.uses (row.reads x) → Quiet s x row.h.sw →
    ∃ t c', exec i s = .next t ∧ Ran s t x c' ∧ Still s t ∧ t.w.flights = s.w.flights ∧
      Keeps x.c c' [row.d.val] [] [] [] ∧ FlagsKept x.c c' ∧ Advanced x c' 4 ∧
      Wrote x.c c' row.d.val (row.on x) (row.res x.c)

end Sys2Proof.Claims

open Sys2Proof Sys2Proof.Machine Sys2Proof.Claims

/-- R232, R236: IADD, ISUB, IMUL, IMULH, IMAD, IMIN, IMAX, IABS, IADDI and IMULI compute what the table says, lane by lane. -/
def Sys2Proof.Claims.LaneArithmeticHold : Prop := ∀ i row, arithRow i = some row → LaneResult i row

/-- R232, R236: the logic, shift, count, reversal and bit-field instructions, and the immediate forms. -/
def Sys2Proof.Claims.LaneBitsHold : Prop := ∀ i row, bitsRow i = some row → LaneResult i row

/-- R233, R235, R237, R239, R262, R263: moves, SEL, PGETV, FSGN, WIDX and OWNQ. -/
def Sys2Proof.Claims.LaneMovesHold : Prop := ∀ i row, moveRow i = some row → LaneResult i row

/-- Integer, logic and move lane instructions write their results, the claims named here together. -/
def Obligations.LaneResults : Prop :=
  Sys2Proof.Claims.LaneArithmeticHold ∧ Sys2Proof.Claims.LaneBitsHold ∧ Sys2Proof.Claims.LaneMovesHold

namespace Sys2Proof.Claims

open Sys2Proof.Machine

/-! ## Values (R18, R19) -/

/-- The rational number of a finite value; 0 for the others. -/
def ratOf : Fv → ℚ
  | .fin s m e => (if s then -1 else 1) * m * 2 ^ e
  | _ => 0

/-- A finite value. -/
def IsFin (v : Fv) : Prop := v.isNan = false ∧ v.isInf = false

/-- The strict order of numbers: no NaN is in it, and zeros of either sign are level (R27, R240). -/
def Less : Fv → Fv → Prop
  | .nan _, _ => False
  | _, .nan _ => False
  | .inf s, .inf t => s = true ∧ t = false
  | .inf s, .fin .. => s = true
  | .fin .., .inf t => t = false
  | .fin s m e, .fin s' m' e' => ratOf (.fin s m e) < ratOf (.fin s' m' e')

/-- Numbers that are level: neither is a NaN and neither is below the other. -/
def Level (a b : Fv) : Prop := a.isNan = false ∧ b.isNan = false ∧ ¬ Less a b ∧ ¬ Less b a

/-- What a relation of R214 says of two words, signed or unsigned. -/
def ccRel (cc : Cc) (u : Bool) (a b : Word) : Prop :=
  let x : Int := if u then a.toNat else a.toInt
  let y : Int := if u then b.toNat else b.toInt
  match cc with
  | .eq => x = y
  | .ne => x ≠ y
  | .lt => x < y
  | .le => x ≤ y
  | .gt => y < x
  | .ge => y ≤ x
  | .un => False

/-- What a relation of R240 says of two values. -/
def ccFp (cc : Cc) (a b : Fv) : Prop :=
  let un := a.isNan = true ∨ b.isNan = true
  match cc with
  | .eq => Level a b
  | .ne => ¬ Level a b
  | .lt => Less a b
  | .le => ¬ un ∧ ¬ Less b a
  | .gt => Less b a
  | .ge => ¬ un ∧ ¬ Less a b
  | .un => un

/-- Whether FCMP sets NV (R240). -/
def ccNv (cc : Cc) (a b : Fv) : Prop :=
  match cc with
  | .eq | .ne | .un => a.isSnan = true ∨ b.isSnan = true
  | .lt | .le | .gt | .ge => a.isNan = true ∨ b.isNan = true

/-- The truth of a logic operation (R235). -/
def logFn (o : LogOp) (x y : Bool) : Bool :=
  match o with
  | .and => x && y
  | .or => x || y
  | .xor => x ^^ y
  | .andn => x && !y
  | .orn => x || !y
  | .xnor => !(x ^^ y)
  | .not => !x

/-! ## Lane instructions that write a predicate -/

/-- A lane instruction with a P destination: what the bit of an executing lane says, and when that lane sets NV. -/
structure PredRow where
  h : Hd
  u : Uses
  d : R8
  res : Course → Nat → Prop
  nv : Course → Nat → Prop

def PredRow.uses (r : PredRow) : Uses := laneUses r.h r.u
def PredRow.on (r : PredRow) (x : Sel) : Mask := lanesOn x.c r.h x.x
def PredRow.reads (r : PredRow) (x : Sel) : Mask := readersAll x.c r.h x.x

/-- The decoded FP32 value of a V register in a lane. -/
def f32At (c : Course) (r : R64) (k : Nat) : Fv := fp32.decode (vNum c r k)

/-- ICMP, ICMPI, PLOG, PSETV and FCMP (R234, R235, R240). -/
def predRow : Instr → Option PredRow
  | .icmp h p cc a b u => some ⟨h, { Uses.none with v := [a.val, b.val] }, p,
      fun c k => ccRel cc u (vAt c a k) (vAt c b k), fun _ _ => False⟩
  | .icmpi h p cc a i => some ⟨h, { Uses.none with v := [a.val] }, p,
      fun c k => ccRel cc false (vAt c a k) (BitVec.ofInt 32 (simm 8 i.val)), fun _ _ => False⟩
  | .plog h p o a b => some ⟨h, { Uses.none with p := [a.val, b.val] }, p,
      fun c k => logFn o (mHas (getP c a.val) k) (mHas (getP c b.val) k) = true, fun _ _ => False⟩
  | .psetv h p a => some ⟨h, { Uses.none with v := [a.val] }, p, fun c k => vAt c a k ≠ 0, fun _ _ => False⟩
  | .fcmp h p cc a b => some ⟨h, { Uses.none with v := [a.val, b.val] }, p,
      fun c k => ccFp cc (f32At c a k) (f32At c b k), fun c k => ccNv cc (f32At c a k) (f32At c b k)⟩
  | _ => none

/-! ## Lane instructions with flags: the model's functions, whose arithmetic other statements settle -/

/-- A lane instruction of one V destination with flags: its result and its flags in a lane. -/
structure FpRow where
  h : Hd
  u : Uses
  d : R64
  f : Course → Nat → Nat × Nat

def FpRow.uses (r : FpRow) : Uses := laneUses r.h r.u
def FpRow.on (r : FpRow) (x : Sel) : Mask := lanesOn x.c r.h x.x
def FpRow.reads (r : FpRow) (x : Sel) : Mask := readersAll x.c r.h x.x

/-- Rows of one, two and three V sources. -/
def fpR (h : Hd) (d a : R64) (f : Nat → Nat × Nat) : FpRow :=
  ⟨h, { Uses.none with v := [a.val], d := [d.val] }, d, fun c k => f (vNum c a k)⟩
def fpRR (h : Hd) (d a b : R64) (f : Nat → Nat → Nat × Nat) : FpRow :=
  ⟨h, { Uses.none with v := [a.val, b.val], d := [d.val] }, d, fun c k => f (vNum c a k) (vNum c b k)⟩
def fpRRD (h : Hd) (d a b : R64) (f : Nat → Nat → Nat → Nat × Nat) : FpRow :=
  ⟨h, { Uses.none with v := [a.val, b.val, d.val], d := [d.val] }, d, fun c k => f (vNum c a k) (vNum c b k) (vNum c d k)⟩
/-- A row that reads the destination only where `reads` says (R227). -/
def fpRD (reads : Bool) (h : Hd) (d a : R64) (f : Nat → Nat → Nat × Nat) : FpRow :=
  ⟨h, { Uses.none with v := a.val :: if reads then [d.val] else [], d := [d.val] }, d, fun c k => f (vNum c a k) (vNum c d k)⟩

/-- Both halves of a packed result: each its own, flags together (R242). -/
def packed (x y : Nat × Nat) : Nat × Nat := (x.1 + 65536 * y.1, x.2 ||| y.2)
def lo16 (a : Nat) : Nat := a % 65536
def hi16 (a : Nat) : Nat := a / 65536

/-- FADD to SCLX: the immediate-class instructions of the floating-point chapter (R238, R239, R242, R244 to R247). -/
def fpRow : Instr → Option FpRow
  | .fadd h d a b m => some (fpRR h d a b (fp32.add m))
  | .fsub h d a b m => some (fpRR h d a b (fp32.sub m))
  | .fmul h d a b m => some (fpRR h d a b (fp32.mul m))
  | .fmac h d a b m => some (fpRRD h d a b (fp32.fma m))
  | .fmin h d a b => some (fpRR h d a b (fp32.minmax false))
  | .fmax h d a b => some (fpRR h d a b (fp32.minmax true))
  | .fclass h d a => some (fpR h d a fun x => (fclass x, 0))
  | .hadd2 h d a b m => some (fpRR h d a b fun a b =>
      packed (fp16.add m (lo16 a) (lo16 b)) (fp16.add m (hi16 a) (hi16 b)))
  | .hmul2 h d a b m => some (fpRR h d a b fun a b =>
      packed (fp16.mul m (lo16 a) (lo16 b)) (fp16.mul m (hi16 a) (hi16 b)))
  | .hmac2 h d a b m => some (fpRRD h d a b fun a b d =>
      packed (fp16.fma m (lo16 a) (lo16 b) (lo16 d)) (fp16.fma m (hi16 a) (hi16 b) (hi16 d)))
  | .cvt h d a o m => some (fpRD (o = .f16SR ∨ o = .bf16SR) h d a (cvt o m))
  | .cvtf8 h d a o m => some (fpRD (∃ g, o = .narrow g true) h d a (cvtf8 o m))
  | .cvtl6 h d a b => some (fpRR h d a b fun x y => cvtL6 x (y % 256))
  | .sclx h d a o m => some (fpRD (o = .apply) h d a (sclx o m))
  | .rand h d a b u => some ⟨h, { Uses.none with v := [a.val], s := [b.val], d := [d.val] }, d, fun c k =>
      let r := randHash (getS c b.val) (vAt c a k)
      (if u then randU r else r.toNat, 0)⟩
  | _ => none

/-! ## Rounding (R20, R21) -/

/-- The largest finite magnitude of a format, and the power of two above it. -/
def maxRat (f : Fmt) : ℚ := f.mmax * 2 ^ f.qmax
def topRat (f : Fmt) : ℚ := 2 ^ (f.fb + 1) * 2 ^ f.qmax

/-- Whether rounding without a bound on the exponent leaves a magnitude below the smallest normal number: tininess after
rounding (R21). -/
def Tiny {K : Type} [Field K] [LinearOrder K] (f : Fmt) (rm : Rm) (x : K) : Prop :=
  if rm = .rne then |x| < 2 ^ f.emin - 2 ^ (f.qmin - 2)
  else if (rm = .ru ∧ 0 < x) ∨ (rm = .rd ∧ x < 0) then |x| ≤ 2 ^ f.emin - 2 ^ (f.qmin - 1)
  else |x| < 2 ^ f.emin

/-- v, whose encoding is r, is the finite value of a format to which a mode rounds x when none overflows (R20). -/
def Nearest {K : Type} [Field K] [LinearOrder K] (f : Fmt) (rm : Rm) (x v : K) (r : Nat) : Prop :=
  let ys := fun (y : K) => ∃ n, IsFin (f.decode n) ∧ (ratOf (f.decode n) : K) = y
  match rm with
  | .rne => ∀ y, ys y → |v - x| ≤ |y - x| ∧ (y ≠ v → |v - x| = |y - x| → r % 2 = 0)
  | .rz => |v| ≤ |x| ∧ ∀ y, ys y → |y| ≤ |x| → |y| ≤ |v|
  | .ru => x ≤ v ∧ ∀ y, ys y → x ≤ y → v ≤ y
  | .rd => v ≤ x ∧ ∀ y, ys y → y ≤ x → y ≤ v

/-- x, not zero, rounded once to an encoding r of a format with infinities, with flags fl. -/
def Rounds {K : Type} [Field K] [LinearOrder K] (f : Fmt) (rm : Rm) (x : K) (r fl : Nat) : Prop :=
  match f.decode r with
  | .nan _ => False
  | .inf s => s = decide (x < 0) ∧ fl = flagOF + flagNX ∧ match rm with
    | .rne => (topRat f : K) - 2 ^ (f.qmax - 1) ≤ |x|
    | .rz => False
    | .ru => 0 < x ∧ (maxRat f : K) < x
    | .rd => x < 0 ∧ (maxRat f : K) < -x
  | .fin s m e =>
    let v : K := ratOf (.fin s m e)
    s = decide (x < 0) ∧ Nearest f rm x v r ∧ (rm = .rne → |x| < topRat f - 2 ^ (f.qmax - 1)) ∧
    (v = x → fl = 0) ∧
    (v ≠ x → (Tiny f rm x → fl = flagUF + flagNX) ∧ ((topRat f : K) ≤ |x| → fl = flagOF + flagNX) ∧
      (¬ Tiny f rm x → |x| < topRat f → fl = flagNX))

/-- A format's exact nonzero result handed to the rounding once, or an exact zero with its sign (R20, R238). -/
def RoundedOnce (f : Fmt) (rm : Rm) (x : ℚ) (zeroNeg : Bool) (p : Nat × Nat) : Prop :=
  if x = 0 then p = (f.sign zeroNeg, 0)
  else ∃ m e, 0 < m ∧ ratOf (.fin (decide (x < 0)) m e) = x ∧ p = f.round rm (decide (x < 0)) m e false

/-- An infinity added to what is not one, or to its like (R238). -/
def infSum (a b : Fv) : Option Bool :=
  match a, b with
  | .inf s, .inf t => if s = t then some s else none
  | .inf s, .fin .. => some s
  | .fin .., .inf t => some t
  | _, _ => none

/-- What a sum of two values comes to, with flags of its own (R238). -/
def SumSpec (f : Fmt) (rm : Rm) (a b : Fv) (p : Nat × Nat) : Prop :=
  if a.isNan ∨ b.isNan then p = (f.qnan, if a.isSnan ∨ b.isSnan then flagNV else 0)
  else if a.isInf ∨ b.isInf then match infSum a b with
    | some s => p = (f.infBits s, 0)
    | none => p = (f.qnan, flagNV)
  else RoundedOnce f rm (ratOf a + ratOf b) (if a.neg = b.neg then a.neg else rm = .rd) p

/-- What a product of two values comes to (R238). -/
def ProdSpec (f : Fmt) (rm : Rm) (a b : Fv) (p : Nat × Nat) : Prop :=
  if a.isNan ∨ b.isNan then p = (f.qnan, if a.isSnan ∨ b.isSnan then flagNV else 0)
  else if a.isInf ∨ b.isInf then
    if a.isZero ∨ b.isZero then p = (f.qnan, flagNV) else p = (f.infBits (a.neg ^^ b.neg), 0)
  else RoundedOnce f rm (ratOf a * ratOf b) (a.neg ^^ b.neg) p

/-- What a product and a sum with one rounding come to; 0 times infinity is invalid whatever d is (R238). -/
def FmaSpec (f : Fmt) (rm : Rm) (a b d : Fv) (p : Nat × Nat) : Prop :=
  let nv := if a.isSnan ∨ b.isSnan ∨ d.isSnan then flagNV else 0
  if a.isNan ∨ b.isNan then p = (f.qnan, nv)
  else if (a.isInf ∨ b.isInf) ∧ (a.isZero ∨ b.isZero) then p = (f.qnan, flagNV)
  else if d.isNan then p = (f.qnan, nv)
  else if a.isInf ∨ b.isInf then
    if d.isInf ∧ d.neg ≠ (a.neg ^^ b.neg) then p = (f.qnan, flagNV) else p = (f.infBits (a.neg ^^ b.neg), 0)
  else if d.isInf then p = (f.infBits d.neg, 0)
  else RoundedOnce f rm (ratOf a * ratOf b + ratOf d) (if (a.neg ^^ b.neg) = d.neg then d.neg else rm = .rd) p

/-- An integer that a value rounds to (R20, R24). -/
def IntRounds (rm : Rm) (x : ℚ) (n : Int) : Prop :=
  match rm with
  | .rne => |x - n| ≤ 1 / 2 ∧ (|x - n| = 1 / 2 → n % 2 = 0)
  | .rz => |(n : ℚ)| ≤ |x| ∧ |x| < |(n : ℚ)| + 1 ∧ 0 ≤ (n : ℚ) * x
  | .ru => x ≤ n ∧ (n : ℚ) < x + 1
  | .rd => (n : ℚ) ≤ x ∧ x < n + 1

/-- A conversion to an integer range (R24). -/
def CvtIntSpec (rm : Rm) (lo hi : Int) (v : Fv) (p : Int × Nat) : Prop :=
  match v with
  | .nan _ => p = (0, flagNV)
  | .inf s => p = (if s then lo else hi, flagNV)
  | .fin s m e => ∃ n, IntRounds rm (ratOf (.fin s m e)) n ∧
      p = if n < lo then (lo, flagNV) else if hi < n then (hi, flagNV)
        else (n, if (n : ℚ) = ratOf (.fin s m e) then 0 else flagNX)

/-- The class bit of a value of FP32 (R239). -/
def classBit (v : Fv) : Nat :=
  match v with
  | .nan s => if s then 8 else 9
  | .inf s => if s then 0 else 7
  | .fin s m e =>
    if m = 0 then (if s then 3 else 4)
    else if |ratOf (.fin s m e)| < 2 ^ (-126 : Int) then (if s then 2 else 5) else (if s then 1 else 6)

end Sys2Proof.Claims

/-- R234, R235, R240: ICMP, ICMPI, PLOG, PSETV and FCMP write one bit per executing lane; a write of P7 is ignored. -/
def Sys2Proof.Claims.LanePredicatesHold : Prop :=
  ∀ i row, predRow i = some row → ∀ s x, Issues s x → Clear s x row.uses (row.reads x) → Quiet s x row.h.sw →
    ∃ t c' g, exec i s = .next t ∧ Ran s t x c' ∧ Still s t ∧ t.w.flights = s.w.flights ∧
      Keeps x.c c' [] [] [row.d.val] [] ∧ Advanced x c' 4 ∧ FlagsRaised x.c c' (row.on x) g ∧
      (∀ k, k < 32 → (row.nv x.c k → g k = flagNV) ∧ (¬ row.nv x.c k → g k = 0)) ∧
      ∀ k, k < 32 → if row.d.val = 7 then mHas (getP c' 7) k = true
        else if mHas (row.on x) k then (mHas (getP c' row.d.val) k = true ↔ row.res x.c k)
        else mHas (getP c' row.d.val) k = mHas (getP x.c row.d.val) k

/-- R227, R238, R239, R242, R244 to R248: each executing lane of an immediate-class floating-point instruction, a conversion or
RAND writes its result and raises its flags in its owner's slot. -/
def Sys2Proof.Claims.LaneFloatHold : Prop :=
  ∀ i row, fpRow i = some row → ∀ s x, Issues s x → Clear s x row.uses (row.reads x) → Quiet s x row.h.sw →
    ∃ t c', exec i s = .next t ∧ Ran s t x c' ∧ Still s t ∧ t.w.flights = s.w.flights ∧
      Keeps x.c c' [row.d.val] [] [] [] ∧ Advanced x c' 4 ∧
      FlagsRaised x.c c' (row.on x) (fun k => (row.f x.c k).2) ∧
      Wrote x.c c' row.d.val (row.on x) fun k r => r.toNat = (row.f x.c k).1 % 2 ^ 32

/-- R20, R21: an exact value that is not zero, rounded to FP32, FP16, BF16 or E5M2: the nearest value with ties to even, or the
next one toward zero, up or down; overflow and the flags OF, UF and NX. -/
def Obligations.RoundingIsCorrect : Prop :=
  ∀ f, f = fp32 ∨ f = fp16 ∨ f = bf16 ∨ f = e5m2 → ∀ rm neg m e, 0 < m →
    Rounds f rm (ratOf (.fin neg m e)) (f.round rm neg m e false).1 (f.round rm neg m e false).2

/-- R238: sums, differences, products and fused products of FP32 and FP16 are the exact result rounded once, with the special
cases of NaN, infinity and zero. -/
def Sys2Proof.Claims.FloatArithmeticHold : Prop :=
  ∀ f, f = fp32 ∨ f = fp16 → ∀ rm a b d,
    SumSpec f rm (f.decode a) (f.decode b) (f.add rm a b) ∧
    SumSpec f rm (f.decode a) (f.decode b).negate (f.sub rm a b) ∧
    ProdSpec f rm (f.decode a) (f.decode b) (f.mul rm a b) ∧
    FmaSpec f rm (f.decode a) (f.decode b) (f.decode d) (f.fma rm a b d)

/-- R27, R28, R239: the lesser and the greater number, FMAXX and FCLASS. -/
def Obligations.FloatSelection : Prop :=
  (∀ a b, a < 2 ^ 32 → b < 2 ^ 32 →
    let x := fp32.decode a
    let y := fp32.decode b
    let nv := if x.isSnan ∨ y.isSnan then flagNV else 0
    let below := Less x y ∨ (Level x y ∧ x.neg = true ∧ y.neg = false)
    let above := Less y x ∨ (Level x y ∧ y.neg = true ∧ x.neg = false)
    (∀ g, (fp32.minmax g a b).2 = nv) ∧
    (x.isNan ∧ y.isNan → ∀ g, (fp32.minmax g a b).1 = 0x7FC00000) ∧
    (x.isNan ∧ ¬ y.isNan → ∀ g, (fp32.minmax g a b).1 = b) ∧
    (¬ x.isNan ∧ y.isNan → ∀ g, (fp32.minmax g a b).1 = a) ∧
    (below → (fp32.minmax false a b).1 = a ∧ (fp32.minmax true a b).1 = b) ∧
    (above → (fp32.minmax false a b).1 = b ∧ (fp32.minmax true a b).1 = a) ∧
    (¬ x.isNan → ¬ y.isNan → ¬ below → ¬ above →
      ∀ g, (fp32.minmax g a b).1 = a ∨ (fp32.minmax g a b).1 = b)) ∧
  (∀ va ia vb ib,
    let x := fp32.decode va
    let y := fp32.decode vb
    let nv := if x.isSnan ∨ y.isSnan then flagNV else 0
    (x.isNan ∧ y.isNan → fmaxx va ia vb ib = (0x7FC00000, 0xFFFFFFFF, nv)) ∧
    (x.isNan ∧ ¬ y.isNan → fmaxx va ia vb ib = (vb, ib, nv)) ∧
    (¬ x.isNan ∧ y.isNan → fmaxx va ia vb ib = (va, ia, nv)) ∧
    (Less y x → fmaxx va ia vb ib = (va, ia, nv)) ∧
    (Less x y → fmaxx va ia vb ib = (vb, ib, nv)) ∧
    (Level x y → fmaxx va ia vb ib = if ib < ia then (vb, ib, nv) else (va, ia, nv))) ∧
  ∀ a, fclass a = 2 ^ classBit (fp32.decode a)

/-- R24, R244, R245: conversions to integers round, saturate and set NV or NX; conversions from narrow formats are exact. -/
def Sys2Proof.Claims.FloatConversionHold : Prop :=
  (∀ rm lo hi a, CvtIntSpec rm lo hi (fp32.decode a) (cvtInt rm lo hi a)) ∧
  ∀ f, f = fp16 ∨ f = bf16 ∨ f = e5m2 ∨ f = e4m3 → ∀ a,
    match f.decode a with
    | .nan s => fp32.ofFv .rne (f.decode a) = (0x7FC00000, if s then flagNV else 0)
    | .inf s => fp32.ofFv .rne (f.decode a) = (if s then 0xFF800000 else 0x7F800000, 0)
    | .fin s m e => (fp32.ofFv .rne (f.decode a)).2 = 0 ∧
        ratOf (fp32.decode (fp32.ofFv .rne (f.decode a)).1) = ratOf (.fin s m e) ∧
        (fp32.decode (fp32.ofFv .rne (f.decode a)).1).neg = s

namespace Sys2Proof.Claims

open Sys2Proof.Machine

/-- The table T of R31, by index. -/
def tableT (i : Int) : ℚ := if i = 0 then 0x800000 else if i = 1 then 0x9837F0 else if i = 2 then 0xB504F3 else 0xD744FE

/-- The magnitude of L6 code c at 1 to 31 (R29). -/
def l6Mag (c : Nat) : ℚ := 2 ^ (((c : Int) - 16) / 4) * tableT (((c : Int) - 16) % 4) / 2 ^ 23

/-- The rounded magnitude of a value would exceed 448 in E4M3, whose next step would be 480 (R20, R22, R23); `r` is the random word of
the stochastic form. -/
def Exceeds448 (x : ℚ) : Option Rm → Nat → Prop
  | some .rne, _ => 464 < |x|
  | some .rz, _ => 480 ≤ |x|
  | some .ru, _ => 448 < x ∨ x ≤ -480
  | some .rd, _ => 480 ≤ x ∨ x < -448
  | none, r => 480 ≤ |x| ∨ (448 < |x| ∧ r * 32 < (|x| - 448) * 2 ^ 32)

end Sys2Proof.Claims

/-- R29, R31, R32: an L6 code's value, the product of two L6 elements by the table T, and the code to which a value converts under a block
scale, with its flags. -/
def Obligations.L6Elements : Prop :=
  (∀ x, x < 64 → let v := l6Decode x
    (x = 0x20 → v.isNan = true ∧ fp32.ofFv .rne v = (0x7FC00000, 0)) ∧ (x = 0 → IsFin v ∧ ratOf v = 0) ∧
    (x % 32 ≠ 0 → IsFin v ∧ ratOf v = (if 32 ≤ x then -1 else 1) * l6Mag (x % 32) ∧ (fp32.ofFv .rne v).2 = 0 ∧
      ratOf (fp32.decode (fp32.ofFv .rne v).1) = ratOf v)) ∧
  (∀ a b, a < 64 → b < 64 →
    (a = 0x20 ∨ b = 0x20 → (l6Prod a b).isNan = true) ∧
    (a ≠ 0x20 → b ≠ 0x20 → a % 32 = 0 ∨ b % 32 = 0 → IsFin (l6Prod a b) ∧ ratOf (l6Prod a b) = 0) ∧
    (a % 32 ≠ 0 → b % 32 ≠ 0 → let q : Int := ((a % 32 : Nat) : Int) + (b % 32 : Nat) - 32
      IsFin (l6Prod a b) ∧ ratOf (l6Prod a b) = (if (32 ≤ a) = (32 ≤ b) then 1 else -1) * tableT (q % 4) * 2 ^ (q / 4 - 23))) ∧
  ∀ a e, a < 2 ^ 32 → e < 256 →
    match fp32.decode a with
    | .nan s => cvtL6 a e = (0x20, if s then flagNV else 0)
    | .inf s => cvtL6 a e = if e = 0xFF then (0x20, 0) else ((if s then 32 else 0) + 31, flagOF + flagNX)
    | .fin s m x =>
      if e = 0xFF then cvtL6 a e = (0x20, 0)
      else
        let y : ℚ := |ratOf (.fin s m x)| / 2 ^ ((e : Int) - 127)
        ∃ c : Nat, y ^ 8 ≤ 2 ^ (2 * (c : Int) - 31) ∧ (∀ d : Nat, d < c → ¬ y ^ 8 ≤ 2 ^ (2 * (d : Int) - 31)) ∧
          let k := min c 31
          cvtL6 a e = (if k = 0 then 0 else (if s then 32 else 0) + k,
            (if 31 < c then flagOF else 0) + if y = |ratOf (l6Decode k)| then 0 else flagNX)

/-- R23: conversions to E4M3 saturate in every mode, the stochastic one too; a NaN gives 0x7F. Conversions to E5M2 round and overflow as R20
states. -/
def Obligations.NarrowFloats : Prop :=
  (∀ rm s, e4m3.ofFv rm (.inf s) = ((if s then 0x80 else 0) + 0x7E, flagOF + flagNX) ∧ (e4m3.ofFv rm (.nan s)).1 = 0x7F) ∧
  (∀ r s, e4m3.ofFvSr r (.inf s) = ((if s then 0x80 else 0) + 0x7E, flagOF + flagNX) ∧ (e4m3.ofFvSr r (.nan s)).1 = 0x7F) ∧
  (∀ rm s m e, Exceeds448 (ratOf (.fin s m e)) (some rm) 0 →
    e4m3.ofFv rm (.fin s m e) = ((if s then 0x80 else 0) + 0x7E, flagOF + flagNX)) ∧
  (∀ r s m e, r < 2 ^ 32 → Exceeds448 (ratOf (.fin s m e)) none r →
    e4m3.ofFvSr r (.fin s m e) = ((if s then 0x80 else 0) + 0x7E, flagOF + flagNX)) ∧
  ∀ rm s m e, 0 < m → Rounds e5m2 rm (ratOf (.fin s m e)) (e5m2.ofFv rm (.fin s m e)).1 (e5m2.ofFv rm (.fin s m e)).2

namespace Sys2Proof.Claims

open Sys2Proof.Machine

/-! ## Pairs (R233, R243) -/

/-- The number of the pair that starts at a V register, in a lane. -/
def pairAt (c : Course) (r : R64) (k : Nat) : Nat := (vAt c r k).toNat + (laneOf (getV c (r.val + 1)) k).toNat * 2 ^ 32

/-- A lane instruction with a pair destination: the numbers its low and high words must be, and the flags of a lane. -/
structure PairRow where
  h : Hd
  u : Uses
  d : R64
  res : Course → Nat → Nat × Nat
  fl : Course → Nat → Nat

def PairRow.uses (r : PairRow) : Uses := laneUses r.h r.u
def PairRow.on (r : PairRow) (x : Sel) : Mask := lanesOn x.c r.h x.x
def PairRow.reads (r : PairRow) (x : Sel) : Mask := readersAll x.c r.h x.x

/-- LEA and FMAXX. -/
def pairRow : Instr → Option PairRow
  | .lea h d a b m => some ⟨h, { Uses.none with v := [a.val, a.val + 1, b.val], d := [d.val, d.val + 1] }, d,
      fun c k =>
        let sum := (((pairAt c a k : Nat) : Int) + (vAt c b k).toInt * 2 ^ m.val) % 2 ^ 64
        (sum.toNat % 2 ^ 32, sum.toNat / 2 ^ 32), fun _ _ => 0⟩
  | .fmaxx h d a b => some
      ⟨h, { Uses.none with v := [a.val, a.val + 1, b.val, b.val + 1], d := [d.val, d.val + 1] }, d,
      fun c k =>
        let p := fmaxx (vNum c a k) (laneOf (getV c (a.val + 1)) k).toNat (vNum c b k) (laneOf (getV c (b.val + 1)) k).toNat
        (p.1, p.2.1),
      fun c k => (fmaxx (vNum c a k) (laneOf (getV c (a.val + 1)) k).toNat (vNum c b k) (laneOf (getV c (b.val + 1)) k).toNat).2.2⟩
  | _ => none

/-! ## Deferred results (R67, R69, R230, R241, R258 to R261) -/

/-- The partners of lane k (R258). -/
def partnerSet (on : Mask) (c : Course) (k : Nat) : Finset Nat :=
  (Finset.range 32).filter fun j => mHas on j = true ∧ own c j = own c k

/-- The rank of a lane among its owner's lanes (R263). -/
def rank (c : Course) (j : Nat) : Nat := ((ownerSet c j).filter (· < j)).card

/-- Lane j is the one that SHFL names for lane k (R259). -/
def names (o : ShflOp) (c : Course) (k : Nat) (b : R64) (j : Nat) : Prop :=
  j < 32 ∧ match o with
    | .lane => j = vNum c b k
    | .step => (j : Int) = (k : Int) + simm 6 b.val
    | .rank => j ∈ ownerSet c k ∧ rank c j = vNum c b k
    | .flip => j = k ^^^ b.val

/-- VOTE (R260). -/
def voteRel (o : VoteOp) (c : Course) (ps : Finset Nat) (a : R64) (k r : Nat) : Prop :=
  let yes := fun j => vAt c a j ≠ 0
  match o with
  | .any => (r = 0 ∨ r = 1) ∧ (r = 1 ↔ ∃ j ∈ ps, yes j)
  | .all => (r = 0 ∨ r = 1) ∧ (r = 1 ↔ ∀ j ∈ ps, yes j)
  | .mask => ∀ i, r.testBit i = true ↔ i ∈ ps ∧ yes i
  | .maskRank => ∀ i, r.testBit i = true ↔ ∃ j ∈ ps, rank c j = i ∧ yes j
  | .same => (r = 0 ∨ r = 1) ∧ (r = 1 ↔ ∀ j ∈ ps, vAt c a j = vAt c a k)

/-- One number orders below another for FMIN and FMAX: -0 below +0 (R27). -/
def Below (x y : Fv) : Prop := Less x y ∨ (Level x y ∧ x.neg = true ∧ y.neg = false)

/-- The combination of the operands of a set of lanes: result and flags (R261). -/
def redRel (o : RedOp) (m : Rm) (c : Course) (ls : Finset Nat) (a : R64) (p : Nat × Nat) : Prop :=
  let w := vAt c a
  let v := fun j => f32At c a j
  let nv := fun (x : Prop) (n : Nat) => (x → n = flagNV) ∧ (¬ x → n = 0)
  match o with
  | .iadd => p.2 = 0 ∧ p.1 = (∑ j ∈ ls, (w j).toNat) % 2 ^ 32
  | .imin => p.2 = 0 ∧ p.1 < 2 ^ 32 ∧ (∀ j ∈ ls, (BitVec.ofNat 32 p.1).toInt ≤ (w j).toInt) ∧
      (if ls = ∅ then p.1 = 0x7FFFFFFF else ∃ j ∈ ls, p.1 = (w j).toNat)
  | .imax => p.2 = 0 ∧ p.1 < 2 ^ 32 ∧ (∀ j ∈ ls, (w j).toInt ≤ (BitVec.ofNat 32 p.1).toInt) ∧
      (if ls = ∅ then p.1 = 0x80000000 else ∃ j ∈ ls, p.1 = (w j).toNat)
  | .iminU => p.2 = 0 ∧ (∀ j ∈ ls, p.1 ≤ (w j).toNat) ∧ (if ls = ∅ then p.1 = 0xFFFFFFFF else ∃ j ∈ ls, p.1 = (w j).toNat)
  | .imaxU => p.2 = 0 ∧ (∀ j ∈ ls, (w j).toNat ≤ p.1) ∧ (if ls = ∅ then p.1 = 0 else ∃ j ∈ ls, p.1 = (w j).toNat)
  | .and => p.2 = 0 ∧ p.1 < 2 ^ 32 ∧ ∀ i, i < 32 → (p.1.testBit i = true ↔ ∀ j ∈ ls, (w j).getLsbD i = true)
  | .or => p.2 = 0 ∧ p.1 < 2 ^ 32 ∧ ∀ i, i < 32 → (p.1.testBit i = true ↔ ∃ j ∈ ls, (w j).getLsbD i = true)
  | .xor => p.2 = 0 ∧ p.1 < 2 ^ 32 ∧
      ∀ i, i < 32 → (p.1.testBit i = true ↔ (ls.filter fun j => (w j).getLsbD i = true).card % 2 = 1)
  | .fadd =>
    if ∃ j ∈ ls, (v j).isNan = true then p.1 = 0x7FC00000 ∧ nv (∃ j ∈ ls, (v j).isSnan = true) p.2
    else if (∃ j ∈ ls, v j = .inf false) ∧ ∃ j ∈ ls, v j = .inf true then p = (0x7FC00000, flagNV)
    else if ∃ j ∈ ls, v j = .inf false then p = (0x7F800000, 0)
    else if ∃ j ∈ ls, v j = .inf true then p = (0xFF800000, 0)
    else RoundedOnce fp32 m (∑ j ∈ ls, ratOf (v j)) ((∀ j ∈ ls, (v j).isZero = true ∧ (v j).neg = true) ∨ m = .rd) p
  | .fmin => nv (∃ j ∈ ls, (v j).isSnan = true) p.2 ∧
      if ∀ j ∈ ls, (v j).isNan = true then p.1 = 0x7FC00000 else
      ∃ j ∈ ls, (v j).isNan = false ∧ p.1 = (w j).toNat ∧ ∀ i ∈ ls, ¬ Below (v i) (v j)
  | .fmax => nv (∃ j ∈ ls, (v j).isSnan = true) p.2 ∧
      if ∀ j ∈ ls, (v j).isNan = true then p.1 = 0x7FC00000 else
      ∃ j ∈ ls, (v j).isNan = false ∧ p.1 = (w j).toNat ∧ ∀ i ∈ ls, ¬ Below (v j) (v i)

/-- A deferred-class lane instruction of one destination: what its result and flags in an executing lane must satisfy. -/
structure DefRow where
  h : Hd
  u : Uses
  d : R64
  res : Mask → Course → Nat → Nat × Nat → Prop

def DefRow.uses (r : DefRow) : Uses := laneUses r.h r.u
def DefRow.on (r : DefRow) (x : Sel) : Mask := lanesOn x.c r.h x.x
def DefRow.reads (r : DefRow) (x : Sel) : Mask := readersAll x.c r.h x.x

/-- A row of given V sources: one entry of the window. -/
def defV (h : Hd) (d : R64) (v : List Nat) (f : Mask → Course → Nat → Nat × Nat → Prop) : DefRow :=
  ⟨h, { Uses.none with v := v, d := [d.val], entries := 1 }, d, f⟩

/-- As `defV`, of a row that reads the lanes' owners, and their status where it ranks or lists them (R50, R51). -/
def defOwn (h : Hd) (d : R64) (v : List Nat) (status : Bool) (f : Mask → Course → Nat → Nat × Nat → Prop) : DefRow :=
  ⟨h, { Uses.none with v := v, d := [d.val], entries := 1, sect := ownSect status }, d, f⟩

/-- FRCP to EXP2, SHFL, VOTE, REDL and SCANL. -/
def defRow : Instr → Option DefRow
  | .frcp h d a => some (defV h d [a.val] fun _ c k p => p = frcp (vNum c a k))
  | .frsq h d a => some (defV h d [a.val] fun _ c k p => p = frsq (vNum c a k))
  | .fsqrt h d a m => some (defV h d [a.val] fun _ c k p => p = fsqrt m (vNum c a k))
  | .fdiv h d a b m => some (defV h d [a.val, b.val] fun _ c k p => p = fdiv m (vNum c a k) (vNum c b k))
  | .log2 h d a m => some (defV h d [a.val] fun _ c k p => p = flog2 m (vNum c a k))
  | .exp2 h d a m => some (defV h d [a.val] fun _ c k p => p = fexp2 m (vNum c a k))
  | .shfl h d a b o => some (defOwn h d (a.val :: match o with | .lane | .rank => [b.val] | .step | .flip => []) (o = .rank)
      fun on c k p => p.2 = 0 ∧
        ((∃ j ∈ partnerSet on c k, names o c k b j ∧ p.1 = vNum c a j) ∨
          ((∀ j ∈ partnerSet on c k, ¬ names o c k b j) ∧ p.1 = vNum c a k)))
  | .vote h d a o => some (defOwn h d [a.val] (o = .maskRank) fun on c k p => p.2 = 0 ∧ voteRel o c (partnerSet on c k) a k p.1)
  | .redl h d a o m => some (defOwn h d [a.val] false fun on c k p => redRel o m c (partnerSet on c k) a p)
  | .scanl h d a o ex m => some (defOwn h d [a.val] false fun on c k p =>
      redRel o m c ((partnerSet on c k).filter fun j => j < k ∨ (j = k ∧ ex = false)) a p)
  | _ => none

end Sys2Proof.Claims

/-- R233, R243: LEA and FMAXX write the low word to an even register and the high word to the next. -/
def Sys2Proof.Claims.LanePairsHold : Prop :=
  ∀ i row, i.wf = true → pairRow i = some row → ∀ s x, Issues s x → Clear s x row.uses (row.reads x) → Quiet s x row.h.sw →
    ∃ t c', exec i s = .next t ∧ Ran s t x c' ∧ Still s t ∧ t.w.flights = s.w.flights ∧
      Keeps x.c c' [row.d.val, row.d.val + 1] [] [] [] ∧ FlagsRaised x.c c' (row.on x) (row.fl x.c) ∧ Advanced x c' 4 ∧
      Wrote x.c c' row.d.val (row.on x) (fun k r => r.toNat = (row.res x.c k).1 % 2 ^ 32) ∧
      Wrote x.c c' (row.d.val + 1) (row.on x) fun k r => r.toNat = (row.res x.c k).2 % 2 ^ 32

/-- R219, R237: MOVL writes the literal word to the executing lanes and advances past both words. -/
def Sys2Proof.Claims.LaneLiteralHold : Prop :=
  ∀ h d lit s x, Issues s x → Clear s x (laneUses h { Uses.none with d := [(d : R64).val] }) (readersAll x.c h x.x) →
    Quiet s x h.sw →
    ∃ t c', exec (.movl h d lit) s = .next t ∧ Ran s t x c' ∧ Still s t ∧ t.w.flights = s.w.flights ∧
      Keeps x.c c' [d.val] [] [] [] ∧ FlagsKept x.c c' ∧ Advanced x c' 8 ∧
      Wrote x.c c' d.val (lanesOn x.c h x.x) fun _ r => r = lit

/-- R67, R69, R230, R241, R258 to R261: a deferred-class lane instruction that is no switch marker takes one entry of the window
and sends its result, with its flags, under the slot and the generation of its course; a switch marker with nothing else
outstanding lands the result at once. -/
def Sys2Proof.Claims.LaneDeferredHold : Prop :=
  ∀ i row, i.wf = true → defRow i = some row → ∀ s x, Issues s x → Clear s x row.uses (row.reads x) → Quiet s x row.h.sw →
    ∃ t c', ∃ g : Nat → Nat × Nat, exec i s = .next t ∧ Ran s t x c' ∧ Still s t ∧ Advanced x c' 4 ∧
      (∀ k, mHas (row.on x) k = true → row.res (row.on x) x.c k (g k)) ∧
      if row.h.sw then
        Keeps x.c c' [row.d.val] [] [] [] ∧ t.w.flights = s.w.flights ∧ c'.w.used = 0 ∧ c'.w.buf = [] ∧
        FlagsRaised x.c c' (row.on x) (fun k => (g k).2) ∧
        Wrote x.c c' row.d.val (row.on x) fun k r => r.toNat = (g k).1 % 2 ^ 32
      else
        Keeps x.c c' [] [] [] [] ∧ FlagsKept x.c c' ∧ c'.w.used = x.c.w.used + 1 ∧
        if row.on x = 0 then t.w.flights = s.w.flights
        else ∃ f, t.w.flights = s.w.flights ++ [f] ∧ f.cid = x.c.id.cid ∧ f.slot = x.c.k.slot ∧ f.gen = x.c.k.gen ∧
          f.quad = quadOf x.c ∧ f.dest = .v row.d ∧ f.mask = row.on x ∧
          (∀ k, mHas (row.on x) k = true → (laneOf f.val k).toNat = (g k).1 % 2 ^ 32) ∧
          f.flags = (mLanes (row.on x)).map fun k => (own x.c k, (g k).2)

namespace Sys2Proof.Claims

open Sys2Proof.Machine

/-! ## Division, roots, reciprocals, logarithm and power (R25, R26, R241) -/

/-- What FDIV gives (R25, R241). -/
def DivSpec (rm : Rm) (a b : Fv) (p : Nat × Nat) : Prop :=
  let neg := a.neg ^^ b.neg
  if a.isNan ∨ b.isNan then p = (0x7FC00000, if a.isSnan ∨ b.isSnan then flagNV else 0)
  else if (a.isZero ∧ b.isZero) ∨ (a.isInf ∧ b.isInf) then p = (0x7FC00000, flagNV)
  else if a.isInf then p = (fp32.infBits neg, 0)
  else if b.isZero then p = (fp32.infBits neg, flagDZ)
  else if b.isInf ∨ a.isZero then p = (fp32.sign neg, 0)
  else Rounds fp32 rm (ratOf a / ratOf b) p.1 p.2

/-- What FSQRT gives (R25, R241). -/
def SqrtSpec (rm : Rm) (a : Fv) (p : Nat × Nat) : Prop :=
  if a.isNan then p = (0x7FC00000, if a.isSnan then flagNV else 0)
  else if a.isZero then p = (fp32.sign a.neg, 0)
  else if a.neg then p = (0x7FC00000, flagNV)
  else if a.isInf then p = (0x7F800000, 0)
  else Rounds fp32 rm (Real.sqrt (ratOf a : ℝ)) p.1 p.2

/-- A result within one unit in the last place of y: y itself where it is a number of FP32, an infinity where y is beyond the largest,
else one of the two numbers next to y (R26). -/
def WithinUlp (y : ℝ) (p : Nat × Nat) : Prop :=
  let v := fp32.decode p.1
  let num := fun (z : ℝ) => ∃ n, IsFin (fp32.decode n) ∧ (ratOf (fp32.decode n) : ℝ) = z
  (num y → IsFin v ∧ (ratOf v : ℝ) = y ∧ p.2 = 0) ∧
  (¬ num y → (maxRat fp32 : ℝ) < |y| → p = (fp32.infBits (decide (y < 0)), flagOF + flagNX)) ∧
  (¬ num y → |y| ≤ maxRat fp32 → IsFin v ∧ v.neg = decide (y < 0) ∧
    (∀ z, num z → ¬ ((ratOf v : ℝ) < z ∧ z < y) ∧ ¬ (y < z ∧ z < (ratOf v : ℝ))) ∧
    (p.2 = flagNX ∨ (p.2 = flagUF + flagNX ∧ |y| < 2 ^ (-126 : Int))))

/-- What FRCP and FRSQ give (R26, R241). -/
def RcpSpec (a : Fv) (p : Nat × Nat) : Prop :=
  if a.isNan then p = (0x7FC00000, if a.isSnan then flagNV else 0)
  else if a.isZero then p = (fp32.infBits a.neg, flagDZ)
  else if a.isInf then p = (fp32.sign a.neg, 0)
  else WithinUlp (1 / (ratOf a : ℝ)) p
def RsqSpec (a : Fv) (p : Nat × Nat) : Prop :=
  if a.isNan then p = (0x7FC00000, if a.isSnan then flagNV else 0)
  else if a.isZero then p = (fp32.infBits a.neg, flagDZ)
  else if a.neg then p = (0x7FC00000, flagNV)
  else if a.isInf then p = (0, 0)
  else WithinUlp (1 / Real.sqrt (ratOf a : ℝ)) p

/-- An inexact result: a number within 2^-60 of y, y being positive or negative, rounded in the selected mode. -/
def NearlyRounded (rm : Rm) (y : ℝ) (p : Nat × Nat) : Prop :=
  p.2.testBit 0 = true ∧ ∃ z : ℝ, |z - y| ≤ 2 ^ (-60 : Int) * |y| ∧ Rounds fp32 rm z p.1 p.2

/-- What LOG2 gives: exact for powers of two alone (R25, R241). -/
def LogSpec (rm : Rm) (a : Fv) (p : Nat × Nat) : Prop :=
  if a.isNan then p = (0x7FC00000, if a.isSnan then flagNV else 0)
  else if a.isZero then p = (0xFF800000, flagDZ)
  else if a.neg then p = (0x7FC00000, flagNV)
  else if a.isInf then p = (0x7F800000, 0)
  else if ratOf a = 1 then p = (0, 0)
  else
    (∀ k : Int, ratOf a = 2 ^ k → IsFin (fp32.decode p.1) ∧ ratOf (fp32.decode p.1) = k ∧ p.2 = 0) ∧
    ((∀ k : Int, ratOf a ≠ 2 ^ k) → NearlyRounded rm (Real.logb 2 (ratOf a : ℝ)) p)

/-- What EXP2 gives: exact for integer operands whose result is a number of FP32 (R25, R241). -/
def PowSpec (rm : Rm) (a : Fv) (p : Nat × Nat) : Prop :=
  if a.isNan then p = (0x7FC00000, if a.isSnan then flagNV else 0)
  else if a.isInf then p = (if a.neg then 0 else 0x7F800000, 0)
  else if a.isZero then p = (0x3F800000, 0)
  else
    (∀ k : Int, ratOf a = k → -149 ≤ k → k ≤ 127 →
      IsFin (fp32.decode p.1) ∧ ratOf (fp32.decode p.1) = 2 ^ k ∧ p.2 = 0) ∧
    ((∀ k : Int, ratOf a = k → k < -149 ∨ 127 < k) → NearlyRounded rm ((2 : ℝ) ^ (ratOf a : ℝ)) p) ∧
    (128 ≤ ratOf a → p = (if rm = .rne ∨ rm = .ru then 0x7F800000 else 0x7F7FFFFF, flagOF + flagNX))

/-! ## Conversions, scales and random words (R22, R37, R244 to R246, R248) -/

/-- A value rounded to a format with infinities (R19, R20). -/
def OfSpec (f : Fmt) (rm : Rm) (v : Fv) (p : Nat × Nat) : Prop :=
  match v with
  | .nan s => p = (f.qnan, if s then flagNV else 0)
  | .inf s => p = (f.infBits s, 0)
  | .fin s m e => if m = 0 then p = (f.sign s, 0) else Rounds f rm (ratOf (.fin s m e)) p.1 p.2

/-- A value rounded to E4M3, which saturates (R23). -/
def OfE4Spec (rm : Rm) (v : Fv) (p : Nat × Nat) : Prop :=
  match v with
  | .nan s => p = (0x7F, if s then flagNV else 0)
  | .inf s => p = ((if s then 0x80 else 0) + 0x7E, flagOF + flagNX)
  | .fin s m e =>
    let x := ratOf (.fin s m e)
    let r := e4m3.decode p.1
    (Exceeds448 x (some rm) 0 → p = ((if s then 0x80 else 0) + 0x7E, flagOF + flagNX)) ∧
    (¬ Exceeds448 x (some rm) 0 → IsFin r ∧ r.neg = s ∧ Nearest e4m3 rm x (ratOf r) p.1 ∧
      (ratOf r = x → p.2 = 0) ∧ (ratOf r ≠ x → (Tiny e4m3 rm x → p.2 = flagUF + flagNX) ∧ (¬ Tiny e4m3 rm x → p.2 = flagNX)))

/-- A value rounded stochastically with the random word r (R22). -/
def SrSpec (f : Fmt) (r : Nat) (v : Fv) (p : Nat × Nat) : Prop :=
  match v with
  | .nan s => p = (f.qnan, if s then flagNV else 0)
  | .inf s => p = if f.sat then (f.maxBits s, flagOF + flagNX) else (f.infBits s, 0)
  | .fin s m e =>
    let x := |ratOf (.fin s m e)|
    if m = 0 then p = (f.sign s, 0)
    else ∃ q : Int, f.qmin ≤ q ∧ x < 2 ^ (q + f.fb + 1) ∧ (q = f.qmin ∨ 2 ^ (q + f.fb) ≤ x) ∧
      let ulp : ℚ := 2 ^ q
      let low := ⌊x / ulp⌋ * ulp
      let d := x - low
      let mag := if d = 0 then x else if r * ulp < d * 2 ^ 32 then low + ulp else low
      if maxRat f < mag then p = (f.maxBits s, flagOF + flagNX)
      else IsFin (f.decode p.1) ∧ (f.decode p.1).neg = s ∧ |ratOf (f.decode p.1)| = mag ∧
        p.2 = if d = 0 then 0 else if mag < 2 ^ f.emin then flagUF + flagNX else flagNX

/-- A narrow value widened to FP32, which is exact (R244, R245). -/
def WidenSpec (v : Fv) (p : Nat × Nat) : Prop :=
  match v with
  | .nan s => p = (0x7FC00000, if s then flagNV else 0)
  | .inf s => p = (if s then 0xFF800000 else 0x7F800000, 0)
  | .fin s m e => p.2 = 0 ∧ IsFin (fp32.decode p.1) ∧ ratOf (fp32.decode p.1) = ratOf (.fin s m e) ∧ (fp32.decode p.1).neg = s

/-- An integer converted to FP32 (R24). -/
def OfIntSpec (rm : Rm) (n : Int) (p : Nat × Nat) : Prop :=
  if n = 0 then p = (0, 0) else Rounds fp32 rm (n : ℚ) p.1 p.2

/-- CVT (R244): `r` is the word of the destination, which the stochastic forms read. -/
def CvtSpec (o : CvtOp) (m : Rm) (a r : Nat) (p : Nat × Nat) : Prop :=
  let v := fp32.decode a
  let range := fun (lo hi : Int) => ∃ n fl, CvtIntSpec m lo hi v (n, fl) ∧ p = ((BitVec.ofInt 32 n).toNat, fl)
  let half := fun (h : Bool) => a / (if h then 65536 else 1) % 65536
  match o with
  | .i32F32 => range (-2 ^ 31) (2 ^ 31 - 1)
  | .u32F32 => range 0 (2 ^ 32 - 1)
  | .i8F32 => range (-128) 127
  | .intF32 => match v with
    | .nan s => p = (0x7FC00000, if s then flagNV else 0)
    | .inf _ => p = (a, 0)
    | .fin s n e => ∃ i : Int, IntRounds m (ratOf (.fin s n e)) i ∧ IsFin (fp32.decode p.1) ∧ ratOf (fp32.decode p.1) = i ∧
        (fp32.decode p.1).neg = s ∧ p.2 = if (i : ℚ) = ratOf (.fin s n e) then 0 else flagNX
  | .f32I32 => OfIntSpec m (if a < 2 ^ 31 then a else (a : Int) - 2 ^ 32) p
  | .f32U32 => OfIntSpec m a p
  | .f32I8 => let b := a % 256
      WidenSpec (.fin (128 ≤ b) (if b < 128 then b else 256 - b) 0) p
  | .f16F32 => OfSpec fp16 m v p
  | .bf16F32 => OfSpec bf16 m v p
  | .f32F16 h => WidenSpec (fp16.decode (half h)) p
  | .f32BF16 h => WidenSpec (bf16.decode (half h)) p
  | .f32L6 => if a % 64 = 0x20 then p = (0x7FC00000, 0) else WidenSpec (l6Decode (a % 64)) p
  | .f16SR => SrSpec fp16 r v p
  | .bf16SR => SrSpec bf16 r v p

/-- CVTF8 (R245). -/
def Cvt8Spec (o : Cvt8Op) (m : Rm) (a r : Nat) (p : Nat × Nat) : Prop :=
  match o with
  | .narrow false false => OfE4Spec m (fp32.decode a) p
  | .narrow true false => OfSpec e5m2 m (fp32.decode a) p
  | .narrow g true => SrSpec (if g then e5m2 else e4m3) r (fp32.decode a) p
  | .widen g j => WidenSpec ((if g then e5m2 else e4m3).decode (a / 256 ^ j.val % 256)) p

/-- A scale e under which a magnitude fits the target of a form (R246). -/
def fitsUnder (o : SclxOp) (x : ℚ) (e : Nat) : Prop :=
  let y := x / 2 ^ ((e : Int) - 127)
  match o with
  | .e4m3 => y ≤ 448
  | .e5m2 => y ≤ 57344
  | .l6 => y ^ 8 ≤ 2 ^ 31
  | .i8 => y ≤ 127
  | .apply => True

/-- SCLX (R246). -/
def SclxSpec (o : SclxOp) (m : Rm) (a d : Nat) (p : Nat × Nat) : Prop :=
  if o = .apply then
    let e := d % 256
    match fp32.decode a with
    | .nan s => p = (0x7FC00000, if s then flagNV else 0)
    | .inf s => p = if e = 0xFF then (0x7FC00000, 0) else (if s then 0xFF800000 else 0x7F800000, 0)
    | .fin s n x => if e = 0xFF then p = (0x7FC00000, 0)
        else if n = 0 then p = (fp32.sign s, 0) else Rounds fp32 m (ratOf (.fin s n x) * 2 ^ (127 - (e : Int))) p.1 p.2
  else match fp32.decode a with
    | .nan s => p = (0xFF, if s then flagNV else 0)
    | .inf _ => p = (0xFF, 0)
    | .fin s n x => ∃ e, p = (e, 0) ∧ e ≤ 254 ∧ fitsUnder o |ratOf (.fin s n x)| e ∧
        ∀ e', e' < e → ¬ fitsUnder o |ratOf (.fin s n x)| e'

end Sys2Proof.Claims

/-- R25, R26, R241: FDIV and FSQRT are the exact quotient and root rounded once, and FRCP and FRSQ lie within one unit in the last
place of the exact reciprocals, each with its special cases and flags. -/
def Sys2Proof.Claims.QuotientsAndRootsHold : Prop :=
  ∀ rm a b, DivSpec rm (fp32.decode a) (fp32.decode b) (fdiv rm a b) ∧ SqrtSpec rm (fp32.decode a) (fsqrt rm a) ∧
    RcpSpec (fp32.decode a) (frcp a) ∧ RsqSpec (fp32.decode a) (frsq a)

/-- R25, R241: the special cases and the exact results of LOG2 and EXP2; every other result sets NX and is the rounding, in the selected
mode, of a number within a relative distance of 2^-60 of the exact one, which is weaker than the correct rounding that R25 asks for. -/
def Sys2Proof.Claims.LogarithmAndPowerHold : Prop :=
  ∀ rm a, LogSpec rm (fp32.decode a) (flog2 rm a) ∧ PowSpec rm (fp32.decode a) (fexp2 rm a)

/-- R22, R24, R244, R245: every form of CVT and CVTF8, the stochastic ones among them. -/
def Sys2Proof.Claims.ConversionFormsHold : Prop :=
  ∀ m a r, a < 2 ^ 32 → r < 2 ^ 32 →
    (∀ o, CvtSpec o m a r (cvt o m a r)) ∧ ∀ o, Cvt8Spec o m a r (cvtf8 o m a r)

/-- R246: SCLX derives the least scale under which a magnitude fits its target, and applies a scale with one rounding. -/
def Sys2Proof.Claims.BlockScalesHold : Prop := ∀ o m a d, SclxSpec o m a d (sclx o m a d)

/-- R37, R248: RAND's hash of a key and a counter, and the value of its uniform form; the rule's own example. -/
def Sys2Proof.Claims.RandomWordsHold : Prop :=
  (∀ k n : Word,
    let mix := fun (h s f : Nat) => (h ^^^ (h / 2 ^ s)) * f % 2 ^ 32
    let h := mix (mix (k.toNat ^^^ n.toNat) 16 0x7FEB352D) 15 0x846CA68B
    (randHash k n).toNat = h ^^^ (h / 2 ^ 16)) ∧
  (∀ h : Word, IsFin (fp32.decode (randU h)) ∧ ratOf (fp32.decode (randU h)) =
    if h.toNat < 2 ^ 31 then (((h.toNat / 256 : Nat) : ℚ) + 1 / 2) / 2 ^ 24 else ((h.toNat / 256 : Nat) : ℚ) / 2 ^ 24) ∧
  randHash 0 1 = 0x688990C0 ∧ randU 0x688990C0 = 0x3ED11321

/-- Floating-point lane instructions and their exact arithmetic, the claims named here together. -/
def Obligations.LaneFloat : Prop :=
  Sys2Proof.Claims.LaneFloatHold ∧ Sys2Proof.Claims.FloatArithmeticHold ∧ Sys2Proof.Claims.FloatConversionHold ∧ Sys2Proof.Claims.ConversionFormsHold ∧ Sys2Proof.Claims.BlockScalesHold ∧ Sys2Proof.Claims.RandomWordsHold

namespace Sys2Proof.Claims

open Sys2Proof.Machine

/-! ## Memory accesses of lanes (R250 to R257) -/

/-- A global or lane-local memory instruction: its registers, its destinations, its access, the bytes it moves. -/
structure MemRow where
  h : Hd
  u : Uses
  g : Course → GlobalOp

def MemRow.uses (r : MemRow) : Uses := laneUses r.h r.u
def MemRow.on (r : MemRow) (x : Sel) : Mask := lanesOn x.c r.h x.x
def MemRow.reads (r : MemRow) (x : Sel) : Mask := readers x.c r.h x.x

/-- Every executing lane's access lies in its segment, is aligned where the instruction asks for it, translates, and meets no
refusal, poison, muted slice or scrub; the places are those that `ls` gives. No request of the course is about to time out. -/
structure Performs (s : State) (x : Sel) (row : MemRow) (ls : Nat → List (Loc × Nat × Nat)) : Prop where
  seg : ∀ k, mHas (row.on x) k = true → (row.g x.c).seg k = none
  aligned : (row.g x.c).align = true → ∀ k, mHas (row.on x) k = true → (row.g x.c).va k % (row.g x.c).size = 0
  ok : ∀ k, mHas (row.on x) k = true → laneAccess s.env s.w x.c (row.g x.c) k = .ok (ls k)
  tmo : x.c.k.tmo = none

/-- Results of lanes on their way to the registers of a list, low word first, or landed by a switch marker (R67, R252). -/
def Sent (s t : State) (x : Sel) (c' : Course) (sw : Bool) (ds : List Nat) (on : Mask) (val : Nat → Nat) : Prop :=
  if sw then
    Keeps x.c c' ds [] [] [] ∧ FlagsKept x.c c' ∧ c'.w.used = 0 ∧ c'.w.buf = [] ∧ t.w.flights = s.w.flights ∧
    ∀ r i, (r, i) ∈ ds.zipIdx → Wrote x.c c' r on fun k v => v.toNat = val k / 2 ^ (32 * i) % 2 ^ 32
  else
    Keeps x.c c' [] [] [] [] ∧ FlagsKept x.c c' ∧ c'.w.used = x.c.w.used + ds.length ∧
    ∃ fs : List Flight, t.w.flights = s.w.flights ++ fs ∧ fs.length = (if on = 0 then 0 else ds.length) ∧
      ∀ f i, (f, i) ∈ fs.zipIdx → f.cid = x.c.id.cid ∧ f.slot = x.c.k.slot ∧ f.gen = x.c.k.gen ∧ f.quad = quadOf x.c ∧
        f.dest = .v (reg64 (ds.getD i 0)) ∧ f.mask = on ∧ f.flags = [] ∧
        ∀ k, mHas on k = true → (laneOf f.val k).toNat = val k / 2 ^ (32 * i) % 2 ^ 32

/-- The registers that hold n bytes from d on. -/
def regsOf (z : Sz) (d : R64) : List Nat :=
  match z with
  | .b8 => [d.val, d.val + 1]
  | .b1 | .b2 | .b4 => [d.val]

/-- The bytes of a size code. -/
def sizeOf' (z : Sz) : Nat :=
  match z with
  | .b1 => 1
  | .b2 => 2
  | .b4 => 4
  | .b8 => 8

/-- LD, LDACQ and LDL (R253). -/
def loadRow : Instr → Option MemRow
  | .ld h d a z o => some ⟨h, { Uses.none with v := [a.val, a.val + 1], d := regsOf z d, entries := (regsOf z d).length },
      globalOp .read 0 (sizeOf' z) false a ((o.val * sizeOf' z : Nat) : Int)⟩
  | .ldacq h d a z _ => some ⟨h, { Uses.none with v := [a.val, a.val + 1], d := regsOf z d, entries := (regsOf z d).length },
      globalOp .read 0 (sizeOf' z) true a 0⟩
  | .ldl h d a z o => some ⟨h, { Uses.none with v := [a.val], d := regsOf z d, entries := (regsOf z d).length },
      lclOp .read 0 (sizeOf' z) a ((o.val * sizeOf' z : Nat) : Int)⟩
  | _ => none

/-- ST, STREL and STL with the register that holds the data and its size (R253). -/
def storeRow : Instr → Option (MemRow × R64 × Sz)
  | .st h d a z o => some (⟨h, { Uses.none with v := [a.val, a.val + 1] ++ regsOf z d },
      globalOp .write 1 (sizeOf' z) false a ((o.val * sizeOf' z : Nat) : Int)⟩, d, z)
  | .strel h d a z _ => some (⟨h, { Uses.none with v := [a.val, a.val + 1] ++ regsOf z d },
      globalOp .write 1 (sizeOf' z) true a 0⟩, d, z)
  | .stl h d a z o => some (⟨h, { Uses.none with v := a.val :: regsOf z d },
      lclOp .write 1 (sizeOf' z) a ((o.val * sizeOf' z : Nat) : Int)⟩, d, z)
  | _ => none

/-- The data that a lane stores: the low bytes of a register, or a pair. -/
def dataOf (c : Course) (z : Sz) (d : R64) (k : Nat) : Nat := if z = .b8 then pairAt c d k else (vAt c d k).toNat

/-- The blocks of places bear already the encipherment under which a world writes them (R110, R111). -/
def SameTag (w : W) (wd : Nat) (ls : List (Loc × Nat × Nat)) : Prop :=
  ∀ l n i, (∃ va, (l, va, n) ∈ ls) → i < n → match l.add i with
    | .dev sl loc pa => tGet? w.sec.cipher (keyDev sl loc / 16) = tagOf w wd pa
    | _ => True

/-- The blocks of places in context space bear already the encipherment of a world's context key (R57). -/
def SameCtxTag (w : W) (wd : Nat) (ls : List (Loc × Nat × Nat)) : Prop :=
  ∀ l va n i, (l, va, n) ∈ ls → i < n → match l.add i with
    | .dev sl loc _ => tGet? w.sec.cipher (keyDev sl loc / 16) = ctxTag w wd (va + i)
    | _ => True

/-- Byte i of a number, little-endian (R251). -/
def byteOf (v i : Nat) : Byte := BitVec.ofNat 8 (v / 2 ^ (8 * i))

/-- Memory after lanes have stored in ascending order: the last byte stored at an address stands, every other is as before. -/
def Stored (s t : State) (on : Mask) (keys : Nat → List Nat) (v : Nat → Nat) : Prop :=
  (∀ a, (∀ k, mHas on k = true → a ∉ keys k) → t.mem.rd a = s.mem.rd a) ∧
  ∀ k, mHas on k = true → ∀ i, i < (keys k).length →
    (∀ j, i < j → j < (keys k).length → (keys k).getD j 0 ≠ (keys k).getD i 0) →
    (∀ k', k < k' → mHas on k' = true → (keys k).getD i 0 ∉ keys k') →
    t.mem.rd ((keys k).getD i 0) = byteOf (v k) i

/-- Nothing of the device but courses, event counters and poison marks differs. -/
def Stores (s t : State) : Prop :=
  t.w = { s.w with courses := t.w.courses, cores := t.w.cores, poison := t.w.poison }

/-- An atomic operation on global memory (R256): operation, whether it returns, address pair, operand. -/
def atomRow : Instr → Option (Hd × AtOp × Bool × R64 × R64)
  | .atadd h _ r v a b _ => some (h, (match v with | .i32 => .add32 | .f32 => .addF | .i64 => .add64), r, a, b)
  | .atmax h _ r v a b _ => some (h, (match v with
      | .maxS => .maxS | .maxU => .maxU | .maxF => .maxF | .minS => .minS | .minU => .minU | .minF => .minF), r, a, b)
  | .atexch h _ v a b _ => some (h, (match v with | .w32 => .exch32 | .w64 => .exch64), true, a, b)
  | .atcas h _ v a b _ => some (h, (match v with | .w32 => .cas32 | .w64 => .cas64), true, a, b)
  | .atlog h _ r v a b _ => some (h, (match v with | .and => .and | .or => .or | .xor => .xor), r, a, b)
  | _ => none

/-- The row of an atomic as a memory access: the registers of B and those of the old value (R216). -/
def atomMem (h : Hd) (o : AtOp) (ret : Bool) (a b : R64) : MemRow :=
  let d := if ret then (atRegs o b.val).2 else []
  ⟨h, { Uses.none with v := [a.val, a.val + 1] ++ (atRegs o b.val).1, d := d, entries := d.length },
    fun c => { globalOp (if ret then .atom else .red) (if ret then 3 else 4) (atWidth o) true a 0 c with host := atHost o }⟩

/-- Atomics of lanes one after another on a memory, given as a function: the new memory and the old values (R94). -/
def atomSeq (o : AtOp) : List (List Nat × Nat × Nat) → (Nat → Byte) → (Nat → Byte) × List Nat
  | [], m => (m, [])
  | (ks, b, c) :: r, m =>
    let old := leNat (ks.map m)
    let new := atNew o old b c
    let m' := fun a => (ks.findIdx? (· == a)).elim (m a) (byteOf new)
    let p := atomSeq o r m'
    (p.1, old :: p.2)

/-- What an atomic leaves at its location, from the old value, the operand and the new value of a compare-and-swap (R256). -/
def atomTable (o : AtOp) (old b c r : Nat) : Prop :=
  let x : Word := BitVec.ofNat 32 old
  let y : Word := BitVec.ofNat 32 b
  let z : Word := BitVec.ofNat 32 r
  match o with
  | .add32 => r = (old + b) % 2 ^ 32
  | .add64 => r = (old + b) % 2 ^ 64
  | .addF => SumSpec fp32 .rne (fp32.decode old) (fp32.decode b) (r, (fp32.add .rne old b).2)
  | .maxS => maxRel false x y z
  | .maxU => maxRel true x y z
  | .minS => minRel false x y z
  | .minU => minRel true x y z
  | .maxF => r = (fp32.minmax true old b).1
  | .minF => r = (fp32.minmax false old b).1
  | .exch32 | .exch64 => r = b
  | .cas32 | .cas64 => r = if old = b then c else old
  | .and => bitRel (· && ·) x y z
  | .or => bitRel (· || ·) x y z
  | .xor => bitRel (· ^^ ·) x y z

/-! ## Scratch accesses of lanes (R76, R84, R250 to R256) -/

/-- A scratch memory instruction: registers, size, alignment, what it does, a lane's offset. -/
structure ScrRow where
  h : Hd
  u : Uses
  n : Nat
  align : Bool
  rds : Bool
  write : Bool
  atom : Bool
  off : Course → Nat → Nat

def ScrRow.uses (r : ScrRow) : Uses := laneUses r.h r.u
def ScrRow.on (r : ScrRow) (x : Sel) : Mask := lanesOn x.c r.h x.x
def ScrRow.reads (r : ScrRow) (x : Sel) : Mask := readers x.c r.h x.x

/-- Every executing lane's scratch access lies in its segment, is aligned where asked, is in place, races with none on record
and meets no poison or muted core; the places are those that `acc` gives. -/
structure ScrPerforms (s : State) (x : Sel) (row : ScrRow) (kc : Consort) (acc : Nat → Scr) : Prop where
  consort : consort? s.w x.c.id.consort = some kc
  place : ∀ k, mHas (row.on x) k = true → scrAccess s.w x.c kc row.n k (row.off x.c k) = some (acc k)
  aligned : row.align = true → ∀ k, mHas (row.on x) k = true → row.off x.c k % row.n = 0
  here : scrAway s.w x.c.id.consort kc.world ((mLanes (row.on x)).map acc) row.n = none
  free : ∀ k, mHas (row.on x) k = true → (scrWords (acc k) row.n).any (racesWith kc x.c.id.cid row.write row.atom) = false
  ok : ∀ k, mHas (row.on x) k = true → scrResult s.w x.c (acc k) row.n row.rds = .ok []
  tmo : x.c.k.tmo = none

/-- Nothing but courses, event counters, deferred results, poison marks and the consort's race records differs (R84). -/
def ScrStill (s t : State) (kc : Nat) : Prop :=
  t.w = { s.w with
    courses := t.w.courses, cores := t.w.cores, flights := t.w.flights, nextFlight := t.w.nextFlight, poison := t.w.poison,
    consorts := t.w.consorts } ∧
  (∀ n, n ≠ kc → consort? t.w n = consort? s.w n) ∧
  ∀ k, consort? s.w kc = some k → ∃ k', consort? t.w kc = some k' ∧ k' = { k with races := k'.races }

/-- The keys of n bytes from one on. -/
def keysFrom (a n : Nat) : List Nat := (List.range n).map (a + ·)

/-- LDS, STS, ATADDS and ATCASS (R253, R256). -/
def ldsRow (h : Hd) (d a : R64) (z : Sz) (o : R64) : ScrRow :=
  ⟨h, { Uses.none with v := [a.val], d := regsOf z d, entries := (regsOf z d).length }, sizeOf' z, false, true, false, false,
    fun c k => (vNum c a k + o.val * sizeOf' z) % 2 ^ 32⟩
def stsRow (h : Hd) (d a : R64) (z : Sz) (o : R64) : ScrRow :=
  ⟨h, { Uses.none with v := a.val :: regsOf z d }, sizeOf' z, false, false, true, false,
    fun c k => (vNum c a k + o.val * sizeOf' z) % 2 ^ 32⟩
def scrAtomRow : Instr → Option (ScrRow × AtOp × Bool × R64)
  | .atadds h _ r f a b _ => some (⟨h, { Uses.none with
        v := [a.val, b.val], d := if r then [b.val] else [], entries := r.toNat }, 4, true, true, true, true, fun c k => vNum c a k⟩,
      (if f then .addF else .add32), r, b)
  | .atcass h _ a b _ => some (⟨h, { Uses.none with v := [a.val, b.val, b.val + 1], d := [b.val], entries := 1 }, 4, true,
      true, true, true, fun c k => vNum c a k⟩, .cas32, true, b)
  | _ => none

/-! ## Memory itself -/

/-- The memory after a list of writes, by a plain function. -/
def put (m : Nat → Byte) (a : Nat) (bs : List Byte) : Nat → Byte :=
  fun x => if a ≤ x ∧ x < a + bs.length then bs.getD (x - a) 0 else m x

end Sys2Proof.Claims

/-- R250 to R253: LD, LDACQ and LDL read the bytes at each executing lane's places, little-endian, zero-extended, and send them
to the destination or pair. -/
def Sys2Proof.Claims.LaneLoadsHold : Prop :=
  ∀ i row, i.wf = true → loadRow i = some row → ∀ s x ls, Issues s x → Clear s x row.uses (row.reads x) → Quiet s x row.h.sw →
    Performs s x row ls →
    ∃ t c', exec i s = .next t ∧ Ran s t x c' ∧ Still s t ∧ Advanced x c' 4 ∧
      Sent s t x c' row.h.sw row.u.d (row.on x) fun k => leNat (rdPlaces s.env s.w (slotWorld x.c (own x.c k)) (ls k))

/-- R250 to R253: ST, STREL and STL write the low bytes of the data at each executing lane's places, lanes in ascending order,
which is the model's choice (log entry 9), and no other byte, where the places bear the encipherment of the lane's world. -/
def Sys2Proof.Claims.LaneStoresHold : Prop :=
  ∀ i row d z, i.wf = true → storeRow i = some (row, d, z) → ∀ s x ls, Issues s x → Clear s x row.uses (row.reads x) →
    Quiet s x row.h.sw → Performs s x row ls →
    (∀ k, mHas (row.on x) k = true → SameTag s.w (slotWorld x.c (own x.c k)) (ls k)) →
    ∃ t c', exec i s = .next t ∧ Ran s t x c' ∧ Stores s t ∧ Keeps x.c c' [] [] [] [] ∧ FlagsKept x.c c' ∧
      Advanced x c' 4 ∧ Stored s t (row.on x) (fun k => placeKeys (ls k)) (dataOf x.c z d)

/-- R94, R216, R256: an atomic of global memory reads, computes and writes at each executing lane's place, lanes in ascending
order, and its returning form sends the old values; a reduction sends nothing. R271 leaves the order of the lanes open: the ascending one
is the model's choice (log entry 9). Stated for places that bear the encipherment of the lane's world. -/
def Sys2Proof.Claims.GlobalAtomicsHold : Prop :=
  ∀ i h o ret a b, i.wf = true → atomRow i = some (h, o, ret, a, b) → ∀ s x ls, Issues s x →
    Clear s x (atomMem h o ret a b).uses (readers x.c h x.x) → Quiet s x h.sw → Performs s x (atomMem h o ret a b) ls →
    (∀ k, mHas (lanesOn x.c h x.x) k = true → SameTag s.w (slotWorld x.c (own x.c k)) (ls k) ∧
      (placeKeys (ls k)).length = atWidth o ∧ (placeKeys (ls k)).Nodup ∧ placesStop s.w (ls k) = none) →
    let lanes := mLanes (lanesOn x.c h x.x)
    let p := atomSeq o (lanes.map fun k => (placeKeys (ls k), atOperands o x.c b.val k)) s.mem.rd
    ∃ t c', exec i s = .next t ∧ Ran s t x c' ∧ Advanced x c' 4 ∧ (∀ a, t.mem.rd a = p.1 a) ∧
      t.w = { s.w with
        courses := t.w.courses, cores := t.w.cores, flights := t.w.flights, nextFlight := t.w.nextFlight } ∧
      if ret then Sent s t x c' h.sw (atRegs o b.val).2 (lanesOn x.c h x.x) fun k => p.2.getD (lanes.findIdx (· == k)) 0
      else Keeps x.c c' [] [] [] [] ∧ FlagsKept x.c c' ∧ t.w.flights = s.w.flights

/-- R256: what each atomic operation leaves, from operands of its width. -/
def Sys2Proof.Claims.AtomicOperationsHold : Prop :=
  ∀ o old b c, old < 2 ^ (8 * atWidth o) → b < 2 ^ (8 * atWidth o) → c < 2 ^ (8 * atWidth o) →
    atomTable o old b c (atNew o old b c) ∧ atNew o old b c < 2 ^ (8 * atWidth o)

/-- R76, R250 to R253: LDS reads little-endian bytes of scratch at base and offset modulo 2^32 and sends them. -/
def Sys2Proof.Claims.ScratchLoadsHold : Prop :=
  ∀ h d a z o s x kc acc, Instr.wf (.lds h d a z o) = true → Issues s x → Clear s x (ldsRow h d a z o).uses ((ldsRow h d a z o).reads x) →
    Quiet s x h.sw → ScrPerforms s x (ldsRow h d a z o) kc acc →
    ∃ t c', exec (.lds h d a z o) s = .next t ∧ Ran s t x c' ∧ ScrStill s t x.c.id.consort ∧ Advanced x c' 4 ∧
      (∀ b, t.mem.rd b = s.mem.rd b) ∧ t.w.poison = s.w.poison ∧
      Sent s t x c' h.sw (regsOf z d) ((ldsRow h d a z o).on x) fun k =>
        leNat ((keysFrom (acc k).key (sizeOf' z)).map s.mem.rd)

/-- R76, R250 to R253: STS writes the low bytes of its data in scratch, lanes in ascending order, which is the model's choice (log entry
9), and no other byte. -/
def Sys2Proof.Claims.ScratchStoresHold : Prop :=
  ∀ h d a z o s x kc acc, Instr.wf (.sts h d a z o) = true → Issues s x → Clear s x (stsRow h d a z o).uses ((stsRow h d a z o).reads x) →
    Quiet s x h.sw → ScrPerforms s x (stsRow h d a z o) kc acc →
    ∃ t c', exec (.sts h d a z o) s = .next t ∧ Ran s t x c' ∧ ScrStill s t x.c.id.consort ∧ Keeps x.c c' [] [] [] [] ∧
      FlagsKept x.c c' ∧ Advanced x c' 4 ∧ t.w.flights = s.w.flights ∧
      Stored s t ((stsRow h d a z o).on x) (fun k => keysFrom (acc k).key (sizeOf' z)) (dataOf x.c z d)

/-- R76, R216, R256: ATADDS and ATCASS are atomic on scratch, lanes in ascending order, which is the model's choice (log entry 9); the
returning forms send the old value. -/
def Sys2Proof.Claims.ScratchAtomicsHold : Prop :=
  ∀ i row o ret b, i.wf = true → scrAtomRow i = some (row, o, ret, b) → ∀ s x kc acc, Issues s x → Clear s x row.uses (row.reads x) →
    Quiet s x row.h.sw → ScrPerforms s x row kc acc →
    let lanes := mLanes (row.on x)
    let p := atomSeq o (lanes.map fun k => (keysFrom (acc k).key 4, atOperands o x.c b.val k)) s.mem.rd
    ∃ t c', exec i s = .next t ∧ Ran s t x c' ∧ ScrStill s t x.c.id.consort ∧ Advanced x c' 4 ∧
      (∀ a, t.mem.rd a = p.1 a) ∧ t.w.poison = s.w.poison ∧
      if ret then Sent s t x c' row.h.sw [b.val] (row.on x) fun k => p.2.getD (lanes.findIdx (· == k)) 0
      else Keeps x.c c' [] [] [] [] ∧ FlagsKept x.c c' ∧ t.w.flights = s.w.flights

/-- R251, R170: bytes written in a step stand in memory after it, every other byte reads as before, and memory keeps its
canonical form; a number written in n bytes reads back as its low n bytes, little-endian. -/
def Sys2Proof.Claims.MemoryWritesHold : Prop :=
  ∀ s : State, s.Inv → ∀ a (bs : List Byte) n v,
    let t := commit (fun _ w => wrBs w a bs) s
    let t' := commit (fun _ w => wrN w a n v) s
    t.Inv ∧ (∀ x, t.mem.rd x = put s.mem.rd a bs x) ∧ t.w = s.w ∧
    rdN t'.env t'.w a n = v % 2 ^ (8 * n)

/-- Atomics of global memory, the claims named here together. -/
def Obligations.GlobalAtomics : Prop :=
  Sys2Proof.Claims.GlobalAtomicsHold ∧ Sys2Proof.Claims.AtomicOperationsHold ∧ Sys2Proof.Claims.MemoryWritesHold

/-- R77, R79: no two bytes of a core's scratch share bank, entry and place; and with a power-of-two pitch the chunks at one position
of up to 128 consecutive lines lie in different banks when the first line starts within the first pitch of an entry row. -/
def Sys2Proof.Claims.ScratchBanksHold : Prop :=
  (∀ p q, p < 2 ^ 21 → q < 2 ^ 21 → bankOf 128 p = bankOf 128 q → entryRowOf 128 p = entryRowOf 128 q → p % 16 = q % 16 → p = q) ∧
  ∀ p j r r', 4 ≤ j → j ≤ 11 → p % 2048 < 2 ^ j → r < r' → r' < 128 →
    bankOf 128 (p + r * 2 ^ j) ≠ bankOf 128 (p + r' * 2 ^ j)

namespace Sys2Proof.Claims

open Sys2Proof.Machine

/-! ## Lane control (R264 to R269) -/

/-- The lane instructions that only advance: their head and the V registers they name. -/
def advanceRow : Instr → Option (Hd × List Nat)
  | .nop h => some (h, [])
  | .recon h => some (h, [])
  | .spinh h => some (h, [])
  | .pref h a _ _ => some (h, [a.val, a.val + 1])
  | _ => none

/-- The wait counts after an issue: 0 for the free lanes of X, one and some more for the other free lanes (R144, R269). -/
def Waited (x : Sel) (c' : Course) (more : Nat) : Prop :=
  ∀ k, k < 32 → nth c'.k.wait k 0 =
    if mHas x.free k then (if mHas x.x k then 0 else nth x.c.k.wait k 0 + 1 + more) else nth x.c.k.wait k 0

/-- What SPINH adds beyond the usual 1 (R269). -/
def spinMore (i : Instr) (x : Sel) : Nat :=
  match i with
  | .spinh h => if lanesOn x.c h x.x = 0 then 0 else 15
  | _ => 0

/-- A word displaced by a signed field of n bits in units of 4 bytes, modulo 2^32 (R264, R279). -/
def displaced (pc : Word) (n f : Nat) : Word := BitVec.ofInt 32 ((pc.toNat : Int) + 4 * simm n f)

/-- A lane transfer: head, V register read, V register written, target of a lane at a PC. -/
structure JumpRow where
  h : Hd
  v : List Nat
  d : List Nat
  target : Sel → Nat → Word

/-- BRA, BRX, CALL and RET. -/
def jumpRow : Instr → Option JumpRow
  | .bra h o => some ⟨h, [], [], fun x _ => displaced x.pc 20 o.val⟩
  | .brx h a => some ⟨h, [a.val], [], fun x k => vAt x.c a k⟩
  | .call h d o => some ⟨h, [], [d.val], fun x _ => displaced x.pc 14 o.val⟩
  | .ret h a => some ⟨h, [a.val], [], fun x k => vAt x.c a k⟩
  | _ => none

def JumpRow.uses (r : JumpRow) : Uses := laneUses r.h { Uses.none with v := r.v, d := r.d }
def JumpRow.on (r : JumpRow) (x : Sel) : Mask := lanesOn x.c r.h x.x
def JumpRow.reads (r : JumpRow) (x : Sel) : Mask := readers x.c r.h x.x

/-! ## The end of a course (R51, R69, R160) -/

/-- The place of an owner slot's accounting entry, where the course's core reaches its slice (R129, R156, R160). -/
def acctPlace (s : State) (c : Course) (n : Nat) : List (Loc × Nat × Nat) :=
  match ownPlaces s.w (pcnOf s.w c.v.hcore) c.id.part (physPlace s.env s.w c.id.part)
      ((part s.w c.id.part).acctT + 8 * slotAsid c n) 8 with
  | .ok ls => ls
  | .error _ => []

/-- No accounting entry of a course stands in a poisoned sector or in a frame that waits for its scrub (R109, R113). -/
def AcctClean (s : State) (c : Course) : Prop :=
  ∀ n, n < 8 → slotValid c n = true → placesStop s.w (acctPlace s c n) = none ∧ placesScrub s.w (acctPlace s c n) = none

/-- The course of x is gone, its LANECYC added to the accounting entries of its owners: no other course differs, its consort
has one course fewer and is changed by f, and memory differs in those entries alone. -/
structure Ended (s t : State) (x : Sel) (f : Consort → Consort) : Prop where
  gone : course? t.w x.c.id.cid = none
  others : AcctClean s x.c → ∀ n, n ≠ x.c.id.cid → course? t.w n = course? s.w n
  live : ∀ n k, consort? s.w n = some k →
    consort? t.w n = some (if n = x.c.id.consort then { f k with live := k.live - 1 } else k)
  mem : AcctClean s x.c → (∀ n, n < 8 → slotValid x.c n = true → SameTag s.w 0 (acctPlace s x.c n)) →
    ∀ a, (∀ n, n < 8 → slotValid x.c n = true → a ∉ placeKeys (acctPlace s x.c n)) → t.mem.rd a = s.mem.rd a
  charged : AcctClean s x.c → ∀ n, n < 8 → slotValid x.c n = true → (∀ m, m < 8 → slotValid x.c m = true → m = n) →
    SameTag s.w 0 (acctPlace s x.c n) → acctPlace s x.c n ≠ [] → (placeKeys (acctPlace s x.c n)).Nodup →
    leNat ((placeKeys (acctPlace s x.c n)).map t.mem.rd) =
      (leNat ((placeKeys (acctPlace s x.c n)).map s.mem.rd) + slotLanecyc x.c n + mCount (ownedBy x n)) % 2 ^ 64

/-- The lanes of a mask exited, the other lanes' status as before (R51). -/
def Exited (x : Sel) (c' : Course) (on : Mask) : Prop :=
  ∀ k, k < 32 → laneSt c' k = if mHas on k then 3 else laneSt x.c k

/-! ## Taking a fault (R142, R148, R149, R165, R319) -/

/-- An entry of a fault of a course, its ATYPE and SIZE left open (R148). -/
def faultOf (c : Course) (cause slot : Nat) (lanes : Mask) (va pc : Nat) : Entry where
  cause := cause
  merge := 0
  slotf := slot + 16 * c.id.mixed.toNat + 32 * c.id.priv.toNat
  lanes := lanes
  va := va % 2 ^ 64
  asid := slotAsid c slot
  world := slotWorld c slot
  part := c.id.part
  cid := c.id.cid
  pc := pc
  atype := 0
  size := 0

/-- The entries of a fault: in a course of one owner one entry, in a mixed course one for each owner slot with raising lanes. -/
def faultsOf (c : Course) (cause : Nat) (lanes : Mask) (va : Nat → Nat) : List Entry :=
  let one := fun slot (m : Mask) => faultOf c cause slot m (va (mLow m)) (lpc c (mLow m)).toNat
  if c.id.mixed then
    (List.range 8).filterMap fun n =>
      let m := lanes &&& mkMask fun k => own c k == n
      if m = 0 then none else some (one n m)
  else [one (own c (mLow lanes)) lanes]

/-- Nothing holds an instruction back before its own checks: the window has room for its entries, no line that it waits for is
missing, and the cache has room for the lines that it and a marker's results allocate (R62, R65, R67). -/
def Stands (s : State) (x : Sel) (u : Uses) (sw : Bool) : Prop :=
  let vs := u.d ++ markerV s.w x.c sw
  x.c.w.used + u.entries ≤ 16 ∧ missingLine x.c u sw = none ∧
    (newLines x.c vs = 0 ∨ lineCount (setCourse s.w x.c) (quadOf x.c) + newLines x.c vs ≤ 2048)

/-- The 48-bit PC of an issue (R49). -/
def pc48 (x : Sel) : Nat := x.c.id.cbase.toNat + x.pc.toNat

/-- The course table's form: each course stands under its own CID, the CIDs rise. -/
def Keyed (s : State) : Prop := (s.w.courses.map (·.1)).Pairwise (· < ·) ∧ ∀ p ∈ s.w.courses, p.2.id.cid = p.1

/-- Every line that a course has in a register cache lies in the quadrant where it stands: no slice end found some in the quadrant that it
had left (R62, R64). -/
def NearLines (c : Course) : Prop := ∀ p ∈ c.v.lines, p.2.quad = quadOf c

/-- The course of x took a fault with a cause: it stands parked as c stood but for results that return at the park, and waits
for the resolution of one entry each of es, which are pending in its partition's fault queue or held for it; with no line left in another
quadrant its V registers read as before, and other courses differ only where the fault notification woke them. -/
structure FaultParked (s t : State) (x : Sel) (c : Course) (cause : Nat) (es : List Entry) : Prop where
  here : ∃ c', course? t.w x.c.id.cid = some c' ∧ c'.id = x.c.id ∧ c'.k.at_ = .parked ∧ c'.k.cause = cause ∧
    c'.k.await = .faults ∧ (c'.k.join = es.length ∨ (c'.k.bound = true ∧ c'.k.join = es.length + 1)) ∧
    c'.r = { c.r with slots := c'.r.slots } ∧ (NearLines x.c → ∀ r, getV c' r = getV x.c r)
  entries : ∀ y ∈ es, ∃ q, (q ∈ (part t.w x.c.id.part).fq.pending ∨ q ∈ (part t.w x.c.id.part).fq.held) ∧
    { q.e with atype := y.atype, size := y.size } = y ∧ q.who = [.whole x.c.id.cid] ∧ q.served = false
  others : NearLines x.c → ∀ n, n ≠ x.c.id.cid → (∀ q ∈ sleepersOf s.w (part s.w x.c.id.part).disp, q.1.id.cid ≠ n) →
    course? t.w n = course? s.w n

/-- As `FaultParked`, and no consort, launch or operation changed. -/
structure Faulted (s t : State) (x : Sel) (c : Course) (cause : Nat) (es : List Entry) : Prop extends
    FaultParked s t x c cause es where
  rest : t.w.consorts = s.w.consorts ∧ t.w.launches = s.w.launches ∧ t.w.ops = s.w.ops ∧ t.fix = s.fix

end Sys2Proof.Claims

/-- R255, R265, R268, R269: NOP, RECON, PREF and SPINH advance every lane of X and change no other architectural state; SPINH
adds 15 to the wait counts of the other free lanes when some lane executes it. -/
def Sys2Proof.Claims.LaneAdvancesHold : Prop :=
  ∀ i h v, advanceRow i = some (h, v) → ∀ s x, Issues s x →
    Clear s x (laneUses h { Uses.none with v := v }) (if v = [] then readers x.c h x.x else 0) → Quiet s x h.sw →
    ∃ t c', exec i s = .next t ∧ Ran s t x c' ∧ Still s t ∧ t.w.flights = s.w.flights ∧ Keeps x.c c' [] [] [] [] ∧
      FlagsKept x.c c' ∧ Advanced x c' 4 ∧ Waited x c' (spinMore i x)

/-- R49, R264: BRA, BRX, CALL and RET move the executing lanes to their targets and the others of X past the instruction; CALL
writes the return address. A register target must be a multiple of 4. -/
def Sys2Proof.Claims.LaneJumpsHold : Prop :=
  ∀ i row, jumpRow i = some row → ∀ s x, Issues s x → Clear s x row.uses (row.reads x) → Quiet s x row.h.sw →
    (row.v ≠ [] → ∀ k, mHas (row.on x) k = true → (row.target x k).toNat % 4 = 0) →
    ∃ t c', exec i s = .next t ∧ Ran s t x c' ∧ Still s t ∧ t.w.flights = s.w.flights ∧ Keeps x.c c' row.d [] [] [] ∧
      FlagsKept x.c c' ∧ Jumped x c' (row.on x) (row.target x) ∧
      ∀ d ∈ row.d, Wrote x.c c' d (row.on x) fun _ r => r = x.pc + 4

/-- R164, R264: a register target off a multiple of 4 raises MISALIGN for the lanes that hold one, before any lane moves. -/
def Sys2Proof.Claims.LaneJumpMisalignedHold : Prop :=
  ∀ i row, jumpRow i = some row → row.v ≠ [] → ∀ s x, Issues s x → Stands s x row.uses row.h.sw → Keyed s →
    ∀ bad : Mask, (∀ k, k < 32 → mHas bad k = (mHas (row.on x) k && (row.target x k).toNat % 4 != 0)) → bad ≠ 0 →
    ∃ t, exec i s = .next t ∧ Faulted s t x x.c 0x03 (faultsOf x.c 0x03 bad fun k => (row.target x k).toNat)

/-- R51, R266: LEXIT makes the executing lanes exited, at the LEXIT, and advances the others of X; without a live or parked lane
left the course ends. -/
def Sys2Proof.Claims.LaneExitsHold : Prop :=
  ∀ h s x, Issues s x → Clear s x (laneUses h Uses.none) (readers x.c h x.x) → Quiet s x h.sw →
    ((∃ k, k < 32 ∧ (laneSt x.c k = 1 ∨ laneSt x.c k = 2) ∧ mHas (lanesOn x.c h x.x) k = false) →
      ∃ t c', exec (.lexit h) s = .next t ∧ Ran s t x c' ∧ Still s t ∧ t.w.flights = s.w.flights ∧
        Keeps { x.c with r := { x.c.r with status := c'.r.status } } c' [] [] [] [] ∧ FlagsKept x.c c' ∧
        Exited x c' (lanesOn x.c h x.x) ∧
        ∀ k, k < 32 → lpc c' k =
          if mHas x.x k && !mHas (lanesOn x.c h x.x) k then lpc x.c k + 4 else lpc x.c k) ∧
    ((∀ k, k < 32 → laneSt x.c k = 1 ∨ laneSt x.c k = 2 → mHas (lanesOn x.c h x.x) k = true) →
      ∃ t, exec (.lexit h) s = .next t ∧ Ended s t x id)

/-- Lane transfers, exits and advances, the claims named here together. -/
def Obligations.LaneControl : Prop :=
  Sys2Proof.Claims.LaneAdvancesHold ∧ Sys2Proof.Claims.LaneJumpsHold ∧ Sys2Proof.Claims.LaneJumpMisalignedHold ∧ Sys2Proof.Claims.LaneExitsHold

/-- R142, R148, R164, R267: TRAP and BKPT with an executing lane advance every lane of X, park the course with cause 0x08 or 0x09
and leave one entry with the executing lanes, the instruction's PC, ATYPE 0 and the code as SIZE. -/
def Sys2Proof.Claims.LaneTrapsHold : Prop :=
  ∀ i h cause code, (i = .trap h code ∧ cause = 0x08) ∨ (i = .bkpt h code ∧ cause = 0x09) →
    ∀ s x, Issues s x → Clear s x (laneUses h Uses.none) (readers x.c h x.x) → Quiet s x h.sw → Keyed s →
    let on := lanesOn x.c h x.x
    if on = 0 then
      ∃ t c', exec i s = .next t ∧ Ran s t x c' ∧ Still s t ∧ t.w.flights = s.w.flights ∧ Keeps x.c c' [] [] [] [] ∧
        FlagsKept x.c c' ∧ Advanced x c' 4
    else
      ∃ t c q, exec i s = .next t ∧ Faulted s t x c cause [faultOf x.c cause (own x.c (mLow on)) on (pc48 x) x.pc.toNat] ∧
        Advanced x c 4 ∧ c.r = { x.c.r with lpc := c.r.lpc, slots := c.r.slots } ∧
        (q ∈ (part t.w x.c.id.part).fq.pending ∨ q ∈ (part t.w x.c.id.part).fq.held) ∧ q.e.cause = cause ∧
        q.e.cid = x.c.id.cid ∧ q.e.atype = 0 ∧ q.e.size = code.val

namespace Sys2Proof.Claims

open Sys2Proof.Machine

/-! ## Uniform instructions: what the spec's tables say of each (R272 to R283) -/

/-- A uniform instruction of one S destination: head, S sources, Q sources, destination, what its result must satisfy. -/
structure ScalarRow where
  h : Hd
  s : List Nat
  q : List Nat
  d : R64
  res : Course → Word → Prop

def ScalarRow.reads (r : ScalarRow) (c : Course) : Uses := uniReads c r.h { Uses.none with s := r.s, q := r.q }

/-- A row of two S sources. -/
def rowSS (h : Hd) (d a b : R64) (f : Word → Word → Word → Prop) : ScalarRow :=
  ⟨h, [a.val, b.val], [], d, fun c r => f (getS c a.val) (getS c b.val) r⟩

/-- SADD to SMOV, SCSEL, SBFX and SPOPC (R274, R278). -/
def scalarRow : Instr → Option ScalarRow
  | .sadd h d a b m => some (rowSS h d a b (addRel m))
  | .ssub h d a b m => some (rowSS h d a b (subRel m))
  | .smul h d a b m => some (rowSS h d a b (match m with
      | .lo => fun a b r => r.toNat = a.toNat * b.toNat % 2 ^ 32
      | .hi => mulhRel false
      | .hiu => mulhRel true))
  | .sand h d a b => some (rowSS h d a b (bitRel (· && ·)))
  | .sor h d a b => some (rowSS h d a b (bitRel (· || ·)))
  | .sxor h d a b => some (rowSS h d a b (bitRel (· ^^ ·)))
  | .sshl h d a b => some (rowSS h d a b fun a b r => shlRel a r b.toNat)
  | .sshr h d a b => some (rowSS h d a b fun a b r => shrRel a r b.toNat)
  | .ssar h d a b => some (rowSS h d a b fun a b r => sarRel a r b.toNat)
  | .smin h d a b u => some (rowSS h d a b (minRel u))
  | .smax h d a b u => some (rowSS h d a b (maxRel u))
  | .sbfx h d a b s => some (rowSS h d a b (bfxRel s))
  | .spopc h d a b => some (rowSS h d a b fun a b r => r.toNat =
      ((Finset.range 32).filter fun i => a.getLsbD i = true ∧ b.getLsbD i = true).card)
  | .saddi h d a i => some ⟨h, [a.val], [], d, fun c r => (r.toNat : Int) = (((getS c a.val).toNat : Int) + simm 8 i.val) % 2 ^ 32⟩
  | .smovi h d i => some ⟨h, [], [], d, fun _ r => r.toInt = simm 14 i.val⟩
  | .smov h d a => some ⟨h, [a.val], [], d, fun c r => r = getS c a.val⟩
  | .scsel h d a b n => some ⟨h, [a.val, b.val], [n.val], d,
      fun c r => r = if getQ c n.val then getS c a.val else getS c b.val⟩
  | _ => none

/-- A uniform transfer: head, S source, S destination, target (R279). -/
structure UniJumpRow where
  h : Hd
  s : List Nat
  d : List Nat
  target : Sel → Word

def UniJumpRow.uses (r : UniJumpRow) : Uses := uniUses r.h { Uses.none with s := r.s }

/-- UBRA, UCALL, URET and UJMPX. -/
def uniJumpRow : Instr → Option UniJumpRow
  | .ubra h o => some ⟨h, [], [], fun x => displaced x.pc 20 o.val⟩
  | .ucall h d o => some ⟨h, [], [d.val], fun x => displaced x.pc 14 o.val⟩
  | .uret h a => some ⟨h, [a.val], [], fun x => getS x.c a.val⟩
  | .ujmpx h a => some ⟨h, [a.val], [], fun x => getS x.c a.val⟩
  | _ => none

/-- Deferred results of S registers on their way, low word first, or landed by a switch marker (R67). -/
def SentS (s t : State) (x : Sel) (c' : Course) (sw : Bool) (ds : List Nat) (val : Nat) : Prop :=
  if sw then
    Keeps x.c c' [] ds [] [] ∧ FlagsKept x.c c' ∧ c'.w.used = 0 ∧ c'.w.buf = [] ∧ t.w.flights = s.w.flights ∧
    ∀ r i, (r, i) ∈ ds.zipIdx → (getS c' r).toNat = val / 2 ^ (32 * i) % 2 ^ 32
  else
    Keeps x.c c' [] [] [] [] ∧ FlagsKept x.c c' ∧ c'.w.used = x.c.w.used + ds.length ∧
    ∃ fs : List Flight, t.w.flights = s.w.flights ++ fs ∧ fs.length = ds.length ∧
      ∀ f i, (f, i) ∈ fs.zipIdx → f.cid = x.c.id.cid ∧ f.slot = x.c.k.slot ∧ f.gen = x.c.k.gen ∧ f.quad = quadOf x.c ∧
        f.dest = .s (reg64 (ds.getD i 0)) ∧ f.mask = 1 ∧ f.flags = [] ∧
        (laneOf f.val 0).toNat = val / 2 ^ (32 * i) % 2 ^ 32

/-- One uniform access of n bytes at an address under an owner slot translates, meets no refusal, poison, muted slice or scrub,
and goes to the places ls; the request is not about to time out (R272). -/
structure UniPerforms (s : State) (x : Sel) (nd : Need) (n va slot : Nat) (ls : List (Loc × Nat × Nat)) : Prop where
  ok : slotAccess s.env s.w x.c (uniOp nd n va) slot 0 = .ok ls
  tmo : x.c.k.tmo = none

/-- The owner slot of the lowest lane of X (R96). -/
def lowSlot (x : Sel) : Nat := own x.c (mLow x.x)

/-- The address that a uniform access of size z names (R214, R275). -/
def uniAddr (c : Course) (a : R64) (z : Sz) (o : R64) : Nat := (getS2 c a.val + o.val * sizeOf' z) % 2 ^ 64

/-- The lanes of a course that are live or parked name one owner slot (R42). -/
def OneOwner (c : Course) : Prop := manyOwners c = false

/-- The counter that a valid TL handle names: core and number (R48). -/
def tlOf (s : State) (c : Course) (t : Nat) : Tlc :=
  let v := getTL c t
  let kc := (consort? s.w c.id.consort)
  tlc s.w (match kc with | some k => pcnOf s.w (nth k.cores (bvF v 8 2) 0) | none => 0) (bvF v 0 8)

/-- A number has been issued; it is reached (R161). -/
def issuedRel (t : Tlc) (n : Word) : Prop := (t.issued - n).toNat < 2 ^ 31
def reachedRel (t : Tlc) (n : Word) : Prop := issuedRel t n ∧ (t.done - n).toNat < 2 ^ 31

/-- The fields of an owner slot's registers f = 1 to 8: lowest bit and width (R52, R55). -/
def slotField (f : Nat) : Nat × Nat := [(0, 32), (24, 5), (64, 32), (128, 32), (192, 64), (256, 32), (320, 64), (384, 32), (448, 64)].getD f (0, 0)

/-- The numbers that name a system register (R54). -/
def Assigned (n : Nat) : Prop := n ≤ 6 ∨ (0x100 ≤ n ∧ n < 0x180 ∧ n % 16 ≤ 8) ∨ (0x400 ≤ n ∧ n ≤ 0x406) ∨ (0x500 ≤ n ∧ n < 0x548)

/-- A number is an owner-slot register that the course may touch: it is privileged, or all its live and parked lanes name the
slot (R56). -/
def SlotAllowed (c : Course) (n : Nat) : Prop :=
  0x100 ≤ n → n < 0x180 → c.id.priv = true ∨
    ∀ k, k < 32 → laneSt c k = 1 ∨ laneSt c k = 2 → own c k = (n - 0x100) / 16

/-- The value of a system register (R55). -/
def sysReg (s : State) (c : Course) (n : Nat) : Nat :=
  let f := (part s.w c.id.part).fq
  if 0x500 ≤ n then (nth s.w.hub.lpt (n - 0x500) 0).toNat
  else if n = 0x400 then f.base.toNat
  else if n = 0x401 then f.size.toNat
  else if n = 0x402 then f.head.toNat
  else if n = 0x403 then f.tail.toNat
  else if n = 0x404 then s.fix.harv0.toNat
  else if n = 0x405 then s.fix.harv1.toNat
  else if n = 0x406 then s.w.hub.replme.toNat
  else if 0x100 ≤ n then slotF c ((n - 0x100) / 16) (slotField (n % 16)).1 (slotField (n % 16)).2
  else if n = 0 then c.id.cid
  else if n = 1 then c.id.priv.toNat + 2 * c.id.mixed.toNat + 4 * c.v.hquad + 16 * c.k.slot + 512 * c.v.hcore
  else if n = 2 then c.id.cbase.toNat
  else if n = 3 then c.id.frame
  else if n = 4 then c.k.gen
  else if n = 5 then s.w.now - (Sys2Proof.Machine.core s.w (pcnOf s.w c.v.hcore)).cyc0
  else c.id.tlallot.toNat

/-- A 64-bit register with one half replaced (R54). -/
def halved (old : Nat) (hi : Bool) (v : Word) : Nat :=
  if hi then old % 2 ^ 32 + v.toNat * 2 ^ 32 else old % 2 ^ 64 / 2 ^ 32 * 2 ^ 32 + v.toNat

/-- The core that holds a TL handle's counter is in reach of the course's (R129, R184). -/
def CounterNear (s : State) (c : Course) (t : Nat) : Prop := coreAway s.w (pcnOf s.w c.v.hcore) (tlPlace s.w c (getTL c t)).1 = false

/-- A uniform instruction that samples a value: head, uses, destination, the value, when its group 1 check passes, and when what it reads
is in reach. -/
structure ReadRow where
  h : Hd
  u : Uses
  d : Nat
  val : State → Sel → Nat → Prop
  may : Course → Prop
  near : State → Course → Prop

/-- VTOS, TLREAD, ENGST and MFSR (R277, R289, R312). -/
def readRow : Instr → Option ReadRow
  | .vtos h d a l => some ⟨h, { Uses.none with v := [a.val], entries := 1 }, d.val,
      fun _ x r => r = (laneOf (getV x.c a.val) l.val).toNat, OneOwner, fun _ _ => True⟩
  | .tlread h d t => some ⟨h, { Uses.none with entries := 1, sect := [(sectTL, t.val)] }, d.val,
      fun s x r => r = (tlOf s x.c t.val).done.toNat, fun c => (getTL c t.val).getLsbD 10 = true, fun s c => CounterNear s c t.val⟩
  | .engst h d a t => some ⟨h, { Uses.none with s := [a.val], entries := 1, sect := [(sectTL, t.val)] }, d.val,
      fun s x r =>
        let c := tlOf s x.c t.val
        let n := getS x.c a.val
        (¬ issuedRel c n → r = 2) ∧
        (issuedRel c n → n ≠ 0 → (∀ v, (n, v) ∉ c.stat) → r = 2) ∧
        ∀ v, issuedRel c n → (n, v) ∈ c.stat → (∀ v', (n, v') ∈ c.stat → v' = v) → r = v.toNat,
      fun c => (getTL c t.val).getLsbD 10 = true, fun s c => CounterNear s c t.val⟩
  | .mfsr h hi d i => some ⟨h, { Uses.none with entries := 1, sect := srSect i.val }, d.val,
      fun s x r => r = if hi then sysReg s x.c i.val / 2 ^ 32 % 2 ^ 32 else sysReg s x.c i.val % 2 ^ 32,
      fun c => Assigned i.val ∧ SlotAllowed c i.val ∧
        (i.val = 3 ∨ (0x400 ≤ i.val ∧ i.val ≤ 0x403) → c.id.priv = true), fun _ _ => True⟩
  | _ => none

/-- The head of a uniform instruction of one word and the window entries of its destinations (R67). A parking instruction carries an
implicit marker. -/
def uniHead : Instr → Option (Hd × Nat)
  | .sld h d _ z _ => some (h, (regsOf z d).length)
  | .argld h _ _ _ | .vtos h _ _ _ | .tktake h _ _ | .launchq h _ _ | .tlread h _ _ | .engst h _ _ _ => some (h, 1)
  | .yield h | .sleep h _ | .waittl h _ _ | .waittlDl h _ _ _ _ | .bar h _ _ | .bara h _ _ | .bardl h _ _ _ _ | .tkwait h _ _ =>
    some ({ h with sw := true }, 0)
  | .scmp h _ _ _ _ _ | .qlog h _ _ _ _ | .sst h _ _ _ _ | .ubra h _ | .ucall h _ _ | .uret h _ | .ujmpx h _ | .exit h
  | .exitSucc h _ | .tkserve h _ | .dsetD h _ _ | .dsetA h _ _ _ | .dsetTl h _ _ | .mma h _ _ _ _ _ _ | .azero h _ _ _
  | .astp h _ _ _ _ _ | .aldp h _ _ _ _ _ | .arow h _ _ _ _ _ | .scld h _ _ _ _ _ | .copy h _ _ _ _ | .copym h _ _ _ _
  | .copyo h _ _ _ _ | .gather h _ _ _ _ | .coll h _ _ _ | .tlsig h _ _ | .pswz h _ _ _ _ _ _ | .tlbinvPage h _ _
  | .tlbinvAsid h _ | .tlbinvCtx h _ | .ctxfl h _ _ | .haltbHalt h _ _ _ | .haltbRelease h _ _ _ | .engrst h _ _ _
  | .keyopSet h _ _ | .keyopBump h _ _ | .keyopClear h _ _ | .keyopNewkey h _ _ | .svcall h _ _ _ => some (h, 0)
  | _ => none

end Sys2Proof.Claims

/-- R232, R274, R278: a uniform scalar instruction writes S(D) once when its guard is true, and the lanes of X advance. -/
def Sys2Proof.Claims.ScalarResultsHold : Prop :=
  ∀ i row, scalarRow i = some row → ∀ s x, Issues s x → Clear s x (row.reads x.c) x.x → Quiet s x row.h.sw →
    ∃ t c', exec i s = .next t ∧ Ran s t x c' ∧ Still s t ∧ t.w.flights = s.w.flights ∧
      Keeps x.c c' [] (if guardOn x.c row.h then [row.d.val] else []) [] [] ∧ FlagsKept x.c c' ∧ Advanced x c' 4 ∧
      (guardOn x.c row.h = true → row.res x.c (getS c' row.d.val))

/-- R214, R235, R274: SCMP and QLOG write a Q predicate when the guard is true; Q7 keeps reading 1. SMOVL writes its literal and
advances past both words (R219, R272). -/
def Sys2Proof.Claims.ScalarPredicatesAndLiteralHold : Prop :=
  (∀ h p cc a b u s x, cc ≠ .un → Issues s x → Clear s x (uniReads x.c h { Uses.none with s := [(a : R64).val, (b : R64).val] }) x.x →
    Quiet s x h.sw →
    ∃ t c', exec (.scmp h p cc a b u) s = .next t ∧ Ran s t x c' ∧ Still s t ∧ t.w.flights = s.w.flights ∧
      Keeps x.c c' [] [] [] (if guardOn x.c h then [p.val] else []) ∧ FlagsKept x.c c' ∧ Advanced x c' 4 ∧
      (guardOn x.c h = true → (getQ c' p.val = true ↔ p.val = 7 ∨ ccRel cc u (getS x.c a.val) (getS x.c b.val)))) ∧
  (∀ h p o a b s x, Issues s x → Clear s x (uniReads x.c h { Uses.none with q := [(a : R8).val, (b : R8).val] }) x.x →
    Quiet s x h.sw →
    ∃ t c', exec (.qlog h p o a b) s = .next t ∧ Ran s t x c' ∧ Still s t ∧ t.w.flights = s.w.flights ∧
      Keeps x.c c' [] [] [] (if guardOn x.c h then [p.val] else []) ∧ FlagsKept x.c c' ∧ Advanced x c' 4 ∧
      (guardOn x.c h = true → getQ c' p.val = if p.val = 7 then true else logFn o (getQ x.c a.val) (getQ x.c b.val))) ∧
  ∀ h d lit s x, Issues s x → Clear s x (uniUses h Uses.none) x.x → Quiet s x h.sw →
    ∃ t c', exec (.smovl h d lit) s = .next t ∧ Ran s t x c' ∧ Still s t ∧ t.w.flights = s.w.flights ∧
      Keeps x.c c' [] (if guardOn x.c h then [d.val] else []) [] [] ∧ FlagsKept x.c c' ∧ Advanced x c' 8 ∧
      (guardOn x.c h = true → getS c' d.val = lit)

/-- R40, R67, R165, R274: a uniform instruction whose guard is false reads nothing but its guard, advances the lanes of X and takes
the window entries of its destinations; FENCE, guarded on or off, advances the lanes of X; nothing else changes. -/
def Sys2Proof.Claims.UniformSkippedHold : Prop :=
  (∀ i h n, uniHead i = some (h, n) → ∀ s x, Issues s x → Clear s x (uniUses h { Uses.none with entries := n }) x.x →
    Quiet s x h.sw → guardOn x.c h = false →
    ∃ t c', exec i s = .next t ∧ Ran s t x c' ∧ Still s t ∧ t.w.flights = s.w.flights ∧ Keeps x.c c' [] [] [] [] ∧
      FlagsKept x.c c' ∧ Advanced x c' 4 ∧ c'.w.used = if h.sw then 0 else x.c.w.used + n) ∧
  ∀ h sc s x, Issues s x → Clear s x (uniUses h Uses.none) x.x → Quiet s x h.sw →
    ∃ t c', exec (.fence h sc) s = .next t ∧ Ran s t x c' ∧ Still s t ∧ t.w.flights = s.w.flights ∧ Keeps x.c c' [] [] [] [] ∧
      FlagsKept x.c c' ∧ Advanced x c' 4

/-- R279: UBRA, UCALL, URET and UJMPX move every lane of X to the target when the guard is true; UCALL writes the return address. A
register target off a multiple of 4 raises MISALIGN for the lanes of X, before its source's poison is looked at. -/
def Sys2Proof.Claims.UniformJumpsHold : Prop :=
  ∀ i row, uniJumpRow i = some row → ∀ s x, Issues s x → guardOn x.c row.h = true →
    ((row.s = [] ∨ (row.target x).toNat % 4 = 0) → Clear s x row.uses x.x → Quiet s x row.h.sw →
      ∃ t c', exec i s = .next t ∧ Ran s t x c' ∧ Still s t ∧ t.w.flights = s.w.flights ∧ Keeps x.c c' [] row.d [] [] ∧
        FlagsKept x.c c' ∧ Jumped x c' x.x (fun _ => row.target x) ∧ ∀ d ∈ row.d, getS c' d = x.pc + 4) ∧
    (row.s ≠ [] → (row.target x).toNat % 4 ≠ 0 → Stands s x row.uses row.h.sw → Keyed s →
      ∃ t, exec i s = .next t ∧ Faulted s t x x.c 0x03 (faultsOf x.c 0x03 x.x fun _ => (row.target x).toNat))

/-- Uniform scalar instructions and transfers, the claims named here together. -/
def Obligations.Scalars : Prop :=
  Sys2Proof.Claims.ScalarResultsHold ∧ Sys2Proof.Claims.ScalarPredicatesAndLiteralHold ∧ Sys2Proof.Claims.UniformSkippedHold ∧ Sys2Proof.Claims.UniformJumpsHold

/-- R272, R275, R276: SLD and ARGLD read little-endian bytes once for X and send them to S registers; bytes 0 to 7 of slot 0 of a
single launch are the message's payload, and an offset past ARGLIM raises SEGLIM. -/
def Sys2Proof.Claims.UniformLoadsHold : Prop :=
  (∀ h d a z o s x ls, Instr.wf (.sld h d a z o) = true → Issues s x →
    Clear s x (uniUses h { Uses.none with s := [a.val, a.val + 1], entries := (regsOf z d).length }) x.x → Quiet s x h.sw →
    guardOn x.c h = true → OneOwner x.c → UniPerforms s x .read (sizeOf' z) (uniAddr x.c a z o) (lowSlot x) ls →
    ∃ t c', exec (.sld h d a z o) s = .next t ∧ Ran s t x c' ∧ Still s t ∧ Advanced x c' 4 ∧
      SentS s t x c' h.sw (regsOf z d) (leNat (rdPlaces s.env s.w (slotWorld x.c (lowSlot x)) ls))) ∧
  ∀ h d n i s x ls, Issues s x → guardOn x.c h = true →
    (slotArgLim x.c (n : R8).val < 4 * (i : Fin 256).val + 4 → Stands s x { Uses.none with entries := 1 } h.sw → Keyed s →
      ∃ t, exec (.argld h d n i) s = .next t ∧ Faulted s t x x.c 0x04 (faultsOf x.c 0x04 x.x fun _ => 4 * i.val)) ∧
    (4 * i.val + 4 ≤ slotArgLim x.c n.val → Clear s x (uniUses h { Uses.none with entries := 1, sect := slotSects n.val [6, 7] }) x.x → Quiet s x h.sw →
      (∀ p, n.val = 0 → i.val < 2 → x.c.id.payload = some p →
        ∃ t c', exec (.argld h d n i) s = .next t ∧ Ran s t x c' ∧ Still s t ∧ Advanced x c' 4 ∧
          SentS s t x c' h.sw [d.val] (p.toNat / 2 ^ (32 * i.val) % 2 ^ 32)) ∧
      ((n.val ≠ 0 ∨ 2 ≤ i.val ∨ x.c.id.payload = none) →
        UniPerforms s x .read 4 ((slotArgBase x.c n.val + 4 * i.val) % 2 ^ 64) n.val ls →
        ∃ t c', exec (.argld h d n i) s = .next t ∧ Ran s t x c' ∧ Still s t ∧ Advanced x c' 4 ∧
          SentS s t x c' h.sw [d.val] (leNat (rdPlaces s.env s.w (slotWorld x.c n.val) ls))))

/-- R272, R275: SST writes the low bytes of its data, little-endian, and no other byte, where the places bear the encipherment of
the world. -/
def Sys2Proof.Claims.UniformStoresHold : Prop :=
  ∀ h d a z o s x ls, Instr.wf (.sst h d a z o) = true → Issues s x →
    Clear s x (uniUses h { Uses.none with s := [a.val, a.val + 1] ++ regsOf z d }) x.x → Quiet s x h.sw → guardOn x.c h = true →
    OneOwner x.c → UniPerforms s x .write (sizeOf' z) (uniAddr x.c a z o) (lowSlot x) ls →
    SameTag s.w (slotWorld x.c (lowSlot x)) ls → (placeKeys ls).Nodup →
    ∃ t c', exec (.sst h d a z o) s = .next t ∧ Ran s t x c' ∧ Stores s t ∧ t.w.poison = s.w.poison ∧ t.w.flights = s.w.flights ∧
      Keeps x.c c' [] [] [] [] ∧ FlagsKept x.c c' ∧ Advanced x c' 4 ∧
      (∀ b, b ∉ placeKeys ls → t.mem.rd b = s.mem.rd b) ∧
      ∀ i, i < sizeOf' z → t.mem.rd ((placeKeys ls).getD i 0) =
        byteOf (if z = .b8 then getS2 x.c d.val else (getS x.c d.val).toNat) i

/-- R54 to R56, R277, R289, R312: VTOS, TLREAD, ENGST and MFSR sample a value when they issue and send it to an S register, the counter's
core in reach (R129). That CYC counts the model's ticks is the model's choice (log entry 47), and so is what MFSR of LANECYC sees of its
own issue (log entry 46). -/
def Sys2Proof.Claims.UniformReadsHold : Prop :=
  ∀ i row, readRow i = some row → ∀ s x, Issues s x → Clear s x (uniUses row.h row.u) x.x → Quiet s x row.h.sw →
    guardOn x.c row.h = true → row.may x.c → row.near s x.c →
    ∃ t c' r, exec i s = .next t ∧ Ran s t x c' ∧ Still s t ∧ Advanced x c' 4 ∧ row.val s x r ∧
      SentS s t x c' row.h.sw [row.d] r

/-- R2, R52, R54 to R56, R289: MTSR replaces one half of a writable owner-slot field, keeps every other bit of the slots but
LANECYC, and a write to a read-only register changes nothing. -/
def Sys2Proof.Claims.SystemRegisterWritesHold : Prop :=
  ∀ h hi a i s x, Issues s x → Clear s x (uniUses h { Uses.none with s := [(a : Fin 32).val] }) x.x → Quiet s x h.sw →
    guardOn x.c h = true → Assigned (i : Fin 16384).val → SlotAllowed x.c i.val → ¬ (0x400 ≤ i.val ∧ i.val ≤ 0x402) →
    (0x100 ≤ i.val → i.val < 0x180 → 2 ≤ i.val % 16 → i.val % 16 ≤ 7 → x.c.id.priv = true) →
    let n := (i.val - 0x100) / 16
    let f := slotField (i.val % 16)
    let writes := 0x100 ≤ i.val ∧ i.val < 0x180 ∧ 1 ≤ i.val % 16 ∧ i.val % 16 ≤ 7
    ∃ t c', exec (.mtsr h hi a i) s = .next t ∧ Ran s t x c' ∧ Still s t ∧ t.w.flights = s.w.flights ∧ Advanced x c' 4 ∧
      Keeps { x.c with r := { x.c.r with slots := c'.r.slots } } c' [] [] [] [] ∧
      ∀ m, m < 8 → ∀ j, j < 448 → (slotBits c' m).getLsbD j =
        if writes ∧ m = n ∧ f.1 ≤ j ∧ j < f.1 + f.2 then
          (halved (slotF x.c n f.1 f.2) hi (getS x.c a.val)).testBit (j - f.1)
        else (slotBits x.c m).getLsbD j

/-- Reads and writes of system registers, the claims named here together. -/
def Obligations.SystemRegisters : Prop :=
  Sys2Proof.Claims.UniformReadsHold ∧ Sys2Proof.Claims.SystemRegisterWritesHold

/-- A value may stand in FQHEAD: an index of the ring that the head reaches without passing the tail (R150). -/
def Sys2Proof.Claims.HeadOk (f : Fq) (v : Nat) : Prop :=
  v < f.size.toNat ∧
    (v + f.size.toNat - f.head.toNat) % f.size.toNat ≤ (f.tail.toNat + f.size.toNat - f.head.toNat) % f.size.toNat

/-- R56, R150, R165, R225: an unassigned system register raises ILLOP, an MTSR of FQHEAD with a value that may not stand there ILLOP
in every course, a privileged register PRIVOP in an unprivileged course, an owner-slot register of another owner MIXUNI; the lanes
of X raise it and no lane advances. -/
def Sys2Proof.Claims.SystemRegisterTrapsHold : Prop :=
  ∀ h hi a i s x, Issues s x → Keyed s → x.c.w.used + 1 ≤ 16 → guardOn x.c h = true →
    let n := (i : Fin 16384).val
    let f := (part s.w x.c.id.part).fq
    let fault := fun (j : Instr) cause => ∃ t, exec j s = .next t ∧ Faulted s t x x.c cause (faultsOf x.c cause x.x fun _ => pc48 x)
    (¬ Assigned n → fault (.mfsr h hi a i) 0x01 ∧ fault (.mtsr h hi a i) 0x01) ∧
    (x.c.id.priv = false → (n = 3 ∨ (0x400 ≤ n ∧ n ≤ 0x403) → fault (.mfsr h hi a i) 0x02) ∧
      (0x400 ≤ n ∧ n ≤ 0x402 → (n = 0x402 → HeadOk f (halved f.head.toNat hi (getS x.c a.val))) → fault (.mtsr h hi a i) 0x02)) ∧
    (n = 0x402 → ¬ HeadOk f (halved f.head.toNat hi (getS x.c a.val)) → fault (.mtsr h hi a i) 0x01) ∧
    (Assigned n → ¬ SlotAllowed x.c n → fault (.mfsr h hi a i) 0x05 ∧ fault (.mtsr h hi a i) 0x05) ∧
    (Assigned n → SlotAllowed x.c n → x.c.id.priv = false → 0x100 ≤ n → n < 0x180 → 2 ≤ n % 16 → n % 16 ≤ 7 →
      fault (.mtsr h hi a i) 0x02)

namespace Sys2Proof.Claims

open Sys2Proof.Machine

/-! ## Where instructions stop (R40, R65, R67, R102, R164, R165, R168) -/

/-- LD to ATLOG on global and lane-local memory. -/
def memRow (i : Instr) : Option MemRow :=
  ((loadRow i).or ((storeRow i).map (·.1))).or ((atomRow i).map fun (h, o, ret, a, b) => atomMem h o ret a b)

/-- LDS, STS, ATADDS and ATCASS. -/
def scrRow : Instr → Option ScrRow
  | .lds h d a z o => some (ldsRow h d a z o)
  | .sts h d a z o => some (stsRow h d a z o)
  | i => (scrAtomRow i).map (·.1)

/-- The access type of a scratch access (R102). -/
def ScrRow.atype (r : ScrRow) : Nat := if r.atom then (if r.u.d = [] then 4 else 3) else if r.write then 1 else 0

/-- A fault whose entries bear an access type and a size (R102, R148). -/
structure Accessed (s t : State) (x : Sel) (c : Course) (cause : Nat) (es : List Entry) (atype size : Nat) : Prop where
  parked : FaultParked s t x c cause es
  access : ∀ y ∈ es, ∃ q, (q ∈ (part t.w x.c.id.part).fq.pending ∨ q ∈ (part t.w x.c.id.part).fq.held) ∧
    q.e = { y with atype := atype, size := size }

/-- A course's entry that may have merged: one pending or held that bears the cause, the ASID and the page, and that the waiter
waits for (R149). -/
def HasEntry (t : State) (p cause asid va : Nat) (who : Waiter → Prop) : Prop :=
  ∃ q, (q ∈ (part t.w p).fq.pending ∨ q ∈ (part t.w p).fq.held) ∧ q.served = false ∧ q.e.cause = cause ∧ q.e.asid = asid ∧
    q.e.va / 4096 = va % 2 ^ 64 / 4096 ∧ ∃ y ∈ q.who, who y

/-- The number of a poisoned unit that an instruction reads (R40, R164). -/
def PoisonedAs (c : Course) (u : Uses) (r : Nat) : Prop :=
  (r ∈ u.v ∧ poisV c r = true) ∨ (r ∈ u.s ∧ poisSect c (sectS r) = true) ∨ (r ∈ u.p ∧ r ≠ 7 ∧ poisSect c sectP = true) ∨
  (r ∈ u.q ∧ r ≠ 7 ∧ poisSect c sectQ = true) ∨ ∃ x ∈ u.sect, x.2 = r ∧ poisSect c x.1 = true

/-- No source of an instruction that lanes consume is poisoned. -/
def CleanFor (c : Course) (u : Uses) (reads : Mask) : Prop := reads = 0 ∨ poisonedUnit c u = none

/-- An access ends at its performance with POISON, MUTED or TIMEOUT: so the place answers, or its reply is lost (R129, R168,
R170). -/
def Ends (c : Course) (r : LaneRes) (k : Nat) (va : Nat) (y : Nat × Nat) : Prop :=
  (y.1 = 0x20 ∨ y.1 = 0x21 ∨ y.1 = 0x22) ∧
  (r = .stop y.1 y.2 ∨ ∃ m b ls, c.k.tmo = some (m, b) ∧ mHas m k = true ∧ r = .ok ls ∧ y = (0x22, va))

/-- An access is performed and its reply comes. -/
def Answers (c : Course) (r : LaneRes) (k : Nat) : Prop :=
  (∃ ls, r = .ok ls) ∧ ∀ m b, c.k.tmo = some (m, b) → mHas m k = false

/-- The entries of lanes that stopped: for each cause met, by owner slot in a mixed course (R165, R319). -/
def stopsOf' (c : Course) (on : Mask) (st : Nat → Option (Nat × Nat)) : List Entry :=
  [0x20, 0x21, 0x22].flatMap fun cause =>
    let m := on &&& mkMask fun k => (st k).any fun y => y.1 == cause
    if m = 0 then [] else faultsOf c cause m fun k => ((st k).map (·.2)).getD 0

/-- The outcome of an instruction some of whose lanes stopped: they stand at it, the other lanes of X are past it, and the course is
parked with the lowest cause and an entry for each cause and owner slot (R165). -/
def StoppedAt (s t : State) (x : Sel) (on : Mask) (st : Nat → Option (Nat × Nat)) (atype size : Nat) : Prop :=
  ∃ c cause, Accessed s t x c cause (stopsOf' x.c on st) atype size ∧ (∀ y ∈ stopsOf' x.c on st, cause ≤ y.cause) ∧
    (∃ y ∈ stopsOf' x.c on st, y.cause = cause) ∧ c.r = { x.c.r with lpc := c.r.lpc, slots := c.r.slots } ∧
    ∀ k, k < 32 → lpc c k = if mHas x.x k && !(mHas on k && (st k).isSome) then lpc x.c k + 4 else lpc x.c k

/-- The course stands parked for POISON of its sources: the lanes that consume them at the instruction, the other lanes of X past
it (R40, R165, R250). -/
def Consumed (s t : State) (x : Sel) (u : Uses) (reads : Mask) : Prop :=
  ∃ c r, PoisonedAs x.c u r ∧ FaultParked s t x c 0x20 (faultsOf x.c 0x20 reads fun _ => r) ∧
    c.r = { x.c.r with lpc := c.r.lpc, slots := c.r.slots } ∧
    ∀ k, k < 32 → lpc c k = if mHas x.x k && !mHas reads k then lpc x.c k + 4 else lpc x.c k

/-- Nothing but one course differs: it stalls. -/
def StallsOn (s t : State) (x : Sel) (y : Stall) : Prop :=
  (∀ a, t.mem.rd a = s.mem.rd a) ∧ t.w = { s.w with courses := t.w.courses } ∧
  (∀ m, m ≠ x.c.id.cid → course? t.w m = course? s.w m) ∧
  course? t.w x.c.id.cid = some { x.c with k := { x.c.k with stall := some y } }

/-- An instruction that names V lines stalls on one of them that must be filled (R65). -/
def StallsOnMiss (i : Instr) (h : Hd) (u : Uses) : Prop :=
  i.wf = true → ∀ s x, Issues s x → x.c.w.used + u.entries ≤ 16 → (∃ r ∈ u.v ++ u.d, missV x.c r = true) →
    ∃ t r, exec i s = .next t ∧ missV x.c (Fin.val r) = true ∧ (r.val ∈ u.v ++ u.d ∨ (h.sw = true ∧ r.val ∈ bufV x.c)) ∧
      StallsOn s t x (.fill r)

/-- An instruction that reads a poisoned unit raises POISON for the lanes that consume it, and no lane advances (R40, R164,
R165). -/
def StopsOnPoison (i : Instr) (h : Hd) (u : Sel → Uses) (reads : Sel → Mask) (pre : State → Sel → Prop) : Prop :=
  i.wf = true → ∀ s x, Issues s x → Keyed s → Stands s x (u x) h.sw → pre s x → reads x ≠ 0 → poisonedUnit x.c (u x) ≠ none →
    x.c.id.cid ≠ 2 ^ 32 - 1 →
    ∃ t r, exec i s = .next t ∧ PoisonedAs x.c (u x) r ∧ Faulted s t x x.c 0x20 (faultsOf x.c 0x20 (reads x) fun _ => r)

/-- A uniform access: head, registers, permission, bytes, address, owner slot, and when it is reached (R272, R275, R276, R281, R288,
R295). -/
structure UniRow where
  h : Hd
  u : Uses
  nd : Need
  n : Nat
  va : Course → Nat
  slot : Sel → Nat
  may : Course → Prop

/-- SLD, SST, ARGLD, EXIT.SUCC, LAUNCHQ and KEYOP. -/
def uniRow : Instr → Option UniRow
  | .sld h d a z o => some ⟨h, { Uses.none with s := [a.val, a.val + 1], entries := (regsOf z d).length }, .read, sizeOf' z,
      fun c => uniAddr c a z o, lowSlot, OneOwner⟩
  | .sst h d a z o => some ⟨h, { Uses.none with s := [a.val, a.val + 1] ++ regsOf z d }, .write, sizeOf' z,
      fun c => uniAddr c a z o, lowSlot, OneOwner⟩
  | .argld h _ n i => some ⟨h, { Uses.none with entries := 1, sect := slotSects n.val [6, 7] }, .read, 4, fun c => (slotArgBase c n.val + 4 * i.val) % 2 ^ 64,
      fun _ => n.val, fun c => 4 * i.val + 4 ≤ slotArgLim c n.val ∧ (n.val ≠ 0 ∨ 2 ≤ i.val ∨ c.id.payload = none)⟩
  | .exitSucc h a => some ⟨h, { Uses.none with s := [a.val, a.val + 1] }, .read, 128, fun c => getS2 c a.val, lowSlot,
      fun c => c.id.j = 0 ∧ OneOwner c⟩
  | .launchq h _ a => some ⟨h, { Uses.none with s := [a.val, a.val + 1], entries := 1 }, .read, 128, fun c => getS2 c a.val, lowSlot,
      fun c => getS2 c a.val % 128 = 0 ∧ OneOwner c⟩
  | .keyopSet h _ a | .keyopBump h _ a | .keyopClear h _ a | .keyopNewkey h _ a =>
    some ⟨h, { Uses.none with s := [a.val, a.val + 1] }, .read, 64, fun c => getS2 c a.val, lowSlot,
      fun c => c.id.priv = true ∧ OneOwner c⟩
  | _ => none

/-- The uniform instructions that a mixed course may not issue: head, window entries, and whether it is for privileged courses
(R42). -/
def mixRow : Instr → Option (Hd × Nat × Bool)
  | .sld h d _ z _ => some (h, (regsOf z d).length, false)
  | .sst h _ _ _ _ => some (h, 0, false)
  | .vtos h _ _ _ | .launchq h _ _ => some (h, 1, false)
  | .keyopSet h _ _ | .keyopBump h _ _ | .keyopClear h _ _ | .keyopNewkey h _ _ => some (h, 0, true)
  | _ => none

/-- The window entries of the instructions that take some (R67, R220). -/
def entriesOf (i : Instr) : Option Nat :=
  match i, defRow i, memRow i, scrRow i with
  | .mfsr _ _ _ _, _, _, _ => some 1
  | _, some r, _, _ => some r.u.entries
  | _, _, some r, _ => some r.u.entries
  | _, _, _, some r => some r.u.entries
  | i, _, _, _ => (uniHead i).map (·.2)

/-- Results of a course in issue order: those buffered and those outstanding (R40, R67). -/
structure InOrder (s : State) (c : Course) (l : List Flight) : Prop where
  all : ∀ f, f ∈ l ↔ f ∈ c.w.buf ∨ (f ∈ s.w.flights ∧ sameTag c f = true)
  order : l.Pairwise fun f g => f.n < g.n
  buf : c.w.buf.Pairwise fun f g => f.n < g.n
  nodup : s.w.flights.Nodup ∧ ∀ f ∈ c.w.buf, f ∉ s.w.flights

/-- The last of a list's results that writes a V register in a lane; that writes an S register. -/
def lastV (l : List Flight) (r k : Nat) : Option Flight :=
  l.reverse.find? fun f => (match f.dest with | .v x => x.val == r | .s _ => false) && mHas f.mask k
def lastS (l : List Flight) (r : Nat) : Option Flight :=
  l.reverse.find? fun f => (match f.dest with | .s x => x.val == r | .v _ => false) && f.mask != 0

end Sys2Proof.Claims

/-- R102, R129, R164, R165, R168, R250: where a lane access of global or lane-local memory traps: SEGLIM before MISALIGN, over all
executing lanes, with no lane past the instruction; then POISON of a source for the lanes that consume it; then, without a switch
marker, POISON, MUTED and TIMEOUT for the lanes that meet them, the others done and past it. -/
def Sys2Proof.Claims.MemoryTrapsHold : Prop :=
  ∀ i row, i.wf = true → memRow i = some row → ∀ s x, Issues s x → Keyed s → Stands s x row.uses row.h.sw →
    x.c.id.cid ≠ 2 ^ 32 - 1 →
    let g := row.g x.c
    let seg := fun k => mHas (row.on x) k && (g.seg k).isSome
    let mis := fun k => mHas (row.on x) k && (g.align && g.va k % g.size != 0)
    (∀ bad : Mask, bad ≠ 0 → (∀ k, k < 32 → mHas bad k = seg k) →
      ∃ t, exec i s = .next t ∧ Accessed s t x x.c 0x04 (faultsOf x.c 0x04 bad fun k => (g.seg k).getD 0) g.atype g.size) ∧
    ((∀ k, k < 32 → seg k = false) →
      (∀ bad : Mask, bad ≠ 0 → (∀ k, k < 32 → mHas bad k = mis k) →
        ∃ t, exec i s = .next t ∧ Accessed s t x x.c 0x03 (faultsOf x.c 0x03 bad g.va) g.atype g.size) ∧
      ((∀ k, k < 32 → mis k = false) →
        (row.reads x ≠ 0 → poisonedUnit x.c row.uses ≠ none → Quiet s x row.h.sw →
          (∀ k, k < 32 → mHas (row.on x) k = true → ∀ y, laneAccess s.env s.w x.c g k ≠ .stall y ∧
            ∀ a b m, laneAccess s.env s.w x.c g k ≠ .split a b m) →
          ∃ t, exec i s = .next t ∧ Consumed s t x row.uses (row.reads x)) ∧
        ∀ st : Nat → Option (Nat × Nat), CleanFor x.c row.uses (row.reads x) → row.h.sw = false →
          (∃ k, k < 32 ∧ mHas (row.on x) k = true ∧ st k ≠ none) →
          (∀ k, k < 32 → mHas (row.on x) k = true → match st k with
            | some y => Ends x.c (laneAccess s.env s.w x.c g k) k (g.va k) y
            | none => Answers x.c (laneAccess s.env s.w x.c g k) k) →
          ∃ t, exec i s = .next t ∧ StoppedAt s t x (row.on x) st g.atype g.size))

/-- R51, R101, R102, R149, R250: the lanes whose access does not translate split off: they are parked at the instruction, their
destinations unwritten, and each waits for an entry with its cause, ASID and page; the other lanes perform their accesses and go on,
and the course stays in its slot. -/
def Sys2Proof.Claims.LaneSplitsHold : Prop :=
  ∀ i row, i.wf = true → memRow i = some row → ∀ s x, Issues s x → Keyed s → Clear s x row.uses (row.reads x) →
    Quiet s x row.h.sw → x.c.k.tmo = none →
    let g := row.g x.c
    (∀ k, k < 32 → mHas (row.on x) k = true → g.seg k = none ∧ (g.align = true → g.va k % g.size = 0)) →
    ∀ (sp : Nat → Option (Nat × Nat)) (ls : Nat → List (Loc × Nat × Nat)) (away : Mask),
      (∀ k, k < 32 → mHas (row.on x) k = true → match sp k with
        | some y => ∃ m, laneAccess s.env s.w x.c g k = .split y.1 y.2 m
        | none => laneAccess s.env s.w x.c g k = .ok (ls k)) →
      (∀ k, k < 32 → mHas away k = (mHas (row.on x) k && (sp k).isSome)) → away ≠ 0 →
      ∃ t c', exec i s = .next t ∧ course? t.w x.c.id.cid = some c' ∧ c'.id = x.c.id ∧ c'.k.at_ = x.c.k.at_ ∧
        (∀ k, k < 32 → laneSt c' k = if mHas away k then 2 else laneSt x.c k) ∧
        (∀ k, k < 32 → lpc c' k = if mHas x.x k && !mHas away k then lpc x.c k + 4 else lpc x.c k) ∧
        (∀ y : Sel, y = { x with c := { x.c with r := { x.c.r with status := c'.r.status } } } →
          (row.u.d = [] → Keeps y.c c' [] [] [] [] ∧ FlagsKept y.c c') ∧
          (loadRow i ≠ none → Sent s t y c' row.h.sw row.u.d (row.on x &&& ~~~away) fun k =>
            leNat (rdPlaces s.env s.w (slotWorld x.c (own x.c k)) (ls k)))) ∧
        ∀ k, k < 32 → mHas away k = true → ∀ cause va, sp k = some (cause, va) →
          HasEntry t x.c.id.part cause (slotAsid x.c (own x.c k)) va fun y =>
            ∃ m, y = .split x.c.id.cid m ∧ mHas m k = true

/-- Lane loads and stores of global memory, the claims named here together. -/
def Obligations.LaneMemory : Prop :=
  Sys2Proof.Claims.LaneLoadsHold ∧ Sys2Proof.Claims.LaneStoresHold ∧ Sys2Proof.Claims.MemoryTrapsHold ∧ Sys2Proof.Claims.LaneSplitsHold

/-- R76, R81, R84, R129, R164, R165, R168: where a scratch access traps: SEGLIM, MISALIGN, POISON of a source, RACE for the lanes that
conflict with an access on record, and, without a switch marker, MUTED, POISON and TIMEOUT for the lanes that meet them. That the VA of
a RACE is the lane's offset, as of the other faults of scratch, is the model's choice (log entry 50). -/
def Sys2Proof.Claims.ScratchTrapsHold : Prop :=
  ∀ i row, i.wf = true → scrRow i = some row → ∀ s x kc, Issues s x → Keyed s → Stands s x row.uses row.h.sw →
    x.c.id.cid ≠ 2 ^ 32 - 1 → consort? s.w x.c.id.consort = some kc →
    let at_ := fun k => scrAccess s.w x.c kc row.n k (row.off x.c k)
    let seg := fun k => mHas (row.on x) k && (at_ k).isNone
    let mis := fun k => mHas (row.on x) k && (row.align && row.off x.c k % row.n != 0)
    (∀ bad : Mask, bad ≠ 0 → (∀ k, k < 32 → mHas bad k = seg k) →
      ∃ t, exec i s = .next t ∧ Accessed s t x x.c 0x04 (faultsOf x.c 0x04 bad (row.off x.c)) row.atype row.n) ∧
    ((∀ k, k < 32 → seg k = false) →
      (∀ bad : Mask, bad ≠ 0 → (∀ k, k < 32 → mHas bad k = mis k) →
        ∃ t, exec i s = .next t ∧ Accessed s t x x.c 0x03 (faultsOf x.c 0x03 bad (row.off x.c)) row.atype row.n) ∧
      ∀ acc : Nat → Scr, (∀ k, k < 32 → mis k = false) →
        (∀ k, k < 32 → mHas (row.on x) k = true → at_ k = some (acc k)) →
        scrAway s.w x.c.id.consort kc.world ((mLanes (row.on x)).map acc) row.n = none →
        let hit := fun k => mHas (row.on x) k && (arrives s.w x.c (acc k) &&
          (scrWords (acc k) row.n).any (racesWith kc x.c.id.cid row.write row.atom))
        let res := fun k => scrResult s.w x.c (acc k) row.n row.rds
        (row.reads x ≠ 0 → poisonedUnit x.c row.uses ≠ none → Quiet s x row.h.sw →
          ∃ t, exec i s = .next t ∧ Consumed s t x row.uses (row.reads x)) ∧
        (CleanFor x.c row.uses (row.reads x) →
          (∀ bad : Mask, bad ≠ 0 → (∀ k, k < 32 → mHas bad k = hit k) →
            ∃ t, exec i s = .next t ∧ Accessed s t x x.c 0x07 (faultsOf x.c 0x07 bad (row.off x.c)) row.atype row.n) ∧
          ∀ st : Nat → Option (Nat × Nat), (∀ k, k < 32 → hit k = false) → row.h.sw = false →
            (∃ k, k < 32 ∧ mHas (row.on x) k = true ∧ st k ≠ none) →
            (∀ k, k < 32 → mHas (row.on x) k = true → match st k with
              | some y => Ends x.c (res k) k (row.off x.c k) y
              | none => Answers x.c (res k) k) →
            ∃ t, exec i s = .next t ∧ StoppedAt s t x (row.on x) st row.atype row.n))

/-- Lane accesses of scratch and its banks, the claims named here together. -/
def Obligations.ScratchAccesses : Prop :=
  Sys2Proof.Claims.ScratchLoadsHold ∧ Sys2Proof.Claims.ScratchStoresHold ∧ Sys2Proof.Claims.ScratchAtomicsHold ∧ Sys2Proof.Claims.ScratchBanksHold ∧ Sys2Proof.Claims.ScratchTrapsHold

/-- R42, R101, R129, R165, R168, R272: where a uniform access traps: in a mixed course the instructions of R42 raise MIXUNI; a
translation fault parks the whole course with the lanes of X in its entry and nothing done; POISON, MUTED and TIMEOUT stop every
lane of X. -/
def Sys2Proof.Claims.UniformAccessTrapsHold : Prop :=
  (∀ i h n p, mixRow i = some (h, n, p) → ∀ s x, Issues s x → Keyed s → x.c.w.used + n ≤ 16 → guardOn x.c h = true →
    (p = true → x.c.id.priv = true) → ¬ OneOwner x.c →
    ∃ t, exec i s = .next t ∧ Faulted s t x x.c 0x05 (faultsOf x.c 0x05 x.x fun _ => pc48 x)) ∧
  ∀ i row, i.wf = true → uniRow i = some row → ∀ s x, Issues s x → Keyed s → Stands s x (uniUses row.h row.u) row.h.sw →
    guardOn x.c row.h = true → row.may x.c →
    let atype := if row.nd = .read then 0 else 1
    let va := row.va x.c
    let r := slotAccess s.env s.w x.c (uniOp row.nd row.n va) (row.slot x) 0
    (∀ cause a m, r = .split cause a m →
      ∃ t c', exec i s = .next t ∧ course? t.w x.c.id.cid = some c' ∧ c'.id = x.c.id ∧ c'.k.at_ = .parked ∧ c'.k.cause = cause ∧
        c'.k.await = .faults ∧ (c'.k.join = 1 ∨ (c'.k.bound = true ∧ c'.k.join = 2)) ∧
        c'.r = { x.c.r with slots := c'.r.slots } ∧ (NearLines x.c → ∀ v, getV c' v = getV x.c v) ∧
        HasEntry t x.c.id.part cause (slotAsid x.c (row.slot x)) a fun y => y = .whole x.c.id.cid) ∧
    ∀ y, CleanFor x.c (uniUses row.h row.u) x.x → (r = .stop y.1 y.2 ∧ (y.1 = 0x20 ∨ y.1 = 0x21 ∨ y.1 = 0x22)) ∨ (x.c.k.tmo ≠ none ∧ (∃ ls, r = .ok ls) ∧ y = (0x22, va)) →
      ∃ t, exec i s = .next t ∧ Accessed s t x x.c y.1 (faultsOf x.c y.1 x.x fun _ => y.2) atype row.n

/-- Uniform loads and stores, the claims named here together. -/
def Obligations.UniformMemory : Prop :=
  Sys2Proof.Claims.UniformLoadsHold ∧ Sys2Proof.Claims.UniformStoresHold ∧ Sys2Proof.Claims.UniformAccessTrapsHold

/-- R40, R164, R165: a poisoned source raises POISON for the lanes that consume it: in a lane instruction without a memory access the
executing lanes, or all of X where none executes, which is the model's choice (log entry 35); in a uniform one the lanes of X. The entry's
VA is the number of the unit. -/
def Sys2Proof.Claims.SourcePoisonHold : Prop :=
  (∀ i row, (arithRow i = some row ∨ bitsRow i = some row ∨ moveRow i = some row) →
    StopsOnPoison i row.h (fun _ => row.uses) row.reads fun _ _ => True) ∧
  (∀ i row, predRow i = some row → StopsOnPoison i row.h (fun _ => row.uses) row.reads fun _ _ => True) ∧
  (∀ i row, fpRow i = some row → StopsOnPoison i row.h (fun _ => row.uses) row.reads fun _ _ => True) ∧
  (∀ i row, pairRow i = some row → StopsOnPoison i row.h (fun _ => row.uses) row.reads fun _ _ => True) ∧
  (∀ i row, defRow i = some row → StopsOnPoison i row.h (fun _ => row.uses) row.reads fun _ _ => True) ∧
  (∀ i row, jumpRow i = some row → StopsOnPoison i row.h (fun _ => row.uses) row.reads fun _ x =>
    row.v = [] ∨ ∀ k, mHas (row.on x) k = true → (row.target x k).toNat % 4 = 0) ∧
  (∀ i row, scalarRow i = some row → StopsOnPoison i row.h (fun x => row.reads x.c) (·.x) fun _ _ => True) ∧
  ∀ i row, readRow i = some row → StopsOnPoison i row.h (fun _ => uniUses row.h row.u) (·.x) fun _ x =>
    guardOn x.c row.h = true ∧ row.may x.c

/-- Lane predicates, register pairs and literals, the claims named here together. -/
def Obligations.LaneForms : Prop :=
  Sys2Proof.Claims.LanePredicatesHold ∧ Sys2Proof.Claims.LanePairsHold ∧ Sys2Proof.Claims.LaneLiteralHold ∧ Sys2Proof.Claims.SourcePoisonHold

/-- R65: an instruction that names a V line, as source or destination, that is neither cached nor covered by ZMASK stalls its
course, and nothing else changes. -/
def Sys2Proof.Claims.MissStallsHold : Prop :=
  (∀ i row, (arithRow i = some row ∨ bitsRow i = some row ∨ moveRow i = some row) → StallsOnMiss i row.h row.uses) ∧
  (∀ i row, predRow i = some row → StallsOnMiss i row.h row.uses) ∧ (∀ i row, fpRow i = some row → StallsOnMiss i row.h row.uses) ∧
  (∀ i row, pairRow i = some row → StallsOnMiss i row.h row.uses) ∧ (∀ i row, defRow i = some row → StallsOnMiss i row.h row.uses) ∧
  (∀ i row, memRow i = some row → StallsOnMiss i row.h row.uses) ∧ (∀ i row, scrRow i = some row → StallsOnMiss i row.h row.uses) ∧
  ∀ i row, jumpRow i = some row → StallsOnMiss i row.h row.uses

/-- R67: an instruction whose entries would bring the window above 16 raises ILLOP for the lanes of X and does not execute,
whatever its guards. -/
def Sys2Proof.Claims.WindowOverflowHold : Prop :=
  ∀ i n, i.wf = true → entriesOf i = some n → 0 < n → ∀ s x, Issues s x → Keyed s → 16 < x.c.w.used + n →
    ∃ t, exec i s = .next t ∧ Faulted s t x x.c 0x01 (faultsOf x.c 0x01 x.x fun _ => pc48 x)

/-- Deferred-class lane instructions; LOG2 and EXP2 to a relative 2^-60, the claims named here together. -/
def Obligations.LaneDeferred : Prop :=
  Sys2Proof.Claims.LaneDeferredHold ∧ Sys2Proof.Claims.QuotientsAndRootsHold ∧ Sys2Proof.Claims.LogarithmAndPowerHold ∧ Sys2Proof.Claims.MissStallsHold ∧ Sys2Proof.Claims.WindowOverflowHold

/-- R21, R40, R67, R249: at a switch marker the course's results, buffered and outstanding, land in issue order, each in the lanes it
wrote, and their flags are set with them; the window closes. -/
def Sys2Proof.Claims.MarkerClosesHold : Prop :=
  ∀ h s x l, h.sw = true → Issues s x → Stands s x (laneUses h Uses.none) true → CleanFor x.c (laneUses h Uses.none) (readers x.c h x.x) →
    InOrder s x.c l →
    ∃ t c', exec (.nop h) s = .next t ∧ Ran s t x c' ∧ Advanced x c' 4 ∧ (∀ a, t.mem.rd a = s.mem.rd a) ∧
      c'.w.used = 0 ∧ c'.w.buf = [] ∧ c'.w.isOpen = false ∧ (∀ f, f ∈ t.w.flights ↔ f ∈ s.w.flights ∧ sameTag x.c f = false) ∧
      (∀ r k, r < 64 → k < 32 → laneOf (getV c' r) k = match lastV l r k with
        | some f => laneOf f.val k
        | none => laneOf (getV x.c r) k) ∧
      (∀ r, r < 64 → getS c' r = match lastS l r with
        | some f => laneOf f.val 0
        | none => getS x.c r) ∧
      ∀ n, n < 8 → ∀ b, b < 5 → (slotFlags c' n).testBit b =
        ((slotFlags x.c n).testBit b || l.any fun f => f.flags.any fun y => y.1 == n && y.2.testBit b)

namespace Sys2Proof.Claims

open Sys2Proof.Machine

/-! ## Parks (R58, R60, R142) -/

/-- The course's control area can be written to its frame from its core, at the places ls, which wait for no scrub and whose blocks
bear the encipherment of the world's context key; no line is left in another quadrant. -/
structure Saves (s : State) (x : Sel) (ls : List (Loc × Nat × Nat)) : Prop where
  near : NearLines x.c
  places : ctxPlaces s.env s.w (pcnOf s.w x.c.v.hcore) x.c.id.part (slotWorld x.c 0) (x.c.id.frame + 0x2000) 4096 .write = .ok ls
  bound : placesScrub s.w ls = none
  tag : SameCtxTag s.w (slotWorld x.c 0) ls
  apart : (placeKeys ls).Nodup

/-- The course of x parked as c' with a cause, what it awaits, a deadline and a join counter; a counter of 0 makes its record
ready. Its frame's control area holds its registers; no other course and no other byte of memory differs. -/
structure Parked (s t : State) (x : Sel) (c' : Course) (ls : List (Loc × Nat × Nat)) (cause : Nat) (aw : Await) (join : Nat)
    (dl : Option Nat) : Prop where
  here : course? t.w x.c.id.cid = some c'
  id : c'.id = x.c.id
  at_ : c'.k.at_ = if join = 0 then .ready else .parked
  cause : c'.k.cause = cause
  await : c'.k.await = aw
  join : c'.k.join = join
  deadline : c'.k.deadline = dl
  window : c'.w.used = 0 ∧ c'.w.buf = [] ∧ c'.w.isOpen = false
  prio : (∀ k, k < 32 → laneSt x.c k = 1 ∨ laneSt x.c k = 2 → slotPrio x.c (own x.c k) ≤ c'.k.prio) ∧
    ∃ k, k < 32 ∧ (laneSt x.c k = 1 ∨ laneSt x.c k = 2) ∧ slotPrio x.c (own x.c k) = c'.k.prio
  others : ∀ n, n ≠ x.c.id.cid → course? t.w n = course? s.w n
  charge : ∀ n, n < 8 → slotLanecyc c' n = (slotLanecyc x.c n + mCount (ownedBy x n)) % 2 ^ 64
  saved : (placeKeys ls).map t.mem.rd = ctlBytes c' ++ List.replicate (4096 - (ctlBytes c').length) 0
  mem : ∀ a, a ∉ placeKeys ls → t.mem.rd a = s.mem.rd a
  fix : t.fix = s.fix

/-- Nothing but courses, event counters, poison marks, the order of records and what is named beside differs. -/
def ParkStill (s t : State) : Prop :=
  t.w = { s.w with courses := t.w.courses, cores := t.w.cores, poison := t.w.poison, nextOrder := t.w.nextOrder } ∧
  ∀ n, { Sys2Proof.Machine.core t.w n with ev := (Sys2Proof.Machine.core s.w n).ev } = Sys2Proof.Machine.core s.w n

/-- A record of the course would become ready: no halt is in force, and no line waits to be spilt. -/
def Free (s : State) (c : Course) : Prop := haltCause s.w c = none ∧ hasPend c = false

/-! ## Timelines, barriers and tickets (R161, R162, R175, R283 to R286) -/

/-- The core and the number of the counter that a TL handle names (R48). -/
def tlAt (s : State) (c : Course) (t : Nat) : Nat × Nat :=
  let v := getTL c t
  (match consort? s.w c.id.consort with | some k => pcnOf s.w (nth k.cores (bvF v 8 2) 0) | none => 0, bvF v 0 8)

/-- The barrier record n of a consort (R175). -/
def barAt (k : Consort) (n : Nat) : Bar := (tGet? k.bars n).getD ⟨0, 0, 0, []⟩

/-- The count that C names (R284). -/
def countOf (k : Consort) (n : Nat) : Nat := if n = 0 then k.nCourses else n

/-- The number of arrivals with this course's (R285). -/
def arrivals (k : Consort) (c : Course) (n : Nat) : Nat :=
  if c.id.cid ∈ (barAt k n).who then (barAt k n).arrived else (barAt k n).arrived + 1

/-- An arrival may be made: the count is one of the consort's and is that to which the phase is bound, and the core that holds the barrier
is in reach (R129, R284, R285). -/
structure Arrives (s : State) (x : Sel) (k : Consort) (n : Fin 16) (c : Fin 128) : Prop where
  consort : consort? s.w x.c.id.consort = some k
  count : c.val ≤ k.nCourses
  bound : (barAt k n.val).bound = 0 ∨ (barAt k n.val).bound = countOf k c.val
  sound : k.stuck = false
  near : coreAway s.w (pcnOf s.w x.c.v.hcore) (barPcn s.w x.c.id.consort) = false

/-- The consort's record after an arrival that completes no phase; or after one that does (R84, R285). -/
def arrived (k : Consort) (c : Course) (n cnt : Nat) : Consort :=
  { k with bars := tPut k.bars n ⟨(barAt k n).phase, arrivals k c n, cnt,
      if c.id.cid ∈ (barAt k n).who then (barAt k n).who else c.id.cid :: (barAt k n).who⟩ }
def completed (k : Consort) (n cnt : Nat) : Consort :=
  { k with
    bars := tPut k.bars n ⟨((barAt k n).phase + 1) % 2 ^ 16, 0, 0, []⟩
    full := if cnt = k.nCourses then k.full + 1 else k.full
    races := if cnt = k.nCourses then [] else k.races }

/-- A course that waited is released: it awaits nothing; a record with a join counter of 1 that is free becomes ready (R142). -/
def Released (s t : State) (n : Nat) (d : Course) : Prop :=
  ∃ d', course? t.w n = some d' ∧ d'.k.await = .nothing ∧ d'.id = d.id ∧
    (d.k.at_ = .parked → d.k.join = 1 → Free s d → d'.k.at_ = .ready ∧ d'.k.join = 0)

/-- The courses that waited on a completed barrier are released, those of BARDL with their Q set; no other differs but x's. -/
def BarReleased (s t : State) (x : Sel) (kc n : Nat) : Prop :=
  ∀ m d, m ≠ x.c.id.cid → course? s.w m = some d →
    match d.k.await with
    | .barrier b q => if d.id.consort = kc ∧ b = n then
        Released s t m d ∧ ∀ j d', q = some j → course? t.w m = some d' → getQ d' j.val = true
      else course? t.w m = some d
    | _ => course? t.w m = some d

/-- The three barrier instructions: name, deadline register and Q of BARDL, barrier, count. -/
def barRow : Instr → Option (Hd × Option (R64 × R8) × Fin 16 × Fin 128 × Bool)
  | .bar h n c => some (h, none, n, c, true)
  | .bara h n c => some (h, none, n, c, false)
  | .bardl h d n q c => some (h, some (d, q), n, c, true)
  | _ => none

def barUses (h : Hd) (o : Option (R64 × R8)) : Uses :=
  uniUses h { Uses.none with s := match o with | some (d, _) => [d.val] | none => [] }

/-- Q predicates of a course after an instruction that writes one or none. -/
def WroteQ (x : Sel) (c' : Course) (o : Option R8) (b : Bool) : Prop :=
  match o with
  | some q => Keeps x.c c' [] [] [] [q.val] ∧ getQ c' q.val = (b || decide (q.val = 7))
  | none => Keeps x.c c' [] [] [] []

/-- The dispenser that a register names may be reached: it exists, the core's matrix row holds its slice, the slice is not
muted and a route leads to it, the request will get its reply, and the consort's control state is sound (R156, R162, R168, R184,
R286). -/
structure Dispenses (s : State) (x : Sel) (a : R64) : Prop where
  exists_ : (getS x.c a.val).toNat < 6144
  row : let m := tGetD s.w.hub.matrix (pcnOf s.w x.c.v.hcore) 0
    m.getLsbD 31 = true ∧ m.getLsbD ((getS x.c a.val).toNat / 256) = true
  open_ : (getS x.c a.val).toNat / 256 ∉ s.w.hub.mutedSlices
  route : noRoute s.w (tileOfPcn (pcnOf s.w x.c.v.hcore)) (tileOfSlice ((getS x.c a.val).toNat / 256)) = false
  tmo : x.c.k.tmo = none
  sound : ∀ k, consort? s.w x.c.id.consort = some k → k.stuck = false

/-- A ticket is served (R162). -/
def ServedBy (serving t : Word) : Prop := (serving - t).toNat < 2 ^ 31

end Sys2Proof.Claims

/-- R51, R69, R160, R280: EXIT with a true guard and no parked lane makes every live lane exited, and the course ends. -/
def Sys2Proof.Claims.CourseExitHold : Prop :=
  ∀ h s x, Issues s x → Clear s x (uniUses h Uses.none) x.x → Quiet s x h.sw → guardOn x.c h = true →
    (∀ k, k < 32 → laneSt x.c k ≠ 2) → ∃ t, exec (.exit h) s = .next t ∧ Ended s t x id

/-- R281: EXIT.SUCC in the consort's first course reads the header as a uniform read, names it as the successor, and the course
ends; in another course it raises ILLOP, in a course of several owners MIXUNI. -/
def Sys2Proof.Claims.SuccessorExitHold : Prop :=
  ∀ h a s x ls, Issues s x → guardOn x.c h = true →
    (Clear s x (uniUses h { Uses.none with s := [(a : R64).val, a.val + 1] }) x.x → Quiet s x h.sw →
      (∀ k, k < 32 → laneSt x.c k ≠ 2) → x.c.id.j = 0 → OneOwner x.c →
      UniPerforms s x .read 128 (getS2 x.c a.val) (lowSlot x) ls →
      ∃ t, exec (.exitSucc h a) s = .next t ∧ Ended s t x fun k =>
        { k with succ := some (rdPlaces s.env s.w (slotWorld x.c (lowSlot x)) ls), succPriv := x.c.id.priv }) ∧
    (Keyed s → x.c.w.used ≤ 16 →
      (x.c.id.j ≠ 0 → ∃ t, exec (.exitSucc h a) s = .next t ∧ Faulted s t x x.c 0x01 (faultsOf x.c 0x01 x.x fun _ => pc48 x)) ∧
      (x.c.id.j = 0 → ¬ OneOwner x.c →
        ∃ t, exec (.exitSucc h a) s = .next t ∧ Faulted s t x x.c 0x05 (faultsOf x.c 0x05 x.x fun _ => pc48 x)))

/-- EXIT and EXIT.SUCC, the claims named here together. -/
def Obligations.CourseEnds : Prop :=
  Sys2Proof.Claims.CourseExitHold ∧ Sys2Proof.Claims.SuccessorExitHold

/-- R58, R60, R142, R282: YIELD parks the course with cause 0x84 and its record is ready at once; SLEEP parks it with cause 0x81
until a time of t ticks has passed, and acts as YIELD when t is 0. -/
def Sys2Proof.Claims.YieldAndSleepHold : Prop :=
  ∀ i h t, (i = .yield h ∧ t = none) ∨ (∃ a, i = .sleep h a ∧ t = some a) → ∀ s x ls, Issues s x →
    Clear s x (uniUses h { Uses.none with s := match t with | some a => [a.val] | none => [] }) x.x → Quiet s x true →
    guardOn x.c h = true → Saves s x ls → Free s x.c →
    let n := match t with | some a => (getS x.c a.val).toNat | none => 0
    ∃ t c', exec i s = .next t ∧ ParkStill s t ∧ Keeps x.c c' [] [] [] [] ∧ FlagsKept x.c c' ∧ Advanced x c' 4 ∧
      if n = 0 then Parked s t x c' ls 0x84 .nothing 0 none
      else Parked s t x c' ls 0x81 .sleep 1 (some (s.w.now + n))

/-- R48, R142, R161, R283: WAITTL goes on when its number is reached; else it parks with cause 0x80 on the counter. The DL form
sets its Q when the number is reached, clears it and goes on when its deadline is 0, and else waits with the deadline. -/
def Sys2Proof.Claims.TimelineWaitsHold : Prop :=
  ∀ i h k a o, (i = .waittl h k a ∧ o = none) ∨ (∃ q b, i = .waittlDl h k q a b ∧ o = some (q, b)) → ∀ s x ls, Issues s x →
    Clear s x (uniUses h { Uses.none with
      s := a.val :: (match o with | some (_, b) => [Fin.val b] | none => []), sect := [(sectTL, k.val)] }) x.x →
    Quiet s x true → guardOn x.c h = true → (getTL x.c k.val).getLsbD 10 = true → CounterNear s x.c k.val →
    let n := getS x.c a.val
    let d := match o with | some (_, b) => (getS x.c (Fin.val b)).toNat | none => 0
    (reachedRel (tlOf s x.c k.val) n ∨ (o ≠ none ∧ d = 0) →
      ∃ t c', exec i s = .next t ∧ Ran s t x c' ∧ Still s t ∧ t.w.flights = s.w.flights ∧ FlagsKept x.c c' ∧ Advanced x c' 4 ∧
        ∃ b, (b = true ↔ reachedRel (tlOf s x.c k.val) n) ∧ WroteQ x c' (o.map (·.1)) b) ∧
    (¬ reachedRel (tlOf s x.c k.val) n → (o = none ∨ d ≠ 0) → Saves s x ls →
      ∃ t c', exec i s = .next t ∧ ParkStill s t ∧ Keeps x.c c' [] [] [] [] ∧ FlagsKept x.c c' ∧ Advanced x c' 4 ∧
        Parked s t x c' ls 0x80 (.timeline (tlAt s x.c k.val).1 (tlAt s x.c k.val).2 n (o.map (·.1))) 1
          (o.map fun _ => s.w.now + d))

/-- YIELD, SLEEP and WAITTL park and wake, the claims named here together. -/
def Obligations.Waits : Prop :=
  Sys2Proof.Claims.YieldAndSleepHold ∧ Sys2Proof.Claims.TimelineWaitsHold

/-- R84, R142, R284, R285: BAR, BARA and BARDL arrive once in the phase of a barrier; an arrival that makes the count completes the
phase, releases the courses that wait on it and opens a new race phase when the count is the full one. BARA always goes on; BAR
and BARDL wait for the phase, BARDL no longer than its deadline. -/
def Sys2Proof.Claims.BarriersHold : Prop :=
  ∀ i h o n cnt parks, barRow i = some (h, o, n, cnt, parks) → ∀ s x k ls, Issues s x → Clear s x (barUses h o) x.x → Quiet s x true →
    guardOn x.c h = true → Arrives s x k n cnt → Keyed s →
    let d := match o with | some (b, _) => (getS x.c (Fin.val b)).toNat | none => 0
    let c := countOf k cnt.val
    let others := fun (t : State) => ∀ m, m ≠ x.c.id.consort → consort? t.w m = consort? s.w m
    (arrivals k x.c n.val = c →
      ∃ t c', exec i s = .next t ∧ Ran { s with w := { s.w with courses := t.w.courses } } t x c' ∧ FlagsKept x.c c' ∧ Advanced x c' 4 ∧
        WroteQ x c' (o.map (·.2)) true ∧ (∀ b, t.mem.rd b = s.mem.rd b) ∧ others t ∧
        consort? t.w x.c.id.consort = some (completed k n.val c) ∧ BarReleased s t x x.c.id.consort n.val) ∧
    (arrivals k x.c n.val ≠ c → (parks = false ∨ (o ≠ none ∧ d = 0)) →
      ∃ t c', exec i s = .next t ∧ Ran s t x c' ∧ FlagsKept x.c c' ∧ Advanced x c' 4 ∧ WroteQ x c' (o.map (·.2)) false ∧
        (∀ b, t.mem.rd b = s.mem.rd b) ∧ others t ∧ consort? t.w x.c.id.consort = some (arrived k x.c n.val c)) ∧
    (arrivals k x.c n.val ≠ c → parks = true → (o = none ∨ d ≠ 0) → Saves s x ls →
      ∃ t c', exec i s = .next t ∧ Keeps x.c c' [] [] [] [] ∧ FlagsKept x.c c' ∧ Advanced x c' 4 ∧ others t ∧
        consort? t.w x.c.id.consort = some (arrived k x.c n.val c) ∧
        Parked s t x c' ls 0x83 (.barrier n.val (o.map (·.2))) 1 (o.map fun _ => s.w.now + d))

/-- R164, R284, R285: a count above CPC + 1 raises ILLOP; a count other than the one to which the phase is bound raises BARCOUNT,
with the barrier as VA, and the barrier's record stays. -/
def Sys2Proof.Claims.BarrierCountsHold : Prop :=
  ∀ i h o n cnt parks, barRow i = some (h, o, n, cnt, parks) → ∀ s x k, Issues s x → x.c.w.used ≤ 16 → guardOn x.c h = true →
    consort? s.w x.c.id.consort = some k → k.stuck = false → Keyed s →
    (k.nCourses < cnt.val →
      ∃ t, exec i s = .next t ∧ Faulted s t x x.c 0x01 (faultsOf x.c 0x01 x.x fun _ => pc48 x)) ∧
    (cnt.val ≤ k.nCourses → (barAt k n.val).bound ≠ 0 → (barAt k n.val).bound ≠ countOf k cnt.val →
      ∃ t, exec i s = .next t ∧ Faulted s t x x.c 0x06 (faultsOf x.c 0x06 x.x fun _ => n.val))

/-- R142, R162, R286: TKTAKE sends TICKET and adds 1 to it; TKSERVE adds 1 to SERVING and releases the courses whose tickets it
serves; TKWAIT goes on when its ticket is served and else parks with cause 0x82. A dispenser number above 6,143 raises SEGLIM. -/
def Sys2Proof.Claims.TicketsHold : Prop :=
  (∀ h d a s x, Issues s x → Clear s x (uniUses h { Uses.none with s := [(a : R64).val], entries := 1 }) x.x → Quiet s x h.sw →
    guardOn x.c h = true → Dispenses s x a →
    let n := (getS x.c a.val).toNat
    ∃ t c', exec (.tktake h d a) s = .next t ∧ Ran s t x c' ∧ Advanced x c' 4 ∧ (∀ b, t.mem.rd b = s.mem.rd b) ∧
      SentS s t x c' h.sw [(d : R64).val] (disp s.w n).ticket.toNat ∧
      (∀ m, m ≠ n → disp t.w m = disp s.w m) ∧ disp t.w n = { disp s.w n with ticket := (disp s.w n).ticket + 1 }) ∧
  (∀ h a s x, Issues s x → Clear s x (uniUses h { Uses.none with s := [(a : R64).val] }) x.x → Quiet s x h.sw → Keyed s →
    guardOn x.c h = true → Dispenses s x a →
    let n := (getS x.c a.val).toNat
    ∃ t c', exec (.tkserve h a) s = .next t ∧ Ran { s with w := { s.w with courses := t.w.courses } } t x c' ∧
      Keeps x.c c' [] [] [] [] ∧ FlagsKept x.c c' ∧ Advanced x c' 4 ∧ (∀ b, t.mem.rd b = s.mem.rd b) ∧
      (∀ m, m ≠ n → disp t.w m = disp s.w m) ∧ (disp t.w n).serving = (disp s.w n).serving + 1 ∧
      (disp t.w n).ticket = (disp s.w n).ticket ∧
      ∀ m c, m ≠ x.c.id.cid → course? s.w m = some c → ∀ u, c.k.await = .ticket n u →
        (ServedBy ((disp s.w n).serving + 1) u → Released s t m c) ∧
        (¬ ServedBy ((disp s.w n).serving + 1) u → course? t.w m = some c)) ∧
  (∀ h a b s x ls, Issues s x → Clear s x (uniUses h { Uses.none with s := [(a : R64).val, (b : R64).val] }) x.x →
    Quiet s x true → guardOn x.c h = true → Dispenses s x a →
    let n := (getS x.c a.val).toNat
    let u := getS x.c b.val
    (ServedBy (disp s.w n).serving u →
      ∃ t c', exec (.tkwait h a b) s = .next t ∧ Ran s t x c' ∧ Still s t ∧ Keeps x.c c' [] [] [] [] ∧ FlagsKept x.c c' ∧
        Advanced x c' 4) ∧
    (¬ ServedBy (disp s.w n).serving u → Saves s x ls →
      ∃ t c', exec (.tkwait h a b) s = .next t ∧ Keeps x.c c' [] [] [] [] ∧ FlagsKept x.c c' ∧ Advanced x c' 4 ∧
        Parked s t x c' ls 0x82 (.ticket n u) 1 none ∧
        (pcnOf s.w x.c.v.hcore < 72 → (disp t.w n).mask.getLsbD (pcnOf s.w x.c.v.hcore) = true) ∧
        (disp t.w n).serving = (disp s.w n).serving ∧ (disp t.w n).ticket = (disp s.w n).ticket)) ∧
  ∀ i h n a, uniHead i = some (h, n) → (∃ g d, i = .tktake g d a) ∨ (∃ g, i = .tkserve g a) ∨ (∃ g b, i = .tkwait g a b) →
    ∀ s x, Issues s x → Keyed s → Stands s x { Uses.none with entries := n } h.sw → guardOn x.c h = true →
    6144 ≤ (getS x.c a.val).toNat →
    ∃ t, exec i s = .next t ∧ Faulted s t x x.c 0x04 (faultsOf x.c 0x04 x.x fun _ => (getS x.c a.val).toNat)

/-- R140, R288: LAUNCHQ reads the header once, writes its copy as the next entry of the partition's queue and sends the entry's
position; a queue of 4,096 entries parks the course with cause 0x87 and the copy in hand. A misaligned address raises MISALIGN. That the
lanes stay at a LAUNCHQ on a full queue is the model's choice (log entry 22), and so is that its window counts as open with no other result
in it (log entry 61). -/
def Sys2Proof.Claims.LaunchQueueHold : Prop :=
  ∀ h d a s x ls, Issues s x → guardOn x.c h = true → OneOwner x.c →
    let va := getS2 x.c (a : R64).val
    let pt := part s.w x.c.id.part
    (va % 128 ≠ 0 → Stands s x { Uses.none with entries := 1 } h.sw → Keyed s →
      ∃ t, exec (.launchq h d a) s = .next t ∧ Faulted s t x x.c 0x03 (faultsOf x.c 0x03 x.x fun _ => va)) ∧
    (va % 128 = 0 → Clear s x (uniUses h { Uses.none with s := [a.val, a.val + 1], entries := 1 }) x.x → UniPerforms s x .read 128 va (lowSlot x) ls →
      let hd := rdPlaces s.env s.w (slotWorld x.c (lowSlot x)) ls
      (∀ qs, Quiet s x h.sw → pt.lq.length < 4096 →
        ctxPlaces s.env s.w (pcnOf s.w x.c.v.hcore) x.c.id.part (slotWorld x.c 0) (pt.ctxBase + 128 * pt.lqTail) 128 .write = .ok qs →
        placesScrub s.w qs = none → SameCtxTag s.w (slotWorld x.c 0) qs → (placeKeys qs).Nodup →
        ∃ t c', exec (.launchq h d a) s = .next t ∧ Ran s t x c' ∧ Advanced x c' 4 ∧
          SentS s t x c' h.sw [(d : R64).val] pt.lqTail ∧ (placeKeys qs).map t.mem.rd = hd ∧
          (∀ b, b ∉ placeKeys qs → t.mem.rd b = s.mem.rd b) ∧
          t.w = { s.w with
            courses := t.w.courses, cores := t.w.cores, flights := t.w.flights, nextFlight := t.w.nextFlight, parts := t.w.parts
            poison := t.w.poison } ∧ (∀ m, m ≠ x.c.id.part → part t.w m = part s.w m) ∧
          part t.w x.c.id.part = { pt with
            lq := pt.lq ++ [⟨pt.lqTail, pt.lqNext, slotAsid x.c 0, slotWorld x.c 0, x.c.id.priv, x.c.id.codeAsid, x.c.id.ctx,
              x.c.id.launch⟩]
            lqTail := (pt.lqTail + 1) % 4096
            lqNext := pt.lqNext + 1 }) ∧
      (4096 ≤ pt.lq.length → NearLines x.c → (∀ f ∈ s.w.flights, sameTag x.c f = false) → x.c.w.buf = [] →
        (∃ w', writeControl s.env s.w x.c = .ok w') →
        ∃ t c', exec (.launchq h d a) s = .next t ∧ course? t.w x.c.id.cid = some c' ∧ c'.id = x.c.id ∧ c'.k.at_ = .parked ∧
          c'.k.cause = 0x87 ∧ c'.k.join = 1 ∧ c'.k.await = .queue hd d x.x h.sw ∧ c'.w.isOpen = true ∧
          Keeps x.c c' [] [] [] [] ∧ (∀ k, k < 32 → lpc c' k = lpc x.c k) ∧ part t.w x.c.id.part = pt))

namespace Sys2Proof.Claims

open Sys2Proof.Machine

/-! ## Descriptors and engine instructions (R44 to R48, R298, R302 to R312) -/

/-- The number in a run of n S registers, the first lowest. -/
def IsRun (c : Course) (b : R64) (n v : Nat) : Prop := ∀ i, i < n → v / 2 ^ (32 * i) % 2 ^ 32 = (getS c (b.val + i)).toNat

/-- No operation of the course in flight names a D register (R45). -/
def Unused (s : State) (c : Course) (n : Nat) : Prop := ∀ p ∈ s.w.ops, p.2.cid = c.id.cid → n ∉ p.2.dnums

/-- The handle that DSET.A makes may be derived from another: that one names a region, the new one is legal and lies in it (R46,
R302). -/
def Derives (k : Consort) (new from_ : BitVec 128) : Prop :=
  (regionOf from_).nrows ≠ 0 ∧ (regionOf from_).ncols ≠ 0 ∧ regionOk k.cores.length k.accN (regionOf new) = true ∧
  regionIn (regionOf new) (regionOf from_) = true

/-- A TL handle's value is one that DSET.TL may make: its fields above bit 10 are zero, and a valid one names a counter allotted
to the consort (R48, R302). -/
def Allotted (c : Course) (k : Consort) (v : Nat) : Prop :=
  v < 2 ^ 11 ∧ (v.testBit 10 = true → v / 2 ^ 8 % 4 < k.cores.length ∧
    c.id.tlallot.toNat % 2 ^ 8 ≤ v % 2 ^ 8 ∧ v % 2 ^ 8 < c.id.tlallot.toNat % 2 ^ 8 + c.id.tlallot.toNat / 2 ^ 8)

/-- The engine instructions that take a number: head, and what each reads and starts (R298, R303 to R312). -/
def engRow (c : Course) : Instr → Option (Hd × EngInstr)
  | .mma h d ns ah da db t =>
    let x := getS c (d.val + 32)
    some (h, ⟨d.val, !ns, [], fun _ => [da.val, db.val], some ah.val, t.val, mmaCheck ns da.val db.val d.val,
      .mma ns (x.toNat % 2 ^ 16) (x.toNat / 2 ^ 16), 0x29⟩)
  | .azero h d ah t => some (h, ⟨d.val, false, [], fun _ => [], some ah.val, t.val, fun _ _ => false, .azero, 0x2A⟩)
  | .astp h d ah dp r t => some (h, ⟨d.val, false, [], fun _ => [dp.val], some ah.val, t.val,
      fun c _ => (getD256 c dp.val).toNat / 2 ^ 128 % 16 == 6 && r != .rne, .astp r, 0x2B⟩)
  | .aldp h d ah dp add t => some (h, ⟨d.val, false, [], fun _ => [dp.val], some ah.val, t.val, fun _ _ => false, .aldp add, 0x2C⟩)
  | .arow h d ah dp o t => some (h, ⟨d.val, false, [], fun _ => [dp.val], some ah.val, t.val,
      fun c _ => (getD256 c dp.val).toNat / 2 ^ 128 % 16 != 0, .arow o, 0x2D⟩)
  | .scld h d ah dp b t => some (h, ⟨d.val, true, [], fun _ => [dp.val], some ah.val, t.val, scldCheck b d.val dp.val, .scld b, 0x2E⟩)
  | .pswz h d ah dp r tr t => some (h, ⟨d.val, true, [], fun c => [dp.val, (getS c (d.val + 32)).toNat % 16], some ah.val, t.val,
      pswzCheck r d.val dp.val, .pswz r tr, 0x37⟩)
  | .copy h d dp a t => some (h, ⟨d.val, true, [a.val, a.val + 1], fun _ => [dp.val], none, t.val, copyCheck false d.val, .copy, 0x2F⟩)
  | .copym h d dp a t => some (h, ⟨d.val, true, [a.val, a.val + 1], fun _ => [dp.val], none, t.val, copyCheck true d.val, .copym, 0x30⟩)
  | .copyo h d dp a t => some (h, ⟨d.val, true, [a.val, a.val + 1], fun _ => [dp.val], none, t.val, copyCheck false d.val, .copyo, 0x31⟩)
  | .gather h d dp a t => some (h, ⟨d.val, true, [a.val, a.val + 1, a.val + 2, a.val + 3], fun _ => [dp.val], none, t.val,
      copyCheck false d.val, .gather, 0x32⟩)
  | .coll h d a t => some (h, ⟨d.val, true, [a.val, a.val + 1], fun _ => [], none, t.val,
      fun c _ => (getS c (d.val + 32)).toNat / 8 != 0, .coll, 0x33⟩)
  | .tlsig h d t => some (h, ⟨d.val, false, [], fun _ => [], none, t.val, fun _ _ => false, .tlsig, 0x35⟩)
  | _ => none

/-- The consort of a course. -/
def consortIs (s : State) (c : Course) (k : Consort) : Prop := consort? s.w c.id.consort = some k

/-- An engine instruction passes its checks: its handles and descriptors are legal, its panels lie in their segments, its A handle
is not busy, its counter has fewer than 256 numbers outstanding, the engine takes operations, and the counter's
core is in reach (R45, R47, R48, R78, R129, R161, R173). -/
structure Accepts (s : State) (x : Sel) (e : EngInstr) (k : Consort) : Prop where
  consort : consortIs s x.c k
  tl : (getTL x.c e.tl).getLsbD 10 = true
  region : ∀ a, e.ah = some a → regionOk k.cores.length k.accN (regionOf (getA x.c a)) = true ∧ (getA x.c a).getLsbD 58 = false
  panels : ∀ d ∈ e.ds x.c, panelBad (getD256 x.c d) = false ∧ panelSeg x.c k (getD256 x.c d) = true
  own : e.check x.c k = false
  room : ((tlOf s x.c e.tl).issued - (tlOf s x.c e.tl).done).toNat < 256
  engine : engineOk s.w x.c e.kind = true
  near : CounterNear s x.c e.tl
  lines : e.kind.isCopy = true → ∀ d ∈ e.ds x.c, copyLines (parsePanel (getD256 x.c d)) ≠ 0

/-- A TLSIG's number will be pending: another number of its counter is outstanding, none is about to be done, and no wait or stall
of a course is over already (R147, R161). -/
structure Pending' (s : State) (x : Sel) (e : EngInstr) : Prop where
  behind : (tlOf s x.c e.tl).done ≠ (tlOf s x.c e.tl).issued
  marked : (tlOf s x.c e.tl).done + 1 ∉ (tlOf s x.c e.tl).marked
  sigs : ∀ m ∈ pendingSigs s.w (tlAt s x.c e.tl).1 (tlAt s x.c e.tl).2,
    m ≠ (tlOf s x.c e.tl).done + 1 ∧ ¬ ((tlOf s x.c e.tl).done - m).toNat < 2 ^ 31
  waits : ∀ p ∈ s.w.courses, ∀ m q, p.2.k.await = .timeline (tlAt s x.c e.tl).1 (tlAt s x.c e.tl).2 m q →
    ¬ ((tlOf s x.c e.tl).done - m).toNat < 2 ^ 31
  stalls : ∀ p ∈ s.w.courses, ∀ y, p.2.k.stall = some y → stallOver s.w p.2 y = false

/-- A consort core is a destination of a COPYM and is muted when it starts: it will be skipped (R123, R309). -/
def Skips (s : State) (c : Course) (k : Consort) (e : EngInstr) (i : Nat) : Prop :=
  i < 4 ∧ (getS c (e.sd + 32)).toNat.testBit (24 + i) = true ∧ pcnMuted s.w (pcnOf s.w (nth k.cores i 0)) = true

/-- What an engine instruction leaves: its number in S(SD), in LAST of the TL handle and in the A handle, BUSY set and STEP 0; the
number issued on the counter with status 1; and the operation in flight, as its engine will find it, the muted destinations of a
COPYM skipped (R123). -/
structure Took (s t : State) (x : Sel) (k : Consort) (c' : Course) (e : EngInstr) (n : Word) : Prop where
  number : n = (tlOf s x.c e.tl).issued + 1
  dest : getS c' e.sd = n
  keeps : Keeps { x.c with r := { x.c.r with tl := c'.r.tl, a := c'.r.a } } c' [] [e.sd] [] []
  last : ∀ i, i < 4 → (getTL c' i).toNat =
    if i = e.tl then n.toNat * 2 ^ 32 + (getTL x.c i).toNat % 2 ^ 32 else (getTL x.c i).toNat
  handle : ∀ i, i < 16 → (getA c' i).toNat =
    if e.ah = some i then
      n.toNat * 2 ^ 96 + e.op * 2 ^ 64 + (getA x.c i).toNat / 2 ^ 71 % 2 * 2 ^ 71 + (getA x.c i).toNat / 2 ^ 62 % 4 * 2 ^ 62 +
        e.tl * 2 ^ 60 + (getA x.c i).toNat / 2 ^ 59 % 2 * 2 ^ 59 + 2 ^ 58 + (getA x.c i).toNat % 2 ^ 58
    else (getA x.c i).toNat
  op : ∃ o, op? t.w s.w.nextOp = some o ∧ { o with code := 0, skip := 0 } = e.make s.w x.c x n ∧
    o.code = (if o.skip = 0 then 0 else 0x21) ∧ ∀ i, o.skip.testBit i = true ↔ e.kind = .copym ∧ Skips s x.c k e i
  ops : ∀ m, m ≠ s.w.nextOp → op? t.w m = op? s.w m
  counter : tlc t.w (tlAt s x.c e.tl).1 (tlAt s x.c e.tl).2 =
    { tlOf s x.c e.tl with issued := n, stat := ((n, 1) :: (tlOf s x.c e.tl).stat).take 256 }
  counters : ∀ p i, (p, i) ≠ tlAt s x.c e.tl → tlc t.w p i = tlc s.w p i

/-! ## Engines, keys and messages (R110, R130 to R134, R177, R294 to R296) -/

/-- An operation runs on an engine of a core: 0 to 3 the sequencers, 4 the copy engine, 5 the collective port (R294). -/
def RunsOn (o : EngOp) (pcn eng : Nat) : Prop :=
  o.pcn = pcn ∧ ((o.kind.chisel = true ∧ o.quad = eng) ∨ (o.kind.isCopy = true ∧ eng = 4) ∨ (o.kind = .coll ∧ eng = 5))

/-- Tensor table entry i of a world (R110); one never written is zero. -/
def tensorOf (s : State) (wd i : Nat) : Tensor :=
  (s.w.sec.tensors.find? fun t => t.world == wd && t.index == i).getD ⟨wd, i, 0, 0, 0, 0, 0, false⟩

/-- The operation of KEYOP: head, status register, block address, operation (R295). -/
def keyRow : Instr → Option (Hd × R64 × R64 × KeyAct)
  | .keyopSet h d a => some (h, d, a, .set)
  | .keyopBump h d a => some (h, d, a, .bump)
  | .keyopClear h d a => some (h, d, a, .clear)
  | .keyopNewkey h d a => some (h, d, a, .newkey)
  | _ => none

/-- A request block's fields (R295). -/
structure KeyBlock (b : List Byte) (q : KeyReq) : Prop where
  index : q.index = leNat (b.take 4)
  tid : q.tid = leNat ((b.drop 4).take 4)
  kref : q.kref = leNat ((b.drop 8).take 2)
  base : q.base = leNat ((b.drop 16).take 8)
  size : q.size = leNat ((b.drop 24).take 8)
  zero : q.reserved = true ↔ leNat ((b.drop 10).take 6) ≠ 0 ∨ leNat ((b.drop 32).take 32) ≠ 0

/-- The range of a request overlaps a valid entry other than its own (R110). -/
def Overlaps (s : State) (wd : Nat) (q : KeyReq) : Prop :=
  ∃ t ∈ s.w.sec.tensors, t.valid = true ∧ ¬ (t.world = wd ∧ t.index = q.index) ∧ q.base < t.base + t.size ∧ t.base < q.base + q.size

/-- What a key request leaves and answers (R110, R295). -/
def Keyed' (s t : State) (wd : Nat) (o : KeyAct) (q : KeyReq) (st : Word) : Prop :=
  let same := ∀ i, tensorOf t wd i = tensorOf s wd i
  let others := ∀ v i, (v, i) ≠ (wd, q.index) → tensorOf t v i = tensorOf s v i
  let e := tensorOf s wd q.index
  if wd = 0 ∨ q.reserved = true then st = 1 ∧ same
  else if o ≠ .newkey ∧ 4095 < q.index then st = 2 ∧ same
  else match o with
    | .set =>
      ((wd, q.kref) ∉ s.w.sec.store ∨ Overlaps s wd q → st = 1 ∧ same) ∧
      ((wd, q.kref) ∈ s.w.sec.store → ¬ Overlaps s wd q → st = 0 ∧ others ∧
        tensorOf t wd q.index = ⟨wd, q.index, q.tid, 0, q.kref, q.base, q.size, true⟩)
    | .bump => st = 0 ∧ others ∧ tensorOf t wd q.index = { e with world := wd, index := q.index, ver := (e.ver + 1) % 2 ^ 32 }
    | .clear => st = 0 ∧ others ∧ tensorOf t wd q.index = { e with world := wd, index := q.index, valid := false }
    | .newkey => st.toNat % 2 ^ 16 = 0 ∧ same ∧ (wd, st.toNat / 2 ^ 16) ∈ t.w.sec.store

/-- The privileged instructions of 0x3A to 0x3F with their heads (R290). -/
def privRow : Instr → Option Hd
  | .tlbinvPage h _ _ | .tlbinvAsid h _ | .tlbinvCtx h _ | .ctxfl h _ _ | .haltbHalt h _ _ _ | .haltbRelease h _ _ _
  | .engrst h _ _ _ | .keyopSet h _ _ | .keyopBump h _ _ | .keyopClear h _ _ | .keyopNewkey h _ _ | .svcall h _ _ _ => some h
  | _ => none

/-- The target of a halt contains the issuer (R174, R293). -/
def OwnTarget (s : State) (x : Sel) : Instr → Prop
  | .haltbHalt _ _ a launch => ∃ t, course? s.w (getS x.c a.val).toNat = some t ∧ t.id.part = x.c.id.part ∧
      if launch then t.id.launch = x.c.id.launch else t.id.consort = x.c.id.consort
  | _ => False

/-- A privileged instruction's checks pass and it runs (R290). -/
structure Privileged (s : State) (x : Sel) (h : Hd) (u : Uses) : Prop where
  issues : Issues s x
  clear : Clear s x (uniUses h u) x.x
  quiet : Quiet s x h.sw
  guard : guardOn x.c h = true
  priv : x.c.id.priv = true

/-- The status of a privileged instruction in its register, the lanes of X past it (R290). -/
structure Stated (t : State) (x : Sel) (c' : Course) (d : R64) (st : Nat) : Prop where
  here : course? t.w x.c.id.cid = some c'
  status : (getS c' d.val).toNat = st
  others : ∀ r, r < 64 → r ≠ d.val → getS c' r = getS x.c r
  ahead : Advanced x c' 4

/-- The course that a register names, in the issuer's partition. -/
def Names (s : State) (x : Sel) (a : R64) (t : Course) : Prop :=
  course? s.w (getS x.c a.val).toNat = some t ∧ t.id.part = x.c.id.part

/-- No course of the issuer's partition has the CID in a register. -/
def NamesNone (s : State) (x : Sel) (a : R64) : Prop :=
  ∀ t, course? s.w (getS x.c a.val).toNat = some t → t.id.part ≠ x.c.id.part

/-- The consorts of a target: that of a course, or the placed ones of its launch (R293). -/
def Target (s : State) (t : Course) (launch : Bool) (kc : Nat) : Prop :=
  if launch then ∃ k, (kc, k) ∈ s.w.consorts ∧ k.launch = t.id.launch ∧ k.st = .placed else kc = t.id.consort

end Sys2Proof.Claims

/-- R44, R45, R302: DSET.D writes the descriptor register from eight S registers; while an operation of the course uses the register
the course stalls and nothing else changes. -/
def Sys2Proof.Claims.DescriptorSetHold : Prop :=
  ∀ h n b s x, Issues s x →
    Clear s x (uniUses h { Uses.none with s := (List.range 8).map ((b : R64).val + ·) }) x.x → guardOn x.c h = true →
    (Unused s x.c (n : Fin 16).val → Quiet s x h.sw →
      ∃ t c', exec (.dsetD h n b) s = .next t ∧ Ran s t x c' ∧ Still s t ∧ t.w.flights = s.w.flights ∧ Advanced x c' 4 ∧
        Keeps { x.c with r := { x.c.r with d := c'.r.d } } c' [] [] [] [] ∧ FlagsKept x.c c' ∧
        IsRun x.c b 8 (getD256 c' n.val).toNat ∧ ∀ i, i < 16 → i ≠ n.val → getD256 c' i = getD256 x.c i) ∧
    (¬ Unused s x.c n.val →
      Stands s x (uniUses h { Uses.none with s := (List.range 8).map (b.val + ·) }) h.sw →
      ∃ t, exec (.dsetD h n b) s = .next t ∧ (∀ a, t.mem.rd a = s.mem.rd a) ∧
        t.w = { s.w with courses := t.w.courses } ∧ (∀ m, m ≠ x.c.id.cid → course? t.w m = course? s.w m) ∧
        course? t.w x.c.id.cid = some { x.c with k := { x.c.k with stall := some (.panel n.val) } })

/-- R46 to R48, R302: DSET.A writes a region handle that lies in another's region, its upper fields zero, and stalls while either handle
is busy; DSET.TL writes the handle of an allotted counter. Values outside these raise ILLOP, a counter outside the allotment SEGLIM. -/
def Sys2Proof.Claims.HandleSetHold : Prop :=
  (∀ h n b f s x k, Issues s x → consortIs s x.c k → guardOn x.c h = true →
    let new := BitVec.ofNat 128 (getS2 x.c (b : R64).val % 2 ^ 58)
    (Clear s x (uniUses h { Uses.none with s := [b.val, b.val + 1], sect := [(sectA (f : Fin 16).val, f.val)] }) x.x →
      Quiet s x h.sw → Derives k new (getA x.c f.val) → (getA x.c (n : Fin 16).val).getLsbD 58 = false →
      (getA x.c f.val).getLsbD 58 = false →
      ∃ t c', exec (.dsetA h n b f) s = .next t ∧ Ran s t x c' ∧ Still s t ∧ t.w.flights = s.w.flights ∧ Advanced x c' 4 ∧
        Keeps { x.c with r := { x.c.r with a := c'.r.a } } c' [] [] [] [] ∧ FlagsKept x.c c' ∧
        ∀ i, i < 16 → getA c' i = if i = n.val then new else getA x.c i) ∧
    (Clear s x (uniUses h { Uses.none with s := [b.val, b.val + 1], sect := [(sectA f.val, f.val)] }) x.x →
      Stands s x (uniUses h { Uses.none with s := [b.val, b.val + 1], sect := [(sectA f.val, f.val)] }) h.sw →
      Derives k new (getA x.c f.val) → (getA x.c n.val).getLsbD 58 = true ∨ (getA x.c f.val).getLsbD 58 = true →
      ∃ t a, exec (.dsetA h n b f) s = .next t ∧ (∀ a, t.mem.rd a = s.mem.rd a) ∧ t.w = { s.w with courses := t.w.courses } ∧
        (∀ m, m ≠ x.c.id.cid → course? t.w m = course? s.w m) ∧ (a = n.val ∨ a = f.val) ∧ (getA x.c a).getLsbD 58 = true ∧
        course? t.w x.c.id.cid = some { x.c with k := { x.c.k with stall := some (.handle a) } }) ∧
    (Keyed s → ¬ Derives k new (getA x.c f.val) →
      ∃ t, exec (.dsetA h n b f) s = .next t ∧ Faulted s t x x.c 0x01 (faultsOf x.c 0x01 x.x fun _ => pc48 x))) ∧
  ∀ h n b s x k, Issues s x → consortIs s x.c k → guardOn x.c h = true →
    let v := getS2 x.c (b : R64).val
    (Clear s x (uniUses h { Uses.none with s := [b.val, b.val + 1], sect := [(sectStatus, 6)] }) x.x → Quiet s x h.sw →
      Allotted x.c k v →
      ∃ t c', exec (.dsetTl h n b) s = .next t ∧ Ran s t x c' ∧ Still s t ∧ t.w.flights = s.w.flights ∧ Advanced x c' 4 ∧
        Keeps { x.c with r := { x.c.r with tl := c'.r.tl } } c' [] [] [] [] ∧ FlagsKept x.c c' ∧
        ∀ i, i < 4 → (getTL c' i).toNat = if i = (n : Fin 4).val then v else (getTL x.c i).toNat) ∧
    (Keyed s → 2 ^ 11 ≤ v →
      ∃ t, exec (.dsetTl h n b) s = .next t ∧ Faulted s t x x.c 0x01 (faultsOf x.c 0x01 x.x fun _ => pc48 x)) ∧
    (Keyed s → Stands s x Uses.none h.sw → v < 2 ^ 11 → ¬ Allotted x.c k v →
      ∃ t va, exec (.dsetTl h n b) s = .next t ∧ Faulted s t x x.c 0x04 (faultsOf x.c 0x04 x.x fun _ => va))

/-- R47, R48, R161, R298, R303 to R312: an engine instruction whose checks pass takes the next number of its counter and hands its
operation to the engine; the course goes on. TLSIG's number is pending when others stand before it. -/
def Sys2Proof.Claims.EngineIssueHold : Prop :=
  ∀ i s x h e k, engRow x.c i = some (h, e) → Issues s x → Clear s x (uniUses h (e.uses x.c)) x.x → Quiet s x h.sw →
    guardOn x.c h = true → Accepts s x e k → i.wf = true →
    (e.kind = .tlsig → Pending' s x e) →
    ∃ t c' n, exec i s = .next t ∧ Ran { s with w := { s.w with cores := t.w.cores } } t x c' ∧ Took s t x k c' e n ∧
      FlagsKept x.c c' ∧ Advanced x c' 4 ∧ (∀ b, t.mem.rd b = s.mem.rd b) ∧ t.w.flights = s.w.flights

/-- R122, R161, R312: a TLSIG, or a copy without lines, on a counter whose numbers are all done is done at once, with status 0; a
COPYM's muted destinations are skipped all the same, with status 0x21 (R123, R309). -/
def Sys2Proof.Claims.TimelineSignalHold : Prop :=
  ∀ i s x h e k c, engRow x.c i = some (h, e) → (e.kind = .tlsig ∨ e.kind.isCopy = true) → i.wf = true → Issues s x →
    Clear s x (uniUses h (e.uses x.c)) x.x → Quiet s x h.sw → guardOn x.c h = true →
    Accepts s x { e with kind := .tlsig } k → engineOk s.w x.c e.kind = true →
    (e.kind.isCopy = true → ∀ d ∈ e.ds x.c, copyLines (parsePanel (getD256 x.c d)) = 0) →
    c = tlOf s x.c e.tl → c.done = c.issued →
    c.marked = [] → pendingSigs s.w (tlAt s x.c e.tl).1 (tlAt s x.c e.tl).2 = [] → Keyed s →
    ∃ t c' v, exec i s = .next t ∧ course? t.w x.c.id.cid = some c' ∧ getS c' e.sd = c.issued + 1 ∧ Advanced x c' 4 ∧
      let p := tlAt s x.c e.tl
      (tlc t.w p.1 p.2).issued = c.issued + 1 ∧ (tlc t.w p.1 p.2).done = c.issued + 1 ∧
      (c.issued + 1, v) ∈ (tlc t.w p.1 p.2).stat ∧ v.toNat % 2 ^ 16 = (if v.toNat / 2 ^ 16 = 0 then 0 else 0x21) ∧
      ∀ i, v.toNat.testBit (16 + i) = true ↔ e.kind = .copym ∧ Skips s x.c k e i

/-- R45 to R48, R78, R298: an engine instruction with a TL handle that is not valid, a region or a descriptor that is not legal, or a
failing check of its own raises ILLOP; one whose panel leaves its segment raises SEGLIM, its VA the panel's CSEL and BASE (the model's
choice, log entry 43). -/
def Sys2Proof.Claims.EngineTrapsHold : Prop :=
  ∀ i s x h e k, engRow x.c i = some (h, e) → Issues s x → guardOn x.c h = true → consortIs s x.c k → Keyed s →
    let legal := (getTL x.c e.tl).getLsbD 10 = true ∧
      (∀ a, e.ah = some a → regionOk k.cores.length k.accN (regionOf (getA x.c a)) = true) ∧
      (∀ d ∈ e.ds x.c, panelBad (getD256 x.c d) = false) ∧ e.check x.c k = false
    (¬ legal → ∃ t, exec i s = .next t ∧ Faulted s t x x.c 0x01 (faultsOf x.c 0x01 x.x fun _ => pc48 x)) ∧
    (legal → Stands s x Uses.none h.sw → ∀ d, d ∈ e.ds x.c → panelSeg x.c k (getD256 x.c d) = false →
      (∀ d' ∈ e.ds x.c, panelSeg x.c k (getD256 x.c d') = false → d' = d) →
      ∃ t, exec i s = .next t ∧ Faulted s t x x.c 0x04 (faultsOf x.c 0x04 x.x fun _ =>
        (getD256 x.c d).toNat / 2 ^ 24 % 4 * 2 ^ 21 + (getD256 x.c d).toNat % 2 ^ 24))

/-- R47, R161: an instruction whose A handle is busy, or whose counter has 256 numbers outstanding, stalls its course and changes
nothing else. -/
def Sys2Proof.Claims.EngineStallsHold : Prop :=
  ∀ i s x h e k, engRow x.c i = some (h, e) → Issues s x → Clear s x (uniUses h (e.uses x.c)) x.x → guardOn x.c h = true →
    consortIs s x.c k → e.ill x.c k = false → e.segOk x.c k = true → Stands s x (uniUses h (e.uses x.c)) h.sw →
    CounterNear s x.c e.tl →
    let full := 256 ≤ ((tlOf s x.c e.tl).issued - (tlOf s x.c e.tl).done).toNat
    let stalls := fun y => ∃ t, exec i s = .next t ∧ (∀ a, t.mem.rd a = s.mem.rd a) ∧ t.w = { s.w with courses := t.w.courses } ∧
      (∀ m, m ≠ x.c.id.cid → course? t.w m = course? s.w m) ∧
      course? t.w x.c.id.cid = some { x.c with k := { x.c.k with stall := some y } }
    (∀ a, e.ah = some a → (getA x.c a).getLsbD 58 = true → stalls (.handle a)) ∧
    ((∀ a, e.ah = some a → (getA x.c a).getLsbD 58 = false) → full → stalls (.counter (tlAt s x.c e.tl).1 (tlAt s x.c e.tl).2))

/-- R56, R165, R174, R290, R293: a privileged instruction raises PRIVOP in an unprivileged course; a halt whose target contains the
issuer raises ILLOP first. -/
def Sys2Proof.Claims.PrivilegedTrapsHold : Prop :=
  ∀ i h, privRow i = some h → ∀ s x, Issues s x → guardOn x.c h = true → x.c.w.used ≤ 16 → Keyed s →
    (OwnTarget s x i → ∃ t, exec i s = .next t ∧ Faulted s t x x.c 0x01 (faultsOf x.c 0x01 x.x fun _ => pc48 x)) ∧
    (¬ OwnTarget s x i → x.c.id.priv = false →
      ∃ t, exec i s = .next t ∧ Faulted s t x x.c 0x02 (faultsOf x.c 0x02 x.x fun _ => pc48 x))

/-- Where system and engine instructions trap or wait, the claims named here together. -/
def Obligations.UniformTraps : Prop :=
  Sys2Proof.Claims.SystemRegisterTrapsHold ∧ Sys2Proof.Claims.PrivilegedTrapsHold ∧ Sys2Proof.Claims.EngineTrapsHold ∧ Sys2Proof.Claims.EngineStallsHold

/-- A field of a number: n bits from bit lo. -/
def Sys2Proof.Claims.bitsOf (v lo n : Nat) : Nat := v / 2 ^ lo % 2 ^ n

/-- The MMA operand pairs of R34, by FMT code: the narrow floats and L6, and unscaled BF16, FP16 and INT8. -/
def Sys2Proof.Claims.MmaPair (fa fb : Nat) (ns : Bool) : Prop :=
  ((fa = 3 ∨ fa = 4) ∧ (fb = 3 ∨ fb = 4)) ∨ (fa = 6 ∧ fb = 6) ∨ (ns = true ∧ fa = fb ∧ (fa = 1 ∨ fa = 2 ∨ fa = 5))

/-- A region of a handle is legal in a consort of w cores with N rows a quadrant (R46, R86). -/
def Sys2Proof.Claims.LegalRegion (w n : Nat) (h : Nat) : Prop :=
  let row := bitsOf h 0 16
  let col := bitsOf h 16 16
  let rows := bitsOf h 32 12
  let cols := bitsOf h 44 12
  let scope := bitsOf h 56 2
  rows ≠ 0 ∧ cols ≠ 0 ∧ rows % 64 = 0 ∧ cols % 64 = 0 ∧ row % 64 = 0 ∧ col % 64 = 0 ∧ row + rows ≤ w * n ∧ col + cols ≤ 1024 ∧
  (scope ≤ 1 → ∃ i, i * n ≤ row ∧ row + rows ≤ (i + 1) * n) ∧ (scope = 0 → ∃ j, j * 256 ≤ col ∧ col + cols ≤ (j + 1) * 256) ∧
  scope ≠ 3

/-- The extent of a line of n elements (R78). -/
def Sys2Proof.Claims.lineBytes' (fmt n : Nat) : Nat :=
  if fmt = 6 then 3 * ((n + 3) / 4) else if fmt = 0 ∨ fmt = 7 then 4 * n else if fmt = 1 ∨ fmt = 2 then 2 * n else n

/-- The bytes of a panel from BASE to the end of its last line (R44, R78). -/
def Sys2Proof.Claims.panelBytes (d : Nat) : Nat :=
  let lines := if bitsOf d 132 1 = 1 then bitsOf d 80 16 else bitsOf d 64 16
  let per := if bitsOf d 132 1 = 1 then bitsOf d 64 16 else bitsOf d 80 16
  (lines - 1) * bitsOf d 32 20 + lineBytes' (bitsOf d 128 4) per

/-- R34, R44 to R46, R78, R86, R89, R303, R307 to R309: the ILLOP and SEGLIM checks of engine instructions, field by field.
That a panel must also end in the consort's scratch window is the model's choice (log entry 43). -/
def Sys2Proof.Claims.EngineChecksHold : Prop :=
  (∀ d : BitVec 256, panelBad d = true ↔ let f := bitsOf d.toNat
    f 64 16 = 0 ∨ f 80 16 = 0 ∨ f 64 16 < f 96 16 ∨ f 80 16 < f 112 16 ∨ 8 ≤ f 128 4 ∨ f 32 20 % 16 ≠ 0 ∨ f 0 24 % 16 ≠ 0 ∨
    f 29 3 ≠ 0 ∨ f 52 12 ≠ 0 ∨ f 133 123 ≠ 0) ∧
  (∀ c k (d : BitVec 256), panelSeg c k d = true ↔ let f := bitsOf d.toNat
    f 24 2 < k.cores.length ∧ f 0 24 + panelBytes d.toNat ≤ slotScrLim c (f 26 3) ∧
    slotScrBase c (f 26 3) + f 0 24 + panelBytes d.toNat ≤ k.win) ∧
  (∀ w n (h : BitVec 128), regionOk w n (regionOf h) = true ↔ LegalRegion w n h.toNat) ∧
  (∀ ns da db sd c (k : Consort), let a := bitsOf (getD256 c da).toNat
    let b := bitsOf (getD256 c db).toNat
    let x := bitsOf (getS c (sd + 32)).toNat
    let groups := (max (a 112 16) (b 96 16) + 15) / 16
    mmaCheck ns da db sd c k = true ↔ ¬ MmaPair (a 128 4) (b 128 4) ns ∨
      (ns = false ∧ (k.accN / 4 < x 0 16 + groups ∨ k.accN / 4 < x 16 16 + groups))) ∧
  (∀ col d dp c (k : Consort), let p := bitsOf (getD256 c dp).toNat
    let x := bitsOf (getS c (d + 32)).toNat
    scldCheck col d dp c k = true ↔ p 128 4 ≠ 5 ∨ x 20 4 = 0 ∨ k.cores.length ≤ x 18 2 ∨ x 24 8 ≠ 0 ∨
      if col then k.accN / 4 < x 0 9 + p 64 16 ∨ 256 < x 9 9 + p 80 16
      else k.accN / 4 < x 0 9 + p 80 16 ∨ 512 < x 9 9 + p 64 16) ∧
  (∀ r d dp c (k : Consort), let x := bitsOf (getS c (d + 32)).toNat
    let dq := x 0 4
    let p := bitsOf (getD256 c dp).toNat
    let q := bitsOf (getD256 c dq).toNat
    panelBad (getD256 c dp) = false → panelBad (getD256 c dq) = false →
    (pswzCheck r d dp c k = true ↔ x 4 28 ≠ 0 ∨ (q 128 4 = 6 ∧ r ≠ .rne) ∨ (p 24 2 = q 24 2 ∧
      ∃ o, slotScrBase c (p 26 3) + p 0 24 ≤ o ∧ o < slotScrBase c (p 26 3) + p 0 24 + panelBytes (getD256 c dp).toNat ∧
        slotScrBase c (q 26 3) + q 0 24 ≤ o ∧ o < slotScrBase c (q 26 3) + q 0 24 + panelBytes (getD256 c dq).toNat))) ∧
  ∀ multi d c (k : Consort), let x := bitsOf (getS c (d + 32)).toNat
    copyCheck multi d c k = true ↔ x 28 4 ≠ 0 ∨
      if multi then (∀ i, i < 4 → x (24 + i) 1 = 0) ∨ ∃ i, k.cores.length ≤ i ∧ i < 4 ∧ x (24 + i) 1 = 1
      else x 24 4 ≠ 0

/-- DSET writes descriptors, handles and timelines, the claims named here together. -/
def Obligations.Descriptors : Prop :=
  Sys2Proof.Claims.DescriptorSetHold ∧ Sys2Proof.Claims.HandleSetHold ∧ Sys2Proof.Claims.EngineChecksHold

/-- R104, R291: TLBINV.PAGE and TLBINV.ASID remove the entries of the partition that the selector names and no other entry. That the
invalidation is complete at once, and that every host entry of the ASID goes whatever the page, is the model's choice (log entry 24). -/
def Sys2Proof.Claims.TlbInvalidationHold : Prop :=
  ∀ i h u (asid : Course → Nat) (hit : Course → TlbEnt → Prop), i.wf = true →
    ((∃ a b, i = .tlbinvPage h a b ∧ u = { Uses.none with s := [a.val, a.val + 1, b.val] } ∧
        asid = (fun c => (getS c b.val).toNat % 2 ^ 16) ∧ hit = fun c t => t.asid = (getS c b.val).toNat % 2 ^ 16 ∧ t.base1 ≤ getS2 c a.val ∧ getS2 c a.val < t.base1 + t.size1) ∨
      (∃ b, i = .tlbinvAsid h b ∧ u = { Uses.none with s := [b.val] } ∧
        asid = (fun c => (getS c b.val).toNat % 2 ^ 16) ∧ hit = fun c t => t.asid = (getS c b.val).toNat % 2 ^ 16)) →
    ∀ s x, Privileged s x h u →
    ∃ t c', exec i s = .next t ∧ Ran s t x c' ∧ Keeps x.c c' [] [] [] [] ∧ FlagsKept x.c c' ∧ Advanced x c' 4 ∧
      (∀ a, t.mem.rd a = s.mem.rd a) ∧
      t.w = { s.w with courses := t.w.courses, cores := t.w.cores, tlb := t.w.tlb, ats := t.w.ats } ∧
      (∀ e, e ∈ t.w.tlb ↔ e ∈ s.w.tlb ∧ ¬ (e.part = x.c.id.part ∧ hit x.c e)) ∧
      ∀ q, q ∈ t.w.ats ↔ q ∈ s.w.ats ∧ ¬ (q.part = x.c.id.part ∧ q.asid = asid x.c)

/-- R104, R106, R291: TLBINV.CTX removes the entries of the partition's context ASID whose page holds the address; at once, and with
every host entry of that ASID, the model's choice (log entry 24). -/
def Sys2Proof.Claims.ContextInvalidationHold : Prop :=
  ∀ h a s x, Privileged s x h { Uses.none with s := [(a : R64).val, a.val + 1] } →
    ∃ t c', exec (.tlbinvCtx h a) s = .next t ∧ Ran s t x c' ∧ Keeps x.c c' [] [] [] [] ∧ FlagsKept x.c c' ∧ Advanced x c' 4 ∧
      (∀ b, t.mem.rd b = s.mem.rd b) ∧ t.w = { s.w with courses := t.w.courses, cores := t.w.cores, tlb := t.w.tlb, ats := t.w.ats } ∧
      (∀ q, q ∈ t.w.ats ↔ q ∈ s.w.ats ∧ ¬ (q.part = x.c.id.part ∧ q.asid = (part s.w x.c.id.part).cAsid)) ∧
      ∀ e, e ∈ t.w.tlb ↔ e ∈ s.w.tlb ∧ ¬ (e.part = x.c.id.part ∧ e.asid = (part s.w x.c.id.part).cAsid ∧
        e.base1 ≤ getS2 x.c a.val ∧ getS2 x.c a.val < e.base1 + e.size1)

/-- R72, R195, R292: CTXFL answers 1 for a CID of no course of the partition, 2 for a resident course, 3 for a course of another
confidential world, with nothing done; else 0, and the course, its registers and its queue stand as they were with no line left
in the cache when it had none to spill. That 2 comes before 3 is the model's choice (log entry 40). -/
def Sys2Proof.Claims.ContextFlushHold : Prop :=
  ∀ h d a s x, Privileged s x h { Uses.none with s := [(a : R64).val] } → Keyed s →
    ∃ t c' st, exec (.ctxfl h d a) s = .next t ∧ Stated t x c' (d : R64) st ∧
      (NamesNone s x a → st = 1 ∧ Still s t) ∧
      ∀ u, Names s x a u →
        (u.k.at_ = .resident → st = 2 ∧ Still s t) ∧
        (u.k.at_ ≠ .resident → slotWorld u 0 ≠ 0 → slotWorld u 0 ≠ slotWorld x.c 0 → st = 3 ∧ Still s t) ∧
        (u.k.at_ ≠ .resident → slotWorld u 0 = 0 ∨ slotWorld u 0 = slotWorld x.c 0 → u.v.lines = [] →
          u.k.at_ = .parked → u.k.join ≠ 0 →
          st = 0 ∧ ∃ u', course? t.w u.id.cid = some u' ∧ u'.id = u.id ∧ u'.r = u.r ∧ u'.k.at_ = .parked ∧ u'.k.join = u.k.join ∧
            u'.v = { u.v with held := false, flushed := false })

/-- TLBINV and CTXFL, the claims named here together. -/
def Obligations.Invalidations : Prop :=
  Sys2Proof.Claims.TlbInvalidationHold ∧ Sys2Proof.Claims.ContextInvalidationHold ∧ Sys2Proof.Claims.ContextFlushHold

/-- R174, R175, R293: after a halt no course of the target is resident or ready, and its consorts are halted; the status says whether
a barrier record could not be written. A release returns halted records to the ready queues. -/
def Sys2Proof.Claims.HaltsHold : Prop :=
  ∀ h d a launch s x, Privileged s x h { Uses.none with s := [(a : R64).val] } → Keyed s →
    (∃ t c' st, (¬ OwnTarget s x (.haltbHalt h d a launch) → exec (.haltbHalt h d a launch) s = .next t ∧
      Stated t x c' (d : R64) st ∧ (NamesNone s x a → st = 1 ∧ Still s t) ∧
      ∀ u, Names s x a u → (st = 0 ∨ st = 3) ∧ ∀ kc k, Target s u launch kc → consort? s.w kc = some k → k.haltb = false →
        (∃ k', consort? t.w kc = some k' ∧ k'.haltb = true) ∧
        ∀ m v, course? t.w m = some v → v.id.consort = kc → v.k.at_ ≠ .resident ∧ v.k.at_ ≠ .ready)) ∧
    ∃ t c' st, exec (.haltbRelease h d a launch) s = .next t ∧ Stated t x c' d st ∧ (NamesNone s x a → st = 1 ∧ Still s t) ∧
      ∀ u, Names s x a u → (st = 0 ∨ st = 2) ∧ ∀ kc k, Target s u launch kc → consort? s.w kc = some k → k.haltb = true →
        (∃ k', consort? t.w kc = some k' ∧ k'.haltb = false) ∧
        ∀ m v, m ≠ x.c.id.cid → course? s.w m = some v → v.id.consort = kc → v.k.at_ = .halted → hasPend v = false →
          (∀ cx, cx = (part s.w v.id.part).ctxs → cx.count ≤ 1 ∨ cx.cur = v.id.ctx ∨ v.id.pinned = true) →
          st = 0 ∧ ∃ v', course? t.w m = some v' ∧ v'.k.at_ = .ready

/-- R14, R173, R177, R294: ENGRST of a present core of the partition answers 0, its engine has no operation left and takes new ones, the
output block of a sequencer's next step is poisoned, and the reset stands reported in the partition's fault queue; of another core it
answers 1 and does nothing. That a sequencer with an operation has a step in progress, that next one, is the model's choice (log entry
65); so is the form of the report (log entry 6). -/
def Sys2Proof.Claims.EngineResetHold : Prop :=
  ∀ h d a g s x, Privileged s x h { Uses.none with s := [(a : R64).val] } → Keyed s →
    (s.w.ops.map (·.1)).Pairwise (· < ·) →
    let l := (getS x.c a.val).toNat
    let en := lptAt s.w l
    let present := l < 72 ∧ en.getLsbD 18 = true ∧ en.getLsbD 16 = false ∧
      (part s.w x.c.id.part).cores.getLsbD (en.toNat % 128) = true
    ∃ t c', exec (.engrst h d a g) s = .next t ∧
      (¬ present → Stated t x c' (d : R64) 1 ∧ Still s t) ∧
      (present → Stated t x c' d 0 ∧
        (∃ q, (q ∈ (part t.w x.c.id.part).fq.pending ∨ q ∈ (part t.w x.c.id.part).fq.held) ∧ q.e.cid = 2 ^ 32 - 1 ∧
          q.e.part = x.c.id.part) ∧
        (∀ p ∈ t.w.ops, ¬ RunsOn p.2 (en.toNat % 128) (g : Fin 7).val) ∧
        (g.val < 4 → (quad t.w (4 * (en.toNat % 128) + g.val)).chiselOk = true ∧
          ∀ b, stepBlock s.w (en.toNat % 128) g.val = some b → isPois t.w b.key = true) ∧
        (g.val = 4 → (Sys2Proof.Machine.core t.w (en.toNat % 128)).copyOk = true) ∧
        (g.val = 5 → (Sys2Proof.Machine.core t.w (en.toNat % 128)).collOk = true) ∧
        (g.val = 6 → (Sys2Proof.Machine.core t.w (en.toNat % 128)).actOk = true))

/-- Halts and engine resets, the claims named here together. -/
def Obligations.HaltsAndResets : Prop :=
  Sys2Proof.Claims.HaltsHold ∧ Sys2Proof.Claims.EngineResetHold

/-- R110, R295: KEYOP reads its block as a uniform read, and the tensor table, the key store and the status are what the request
makes them. The order of the statuses is the model's choice (log entry 40), and so are SET's ranges off alignment, its TID 0 and the key
slots that NEWKEY takes (log entry 64). -/
def Sys2Proof.Claims.KeyRequestsHold : Prop :=
  ∀ i h d a o, keyRow i = some (h, d, a, o) → ∀ s x ls q, Privileged s x h { Uses.none with s := [a.val, a.val + 1] } →
    OneOwner x.c → UniPerforms s x .read 64 (getS2 x.c a.val) (lowSlot x) ls →
    let wd := slotWorld x.c (lowSlot x)
    KeyBlock (rdPlaces s.env s.w wd ls) q →
    ∃ t c', exec i s = .next t ∧ Ran s t x c' ∧ Keeps x.c c' [] [d.val] [] [] ∧ FlagsKept x.c c' ∧ Advanced x c' 4 ∧
      (∀ b, t.mem.rd b = s.mem.rd b) ∧ t.w.flights = s.w.flights ∧ Keyed' s t wd o q (getS c' d.val)

/-- R130, R131, R134, R296: SVCALL answers 2 for a slot that is not valid and sends nothing, 1 for a message that the arming table
rejects, 0 for one that it accepts; an accepted message of a pooled entry stands in the entry's pool. -/
def Sys2Proof.Claims.ServiceCallsHold : Prop :=
  ∀ h d a n s x, Privileged s x h { Uses.none with s := [(a : R64).val, a.val + 1, a.val + 2, a.val + 3], sect := slotSects (n : R8).val [0] } →
    (a : R64).val % 4 = 0 →
    let p := x.c.id.part
    let lanes := (getS x.c (a.val + 2)).toNat / 2 ^ 16 % 64
    let tag := (getS x.c (a.val + 2)).toNat % 2 ^ 12
    let hi := (getS x.c (a.val + 2)).toNat / 2 ^ 22 + (getS x.c (a.val + 3)).toNat * 2 ^ 10
    let vpay := getS2 x.c a.val
    let bad := lanes = 0 ∨ 32 < lanes ∨ hi ≠ 0 ∨ (getS x.c (a.val + 2)).toNat / 2 ^ 12 % 16 ≠ 0 ∨ 2 ^ 48 ≤ vpay ∨
      (part s.w p).configured = false
    ∃ t c' st, exec (.svcall h d a n) s = .next t ∧ Stated t x c' (d : R64) st ∧
      (slotValid x.c (n : R8).val = false → st = 2 ∧ Still s t) ∧
      (slotValid x.c n.val = true → (bad → st = 1) ∧
        (¬ bad → (armingAt s.env s.w p tag = none → st = 1) ∧
          ∀ e, armingAt s.env s.w p tag = some e →
            ((e.valid = false ∨ e.ver ≠ verOf s.w p 3) → st = 1) ∧
            (e.valid = true → e.ver = verOf s.w p 3 → e.ver ≠ 0 → e.pooled = false → st = 0) ∧
            (e.valid = true → e.ver = verOf s.w p 3 → e.ver ≠ 0 → e.pooled = true → pooledOk s.env s.w p (slotWorld x.c n.val) e = true →
              tGet? (part s.w p).pools tag = none → lanes < 32 →
              st = 0 ∧ ∃ q, tGet? (part t.w p).pools tag = some q ∧ q.filled = lanes ∧
                q.owners = [⟨slotAsid x.c n.val, slotWorld x.c n.val, slotPrio x.c n.val, BitVec.ofNat 64 vpay, lanes⟩])))

/-- KEYOP and SVCALL, the claims named here together. -/
def Obligations.KeysAndServices : Prop :=
  Sys2Proof.Claims.KeyRequestsHold ∧ Sys2Proof.Claims.ServiceCallsHold

namespace Sys2Proof.Claims

open Sys2Proof.Machine

/-! ## The fault queue (R55, R148 to R150) -/

/-- n bytes of a list from an offset, little-endian. -/
def field (b : List Byte) (off n : Nat) : Nat := leNat ((b.drop off).take n)

/-- The fields of an entry have the widths of R148. -/
structure EntryFits (x : Entry) : Prop where
  cause : x.cause < 2 ^ 8
  merge : x.merge < 2 ^ 8
  slotf : x.slotf < 2 ^ 16
  va : x.va < 2 ^ 64
  asid : x.asid < 2 ^ 16
  world : x.world < 2 ^ 8
  part : x.part < 2 ^ 8
  cid : x.cid < 2 ^ 32
  pc : x.pc < 2 ^ 32
  atype : x.atype < 2 ^ 8
  size : x.size < 2 ^ 16

/-- The ring of a partition's queue takes another entry: it is not full, and an entry version is negotiated (R16, R148, R149, R199; that
faults wait for the version is the model's choice, log entry 63). -/
def Room (pt : Part) : Prop :=
  pt.fq.size.toNat ≠ 0 ∧ (pt.fq.tail.toNat + 1) % pt.fq.size.toNat ≠ pt.fq.head.toNat ∧ nth pt.veract 2 0 ≠ 0

/-- What one TKSERVE adds to the fault-notify dispenser of a partition: nothing where none is configured, or where its slice is muted
(R149, R162). -/
def Notifies (s : State) (p : Nat) : Nat :=
  if (part s.w p).configured = true ∧ (part s.w p).disp / 256 ∉ s.w.hub.mutedSlices then 1 else 0

/-- Hub firmware writes n bytes of a partition's fault queue at an address, at the places ls: they can be reached, wait for no scrub,
and bear no encipherment (R101, R109, R156). -/
def HubWrites (s : State) (p va n : Nat) (ls : List (Loc × Nat × Nat)) : Prop :=
  ownPlaces s.w 72 p (fun a => translateOwn s.env s.w p 0 (part s.w p).rAsid a .write true) va n = .ok ls ∧
  placesScrub s.w ls = none ∧ SameTag s.w 0 ls ∧ (placeKeys ls).Nodup

/-- A fault merges into a pending entry (R149): a translation fault or a context fault of a course, with cause, ASID, page and kind
(engine operand or not, the model's choice, log entry 54) alike, into an entry of a course that has not been served. -/
def Merges (x : Entry) (y : Pending) : Prop :=
  y.served = false ∧ y.e.cid ≠ 2 ^ 32 - 1 ∧ 0x10 ≤ x.cause ∧ x.cause ≤ 0x17 ∧ y.e.cause = x.cause ∧ y.e.asid = x.asid ∧
  y.e.va / 4096 = x.va / 4096 ∧ (y.e.slotf.testBit 6 = x.slotf.testBit 6)

/-- A POISON entry of a slice merges into a pending one of a slice for the same sector (R149, R337). -/
def MergesSlice (x : Entry) (y : Pending) : Prop :=
  y.served = false ∧ x.cause = 0x20 ∧ x.atype = 4 ∧ y.e.cid = 2 ^ 32 - 1 ∧ y.e.cause = 0x20 ∧ y.e.atype = 4 ∧
  y.e.va / 32 = x.va / 32 ∧ y.e.part = x.part

/-- An entry merges into a pending one: of a course, or, with CID 0xFFFFFFFF, of a slice (R149, R337). -/
def Alike (x : Entry) (y : Pending) : Prop := if x.cid = 2 ^ 32 - 1 then MergesSlice x y else Merges x y

/-- FQSIZE values (R55). -/
def SizeOk (n : Nat) : Prop := n = 0 ∨ ∃ i, 1 ≤ i ∧ i ≤ 16 ∧ n = 2 ^ i

/-- Fault queue p of a state. -/
def fqOf (s : State) (p : Nat) : Fq := (part s.w p).fq

end Sys2Proof.Claims

/-- R148: the 32 bytes of a fault queue entry hold its fields at the table's offsets, little-endian. -/
def Sys2Proof.Claims.FaultEntryLayoutHold : Prop :=
  ∀ x : Entry, EntryFits x → let b := x.bytes
    b.length = 32 ∧ field b 0 1 = x.cause ∧ field b 1 1 = x.merge ∧ field b 2 2 = x.slotf ∧ field b 4 4 = x.lanes.toNat ∧
    field b 8 8 = x.va ∧ field b 16 2 = x.asid ∧ field b 18 1 = x.world ∧ field b 19 1 = x.part ∧ field b 20 4 = x.cid ∧
    field b 24 4 = x.pc ∧ field b 28 1 = x.atype ∧ field b 29 1 = 0 ∧ field b 30 2 = x.size

/-- R58, R60: the control area's bytes hold the registers at the table's offsets, and reading them back gives the registers. -/
def Sys2Proof.Claims.FrameLayoutHold : Prop :=
  ∀ c : Course, c.r.d.length = 16 → c.r.a.length = 16 → c.r.tl.length = 4 → let b := ctlBytes c
    b.length = 0x760 ∧ (∀ i, i < 64 → field b (4 * i) 4 = (getS c i).toNat) ∧ (∀ i, i < 8 → field b (0x100 + 4 * i) 4 = (getP c i).toNat) ∧
    (∀ j, j < 8 → (field b 0x120 1).testBit j = getQ c j) ∧ field b 0x121 1 = c.id.priv.toNat + 2 * c.id.mixed.toNat ∧
    field b 0x122 2 = c.id.tlallot.toNat ∧ field b 0x124 4 = c.id.cid % 2 ^ 32 ∧ field b 0x128 8 = c.r.status.toNat ∧
    field b 0x130 2 = c.id.cbase.toNat / 2 ^ 32 % 2 ^ 16 ∧ field b 0x132 1 = c.k.cause % 2 ^ 8 ∧ field b 0x133 1 = c.id.version % 2 ^ 8 ∧
    field b 0x134 2 = c.id.codeAsid % 2 ^ 16 ∧ field b 0x138 8 = c.id.csave % 2 ^ 64 ∧
    (∀ k, k < 32 → field b (0x180 + 4 * k) 4 = (lpc c k).toNat) ∧ field b 0x200 16 = c.id.ownv.toNat ∧
    field b 0x210 8 = c.v.resid.toNat ∧ field b 0x220 8 = c.w.dv.toNat ∧ field b 0x228 8 = c.w.ds.toNat ∧
    field b 0x230 8 = c.v.zmask.toNat ∧ (∀ i, i < 16 → field b (0x240 + 32 * i) 32 = (getD256 c i).toNat) ∧
    (∀ i, i < 16 → field b (0x440 + 16 * i) 16 = (getA c i).toNat) ∧ (∀ i, i < 4 → field b (0x540 + 8 * i) 8 = (getTL c i).toNat) ∧
    (∀ i, i < 8 → field b (0x560 + 64 * i) 64 = (slotBits c i).toNat) ∧
    ∀ d, Keeps c { ctlLoad b d with v := c.v } [] [] [] [] ∧ FlagsKept c (ctlLoad b d) ∧ ∀ k, k < 32 → lpc (ctlLoad b d) k = lpc c k

/-- The layouts of a fault queue entry and of a frame, the claims named here together. -/
def Obligations.Layouts : Prop :=
  Sys2Proof.Claims.FaultEntryLayoutHold ∧ Sys2Proof.Claims.FrameLayoutHold

/-- R148, R149: a fault that merges into no pending entry is written at FQTAIL of a ring with room, every other byte of memory
standing; it is pending, FQTAIL moves on, and the fault-notify dispenser of a configured partition is served. A ring without room
holds the fault, and so does a queue with no negotiated entry version (the model's choice, log entry 63). -/
def Sys2Proof.Claims.FaultDeliveryHold : Prop :=
  ∀ s p (x : Pending) ls, s.Inv → (∀ y ∈ (fqOf s p).pending, ¬ Alike x.e y) →
    let f := fqOf s p
    let t := commit (fun e w => deliver e w p x) s
    (Room (part s.w p) → f.held = [] → HubWrites s p (f.base.toNat + 32 * f.tail.toNat) 32 ls →
      (placeKeys ls).map t.mem.rd = x.e.bytes ∧ (∀ a, a ∉ placeKeys ls → t.mem.rd a = s.mem.rd a) ∧
      (fqOf t p).pending = f.pending ++ [x] ∧ (fqOf t p).held = [] ∧
      (fqOf t p).tail.toNat = (f.tail.toNat + 1) % f.size.toNat ∧ (fqOf t p).head = f.head ∧
      (disp t.w (part s.w p).disp).serving = (disp s.w (part s.w p).disp).serving + BitVec.ofNat 32 (Notifies s p)) ∧
    (¬ Room (part s.w p) → (fqOf t p).pending = f.pending ∧ (fqOf t p).held = f.held ++ [x] ∧ (fqOf t p).tail = f.tail ∧
      (disp t.w (part s.w p).disp).serving = (disp s.w (part s.w p).disp).serving)

/-- R149, R337: a fault merges into the first pending entry alike, a slice's POISON entry into one for its sector: MERGE rises to at most
255, the lanes of one course are joined, another course sets MULTI (bit 3 of SLOTF), and no entry is added and no dispenser served. That
the merge stands where the ring's bytes cannot be written is the model's choice (log entry 63). -/
def Sys2Proof.Claims.FaultMergingHold : Prop :=
  ∀ s p (x : Pending) i y, (fqOf s p).pending[i]? = some y → Alike x.e y →
    (∀ j z, j < i → (fqOf s p).pending[j]? = some z → ¬ Alike x.e z) →
    let f := fqOf s p
    let t := commit (fun e w => deliver e w p x) s
    ∃ z, (fqOf t p).pending = f.pending.set i z ∧ (fqOf t p).tail = f.tail ∧ (fqOf t p).held = f.held ∧ t.w.disps = s.w.disps ∧
      z.who = y.who ++ x.who ∧ z.e.merge = min 255 (y.e.merge + 1) ∧
      (y.e.cid = x.e.cid → z.e.lanes = y.e.lanes ||| x.e.lanes ∧ z.e.slotf = y.e.slotf) ∧
      (y.e.cid ≠ x.e.cid → z.e.lanes = y.e.lanes ∧ z.e.slotf.testBit 3 = true) ∧
      z.e.cause = y.e.cause ∧ z.e.va = y.e.va ∧ z.e.cid = y.e.cid ∧ z.e.pc = y.e.pc

/-- Faults are delivered and merged, the claims named here together. -/
def Obligations.FaultEntries : Prop :=
  Sys2Proof.Claims.FaultDeliveryHold ∧ Sys2Proof.Claims.FaultMergingHold

/-- R55, R148: a new FQBASE or FQSIZE stands, FQBASE's low five bits ignored and other sizes than R55's refused; an empty queue's head
and tail return to 0. So it is by the event and by MTSR, which raises ILLOP for a value that may not stand in FQHEAD. A changed
register delivers the pending faults that no one serves, then the held ones, again: in the new ring from entry 0, or held where it
takes none, a queue with no negotiated entry version among them (the model's choice, log entry 63). -/
def Sys2Proof.Claims.FaultQueueRegistersHold : Prop :=
  (∀ s p size (v : BitVec 64), s.Inv →
    let f := fqOf s p
    ∃ t, exec (.fqConfigWrite p size v) s = .next t ∧
      (size = false → (fqOf t p).base.toNat = v.toNat / 32 * 32 ∧ (fqOf t p).size = f.size) ∧
      (size = true → SizeOk v.toNat → (fqOf t p).size = v ∧ (fqOf t p).base = f.base) ∧
      (size = true → ¬ SizeOk v.toNat → t = s) ∧
      (f.pending = [] → f.held = [] → (fqOf t p).base ≠ f.base ∨ (fqOf t p).size ≠ f.size →
        fqOf t p = { f with base := (fqOf t p).base, size := (fqOf t p).size, head := 0, tail := 0, told11 := false, told16 := false })) ∧
  (∀ s p size (v : BitVec 64) f, s.Inv → f = fqOf s p → (size = false → v.toNat / 32 * 32 ≠ f.base.toNat) →
    (size = true → SizeOk v.toNat ∧ v ≠ f.size) →
    let all := f.pending.filter (fun y => !y.served) ++ f.held
    let base := if size then f.base.toNat else v.toNat / 32 * 32
    let n := if size then v.toNat else f.size.toNat
    ∃ t, exec (.fqConfigWrite p size v) s = .next t ∧ ((fqOf t p).head = 0) ∧
      (n = 0 ∨ nth (part s.w p).veract 2 0 = 0 → (fqOf t p).pending = [] ∧ (fqOf t p).held = all ∧ (fqOf t p).tail = 0) ∧
      ∀ y ls, all = [y] → 2 ≤ n → nth (part s.w p).veract 2 0 ≠ 0 → HubWrites s p base 32 ls →
        (fqOf t p).pending = [y] ∧ (fqOf t p).held = [] ∧ (fqOf t p).tail = 1 ∧ (placeKeys ls).map t.mem.rd = y.e.bytes ∧
        (∀ a, a ∉ placeKeys ls → t.mem.rd a = s.mem.rd a) ∧
        (disp t.w (part s.w p).disp).serving = (disp s.w (part s.w p).disp).serving + BitVec.ofNat 32 (Notifies s p)) ∧
  (∀ h hi a s x, Issues s x → Keyed s → x.c.w.used ≤ 16 → guardOn x.c h = true →
    ¬ HeadOk (fqOf s x.c.id.part) (halved (fqOf s x.c.id.part).head.toNat hi (getS x.c (a : Fin 32).val)) →
    ∃ t, exec (.mtsr h hi a 0x402) s = .next t ∧ Faulted s t x x.c 0x01 (faultsOf x.c 0x01 x.x fun _ => pc48 x)) ∧
  ∀ h hi a i s x, Issues s x → Clear s x (uniUses h { Uses.none with s := [(a : Fin 32).val] }) x.x → Quiet s x h.sw →
    guardOn x.c h = true → x.c.id.priv = true → 0x400 ≤ (i : Fin 16384).val → i.val ≤ 0x402 →
    (fqOf s x.c.id.part).pending = [] → (fqOf s x.c.id.part).held = [] →
    let f := fqOf s x.c.id.part
    let v := fun old : BitVec 64 => halved old.toNat hi (getS x.c a.val)
    (i.val = 0x402 → HeadOk f (v f.head)) →
    ∃ t c', exec (.mtsr h hi a i) s = .next t ∧ Ran s t x c' ∧ Keeps x.c c' [] [] [] [] ∧ FlagsKept x.c c' ∧ Advanced x c' 4 ∧
      (∀ b, t.mem.rd b = s.mem.rd b) ∧ (∀ q, q ≠ x.c.id.part → part t.w q = part s.w q) ∧
      part t.w x.c.id.part = { part s.w x.c.id.part with fq := fqOf t x.c.id.part } ∧
      (i.val = 0x400 → (fqOf t x.c.id.part).base.toNat = v f.base / 32 * 32 ∧ (fqOf t x.c.id.part).size = f.size) ∧
      (i.val = 0x401 → (fqOf t x.c.id.part).base = f.base ∧
        (SizeOk (v f.size) → (fqOf t x.c.id.part).size.toNat = v f.size) ∧
        (¬ SizeOk (v f.size) → (fqOf t x.c.id.part).size = f.size)) ∧
      (i.val = 0x402 → fqOf t x.c.id.part = { f with head := BitVec.ofNat 64 (v f.head) })

/-- R142, R150: moving FQHEAD past a course's fault entry whose CAUSE was not changed to 0xE0 replays it: the entry is consumed, the
record's join counter falls by one, and at zero the record is ready and the course resumes. The lanes that wait for an entry of a
split are live again at their instruction, and their course stands where it stood. A value that R150 does not allow changes
nothing. -/
def Sys2Proof.Claims.FaultReturnHold : Prop :=
  ∀ s p (v : BitVec 64), s.Inv →
    let f := fqOf s p
    (¬ HeadOk f v.toNat → ∃ t, exec (.fqheadWrite p v) s = .next t ∧ t = s) ∧
    ∀ y rest cid c (cause merge : Byte), f.pending = y :: rest → f.held = [] → y.served = false → HeadOk f v.toNat →
      v.toNat = (f.head.toNat + 1) % f.size.toNat → 2 ≤ f.size.toNat →
      f.head.toNat < f.size.toNat → y.e.part = p → course? s.w cid = some c → c.id.cid = cid →
      devRead s.env s.w 72 p 0 (part s.w p).rAsid (f.base.toNat + 32 * f.head.toNat) 2 true = .ok [cause, merge] →
      cause ≠ 0xE0 →
      ∃ t c', exec (.fqheadWrite p v) s = .next t ∧ (fqOf t p).head = v ∧ (fqOf t p).pending = rest ∧ (fqOf t p).tail = f.tail ∧
        course? t.w cid = some c' ∧ c'.id = c.id ∧
        (y.who = [.whole cid] → c.k.at_ = .parked → c'.r = c.r ∧ (∀ n, n ≠ cid → course? t.w n = course? s.w n) ∧
          (∀ b, t.mem.rd b = s.mem.rd b) ∧
          (2 ≤ c.k.join → c'.k.at_ = .parked ∧ c'.k.join = c.k.join - 1) ∧
          (c.k.join ≤ 1 → Free s c → c'.k.at_ = .ready ∧ c'.k.join = 0 ∧ c'.k.order = s.w.nextOrder)) ∧
        ∀ lanes, y.who = [.split cid lanes] →
          c'.r = { c.r with status := c'.r.status } ∧ c'.k.at_ = c.k.at_ ∧ c'.k.join = c.k.join ∧
          (∀ k, k < 32 → laneSt c' k = if mHas lanes k && laneSt c k == 2 then 1 else laneSt c k) ∧
          (c.k.at_ = .resident → (∀ b, t.mem.rd b = s.mem.rd b) ∧ ∀ n, n ≠ cid → course? t.w n = course? s.w n)

/-- R138, R150: moving FQHEAD past a course's fault entry whose CAUSE was changed to 0xE0 ends the consort as lost: its courses are
gone, and its launch counts one more ended and lost. -/
def Sys2Proof.Claims.FaultTerminateHold : Prop :=
  ∀ s p (v : BitVec 64) y rest cid c k l (cause merge : Byte), s.Inv → Keyed s → fqOf s p = { fqOf s p with pending := y :: rest, held := [] } →
    y.served = false → y.who = [.whole cid] → HeadOk (fqOf s p) v.toNat → 2 ≤ (fqOf s p).size.toNat →
    (fqOf s p).head.toNat < (fqOf s p).size.toNat →
    v.toNat = ((fqOf s p).head.toNat + 1) % (fqOf s p).size.toNat → y.e.part = p → course? s.w cid = some c →
    devRead s.env s.w 72 p 0 (part s.w p).rAsid ((fqOf s p).base.toNat + 32 * (fqOf s p).head.toNat) 2 true =
      .ok [cause, merge] → cause = 0xE0 →
    consort? s.w c.id.consort = some k → k.st = .placed →
    (∀ n d, course? s.w n = some d → d.id.consort = c.id.consort → AcctClean s d) → c.id.consort < s.w.nextConsort → launch? s.w k.launch = some l →
    l.ended + 1 < l.hdr.ccount →
    ∃ t l', exec (.fqheadWrite p v) s = .next t ∧ (fqOf t p).head = v ∧ consort? t.w c.id.consort = none ∧
      (∀ n d, course? s.w n = some d → d.id.consort = c.id.consort → course? t.w n = none) ∧
      (∀ n d, course? s.w n = some d → d.id.consort ≠ c.id.consort → course? t.w n = some d) ∧
      launch? t.w k.launch = some l' ∧ l'.ended = l.ended + 1 ∧ l'.lost = l.lost + 1 ∧
      (l.first = none → l'.first = some (k.idx, merge.toNat))

/-- The fault queue registers and resolutions, the claims named here together. -/
def Obligations.FaultQueue : Prop :=
  Sys2Proof.Claims.FaultQueueRegistersHold ∧ Sys2Proof.Claims.FaultReturnHold ∧ Sys2Proof.Claims.FaultTerminateHold

namespace Sys2Proof.Claims

open Sys2Proof.Machine

/-! ## Host events (R151, R157) -/

/-- The n bytes of host memory from an IOVA, as function k reaches them. -/
def hostBytes (m : Memory) (k a n : Nat) : List Byte := (List.range n).map fun i => m.rd (fnKey k a + i)

/-- Where the next entry of a function's host event queue stands. -/
def eventPlace (f : Fn) : Nat := f.heqBase.toNat + 32 * f.heqTail

/-- Vector 0's message does not land on the entry just written. -/
def Apart (f : Fn) : Prop :=
  let m := bvF (msixEntry f 0) 0 64
  m + 4 ≤ eventPlace f ∨ eventPlace f + 32 ≤ m

/-- A function's ring takes no further entry. -/
def RingFull (f : Fn) : Prop := f.heqSize = 0 ∨ (f.heqTail + 1) % f.heqSize = f.heqHead

/-- The 32 bytes of an event, as a function's ring takes it (R151): code, phase, partition and world, DETAIL, ADDR and the count of
entries lost before it. -/
def EventIs (b : List Byte) (f : Fn) (p wd code detail addr : Nat) : Prop :=
  field b 0 1 = code % 256 ∧ field b 1 1 = f.phase.toNat ∧ field b 2 1 = p % 16 + wd % 16 * 16 ∧ field b 3 1 = 0 ∧
  field b 4 4 = detail % 2 ^ 32 ∧ field b 8 8 = addr % 2 ^ 64 ∧ field b 16 4 = f.dropped % 2 ^ 32 ∧ field b 20 12 = 0

/-- The function was told of an event with its code, DETAIL and ADDR, or counted it as dropped. -/
def Told (s t : State) (n p wd code detail addr : Nat) : Prop :=
  (RingFull (fn s.w n) → (fn t.w n).dropped = (fn s.w n).dropped + 1 ∧ (fn t.w n).heqTail = (fn s.w n).heqTail) ∧
  (¬ RingFull (fn s.w n) → (fn t.w n).dropped = 0 ∧ (fn t.w n).heqTail = ((fn s.w n).heqTail + 1) % (fn s.w n).heqSize ∧
    (Apart (fn s.w n) → EventIs (hostBytes t.mem n (eventPlace (fn s.w n)) 32) (fn s.w n) p wd code detail addr))

/-- After w, one event was reported and nothing else happened. -/
def Reports (s t : State) (w : W) (n p wd code detail addr : Nat) : Prop :=
  t = commit (fun _ _ => hostEvent w n p wd code detail addr) s

/-! ## Messages (R130 to R134, R191, R198) -/

/-- The fields of a message's 16 bytes: payload, TAG and LANES (R130). -/
def msgPayload (m : Nat) : Nat := bitsAt m 0 48
def msgTag (m : Nat) : Nat := bitsAt m 64 12
def msgLanes (m : Nat) : Nat := bitsAt m 80 6

/-- A message of a form that R131 accepts: LANES from 1 to 32 and reserved bits 0. -/
def FormOk (m : Nat) : Prop :=
  1 ≤ msgLanes m ∧ msgLanes m ≤ 32 ∧ bitsAt m 48 16 = 0 ∧ bitsAt m 76 4 = 0 ∧ bitsAt m 86 42 = 0

/-- The owner that a message's lanes take (R130, R133). -/
def msgOwner (x : Sender) (m : Nat) : Owner := ⟨x.asid, x.world, x.prio, BitVec.ofNat 64 (msgPayload m), msgLanes m⟩

/-- Nothing but launches, consorts, pools and time differs, and every byte of memory stands. -/
def OnlyLaunches (s t : State) : Prop :=
  t.fix = s.fix ∧ t.mem = s.mem ∧ t.w = { s.w with
    now := t.w.now, parts := t.w.parts, launches := t.w.launches, nextLaunch := t.w.nextLaunch,
    consorts := t.w.consorts, nextConsort := t.w.nextConsort }

/-- A launch began with a header, its owners and its origin (R131, R135). -/
def Began (s t : State) (h : Hdr) (o : Origin) (os : List Owner) (p : Nat) : Prop :=
  t.w.nextLaunch = s.w.nextLaunch + 1 ∧
  ∃ l, launch? t.w s.w.nextLaunch = some l ∧ l.hdr = h ∧ l.origin = o ∧ l.owners = os ∧ l.part = p ∧ l.ended = 0 ∧ l.lost = 0

/-- A partition differs in one pool only. -/
def PoolIs (s t : State) (p tag : Nat) (q : Pool) : Prop :=
  part t.w p = { part s.w p with pools := (part t.w p).pools } ∧ tGet? (part t.w p).pools tag = some q ∧
  ∀ n, n ≠ tag → tGet? (part t.w p).pools n = tGet? (part s.w p).pools n

/-- A message taken by a partition (R131, R133, R134): rejected with host event 0x03, started as a launch, or put in its entry's
pool; a pool whose timer has run out in that cycle fires first. -/
structure Taken (s t : State) (p : Nat) (x : Sender) (m : Nat) : Prop where
  bad : ¬ FormOk m ∨ (part s.w p).configured = false → Reports s t s.w (senderFn s.w p x.fn) p x.world 0x03 (msgTag m) (msgPayload m)
  invalid : FormOk m → (part s.w p).configured = true → tGet? (part s.w p).pools (msgTag m) = none →
    (∀ a, armingAt s.env s.w p (msgTag m) = some a → a.valid = false ∨ a.ver ≠ verOf s.w p 3 ∨ verOf s.w p 3 = 0) →
    Reports s t s.w (senderFn s.w p x.fn) p x.world 0x03 (msgTag m) (msgPayload m)
  single : ∀ a h, FormOk m → (part s.w p).configured = true → tGet? (part s.w p).pools (msgTag m) = none →
    armingAt s.env s.w p (msgTag m) = some a → a.valid = true → a.ver = verOf s.w p 3 → a.ver ≠ 0 → a.pooled = false →
    readHdr s.env s.w p x.world a.casid a.hdr = .ok h → h.bad (verOf s.w p 0) (a.casid == (part s.w p).rAsid) = false →
    OnlyLaunches s t ∧ t.w.parts = s.w.parts ∧ Began s t h .single [msgOwner x m] p
  unread : ∀ a c, FormOk m → (part s.w p).configured = true → tGet? (part s.w p).pools (msgTag m) = none →
    armingAt s.env s.w p (msgTag m) = some a → a.valid = true → a.ver = verOf s.w p 3 → a.ver ≠ 0 → a.pooled = false →
    readHdr s.env s.w p x.world a.casid a.hdr = .error c →
    Reports s t s.w (senderFn s.w p x.fn) p x.world 0x02 c a.hdr
  opened : ∀ a, FormOk m → (part s.w p).configured = true → tGet? (part s.w p).pools (msgTag m) = none →
    armingAt s.env s.w p (msgTag m) = some a → a.valid = true → a.ver = verOf s.w p 3 → a.ver ≠ 0 → a.pooled = true →
    pooledOk s.env s.w p x.world a = true → msgLanes m < 32 →
    OnlyLaunches s t ∧ t.w.launches = s.w.launches ∧ PoolIs s t p (msgTag m)
      ⟨[msgOwner x m], msgLanes m, a.hdr, a.casid, a.ctx, a.poolt, x.world,
        s.w.now + (if a.poolt = 0 then 20 else a.poolt) * 1600, x.fn, x.port⟩
  joined : ∀ a q, FormOk m → (part s.w p).configured = true → tGet? (part s.w p).pools (msgTag m) = some q →
    armingAt s.env s.w p (msgTag m) = some a → a.valid = true → a.ver = verOf s.w p 3 → a.ver ≠ 0 → samePool q a = true →
    s.w.now < q.until_ → pooledOk s.env s.w p x.world a = true → q.world = x.world → q.owners.length < 8 → q.filled + msgLanes m < 32 →
    OnlyLaunches s t ∧ t.w.launches = s.w.launches ∧ PoolIs s t p (msgTag m)
      { q with owners := q.owners ++ [msgOwner x m], filled := q.filled + msgLanes m }
  expired : ∀ a q, FormOk m → (part s.w p).configured = true → tGet? (part s.w p).pools (msgTag m) = some q → q.until_ ≤ s.w.now →
    armingAt s.env s.w p (msgTag m) = some a →
    armingAt s.env (firePool s.env s.w p (msgTag m)) p (msgTag m) = some a →
    t = commit (fun e w => (takeMessage e (firePool e w p (msgTag m)) p x m).1) s

/-- The state with a partition's pool gone and time not before its end (R134). -/
def drained (s : State) (p tag : Nat) (q : Pool) : W :=
  updPart { s.w with now := max s.w.now q.until_ } p fun x => { x with pools := tDel x.pools tag }

/-! ## Launches and consorts (R138 to R140, R186, R281) -/

/-- Course j of a consort as formation leaves it (R39, R137): no line cached, every register but those of the launch 0. -/
structure Formed (t : State) (kc : Nat) (k : Consort) (l : Launch) (j frame cid : Nat) (c : Course) : Prop where
  here : course? t.w cid = some c
  id : c.id.cid = cid ∧ c.id.consort = kc ∧ c.id.j = j ∧ c.id.part = k.part ∧ c.id.frame = frame ∧ c.id.priv = l.hdr.priv ∧
    c.id.core = j % 2 ^ l.hdr.widthc ∧ c.id.codeAsid = l.codeAsid
  ready : c.k.at_ = .ready ∧ c.k.isNew = true ∧ c.k.join = 0
  s : ∀ i, i < 64 → getS c i = 0
  p : ∀ i, i < 7 → getP c i = 0
  q : ∀ i, i < 7 → getQ c i = false
  v : ∀ i, i < 64 → isZero c i = true
  pc : c.id.cbase.toNat = l.hdr.entry / 2 ^ 32 * 2 ^ 32 % 2 ^ 64 ∧
    ∀ n, n < 32 → lpc c n = BitVec.ofNat 32 (l.hdr.entry / 4 * 4)
  lanes : ∀ n, n < 32 → laneSt c n = if n < lanesOf l.owners then 1 else 0
  d : ∀ i, i < 16 → getD256 c i = 0
  a : ∀ i, 0 < i → i < 16 → getA c i = 0
  tl : getTL c 0 = BitVec.ofNat 64 (k.tlFirst + j % 2 ^ l.hdr.widthc * 2 ^ 8 + 2 ^ 10) ∧ ∀ i, 0 < i → i < 4 → getTL c i = 0
  window : c.w.used = 0 ∧ c.w.buf = [] ∧ c.w.isOpen = false

/-- A launch that a fenced one waits for has not completed: an earlier one of its queue, or the issuer's own (R140, R297). -/
def EarlierOpen (s : State) (p : Nat) (q : Queued) : Prop :=
  launch? s.w q.parent ≠ none ∨ ∃ y ∈ s.w.launches, y.2.part = p ∧ ∃ m, y.2.seq = some m ∧ m < q.seq

/-- No course waits for room in a partition's launch queue. -/
def NoneQueued (s : State) (p : Nat) : Prop :=
  ∀ y ∈ s.w.courses, y.2.id.part = p → y.2.k.at_ = .parked → ∀ a b c d, y.2.k.await ≠ .queue a b c d

/-- The units and counters of a consort are free on its cores. -/
def Freed (s t : State) (kc : Nat) (k : Consort) : Prop :=
  consort? t.w kc = none ∧ ∀ l ∈ k.cores, let c := Sys2Proof.Machine.core t.w (pcnOf s.w l)
    (∀ y ∈ c.blocks, y.2 ≠ kc) ∧ (∀ y ∈ c.groups, y.2 ≠ kc) ∧ (∀ y ∈ c.scales, y.2 ≠ kc) ∧ ∀ y ∈ c.tlOwner, y.2 ≠ kc

/-- A consort is placed, none of its courses is left and no operation of it is in flight (R138). -/
def Over (s : State) (kc : Nat) (k : Consort) : Prop :=
  k.st = .placed ∧ k.live = 0 ∧ ∀ y ∈ s.w.ops, y.2.consort ≠ kc

/-- A launch's completion record is written at the places ls: they can be reached, wait for no scrub and bear the encipherment of
the launch's world (R101, R109, R138, R156). -/
def RecordAt (s : State) (l : Launch) (ls : List (Loc × Nat × Nat)) : Prop :=
  ownPlaces s.w 72 l.part (fun a => translateOwn s.env s.w l.part l.world l.compAsid a .write l.compPriv) l.hdr.compaddr 32 = .ok ls ∧
  placesScrub s.w ls = none ∧ SameTag s.w l.world ls ∧ (placeKeys ls).Nodup

/-- A resumable consort's units were saved, giving w1, and a slot that the launch may have can supply it, held by no other consort of the
launch (R83, R139, R186): the state w0 without its units, the windows, row groups and scale groups there. -/
structure Movable (s : State) (kc : Nat) (k : Consort) (slot : List Nat) (w1 w0 : W) (pw : List Nat) (rows scales : List (List Nat)) :
    Prop where
  present : slot.length = k.cores.length ∧ (slot.map (pcnOf s.w)).Nodup ∧ (k.cores.map (pcnOf s.w)).Nodup
  dealt : ∃ l y, launch? s.w k.launch = some l ∧ y ∈ dealSlots s.w k.part l.hdr k.world ∧ y.cores = slot
  alone : ∀ p ∈ s.w.consorts, p.1 ≠ kc → p.2.slotL = k.slotL → ∀ c ∈ slot, c ∉ p.2.cores
  saved : saveUnits s.env k (unitsOf s.w kc k) s.w = some w1
  free : w0 = { freeUnits w1 kc { k with csave := 2 ^ 64 } with consorts := tDel (freeUnits w1 kc { k with csave := 2 ^ 64 }).consorts kc }
  own : ∀ n, n ∉ k.cores.map (pcnOf s.w) →
    (∀ y ∈ (Sys2Proof.Machine.core s.w n).blocks, y.2 ≠ kc) ∧ ∀ y ∈ (Sys2Proof.Machine.core s.w n).groups, y.2 ≠ kc
  gives : ∀ l ∈ slot, coreGives w0 k.win k.accN k.world l = true
  win : allSome (slot.map (findWin w0 k.ctx k.world k.win)) = some pw
  rows : allSome (slot.flatMap fun l => (List.range 4).map fun q =>
    if k.accN / 64 = 0 then some [] else findRows w0 k.ctx (k.accN / 64) l q) = some rows
  scales : allSome (slot.flatMap fun l => (List.range 4).map fun q =>
    if k.accN / 64 = 0 then some [] else lowGroups (k.accN / 64) (scalesUsed (holders w0 k.ctx l false) l q)) = some scales
  tl : ∀ l ∈ slot, ∀ i, i < k.tlCnt → tGet? (Sys2Proof.Machine.core w0 (pcnOf w0 l)).tlOwner (k.tlFirst + i) = none

/-- The units of a consort that stood in place or in its save area come back, each at its place in the new allotment, when they are
claimed there: none stands in place (R90, R186). -/
structure UnitsAway (s t : State) (kc : Nat) (k k' : Consort) : Prop where
  none : unitsOf t.w kc k' = []
  scratch : ∀ i b, i < k.cores.length → let p := pcnOf s.w (nth k.cores i 0)
    let q := pcnOf s.w (nth k'.cores i 0)
    (let u := Unit70.scratch p ((setBase s.w p k.world + nth k.pw i 0) / 16384 + b); u ∈ unitsOf s.w kc k ∨ u ∈ k.away) →
    Unit70.scratch q ((setBase s.w q k.world + nth k'.pw i 0) / 16384 + b) ∈ k'.away
  rows : ∀ i q j, i < k.cores.length → let old := nth k.rows (4 * i + q) []
    j < old.length → old.Nodup →
    (let u := Unit70.rows (pcnOf s.w (nth k.cores i 0)) q (nth old j 0); u ∈ unitsOf s.w kc k ∨ u ∈ k.away) →
    Unit70.rows (pcnOf s.w (nth k'.cores i 0)) q (nth (nth k'.rows (4 * i + q) []) j 0) ∈ k'.away
  only : k'.away.length ≤ (unitsOf s.w kc k ++ k.away).length

end Sys2Proof.Claims

/-- R151, R190: an event is written at the tail of its function's ring with the phase bit and the count of entries lost before it, and
the tail moves on, the phase turning as it wraps; a full ring drops and counts it. -/
def Sys2Proof.Claims.HostEventsHold : Prop :=
  ∀ s n p wd code detail addr, s.Inv →
    let f := fn s.w n
    let t := commit (fun _ w => hostEvent w n p wd code detail addr) s
    Told s t n p wd code detail addr ∧ (∀ m, m ≠ n → fn t.w m = fn s.w m) ∧
    (RingFull f → ∀ a, t.mem.rd a = s.mem.rd a) ∧
    (¬ RingFull f →
      (fn t.w n).phase = (if f.heqTail + 1 = f.heqSize then !f.phase else f.phase) ∧
      ∀ a, (∀ i, i < 32 → a ≠ fnKey n (eventPlace f) + i) → (∀ i, i < 4 → a ≠ fnKey n (bvF (msixEntry f 0) 0 64) + i) →
        t.mem.rd a = s.mem.rd a)

/-- R157: the end of a vector's interval sends the message that was held: its data word at its address, the pending bit clear, a new
interval open; with none held, or the vector masked, the interval just closes. -/
def Sys2Proof.Claims.CoalesceIntervalsHold : Prop :=
  ∀ (n : FnNo) (vec : Fin 2) s, s.Inv →
    (tGet? (fn s.w n.val).openIv vec.val = none → ∃ t, exec (.coalesceIntervalEnd n vec) s = .next t ∧ t = s) ∧
    ∀ u, tGet? (fn s.w n.val).openIv vec.val = some u →
      let f := fn s.w n.val
      let e := msixEntry f vec.val
      ∃ t, exec (.coalesceIntervalEnd n vec) s = .next t ∧ t.w.now = max s.w.now u ∧ (∀ m, m ≠ n.val → fn t.w m = fn s.w m) ∧
        (vec.val ∈ f.pba → bvF e 96 1 = 0 →
          hostBytes t.mem n.val (bvF e 0 64) 4 = leBytes 4 (bvF e 64 32) ∧ vec.val ∉ (fn t.w n.val).pba ∧
          tGet? (fn t.w n.val).openIv vec.val = some (max s.w.now u + f.coalt * 1600) ∧
          t.w.replies = .msix n.val vec.val :: s.w.replies) ∧
        (vec.val ∉ f.pba ∨ bvF e 96 1 = 1 → t.mem = s.mem ∧ (fn t.w n.val).pba = f.pba ∧
          tGet? (fn t.w n.val).openIv vec.val = none ∧ t.w.replies = s.w.replies)

/-- Host events and coalescing intervals, the claims named here together. -/
def Obligations.HostEvents : Prop :=
  Sys2Proof.Claims.HostEventsHold ∧ Sys2Proof.Claims.CoalesceIntervalsHold

/-- R130, R131, R134, R191, R198: a tag-port write of a valid port and a peer's message that an import entry matches are taken as messages;
others are rejected with host event 0x03; a write of an unbound VF, or without a link, is ignored, and a flit out of its turn is not taken.
That a flit taken acknowledges those sent before it is the model's choice (log entry 13). -/
def Sys2Proof.Claims.MessagesHold : Prop :=
  (∀ (n : FnNo) (k : Fin 64) whole (d : BitVec 128) s, s.Inv →
    let f := fn s.w n.val
    let b := tGetD f.ports k.val ⟨0, 0, 0, false⟩
    ∃ t, exec (.tagportWrite n k whole d) s = .next t ∧
      (s.w.hub.boot < 2 ∨ (n.val ≠ 0 ∧ f.bound = false) → t = s) ∧
      (2 ≤ s.w.hub.boot → n.val = 0 ∨ f.bound = true → whole = true → b.valid = true → b.world = 0 ∨ f.tdisp = 2 →
        Taken s t f.part ⟨b.asid, b.world, b.prio, some n.val, some k.val⟩ d.toNat) ∧
      (2 ≤ s.w.hub.boot → n.val = 0 ∨ f.bound = true → whole = false ∨ b.valid = false ∨ (b.world ≠ 0 ∧ f.tdisp ≠ 2) →
        Reports s t s.w n.val f.part b.world 0x03 (msgTag d.toNat) (msgPayload d.toNat))) ∧
  ∀ (n : Fin 12) p fdev seq spart (d : BitVec 128) s, s.Inv →
    let taken : State := { s with w := flitIn s.w n.val }
    (takesFlit s.w n.val seq = false → ∃ t, exec (.celileMessage ⟨n, fdev, seq⟩ p spart d) s = .next t ∧ t = s) ∧
    (takesFlit s.w n.val seq = true → ∃ t, exec (.celileMessage ⟨n, fdev, seq⟩ p spart d) s = .next t ∧
      (∀ x, importOwner s.env s.w p fdev spart (msgTag d.toNat) = some x →
        Taken taken t p ⟨x.asid, x.world, x.prio, none, none⟩ d.toNat) ∧
      (importOwner s.env s.w p fdev spart (msgTag d.toNat) = none →
        Reports taken t taken.w (eventFn s.w p) p 0 0x03 (msgTag d.toNat) (msgPayload d.toNat)))

/-- R134: a pool whose timer runs out fires: the pool is gone and its owners start as a launch of one consort under its header; a
header that cannot be read is host event 0x02, of the function of the pool's first message (the model's choice, log entry 52). -/
def Sys2Proof.Claims.PoolTimerHold : Prop :=
  ∀ p tag s, s.Inv →
    (tGet? (part s.w p).pools tag = none → ∃ t, exec (.poolTimerExpiry p tag) s = .next t ∧ t = s) ∧
    ∀ q, tGet? (part s.w p).pools tag = some q →
      let w := drained s p tag q
      let wd := ((q.owners.head?).map (·.world)).getD 0
      (∀ h, readHdr s.env w p wd q.casid q.hdr = .ok h → h.widthc = 0 → h.cpc = 0 → h.ccount = 1 →
        h.bad (verOf s.w p 0) (q.casid == (part s.w p).rAsid) = false →
        ∃ t, exec (.poolTimerExpiry p tag) s = .next t ∧ OnlyLaunches s t ∧ t.w.now = max s.w.now q.until_ ∧
          tGet? (part t.w p).pools tag = none ∧ Began s t h .pooled q.owners p) ∧
      ∀ c, readHdr s.env w p wd q.casid q.hdr = .error c →
        ∃ t, exec (.poolTimerExpiry p tag) s = .next t ∧ Reports s t w (senderFn w p q.fn) p wd 0x02 c q.hdr

/-- Messages and pools, the claims named here together. -/
def Obligations.Messages : Prop :=
  Sys2Proof.Claims.MessagesHold ∧ Sys2Proof.Claims.PoolTimerHold

/-- R140, R143, R314: the launch at a queue's head starts with the lower of its PRIO and the ceiling, but not while the queue is held,
and a fenced one not before the earlier ones have completed; a new ceiling applies from then on. -/
def Sys2Proof.Claims.LaunchQueueEventsHold : Prop :=
  (∀ p s q r b, s.Inv → (part s.w p).lq = q :: r → ctxRead s.env s.w 72 p q.world ((part s.w p).ctxBase + 128 * q.pos) 128 = .ok b →
    ∃ t, exec (.launchQueueDepart p) s = .next t ∧
      ((part s.w p).lqHold = true ∨ ((parseHdr b).fenced = true ∧ EarlierOpen s p q) → t = s) ∧
      ((part s.w p).lqHold = false → (parseHdr b).fenced = false ∨ ¬ EarlierOpen s p q →
        (parseHdr b).bad (verOf s.w p 0) q.priv = false → NoneQueued s p →
        OnlyLaunches s t ∧ (part t.w p).lq = r ∧
        Began s t (parseHdr b) .queue [⟨q.asid, q.world, min (parseHdr b).prio (part s.w p).ceiling, 0, 32⟩] p)) ∧
  ∀ p (prio : Fin 8) s, s.Inv → ∃ t, exec (.launchQueueCeilingChange p prio) s = .next t ∧ t.mem = s.mem ∧
    part t.w p = { part s.w p with ceiling := prio.val } ∧ (∀ n, n ≠ p → part t.w n = part s.w n) ∧
    t.w = { s.w with parts := t.w.parts }

/-- The device-side launch queue, the claims named here together. -/
def Obligations.LaunchQueue : Prop :=
  Sys2Proof.Claims.LaunchQueueHold ∧ Sys2Proof.Claims.LaunchQueueEventsHold

/-- R39, R137, R139: a consort with a slot is placed once every core of it can supply what the launch asks, and all its courses are formed in
their frames; else nothing changes. -/
def Sys2Proof.Claims.ConsortPlacementHold : Prop :=
  ∀ kc s k l, s.Inv → consort? s.w kc = some k → launch? s.w k.launch = some l →
    (k.st ≠ .slotted ∨ l.held = true ∨ behindEarlier s.w k l = true ∨ supply s.w k = none →
      ∃ t, exec (.consortPlacement kc) s = .next t ∧ t = s) ∧
    ∀ k' pt fs, k.st = .slotted → l.held = false → behindEarlier s.w k l = false → supply s.w k = some (k', pt, fs) →
      ∃ t, exec (.consortPlacement kc) s = .next t ∧ part t.w k.part = pt ∧ fs.length = k.nCourses ∧
        consort? t.w kc = some { k' with st := .placed, live := k.nCourses } ∧ t.w.nextCid = s.w.nextCid + k.nCourses ∧
        (∀ n, n < s.w.nextCid → course? t.w n = course? s.w n) ∧
        (∀ i, i < k.cores.length → ∀ j, j < k.tlCnt → tGet?
          (Sys2Proof.Machine.core t.w (pcnOf s.w (nth k.cores i 0))).tlOwner (k'.tlFirst + j) = some kc) ∧
        (k.haltb = false → (part s.w k.part).ctxs.count ≤ 1 ∨ (part s.w k.part).ctxs.cur = l.ctx ∨ l.hdr.pinned = true →
          ∀ j, j < k.nCourses → ∃ c, Formed t kc k' l j (nth fs j 0) (s.w.nextCid + j) c)

/-- R138, R139, R281: a consort that is over ends: its units and counters are free, its slot goes to the launch's lowest waiting consort, and
its launch counts it; the last one's end completes the launch and writes its record. A successor header that passes its checks
forms in its slot instead. -/
def Sys2Proof.Claims.ConsortEndHold : Prop :=
  ∀ kc s k l, s.Inv → consort? s.w kc = some k → launch? s.w k.launch = some l → kc < s.w.nextConsort →
    (¬ Over s kc k → ∃ t, exec (.consortEnd kc) s = .next t ∧ t = s) ∧
    (Over s kc k → k.succ = none →
      ∃ t, exec (.consortEnd kc) s = .next t ∧ Freed s t kc k ∧ t.w.courses = s.w.courses ∧
        (l.ended + 1 < l.hdr.ccount → t.mem = s.mem ∧ ∃ l', launch? t.w k.launch = some l' ∧ l'.ended = l.ended + 1 ∧
          l'.lost = l.lost + (if k.lost.isSome then 1 else 0) ∧
          (k.slotL = k.launch → ∀ y, l.slots[k.slotI]? = some y → l.held = false → y.cores ≠ [] →
            (∀ c ∈ y.cores, corePresent s.w l.part c = true ∧ coreGives s.w l.hdr.win l.hdr.accr l.world c = true) → ∀ i, l.waiting = some i →
            l'.slots[k.slotI]? = some { y with holder := some i } ∧
            ∃ k', consort? t.w s.w.nextConsort = some k' ∧ k'.idx = i ∧ k'.cores = y.cores ∧ k'.st = .slotted)) ∧
        (l.hdr.ccount ≤ l.ended + 1 → k.slotL = k.launch → launch? t.w k.launch = none ∧
          ∀ ls, l.quiet = false → l.hdr.event = false → l.hdr.msix = false → k.lost = none → l.first = none → RecordAt s l ls →
            (placeKeys ls).map t.mem.rd = leBytes 8 l.hdr.compseq ++ [0, 0, 0, 0] ++ leBytes 4 l.lost ++ leBytes 4 (2 ^ 32 - 1) ++
              leBytes 12 0 ∧
            ∀ a, a ∉ placeKeys ls → t.mem.rd a = s.mem.rd a)) ∧
    ∀ hb fs pt, Over s kc k → k.succ = some hb → k.lost = none → succOk s.w k (parseHdr hb) = true →
      takeFrames (parseHdr hb).courses (part s.w k.part) = some (fs, pt) →
      k.launch < s.w.nextLaunch →
      ∃ t k' l', exec (.consortEnd kc) s = .next t ∧ consort? t.w kc = some k' ∧ k'.launch = s.w.nextLaunch ∧
        k'.cores = k.cores ∧ k'.pw = k.pw ∧ k'.rows = k.rows ∧ k'.scales = k.scales ∧ k'.tlFirst = k.tlFirst ∧
        k'.live = (parseHdr hb).courses ∧ launch? t.w s.w.nextLaunch = some l' ∧ l'.hdr = parseHdr hb ∧ l'.origin = .successor ∧
        (k.haltb = false → (part s.w k.part).ctxs.count ≤ 1 ∨ (part s.w k.part).ctxs.cur = k.ctx ∨ (parseHdr hb).pinned = true →
          ∀ j, j < (parseHdr hb).courses → ∃ c, Formed t kc k' l' j (nth fs j 0) (s.w.nextCid + j) c)

/-- R90, R161, R186: the runtime gives a resumable consort up, and it ends as lost with status MUTED; or it keeps it, and the consort stands on
the slot named, its units to come back from its save area, its courses on its new cores, and its waits and operations turned to the new
cores' counters, which keep their numbers (the model's choice, log entry 31). Of another consort nothing changes. -/
def Sys2Proof.Claims.ResumableConsortsHold : Prop :=
  ∀ kc slot s k, s.Inv → Keyed s → consort? s.w kc = some k →
    (∀ keep, k.kept = false → ∃ t, exec (.resumableConsortReplace kc slot keep) s = .next t ∧ t = s) ∧
    (∀ l, k.kept = true → k.st = .placed → kc < s.w.nextConsort → launch? s.w k.launch = some l → l.ended + 1 < l.hdr.ccount →
      ∃ t l', exec (.resumableConsortReplace kc slot false) s = .next t ∧ consort? t.w kc = none ∧
        (∀ n d, course? s.w n = some d → d.id.consort = kc → course? t.w n = none) ∧
        launch? t.w k.launch = some l' ∧ l'.ended = l.ended + 1 ∧ l'.lost = l.lost + 1 ∧
        (l.first = none → l'.first = some (k.idx, 0x21))) ∧
    ∀ w1 w0 pw rows scales, k.kept = true → Movable s kc k slot w1 w0 pw rows scales →
      ∃ t k', exec (.resumableConsortReplace kc slot true) s = .next t ∧ consort? t.w kc = some k' ∧ k'.kept = false ∧
        k'.cores = slot ∧ k'.st = .placed ∧ k'.pw = pw ∧ k'.rows = rows ∧ k'.scales = scales ∧ k'.tlFirst = k.tlFirst ∧
        UnitsAway s t kc k k' ∧
        (∀ l, launch? s.w k.slotL = some l → ∃ l' y, launch? t.w k.slotL = some l' ∧ l'.slots[k'.slotI]? = some y ∧ y.cores = slot ∧
          y.holder = some k.idx) ∧
        (∀ i, i < slot.length → ∀ j, j < k.tlCnt →
          tlc t.w (pcnOf s.w (nth slot i 0)) (k.tlFirst + j) = tlc s.w (pcnOf s.w (nth k.cores i 0)) (k.tlFirst + j)) ∧
        (∀ n o i, op? s.w n = some o → o.consort = kc → i < slot.length → o.tlPcn = pcnOf s.w (nth k.cores i 0) →
          ∃ o', op? t.w n = some o' ∧ { o' with tlPcn := o.tlPcn } = o ∧ o'.tlPcn = pcnOf s.w (nth slot i 0)) ∧
        ∀ n c, course? s.w n = some c → c.id.consort = kc →
          (∀ d m, c.k.await = .ticket d m → (disp t.w d).mask = sleeperMask t.w d) ∧
          ∃ c', course? t.w n = some c' ∧ c'.r = c.r ∧ c'.id = c.id ∧ c'.v.hcore = nth slot c.id.core 0 ∧
            ∀ i a b q, i < slot.length → c.k.await = .timeline (pcnOf s.w (nth k.cores i 0)) a b q →
              c'.k.await = .timeline (pcnOf s.w (nth slot i 0)) a b q

/-- Consorts are placed, end and are given up, the claims named here together. -/
def Obligations.Consorts : Prop :=
  Sys2Proof.Claims.ConsortPlacementHold ∧ Sys2Proof.Claims.ConsortEndHold ∧ Sys2Proof.Claims.ResumableConsortsHold

/-- R142, R144, R225: a word that encodes no instruction, and live lanes that all stand at convergent instructions at different PCs while
no lane is parked, are ILLOP: the course parks with cause 0x01, and its entries name the lanes at the word, or all live lanes with
the lowest LPC. -/
def Sys2Proof.Claims.IssueTrapsHold : Prop :=
  (∀ (word : Word) s x, Issues s x → Keyed s → (fetchAt s.env s.w x.c x.pc).word = .ok word.toNat → decodeWord word.toNat 0 = none →
    ∃ t, exec (.reservedWordIssue word) s = .next t ∧ Faulted s t x x.c 0x01 (faultsOf x.c 0x01 x.x fun _ => pc48 x)) ∧
  ∀ cid s c, s.Inv → Keyed s → course? s.w cid = some c → canIssue c = true →
    (∀ k, k < 32 → laneSt c k = 1 → convergentAt s.env s.w c (lpc c k) = true) → (∀ k, k < 32 → laneSt c k ≠ 2) →
    (∃ j k, j < 32 ∧ k < 32 ∧ laneSt c j = 1 ∧ laneSt c k = 1 ∧ lpc c j ≠ lpc c k) →
    let low := minLpc c (liveM c)
    ∃ t, exec (.convergenceIllop cid) s = .next t ∧ Faulted s t ⟨c, low, liveM c, 0, liveM c, none, false⟩ c 0x01
      (if c.id.mixed then (List.range 8).filterMap fun n =>
          let m := liveM c &&& mkMask fun k => own c k == n
          if m = 0 then none else some (faultOf c 0x01 n m (c.id.cbase.toNat + low.toNat) low.toNat)
        else [faultOf c 0x01 (own c (mLow (liveM c))) (liveM c) (c.id.cbase.toNat + low.toNat) low.toNat])

/-- TRAP, BKPT, reserved words and convergence, the claims named here together. -/
def Obligations.LaneTraps : Prop :=
  Sys2Proof.Claims.LaneTrapsHold ∧ Sys2Proof.Claims.IssueTrapsHold

namespace Sys2Proof.Claims

open Sys2Proof.Machine

/-! ## Activation, the register cache and claims (R60 to R73, R141, R143, R330) -/

/-- A place of a core for a record: quadrant and slot; none better waits there (R143). -/
def NextReady (s : State) (p l : Nat) (c : Course) (q slot : Nat) : Prop :=
  (c, q, slot) ∈ readyFor s.w p l ∧ ∀ y ∈ readyFor s.w p l, y = (c, q, slot) ∨ y.1.k.prio < c.k.prio ∨
    (y.1.k.prio = c.k.prio ∧ ((c.k.succ = true ∧ y.1.k.succ = false) ∨ (c.k.succ = y.1.k.succ ∧ c.k.order < y.1.k.order)))

/-- A write of n bytes of context space by core l of a partition lands at the places ls: they can be reached, wait for no scrub, and
bear the encipherment of the world's context key (R57, R109, R156). -/
def CtxWrites (s : State) (l p wd va n : Nat) (ls : List (Loc × Nat × Nat)) : Prop :=
  ctxPlaces s.env s.w (pcnOf s.w l) p wd va n .write = .ok ls ∧ placesScrub s.w ls = none ∧ SameCtxTag s.w wd ls ∧
  (placeKeys ls).Nodup

/-- A record became resident in a slot with a generation that no outstanding result of its quadrant bears; its frame's
deferred-state word shows the place with OPEN and HELD clear (R58, R59, R64, R69, R145). -/
structure Placed (s t : State) (c c' : Course) (l q slot : Nat) : Prop where
  here : course? t.w c.id.cid = some c'
  id : c'.id = c.id
  at_ : c'.k.at_ = .resident ∧ c'.k.slot = slot ∧ c'.v.hcore = l ∧ c'.v.hquad = q ∧ c'.v.held = false ∧ c'.k.turn = none ∧
    c'.k.stall = none ∧ c'.k.wait = List.replicate 32 0 ∧ c'.v.lines = c.v.lines
  gen : (s.w.flights.filter fun f => f.quad == 4 * l + q).length < 256 → ∀ f ∈ s.w.flights, f.quad = 4 * l + q → f.gen ≠ c'.k.gen
  others : ∀ n, n ≠ c.id.cid → course? t.w n = course? s.w n
  word : ∀ ls, CtxWrites s l c.id.part (slotWorld c 0) (c.id.frame + 0x2218) 8 ls →
    (placeKeys ls).map t.mem.rd = leBytes 8 (deferredWord { c' with k := { c'.k with gen := c.k.gen } })
  mem : ∀ a, (∀ ls, ctxPlaces s.env s.w (pcnOf s.w l) c.id.part (slotWorld c 0) (c.id.frame + 0x2218) 8 .write = .ok ls →
    placesScrub s.w ls = none ∧ ∀ y ∈ placeKeys ls, a / 16 ≠ y / 16) → t.mem.rd a = s.mem.rd a
  fix : t.fix = s.fix

/-- The course of a line stays as it was but for the line, its prefetch and its wait for it. -/
structure Landed (s t : State) (cid : Nat) (c : Course) (r : R64) (l : CLine) : Prop where
  here : ∃ c', course? t.w cid = some c' ∧ c'.r = c.r ∧ c'.id = c.id ∧ c'.w = c.w ∧ tGet? c'.v.lines r.val = some l ∧
    (∀ n, n ≠ r.val → tGet? c'.v.lines n = tGet? c.v.lines n) ∧ c'.v.pref.getLsbD r.val = false ∧
    c'.k = { c.k with stall := if c.k.stall = some (.fill r) then none else c.k.stall }
  others : ∀ n, n ≠ cid → course? t.w n = course? s.w n
  mem : t.mem = s.mem

/-- Room for one more line in a course's quadrant (R62). -/
def CacheRoom (s : State) (c : Course) : Prop := lineCount s.w (quadOf c) + 1 ≤ 2048

/-- A course's quadrant is full, and no line in it may be taken: each is of a resident course or a PINNED launch, or spill-pending (R63,
R135). -/
def CacheFixed (s : State) (c : Course) : Prop :=
  ¬ CacheRoom s c ∧ ∀ y ∈ s.w.courses, ∀ l ∈ y.2.v.lines, l.2.quad = quadOf c →
    y.2.k.at_ = .resident ∨ y.2.id.pinned = true ∨ l.2.pend = true

/-- An entry, of a course or merged with one of another course (MULTI), is pending in the course's fault queue, or held for it, with a
cause and a faulting page, and its resolution acts on `who` (R149). -/
def Waits (t : State) (c : Course) (cause va : Nat) (who : Waiter) : Prop :=
  ∃ q, (q ∈ (part t.w c.id.part).fq.pending ∨ q ∈ (part t.w c.id.part).fq.held) ∧ q.e.cause = cause ∧
    (q.e.cid = c.id.cid ∨ q.e.slotf.testBit 3 = true) ∧ q.e.va / 4096 = va % 2 ^ 64 / 4096 ∧ who ∈ q.who

/-- A consort that holds a unit keeps it from another (R70, R330): the same consort, one of its own context, of a PINNED launch, one that is
not halted, or one with a course that is resident or ready. -/
def Keeps70 (s : State) (kc : Nat) (k : Consort) (hc : Nat) (h : Consort) : Prop :=
  hc = kc ∨ h.ctx = k.ctx ∨ h.pinned = true ∨
  (h.haltb = false ∧ ((part s.w h.part).ctxs.count ≤ 1 ∨ (part s.w h.part).ctxs.cur = h.ctx)) ∨
  ∃ y ∈ s.w.courses, y.2.id.consort = hc ∧ (y.2.k.at_ = .resident ∨ y.2.k.at_ = .ready)

/-- The 128 bytes of a line. -/
def bytesOf (l : CLine) : List Byte := (List.range 32).flatMap fun k => leBytes 4 (laneOf l.data k).toNat

/-! ## Time (R142, R146, R168, R329) -/

/-- A parked record whose awaited event is over: it awaits nothing; its counter falls by one, and at 0 it is ready if free. -/
def Woken (s t : State) (n : Nat) (d d' : Course) : Prop :=
  course? t.w n = some d' ∧ d'.k.await = .nothing ∧ d'.k.deadline = none ∧ d'.id = d.id ∧
    (2 ≤ d.k.join → d'.k.at_ = .parked ∧ d'.k.join = d.k.join - 1) ∧
    (d.k.join ≤ 1 → Free s d → d'.k.at_ = .ready ∧ d'.k.join = 0 ∧ d'.k.order = s.w.nextOrder)

/-- The scheduling contexts of a partition. -/
def ctxsOf (s : State) (p : Nat) : Ctxs := (part s.w p).ctxs

end Sys2Proof.Claims

/-- R58 to R61, R64, R69, R141, R143: a core's activation unit takes the record of the highest level, successors first, then the oldest.
A new course starts from formation; another takes its registers from its frame. A frame of another version leaves the record
parked with an entry of cause 0x01, whose other fields are the model's choice (log entry 21). A core that is absent, stopped or withheld
takes none. That only records with a place take part is the model's choice (log entry 20). -/
def Sys2Proof.Claims.ActivationsHold : Prop :=
  (∀ p l s, s.Inv → canActivate s.w p l = false ∨ readyFor s.w p l = [] → ∃ t, exec (.activation p l) s = .next t ∧ t = s) ∧
  ∀ p l s c q slot, s.Inv → Keyed s → canActivate s.w p l = true → NextReady s p l c q slot →
    (c.k.isNew = true → ∃ t c', exec (.activation p l) s = .next t ∧ Placed s t c c' l q slot ∧ c'.r = c.r ∧ c'.v.zmask = c.v.zmask) ∧
    ∀ b, c.k.isNew = false → ctxRead s.env s.w (pcnOf s.w l) c.id.part (slotWorld c 0) (c.id.frame + 0x2000) 4096 = .ok b →
      (field b 0x133 1 = verOf s.w c.id.part 1 → verOf s.w c.id.part 1 ≠ 0 → c.k.newer = [] →
        ∃ t c', exec (.activation p l) s = .next t ∧ Placed s t c c' l q slot ∧ c'.r = (ctlLoad b c).r) ∧
      (field b 0x133 1 ≠ verOf s.w c.id.part 1 ∨ verOf s.w c.id.part 1 = 0 →
        ∃ t c', exec (.activation p l) s = .next t ∧ course? t.w c.id.cid = some c' ∧ c'.k.at_ = .parked ∧ c'.k.await = .faults ∧
          c'.k.join = 1 ∧ c'.r = c.r ∧ Waits t c 0x01 c.id.frame (.whole c.id.cid))

/-- R62 to R66, R73: a line that a resident course waits for or prefetches comes from the frame, clean, or from the quadrant that caches it,
as it was there, or poisoned when that quadrant's core is muted or out of reach; one never written is zeros. A fill that cannot be
translated is dropped for a prefetch and parks the course for a demand; one without a line to take waits (the model's choice, log entry 58).
A victim, never of a resident course or a PINNED launch, is written to its frame, if it is dirty, and leaves the cache. -/
def Sys2Proof.Claims.RegisterCacheHold : Prop :=
  (∀ cid (r : R64) s c b, s.Inv → Keyed s → course? s.w cid = some c → wantsLine c r.val = true → CacheRoom s c →
    tGet? c.v.lines r.val = none →
    (isZero c r.val = true → ∃ t, exec (.registerFillComplete cid r) s = .next t ∧
      Landed s t cid c r ⟨quadOf c, mkLine fun _ => 0, true, false, false⟩ ∧
      ∀ c', course? t.w cid = some c' → isZero c' r.val = false) ∧
    (isZero c r.val = false → ctxRead s.env s.w (pcnOf s.w c.v.hcore) c.id.part (slotWorld c 0) (c.id.frame + 128 * r.val) 128 = .ok b → s.w.poison = [] →
      ∃ t, exec (.registerFillComplete cid r) s = .next t ∧
        Landed s t cid c r ⟨quadOf c, mkLine fun k => BitVec.ofNat 32 (field b (4 * k) 4), false, false, false⟩) ∧
    ∀ e, isZero c r.val = false →
      ctxRead s.env s.w (pcnOf s.w c.v.hcore) c.id.part (slotWorld c 0) (c.id.frame + 128 * r.val) 128 = .error e →
      (c.k.stall ≠ some (.fill r) → ∃ t c', exec (.registerFillComplete cid r) s = .next t ∧ t.mem = s.mem ∧
        course? t.w cid = some c' ∧ c' = { c with v := { c.v with pref := c'.v.pref } } ∧ c'.v.pref.getLsbD r.val = false ∧
        ∀ i, i ≠ r.val → c'.v.pref.getLsbD i = c.v.pref.getLsbD i) ∧
      (c.k.stall = some (.fill r) → ∃ t c', exec (.registerFillComplete cid r) s = .next t ∧ course? t.w cid = some c' ∧
        c'.k.at_ = .parked ∧ c'.k.await = .faults ∧
        Waits t c (if e.2 < 0x20 then 0x17 else e.2) (c.id.frame + 128 * r.val) (.whole cid))) ∧
  (∀ cid (r : R64) s c l, s.Inv → Keyed s → course? s.w cid = some c → wantsLine c r.val = true → CacheRoom s c →
    tGet? c.v.lines r.val = some l →
    ∃ t, exec (.remoteLineRead cid r) s = .next t ∧ Landed s t cid c r { l with
      quad := quadOf c, poison := l.poison || coreAway s.w (pcnOf s.w c.v.hcore) (pcnOf s.w (l.quad / 4)) }) ∧
  (∀ cid (r : R64) s c, s.Inv → Keyed s → course? s.w cid = some c → CacheFixed s c →
    (∃ t, exec (.registerFillComplete cid r) s = .next t ∧ t = s) ∧ ∃ t, exec (.remoteLineRead cid r) s = .next t ∧ t = s) ∧
  ∀ cid (r : R64) s c l, s.Inv → Keyed s → course? s.w cid = some c → tGet? c.v.lines r.val = some l →
    (c.k.at_ = .resident ∨ c.id.pinned = true ∨ l.pend = true → ∃ t, exec (.lineSpillComplete cid r) s = .next t ∧ t = s) ∧
    (c.k.at_ ≠ .resident → c.id.pinned = false → l.pend = false → ∃ t c', exec (.lineSpillComplete cid r) s = .next t ∧ course? t.w cid = some c' ∧
      c'.r = c.r ∧ c'.id = c.id ∧ (∀ n, n ≠ cid → l.dirty = false → course? t.w n = course? s.w n) ∧
      (∀ n, n ≠ r.val → tGet? c'.v.lines n = tGet? c.v.lines n) ∧
      (l.dirty = false → t.mem = s.mem ∧ tGet? c'.v.lines r.val = none) ∧
      ∀ ls, l.dirty = true →
        CtxWrites s (l.quad / 4) c.id.part (slotWorld c 0) (c.id.frame + 128 * r.val) 128 ls →
        tGet? c'.v.lines r.val = none ∧ (placeKeys ls).map t.mem.rd = bytesOf l ∧ ∀ a, a ∉ placeKeys ls → t.mem.rd a = s.mem.rd a)

/-- R70, R330: a unit that a course of a consort waits for and no consort holds, or one that yields, is given to it: its memory is as if never
written, unless it returns from the save area, and the courses that waited for it go on. A holder with data in it has it in its save
area. A unit that a running consort of another context holds is not taken. -/
def Sys2Proof.Claims.LazyClaimsHold : Prop :=
  ∀ kc u s k cid c, s.Inv → Keyed s → consort? s.w kc = some k → course? s.w cid = some c → c.id.consort = kc → c.k.at_ = .resident →
    c.k.stall = some (.claim u) →
    (claimable s.w kc u = false ∨ (∃ hc h, unitHolder s.w u = some hc ∧ consort? s.w hc = some h ∧ Keeps70 s kc k hc h) →
      ∃ t, exec (.lazyClaim kc u) s = .next t ∧ t = s) ∧
    (claimable s.w kc u = true → claimFaulted s.w k.part u = false → u ∉ k.away →
      (unitHolder s.w u = none → ∃ t, exec (.lazyClaim kc u) s = .next t ∧ unitHolder t.w u = some kc ∧
        (∀ i, i < (unitMem u).2 → t.mem.rd ((unitMem u).1 + i) = unlisted ((unitMem u).1 + i)) ∧
        (∀ a, a < (unitMem u).1 ∨ (unitMem u).1 + (unitMem u).2 ≤ a → t.mem.rd a = s.mem.rd a) ∧
        ∀ n d, course? s.w n = some d → course? t.w n = some
          (if d.id.consort = kc ∧ d.k.stall = some (.claim u) then { d with k := { d.k with stall := none } } else d)) ∧
      ∀ hc h w1, unitHolder s.w u = some hc → consort? s.w hc = some h → unitData s.env s.w u = true →
        saveUnit s.env s.w h u = .ok w1 →
        ∃ t h' c', exec (.lazyClaim kc u) s = .next t ∧ unitHolder t.w u = some kc ∧ consort? t.w hc = some h' ∧ u ∈ h'.away ∧
          course? t.w cid = some c' ∧ c'.k.stall = none ∧
          ∀ i, i < (unitMem u).2 → t.mem.rd ((unitMem u).1 + i) = unlisted ((unitMem u).1 + i))

/-- Activation and lazy claims, the claims named here together. -/
def Obligations.Activation : Prop :=
  Sys2Proof.Claims.ActivationsHold ∧ Sys2Proof.Claims.LazyClaimsHold

/-- R21, R67, R69, R249: a deferred result that returns under its course's tag enters the buffer, which stands in issue order; its value and
its flags wait for the marker. One of an older generation is discarded. -/
def Sys2Proof.Claims.DeferredReturnsHold : Prop :=
  ∀ n s f, s.Inv → s.w.flights.find? (fun f => f.n == n) = some f →
    (∀ c, course? s.w f.cid = some c → f.quad = quadOf c → f.slot = c.k.slot → f.gen = c.k.gen → c.id.cid = f.cid →
      ∃ t c', exec (.deferredResultReturn n) s = .next t ∧ t.mem = s.mem ∧ t.w.flights = s.w.flights.filter (fun f => f.n != n) ∧
        course? t.w f.cid = some c' ∧ c'.r = c.r ∧ c'.id = c.id ∧ c'.v = c.v ∧ c'.k = c.k ∧
        (∃ before after, c.w.buf = before ++ after ∧ c'.w = { c.w with buf := before ++ f :: after } ∧
          (∀ g ∈ before, g.n ≤ f.n) ∧ ∀ g ∈ after.head?, f.n < g.n) ∧
        ∀ m, m ≠ f.cid → course? t.w m = course? s.w m) ∧
    ((∀ c, course? s.w f.cid = some c → f.quad ≠ quadOf c ∨ f.slot ≠ c.k.slot ∨ f.gen ≠ c.k.gen) →
      ∃ t, exec (.deferredResultReturn n) s = .next t ∧
        t = { s with w := { s.w with flights := s.w.flights.filter fun f => f.n != n } })

/-- The register cache and deferred results, the claims named here together. -/
def Obligations.RegisterCache : Prop :=
  Sys2Proof.Claims.RegisterCacheHold ∧ Sys2Proof.Claims.DeferredReturnsHold ∧ Sys2Proof.Claims.MarkerClosesHold

/-- R142, R283, R285: at a parked record's deadline time has come so far, its Q of WAITTL.DL or BARDL is 0, and its counter falls by one. -/
def Sys2Proof.Claims.DeadlinesHold : Prop :=
  ∀ cid s c, s.Inv → Keyed s → course? s.w cid = some c →
    (c.k.at_ ≠ .parked ∨ c.k.deadline = none → ∃ t, exec (.deadlineExpiry cid) s = .next t ∧ t = s) ∧
    ∀ u, c.k.at_ = .parked → c.k.deadline = some u →
      ∃ t c', exec (.deadlineExpiry cid) s = .next t ∧ t.w.now = max s.w.now u ∧ t.mem = s.mem ∧ Woken s t cid c c' ∧
        (∀ n, n ≠ cid → course? t.w n = course? s.w n) ∧
        match c.k.await with
        | .timeline _ _ _ (some q) | .barrier _ (some q) => c'.r = (putQ c q.val false).r
        | _ => c'.r = c.r

/-- R70, R146, R329: a slice's end counts down its context's weight; then the next context's turn comes: the ready courses of the old one that
are not pinned halt with cause 0x85, none of it stays resident, and the halted courses of the new one are ready. Within the weight the
context's courses halt too, and are ready again. With one context no slice ends. -/
def Sys2Proof.Claims.SlicesHold : Prop :=
  ∀ p s, s.Inv → Keyed s →
    let x := ctxsOf s p
    (x.count ≤ 1 → ∃ t, exec (.schedulingSliceEnd p) s = .next t ∧ t = s) ∧
    (1 < x.count → x.next = none → x.cur < x.count → (∀ y ∈ s.w.courses, NearLines y.2) →
      (1 < x.left → ∃ t, exec (.schedulingSliceEnd p) s = .next t ∧ t.w.now = max s.w.now x.endAt ∧
        ctxsOf t p = { x with left := x.left - 1, endAt := max s.w.now x.endAt + x.slice * 1600 } ∧
        ∀ n c, course? s.w n = some c → c.id.part = p → c.id.ctx = x.cur → c.id.pinned = false →
          c.k.at_ = .ready ∨ c.k.at_ = .resident → ∃ c', course? t.w n = some c' ∧ c'.k.cause = 0x85 ∧ c'.k.at_ ≠ .resident ∧
            ∀ k, c.k.at_ = .ready → consort? s.w c.id.consort = some k → k.haltb = false → hasPend c = false →
              c'.k.at_ = .ready ∧ c'.r = c.r) ∧
      (x.left ≤ 1 → ∃ t, exec (.schedulingSliceEnd p) s = .next t ∧ t.w.now = max s.w.now x.endAt ∧
        ctxsOf t p = { x with
          cur := (x.cur + 1) % x.count
          left := max 1 (x.weights.getD ((x.cur + 1) % x.count) 1)
          endAt := max s.w.now x.endAt + x.slice * 1600 } ∧
        (∀ n c, course? s.w n = some c → c.id.part = p → c.id.ctx = x.cur → c.id.pinned = false →
          c.k.at_ = .ready ∨ c.k.at_ = .resident → ∃ c', course? t.w n = some c' ∧
            (c.k.at_ = .ready → c'.k.at_ = .halted ∧ c'.k.cause = 0x85) ∧ c'.k.at_ ≠ .resident ∧ c'.k.at_ ≠ .ready) ∧
        ∀ n c k, course? s.w n = some c → c.id.part = p → c.id.ctx = (x.cur + 1) % x.count → c.k.at_ = .halted →
          consort? s.w c.id.consort = some k → k.haltb = false → hasPend c = false →
          ∃ c', course? t.w n = some c' ∧ c'.k.at_ = .ready ∧ c'.r = c.r))

/-- R168, R336: a request that gets no reply in time is noted on the course's lanes, its fetch, the engine operation, its page walk, or the
partition, whose next request it is (log entry 3). -/
def Sys2Proof.Claims.RequestTimeoutsHold : Prop :=
  (∀ id lanes performed s c, s.Inv → course? s.w id = some c →
    ∃ t, exec (.requestTimeout .course id lanes performed) s = .next t ∧ t.mem = s.mem ∧
      (∀ n, n ≠ id → course? t.w n = course? s.w n) ∧
      (c.k.at_ = .resident → lanes ≠ 0 → course? t.w id = some { c with k := { c.k with tmo := some (lanes, performed) } }) ∧
      (c.k.at_ ≠ .resident ∨ lanes = 0 → course? t.w id = some c)) ∧
  (∀ id lanes performed s c, s.Inv → course? s.w id = some c →
    ∃ t, exec (.requestTimeout .fetch id lanes performed) s = .next t ∧ t.mem = s.mem ∧
      (∀ n, n ≠ id → course? t.w n = course? s.w n) ∧
      course? t.w id = some (if c.k.at_ = .resident then { c with k := { c.k with fetchLost := true } } else c)) ∧
  (∀ id lanes performed s o, s.Inv → tGet? s.w.ops id = some o →
    ∃ t, exec (.requestTimeout .engine id lanes performed) s = .next t ∧ t.mem = s.mem ∧ t.w.courses = s.w.courses ∧
      tGet? t.w.ops id = some { o with tmo := true, tmoDone := performed } ∧ ∀ n, n ≠ id → tGet? t.w.ops n = tGet? s.w.ops n) ∧
  (∀ id lanes performed s o, s.Inv → tGet? s.w.ops id = some o →
    ∃ t, exec (.requestTimeout .engineWalk id lanes performed) s = .next t ∧ t.mem = s.mem ∧ t.w.courses = s.w.courses ∧
      tGet? t.w.ops id = some { o with tmoWalk := true } ∧ ∀ n, n ≠ id → tGet? t.w.ops n = tGet? s.w.ops n) ∧
  ∀ p lanes performed s, s.Inv →
    ∃ t, exec (.requestTimeout .device p lanes performed) s = .next t ∧ t = { s with w := { s.w with lost := p :: s.w.lost } } ∧
      ∀ row tr va n, ownPlaces t.w row p tr va n = .error (va, 0x22)

/-- Deadlines, slices and request timeouts, the claims named here together. -/
def Obligations.TimedEvents : Prop :=
  Sys2Proof.Claims.DeadlinesHold ∧ Sys2Proof.Claims.SlicesHold ∧ Sys2Proof.Claims.RequestTimeoutsHold

namespace Sys2Proof.Claims

open Sys2Proof.Machine

/-! ## Device memory, links and errors (R92 to R113, R156, R170, R173, R178, R196, R197) -/

/-- An event of partition p was told to its event function and to the PF, with its code, DETAIL and ADDR (R151). -/
def ToldBoth (s t : State) (p wd code detail addr : Nat) : Prop :=
  Told s t (eventFn s.w p) p wd code detail addr ∧ Told s t 0 p wd code detail addr

/-- The state with the frames under the places of a write or an atomic scrubbed, where they wait for it (R109; that the scrub comes first
is the model's choice, log entry 62). -/
def Scrubbed (s : State) (acc : Acc) (ls : List (Loc × Nat × Nat)) : State :=
  if acc = .read then s else commit (fun e w => afterScrub e w ls) s

/-- The state with one more answer given. -/
def Replied (s : State) (r : Reply) : State := { s with w := { s.w with replies := r :: s.w.replies } }

/-- A row of the connection matrix is VALID and includes a slice (R156). -/
def Reaches (s : State) (row sl : Nat) : Prop :=
  (tGetD s.w.hub.matrix row 0).getLsbD 31 = true ∧ (tGetD s.w.hub.matrix row 0).getLsbD sl = true

/-- A request of a kind performed at places: the reply it sends and the memory it leaves (R94, R129, R170, R251). -/
structure Performed (s t : State) (r : SliceReq) (ls : List (Loc × Nat × Nat)) : Prop where
  read : r.acc = .read → placesStop s.w ls = none →
    t = { s with w := { s.w with replies := .data (rdPlaces s.env s.w r.world ls) :: s.w.replies } }
  poisoned : ∀ a, r.acc = .read → placesStop s.w ls = some (0x20, a) → t = { s with w := { s.w with replies := .poison :: s.w.replies } }
  muted : ∀ a, r.acc = .read → placesStop s.w ls = some (0x21, a) → t = { s with w := { s.w with replies := .muted :: s.w.replies } }
  write : r.acc = .write → placesMuted s.w ls = none → SameTag s.w r.world ls → r.size ≤ r.data.length →
    (placeKeys ls).length = r.size → (placeKeys ls).Nodup →
    t.w = { s.w with replies := .done :: s.w.replies, poison := t.w.poison } ∧
    (placeKeys ls).map t.mem.rd = r.data.take r.size ∧ ∀ a, a ∉ placeKeys ls → t.mem.rd a = s.mem.rd a
  atom : r.acc = .atom ∨ r.acc = .red → placesStop s.w ls = none → placesMuted s.w ls = none → SameTag s.w r.world ls →
    (placeKeys ls).length = atWidth r.op → (placeKeys ls).Nodup → (∀ y ∈ ls, readStop s.w y.1 = none) →
    (∀ y ∈ ls, match y.1 with | .dev sl _ pa => scrubbing s.w sl pa = false | _ => True) →
    let p := atomSeq r.op [(placeKeys ls, leNat r.data, leNat r.data2)] s.mem.rd
    (∀ a, t.mem.rd a = p.1 a) ∧
    t.w = { s.w with replies :=
      (if r.acc = .atom then .data (leBytes (atWidth r.op) (p.2.getD 0 0)) else .done) :: s.w.replies }

/-- The places of an incoming access in the exporting partition, by stage 2 (R197). -/
def fabPlaces (s : State) (p a n : Nat) (acc : Acc) : Except (Nat × Xr Loc) (List (Loc × Nat × Nat)) :=
  placesOf (fun a => (stage2 s.env s.w p a (accNeed acc)).bind fun (pa, _, _) =>
    match physLoc s.fix.form (part s.w p) pa with
    | none => Xr.fail 0x16
    | some (sl, l) => .ok (Loc.dev sl l pa)) (piecesOf a n)

/-- The bytes that an access of a kind moves. -/
def bytesMoved (acc : Acc) (op : AtOp) (size : Nat) : Nat :=
  match acc with
  | .read | .write => size
  | .atom | .red => atWidth op

/-- Each slice among the places stands in a requester's row (R156). -/
def ReachesAll (s : State) (row : Nat) (ls : List (Loc × Nat × Nat)) : Prop :=
  ∀ y ∈ ls, match y.1 with | .dev sl _ _ => Reaches s row sl | _ => True

/-- The answer just given in u goes out over a port as a flit, which is kept; an XOFF of the replies' class holds it back (R196). -/
def Exchanged (t u : State) (n : Nat) : Prop :=
  ((port u.w n).xoff.getLsbD 1 = false → t = { u with w := flitOut u.w n }) ∧
  ((port u.w n).xoff.getLsbD 1 = true → ∀ r rs, u.w.replies = r :: rs →
    t = { u with w := updPort { u.w with replies := rs } n fun p => { p with held := p.held ++ [r] } })

/-- A local physical address lies in a 2 MiB frame of a partition, and stands at a key (R92, R109). -/
def InFrame (s : State) (p frame a : Nat) : Prop :=
  ∃ i sl l, i < 2 ^ 21 ∧ physLoc s.fix.form (part s.w p) (frame * 2 ^ 21 + i) = some (sl, l) ∧ a = keyDev sl l

/-- The courses whose stall is y go on; the others stand as they were. -/
def GoesOn (s t : State) (y : Stall) : Prop :=
  ∀ m c, course? s.w m = some c →
    course? t.w m = some (if c.k.stall = some y then { c with k := { c.k with stall := none } } else c)

/-- The event changed a port, or nothing: no other port and no memory. -/
def PortIs (s t : State) (n : Nat) (p : Port) : Prop :=
  t.mem = s.mem ∧ port t.w n = p ∧ ∀ m, m ≠ n → port t.w m = port s.w m

/-- A consort ended as lost with a status (R138): it and its courses are gone, its launch counts it. -/
structure Lost (s t : State) (kc : Nat) (k : Consort) (status : Nat) : Prop where
  gone : consort? t.w kc = none
  courses : ∀ n d, course? s.w n = some d → d.id.consort = kc → course? t.w n = none
  launch : ∀ l, launch? s.w k.launch = some l → l.ended + 1 < l.hdr.ccount →
    ∃ l', launch? t.w k.launch = some l' ∧ l'.ended = l.ended + 1 ∧ l'.lost = l.lost + 1 ∧
      (l.first = none → l'.first = some (k.idx, status))

end Sys2Proof.Claims

/-- R93, R94, R109, R113, R129, R156, R170, R184: a request of a row that does not reach the slice gets an error reply, of a core's row with
host event 0x13 (of a row of the hub or of a port none: the model's choice, log entry 59); one that muted tiles keep from the slice a MUTED
reply; any other is performed and answered, a write or an atomic after the scrub that its frame waits for (the model's choice, log entry
62). -/
def Sys2Proof.Claims.SliceRequestsHold : Prop :=
  ∀ (r : SliceReq) s sl l, s.Inv → physLoc s.fix.form (part s.w r.part) r.pa = some (sl, l) →
    let n := bytesMoved r.acc r.op r.size
    n ≠ 0 → r.pa % 32 + n ≤ 32 →
    (¬ Reaches s r.row sl → 72 ≤ r.row → ∃ t, exec (.sliceRequest r) s = .next t ∧ t = Replied s .error) ∧
    (¬ Reaches s r.row sl → r.row < 72 → ∃ t, exec (.sliceRequest r) s = .next t ∧ t.w.replies.head? = some .error ∧
      ToldBoth s t r.part r.world 0x13 r.row sl ∧ ∀ a, a < 2 ^ 60 → t.mem.rd a = s.mem.rd a) ∧
    let ls := [(Loc.dev sl l r.pa, r.pa, n)]
    (Reaches s r.row sl → placesCut s.w r.row ls ≠ none → ∃ t, exec (.sliceRequest r) s = .next t ∧ t = Replied s .muted) ∧
    (Reaches s r.row sl → placesCut s.w r.row ls = none →
      ∃ t, exec (.sliceRequest r) s = .next t ∧ Performed (Scrubbed s r.acc ls) t r ls)

/-- R101, R103, R336: a walk that ends in a page of device memory puts its combined translation into the TLBs, and a translation through
it gives what the walk gave; a failed walk caches nothing. -/
def Sys2Proof.Claims.PageWalksHold : Prop :=
  ∀ p asid va priv s, s.Inv →
    (walkEntry s.env s.w p asid va priv = none → ∃ t, exec (.pageWalkComplete p asid va priv) s = .next t ∧ t = s) ∧
    ∀ y, walkEntry s.env s.w p asid va priv = some y → (∀ z ∈ s.w.tlb, ¬ (z.part = p ∧ z.asid = asid ∧ z.page = va / 4096)) →
      ∃ t, exec (.pageWalkComplete p asid va priv) s = .next t ∧ t = { s with w := { s.w with tlb := y :: s.w.tlb } } ∧
        y.part = p ∧ y.asid = asid ∧ y.page = va / 4096 ∧
        ∀ nd priv', translate t.env t.w p (asidWorld s.w p asid) asid va nd priv' =
          translate s.env s.w p (asidWorld s.w p asid) asid va nd priv'

/-- R104, R105: a stage-2 entry that hub firmware writes stands in memory with an invalidation in progress; its completion leaves no TLB
entry formed from the page and every other. -/
def Sys2Proof.Claims.Stage2ChangesHold : Prop :=
  (∀ p ipa a (entry : BitVec 64) s sl l, s.Inv → a % 8 = 0 →
    ownPlaces s.w 72 p (physPlace s.env s.w p) a 8 = .ok [(.dev sl l a, a, 8)] → scrubbing s.w sl a = false →
    SameTag s.w 0 [(.dev sl l a, a, 8)] →
    ∃ t x, exec (.stage2Invalidation p ipa a entry) s = .next t ∧ t.w = { s.w with invals := s.w.invals ++ [x] } ∧
      x.part = p ∧ x.ipa = ipa ∧ (∀ y ∈ s.w.invals, y.n < x.n) ∧
      (keysFrom (keyDev sl l) 8).map t.mem.rd = leBytes 8 entry.toNat ∧
      ∀ b, b ∉ keysFrom (keyDev sl l) 8 → t.mem.rd b = s.mem.rd b) ∧
  ∀ n s x, s.Inv → s.w.invals.find? (fun y => y.n == n) = some x →
    ∃ t, exec (.tlbInvalidationComplete n) s = .next t ∧ t.mem = s.mem ∧
      t.w = { s.w with invals := t.w.invals, tlb := t.w.tlb } ∧ (∀ y, y ∈ t.w.invals ↔ y ∈ s.w.invals ∧ y.n ≠ n) ∧
      ∀ y, y ∈ t.w.tlb ↔ y ∈ s.w.tlb ∧ ¬ (y.part = x.part ∧ y.ipa / y.size2 = x.ipa / y.size2)

/-- R106, R107: an ATS completion records what the host grants for a page to the ASID that asked and lets the accesses that waited for it go
on; an ATS invalidation forgets the page for every ASID and is answered. -/
def Sys2Proof.Claims.AtsEventsHold : Prop :=
  ∀ (n : FnNo) pasid iova s, s.Inv → let p := (fn s.w n.val).part
    (∀ asid r x, ∃ t, exec (.atsTranslationCompletion n asid pasid iova ⟨r, x⟩) s = .next t ∧ t.mem = s.mem ∧
      t.w = { s.w with ats := t.w.ats, courses := t.w.courses } ∧ atsGrant t.w p asid pasid iova = some (r, x) ∧
      (∀ q b y i, ¬ (q = p ∧ b = asid ∧ y = pasid ∧ i / 4096 = iova / 4096) → atsGrant t.w q b y i = atsGrant s.w q b y i) ∧
      ∀ m c, course? s.w m = some c → course? t.w m = some
        (if c.k.stall = some (.ats p asid pasid (iova / 4096)) then { c with k := { c.k with stall := none } } else c)) ∧
    ∃ t, exec (.atsInvalidationRequest n pasid iova) s = .next t ∧ t.mem = s.mem ∧
      t.w = { s.w with ats := t.w.ats, replies := .ats iova :: s.w.replies } ∧
      (∀ b, atsGrant t.w p b pasid iova = none) ∧
      ∀ q b y i, ¬ (q = p ∧ y = pasid ∧ i / 4096 = iova / 4096) → atsGrant t.w q b y i = atsGrant s.w q b y i

/-- R92, R109, R112: frames of a partition's range bound to another tenant wait for a scrub; a scrubbed frame reads 0, has no poison, waits
no more, and the accesses that waited for it go on. A key load fills one of the 2,048 key slots and counts in device event 4. -/
def Sys2Proof.Claims.ScrubsAndKeysHold : Prop :=
  (∀ p frames s, s.Inv → ∃ t, exec (.scrubOnBind p frames) s = .next t ∧ t.mem = s.mem ∧
    t.w = { s.w with scrub := t.w.scrub } ∧
    ∀ y, y ∈ t.w.scrub ↔ y ∈ s.w.scrub ∨
      (y.1 = p ∧ y.2 ∈ frames ∧ physLoc s.fix.form (part s.w p) (y.2 * 2 ^ 21) ≠ none)) ∧
  (∀ p frame s, s.Inv →
    ((p, frame) ∉ s.w.scrub → ∃ t, exec (.scrubFrameComplete p frame) s = .next t ∧ t = s) ∧
    ((p, frame) ∈ s.w.scrub → ∃ t, exec (.scrubFrameComplete p frame) s = .next t ∧
      (∀ y, y ∈ t.w.scrub ↔ y ∈ s.w.scrub ∧ y ≠ (p, frame)) ∧ (∀ a, InFrame s p frame a → t.mem.rd a = 0) ∧
      (∀ a, ¬ InFrame s p frame a → t.mem.rd a = s.mem.rd a) ∧
      (∀ u, u ∈ t.w.poison ↔ u ∈ s.w.poison ∧ ¬ InFrame s p frame u) ∧ GoesOn s t (.scrub p frame))) ∧
  ∀ key s, s.Inv → ∃ t, exec (.keyLoadComplete key) s = .next t ∧ t.mem = s.mem ∧ key ∈ t.w.sec.keySlots ∧
    (key ∈ s.w.sec.keySlots → t = s) ∧
    (key ∉ s.w.sec.keySlots → t.w.sec.keySlots.length ≤ 2048 ∧ tGetD t.w.hub.dev 4 0 = (tGetD s.w.hub.dev 4 0 + 1) % 2 ^ 64 ∧
      ∀ n, n ≠ 4 → tGetD t.w.hub.dev n 0 = tGetD s.w.hub.dev n 0)

/-- Page walks, stage 2, ATS, scrubs and keys, the claims named here together. -/
def Obligations.Translations : Prop :=
  Sys2Proof.Claims.PageWalksHold ∧ Sys2Proof.Claims.Stage2ChangesHold ∧ Sys2Proof.Claims.AtsEventsHold ∧ Sys2Proof.Claims.ScrubsAndKeysHold

/-- R156, R184, R196, R197: an incoming fabric access over a link that takes it is answered by a flit: refused where no valid export entry
admits it or stage 2 stops it, an error where the port's row does not reach its slices, MUTED where muted tiles keep it from them; any other
is performed in the exported space, after the scrub that a write waits for. A link that is down takes nothing, nor does one any flit but the
next in number. That a flit taken acknowledges all that were sent (log entry 13) and a refused access is no host event (59) is the model's
choice. -/
def Sys2Proof.Claims.FabricAccessesHold : Prop :=
  ∀ (port_ : Fin 12) p sdev seq spart addr acc op size data data2 s, s.Inv →
    let off := addr % 2 ^ 36
    let n := bytesMoved acc op size
    let taken : State := { s with w := flitIn s.w port_.val }
    let r : SliceReq := ⟨73 + port_.val, p, 0, acc, op, 0, size, data, data2⟩
    let i := Instr.fabricAccessIn ⟨port_, sdev, seq⟩ p spart addr acc op size data data2
    (takesFlit s.w port_.val seq = false → ∃ t, exec i s = .next t ∧ t = s) ∧
    (takesFlit s.w port_.val seq = true →
      (exportAt s.env s.w p (addr / 2 ^ 36 % 4096) = none → ∃ t, exec i s = .next t ∧ Exchanged t (Replied taken .refused) port_.val) ∧
      ∀ x, exportAt s.env s.w p (addr / 2 ^ 36 % 4096) = some x →
        (x.admits sdev spart off n acc = false → ∃ t, exec i s = .next t ∧ Exchanged t (Replied taken .refused) port_.val) ∧
        (x.admits sdev spart off n acc = true → n ≠ 0 →
          (∀ e, fabPlaces s p (x.ipa + off) n acc = .error e →
            ∃ t, exec i s = .next t ∧ Exchanged t (Replied taken .refused) port_.val) ∧
          ∀ ls, fabPlaces s p (x.ipa + off) n acc = .ok ls →
            (¬ ReachesAll s r.row ls → ∃ t, exec i s = .next t ∧ Exchanged t (Replied taken .error) port_.val) ∧
            (ReachesAll s r.row ls → placesCut s.w r.row ls ≠ none →
              ∃ t, exec i s = .next t ∧ Exchanged t (Replied taken .muted) port_.val) ∧
            (ReachesAll s r.row ls → placesCut s.w r.row ls = none →
              ∃ t u, exec i s = .next t ∧ Exchanged t u port_.val ∧ Performed (Scrubbed taken acc ls) u r ls)))

/-- R94, R178, R196: in every state these complete: SLICE_REQUEST, FABRIC_ACCESS_IN, CELILE_FLIT_CRC_ERROR, CELILE_LINK_RESET,
CELILE_RETRAIN_TIMEOUT, CELILE_LINK_DOWN and CELILE_XON_XOFF; what they do is stated beside this. -/
def Sys2Proof.Claims.RequestsCompleteHold : Prop :=
  ∀ (n : Fin 12) s, s.Inv →
    (∀ r, ∃ t, exec (.sliceRequest r) s = .next t ∧ t.Inv) ∧
    (∀ part sdev seq spart addr acc op size data data2,
      ∃ t, exec (.fabricAccessIn ⟨n, sdev, seq⟩ part spart addr acc op size data data2) s = .next t ∧ t.Inv) ∧
    (∀ far, ∃ t, exec (.celileFlitCrcError ⟨n, far⟩) s = .next t ∧ t.Inv) ∧ (∀ v, ∃ t, exec (.celileLinkReset ⟨n, v⟩) s = .next t ∧ t.Inv) ∧
    (∃ t, exec (.celileRetrainTimeout n) s = .next t ∧ t.Inv) ∧ (∀ r, ∃ t, exec (.celileLinkDown n r) s = .next t ∧ t.Inv) ∧
    ∀ c on, ∃ t, exec (.celileXonXoff n c on) s = .next t ∧ t.Inv

/-- R178, R196, R199: on a Celile port a flit with a bad CRC starts a discard and asks for replay from the next number; one that the link's
other end found bad is sent again with those after it that are kept. A reset ends the discard: a link back in time is up under the highest
common version and sends again what was not acknowledged, one with no common version is down with reason 2, one not back takes nothing, and
after 100 µs loses its packets; a link that goes down loses them and is host event 0x14 with port and reason; XON and XOFF let a class send
or stop it: courses that wait for the port go on, and answers held back leave. What a link that goes down loses of its key (log entry 12),
how flits are counted (13) and what a reset sends again (25) is the model's choice. -/
def Sys2Proof.Claims.CelileLinksHold : Prop :=
  ∀ (n : Fin 12) s, s.Inv → let p := port s.w n.val
    (p.up = true → p.discarding = false → ∃ t, exec (.celileFlitCrcError ⟨n, none⟩) s = .next t ∧
      PortIs s t n.val { p with discarding := true, replayFrom := some p.rx } ∧ t.w.replies = .link n.val p.rx :: s.w.replies) ∧
    (p.up = false ∨ p.discarding = true → ∃ t, exec (.celileFlitCrcError ⟨n, none⟩) s = .next t ∧ t = s) ∧
    (∀ seq, ∃ t, exec (.celileFlitCrcError ⟨n, some seq⟩) s = .next t ∧
      (p.up = false ∨ (∀ m ∈ p.unacked, m < seq) → t = s) ∧
      (p.up = true → (∃ m ∈ p.unacked, seq ≤ m) → t = Replied s (.resent n.val (p.unacked.filter fun m => seq ≤ m)))) ∧
    (∀ vers, ∃ t, exec (.celileLinkReset ⟨n, vers⟩) s = .next t ∧ (∀ m, m ≠ n.val → port t.w m = port s.w m) ∧
      (vers = 0 → port t.w n.val = { p with up := false, discarding := false, replayFrom := none, retrain := some (s.w.now + 160000) } ∧
        (portParts s.w n.val = [] → GoesOn s t (.link n.val))) ∧
      (vers ≠ 0 → vers % 4 = 0 → port t.w n.val =
        { p with up := false, discarding := false, replayFrom := none, retrain := none, unacked := [], held := [], key := none }) ∧
      (vers % 4 ≠ 0 → port t.w n.val =
          { p with up := true, ver := (if vers % 4 = 1 then 1 else 2), discarding := false, replayFrom := none, retrain := none } ∧
        (p.unacked ≠ [] → Reply.resent n.val p.unacked ∈ t.w.replies))) ∧
    (p.retrain = none → ∃ t, exec (.celileRetrainTimeout n) s = .next t ∧ t = s) ∧
    (∀ u, p.retrain = some u → ∃ t, exec (.celileRetrainTimeout n) s = .next t ∧ t.w.now = max s.w.now u ∧
      PortIs s t n.val { p with retrain := none, unacked := [] }) ∧
    (∀ (cls : Fin 4) on, ∃ t, exec (.celileXonXoff n cls on) s = .next t ∧
      (on = false ∨ cls.val ≠ 1 → PortIs s t n.val { p with xoff := (port t.w n.val).xoff } ∧ t.w.replies = s.w.replies) ∧
      (on = true → cls.val = 1 → t.w.replies = p.held.reverse ++ s.w.replies ∧ PortIs s t n.val { p with
        xoff := (port t.w n.val).xoff
        held := []
        tx := p.tx + p.held.length
        unacked := p.unacked ++ (List.range p.held.length).map (p.tx + ·) }) ∧
      (on = true → cls.val = 0 → GoesOn s t (.link n.val)) ∧ (on = false ∨ cls.val ≠ 0 → t.w.courses = s.w.courses) ∧ (port t.w n.val).xoff.getLsbD cls.val = !on ∧
      ∀ i, i < 4 → i ≠ cls.val → (port t.w n.val).xoff.getLsbD i = p.xoff.getLsbD i) ∧
    ∀ (r : Fin 5),
      (p.up = false ∨ r.val = 0 → ∃ t, exec (.celileLinkDown n r) s = .next t ∧ t = s) ∧
      (p.up = true → r.val ≠ 0 → ∃ t, exec (.celileLinkDown n r) s = .next t ∧
        port t.w n.val =
          { p with up := false, unacked := [], held := [], retrain := none, discarding := false, replayFrom := none, key := none } ∧
        GoesOn s t (.link n.val) ∧
        (∀ m, m ≠ n.val → port t.w m = port s.w m) ∧
        (portParts s.w n.val = [] → Told s t 0 0 0 0x14 (n.val + r.val * 256) 0) ∧
        ∀ q, portParts s.w n.val = [q] → ToldBoth s t q 0 0x14 (n.val + r.val * 256) 0)

/-- Requests to slices, over the fabric and on Celile links, the claims named here together. -/
def Obligations.Requests : Prop :=
  Sys2Proof.Claims.SliceRequestsHold ∧ Sys2Proof.Claims.FabricAccessesHold ∧ Sys2Proof.Claims.RequestsCompleteHold ∧ Sys2Proof.Claims.CelileLinksHold

/-- R14, R158, R170, R173, R180: an uncorrectable error poisons its unit and changes no data; one in DRAM or a home cache counts in slice event
4. A corrected error counts in its tile's HEALTH word, in a slice in event 3 too. A failure of the hub die ends in a device
error, after which the device has failed (the model's choice, log entry 33). -/
def Sys2Proof.Claims.UncorrectableErrorsHold : Prop :=
  ∀ u s, s.Inv → ∃ t, exec (.uncorrectableError u) s = .next t ∧ t.mem = s.mem ∧
    match u with
    | .sector sl l => isPois t.w (keyDev sl l) = true ∧
        tGetD t.w.hub.sliceEv (16 * sl + 4) 0 = (tGetD s.w.hub.sliceEv (16 * sl + 4) 0 + 1) % 2 ^ 64
    | .scratch pcn o => isPois t.w (keyScr pcn 0 o) = true
    | .line cid r => ∀ c l, course? s.w cid = some c → tGet? c.v.lines r.val = some l → ∃ c', course? t.w cid = some c' ∧
        c'.r = c.r ∧ tGet? c'.v.lines r.val = some { l with poison := true }
    | .granule cid g => ∀ c, course? s.w cid = some c → ∃ c', course? t.w cid = some c' ∧ c'.r = c.r ∧ 256 + g.val ∈ c'.v.pois
    | .pred cid => ∀ c, course? s.w cid = some c → ∃ c', course? t.w cid = some c' ∧ c'.r = c.r ∧ 264 ∈ c'.v.pois ∧ 265 ∈ c'.v.pois
    | .accBlock pcn q g cb => isPois t.w (keyAcc pcn q g cb 0 0) = true
    | .scale pcn q col g => isPois t.w (keyScale pcn q col (32 * g)) = true
    | .corrected x => bvF (tile t.w x.val).word 40 8 = min 255 (bvF (tile s.w x.val).word 40 8 + 1) ∧ t.w.poison = s.w.poison ∧
        (tileIsCore x.val = false → let n := 16 * sliceOfTile x.val + 3
          tGetD t.w.hub.sliceEv n 0 = (tGetD s.w.hub.sliceEv n 0 + 1) % 2 ^ 64)
    | .hubDie => t.w.hub.failed = true ∧ t.w.replies = .deviceError :: s.w.replies

/-- R138, R173: a control-state error ends the consorts it touches as lost with status 0x23; an engine found corrupt takes no operation, those
it had are over, and its quadrant or core is withheld. That one event does all of this is the model's choice (log entry 33). -/
def Sys2Proof.Claims.ControlStateErrorsHold : Prop :=
  (∀ u s c k kc, s.Inv → Keyed s → (∃ cid, u = .slot cid ∧ course? s.w cid = some c ∧ c.id.consort = kc) ∨ u = .barrier kc ∨ u = .ticket kc →
    consort? s.w kc = some k → k.st = .placed → kc < s.w.nextConsort →
    ∃ t, exec (.controlStateError u) s = .next t ∧ Lost s t kc k 0x23) ∧
  (∀ pcn q s, s.Inv → Keyed s → ∃ t, exec (.controlStateError (.chisel pcn q)) s = .next t ∧
    (quad t.w (4 * pcn + q % 4)).chiselOk = false ∧ (quad t.w (4 * pcn + q % 4)).withheld = true ∧
    (∀ n o, tGet? s.w.ops n = some o → o.pcn = pcn → o.kind.chisel = true → o.quad = q % 4 → tGet? t.w.ops n = none) ∧
    ∀ n c, course? s.w n = some c → c.k.at_ = .resident → quadOf c = 4 * lcoreOf s.w pcn + q % 4 →
      c.id.consort < s.w.nextConsort → consort? t.w c.id.consort = none) ∧
  ∀ pcn u s, s.Inv → Keyed s → u = .copyEngine pcn ∨ u = .collPort pcn ∨ u = .actUnit pcn →
    ∃ t, exec (.controlStateError u) s = .next t ∧
      let c := Sys2Proof.Machine.core t.w pcn
      c.withheld = true ∧ (u = .copyEngine pcn → c.copyOk = false) ∧ (u = .collPort pcn → c.collOk = false) ∧
      (u = .actUnit pcn → c.actOk = false) ∧
      (∀ n o, tGet? s.w.ops n = some o → o.pcn = pcn → (o.kind.isCopy = true ∧ u = .copyEngine pcn) ∨ (o.kind = .coll ∧ u = .collPort pcn) →
        tGet? t.w.ops n = none) ∧
      ∀ kc k, consort? s.w kc = some k → k.st = .placed → lcoreOf s.w pcn ∈ k.cores → kc < s.w.nextConsort →
        consort? t.w kc = none

/-- Uncorrectable and control-state errors, the claims named here together. -/
def Obligations.Errors : Prop :=
  Sys2Proof.Claims.UncorrectableErrorsHold ∧ Sys2Proof.Claims.ControlStateErrorsHold

namespace Sys2Proof.Claims

open Sys2Proof.Machine

/-! ## Engines (R34 to R36, R299 to R311) -/

/-- The word of an accumulator block (R85). -/
def accOf (m : Memory) (b : Block) (r c : Nat) : Nat := leNat ((keysFrom (b.key + (64 * r + c) * 4) 4).map m.rd)

/-- Memory outside one block is as before. -/
def OnlyBlock (s t : State) (b : Block) : Prop := ∀ a, a < b.key ∨ b.key + 16384 ≤ a → t.mem.rd a = s.mem.rd a

/-- What a step makes of an FP32 accumulator word (R35): the NaN cases, the infinities, else the exact sum rounded once. -/
def StepWord (acc : Nat) (terms : List Fv) (sc : Option (Nat × Nat)) (r : Nat) : Prop :=
  let v := fp32.decode acc
  let pos := ∃ t ∈ terms, t.isInf = true ∧ t.neg = false
  let neg := ∃ t ∈ terms, t.isInf = true ∧ t.neg = true
  let nan := v.isNan = true ∨ (∃ t ∈ terms, t.isNan = true) ∨ (∃ a b, sc = some (a, b) ∧ (a = 0xFF ∨ b = 0xFF)) ∨ (pos ∧ neg)
  (nan → r = 0x7FC00000) ∧
  (¬ nan → pos → r = if v.isInf = true ∧ v.neg = true then 0x7FC00000 else 0x7F800000) ∧
  (¬ nan → neg → r = if v.isInf = true ∧ v.neg = false then 0x7FC00000 else 0xFF800000) ∧
  (¬ nan → ¬ pos → ¬ neg → v.isInf = true → r = fp32.infBits v.neg) ∧
  (¬ nan → ¬ pos → ¬ neg → v.isInf = false →
    let k : ℚ := match sc with | some (a, b) => 2 ^ ((a : Int) - 127) * 2 ^ ((b : Int) - 127) | none => 1
    ∃ fl, RoundedOnce fp32 .rne (ratOf v + (terms.map ratOf).sum * k) false (r, fl))

/-- The sum of a row of FP32 words (R306). -/
def RowSum (xs : List Nat) (r : Nat) : Prop :=
  let vs := xs.map fp32.decode
  let pos := ∃ v ∈ vs, v.isInf = true ∧ v.neg = false
  let neg := ∃ v ∈ vs, v.isInf = true ∧ v.neg = true
  let nan := (∃ v ∈ vs, v.isNan = true) ∨ (pos ∧ neg)
  (nan → r = 0x7FC00000) ∧ (¬ nan → pos → r = 0x7F800000) ∧ (¬ nan → neg → r = 0xFF800000) ∧
  (¬ nan → ¬ pos → ¬ neg → ∃ fl, RoundedOnce fp32 .rne (vs.map ratOf).sum (vs.all fun v => v.isZero && v.neg) (r, fl))

/-- The bits of an element's field. -/
def elemBits (fmt : Nat) : Nat := if fmt = 6 then 6 else 8 * elemBytes fmt

/-- A panel's elements are in its allotted counts and its lines do not overlap. -/
def Sound (p : Panel) : Prop := p.vrows ≤ p.rows ∧ p.vcols ≤ p.cols ∧ lineExt p.fmt p.per ≤ p.pitch

/-- The elements of a panel in a set are written, all other elements and bytes stand. -/
def PanelWrote (s t : State) (k : Consort) (p : Panel) (b : Nat) (at_ : Nat → Nat → Prop) (v : Nat → Nat → Nat) : Prop :=
  (∀ r c, r < p.vrows → c < p.vcols → at_ r c → rdElem t.env t.w k p b r c = v r c % 2 ^ elemBits p.fmt) ∧
  (∀ r c, r < p.vrows → c < p.vcols → ¬ at_ r c → rdElem t.env t.w k p b r c = rdElem s.env s.w k p b r c) ∧
  ∀ a, (∀ r c i, r < p.vrows → c < p.vcols → at_ r c → i < elemBytes p.fmt → a ≠ elemKey s.w k p b r c + i) → t.mem.rd a = s.mem.rd a

/-- The block of a region that a step of one step per block updates, and its first row and column in the region (R304). -/
def stepBlock (s : State) (k : Consort) (o : EngOp) (n : Nat) : Nat × Nat × Block :=
  let g := regionOf o.region
  let r := 64 * (n / (g.ncols / 64))
  let c := 64 * (n % (g.ncols / 64))
  (r, c, blockOf s.w k (g.row + r) (g.col + c))

/-- What the step of a Chisel operation does to memory (R303 to R308). -/
def StepEffect (s t : State) (k : Consort) (o : EngOp) : Prop :=
  let p := parsePanel o.d1
  let q := parsePanel o.d2
  let g := regionOf o.region
  match o.kind with
  | .azero =>
    let (_, _, b) := stepBlock s k o o.step
    OnlyBlock s t b ∧ (∀ r c, r < 64 → c < 64 → b.key < 2 ^ 43 → accOf t.mem b r c = 0) ∧
      isPois t.w b.key = false
  | .aldp add =>
    let (br, bc, b) := stepBlock s k o o.step
    OnlyBlock s t b ∧ ∀ r c, r < 64 → c < 64 →
      let w := elemWord p.fmt (rdElem s.env s.w k p o.b1 (br + r) (bc + c))
      let old := accOf s.mem b r c
      let new := accOf t.mem b r c
      if !add then new = w % 2 ^ 32
      else if p.fmt = 5 ∨ p.fmt = 7 then new = (old + w) % 2 ^ 32
      else ∃ fl, SumSpec fp32 .rne (fp32.decode old) (fp32.decode w) (new, fl)
  | .mma ns ca cb =>
    let gn := (max p.vcols q.vrows + 15) / 16
    let j0 := 16 * (o.step % gn)
    let (br, bc, b) := stepBlock s k o (o.step / gn)
    let a := fun r j => rdElem s.env s.w k p o.b1 (br + r) (j0 + j)
    let x := fun c j => rdElem s.env s.w k q o.b2 (j0 + j) (bc + c)
    let scale := fun col e => (s.mem.rd (scaleKey s.w k ((g.row + br) / k.accN) b.quad (col + o.step % gn) e)).toNat
    OnlyBlock s t b ∧ ∀ r c, r < 64 → c < 64 →
      if p.fmt = 5 then
        (accOf t.mem b r c : Int) = ((accOf s.mem b r c : Int) +
          ((List.range 16).map fun j => fmtToInt 5 (a r j) * fmtToInt 5 (x c j)).sum) % 2 ^ 32
      else StepWord (accOf s.mem b r c) ((List.range 16).map fun j => termOf p.fmt q.fmt (a r j) (x c j))
        (if ns then none else some (scale ca ((g.row + br + r) % k.accN), scale cb ((g.col + bc + c) % 256))) (accOf t.mem b r c)
  | .astp rm =>
    let (br, bc, b) := stepBlock s k o o.step
    PanelWrote s t k p o.b1 (fun r c => br ≤ r ∧ r < br + 64 ∧ bc ≤ c ∧ c < bc + 64) fun r c =>
      astpEncode p.fmt rm (accOf s.mem b (r - br) (c - bc))
  | .arow op =>
    let row := fun r => (List.range (g.ncols / 64 * 64)).map fun c =>
      accOf s.mem (blockOf s.w k (g.row + 64 * o.step) (g.col + 64 * (c / 64))) (r - 64 * o.step) (c % 64)
    PanelWrote s t k p o.b1
      (fun r c => 64 * o.step ≤ r ∧ r < 64 * o.step + 64 ∧ c < (if op = .maxx then 2 else 1)) (fun r c => (rowOut op (row r)).getD c 0) ∧
    ∀ r, 0 < p.vcols → r < p.vrows → 64 * o.step ≤ r → r < 64 * o.step + 64 → op = .sum → p.fmt = 0 →
      RowSum (row r) (rdElem t.env t.w k p o.b1 r 0)
  | .scld colB =>
    let core := bvF o.comp 18 2
    let n := if colB then p.cols else p.rows
    let key := fun u i => scaleKey s.w k core u (bvF o.comp 0 9 + o.step) (bvF o.comp 9 9 + i)
    (∀ u i, u < 4 → o.comp.getLsbD (20 + u) = true → i < n → t.mem.rd (key u i) = BitVec.ofNat 8
      (if colB then rdElem s.env s.w k p o.b1 o.step i else rdElem s.env s.w k p o.b1 i o.step)) ∧
    ∀ a, (∀ u i, u < 4 → o.comp.getLsbD (20 + u) = true → i < n → a ≠ key u i) → t.mem.rd a = s.mem.rd a
  | .pswz rm tr =>
    let r0 := 64 * (o.step / ((q.cols + 63) / 64))
    let c0 := 64 * (o.step % ((q.cols + 63) / 64))
    PanelWrote s t k q o.b2 (fun r c => r0 ≤ r ∧ r < r0 + 64 ∧ c0 ≤ c ∧ c < c0 + 64) fun r c =>
      pswzConv p.fmt q.fmt rm (if tr then rdElem s.env s.w k p o.b1 c r else rdElem s.env s.w k p o.b1 r c)
  | _ => True

/-- A memory key of scratch, accumulators or scale memory: no frame stands there (R60). -/
def OnChip (a : Nat) : Prop := 2 ^ 41 ≤ a ∧ a < 2 ^ 44

/-- A step's effect stands in t, but for what its handle's new value changes in the frame of a course that is not resident (R58). -/
def Stepped (s t : State) (k : Consort) (o : EngOp) (slotted : Prop) : Prop :=
  ∃ m ps, let u : State := { t with mem := m, w := { t.w with poison := ps } }
    StepEffect s u k o ∧ (∀ a, OnChip a → t.mem.rd a = m.rd a ∧ isPois t.w a = isPois u.w a) ∧
    (slotted → m = t.mem ∧ ps = t.w.poison)

/-- No byte of scratch, accumulators or scale memory differs, and none at all while the course stands in its slot. -/
def NothingWritten (s t : State) (slotted : Prop) : Prop :=
  (∀ a, OnChip a → t.mem.rd a = s.mem.rd a) ∧ (slotted → t.mem = s.mem)

/-- Whatever a step writes when a read that it needs has no data is poisoned: the block of MMA and ALDP, the elements of ASTP, AROW and
PSWZ, the scale entries of SCLD (R171, R301). -/
def StepPoison (s t : State) (k : Consort) (o : EngOp) : Prop :=
  let p := parsePanel o.d1
  let q := parsePanel o.d2
  let bad := fun a => OnChip a → isPois t.w a = true
  let elem := fun (x : Panel) (b : Nat) (at_ : Nat → Nat → Prop) => ∀ r c i, r < x.vrows → c < x.vcols → at_ r c → i < elemBytes x.fmt →
    bad (elemKey s.w k x b r c + i)
  match o.kind with
  | .mma .. => bad (stepBlock s k o (o.step / ((max p.vcols q.vrows + 15) / 16))).2.2.key
  | .aldp _ => bad (stepBlock s k o o.step).2.2.key
  | .astp _ =>
    let (br, bc, _) := stepBlock s k o o.step
    elem p o.b1 fun r c => br ≤ r ∧ r < br + 64 ∧ bc ≤ c ∧ c < bc + 64
  | .arow op => elem p o.b1 fun r c => 64 * o.step ≤ r ∧ r < 64 * o.step + 64 ∧ c < (if op = .maxx then 2 else 1)
  | .scld colB => ∀ u i, u < 4 → o.comp.getLsbD (20 + u) = true → i < (if colB then p.cols else p.rows) →
      bad (scaleKey s.w k (bvF o.comp 18 2) u (bvF o.comp 0 9 + o.step) (bvF o.comp 9 9 + i))
  | .pswz .. =>
    let r0 := 64 * (o.step / ((q.cols + 63) / 64))
    let c0 := 64 * (o.step % ((q.cols + 63) / 64))
    elem q o.b2 fun r c => r0 ≤ r ∧ r < r0 + 64 ∧ c0 ≤ c ∧ c < c0 + 64
  | _ => True

/-- What the descriptors of a step keep to: panels written have lines apart, scale entries and groups are in range (R78, R307). -/
def StepFits (k : Consort) (o : EngOp) : Prop :=
  let p := parsePanel o.d1
  let q := parsePanel o.d2
  match o.kind with
  | .astp _ | .arow _ => Sound p
  | .pswz .. => Sound q
  | .scld colB => (∀ i, nth k.pw i 0 < 2 ^ 21) ∧ o.b1 < 2 ^ 32 ∧ bvF o.comp 9 9 + (if colB then p.cols else p.rows) ≤ 512 ∧
      ∀ u, u < 4 → nth (nth k.scales (4 * bvF o.comp 18 2 + u) []) ((bvF o.comp 0 9 + o.step) / 16) 0 < 8
  | _ => True

/-- An operation at the head of a sound sequencer of a core that is not muted, whose units are in place (R129, R173, R299, R331). -/
structure AtHead (s : State) (pcn q n : Nat) (o : EngOp) (k : Consort) : Prop where
  head : headOp s.w pcn q = some (n, o)
  op : tGet? s.w.ops n = some o
  sound : (quad s.w (4 * pcn + q)).chiselOk = true
  unmuted : pcnMuted s.w pcn = false
  here : opAway s.w o = none
  consort : consort? s.w o.consort = some k
  handle : o.ah < 16

/-- Some core of a list is muted or out of the reach of an operation (R129, R184). -/
def SomeAway (s : State) (k : Consort) (o : EngOp) (l : List Nat) : Prop :=
  ∃ cc ∈ l, coreAway s.w o.pcn (consortPcn s.w k cc) = true

/-- Every request of an operation's next step gets its reply: no core is out of reach, none times out (R129, R168). -/
def InReach (s : State) (k : Consort) (o : EngOp) : Prop :=
  o.tmo = false ∧ ¬ SomeAway s k o (stepCores k o).1 ∧ ¬ SomeAway s k o (stepCores k o).2

/-- The course of an operation is resident, or over: its handle stands in no frame (R58). -/
def InSlot (s : State) (o : EngOp) : Prop := ∀ c, course? s.w o.cid = some c → c.k.at_ = .resident

/-- An operation is over: it is gone, its handle is free, its number reached once those before it are, and its status kept (R47, R161,
R299, R312). -/
structure OpOver (s t : State) (n : Nat) (o : EngOp) (code skip : Nat) : Prop where
  gone : tGet? t.w.ops n = none
  handle : o.kind.chisel = true → ∀ c, course? s.w o.cid = some c → ∃ c', course? t.w o.cid = some c' ∧ bvF (getA c' o.ah) 58 1 = 0
  reached : (tlc s.w o.tlPcn o.tlIdx).isIssued o.num = true → (tlc s.w o.tlPcn o.tlIdx).done + 1 = o.num →
    (tlc t.w o.tlPcn o.tlIdx).reached o.num = true
  status : (tlc s.w o.tlPcn o.tlIdx).isIssued o.num = true → (∃ v, (o.num, v) ∈ (tlc s.w o.tlPcn o.tlIdx).stat) →
    o.num ∉ pendingSigs s.w o.tlPcn o.tlIdx → (tlc t.w o.tlPcn o.tlIdx).status o.num = BitVec.ofNat 32 (code + skip * 65536)

/-- The line of a panel's bytes on a consort core (R309). -/
def lineOf (s : State) (k : Consort) (o : EngOp) (cc l : Nat) : List Nat :=
  let p := parsePanel o.d1
  (List.range (lineExt p.fmt (if p.col then p.vrows else p.vcols))).map fun i =>
    scrKey s.w (consortPcn s.w k cc) k.world (nth k.pw cc 0 + o.b1 + (p.base + (if p.col then p.delta 0 l else p.delta l 0)) + i)

/-- The bytes of a copy's line. -/
def lineBytesOf (o : EngOp) : Nat :=
  let p := parsePanel o.d1
  lineExt p.fmt (if p.col then p.vrows else p.vcols)

/-- The consort cores that a copy's line goes to (R309). -/
def coresOf (o : EngOp) : List Nat :=
  if o.kind = .copym then (List.range 4).filter fun c => o.comp.getLsbD (24 + c) else [(parsePanel o.d1).csel]

/-- A copy or gather that may perform a line (R299, R301). -/
structure MayCopy (s : State) (n l : Nat) (o : EngOp) (k : Consort) : Prop where
  op : tGet? s.w.ops n = some o
  kind : o.kind.isCopy = true
  consort : consort? s.w o.consort = some k
  unit : l ∈ o.units
  free : o.faulted = [] ∧ o.tmo = false ∧ o.tmoWalk = false
  here : opAway s.w o = none
  sound : (Sys2Proof.Machine.core s.w o.pcn).copyOk = true
  present : pcnMuted s.w o.pcn = false ∧ ¬ SomeAway s k o (coresOf o)
  clean : s.w.poison = []

/-- The slices of an operation's places are neither muted nor out of its reach (R129, R184). -/
def Near (s : State) (o : EngOp) (ls : List (Loc × Nat × Nat)) : Prop := placesMuted s.w ls = none ∧ placesCut s.w o.pcn ls = none

/-- A collective whose port may go on with a chunk (R299, R310). -/
structure MayColl (s : State) (n chunk : Nat) (o : EngOp) : Prop where
  op : tGet? s.w.ops n = some o
  kind : o.kind = .coll
  free : o.faulted = [] ∧ o.tmo = false ∧ o.tmoWalk = false
  todo : chunk ∉ o.units
  sound : (Sys2Proof.Machine.core s.w o.pcn).collOk = true
  unmuted : pcnMuted s.w o.pcn = false

/-- The member table's entries are well formed and RANK names the member's own (R196, R310, R311). -/
def TableOk (s : State) (o : EngOp) (g : Group) (mt : List Nat) : Prop :=
  (∀ x ∈ mt, bitsAt x 0 10 < 640 ∧ bitsAt x 14 50 = 0) ∧ bitsAt (nth mt g.rank 0) 0 10 = s.w.hub.fdev ∧
  bitsAt (nth mt g.rank 0) 10 4 = o.part

/-- A member of another package, by its entry: the port over which it is reached (R196). -/
def FarMember (s : State) (mt : List Nat) (pt : Port) : Prop :=
  ∃ x ∈ mt, bitsAt x 0 10 ≠ s.w.hub.fdev ∧ pt = port s.w (Config.fabRoute (bitsAt x 0 10)).val

/-- A whole chunk with clean data, which every other member brings its part of (R310, R311). -/
structure WholeChunk (s : State) (o : EngOp) (g : Group) (mt : List Nat) (peers : List PeerPart) : Prop where
  round : o.round = 0
  up : ∀ pt, FarMember s mt pt → pt.up = true
  table : mt.length = g.members
  sound : ∀ x ∈ peers, x.answers = true ∧ x.rank < g.members ∧ x.rank ≠ g.rank ∧ x.poison = []
  clean : s.w.poison = []

/-- The bytes that member j of a round gives to a chunk (R311). -/
def Gives (g : Group) (own : List Byte) (peers : List PeerPart) (j : Nat) (bs : List Byte) : Prop :=
  (j = g.rank ∧ bs = own) ∨ (j ≠ g.rank ∧ ∃ x ∈ peers, x.rank = j ∧ bs = x.bytes)

/-- What a chunk writes on a member, run by run: REDUCE the combination on the root only, ALLREDUCE on every member, ALLGATHER every
member's bytes at its own place, BROADCAST the root's (R311). -/
def ChunkRuns (g : Group) (chunk : Nat) (own : List Byte) (peers : List PeerPart) (runs : List (Nat × List Byte)) : Prop :=
  let off := 4096 * chunk
  match g.kind with
  | 0 => runs = if g.rank = g.root then [(g.dst + off, g.reduce own peers)] else []
  | 1 => runs = [(g.dst + off, g.reduce own peers)]
  | 2 => runs.length = g.members ∧ ∀ j, j < g.members → ∃ bs, runs[j]? = some (g.dst + j * g.bytes + off, bs) ∧ Gives g own peers j bs
  | _ => ∃ bs, runs = [(g.dst + off, bs)] ∧ Gives g own peers g.root bs

/-- Runs of bytes written one after another land at places that their translations give, within reach and under the encipherment that they
bear (R101, R111, R129, R184). -/
def Lands (s : State) (o : EngOp) : W → List (Nat × List Byte) → List (List (Loc × Nat × Nat)) → Prop
  | _, [], [] => True
  | w, (va, bs) :: r, tl :: ts =>
    engAccess s.env w o .write va bs.length = .ok tl ∧ Near s o tl ∧ SameTag s.w o.world tl ∧
      Lands s o (wrPlaces s.env w o.world tl bs) r ts
  | _, _, _ => False

/-- What the combination of a chunk's elements is: INT32 sums wrap; the BF16 sum of two members is their FP32 sum rounded once more
(R38, R311). -/
def Combines (g : Group) (own : List Byte) (peers : List PeerPart) (len : Nat) (out : List Byte) : Prop :=
  (g.fmt = 7 → g.rop = 0 → ∀ i, 4 * i + 4 ≤ len →
    field out (4 * i) 4 = (field own (4 * i) 4 + (peers.map fun x => field x.bytes (4 * i) 4).sum) % 2 ^ 32) ∧
  (g.fmt = 1 → g.rop = 0 → ∀ x, peers = [x] → ∀ i, 2 * i + 2 ≤ len → ∃ m fl,
    SumSpec fp32 .rne (fp32.decode (field own (2 * i) 2 * 2 ^ 16)) (fp32.decode (field x.bytes (2 * i) 2 * 2 ^ 16)) (m, fl) ∧
    field out (2 * i) 2 = (bf16.ofFv .rne (fp32.decode m)).1 % 2 ^ 16)

/-- A chunk exchanged: its runs of DST hold their bytes, no other byte changes, the chunk is counted, and the last one ends the
operation. -/
def Exchanges (s t : State) (n chunk : Nat) (o : EngOp) (g : Group) (runs : List (Nat × List Byte))
    (tls : List (List (Loc × Nat × Nat))) : Prop :=
  (if (g.bytes + 4095) / 4096 ≤ o.units.length + 1 then OpOver s t n o o.code o.skip
    else tGet? t.w.ops n = some { o with units := chunk :: o.units }) ∧
  (∀ (i : Nat) va bs tl, runs[i]? = some (va, bs) → tls[i]? = some tl → (placeKeys tl).map t.mem.rd = bs) ∧
  ∀ a, (∀ tl ∈ tls, a ∉ placeKeys tl) → t.mem.rd a = s.mem.rd a

/-- What the port does with a chunk of a collective whose descriptor and member table are read (R195, R196, R310, R311): without every other
member's part, or against an XOFF, it waits; over a link without a key a confidential world's chunk stops with PF_STAGE2; else it is
exchanged. -/
def ChunkMoves (s : State) (n chunk : Nat) (peers : List PeerPart) (o : EngOp) (g : Group) (mt : List Nat) : Prop :=
  let len := min 4096 (g.bytes - 4096 * chunk)
  let own := fun sl => if g.gives then rdPlaces s.env s.w o.world sl else []
  let waits := g.bytes ≤ 4096 * chunk ∨ g.fullRound len peers = false ∨ ∃ pt, FarMember s mt pt ∧ pt.xoff.getLsbD 2 = true
  let bare := o.world ≠ 0 ∧ ∃ pt, FarMember s mt pt ∧ pt.key = none
  (waits → ∃ t, exec (.collChunk n chunk peers) s = .next t ∧ t.mem = s.mem ∧ tGet? t.w.ops n = some o) ∧
  (¬ waits → bare → ∃ t, exec (.collChunk n chunk peers) s = .next t ∧
    tGet? t.w.ops n = some { o with faulted := [g.src + 4096 * chunk] }) ∧
  (¬ waits → ¬ bare → WholeChunk s o g mt peers → ∀ sl tls runs,
    (g.gives = true → engAccess s.env s.w o .read (g.src + 4096 * chunk) len = .ok sl ∧ Near s o sl) →
    ChunkRuns g chunk (own sl) peers runs → Lands s o s.w runs tls → (tls.flatMap placeKeys).Nodup →
    (∃ t, exec (.collChunk n chunk peers) s = .next t ∧ Exchanges s t n chunk o g runs tls) ∧
      Combines g (own sl) peers len (g.reduce (own sl) peers))

/-- The line was counted: the operation goes on with the others, or is over. -/
def LineCounted (s t : State) (n l : Nat) (o : EngOp) : Prop :=
  if o.units.filter (· ≠ l) = [] then OpOver s t n o o.code o.skip
  else tGet? t.w.ops n = some { o with units := o.units.filter (· ≠ l) }

end Sys2Proof.Claims

/-- R47, R161, R299, R312, R331: the operation at the head of a quadrant's sequencer performs one step and counts it in its handle; after
its last step, or having none, it is over. A corrupt sequencer, one of a muted core, or one whose operation's units are elsewhere, performs
nothing. -/
def Sys2Proof.Claims.ChiselStepsHold : Prop :=
  (∀ pcn q s, s.Inv → (headOp s.w pcn q = none ∨ (quad s.w (4 * pcn + q)).chiselOk = false ∨ pcnMuted s.w pcn = true ∨
      ∃ n o, headOp s.w pcn q = some (n, o) ∧ opAway s.w o ≠ none) → ∃ t, exec (.chiselStep pcn q) s = .next t ∧ t = s) ∧
  ∀ pcn q s n o k, s.Inv → Keyed s → AtHead s pcn q n o k → StepFits k o →
    (InReach s k o → o.step + 1 < o.total → ∃ t, exec (.chiselStep pcn q) s = .next t ∧ Stepped s t k o (InSlot s o) ∧
      tGet? t.w.ops n = some { o with step := o.step + 1 } ∧ (∀ m, m ≠ n → tGet? t.w.ops m = tGet? s.w.ops m) ∧
      (∀ c, course? s.w o.cid = some c → ∃ c', course? t.w o.cid = some c' ∧ bvF (getA c' o.ah) 72 24 = (o.step + 1) % 2 ^ 24 ∧
        c'.r = { c.r with a := c'.r.a } ∧ (∀ j, j < 16 → j ≠ o.ah → getA c' j = getA c j)) ∧
      ∀ m, m ≠ o.cid → course? t.w m = course? s.w m) ∧
    (InReach s k o → o.step + 1 = o.total → ∃ t, exec (.chiselStep pcn q) s = .next t ∧ Stepped s t k o (InSlot s o) ∧
      OpOver s t n o o.code o.skip) ∧
    (o.total ≤ o.step → ∃ t, exec (.chiselStep pcn q) s = .next t ∧ NothingWritten s t (InSlot s o) ∧ OpOver s t n o o.code o.skip)

/-- R129, R168, R171, R301: a step with a core out of reach goes on: one that would write there writes nothing, one that reads there, or whose
read gets no reply, poisons what it writes, and AZERO, which reads nothing, writes without a reply what its target performs. The step
counts, with the status 0x21 or 0x22 met. -/
def Sys2Proof.Claims.StepsOutOfReachHold : Prop :=
  ∀ pcn q s n o k, s.Inv → Keyed s → AtHead s pcn q n o k → StepFits k o → o.step + 1 < o.total →
    let code := if o.tmo = true then 0x22 else 0x21
    let counted := fun (t : State) => tGet? t.w.ops n = some { o with step := o.step + 1, code := max o.code code, tmo := false }
    (SomeAway s k o (stepCores k o).2 → ∃ t, exec (.chiselStep pcn q) s = .next t ∧ counted t ∧ NothingWritten s t (InSlot s o)) ∧
    (¬ SomeAway s k o (stepCores k o).2 → (SomeAway s k o (stepCores k o).1 ∧ o.tmo = false) ∨ (o.tmo = true ∧ (stepCores k o).1 ≠ []) →
      ∃ t, exec (.chiselStep pcn q) s = .next t ∧ counted t ∧ StepPoison s t k o) ∧
    (¬ SomeAway s k o (stepCores k o).2 → o.tmo = true → o.kind = .azero → ∃ t, exec (.chiselStep pcn q) s = .next t ∧ counted t ∧
      (o.tmoDone = true → Stepped s t k o (InSlot s o)) ∧ (o.tmoDone = false → NothingWritten s t (InSlot s o)))

/-- Steps of the matrix engines, the claims named here together. -/
def Obligations.ChiselSteps : Prop :=
  Sys2Proof.Claims.ChiselStepsHold ∧ Sys2Proof.Claims.StepsOutOfReachHold

/-- R299, R301, R309: a line of COPY, COPYM or GATHER brings the bytes at its global address, GATHER's by its index, to the panels; one of
COPYO takes the panel's bytes there; no other byte changes. A line whose translation faults stops the operation and parks its
resident course; its entry waits. -/
def Sys2Proof.Claims.CopyLinesHold : Prop :=
  (∀ n l s o k ls va, s.Inv → MayCopy s n l o k → ((coresOf o).flatMap fun c => lineOf s k o c l).Nodup →
    ((o.kind = .copy ∨ o.kind = .copym) ∧ va = (o.va.toNat + l * bvF o.comp 0 24) % 2 ^ 64) ∨
    (o.kind = .gather ∧ ∃ is, engAccess s.env s.w o .read ((o.va2.toNat + 4 * l) % 2 ^ 64) 4 = .ok is ∧ Near s o is ∧
      va = (o.va.toNat + leNat (rdPlaces s.env s.w o.world is) * bvF o.comp 0 24) % 2 ^ 64) →
    engAccess s.env s.w o .read va (lineBytesOf o) = .ok ls → Near s o ls →
    ∃ t, exec (.copyLine n l) s = .next t ∧ LineCounted s t n l o ∧
      (∀ c ∈ coresOf o, (lineOf s k o c l).map t.mem.rd = rdPlaces s.env s.w o.world ls) ∧
      ∀ a, a ∉ (coresOf o).flatMap (fun c => lineOf s k o c l) → t.mem.rd a = s.mem.rd a) ∧
  (∀ n l s o k ls, s.Inv → MayCopy s n l o k → o.kind = .copyo →
    engAccess s.env s.w o .write ((o.va.toNat + l * bvF o.comp 0 24) % 2 ^ 64) (lineBytesOf o) = .ok ls → Near s o ls →
    SameTag s.w o.world ls → (placeKeys ls).Nodup →
    ∃ t, exec (.copyLine n l) s = .next t ∧ LineCounted s t n l o ∧
      (placeKeys ls).map t.mem.rd = (lineOf s k o (parsePanel o.d1).csel l).map s.mem.rd ∧
      ∀ a, a ∉ placeKeys ls → t.mem.rd a = s.mem.rd a) ∧
  ∀ n l s o k c cause va m, s.Inv → Keyed s → MayCopy s n l o k → o.kind = .copy ∨ o.kind = .copyo → course? s.w o.cid = some c →
    c.k.at_ = .resident → o.part = c.id.part →
    engAccess s.env s.w o (if o.kind = .copyo then .write else .read) ((o.va.toNat + l * bvF o.comp 0 24) % 2 ^ 64) (lineBytesOf o) =
      .fault cause va m →
    ∃ t c', exec (.copyLine n l) s = .next t ∧ tGet? t.w.ops n = some { o with faulted := [va] } ∧ course? t.w o.cid = some c' ∧
      c'.k.at_ = .parked ∧ c'.k.cause = cause ∧ Waits t c cause va (.engine n o.cid true)

/-- R195, R196, R310, R311: the port reads the group descriptor and the member table once, the model's choice (log entry 44, as are the
order of the statuses and of the combinations). A malformed descriptor, a table with a malformed entry or in which RANK is not the
member's own, or members that disagree before a chunk is exchanged end the operation with status 0x23. Else a chunk is exchanged once
every member has brought its part: what REDUCE, ALLREDUCE, ALLGATHER and BROADCAST write of it stands in DST; later chunks go by what was
read. -/
def Sys2Proof.Claims.CollectiveChunksHold : Prop :=
  ∀ n chunk peers s o, s.Inv → MayColl s n chunk o →
    let ends := ∃ t, exec (.collChunk n chunk peers) s = .next t ∧ t.mem = s.mem ∧ OpOver s t n o (max o.code 0x23) o.skip
    (o.desc ≠ [] → o.units = [] → (∃ x ∈ peers, (parseGroup o.desc).agrees x = false) → ends) ∧
    (o.desc ≠ [] → o.units ≠ [] ∨ (∀ x ∈ peers, (parseGroup o.desc).agrees x = true) →
      ChunkMoves s n chunk peers o (parseGroup o.desc) o.mtab) ∧
    ∀ dl, o.desc = [] → engAccess s.env s.w o .read o.va.toNat 64 = .ok dl → placesStop s.w dl = none → Near s o dl →
      let b := rdPlaces s.env s.w o.world dl
      let g := parseGroup b
      (g.bad = true → ends) ∧
      ∀ ml, g.bad = false → engAccess s.env s.w o .read g.mtab (8 * g.members) = .ok ml → placesStop s.w ml = none → Near s o ml →
        let mt := (List.range g.members).map fun j => field (rdPlaces s.env s.w o.world ml) (8 * j) 8
        (¬ TableOk s o g mt → ends) ∧ (∀ x ∈ peers, g.agrees x = false → ends) ∧
        (TableOk s o g mt → (∀ x ∈ peers, g.agrees x = true) → ChunkMoves s n chunk peers { o with desc := b, mtab := mt } g mt)

/-- Copies, gathers and collectives, the claims named here together. -/
def Obligations.CopiesAndCollectives : Prop :=
  Sys2Proof.Claims.CopyLinesHold ∧ Sys2Proof.Claims.CollectiveChunksHold

namespace Sys2Proof.Claims

open Sys2Proof.Machine

/-! ## Tiles (R17, R163, R180 to R188, R200) -/

/-- Only a tile and the events that follow differ. -/
def TileOnly (s t : State) (n : Nat) : Prop :=
  t.mem = s.mem ∧ (∀ m, m ≠ n → tile t.w m = tile s.w m) ∧ t.w = { s.w with tiles := t.w.tiles, agenda := t.w.agenda }

/-- STATE of a tile: 0 normal, 1 muted, 2 under self-test, 3 appealing (R163). -/
def stateOf (s : State) (t : Nat) : Nat := bvF (tile s.w t).word 16 4

/-- A tile takes part: it is in state 0 or 3 (R180). -/
def TakesPart (s : State) (t : Nat) : Prop := stateOf s t = 0 ∨ stateOf s t = 3

/-- The record that a tile holds of its neighbour in a direction. -/
def recordOf (s : State) (t d : Nat) : BitVec 32 := (tile s.w t).nb.getD d 0

/-- The number of sides in a set of four. -/
def sidesIn (m : Nat) : Nat := ((List.range 4).filter fun i => m.testBit i).length

/-- The number of neighbours that must agree on a tile (R181). -/
def quorum (t : Nat) : Nat := if ((List.range 4).filter fun d => (neighbour t d).isSome).length = 4 then 3 else 2

/-- The tests of R181 at a period's end, on the record and what arrived in the period: MISS, what is wrong, the sides that accuse. -/
def missOf (x : Tile) (r : BitVec 32) (d : Nat) : Nat := if x.beats.getD d 0 = 0 then min 7 (bvF r 0 3 + 1) else 0
def Wrong (x : Tile) (r : BitVec 32) (d : Nat) : Prop :=
  4 ≤ missOf x r d ∨ 2 < x.beats.getD d 0 ∨ 3 ≤ ((List.range 8).filter fun i => r.getLsbD (3 + i)).length ∨ x.badPos.getD d false = true

/-- A message of a rotation about a suspect goes on to the next neighbour, unless the rotation ends here (R182). -/
def PassedOn (s t : State) (suspect side : Nat) (cw vote : Bool) (f : BitVec 128) : Prop :=
  t.w.agenda = s.w.agenda ++ match nextRound s.w suspect side cw with
    | none => []
    | some n => [if vote then Instr.retuneVoteReceive (Fin.ofNat 96 n) cw f else .accusationReceive (Fin.ofNat 96 n) cw f]

/-- Entry l of the logical-to-physical table names a PCN. -/
def NamesCore (s : State) (l pcn : Nat) : Prop :=
  l < s.w.hub.lpt.length ∧ bvF (lptAt s.w l) 18 1 = 1 ∧ bvF (lptAt s.w l) 0 7 = pcn

end Sys2Proof.Claims

/-- R163, R180: a tile in state 0 or 3 sends its next heartbeat to every neighbour: KIND 0, its number, its position, the sides it accuses, a
good check; another tile sends none. -/
def Sys2Proof.Claims.HeartbeatSendHold : Prop :=
  ∀ (n : Fin 96) s, s.Inv → (¬ TakesPart s n.val → ∃ t, exec (.heartbeatSend n) s = .next t ∧ t = s) ∧
    (TakesPart s n.val → ∃ t f, exec (.heartbeatSend n) s = .next t ∧ TileOnly s t n.val ∧
      (tile t.w n.val).nb = (tile s.w n.val).nb ∧
      bvF (tile t.w n.val).word 0 16 = (bvF (tile s.w n.val).word 0 16 + 1) % 2 ^ 16 ∧
      bvF (tile t.w n.val).word 16 48 = bvF (tile s.w n.val).word 16 48 ∧
      t.w.agenda = s.w.agenda ++ (List.range 4).filterMap (fun d => (neighbour n.val d).map fun m =>
        .heartbeatReceive (Fin.ofNat 96 m) (Fin.ofNat 4 ((d + 2) % 4)) f) ∧
      flitGood f = true ∧ bvF f 96 4 = 0 ∧ bvF f 48 16 = bvF (tile t.w n.val).word 0 16 ∧ tileAt (bvF f 4 3) (bvF f 8 4) = n.val ∧
      bvF f 64 32 = bvF (tile s.w n.val).word 32 32 ∧ ∀ d, d < 4 → f.getLsbD (44 + (3 - d)) = (recordOf s n.val d).getLsbD 11)

/-- R163, R180, R181: a heartbeat that arrives at a tile in STATE 0 counts in the period and moves its check into CHECKS, a bad flit as 1; a
flit of another kind leaves the record; a good flit of any kind that names another position than the sender's is noted. A muted tile's
records keep their values. That a bad flit gives the last number too, and that the position of a flit of every KIND is tested, is the
model's choice (log entry 26). -/
def Sys2Proof.Claims.HeartbeatReceiveHold : Prop :=
  ∀ (n : Fin 96) (d : Fin 4) (f : BitVec 128) s, s.Inv →
    (stateOf s n.val ≠ 0 ∨ neighbour n.val d.val = none → ∃ t, exec (.heartbeatReceive n d f) s = .next t ∧ t = s) ∧
    ∀ m, stateOf s n.val = 0 → neighbour n.val d.val = some m → ∃ t, exec (.heartbeatReceive n d f) s = .next t ∧
      let x := tile s.w n.val
      let y := tile t.w n.val
      TileOnly s t n.val ∧ t.w.agenda = s.w.agenda ∧ y.word = x.word ∧
      (flitGood f = true → bvF f 96 4 ≠ 0 → y.nb = x.nb ∧ y.beats = x.beats ∧ y.lastSeq = x.lastSeq) ∧
      (flitGood f = false ∨ bvF f 96 4 = 0 → y.beats.getD d.val 0 = x.beats.getD d.val 0 + 1 ∧
        bvF (recordOf t n.val d.val) 3 8 = bvF (recordOf s n.val d.val) 3 8 / 2 + (if flitGood f then 0 else 128) ∧
        bvF (recordOf t n.val d.val) 0 3 = bvF (recordOf s n.val d.val) 0 3 ∧
        bvF (recordOf t n.val d.val) 11 21 = bvF (recordOf s n.val d.val) 11 21) ∧
      (flitGood f = false ∨ bvF f 96 4 = 0 → (y.lastSeq.getD d.val 0).toNat = bvF f 48 16) ∧
      (flitGood f = true → tileAt (bvF f 4 3) (bvF f 8 4) ≠ m → y.badPos.getD d.val false = true)

/-- R181, R182, R183: at a period's end a tile counts what it missed of each neighbour that is neither muted nor appealing, accuses it when a
test fails, and mutes it when enough sides agree, telling it and the hub; five periods without enough end the accusation. R163, R187: a
tile in STATE 3 keeps its records and appeals again at every thousandth boundary. -/
def Sys2Proof.Claims.PeriodBoundaryHold : Prop :=
  ∀ (n : Fin 96) s, s.Inv → (¬ TakesPart s n.val → ∃ t, exec (.periodBoundary n) s = .next t ∧ t = s) ∧
    (TakesPart s n.val → ∃ t, exec (.periodBoundary n) s = .next t ∧ TileOnly s t n.val ∧
      (tile t.w n.val).periods = (tile s.w n.val).periods + 1 ∧ (tile t.w n.val).beats = [0, 0, 0, 0] ∧
      (stateOf s n.val = 3 → ((tile s.w n.val).periods + 1) % 1000 = 0 → .appealSend n ∈ t.w.agenda) ∧
      (stateOf s n.val = 3 → (tile t.w n.val).nb = (tile s.w n.val).nb ∧ (tile t.w n.val).votes = (tile s.w n.val).votes) ∧
      ∀ d m, stateOf s n.val = 0 → d < 4 → neighbour n.val d = some m → (recordOf s n.val d).getLsbD 20 = false → (recordOf s n.val d).getLsbD 22 = false →
        let x := tile s.w n.val
        let r := recordOf s n.val d
        let r' := recordOf t n.val d
        let acc := bvF r 12 4
        let accuses := Wrong x r d ∧ r.getLsbD 11 = false
        let own := 2 ^ (3 - (d + 2) % 4)
        bvF r' 0 3 = missOf x r d ∧
        ∀ acc', (accuses → acc' = acc ||| own) → (¬ accuses → acc' = acc) →
          (quorum m ≤ sidesIn acc' → bvF r' 19 2 = 3 ∧ bvF r' 11 8 = 0 ∧ .muteNoticeReceive (Fin.ofNat 96 m) ∈ t.w.agenda ∧
            .muteReport (Fin.ofNat 96 m) (x.lastSeq.getD d 0) ∈ t.w.agenda) ∧
          (sidesIn acc' < quorum m → bvF r' 19 2 = bvF r 19 2 ∧
            (acc = 0 → accuses → bvF r' 12 4 = own ∧ bvF r' 16 3 = 0 ∧ r'.getLsbD 11 = true) ∧
            (acc ≠ 0 → bvF r 16 3 + 1 ≤ 4 → bvF r' 12 4 = acc' ∧ bvF r' 16 3 = bvF r 16 3 + 1 ∧
              (r'.getLsbD 11 = true ↔ r.getLsbD 11 = true ∨ Wrong x r d)) ∧
            (acc ≠ 0 → 4 < bvF r 16 3 + 1 → bvF r' 11 8 = 0)))

/-- Heartbeats and period boundaries, the claims named here together. -/
def Obligations.Heartbeats : Prop :=
  Sys2Proof.Claims.HeartbeatSendHold ∧ Sys2Proof.Claims.HeartbeatReceiveHold ∧ Sys2Proof.Claims.PeriodBoundaryHold

/-- R182, R188: an accusation or a retune vote that a neighbour of its suspect has not recorded of that side is recorded, and goes on to the
next neighbour of the rotation; any other changes nothing. That one whose position is not that of the suspect's neighbour is such another is
the model's choice (log entry 26). -/
def Sys2Proof.Claims.AccusationsAndVotesHold : Prop :=
  ∀ (n : Fin 96) cw (f : BitVec 128) s d side, s.Inv → d < 4 → side < 4 →
    let m := tileAt (bvF f 32 3) (bvF f 36 4)
    neighbour n.val d = some m → bvF f 0 4 = 2 ^ (3 - side) →
    let r := recordOf s n.val d
    let fits := flitGood f = true ∧ stateOf s n.val = 0 ∧ neighbour m side = some (tileAt (bvF f 4 3) (bvF f 8 4))
    let held := (tile s.w n.val).votes.getD d 0
    (fits → bvF f 96 4 = 1 → (bvF r 12 4).testBit (3 - side) = false →
      ∃ t, exec (.accusationReceive n cw f) s = .next t ∧ TileOnly s t n.val ∧ PassedOn s t m ((d + 2) % 4) cw false f ∧
        bvF (recordOf t n.val d) 12 4 = bvF r 12 4 ||| 2 ^ (3 - side) ∧
        bvF (recordOf t n.val d) 16 3 = (if bvF r 12 4 = 0 then 0 else bvF r 16 3)) ∧
    (¬ fits ∨ bvF f 96 4 ≠ 1 ∨ (bvF r 12 4).testBit (3 - side) = true →
      ∃ t, exec (.accusationReceive n cw f) s = .next t ∧ t = s) ∧
    (fits → bvF f 96 4 = 4 → held.testBit (3 - side) = false → held < 16 →
      ∃ t, exec (.retuneVoteReceive n cw f) s = .next t ∧ TileOnly s t n.val ∧ PassedOn s t m ((d + 2) % 4) cw true f ∧
        (tile t.w n.val).votes.getD d 0 = held ||| 2 ^ (3 - side)) ∧
    (¬ fits ∨ bvF f 96 4 ≠ 4 ∨ held.testBit (3 - side) = true → ∃ t, exec (.retuneVoteReceive n cw f) s = .next t ∧ t = s)

/-- R154, R179, R183, R187: the first mute notice puts a tile under self-test; a router's map records a muted tile; the first report of one makes
its core MUTED and ABSENT in the table, or its slice muted, with REPLME's bit, its dispensers lost and its ports down; a self-test clears
a tile's records, a core tile's memories and timeline counters, a slice tile's dispensers, and ends in an appeal or in STATE 1.
That it leaves APPEALS, the map and a slice's device memory as they stood is the model's choice (log entry 26). -/
def Sys2Proof.Claims.MutingHold : Prop :=
  (∀ (n : Fin 96) s, s.Inv → (stateOf s n.val ≠ 0 → ∃ t, exec (.muteNoticeReceive n) s = .next t ∧ t = s) ∧
    (stateOf s n.val = 0 → ∃ t, exec (.muteNoticeReceive n) s = .next t ∧ TileOnly s t n.val ∧ stateOf t n.val = 2 ∧
      (tile t.w n.val).nb = (tile s.w n.val).nb)) ∧
  (∀ (n m : Fin 96) s, s.Inv → ∃ t, exec (.muteMapUpdate n m) s = .next t ∧ TileOnly s t n.val ∧
    (tile t.w n.val).map.getLsbD m.val = true ∧ ∀ i, i < 96 → i ≠ m.val → (tile t.w n.val).map.getLsbD i = (tile s.w n.val).map.getLsbD i) ∧
  (∀ (n : Fin 96) q s, s.Inv → (n.val ∈ s.w.hub.reported → ∃ t, exec (.muteReport n q) s = .next t ∧ t = s) ∧
    (n.val ∉ s.w.hub.reported → ∃ t, exec (.muteReport n q) s = .next t ∧ n.val ∈ t.w.hub.reported ∧
      (tileIsCore n.val = true → ∀ l, NamesCore s l (pcnOfTile n.val) → bvF (lptAt t.w l) 16 2 = 3 ∧ NamesCore t l (pcnOfTile n.val)) ∧
      (tileIsCore n.val = true → ∀ l, ¬ NamesCore s l (pcnOfTile n.val) → lptAt t.w l = lptAt s.w l) ∧
      (tileIsCore n.val = false → sliceOfTile n.val ∈ t.w.hub.mutedSlices ∧ t.w.hub.replme.getLsbD 2 = true ∧
        t.w.hub.replme.getLsbD (24 + sliceOfTile n.val) = true ∧ (∀ d, d / 256 = sliceOfTile n.val → disp t.w d = Disp.init) ∧
        ∀ p, p < 12 → portSlice p = sliceOfTile n.val → (port t.w p).up = false))) ∧
  ∀ (n : Fin 96) pass s, s.Inv → (stateOf s n.val ≠ 2 → ∃ t, exec (.selfTestComplete n pass) s = .next t ∧ t = s) ∧
    (stateOf s n.val = 2 → ∃ t, exec (.selfTestComplete n pass) s = .next t ∧
      bvF (tile t.w n.val).word 0 16 = bvF (tile s.w n.val).word 0 16 ∧ bvF (tile t.w n.val).word 20 2 = bvF (tile s.w n.val).word 20 2 ∧
      (pass = true → bvF (tile s.w n.val).word 20 2 < 3 → stateOf t n.val = 3 ∧ t.w.agenda = s.w.agenda ++ [.appealSend n]) ∧
      (pass = false ∨ 3 ≤ bvF (tile s.w n.val).word 20 2 → stateOf t n.val = 1 ∧ t.w.agenda = s.w.agenda) ∧
      (tile t.w n.val).nb = (Tile.initAt n.val).nb ∧ (tile t.w n.val).votes = [0, 0, 0, 0] ∧ (tile t.w n.val).map = (tile s.w n.val).map ∧
      (tileIsCore n.val = false → t.mem = s.mem ∧ ∀ d, d / 256 = sliceOfTile n.val → disp t.w d = Disp.init) ∧
      (tileIsCore n.val = true → let p := pcnOfTile n.val
        (∀ i, i < 2 ^ 21 → t.mem.rd (keyScr p 0 i) = 0 ∧ t.mem.rd (keyAcc p 0 0 0 0 0 + i) = 0) ∧
        (∀ i, i < 2 ^ 18 → t.mem.rd (keyScale p 0 0 0 + i) = 0x7F) ∧ (∀ j, tlc t.w p j = Tlc.init) ∧
        ∀ a, a < 2 ^ 41 → t.mem.rd a = s.mem.rd a))

/-- R154, R187, R188: an appealing tile sends at most three appeals and the table counts them; a neighbour whose record has APPEAL starts
its watch; a notice readmits the suspect in a router's map and, once all its sound neighbours have sent one, which the model counts by its
own choice (log entry 26), ends its appeal; the report of a retuned tile undoes its mute at the hub. -/
def Sys2Proof.Claims.AppealsHold : Prop :=
  (∀ (n : Fin 96) s, s.Inv → let k := bvF (tile s.w n.val).word 20 2
    (stateOf s n.val ≠ 3 ∨ k = 3 → ∃ t, exec (.appealSend n) s = .next t ∧ t = s) ∧
    (stateOf s n.val = 3 → k < 3 → ∃ t, exec (.appealSend n) s = .next t ∧ t.mem = s.mem ∧ bvF (tile t.w n.val).word 20 2 = k + 1 ∧
      stateOf t n.val = 3 ∧ (∀ m, m ≠ n.val → tile t.w m = tile s.w m) ∧
      (tileIsCore n.val = true → ∀ l, NamesCore s l (pcnOfTile n.val) → bvF (lptAt t.w l) 24 8 = k + 1) ∧
      t.w.agenda = s.w.agenda ++ (List.range 4).filterMap fun d => (neighbour n.val d).map fun m =>
        .appealReceive (Fin.ofNat 96 m) (Fin.ofNat 4 ((d + 2) % 4)))) ∧
  (∀ (n : Fin 96) (d : Fin 4) s, s.Inv → let w := (tile s.w n.val).watch.getD d.val false
    (stateOf s n.val ≠ 0 ∨ (recordOf s n.val d.val).getLsbD 22 = false ∨ w = true → ∃ t, exec (.appealReceive n d) s = .next t ∧ t = s) ∧
    (stateOf s n.val = 0 → (recordOf s n.val d.val).getLsbD 22 = true → w = false → ∃ t, exec (.appealReceive n d) s = .next t ∧
      TileOnly s t n.val ∧ (tile t.w n.val).watch.getD d.val false = true ∧ bvF (recordOf t n.val d.val) 23 5 = 0 ∧
      bvF (recordOf t n.val d.val) 0 23 = bvF (recordOf s n.val d.val) 0 23)) ∧
  (∀ (n m : Fin 96) s, s.Inv → ∃ t, exec (.retuneNoticeReceive n m) s = .next t ∧ TileOnly s t n.val ∧
    (tile t.w n.val).map.getLsbD m.val = false ∧
    (∀ i, i < 96 → i ≠ m.val → (tile t.w n.val).map.getLsbD i = (tile s.w n.val).map.getLsbD i) ∧
    (n ≠ m ∨ stateOf s n.val ≠ 3 → stateOf t n.val = stateOf s n.val) ∧
    (n = m → stateOf s n.val = 3 →
      (soundNeighbours s.w n.val ≤ (tile s.w n.val).heard.length + 1 → stateOf t n.val = 0) ∧
      ((tile s.w n.val).heard.length + 1 < soundNeighbours s.w n.val → stateOf t n.val = 3 ∧
        (tile t.w n.val).heard.length = (tile s.w n.val).heard.length + 1))) ∧
  ∀ (n : Fin 96) q s, s.Inv → (n.val ∉ s.w.hub.reported → ∃ t, exec (.retuneReport n q) s = .next t ∧ t = s) ∧
    (n.val ∈ s.w.hub.reported → ∃ t, exec (.retuneReport n q) s = .next t ∧ n.val ∉ t.w.hub.reported ∧
      (tileIsCore n.val = true → ∀ l, NamesCore s l (pcnOfTile n.val) → bvF (lptAt t.w l) 16 2 = 0) ∧
      (tileIsCore n.val = false → sliceOfTile n.val ∉ t.w.hub.mutedSlices))

/-- Accusations, votes, mutes and appeals, the claims named here together. -/
def Obligations.Muting : Prop :=
  Sys2Proof.Claims.AccusationsAndVotesHold ∧ Sys2Proof.Claims.MutingHold ∧ Sys2Proof.Claims.AppealsHold

/-- R17, R158, R200: a droop slows a tile to 7/8 and, while it lasts, by eighths to 4/8; its end restores 8/8. Each millisecond the ceiling
falls an eighth above the power limit and rises one after ten below 95 % of it. A die at 105 °C holds the ceiling at 4/8 until both are
below 100 °C. The device's power and temperature samples stand in its sensors. That the die's limit overrides the ceiling and leaves the
power steps' value as it stands is the model's choice (log entry 34). -/
def Obligations.PowerAndTemperature : Prop :=
  (∀ (n : Fin 96) s, s.Inv → let x := tile s.w n.val
    (∃ t, exec (.supplyDroop n) s = .next t ∧ t.mem = s.mem ∧ (tile t.w n.val).droop = min 7 x.droop ∧ (tile t.w n.val).sag = true ∧
      (tile t.w n.val).word.getLsbD 33 = true ∧ (∀ m, m ≠ n.val → tile t.w m = tile s.w m) ∧
      tGetD t.w.hub.dev 3 0 = if x.droop = 8 then (tGetD s.w.hub.dev 3 0 + 1) % 2 ^ 64 else tGetD s.w.hub.dev 3 0) ∧
    (∃ t, exec (.droopStep n) s = .next t ∧ t.mem = s.mem ∧
      (x.sag = true → TileOnly s t n.val ∧ (tile t.w n.val).droop = max 4 (x.droop - 1)) ∧ (x.sag = false → t = s)) ∧
    ∃ t, exec (.droopRecovery n) s = .next t ∧ TileOnly s t n.val ∧ (tile t.w n.val).droop = 8 ∧ (tile t.w n.val).sag = false ∧
      (tile t.w n.val).word.getLsbD 33 = false) ∧
  (∀ mW s, s.Inv → ∃ t, exec (.powerCheckTick mW) s = .next t ∧ t.mem = s.mem ∧ tGetD t.w.hub.dev 2 0 = mW ∧
    let lim := (fn s.w 0).pwrlim * 1000
    let h := s.w.hub
    (lim < mW → t.w.hub.ceiling = max 4 (h.ceiling - 1) ∧ t.w.hub.below = 0) ∧
    (mW ≤ lim → lim * 95 ≤ mW * 100 → t.w.hub.ceiling = h.ceiling ∧ t.w.hub.below = 0) ∧
    (mW ≤ lim → mW * 100 < lim * 95 → 9 ≤ h.below → t.w.hub.ceiling = min 8 (h.ceiling + 1) ∧ t.w.hub.below = 0) ∧
    (mW ≤ lim → mW * 100 < lim * 95 → h.below < 9 → t.w.hub.ceiling = h.ceiling ∧ t.w.hub.below = h.below + 1)) ∧
  (∀ (d : Fin 2) x s, s.Inv → ∃ t, exec (.thermalTrip d x) s = .next t ∧ t.mem = s.mem ∧ tGetD t.w.hub.dev d.val 0 = x ∧
    t.w.hub.hot = (s.w.hub.hot || decide (1680 ≤ x)) ∧ t.w.hub.ceiling = s.w.hub.ceiling ∧ (1680 ≤ x → clockCeiling t.w = 4)) ∧
  ∀ x y s, s.Inv → ∃ t, exec (.thermalCeilingRelease x y) s = .next t ∧ t.mem = s.mem ∧ tGetD t.w.hub.dev 0 0 = x ∧
    tGetD t.w.hub.dev 1 0 = y ∧ t.w.hub.hot = (s.w.hub.hot && !(decide (x < 1600) && decide (y < 1600))) ∧
    t.w.hub.ceiling = s.w.hub.ceiling

namespace Sys2Proof.Claims

open Sys2Proof.Machine

/-! ## Hub firmware: services, the context port, signals and dispensers (R73, R162, R167, R195, R325 to R328, R333) -/

/-- Hub firmware reaches n bytes of a page from va, which the TLBs hold, at a place of device memory that is neither poisoned nor being
scrubbed (R101, R109, R129, R156). -/
structure Near72 (s : State) (p wd asid va n : Nat) (nd : Need) (priv : Bool) (sl l pa : Nat) : Prop where
  hit : (tlbHit s.w p asid va).isSome = true
  page : va % 4096 + n ≤ 4096
  place : ownPlaces s.w 72 p (fun a => translateOwn s.env s.w p wd asid a nd priv) va n = .ok [(.dev sl l pa, va, n)]
  sound : scrubbing s.w sl pa = false
  clean : ∀ i, i < n → isPois s.w (keyDev sl l + i) = false

/-- The same under the encipherment tag of a world. -/
structure Spot (s : State) (p wd asid va n : Nat) (nd : Need) (priv : Bool) (sl l pa : Nat) : Prop
    extends Near72 s p wd asid va n nd priv sl l pa where
  tag : SameTag s.w wd [(.dev sl l pa, va, n)]

/-- Hub firmware reaches n bytes of a course's frame from an offset, in a page that the TLBs hold, at a place of device memory that is
neither poisoned nor being scrubbed, under the encipherment of its world's context key (R57, R101, R109, R129, R156). -/
structure FrameSpot (s : State) (y : Course) (off n : Nat) (nd : Need) (sl l pa : Nat) : Prop where
  hit : (tlbHit s.w y.id.part (part s.w y.id.part).cAsid (y.id.frame + off)).isSome = true
  page : (y.id.frame + off) % 4096 + n ≤ 4096
  place : ctxPlaces s.env s.w 72 y.id.part (slotWorld y 0) (y.id.frame + off) n nd = .ok [(.dev sl l pa, y.id.frame + off, n)]
  sound : scrubbing s.w sl pa = false
  clean : ∀ i, i < n → isPois s.w (keyDev sl l + i) = false
  tag : SameCtxTag s.w (slotWorld y 0) [(.dev sl l pa, y.id.frame + off, n)]

/-- The keys of n bytes from a place. -/
def keysAt (sl l n : Nat) : List Nat := (List.range n).map fun i => keyDev sl l + i

/-- The bytes of memory at n keys from a place. -/
def bytesAt (m : Memory) (sl l n : Nat) : List Byte := (keysAt sl l n).map m.rd

/-- Entry number j of a course's partition, pending or held, waits for the course alone. -/
structure EntryOf (s : State) (cid : Nat) (c : Course) (j : Nat) (x : Pending) : Prop where
  here : course? s.w cid = some c
  id : c.id.cid = cid
  entry : (allEntries s.w c.id.part)[j]? = some x
  of_ : x.e.cid = cid
  who : x.who = [.whole cid]
  unserved : x.served = false
  parked : c.k.at_ = .parked

/-- The entry is the first service trap of its course: TRAP 0x100 of a privileged course of the handler consort (R326). -/
structure Serves (s : State) (cid : Nat) (c : Course) (j : Nat) (x : Pending) : Prop extends EntryOf s cid c j x where
  first : (allEntries s.w c.id.part).findIdx? (fun y => y.e.cid == cid && isService s.w y) = some j

/-- The CAUSE byte that service of entry j marks: none for a held entry, which no ring holds (R325). -/
def Marks (s : State) (p j : Nat) (ms : List Nat) : Prop :=
  ((fqOf s p).pending.length ≤ j ∧ ms = []) ∨
  (j < (fqOf s p).pending.length ∧ ∃ sl l pa,
    Spot s p 0 (part s.w p).rAsid ((fqOf s p).base.toNat + 32 * (((fqOf s p).head.toNat + j) % (fqOf s p).size.toNat)) 1 .write true sl l pa ∧
      (fqOf s p).size ≠ 0 ∧ ms = [keyDev sl l])

/-- A course whose entry was resolved as a replay (R150). -/
def Resumed (s t : State) (cid : Nat) (c : Course) : Prop :=
  ∃ c', course? t.w cid = some c' ∧ c'.r = c.r ∧ c'.id = c.id ∧ (2 ≤ c.k.join → c'.k.at_ = .parked ∧ c'.k.join = c.k.join - 1) ∧
    (c.k.join ≤ 1 → Free s c → c'.k.at_ = .ready ∧ c'.k.join = 0)

/-- The courses a service event names and the kinds it serves (R327). -/
def serviceOf : Instr → Option (Nat × (Nat → Bool))
  | .hubServiceFrame cid => some (cid, fun k => k == 0 || decide (4 < k))
  | .hubServiceScratch cid => some (cid, (· == 1))
  | .hubServiceSaveArea cid => some (cid, (· == 2))
  | .hubServiceDrain cid => some (cid, (· == 3))
  | .hubServiceFrameWrite cid => some (cid, (· == 4))
  | _ => none

/-- The request block of a service stands in memory at a place that hub firmware reads and writes, and holds q (R326, R327). -/
structure BlockAt (s : State) (c : Course) (q : SvcReq) (sl l pa : Nat) : Prop where
  aligned : getS2 c 2 % 32 = 0
  read : Spot s c.id.part (slotWorld c 0) (slotAsid c 0) (getS2 c 2) 32 .read c.id.priv sl l pa
  write : Spot s c.id.part (slotWorld c 0) (slotAsid c 0) (getS2 c 2) 32 .write c.id.priv sl l pa
  holds : parseSvc (bytesAt s.mem sl l 32) = q

/-- What hub firmware writes into the block: STATUS, CAUSE and DONE (R327). -/
def SvcAnswers (t : State) (sl l status cause n : Nat) : Prop :=
  t.mem.rd (keyDev sl l + 24) = BitVec.ofNat 8 status ∧ t.mem.rd (keyDev sl l + 25) = BitVec.ofNat 8 cause ∧
  bytesAt t.mem sl (l + 28) 4 = leBytes 4 n

/-- A key is none of those that the answer takes in a block at a place. -/
def OffAnswer (sl l a : Nat) : Prop :=
  (a < keyDev sl l + 24 ∨ keyDev sl l + 26 ≤ a) ∧ (a < keyDev sl l + 28 ∨ keyDev sl l + 32 ≤ a)

/-- A request's fields are within R327's form. -/
def FormOf (q : SvcReq) : Prop := q.reserved = false ∧ q.kind ≤ 4 ∧ (q.kind = 1 ∨ q.coreN = 0)

/-- The status with which a request ends before anything is read or written (R327). -/
def EndsWith (s : State) (c : Course) (q : SvcReq) (st : Nat) : Prop :=
  (st = 1 ∧ ¬ FormOf q) ∨ (st = 2 ∧ FormOf q ∧ courseIn s.w c.id.part q.cid = none) ∨
  (FormOf q ∧ ∃ y, courseIn s.w c.id.part q.cid = some y ∧ (consort? s.w y.id.consort).isSome = true ∧
    ((st = 4 ∧ slotWorld y 0 ≠ 0 ∧ slotWorld y 0 ≠ slotWorld c 0) ∨
     (st = 5 ∧ (slotWorld y 0 = 0 ∨ slotWorld y 0 = slotWorld c 0) ∧ q.kind ≠ 3 ∧ y.k.at_ = .resident)))

/-- A signal is dropped by a hub core that serves these partitions: reserved bits, a partition it does not serve, no such course, or a
consort core or counter that the consort lacks (R333). -/
def SignalDropped (s : State) (serves : List Nat) (v : BitVec 64) : Prop :=
  let p := bitsAt v.toNat 40 4
  bitsAt v.toNat 44 20 ≠ 0 ∨ p ∉ serves ∨ courseIn s.w p (bitsAt v.toNat 0 32) = none ∨
    ∃ c, courseIn s.w p (bitsAt v.toNat 0 32) = some c ∧ ∀ k, consort? s.w c.id.consort = some k →
      k.cores.length ≤ bitsAt v.toNat 38 2 ∨ k.tlCnt ≤ bitsAt v.toNat 32 6

/-- A signal names counter n of a core (R333). -/
def SignalFor (s : State) (serves : List Nat) (v : BitVec 64) (pcn n : Nat) : Prop :=
  let p := bitsAt v.toNat 40 4
  bitsAt v.toNat 44 20 = 0 ∧ p ∈ serves ∧ ∃ c k, courseIn s.w p (bitsAt v.toNat 0 32) = some c ∧
    consort? s.w c.id.consort = some k ∧ bitsAt v.toNat 38 2 < k.cores.length ∧ bitsAt v.toNat 32 6 < k.tlCnt ∧
    pcn = pcnOf s.w (nth k.cores (bitsAt v.toNat 38 2) 0) ∧ n = k.tlFirst + bitsAt v.toNat 32 6

/-- A service event of one KIND writes the bytes of its source to the destination and answers. -/
def Transfers (event_ : Nat → Instr) (kind : Nat) : Prop :=
  ∀ cid s c j x q b bs bl bp ds dl dp ms, s.Inv → Serves s cid c j x → BlockAt s c q bs bl bp → q.kind = kind →
    svcSource s.env s.w c q = .bytes (b.map fun y => (y, false)) true → b ≠ [] →
    Spot s c.id.part (slotWorld c 0) (slotAsid c 0) (q.dest % 2 ^ 64) b.length .write c.id.priv ds dl dp → q.dest < 2 ^ 64 →
    Marks s c.id.part j ms → (keysAt ds dl b.length ++ keysAt bs bl 32 ++ ms).Nodup →
    ∃ t, exec (event_ cid) s = .next t ∧ Resumed s t cid c ∧ bytesAt t.mem ds dl b.length = b ∧ SvcAnswers t bs bl 0 0 b.length ∧
      (∀ a ∈ ms, t.mem.rd a = 0xFF) ∧
      ∀ a, a ∉ keysAt ds dl b.length → a ∉ ms → OffAnswer bs bl a → t.mem.rd a = s.mem.rd a

/-- Word i of a list of bytes. -/
def wordIn (b : List Byte) (i : Nat) : Word := BitVec.ofNat 32 (leNat ((b.drop i).take 4))

/-- The S registers of a frame after its bytes from an offset in the control area are written (R58): S i stands at 0x2000 + 4 i. -/
def SWritten (y y' : Course) (off : Nat) (b : List Byte) : Prop :=
  ∀ i, i < 64 →
    (off ≤ 0x2000 + 4 * i → 0x2000 + 4 * i + 4 ≤ off + b.length → getS y' i = wordIn b (0x2000 + 4 * i - off)) ∧
    (0x2000 + 4 * i + 4 ≤ off ∨ off + b.length ≤ 0x2000 + 4 * i → getS y' i = getS y i)

end Sys2Proof.Claims

/-- R167, R325, R326: in every state, whatever entry, course or block they name, the events of hub firmware's service complete:
HANDLER_ENTRY_SERVICE, HUB_SERVICE_FRAME, HUB_SERVICE_SCRATCH, HUB_SERVICE_SAVE_AREA, HUB_SERVICE_DRAIN and HUB_SERVICE_FRAME_WRITE; what
they do is stated beside this. -/
def Sys2Proof.Claims.ServicesCompleteHold : Prop :=
  ∀ p k cid s, s.Inv →
    (∃ t, exec (.handlerEntryService p k) s = .next t ∧ t.Inv) ∧ (∃ t, exec (.hubServiceFrame cid) s = .next t ∧ t.Inv) ∧
    (∃ t, exec (.hubServiceScratch cid) s = .next t ∧ t.Inv) ∧ (∃ t, exec (.hubServiceSaveArea cid) s = .next t ∧ t.Inv) ∧
    (∃ t, exec (.hubServiceDrain cid) s = .next t ∧ t.Inv) ∧ ∃ t, exec (.hubServiceFrameWrite cid) s = .next t ∧ t.Inv

/-- R325, R167: hub firmware replays an entry of the handler consort that requests no service and marks it 0xFF in its ring; an entry
already served, or of another consort, it leaves: HANDLER_ENTRY_SERVICE completes. -/
def Sys2Proof.Claims.HandlerEntriesHold : Prop :=
  ∀ s p j x, s.Inv → (allEntries s.w p)[j]? = some x →
    (x.served = true ∨ handlerCourse s.w x = none → ∃ t, exec (.handlerEntryService p j) s = .next t ∧ t = s) ∧
    ∀ cid c ms, EntryOf s cid c j x → c.id.part = p → isHandler s.w c = true → isService s.w x = false → Marks s p j ms →
      ∃ t, exec (.handlerEntryService p j) s = .next t ∧ Resumed s t cid c ∧ (∀ a ∈ ms, t.mem.rd a = 0xFF) ∧
        (∀ a, a ∉ ms → t.mem.rd a = s.mem.rd a) ∧ (fqOf t p).head = (fqOf s p).head ∧ (fqOf t p).tail = (fqOf s p).tail ∧
        ∀ n, n ≠ cid → course? t.w n = course? s.w n

/-- R326, R327: a service of KIND 0 to 3 whose source is read whole and whose destination stands in one page writes the bytes there, then
STATUS 0, CAUSE 0 and DONE, marks its entry served and resumes the course; no other byte of memory changes: HUB_SERVICE_FRAME,
HUB_SERVICE_SCRATCH, HUB_SERVICE_SAVE_AREA and HUB_SERVICE_DRAIN complete. -/
def Sys2Proof.Claims.HubTransfersHold : Prop :=
  Sys2Proof.Claims.Transfers .hubServiceFrame 0 ∧ Sys2Proof.Claims.Transfers .hubServiceScratch 1 ∧ Sys2Proof.Claims.Transfers .hubServiceSaveArea 2 ∧
  Sys2Proof.Claims.Transfers .hubServiceDrain 3

/-- R326, R327: a request that breaks the block's form, names no course, a course of another confidential world or a resident course
ends with STATUS 1, 2, 4 or 5 and DONE 0; a misaligned block is told as host event 0x15 with cause 0x03 and its address. Either way the
course resumes. That the form is tested first, then 2, 4 and 5, and the cause 0x03 of a misaligned block are the model's choice (log entry
19). -/
def Sys2Proof.Claims.HubRefusalsHold : Prop :=
  ∀ i cid kinds s c j x ms, serviceOf i = some (cid, kinds) → s.Inv → Serves s cid c j x → Marks s c.id.part j ms →
    (∀ q st bs bl bp, BlockAt s c q bs bl bp → kinds q.kind = true → EndsWith s c q st → (keysAt bs bl 32 ++ ms).Nodup →
      ∃ t, exec i s = .next t ∧ Resumed s t cid c ∧ SvcAnswers t bs bl st 0 0 ∧
        (∀ a ∈ ms, t.mem.rd a = 0xFF) ∧ ∀ a, a ∉ ms → OffAnswer bs bl a → t.mem.rd a = s.mem.rd a) ∧
    (getS2 c 2 % 32 ≠ 0 → ∃ t, exec i s = .next t ∧ Resumed s t cid c ∧
      ToldBoth s t c.id.part (slotWorld c 0) 0x15 0x03 (getS2 c 2))

/-- R73, R327: a service of KIND 4 writes the bytes at DEST into the S registers of a parked course's frame, and the course holds them when
it runs again; the answer counts them: HUB_SERVICE_FRAME_WRITE completes. -/
def Sys2Proof.Claims.HubFrameWritesHold : Prop :=
  ∀ cid s c j x q y k bs bl bp ds dl dp fs fl fp ms, s.Inv → Serves s cid c j x → BlockAt s c q bs bl bp → q.kind = 4 → FormOf q →
    courseIn s.w c.id.part q.cid = some y → y.id.cid = q.cid → q.cid ≠ cid → consort? s.w y.id.consort = some k →
    slotWorld y 0 = 0 ∨ slotWorld y 0 = slotWorld c 0 → y.k.at_ = .parked ∨ y.k.at_ = .halted → y.k.newer = [] →
    0x2000 ≤ q.off → q.off + q.len ≤ 0x2100 → q.off % 4 = 0 → q.len % 4 = 0 → 0 < q.len → q.dest < 2 ^ 64 →
    Spot s c.id.part (slotWorld c 0) (slotAsid c 0) (q.dest % 2 ^ 64) q.len .read c.id.priv ds dl dp →
    FrameSpot s y q.off q.len .write fs fl fp →
    Marks s c.id.part j ms → (keysAt ds dl q.len ++ keysAt fs fl q.len ++ keysAt bs bl 32 ++ ms).Nodup →
    ∃ t y', exec (.hubServiceFrameWrite cid) s = .next t ∧ Resumed s t cid c ∧ course? t.w q.cid = some y' ∧
      SWritten y y' q.off (bytesAt s.mem ds dl q.len) ∧ bytesAt t.mem fs fl q.len = bytesAt s.mem ds dl q.len ∧
      SvcAnswers t bs bl 0 0 q.len ∧
      ∀ a, a ∉ keysAt fs fl q.len → a ∉ ms → OffAnswer bs bl a → t.mem.rd a = s.mem.rd a

/-- Entries and services of the handler consort, the claims named here together. -/
def Obligations.HubServices : Prop :=
  Sys2Proof.Claims.ServicesCompleteHold ∧ Sys2Proof.Claims.HandlerEntriesHold ∧ Sys2Proof.Claims.HubTransfersHold ∧ Sys2Proof.Claims.HubRefusalsHold ∧ Sys2Proof.Claims.HubFrameWritesHold

/-- R2, R51, R73, R195: the context port answers a read of a parked or halted course's frame with its bytes, an unwritten line with zeros, a
cached one with its value; a write changes the frame and the registers it holds, but not the lane status, which the model reads
from R48 by inference (log entry 18). A resident course is refused, and one of a confidential world to all but a privileged course of that
world. -/
def Obligations.ContextPort : Prop :=
  ∀ from_ cid off s y, s.Inv → course? s.w cid = some y → y.id.cid = cid →
    let asks := fun n => [Instr.contextPortRead from_ cid off n, .contextPortWrite from_ cid off (List.replicate n 0)]
    let mayReach := slotWorld y 0 = 0 ∨
      ∃ r d, from_ = some r ∧ course? s.w r = some d ∧ d.id.priv = true ∧ slotWorld d 0 = slotWorld y 0
    (∀ n i, i ∈ asks n → y.k.at_ = .resident ∨ ¬ mayReach → ∃ t, exec i s = .next t ∧ t = Replied s .refused) ∧
    (y.k.at_ ≠ .resident → mayReach →
      (∀ n sl l pa, upToDate s.env s.w cid = s.w → 0 < n → FrameSpot s y off n .read sl l pa →
        (y.k.newer = [] → 0x2000 ≤ off → off + n ≤ 0x3000 → ∃ t, exec (.contextPortRead from_ cid off n) s = .next t ∧
          t = Replied s (.data (bytesAt s.mem sl l n))) ∧
        (∀ r, r < 64 → isZero y r = true → 128 * r ≤ off → off + n ≤ 128 * r + 128 →
          ∃ t, exec (.contextPortRead from_ cid off n) s = .next t ∧ t = Replied s (.data (List.replicate n 0))) ∧
        ∀ r z, r < 64 → isZero y r = false → tGet? y.v.lines r = some z → z.poison = false → off = 128 * r → n = 128 →
          ∃ t, exec (.contextPortRead from_ cid off n) s = .next t ∧ t = Replied s (.data (bytesOf z))) ∧
      ∀ b sl l pa, y.k.newer = [] → b ≠ [] → FrameSpot s y off b.length .write sl l pa →
        (0x2000 ≤ off → off + b.length ≤ 0x2100 →
          ∃ t y', exec (.contextPortWrite from_ cid off b) s = .next t ∧ t.w.replies = .done :: s.w.replies ∧ course? t.w cid = some y' ∧
            SWritten y y' off b ∧ bytesAt t.mem sl l b.length = b ∧ ∀ a, a ∉ keysAt sl l b.length → t.mem.rd a = s.mem.rd a) ∧
        (0x2128 ≤ off → off + b.length ≤ 0x2130 →
          ∃ t y', exec (.contextPortWrite from_ cid off b) s = .next t ∧ course? t.w cid = some y' ∧ ∀ k, k < 32 → laneSt y' k = laneSt y k))

/-- R2, R3, R333, R335: a store to HSIG stands in the hub core's register, whose reserved bits 63:44 stay 0. A signal that names a counter
of a course's consort takes its next number, which is done at once when no lower one is outstanding; a full counter keeps the signal in the
hub, and the later ones of its core behind it; any other is dropped, counted and changes nothing else. -/
def Sys2Proof.Claims.HubSignalsHold : Prop :=
  ∀ (hc : Fin 8) serves (v : BitVec 64) s, s.Inv →
    let stored := { s.w.hub with hubCores := setNth 8 s.w.hub.hubCores hc.val ⟨serves, v &&& BitVec.ofNat 64 (2 ^ 44 - 1)⟩ ⟨[], 0⟩ }
    let kept := fun (t : State) => t =
      { s with w := { s.w with hub := { stored with signals := s.w.hub.signals ++ [(hc.val, v)] } } }
    (s.w.hub.signals = [] → SignalDropped s serves v → ∃ t, exec (.hsigSignal ⟨hc, serves⟩ v) s = .next t ∧
      t = { s with w := { s.w with hub := { stored with dev := t.w.hub.dev } } } ∧
      tGetD t.w.hub.dev 5 0 = (tGetD s.w.hub.dev 5 0 + 1) % 2 ^ 64) ∧
    (∀ pcn n, s.w.hub.signals = [] → SignalFor s serves v pcn n →
      let u := tlc s.w pcn n
      (256 ≤ (u.issued - u.done).toNat → ∃ t, exec (.hsigSignal ⟨hc, serves⟩ v) s = .next t ∧ kept t) ∧
      (u.issued = u.done → u.marked = [] → pendingSigs s.w pcn n = [] → Keyed s → ∃ t, exec (.hsigSignal ⟨hc, serves⟩ v) s = .next t ∧
        t.w.hub.signals = [] ∧ t.w.hub.hubCores = stored.hubCores ∧
        (tlc t.w pcn n).issued = u.issued + 1 ∧ (tlc t.w pcn n).done = u.issued + 1 ∧ ∀ a, t.mem.rd a = s.mem.rd a)) ∧
    ∀ v0 pcn n, s.w.hub.signals = [(hc.val, v0)] → SignalFor s serves v0 pcn n →
      256 ≤ ((tlc s.w pcn n).issued - (tlc s.w pcn n).done).toNat → ∃ t, exec (.hsigSignal ⟨hc, serves⟩ v) s = .next t ∧ kept t

/-- Engine issue, TLSIG and HSIG take numbers, the claims named here together. -/
def Obligations.TimelineNumbers : Prop :=
  Sys2Proof.Claims.EngineIssueHold ∧ Sys2Proof.Claims.TimelineSignalHold ∧ Sys2Proof.Claims.HubSignalsHold

/-- R162: hub firmware resets a dispenser of its partition to 0 and 0, and refuses while a course sleeps on it; those of a muted slice are
lost. -/
def Sys2Proof.Claims.DispenserResetsHold : Prop :=
  ∀ p d s, s.Inv →
    ((part s.w p).slices.getLsbD (d / 256) = false ∨ sliceMuted s.w (d / 256) = true →
      ∃ t, exec (.dispenserReset p d) s = .next t ∧ t = s) ∧
    ((part s.w p).slices.getLsbD (d / 256) = true → sliceMuted s.w (d / 256) = false →
      ((∃ y ∈ s.w.courses, ∃ n, y.2.k.await = .ticket d n) → ∃ t, exec (.dispenserReset p d) s = .next t ∧
        t = { s with w := { s.w with replies := .refused :: s.w.replies } }) ∧
      ((∀ y ∈ s.w.courses, ∀ n, y.2.k.await ≠ .ticket d n) → ∃ t, exec (.dispenserReset p d) s = .next t ∧
        t = { s with w := { s.w with replies := .done :: s.w.replies, disps := t.w.disps } } ∧
        disp t.w d = ⟨0, 0, 0⟩ ∧ ∀ m, m ≠ d → disp t.w m = disp s.w m))

/-- Barriers and ticket dispensers, the claims named here together. -/
def Obligations.BarriersAndTickets : Prop :=
  Sys2Proof.Claims.BarriersHold ∧ Sys2Proof.Claims.BarrierCountsHold ∧ Sys2Proof.Claims.TicketsHold ∧ Sys2Proof.Claims.DispenserResetsHold

namespace Sys2Proof.Claims

open Sys2Proof.Machine

/-! ## Registers of a function, bring-up, TDISP and SPDM (R16, R106, R154, R157, R159, R190, R194, R195, R199, R201) -/

/-- A function takes register writes: the link is up, and it is the PF, or a VF that is bound (R190, R201). -/
def Takes (s : State) (n : Nat) : Prop := 2 ≤ s.w.hub.boot ∧ (n = 0 ∨ (fn s.w n).bound = true)

/-- Function n stands as f, and nothing else differs. -/
structure FnIs (s t : State) (n : Nat) (f : Fn) : Prop where
  here : fn t.w n = f
  others : ∀ m, m ≠ n → fn t.w m = fn s.w m
  rest : t = { s with w := { s.w with fns := t.w.fns } }

/-- Functions and partitions alone differ: function n stands as f and partition p as q. -/
structure PartIs (s t : State) (n : Nat) (f : Fn) (p : Nat) (q : Part) : Prop where
  here : fn t.w n = f
  others : ∀ m, m ≠ n → fn t.w m = fn s.w m
  changed : part t.w p = q
  parts : ∀ m, m ≠ p → part t.w m = part s.w m
  rest : t = { s with w := { s.w with fns := t.w.fns, parts := t.w.parts } }

/-- v is the highest version, counted from 1, that is set in two bytes of eight; 0 when none is (R199). -/
def Highest (a b v : Nat) : Prop :=
  (v = 0 ∧ ∀ i, i < 8 → ¬ (a.testBit i = true ∧ b.testBit i = true)) ∨
  (0 < v ∧ v ≤ 8 ∧ a.testBit (v - 1) = true ∧ b.testBit (v - 1) = true ∧
    ∀ i, v ≤ i → i < 8 → ¬ (a.testBit i = true ∧ b.testBit i = true))

/-- VERCAP's byte b (R190). -/
def capByte (b : Nat) : Nat := if b = 4 then 3 else 1

/-- The identifiers that each kind of counter takes (R158), and their values; a core's register-miss stall cycles and a slice's hits and
misses count what only timing shows, a free value (the model's choice, log entry 6). -/
def CounterIs (s : State) (id v : Nat) : Prop :=
  let free := (Config.freeWord s.w.fresh).toNat + (Config.freeWord (s.w.fresh + 1)).toNat * 2 ^ 32
  (id < 6 → v = tGetD s.w.hub.dev id 0) ∧
  (∀ pcn, pcn < 72 → id = 0x1000 + 64 * pcn + 1 → v = free) ∧
  (∀ sl e, sl < 24 → e < 2 → id = 0x3000 + 16 * sl + e → v = free) ∧
  (∀ pcn e, pcn < 72 → e < 8 → e ≠ 1 → id = 0x1000 + 64 * pcn + e → v = tGetD (Sys2Proof.Machine.core s.w pcn).ev e 0) ∧
  (∀ sl e, sl < 24 → 2 ≤ e → e < 5 → id = 0x3000 + 16 * sl + e → v = tGetD s.w.hub.sliceEv id 0) ∧
  (∀ p, p < 16 → id = 0x4000 + p → v = (part s.w p).denied)

/-- A VF of partition p may read an identifier (R159): it is on the allow-list, or names the partition. -/
def MayRead (s : State) (p id : Nat) : Prop :=
  id = 0x4000 + p ∨ ∃ y ∈ (part s.w p).allow, bvF y.2 16 1 = 1 ∧ bvF y.2 0 16 = id

/-- The enabled cores of a device in ascending order (R13). -/
def enabled (f : Fixed) : List Nat := (List.range 72).filter fun p => if p < 36 then !f.harv0.getLsbD p else !f.harv1.getLsbD (p - 36)

/-- What a function's queue is told when it is first set up, in order, as partition, code, DETAIL and ADDR: the PF what bring-up found, and
the PF and each partition's event function REPLME, if it is raised (R179, R201). -/
def HeldReports (s : State) (n : Nat) (evs : List (Nat × Nat × Nat × Nat)) : Prop :=
  let found := if n = 0 then s.w.hub.reports.map fun (code, detail, addr) => (0, code, detail, addr) else []
  let tells := s.w.hub.replme ≠ 0 ∧ (n = 0 ∨ ∃ p, p < 16 ∧ (part s.w p).live = true ∧ eventFn s.w p = n)
  (tells ∧ evs = found ++ [((fn s.w n).part, 0x22, s.w.hub.replme.toNat % 2 ^ 32, s.w.hub.replme.toNat)]) ∨ (¬ tells ∧ evs = found)

/-- The host writes a register at an offset of BAR 0. -/
def Writes (n : FnNo) (off : Nat) (v : BitVec 64) (s t : State) : Prop := exec (.registerWrite n off v) s = .next t

end Sys2Proof.Claims

/-- R190: a write of HEQBASE or a permitted HEQSIZE sets head and tail to 0 and PHASE to 1; any other HEQSIZE leaves it; a HEQHEAD that
would pass the tail is ignored; an unbound VF ignores writes, and without a link none arrives. That the low 12 bits of a HEQBASE are dropped
is the model's choice (log entry 66). The first set-up is stated beside this. -/
def Sys2Proof.Claims.HostQueueRegistersHold : Prop :=
  ∀ (n : FnNo) (v : BitVec 64) s, s.Inv →
    let f := fn s.w n.val
    let ok := v.toNat = 0 ∨ ∃ i, i ≤ 10 ∧ v.toNat = 2 ^ (6 + i)
    (¬ Takes s n.val → (∀ b, exec (.heqConfigWrite n b v) s = .next s) ∧ exec (.heqheadWrite n v) s = .next s) ∧
    (¬ ok → exec (.heqConfigWrite n true v) s = .next s) ∧
    (Takes s n.val → ok → f.everHeq = true ∨ v.toNat = 0 → ∃ t, exec (.heqConfigWrite n true v) s = .next t ∧
      FnIs s t n.val { f with heqSize := v.toNat, heqHead := 0, heqTail := 0, phase := true }) ∧
    (Takes s n.val → f.everHeq = true ∨ f.heqSize = 0 → ∃ t, exec (.heqConfigWrite n false v) s = .next t ∧
      FnIs s t n.val { f with heqBase := BitVec.ofNat 64 (v.toNat / 4096 * 4096), heqHead := 0, heqTail := 0, phase := true }) ∧
    (Takes s n.val → f.heqTail < f.heqSize → f.heqHead < f.heqSize → v.toNat < f.heqSize →
      (∃ i, i ≤ (f.heqTail + f.heqSize - f.heqHead) % f.heqSize ∧ v.toNat = (f.heqHead + i) % f.heqSize) →
      ∃ t, exec (.heqheadWrite n v) s = .next t ∧ FnIs s t n.val { f with heqHead := v.toNat }) ∧
    (f.heqTail < f.heqSize → f.heqHead < f.heqSize →
      (¬ ∃ i, i ≤ (f.heqTail + f.heqSize - f.heqHead) % f.heqSize ∧ v.toNat = (f.heqHead + i) % f.heqSize) →
      exec (.heqheadWrite n v) s = .next s)

/-- R151, R179, R190, R201: the write that first sets a function's queue up has the queue take what was held for it: the reports of bring-up, and
REPLME if it is raised, each an entry of the new ring in order, with PHASE 1 and the entries lost until then counted in the first. That a
queue is set up by the first write that leaves HEQSIZE other than 0 is the model's choice (log entry 66). -/
def Sys2Proof.Claims.FirstSetUpHold : Prop :=
  ∀ (n : FnNo) (size : Bool) (v : BitVec 64) s evs, s.Inv → Takes s n.val →
    let f := fn s.w n.val
    let sz := if size then v.toNat else f.heqSize
    let base := if size then f.heqBase.toNat else v.toNat / 4096 * 4096
    let m := bvF (msixEntry f 0) 0 64
    f.everHeq = false → (size = true → ∃ i, i ≤ 10 ∧ v.toNat = 2 ^ (6 + i)) → HeldReports s n.val evs → evs.length < sz →
    m + 4 ≤ base ∨ base + 32 * evs.length ≤ m →
    ∃ t, exec (.heqConfigWrite n size v) s = .next t ∧
      ((fn t.w n.val).everHeq = true ∧ (fn t.w n.val).heqSize = sz ∧ (fn t.w n.val).heqBase.toNat = base ∧ (fn t.w n.val).heqHead = 0 ∧
        (fn t.w n.val).heqTail = evs.length ∧ (fn t.w n.val).phase = true) ∧
      t.w.hub.reports = (if n.val = 0 then [] else s.w.hub.reports) ∧
      ∀ (i : Nat) e, evs[i]? = some e → EventIs (hostBytes t.mem n.val (base + 32 * i) 32)
        { f with phase := true, dropped := if i = 0 then f.dropped else 0 } e.1 0 e.2.1 e.2.2.1 e.2.2.2

/-- R16, R199: VERSEL takes effect while no consort of the partition exists: each structure's version in force is the highest in both
VERCAP and VERSEL, 0 when there is none. The PF's own VERSEL sets no partition's. That VERSEL's bits above byte 4 are dropped is the model's
choice (log entry 66). -/
def Sys2Proof.Claims.VersionsHold : Prop :=
  ∀ (n : FnNo) (v : BitVec 64) s, s.Inv →
    let f := fn s.w n.val
    (¬ Takes s n.val ∨ (∃ y ∈ s.w.consorts, y.2.part = f.part) → exec (.verselWrite n v) s = .next s) ∧
    (Takes s n.val → n.val = 0 → (∀ y ∈ s.w.consorts, y.2.part ≠ f.part) → ∃ t, exec (.verselWrite n v) s = .next t ∧
      FnIs s t n.val { f with versel := BitVec.ofNat 64 (v.toNat % 2 ^ 40) }) ∧
    (Takes s n.val → n.val ≠ 0 → (∀ y ∈ s.w.consorts, y.2.part ≠ f.part) → (part s.w f.part).fq.held = [] →
      ∃ t q, exec (.verselWrite n v) s = .next t ∧
      PartIs s t n.val { f with versel := BitVec.ofNat 64 (v.toNat % 2 ^ 40) } f.part q ∧
      q = { part s.w f.part with veract := q.veract } ∧
      ∀ b, b < 5 → Highest (capByte b) (bitsAt v.toNat (8 * b) 8) (nth q.veract b 0))

/-- R159: a read of CRVAL returns a counter that the reader may see and clears DENIED; any other returns zero, sets DENIED and counts the
denial to the partition that owns the identifier, else to the reader's. An unbound VF reads zero. -/
def Sys2Proof.Claims.CounterReadsHold : Prop :=
  ∀ (n : FnNo) s v, s.Inv → CounterIs s (fn s.w n.val).crsel v →
    let f := fn s.w n.val
    let known := f.crsel < 6 ∨ (∃ pcn e, pcn < 72 ∧ e < 8 ∧ f.crsel = 0x1000 + 64 * pcn + e) ∨
      (∃ sl e, sl < 24 ∧ e < 5 ∧ f.crsel = 0x3000 + 16 * sl + e) ∨ ∃ p, p < 16 ∧ f.crsel = 0x4000 + p
    (Takes s n.val → known → n.val = 0 ∨ MayRead s f.part f.crsel → ∃ t, exec (.counterRead n) s = .next t ∧
      t.w.replies = .data (leBytes 8 v) :: s.w.replies ∧ fn t.w n.val = { f with crval := BitVec.ofNat 64 v, denied := false } ∧
      t.mem = s.mem ∧ t.w.parts = s.w.parts) ∧
    (2 ≤ s.w.hub.boot → n.val ≠ 0 → f.bound = false → ∃ t, exec (.counterRead n) s = .next t ∧
      t = Replied s (.data (List.replicate 8 0))) ∧
    (Takes s n.val → n.val ≠ 0 → ¬ MayRead s f.part f.crsel → ∃ t, exec (.counterRead n) s = .next t ∧
      t.w.replies = .data (List.replicate 8 0) :: s.w.replies ∧ fn t.w n.val = { f with crval := 0, denied := true } ∧
      ∀ p, (p < 16 → f.crsel = 0x4000 + p → (part t.w p).denied = ((part s.w p).denied + 1) % 2 ^ 64) ∧
        (counterPart s.w f.crsel = some p ∨ (counterPart s.w f.crsel = none ∧ p = f.part) →
          (part t.w p).denied = ((part s.w p).denied + 1) % 2 ^ 64))

/-- R157, R159, R190 to R192: the other registers of BAR 0: COALT, PWRLIM, CRSEL, MBREQ, MBDOOR, the MSI-X table and a vector's mask, which
posts what was pending as it clears. That bits above COALT's and PWRLIM's fields are dropped before the range is tested is the model's
choice (log entry 66), and so is status 2 of a doorbell with a code that the table does not list (log entry 27). -/
def Sys2Proof.Claims.FunctionRegistersHold : Prop :=
  ∀ (n : FnNo) (v : BitVec 64) s, s.Inv →
    let f := fn s.w n.val
    (∀ x, x = bitsAt v.toNat 0 10 →
      (¬ Takes s n.val ∨ x = 0 ∨ 1000 < x → exec (.coaltWrite n v) s = .next s) ∧
      (Takes s n.val → 1 ≤ x → x ≤ 1000 → ∃ t, exec (.coaltWrite n v) s = .next t ∧ FnIs s t n.val { f with coalt := x })) ∧
    (∀ x, x = bitsAt v.toNat 0 11 →
      (n.val ≠ 0 ∨ ¬ Takes s 0 ∨ x < 600 ∨ 1800 < x → exec (.pwrlimWrite n v) s = .next s) ∧
      (n.val = 0 → Takes s 0 → 600 ≤ x → x ≤ 1800 → ∃ t, exec (.pwrlimWrite n v) s = .next t ∧ FnIs s t 0 { f with pwrlim := x })) ∧
    (∀ off, ¬ Takes s n.val ∨ off % 8 ≠ 0 → Writes n off v s s) ∧
    (Takes s n.val →
      (∃ t, Writes n 0x100 v s t ∧ FnIs s t n.val { f with crsel := bitsAt v.toNat 0 16 }) ∧
      (∀ i, i < 8 → ∃ t, Writes n (0x400 + 8 * i) v s t ∧ ∃ m, FnIs s t n.val { f with mbreq := m } ∧
        bvF m (64 * i) 64 = v.toNat ∧ ∀ j, j < 512 → j < 64 * i ∨ 64 * i + 64 ≤ j → m.getLsbD j = f.mbreq.getLsbD j) ∧
      (v.getLsbD 0 = true → v.getLsbD 1 = false → f.pend = true → ∃ t, Writes n 0x480 v s t ∧
        FnIs s t n.val { f with ignored := true }) ∧
      (v.getLsbD 0 = true → v.getLsbD 1 = false → f.pend = false → ∃ t, Writes n 0x480 v s t ∧
        let code := bvF f.mbreq 0 8
        (1 ≤ code → code ≤ 0x0E → FnIs s t n.val { f with mbcopy := f.mbreq, pend := true }) ∧
        (code = 0 ∨ 0x0E < code → FnIs s t n.val { f with mbcopy := f.mbreq, mbrsp := 2 })) ∧
      (v.getLsbD 0 = false → ∃ t, Writes n 0x480 v s t ∧
        FnIs s t n.val { f with ignored := f.ignored && !v.getLsbD 1 }) ∧
      (∀ vec, vec < (if n.val = 0 then 256 else 32) → ∀ hi : Bool, ∃ t, Writes n (0x8000 + 16 * vec + 8 * hi.toNat) v s t ∧
        let en := bvSet (tGetD f.msix vec (BitVec.ofNat 128 (2 ^ 96))) (64 * hi.toNat) 64 v.toNat
        (fn t.w n.val).msix = tPut f.msix vec en ∧
        (vec ∉ f.pba ∨ bvF en 96 1 = 1 ∨ (tGet? f.openIv vec).isSome = true → FnIs s t n.val { f with msix := tPut f.msix vec en }) ∧
        (vec ∈ f.pba → bvF en 96 1 = 0 → tGet? f.openIv vec = none → vec ∉ (fn t.w n.val).pba ∧
          t.w.replies = .msix n.val vec :: s.w.replies ∧ hostBytes t.mem n.val (bvF en 0 64) 4 = leBytes 4 (bvF en 64 32))) ∧
      ∀ off, off % 8 = 0 → off = 0 ∨ off = 8 ∨ off = 0x10 ∨ off = 0x20 ∨ off = 0x58 ∨ off = 0x108 ∨ (0x440 ≤ off ∧ off < 0x480) ∨
        (0x9000 ≤ off ∧ off < 0x10000) → Writes n off v s s) ∧
    ∀ vec : Fin 256, Takes s n.val → vec.val < (if n.val = 0 then 256 else 32) →
      let en := tGetD f.msix vec.val (BitVec.ofNat 128 (2 ^ 96))
      ∃ t, exec (.msixVectorUnmask n vec) s = .next t ∧
        (fn t.w n.val).msix = tPut f.msix vec.val (bvSet en 96 1 0) ∧
        ((vec.val ∉ f.pba ∨ (tGet? f.openIv vec.val).isSome = true) → t.mem = s.mem ∧ (fn t.w n.val).pba = f.pba) ∧
        (vec.val ∈ f.pba → tGet? f.openIv vec.val = none → (fn t.w n.val).pba = f.pba.filter (· != vec.val) ∧
          t.w.replies = .msix n.val vec.val :: s.w.replies ∧ hostBytes t.mem n.val (bvF en 0 64) 4 = leBytes 4 (bvF en 64 32))

/-- R194: an FLR of a VF puts its registers back to their reset values and unbinds its tag ports; the VF stays bound to its partition. A
launch that entered through those ports ends, and no MSI-X message is posted for it; its partition's fault queue takes a report of
that (R14), whose form is the model's choice (log entry 6). -/
def Sys2Proof.Claims.FunctionResetHold : Prop :=
  ∀ (n : FnNo) s, s.Inv → (s.w.hub.boot < 2 → exec (.functionLevelReset n) s = .next s) ∧ (2 ≤ s.w.hub.boot → n.val ≠ 0 →
    let f := { Fn.init with bound := (fn s.w n.val).bound, part := (fn s.w n.val).part }
    ((∀ y ∈ s.w.launches, y.2.fn ≠ some n.val ∨ y.2.port = none) →
      ∃ t, exec (.functionLevelReset n) s = .next t ∧ FnIs s t n.val f) ∧
    ∀ lid l, s.w.launches = [(lid, l)] → l.fn = some n.val → l.port.isSome = true → s.w.consorts = [] → l.waiting.isSome = true →
      l.ended + l.back.length + (l.hdr.ccount - l.next) = l.hdr.ccount →
      (fqShut (part s.w l.part) = true → (fqOf s l.part).told11 = true) → (fqShut (part s.w l.part) = false → (fqOf s l.part).told16 = true) →
      ∃ t, exec (.functionLevelReset n) s = .next t ∧ launch? t.w lid = none ∧ fn t.w n.val = f ∧
        (∃ q, (q ∈ (fqOf t l.part).pending ∨ q ∈ (fqOf t l.part).held) ∧ q.e.cid = 2 ^ 32 - 1 ∧ q.e.part = l.part) ∧
        (∀ m, m ≠ n.val → fn t.w m = fn s.w m) ∧ t.w.replies = s.w.replies)

/-- R13, R154, R199, R201: bring-up. Each event is the next of nine steps, whose number BOOTST shows; a failed step 1, 2 or 3 stops it with
that step and reason. Step 5 mutes the tiles that failed, 6 builds the LPT of the enabled cores in ascending order, 7 mutes the slices
of bad channels, 8 brings each port up with the highest common version, and at 9 the hub is ready and REPLME shows each die with more than
two absent cores and each muted slice. That a port not listed at step 8 counts as training failed, with reason 1, is the model's choice (log
entry 25). -/
def Obligations.BringUpSteps : Prop :=
  ∀ (b : BringUp) s, s.Inv → let h := s.w.hub
    let fails := (h.boot = 0 ∧ b.secureBoot = false) ∨ (h.boot = 1 ∧ b.hubStart = false) ∨ (h.boot = 2 ∧ b.meshTrain = false)
    (h.failed = true ∨ 9 ≤ h.boot → exec (.deviceBringUp b) s = .next s) ∧
    (h.failed = false → h.boot < 9 → ∃ t, exec (.deviceBringUp b) s = .next t ∧ t.w.hub.boot = h.boot + 1 ∧ t.mem = s.mem ∧
      t.w.courses = s.w.courses ∧
      (fails → t = { s with w := { s.w with hub := { h with boot := h.boot + 1, failed := true, reason := h.boot + 1 } } }) ∧
      (h.boot < 4 → ¬ fails → t = { s with w := { s.w with hub := { h with boot := h.boot + 1 } } }) ∧
      (h.boot = 4 → ∀ u, u < 96 → bvF (tile t.w u).word 16 4 = (if u ∈ b.badTiles then 1 else 0) ∧
        (u ∈ b.badTiles → u ∈ t.w.hub.reported ∧ (tileIsCore u = false → sliceOfTile u ∈ t.w.hub.mutedSlices))) ∧
      (h.boot = 5 → ∀ l, l < 72 → let e := nth t.w.hub.lpt l 0
        match (enabled s.fix)[l]? with
        | none => e = 0
        | some p => bvF e 0 7 = p ∧ bvF e 18 1 = 1 ∧ bvF e 8 5 = clusterOf p ∧ bvF e 13 2 = posOf p ∧
          bvF e 16 2 = if tileOfPcn p ∈ h.reported then 3 else 0) ∧
      (h.boot = 6 → ∀ c, c < 384 → c ∈ b.badChannels → tileOfSlice (c / 16) ∉ h.reported →
        c / 16 ∈ t.w.hub.mutedSlices ∧ tileOfSlice (c / 16) ∈ t.w.hub.reported) ∧
      (h.boot = 7 → t.w.hub.fdev = b.fdev % 640 ∧ ∀ p, p < 12 →
        let adv := ((b.ports.find? fun y => y.1 == p).map (·.2)).getD 0
        adv < 256 → s.w.ports = [] → ∃ v, Highest 3 adv v ∧ (0 < v → (port t.w p).up = true ∧ (port t.w p).ver = v) ∧
          (v = 0 → (port t.w p).up = false ∧ (0x14, p + (if adv = 0 then 1 else 2) * 256, 0) ∈ t.w.hub.reports)) ∧
      (h.boot = 8 → t.w.hub.ready = true ∧ (t.w.hub.replme.getLsbD 2 = true ↔ h.mutedSlices ≠ []) ∧
        (∀ d, d < 2 → (t.w.hub.replme.getLsbD d = true ↔ 2 < absentOn s.w d)) ∧
        (∀ sl, sl < 24 → (t.w.hub.replme.getLsbD (24 + sl) = true ↔ sl ∈ h.mutedSlices)) ∧
        ∀ k, (3 ≤ k ∧ k < 24) ∨ 48 ≤ k → t.w.hub.replme.getLsbD k = false))

/-- R157, R159, R190, R191, R192, R201: what a read of BAR 0 returns. Nothing without a link; of an unbound VF FNINFO and BOOTST alone; else the
registers' fields, a tag port's as it is bound, and zero where nothing stands. -/
def Sys2Proof.Claims.BarReadsHold : Prop :=
  ∀ (n : FnNo) s, s.Inv → let f := fn s.w n.val
    (s.w.hub.boot < 2 → ∀ off, barRead s.w n.val off = none) ∧
    (2 ≤ s.w.hub.boot → s.w.hub.boot < 16 → s.w.hub.reason < 2 ^ 56 → f.part < 16 →
      (∃ v, barRead s.w n.val 0 = some v ∧ bitsAt v 0 6 = n.val ∧ bitsAt v 8 4 = f.part ∧ (bitAt v 12 = true ↔ f.bound = true)) ∧
      ∃ v, barRead s.w n.val 8 = some v ∧ bitsAt v 0 4 = s.w.hub.boot ∧ (bitAt v 4 = true ↔ s.w.hub.ready = true) ∧
        (bitAt v 5 = true ↔ s.w.hub.failed = true) ∧ bitsAt v 8 8 = s.w.hub.reason % 256) ∧
    (2 ≤ s.w.hub.boot → n.val ≠ 0 → f.bound = false → ∀ off, off ≠ 0 → off ≠ 8 → barRead s.w n.val off = some 0) ∧
    (Takes s n.val → let rd := barRead s.w n.val
      rd 0x10 = some 0x0301010101 ∧ rd 0x18 = some f.versel.toNat ∧ rd 0x40 = some f.heqBase.toNat ∧ rd 0x48 = some f.heqSize ∧
      rd 0x50 = some f.heqHead ∧ rd 0x58 = some f.heqTail ∧ rd 0x100 = some f.crsel ∧ rd 0x108 = some f.crval.toNat ∧
      rd 0x110 = some f.denied.toNat ∧ rd 0x120 = some f.coalt ∧ rd 0x200 = some (if n.val = 0 then f.pwrlim else 0) ∧
      rd 0x480 = some (f.pend.toNat + 2 * f.ignored.toNat) ∧
      (∀ v, n.val ≠ 0 → rd 0x20 = some v → ∀ b, b < 5 → (∀ x ∈ (part s.w f.part).veract, x < 256) →
        bitsAt v (8 * b) 8 = nth (part s.w f.part).veract b 0) ∧
      (∀ i, i < 8 → rd (0x400 + 8 * i) = some (bvF f.mbreq (64 * i) 64) ∧ rd (0x440 + 8 * i) = some (bvF f.mbrsp (64 * i) 64)) ∧
      (∀ k b, k < 64 → tGet? f.ports k = some b → b.asid < 2 ^ 16 → b.world < 16 → b.prio < 8 →
        (∃ v, rd (0x1000 + 16 * k) = some v ∧ bitsAt v 0 32 = b.asid ∧ bitsAt v 32 4 = b.world ∧ bitsAt v 36 3 = b.prio ∧
          (bitAt v 39 = true ↔ b.valid = true) ∧ v < 2 ^ 40) ∧ rd (0x1000 + 16 * k + 8) = some 0) ∧
      (∀ k, k < 64 → tGet? f.ports k = none → rd (0x1000 + 16 * k) = some 0) ∧
      (∀ vec, vec < (if n.val = 0 then 256 else 32) → ∀ hi : Bool, rd (0x8000 + 16 * vec + 8 * hi.toNat) =
        some (bvF (tGetD f.msix vec (BitVec.ofNat 128 (2 ^ 96))) (64 * hi.toNat) 64)) ∧
      ∀ i, 8 * i < (if n.val = 0 then 32 else 4) → ∃ v, rd (0x9000 + 8 * i) = some v ∧
        ∀ j, j < 64 → (bitAt v j = true ↔ 64 * i + j ∈ f.pba))

/-- Registers of a function and function-level reset, the claims named here together. -/
def Obligations.FunctionRegisters : Prop :=
  Sys2Proof.Claims.HostQueueRegistersHold ∧ Sys2Proof.Claims.FirstSetUpHold ∧ Sys2Proof.Claims.CounterReadsHold ∧ Sys2Proof.Claims.FunctionRegistersHold ∧ Sys2Proof.Claims.FunctionResetHold ∧ Sys2Proof.Claims.BarReadsHold

/-- R106, R195, R196: TDISP locks an unlocked interface and runs a locked one; SPDM answers only version 1.4 with ML-DSA-44, SHA3-256 and
ML-KEM-768, gives IDE or a Celile link its key, and has measurement blocks 1 to 7. TDISP's transitions are the model's choice, taken from
outside the spec (log entry 29), and so is the content of SPDM's answers (log entry 12). -/
def Sys2Proof.Claims.TrustedInterfacesHold : Prop :=
  ∀ s, s.Inv →
    (∀ (n : FnNo) (st : Fin 4), n.val ≠ 0 → let now := (fn s.w n.val).tdisp
      (st.val = 1 → now ≠ 0 → exec (.tdispStateChange n st) s = .next s) ∧ (st.val = 2 → now ≠ 1 → exec (.tdispStateChange n st) s = .next s) ∧
      ((st.val = 1 → now = 0) → (st.val = 2 → now = 1) → ∃ t, exec (.tdispStateChange n st) s = .next t ∧
        FnIs s t n.val { fn s.w n.val with tdisp := st.val })) ∧
    (∀ ver a h k, let good := ver = 0x14 ∧ a = true ∧ h = true ∧ k = true
      ∃ t, exec (.spdmNegotiateAlgorithms ver a h k) s = .next t ∧ t.w.sec.session = none ∧
        (good → t.w.sec.spdmOk = true ∧ t.w.replies = .done :: s.w.replies) ∧
        (¬ good → t.w.sec.spdmOk = false ∧ t.w.replies = .error :: s.w.replies) ∧
        t = { s with w := { s.w with replies := t.w.replies, sec := t.w.sec } }) ∧
    (∀ link k peer, (s.w.sec.spdmOk = true ∧ k = true → ∃ t, exec (.spdmKeyExchange k ⟨link, peer⟩) s = .next t ∧
        t.w.replies = .done :: s.w.replies ∧
        match link with
        | none => t.w.sec.session.isSome = true ∧ t.w.sec = { s.w.sec with session := t.w.sec.session } ∧ t.w.ports = s.w.ports
        | some n => t.w.sec = s.w.sec ∧ (port t.w n.val).key.isSome = true ∧
            PortIs s t n.val { port s.w n.val with key := (port t.w n.val).key }) ∧
      (s.w.sec.spdmOk = false ∨ k = false → ∃ t, exec (.spdmKeyExchange k ⟨link, peer⟩) s = .next t ∧
        t = { s with w := { s.w with replies := .error :: s.w.replies } })) ∧
    ∀ i, (1 ≤ i ∧ i ≤ 7 → ∃ t, exec (.spdmGetMeasurements i) s = .next t ∧ t.w.replies = .done :: s.w.replies ∧
        t.w.sec = { s.w.sec with spdmOut := t.w.sec.spdmOut } ∧ t.w.sec.spdmOut.head? = some i) ∧
      (i = 0 ∨ 7 < i → ∃ t, exec (.spdmGetMeasurements i) s = .next t ∧
        t = { s with w := { s.w with replies := .error :: s.w.replies } })

/-- Versions, TDISP and SPDM, the claims named here together. -/
def Obligations.VersionsAndTrust : Prop :=
  Sys2Proof.Claims.VersionsHold ∧ Sys2Proof.Claims.TrustedInterfacesHold

namespace Sys2Proof.Claims

open Sys2Proof.Machine

/-! ## Hub requests through the mailbox (R156, R159, R167, R176, R187, R191 to R193, R197, R198) -/

/-- A function has a pending request of a code. -/
def Asked (s : State) (n code : Nat) : Prop := (fn s.w n).pend = true ∧ bvF (fn s.w n).mbcopy 0 8 = code

/-- A function after its request finished with a status and a result (R190, R192). -/
def finished (f : Fn) (status result : Nat) : Fn := { f with mbrsp := BitVec.ofNat 512 (status + result % 2 ^ 56 * 256), pend := false }

/-- The request was refused with status 1 and changed nothing (R192). -/
def Denied (s t : State) (n : Nat) : Prop := FnIs s t n (finished (fn s.w n) 1 0)

/-- A function of a live partition (R192). -/
def OfPart (s : State) (n : Nat) : Prop := n ≠ 0 ∧ (fn s.w n).bound = true ∧ (part s.w (fn s.w n).part).live = true

/-- The function and code of a request (R192). -/
def requestOf : Instr → Option (Nat × Nat)
  | .createPartition n _ _ _ _ _ _ _ => some (n.val, 0x01)
  | .resetPartition n _ _ => some (n.val, 0x02)
  | .bindVf n _ _ => some (n.val, 0x03)
  | .setStage2Root n _ _ => some (n.val, 0x04)
  | .assignWorld n _ _ _ => some (n.val, 0x05)
  | .bindTagPort n _ _ _ _ => some (n.val, 0x06)
  | .setAllowListEntry n _ _ _ => some (n.val, 0x07)
  | .appealPolicy n _ _ => some (n.val, 0x08)
  | .writeExportOrImportEntry n _ _ _ => some (n.val, 0x09)
  | .registerHandlerConsort n _ => some (n.val, 0x0A)
  | .terminateFaultEntry n _ _ => some (n.val, 0x0B)
  | .configurePartitionRuntime n _ _ _ _ _ _ _ => some (n.val, 0x0C)
  | .setSchedulingContexts n _ _ _ _ => some (n.val, 0x0D)
  | .queryPartition n _ _ => some (n.val, 0x0E)
  | _ => none

/-- Who may send a request: the PF, a partition's function, or either (R192). -/
def MaySend (s : State) (i : Instr) (n code : Nat) : Prop :=
  if code = 0x06 ∨ code = 0x09 ∨ code = 0x0A then OfPart s n
  else if code = 0x0B ∨ code = 0x0E then n = 0 ∨ (OfPart s n ∧ match i with
    | .terminateFaultEntry _ p _ => (fn s.w n).part = p
    | .queryPartition _ p _ => (fn s.w n).part = p
    | _ => False)
  else n = 0

/-- A partition exists. -/
def Live (s : State) (p : Nat) : Prop := p < 16 ∧ (part s.w p).live = true

/-- No consort of a partition exists. -/
def NoConsort (s : State) (p : Nat) : Prop := ∀ y ∈ s.w.consorts, y.2.part ≠ p

/-- The rows that a partition's cores and Celile ports take (R156). -/
def rowsOf (cores : BitVec 72) (ports : BitVec 12) (r : Nat) : Prop :=
  (r < 72 ∧ cores.getLsbD r = true) ∨ (73 ≤ r ∧ r < 85 ∧ ports.getLsbD (r - 73) = true)

/-- A row that a partition may take: it is not VALID, and no course is resident or halted on its core (R156). -/
def RowFree (s : State) (r : Nat) : Prop :=
  (tGetD s.w.hub.matrix r 0).getLsbD 31 = false ∧
  ∀ y ∈ s.w.courses, pcnOf s.w y.2.v.hcore = r → y.2.k.at_ ≠ .resident ∧ y.2.k.at_ ≠ .halted

/-- Whether a course is resident or halted on a core, or belongs to a consort placed there (R83). -/
def CoreBusy (s : State) (pcn : Nat) : Prop :=
  ∃ y ∈ s.w.courses, (y.2.k.at_ = .resident ∨ y.2.k.at_ = .halted) ∧
    (pcnOf s.w y.2.v.hcore = pcn ∨ ∃ k, consort? s.w y.2.id.consort = some k ∧ ∃ l ∈ k.cores, pcnOf s.w l = pcn)

/-- The scratch and scale memory of a core, by key. -/
def OwnMemory (pcn a : Nat) : Prop :=
  (keyScr pcn 0 0 ≤ a ∧ a < keyScr pcn 0 0 + 2 ^ 21) ∨ (keyScale pcn 0 0 0 ≤ a ∧ a < keyScale pcn 0 0 0 + 2 ^ 18)

/-- An export entry's LIMIT is a multiple of 4 KiB of at most 64 GiB (R197). -/
def LimitFits (e : BitVec 256) : Prop := bvF e 128 64 % 4096 = 0 ∧ bvF e 128 64 ≤ 64 * 2 ^ 30

/-- What an export or import entry's write stores: an import entry's bytes as they are, of an export entry the fields alone, its reserved
bits 0 (R3, R197). -/
def StoredEntry (imp : Bool) (e : BitVec 256) (v : Nat) : Prop :=
  if imp then v = bvF e 0 128
  else v < 2 ^ 256 ∧ ∀ k, k < 256 → v.testBit k = (e.getLsbD k && (decide (k < 4) || decide (64 ≤ k ∧ k < 192) || decide (198 ≤ k ∧ k < 212)))

/-- A fault queue's registers are those of reset and it holds no entry in its ring (R176). -/
def RingReset (f : Fq) : Prop := f.base = 0 ∧ f.size = 0 ∧ f.head = 0 ∧ f.tail = 0 ∧ f.pending = []

/-- A quadrant of a core of the partition has a world. -/
def WorldOf (s : State) (p wd : Nat) : Prop :=
  ∃ c q, c < 72 ∧ q < 4 ∧ (part s.w p).cores.getLsbD c = true ∧ (quad s.w (4 * c + q)).world = wd

/-- Request 0x0C's rules (R193). -/
def RuntimeOk (s : State) (p rAsid cAsid base size disp_ ev : Nat) : Prop :=
  Live s p ∧ NoConsort s p ∧ rAsid < 2 ^ 16 ∧ cAsid < 2 ^ 16 ∧ base % 2 ^ 21 = 0 ∧ size % 2 ^ 21 = 0 ∧ 2 ^ 26 ≤ size ∧
  (part s.w p).slices.getLsbD (disp_ / 256) = true ∧ (ev = 0 ∨ (ev < 64 ∧ (fn s.w ev).bound = true ∧ (fn s.w ev).part = p))

/-- Request 0x0D's rules (R193). -/
def ContextsOk (s : State) (p count slice : Nat) (weights : List Nat) : Prop :=
  Live s p ∧ 1 ≤ count ∧ count ≤ 4 ∧ 10 ≤ slice ∧ slice ≤ 100000 ∧ weights.length = count ∧ ∀ x ∈ weights, 1 ≤ x ∧ x ≤ 15

end Sys2Proof.Claims

/-- R192: a request from a function that the table does not allow is refused with status 1 and changes nothing; without a pending request
of its code nothing happens. That a request acts by the code in its byte 0 alone, with the fields its event names, is the model's choice (log
entry 27). -/
def Sys2Proof.Claims.RequestSendersHold : Prop :=
  ∀ i n code s, s.Inv → requestOf i = some (n, code) →
    (¬ Asked s n code → exec i s = .next s) ∧ (Asked s n code → ¬ MaySend s i n code → ∃ t, exec i s = .next t ∧ Denied s t n)

/-- R156, R176, R192: create partition takes free rows, which the hub die's row 72 joins with the partition's slices, and starts the
partition with its masks and tables; set stage-2 root changes it;
bind VF binds a VF without open launches; each breaks off with status 1 and no change where its rule is broken. The model's choices: that
row 72 joins the slices of every partition (log entry 2), that a VF whose interface is locked or runs is not bound (log entry 29), that a
new root drops no translation and one off 4 KiB is refused (log entry 30), that a reset drops pools and queued launches (log entry 22),
and that requests act by their code alone (log entry 27). -/
def Sys2Proof.Claims.PartitionRequestsHold : Prop :=
  ∀ (n : FnNo) p s, s.Inv → n.val = 0 →
    (∀ cores slices ports a m c, Asked s 0 0x01 → let i := Instr.createPartition n p cores slices ports a m c
      (¬ (p < 16 ∧ (part s.w p).live = false ∧ ∀ r, rowsOf cores ports r → RowFree s r) → ∃ t, exec i s = .next t ∧ Denied s t 0) ∧
      (p < 16 → (part s.w p).live = false → (∀ r, rowsOf cores ports r → RowFree s r) → ∃ t, exec i s = .next t ∧
        fn t.w 0 = finished (fn s.w 0) 0 0 ∧ (∀ k, k ≠ p → part t.w k = part s.w k) ∧
        part t.w p = { Part.init with live := true, cores := cores, slices := slices, ports := ports, asidT := a, armT := m, acctT := c } ∧
        ∀ r, (rowsOf cores ports r → tGetD t.w.hub.matrix r 0 = BitVec.ofNat 64 (2 ^ 31 + p * 2 ^ 24 + slices.toNat)) ∧
          (r = 72 → tGetD t.w.hub.matrix r 0 =
            BitVec.ofNat 64 (2 ^ 31 + (slices ||| BitVec.ofNat 24 (tGetD s.w.hub.matrix 72 0).toNat).toNat)) ∧
          (r ≠ 72 → ¬ rowsOf cores ports r → tGetD t.w.hub.matrix r 0 = tGetD s.w.hub.matrix r 0))) ∧
    (∀ failed, Asked s 0 0x02 → let i := Instr.resetPartition n p failed
      (¬ Live s p → ∃ t, exec i s = .next t ∧ Denied s t 0) ∧
      (Live s p → failed = [] → ∃ t, exec i s = .next t ∧ (fn t.w 0).pend = false ∧ bvF (fn t.w 0).mbrsp 0 8 = 0 ∧
        (∀ y ∈ t.w.ops, y.2.part ≠ p) ∧ (∀ y ∈ t.w.tlb, y.part ≠ p) ∧ RingReset (fqOf t p) ∧
        (part t.w p).pools = [] ∧ (part t.w p).lqTail = 0 ∧ (part t.w p).denied = 0 ∧ (∀ y ∈ t.w.launches, y.2.part ≠ p) ∧
        (∀ c, c < 72 → (part s.w p).cores.getLsbD c = true → (Sys2Proof.Machine.core t.w c).tls = [] ∧
          (Sys2Proof.Machine.core t.w c).ev = []) ∧
        ((∀ u ∈ partTiles (part s.w p), u ∉ s.w.hub.reported) →
          ∀ d, (part s.w p).slices.getLsbD (d / 256) = true → d / 256 < 24 → disp t.w d = ⟨0, 0, 0⟩))) ∧
    (∀ vf : FnNo, Asked s 0 0x03 → let i := Instr.bindVf n vf p
      let ok := vf.val ≠ 0 ∧ Live s p ∧ (∀ y ∈ s.w.launches, y.2.fn ≠ some vf.val) ∧ (fn s.w vf.val).tdisp ≠ 1 ∧ (fn s.w vf.val).tdisp ≠ 2
      (¬ ok → ∃ t, exec i s = .next t ∧ Denied s t 0) ∧
      (ok → ∃ t, exec i s = .next t ∧ fn t.w 0 = finished (fn s.w 0) 0 0 ∧
        fn t.w vf.val = { fn s.w vf.val with bound := true, part := p } ∧ (∀ m, m ≠ 0 → m ≠ vf.val → fn t.w m = fn s.w m) ∧
        t = { s with w := { s.w with fns := t.w.fns } })) ∧
    ∀ root, Asked s 0 0x04 → let i := Instr.setStage2Root n p root
      (¬ (Live s p ∧ root % 4096 = 0) → ∃ t, exec i s = .next t ∧ Denied s t 0) ∧
      (Live s p → root % 4096 = 0 → ∃ t, exec i s = .next t ∧
        PartIs s t 0 (finished (fn s.w 0) 0 0) p { part s.w p with root := root })

/-- Hub requests: senders, partitions, functions and roots, the claims named here together. -/
def Obligations.PartitionRequests : Prop :=
  Sys2Proof.Claims.RequestSendersHold ∧ Sys2Proof.Claims.PartitionRequestsHold

/-- R83, R153, R159, R187, R191, R192, R195: assign world clears a core's scratch and scale memory to zero and gives its quadrants to a world,
makes new keys with a world's first quadrant, and a world left without quadrants loses its key slots (which slots are whose is the model's
choice, log entry 64); bind tag port binds a port to a world of the partition, unless
the function's interface is locked or runs (the model's choice, log entry 29); set allow-list entry and appeal policy write their tables. -/
def Sys2Proof.Claims.WorldRequestsHold : Prop :=
  ∀ (n : FnNo) s, s.Inv →
    (∀ pcn quads wd, n.val = 0 → Asked s 0 0x05 → let i := Instr.assignWorld n pcn quads wd
      (72 ≤ pcn ∨ 16 ≤ wd ∨ CoreBusy s pcn → ∃ t, exec i s = .next t ∧ Denied s t 0) ∧
      (pcn < 72 → wd < 16 → ¬ CoreBusy s pcn → ∃ t, exec i s = .next t ∧ fn t.w 0 = finished (fn s.w 0) 0 0 ∧
        (∀ q, q < 4 → (quad t.w (4 * pcn + q)).world = if quads.getLsbD q then wd else (quad s.w (4 * pcn + q)).world) ∧
        (∀ a, OwnMemory pcn a → t.mem.rd a = 0) ∧ (∀ a, ¬ OwnMemory pcn a → t.mem.rd a = s.mem.rd a) ∧
        (∀ k, k ∈ t.w.sec.keySlots ↔ k ∈ s.w.sec.keySlots ∧
          ∃ q, q < 288 ∧ (quad t.w q).world = if k % 2 ^ 32 < 32 then k % 2 ^ 32 / 2 else k % 32) ∧
        let first := wd ≠ 0 ∧ quads ≠ 0 ∧ ∀ q, q < 288 → (quad s.w q).world ≠ wd
        let key := 2 * wd + 2 ^ 32 * (s.w.sec.keyed.filter fun k => k % 2 ^ 32 == 2 * wd).length
        (first → t.w.sec.keyed = s.w.sec.keyed ++ [key, key + 1]) ∧ (¬ first → t.w.sec.keyed = s.w.sec.keyed))) ∧
    (∀ (k : Fin 64) asid wd prio, Asked s n.val 0x06 → OfPart s n.val → let i := Instr.bindTagPort n k asid wd prio
      let f := fn s.w n.val
      let ok := asid < 2 ^ 16 ∧ wd < 16 ∧ prio < 8 ∧ WorldOf s f.part wd ∧ f.tdisp ≠ 1 ∧ f.tdisp ≠ 2
      (¬ ok → ∃ t, exec i s = .next t ∧ Denied s t n.val) ∧
      (ok → ∃ t, exec i s = .next t ∧
        FnIs s t n.val (finished { f with ports := tPut f.ports k.val ⟨asid, wd, prio, true⟩ } 0 0))) ∧
    (∀ p k (e : Word), n.val = 0 → Asked s 0 0x07 → let i := Instr.setAllowListEntry n p k e
      (¬ (Live s p ∧ k < 256) → ∃ t, exec i s = .next t ∧ Denied s t 0) ∧
      (Live s p → k < 256 → ∃ t q, exec i s = .next t ∧ PartIs s t 0 (finished (fn s.w 0) 0 0) p q ∧
        q = { part s.w p with allow := q.allow } ∧ (tGetD q.allow k 0).toNat = e.toNat % 2 ^ 17 ∧
        ∀ m, m ≠ k → tGet? q.allow m = tGet? (part s.w p).allow m)) ∧
    ∀ (u : Fin 96) on, n.val = 0 → Asked s 0 0x08 → ∃ t, exec (.appealPolicy n u on) s = .next t ∧ fn t.w 0 = finished (fn s.w 0) 0 0 ∧
      (u.val ∈ t.w.hub.appealOn ↔ on = true) ∧ (∀ v, v ≠ u.val → (v ∈ t.w.hub.appealOn ↔ v ∈ s.w.hub.appealOn)) ∧
      (u.val ∈ s.w.hub.reported → ∀ d m, d < 4 → neighbour u.val d = some m → (tile s.w m).nb.length = 4 →
        (nth (tile t.w m).nb ((d + 2) % 4) 0).getLsbD 22 = on) ∧
      (u.val ∉ s.w.hub.reported → t.w.tiles = s.w.tiles)

/-- R3, R167, R192, R197, R198: a partition's function places its export and import tables, writes their entries into the partition's memory
where hub firmware can reach it, an export entry only with a LIMIT that fits and without its reserved bits, and registers its handler
consort. That a table's base need not be a multiple of 32 bytes is the model's choice (log entry 30). -/
def Sys2Proof.Claims.TableRequestsHold : Prop :=
  ∀ (n : FnNo) s, s.Inv → OfPart s n.val →
    let p := (fn s.w n.val).part
    (∀ imp index (e : BitVec 256), Asked s n.val 0x09 → let i := Instr.writeExportOrImportEntry n imp index e
      let size := if imp then 16 else 32
      let base := if imp then (part s.w p).impT else (part s.w p).expT
      (index = 0xFFFF → ∃ t, exec i s = .next t ∧ PartIs s t n.val (finished (fn s.w n.val) 0 0) p
        (if imp then { part s.w p with impT := some (bvF e 0 64) } else { part s.w p with expT := some (bvF e 0 64) })) ∧
      (index ≠ 0xFFFF → base = none ∨ (if imp then 256 else 4096) ≤ index ∨ (imp = false ∧ ¬ LimitFits e) → ∃ t, exec i s = .next t ∧ Denied s t n.val) ∧
      ∀ b, base = some b → index < (if imp then 256 else 4096) → (imp = false → LimitFits e) →
        (∀ x, ownPlaces s.w 72 p (physPlace s.env s.w p) (b + size * index) size = .error x →
          ∃ t, exec i s = .next t ∧ Denied s t n.val) ∧
        ∀ ls v, ownPlaces s.w 72 p (physPlace s.env s.w p) (b + size * index) size = .ok ls → StoredEntry imp e v →
          placesScrub s.w ls = none → SameTag s.w 0 ls → (placeKeys ls).Nodup →
          ∃ t, exec i s = .next t ∧ fn t.w n.val = finished (fn s.w n.val) 0 0 ∧
            (placeKeys ls).map t.mem.rd = leBytes size v ∧ (∀ a, a ∉ placeKeys ls → t.mem.rd a = s.mem.rd a) ∧
            t.w = { s.w with fns := t.w.fns, sec := t.w.sec, poison := t.w.poison }) ∧
    ∀ seq, Asked s n.val 0x0A → ∃ t, exec (.registerHandlerConsort n seq) s = .next t ∧
      PartIs s t n.val (finished (fn s.w n.val) 0 0) p { part s.w p with handler := some seq }

/-- Hub requests: worlds, ports and tables, the claims named here together. -/
def Obligations.TableRequests : Prop :=
  Sys2Proof.Claims.WorldRequestsHold ∧ Sys2Proof.Claims.TableRequestsHold

/-- R138, R167, R192: a terminate request ends the consort of a handler-consort entry as lost; an entry already served, of another consort
or that does not exist is refused. The status 0xFF of the consort's end and that only unserved entries of the handler consort may be
terminated are the model's choice (log entry 30). -/
def Sys2Proof.Claims.TerminateRequestsHold : Prop :=
  ∀ (n : FnNo) p j s, s.Inv → Asked s n.val 0x0B → n.val = 0 ∨ (OfPart s n.val ∧ (fn s.w n.val).part = p) →
    ((∀ x, (allEntries s.w p)[j]? = some x → x.served = true ∨ handlerCourse s.w x = none) →
      ∃ t, exec (.terminateFaultEntry n p j) s = .next t ∧ Denied s t n.val) ∧
    ∀ x cid c k l, EntryOf s cid c j x → c.id.part = p → x.e.part = p → isHandler s.w c = true → (fqOf s p).pending.length ≤ j → Keyed s →
      consort? s.w c.id.consort = some k → k.st = .placed → c.id.consort < s.w.nextConsort → launch? s.w k.launch = some l →
      l.ended + 1 < l.hdr.ccount →
      ∃ t, exec (.terminateFaultEntry n p j) s = .next t ∧ (fn t.w n.val).pend = false ∧ bvF (fn t.w n.val).mbrsp 0 8 = 0 ∧
        Lost s t c.id.consort k 0xFF

/-- R192, R193: configure partition runtime sets a partition's ASIDs, context space, dispenser and event function while it has no consort;
set scheduling contexts takes effect; query partition returns one item. That the setting applies at once while one context runs, which has no
slice boundary, is the model's choice (log entry 30): with more than one context then, the courses of the contexts whose turn it is not
halt, those of PINNED launches apart. -/
def Sys2Proof.Claims.RuntimeRequestsHold : Prop :=
  ∀ (n : FnNo) p s, s.Inv →
    (∀ rAsid cAsid base size d ev, n.val = 0 → Asked s 0 0x0C → let i := Instr.configurePartitionRuntime n p rAsid cAsid base size d ev
      (¬ RuntimeOk s p rAsid cAsid base size d ev → ∃ t, exec i s = .next t ∧ Denied s t 0) ∧
      (RuntimeOk s p rAsid cAsid base size d ev → ∃ t, exec i s = .next t ∧ PartIs s t 0 (finished (fn s.w 0) 0 0) p { part s.w p with
        configured := true, rAsid := rAsid, cAsid := cAsid, ctxBase := base, ctxSize := size, disp := d, evFn := some ev, frames := [] })) ∧
    (∀ count slice weights, n.val = 0 → Asked s 0 0x0D → let i := Instr.setSchedulingContexts n p count slice weights
      let x := (part s.w p).ctxs
      (¬ ContextsOk s p count slice weights → ∃ t, exec i s = .next t ∧ Denied s t 0) ∧
      (ContextsOk s p count slice weights → 1 < x.count → ∃ t, exec i s = .next t ∧ PartIs s t 0 (finished (fn s.w 0) 0 0) p
        { part s.w p with ctxs := { x with next := some (count, slice, weights) } }) ∧
      (ContextsOk s p count slice weights → x.count ≤ 1 → count = 1 → ∃ t, exec i s = .next t ∧
        PartIs s t 0 (finished (fn s.w 0) 0 0) p
          { part s.w p with ctxs := ⟨count, slice, weights, 0, nth weights 0 1, s.w.now + slice * 1600, none⟩ }) ∧
      (ContextsOk s p count slice weights → x.count ≤ 1 → 1 < count → Keyed s → (∀ y ∈ s.w.courses, NearLines y.2) → ∃ t, exec i s = .next t ∧
        (fn t.w 0).pend = false ∧ bvF (fn t.w 0).mbrsp 0 8 = 0 ∧
        ctxsOf t p = ⟨count, slice, weights, 0, nth weights 0 1, s.w.now + slice * 1600, none⟩ ∧
        (∀ m c, course? s.w m = some c → c.id.part = p → 1 ≤ c.id.ctx → c.id.ctx < 4 → c.id.pinned = false →
          c.k.at_ = .ready ∨ c.k.at_ = .resident → ∃ c', course? t.w m = some c' ∧
            (c.k.at_ = .ready → c'.k.at_ = .halted ∧ c'.k.cause = 0x85) ∧ c'.k.at_ ≠ .resident ∧ c'.k.at_ ≠ .ready) ∧
        ∀ m c, course? s.w m = some c → c.id.part ≠ p ∨ c.id.ctx = 0 ∨ c.id.pinned = true → c.k.at_ = .resident →
          ∃ c', course? t.w m = some c' ∧ c'.k.at_ = .resident)) ∧
    ∀ item, Asked s n.val 0x0E → n.val = 0 ∨ (OfPart s n.val ∧ (fn s.w n.val).part = p) → let i := Instr.queryPartition n p item
      let q := part s.w p
      (¬ Live s p ∨ 8 ≤ item → ∃ t, exec i s = .next t ∧ Denied s t n.val) ∧
      (Live s p → ∀ v, (item = 0 ∧ v = q.rAsid) ∨ (item = 1 ∧ v = q.cAsid) ∨ (item = 2 ∧ v = q.ctxBase) ∨ (item = 3 ∧ v = q.ctxSize) ∨
          (item = 4 ∧ v = q.disp) ∨ (item = 5 ∧ v = eventFn s.w p) ∨ (item = 6 ∧ v = q.ctxs.count + q.ctxs.slice * 16) ∨
          (item = 7 ∧ v = q.ctxBase) →
        ∃ t, exec i s = .next t ∧ FnIs s t n.val (finished (fn s.w n.val) 0 v))

/-- Hub requests: runtime, contexts, queries and terminations, the claims named here together. -/
def Obligations.RuntimeRequests : Prop :=
  Sys2Proof.Claims.TerminateRequestsHold ∧ Sys2Proof.Claims.RuntimeRequestsHold

namespace Sys2Proof.Claims

open Sys2Proof.Machine

/-! ## Decoding, steps and invariants (R7, R96, R153, R162, R163, R190, R212 to R226) -/

/-- The instructions that have a word: all but the events. -/
def HasWord (i : Instr) : Prop := (encode i).isSome = true

/-- Nothing but an issue comes next: no hub core's signal was held, no event waits, the hub is up, and nothing happens by itself; and no
request of the device's own is noted as left without a reply. -/
structure IssuesNext (s : State) : Prop where
  heard : nextSignal s.w = none
  replies : s.w.lost = []
  empty : s.w.agenda = []
  up : s.w.hub.failed = false ∧ s.w.hub.ready = true
  quiet : nextInternal s = none

end Sys2Proof.Claims

/-- R212 to R226: the decoder reads every well-formed instruction back from its encoding, with every operand at every value. -/
def Obligations.DecodeEncode : Prop := ∀ i, Laws.RoundTrip.Statement i

/-- R212 to R226: a word means one instruction only: whatever the decoder reads from a word is well-formed and encodes to that very word, no
bit dropped, its literal included. -/
def Obligations.EncodeDecode : Prop :=
  ∀ w lit i, w < 2 ^ 32 → lit < 2 ^ 32 → decodeWord w lit = some i →
    i.wf = true ∧ encode i = some (if wordHasLiteral w then [w, lit] else [w])

/-- R212, R214: words written out from the encodings stand for the instructions that the spec gives them. -/
def Obligations.SampleWords : Prop :=
  decodeTableWord 32 0x0070C108 = some (.iadd ⟨false, 7⟩ 3 1 2 .wrap) ∧
  decodeTableWord 32 0x62730D90 = some (.lds ⟨true, 7⟩ 12 13 .b4 16) ∧
  decodeTableWord 32 0x8C1FFFFD = some (.ubra ⟨false, 1⟩ (-3)) ∧
  decodeTableWord 32 0x94F4C08C = some (.mma ⟨false, 7⟩ 9 true 0 2 3 0) ∧
  decodeTableWord 32 0x97F38880 = some (.copy ⟨false, 7⟩ 7 1 4 0) ∧
  decodeTableWord 32 0x2D700000 = some (.recon ⟨false, 7⟩)

/-- R96, R144, R212: when nothing else comes next, a step at whose PC the word of an instruction stands executes that instruction, its
literal word read too, and time goes on by one; a word that is none executes as a reserved word. That an issue comes only when nothing else
does, and that time goes on by one a step, are the model's choice (log entry 5). -/
def Obligations.StepRunsDecoded : Prop :=
  ∀ s x word, IssuesNext s → issueOf s.env s.w = .go x → x.c.w.closing = false → x.c.k.fetchLost = false →
    (fetchAt s.env s.w x.c x.pc).word = .ok word →
    (∀ i, decodeWord word 0 = some i → i.twoWords = false → step s = tick (exec i s)) ∧
    (∀ i lit, wordHasLiteral word = true → (fetchAt s.env s.w x.c (x.pc + 4)).word = .ok lit → decodeWord word lit = some i →
      step s = tick (exec i s)) ∧
    (decodeWord word 0 = none → step s = tick (exec (.reservedWordIssue (BitVec.ofNat 32 word)) s))

/-- R96, R144, R201, R333: the order of a step: a hub core's held signal that can be taken now, then an event that waits, then bring-up,
then what happens by itself; a hub that failed does nothing. Time goes on by one, and the notes that requests of the device's own get no
reply end with the step (the model's choice, log entries 3 and 5). -/
def Obligations.StepOrder : Prop :=
  ∀ s,
    (∀ i, nextSignal s.w = some i → step s = tick (answered s.w.lost.length (event (fun e w => takeSignal e w i) s))) ∧
    (∀ i r, nextSignal s.w = none → s.w.agenda = i :: r →
      step s = tick (answered s.w.lost.length (exec i { s with w := { s.w with agenda := r } }))) ∧
    (nextSignal s.w = none → s.w.agenda = [] →
      (s.w.hub.failed = true → step s = tick (answered s.w.lost.length (.next s))) ∧
      (s.w.hub.failed = false → s.w.hub.ready = false →
        step s = tick (answered s.w.lost.length (exec (.deviceBringUp goodBringUp) s))) ∧
      ∀ i, s.w.hub.failed = false → s.w.hub.ready = true → nextInternal s = some i →
        step s = tick (answered s.w.lost.length (exec i s))) ∧
    ∀ t n, tick (.next t) = .next { t with w := { t.w with now := t.w.now + 1 } } ∧
      answered n (.next t) = .next { t with w := { t.w with lost := t.w.lost.take (t.w.lost.length - n) } }

/-- The model's own invariant (log entry 4): from every state that has it, a step leaves memory in its canonical form and no write
gathered. -/
def Obligations.StepKeepsInv : Prop := ∀ s t, s.Inv → step s = .next t → t.Inv

/-- The model's own invariant: from every state that has it, a step leaves the courses listed once each under their CIDs. -/
def Obligations.StepKeepsCourses : Prop := ∀ s t, Claims.Keyed s → step s = .next t → Claims.Keyed t

/-- Where no outside event waits, no step faults or refuses: every encoded instruction is executed only where a course issues, and every
event ends in a next state. -/
def Obligations.StepsGoOn : Prop := ∀ s : State, s.w.agenda = [] → SafeStep s

/-- R55, R153, R162, R163, R190, R333: the values at reset: the tables empty, HSIG 0, the registers of a function, a partition's fault
queue, a dispenser, a tile word and its neighbour records; and the invariants hold. What memory holds (log entry 4), the partitions that hub
cores serve (log entry 2) and the notes of requests left without a reply (log entry 3) are the model's choice. -/
def Obligations.ResetValues : Prop :=
  State.reset.Inv ∧ Claims.Keyed State.reset ∧ State.reset.w.hub.boot = 0 ∧ State.reset.w.hub.ready = false ∧ State.reset.w.hub.replme = 0 ∧
  (∀ r, tGetD State.reset.w.hub.matrix r 0 = 0) ∧ State.reset.w.hub.signals = [] ∧ State.reset.w.hub.hubCores = List.replicate 8 ⟨[], 0⟩ ∧ State.reset.w.lost = [] ∧ (∀ n, (fn State.reset.w n).coalt = 20 ∧ (fn State.reset.w n).pwrlim = 1800 ∧
    (fn State.reset.w n).versel = 0 ∧ (fn State.reset.w n).heqBase = 0 ∧ (fn State.reset.w n).heqSize = 0 ∧ (fn State.reset.w n).mbreq = 0 ∧
    (fn State.reset.w n).mbrsp = 0 ∧ (fn State.reset.w n).pend = false ∧ (fn State.reset.w n).bound = false) ∧
  (∀ p, (part State.reset.w p).live = false ∧ (part State.reset.w p).fq.base = 0 ∧ (part State.reset.w p).fq.size = 0 ∧
    (part State.reset.w p).fq.head = 0 ∧ (part State.reset.w p).fq.tail = 0 ∧ (part State.reset.w p).denied = 0) ∧
  (∀ d, disp State.reset.w d = ⟨0, 0, 0⟩) ∧
  (∀ t, t < 96 → (tile State.reset.w t).word = 0 ∧ ∀ d, d < 4 →
    nth (tile State.reset.w t).nb d 0 = if (neighbour t d).isSome then BitVec.ofNat 32 (2 ^ 21) else 0) ∧
  ∀ a, State.reset.mem.rd a = unlisted a
end

