-- ==== Sys2Proof/Laws/Bits.lean ====
section
/-! SUPPORT. Laws of bit fields, lanes, masks, lists of registers and tables. -/

namespace Sys2Proof

/-! Bit fields. -/

theorem bitsAt_lt (w lo n : Nat) : bitsAt w lo n < 2 ^ n := Nat.mod_lt _ (by positivity)

theorem setBits_testBit (w lo n v i : Nat) :
    (setBits w lo n v).testBit i = if lo ≤ i ∧ i < lo + n then v.testBit (i - lo) else w.testBit i := by
  have h1 : setBits w lo n v = w / 2 ^ (lo + n) * 2 ^ (lo + n) + (v % 2 ^ n * 2 ^ lo + w % 2 ^ lo) := by
    simp [setBits, Nat.add_assoc]
  have hb : v % 2 ^ n * 2 ^ lo + w % 2 ^ lo < 2 ^ (lo + n) := by
    have h2 : v % 2 ^ n + 1 ≤ 2 ^ n := Nat.mod_lt _ (by positivity)
    have h3 : w % 2 ^ lo < 2 ^ lo := Nat.mod_lt _ (by positivity)
    calc v % 2 ^ n * 2 ^ lo + w % 2 ^ lo < v % 2 ^ n * 2 ^ lo + 2 ^ lo := by omega
      _ = (v % 2 ^ n + 1) * 2 ^ lo := by ring
      _ ≤ 2 ^ n * 2 ^ lo := Nat.mul_le_mul_right _ h2
      _ = 2 ^ (lo + n) := by rw [pow_add]; ring
  rw [h1, Nat.mul_comm, Nat.testBit_two_pow_mul_add _ hb, Nat.mul_comm (v % 2 ^ n),
    Nat.testBit_two_pow_mul_add _ (Nat.mod_lt _ (by positivity))]
  by_cases ha : i < lo
  · have : ¬ lo ≤ i := by omega
    have : i < lo + n := by omega
    simp [*, Nat.testBit_mod_two_pow]
  · by_cases hc : i < lo + n
    · have : lo ≤ i := by omega
      have : i - lo < n := by omega
      simp [*, Nat.testBit_mod_two_pow]
    · have hd : lo + n ≤ i := by omega
      simp only [hc, if_false, and_false]
      rw [Nat.testBit_div_two_pow]
      congr 1
      omega

theorem bvSet_getLsbD {m : Nat} (x : BitVec m) (lo n v i : Nat) :
    (bvSet x lo n v).getLsbD i =
      if i < m then (if lo ≤ i ∧ i < lo + n then v.testBit (i - lo) else x.getLsbD i) else false := by
  by_cases h : i < m
  · simp only [bvSet, BitVec.getLsbD_ofNat, setBits_testBit, h, decide_true, Bool.true_and, if_true]
    split
    · rfl
    · rfl
  · simp [bvSet, BitVec.getLsbD_ofNat, h]

theorem bitsAt_eq_of_testBit {a b lo n : Nat} (h : ∀ i, lo ≤ i → i < lo + n → a.testBit i = b.testBit i) :
    bitsAt a lo n = bitsAt b lo n := by
  apply Nat.eq_of_testBit_eq
  intro i
  simp only [bitsAt, Nat.testBit_mod_two_pow, Nat.testBit_div_two_pow]
  by_cases hi : i < n
  · simp only [hi, decide_true, Bool.true_and]
    exact h _ (by omega) (by omega)
  · simp [hi]

/-- Two registers that agree on the bits of a field have the same field. -/
theorem bvF_congr {m : Nat} {x y : BitVec m} {lo n : Nat}
    (h : ∀ i, lo ≤ i → i < lo + n → x.getLsbD i = y.getLsbD i) : bvF x lo n = bvF y lo n :=
  bitsAt_eq_of_testBit h

/-- A field reads back as written. -/
theorem bvF_bvSet_same {m : Nat} (x : BitVec m) (lo n v : Nat) (hm : lo + n ≤ m) :
    bvF (bvSet x lo n v) lo n = v % 2 ^ n := by
  apply Nat.eq_of_testBit_eq
  intro i
  simp only [bvF, bitsAt, Nat.testBit_mod_two_pow, Nat.testBit_div_two_pow]
  by_cases hi : i < n
  · simp only [hi, decide_true, Bool.true_and]
    rw [BitVec.testBit_toNat, bvSet_getLsbD, if_pos (by omega), if_pos (by omega)]
    congr 1
    omega
  · simp [hi]

/-- A field keeps its value when another is written. -/
theorem bvF_bvSet_other {m : Nat} (x : BitVec m) (lo n v lo' n' : Nat) (hm : lo' + n' ≤ m)
    (h : lo' + n' ≤ lo ∨ lo + n ≤ lo') : bvF (bvSet x lo n v) lo' n' = bvF x lo' n' := by
  apply bvF_congr
  intro i h1 h2
  rw [bvSet_getLsbD, if_pos (by omega), if_neg (by omega)]

/-! Lanes and masks. -/

@[simp] theorem laneOf_mkLine (f : Nat → Word) {k : Nat} (h : k < 32) : laneOf (mkLine f) k = f k := by
  simp [laneOf, mkLine, h]

theorem laneOf_mkLine_ge (f : Nat → Word) {k : Nat} (h : 32 ≤ k) : laneOf (mkLine f) k = 0 := by
  simp [laneOf, mkLine, Nat.not_lt.mpr h]

theorem mask_fold_testBit (f : Nat → Bool) (n i : Nat) :
    ((List.range n).foldl (fun acc k => if f k then acc + 2 ^ k else acc) 0 < 2 ^ n) ∧
    ((List.range n).foldl (fun acc k => if f k then acc + 2 ^ k else acc) 0).testBit i = (decide (i < n) && f i) := by
  induction n with
  | zero => simp
  | succ n ih =>
    obtain ⟨hl, ht⟩ := ih
    rw [List.range_succ, List.foldl_append]
    set a := (List.range n).foldl (fun acc k => if f k then acc + 2 ^ k else acc) 0
    simp only [List.foldl_cons, List.foldl_nil]
    have hp : (2 : Nat) ^ (n + 1) = 2 ^ n + 2 ^ n := by ring
    by_cases hf : f n
    · simp only [hf, if_true]
      refine ⟨by omega, ?_⟩
      have e : a + 2 ^ n = 2 ^ n * 1 + a := by ring
      rw [e, Nat.testBit_two_pow_mul_add _ hl]
      by_cases hi : i < n
      · have : i < n + 1 := by omega
        simp [hi, this, ht]
      · by_cases hj : i = n
        · subst hj; simp [hf]
        · have h1 : ¬ i < n + 1 := by omega
          have h2 : i - n ≠ 0 := by omega
          have h3 : Nat.testBit 1 (i - n) = false := by
            rw [Nat.testBit_eq_decide_div_mod_eq, Nat.div_eq_of_lt (Nat.one_lt_two_pow h2)]
            rfl
          simp [hi, h1, h3]
    · simp only [hf]
      refine ⟨by simp; omega, ?_⟩
      by_cases hj : i = n
      · subst hj
        simp [hf, ht]
      · have h1 : (i < n + 1) = (i < n) := by apply propext; omega
        simp [h1, ht]

@[simp] theorem mHas_mkMask (f : Nat → Bool) (k : Nat) : mHas (mkMask f) k = (decide (k < 32) && f k) := by
  obtain ⟨_, h⟩ := mask_fold_testBit f 32 k
  simp only [mHas, mkMask, BitVec.getLsbD_ofNat, h]
  by_cases hk : k < 32 <;> simp [hk]

@[simp] theorem mHas_and (a b : Mask) (k : Nat) : mHas (a &&& b) k = (mHas a k && mHas b k) := by simp [mHas]

@[simp] theorem mHas_not (a : Mask) (k : Nat) : mHas (~~~a) k = (decide (k < 32) && !mHas a k) := by simp [mHas]

@[simp] theorem mHas_zero (k : Nat) : mHas 0#32 k = false := by simp [mHas]

theorem mHas_lt {m : Mask} {k : Nat} (h : mHas m k = true) : k < 32 := by
  by_contra hk
  simp [mHas, BitVec.getLsbD_of_ge _ _ (Nat.not_lt.mp hk)] at h

theorem mem_mLanes {m : Mask} {k : Nat} : k ∈ mLanes m ↔ mHas m k = true := by
  simp only [mLanes, List.mem_filter, List.mem_range]
  exact ⟨fun h => h.2, fun h => ⟨mHas_lt h, h⟩⟩

/-- A mask that is not empty has a lane. -/
theorem exists_mHas {m : Mask} (h : m ≠ 0) : ∃ k, mHas m k = true := by
  by_contra hc
  push Not at hc
  apply h
  apply BitVec.eq_of_getLsbD_eq
  intro i hi
  have := hc i
  simpa [mHas] using this

theorem mask_ext {a b : Mask} (h : ∀ k, k < 32 → mHas a k = mHas b k) : a = b :=
  BitVec.eq_of_getLsbD_eq fun i hi => h i hi

@[simp] theorem laneOf_mergeLine (m : Mask) (new old : Line) {k : Nat} (h : k < 32) :
    laneOf (mergeLine m new old) k = if mHas m k then laneOf new k else laneOf old k := by
  simp [mergeLine, h]

/-! Lists of registers. -/

theorem nth_setNth {α : Type} (n : Nat) (l : List α) (i j : Nat) (v d : α) (h : j < n) :
    nth (setNth n l i v d) j d = if j = i then v else nth l j d := by
  simp [nth, setNth, h]

theorem nth_setNth_ge {α : Type} (n : Nat) (l : List α) (i j : Nat) (v d : α) (h : n ≤ j) :
    nth (setNth n l i v d) j d = d := by
  simp [nth, setNth, Nat.not_lt.mpr h]

/-! Tables. -/

@[simp] theorem tGet?_tPut_same {α : Type} (t : Tbl α) (k : Nat) (v : α) : tGet? (tPut t k v) k = some v := by
  induction t with
  | nil => simp [tPut, tGet?]
  | cons x r ih =>
    obtain ⟨j, y⟩ := x
    simp only [tPut]
    split
    · simp [tGet?]
    · split
      · simp [tGet?]
      · rename_i h1 _
        have : (j == k) = false := by simpa using h1
        simpa [tGet?, List.find?_cons, this] using ih

theorem tGet?_tPut_other {α : Type} (t : Tbl α) {k n : Nat} (v : α) (h : n ≠ k) :
    tGet? (tPut t k v) n = tGet? t n := by
  have hk : (k == n) = false := by simpa using fun e => h e.symm
  induction t with
  | nil => simp [tPut, tGet?, hk]
  | cons x r ih =>
    obtain ⟨j, y⟩ := x
    simp only [tPut]
    split
    · rename_i h1
      subst h1
      simp [tGet?, hk]
    · split
      · simp [tGet?, List.find?_cons, hk]
      · by_cases hj : (j == n) = true
        · simp [tGet?, hj]
        · have hj' : (j == n) = false := by simpa using hj
          simpa [tGet?, List.find?_cons, hj'] using ih

theorem tGetD_tPut {α : Type} (t : Tbl α) (k n : Nat) (v d : α) :
    tGetD (tPut t k v) n d = if n = k then v else tGetD t n d := by
  by_cases h : n = k
  · subst h; simp [tGetD]
  · simp [tGetD, tGet?_tPut_other _ _ h, h]

/-! Numbers of bytes. -/

@[simp] theorem leBytes_length (n v : Nat) : (leBytes n v).length = n := by
  induction n generalizing v with
  | zero => rfl
  | succ n ih => simp [leBytes, ih]

/-- A number's little-endian bytes stand for it modulo their range. -/
theorem leNat_leBytes (n v : Nat) : leNat (leBytes n v) = v % 256 ^ n := by
  induction n generalizing v with
  | zero => simp [leBytes, leNat, Nat.mod_one]
  | succ n ih =>
    have h : v % 256 ^ (n + 1) = v % 256 + 256 * (v / 256 % 256 ^ n) := by rw [pow_succ', Nat.mod_mul]
    simp [leBytes, leNat, ih, h]

end Sys2Proof
end

