-- ==== Sys2Proof/Laws/Memory.lean ====
section
/-! SUPPORT. Laws of memory: reads after writes, the canonical form, and the writes gathered in a step. -/

namespace Sys2Proof.Machine

/-! Reads after writes. -/

theorem rd_of_wfAt {m : Memory} {lo a : Nat} (h : Memory.wfAt (some lo) m = true) (ha : a ≤ lo) :
    m.rd a = unlisted a := by
  cases m with
  | nil => rfl
  | cons x r =>
    obtain ⟨k, b⟩ := x
    simp only [Memory.wfAt, Bool.and_eq_true, decide_eq_true_eq] at h
    have h1 : ¬ k = a := by omega
    have h2 : a < k := by omega
    simp [Memory.rd, h1, h2]

theorem wfAt_weaken {m : Memory} {lo lo' : Nat} (h : Memory.wfAt (some lo) m = true) (hl : lo' ≤ lo) :
    Memory.wfAt (some lo') m = true := by
  cases m with
  | nil => rfl
  | cons x r =>
    obtain ⟨k, b⟩ := x
    simp only [Memory.wfAt, Bool.and_eq_true, decide_eq_true_eq] at h ⊢
    exact ⟨⟨by omega, h.1.2⟩, h.2⟩

theorem wfAt_none {m : Memory} {lo : Nat} (h : Memory.wfAt (some lo) m = true) : Memory.wfAt none m = true := by
  cases m with
  | nil => rfl
  | cons x r =>
    obtain ⟨k, b⟩ := x
    simp only [Memory.wfAt, Bool.and_eq_true, decide_eq_true_eq] at h ⊢
    exact ⟨⟨trivial, h.1.2⟩, h.2⟩

/-- A write that lies above a bound keeps the canonical form above it. -/
theorem wfAt_wr {m : Memory} {lo a : Nat} (v : Byte) (h : Memory.wfAt (some lo) m = true) (ha : lo < a) :
    Memory.wfAt (some lo) (m.wr a v) = true := by
  induction m generalizing lo with
  | nil =>
    simp only [Memory.wr]
    split
    · rfl
    · rename_i hv; simp [Memory.wfAt, ha, hv]
  | cons x r ih =>
    obtain ⟨k, b⟩ := x
    simp only [Memory.wfAt, Bool.and_eq_true, decide_eq_true_eq] at h
    obtain ⟨⟨hk, hb⟩, hr⟩ := h
    simp only [Memory.wr]
    split
    · subst_vars
      split
      · exact wfAt_weaken hr (by omega)
      · rename_i hv; simp [Memory.wfAt, hk, hv, hr]
    · split
      · split
        · simp [Memory.wfAt, hk, hb, hr]
        · rename_i hv; simp [Memory.wfAt, *]
      · simp only [Memory.wfAt, Bool.and_eq_true, decide_eq_true_eq]
        exact ⟨⟨hk, hb⟩, ih hr (by omega)⟩

/-- A write keeps the canonical form. -/
theorem wf_wr {m : Memory} (a : Nat) (v : Byte) (h : m.wf = true) : (m.wr a v).wf = true := by
  unfold Memory.wf at *
  cases m with
  | nil =>
    simp only [Memory.wr]
    split
    · rfl
    · rename_i hv; simp [Memory.wfAt, hv]
  | cons x r =>
    obtain ⟨k, b⟩ := x
    simp only [Memory.wfAt, Bool.and_eq_true] at h
    obtain ⟨⟨_, hb⟩, hr⟩ := h
    simp only [Memory.wr]
    split
    · subst_vars
      split
      · exact wfAt_none hr
      · rename_i hv; simp [Memory.wfAt, hv, hr]
    · split
      · split
        · simp [Memory.wfAt, hb, hr]
        · rename_i hv; simp [Memory.wfAt, *]
      · simp only [Memory.wfAt, Bool.and_eq_true]
        exact ⟨⟨trivial, hb⟩, wfAt_wr v hr (by omega)⟩

/-- A byte reads as the last write to it; every other byte reads as before. -/
theorem rd_wr {m : Memory} (h : m.wf = true) (a x : Nat) (v : Byte) :
    (m.wr a v).rd x = if x = a then v else m.rd x := by
  unfold Memory.wf at h
  have key : ∀ (m : Memory) (lo : Option Nat), Memory.wfAt lo m = true →
      (m.wr a v).rd x = if x = a then v else m.rd x := by
    intro m
    induction m with
    | nil =>
      intro lo _
      simp only [Memory.wr]
      split
      · rename_i hv
        simp only [Memory.rd]
        split
        · subst_vars; rfl
        · rfl
      · simp only [Memory.rd]
        by_cases hx : x = a
        · simp [hx]
        · have : ¬ a = x := fun e => hx e.symm
          simp [hx, this]
    | cons y r ih =>
      intro lo hw
      obtain ⟨k, b⟩ := y
      simp only [Memory.wfAt, Bool.and_eq_true] at hw
      obtain ⟨_, hr⟩ := hw
      simp only [Memory.wr]
      by_cases hka : k = a
      · subst hka
        simp only [if_true]
        split
        · rename_i hv
          by_cases hx : x = k
          · subst hx; rw [rd_of_wfAt hr (le_refl _)]; simp [hv]
          · have h2 : ¬ k = x := fun e => hx e.symm
            simp only [hx, if_false, Memory.rd, h2]
            split
            · rename_i hlt; exact rd_of_wfAt hr (by omega)
            · rfl
        · by_cases hx : x = k
          · simp [Memory.rd, hx]
          · have h2 : ¬ k = x := fun e => hx e.symm
            simp [Memory.rd, hx, h2]
      · simp only [hka, if_false]
        by_cases hak : a < k
        · simp only [hak, if_true]
          split
          · rename_i hv
            by_cases hx : x = a
            · subst hx; simp [Memory.rd, hka, hak, hv]
            · simp [hx]
          · by_cases hx : x = a
            · simp [Memory.rd, hx]
            · have h2 : ¬ a = x := fun e => hx e.symm
              simp only [Memory.rd, hx, h2, if_false]
              by_cases hxa : x < a
              · have h3 : ¬ k = x := by omega
                have h4 : x < k := by omega
                simp [hxa, h3, h4]
              · simp [hxa]
        · simp only [hak, if_false, Memory.rd, ih _ hr]
          by_cases hkx : k = x
          · have : ¬ x = a := by omega
            simp [hkx, this]
          · simp only [hkx, if_false]
            by_cases hxk : x < k
            · have : ¬ x = a := by omega
              simp [hxk, this]
            · simp [hxk]
  exact key m none h

/-! Ranges cleared. -/

theorem wfAt_filter {m : Memory} {lo : Nat} (p : Host.Cell → Bool) (h : Memory.wfAt (some lo) m = true) :
    Memory.wfAt (some lo) (m.filter p) = true := by
  induction m generalizing lo with
  | nil => rfl
  | cons x r ih =>
    obtain ⟨k, b⟩ := x
    simp only [Memory.wfAt, Bool.and_eq_true, decide_eq_true_eq] at h
    obtain ⟨⟨hk, hb⟩, hr⟩ := h
    rw [List.filter_cons]
    split
    · simp only [Memory.wfAt, Bool.and_eq_true, decide_eq_true_eq]
      exact ⟨⟨hk, hb⟩, ih hr⟩
    · exact wfAt_weaken (ih hr) (by omega)

/-- Clearing a range keeps the canonical form. -/
theorem wf_clear {m : Memory} (a n : Nat) (h : m.wf = true) : (m.clear a n).wf = true := by
  unfold Memory.wf Memory.clear at *
  cases m with
  | nil => rfl
  | cons x r =>
    obtain ⟨k, b⟩ := x
    simp only [Memory.wfAt, Bool.and_eq_true] at h
    obtain ⟨⟨_, hb⟩, hr⟩ := h
    rw [List.filter_cons]
    split
    · simp only [Memory.wfAt, Bool.and_eq_true]
      exact ⟨⟨trivial, hb⟩, wfAt_filter _ hr⟩
    · exact wfAt_none (wfAt_filter _ hr)

/-- A cleared byte reads as one never written, every other as before. -/
theorem rd_clear {m : Memory} (h : m.wf = true) (a n x : Nat) :
    (m.clear a n).rd x = if a ≤ x ∧ x < a + n then unlisted x else m.rd x := by
  have key : ∀ (m : Memory) (lo : Option Nat), Memory.wfAt lo m = true →
      (m.clear a n).rd x = if a ≤ x ∧ x < a + n then unlisted x else m.rd x := by
    intro m
    induction m with
    | nil => intro _ _; simp [Memory.clear, Memory.rd]
    | cons y r ih =>
      intro lo hw
      obtain ⟨k, b⟩ := y
      simp only [Memory.wfAt, Bool.and_eq_true] at hw
      obtain ⟨_, hr⟩ := hw
      have ihr := ih _ hr
      have hf : Memory.wfAt (some k) (Memory.clear r a n) = true := wfAt_filter _ hr
      by_cases hin : (decide (k < a) || decide (a + n ≤ k)) = true
      · have e : Memory.clear ((k, b) :: r) a n = (k, b) :: Memory.clear r a n := by
          simp only [Memory.clear, List.filter_cons]; rw [if_pos hin]
        rw [e]
        simp only [Memory.rd]
        by_cases hkx : k = x
        · subst hkx
          have : ¬ (a ≤ k ∧ k < a + n) := by
            simp only [Bool.or_eq_true, decide_eq_true_eq] at hin; omega
          simp [this]
        · simp only [hkx, if_false]
          split
          · rename_i hlt; simp
          · rename_i hlt; rw [ihr]
      · have e : Memory.clear ((k, b) :: r) a n = Memory.clear r a n := by
          simp only [Memory.clear, List.filter_cons]; rw [if_neg hin]
        rw [e]
        have hk : a ≤ k ∧ k < a + n := by
          simp only [Bool.or_eq_true, decide_eq_true_eq, not_or] at hin; omega
        by_cases hxk : x ≤ k
        · rw [rd_of_wfAt hf hxk]
          simp only [Memory.rd]
          split
          · rfl
          · rename_i hn
            have h1 : ¬ k = x := by intro e2; subst e2; exact hn hk
            have h2 : x < k := by omega
            simp [h1, h2]
        · rw [ihr]
          have h1 : ¬ k = x := by omega
          have h2 : ¬ x < k := by omega
          simp [Memory.rd, h1, h2]
  exact key m none h

/-! Writes gathered in a step. -/

/-- One gathered write keeps the canonical form. -/
theorem wf_apply {m : Memory} (x : Wr) (h : m.wf = true) : (m.apply x).wf = true := by
  cases x with
  | byte a v => exact wf_wr a v h
  | clear a n => exact wf_clear a n h

/-- The writes gathered in a step keep the canonical form. -/
theorem wf_flush (l : List Wr) {m : Memory} (h : m.wf = true) : (flush l m).wf = true := by
  induction l with
  | nil => exact h
  | cons x r ih => exact wf_apply x ih

/-- Memory after a step's writes reads as the step saw it. -/
theorem rd_flush (l : List Wr) {m : Memory} (h : m.wf = true) (a : Nat) : (flush l m).rd a = rdW m l a := by
  induction l with
  | nil => rfl
  | cons x r ih =>
    cases x with
    | byte b v =>
      simp only [flush, Memory.apply, rdW, rd_wr (wf_flush r h), ih]
      by_cases hb : b = a
      · simp [hb]
      · have : ¬ a = b := fun e => hb e.symm
        simp [hb, this]
    | clear b n => simp only [flush, Memory.apply, rdW, rd_clear (wf_flush r h), ih]

/-- Memory is empty and canonical before anything is written. -/
theorem wf_nil : Memory.wf [] = true := rfl

/-- The memory of a step's outcome. -/
@[simp] theorem commit_mem (f : Env → W → W) (s : State) : (commit f s).mem = flush (f ⟨s.fix, s.mem⟩ s.w).wb s.mem := rfl
@[simp] theorem commit_fix (f : Env → W → W) (s : State) : (commit f s).fix = s.fix := rfl
@[simp] theorem commit_w (f : Env → W → W) (s : State) : (commit f s).w = { f ⟨s.fix, s.mem⟩ s.w with wb := [] } := rfl

/-- An event ends in the state with its writes made. -/
theorem event_next (f : Env → W → W) (s : State) : event f s = .next (commit f s) := rfl

/-- What every event and instruction leaves is canonical, whatever it did. -/
theorem wf_commit (f : Env → W → W) {s : State} (h : s.mem.wf = true) : (commit f s).mem.wf = true := wf_flush _ h

/-! Bytes and numbers as a step sees them. -/

@[simp] theorem rdB_wrB (e : Env) (w : W) (a x : Nat) (v : Byte) :
    rdB e (wrB w a v) x = if a = x then v else rdB e w x := rfl

/-- Bytes written from an address read back; every other byte reads as before. -/
theorem rdB_wrBs (e : Env) (bs : List Byte) : ∀ (w : W) (a x : Nat),
    rdB e (wrBs w a bs) x = if h : a ≤ x ∧ x < a + bs.length then bs[x - a]'(by omega) else rdB e w x := by
  induction bs with
  | nil => intro w a x; simp [wrBs]
  | cons b r ih =>
    intro w a x
    simp only [wrBs, ih]
    by_cases h1 : a + 1 ≤ x ∧ x < a + 1 + r.length
    · have h2 : a ≤ x ∧ x < a + (b :: r).length := by simp; omega
      have h3 : x - a = x - (a + 1) + 1 := by omega
      simp only [h1, h2, and_self, dite_true]
      simp [h3]
    · by_cases h4 : x = a
      · subst h4; simp
      · have h2 : ¬ (a ≤ x ∧ x < a + (b :: r).length) := by simp; omega
        have h5 : ¬ a = x := fun e => h4 e.symm
        simp only [h1, h2, dite_false, rdB_wrB, h5, if_false]

/-- A number written in n bytes reads back modulo its range (little-endian, R92). -/
theorem rdN_wrN (e : Env) (w : W) (a n v : Nat) : rdN e (wrN w a n v) a n = v % 256 ^ n := by
  have h : rdBs e (wrN w a n v) a n = leBytes n v := by
    apply List.ext_getElem
    · simp [rdBs]
    · intro i h1 h2
      simp only [leBytes_length] at h2
      simp only [rdBs, List.getElem_map, List.getElem_range, wrN, rdB_wrBs, leBytes_length]
      rw [dif_pos (by omega)]
      congr 1
      omega
  rw [rdN, h, leNat_leBytes]

end Sys2Proof.Machine
end

