-- ==== Sys2Proof/Laws/State.lean ====
section
/-! SUPPORT. What each update of the state leaves of each of its fields: one lemma per field per update. -/

namespace Sys2Proof.Machine

/-! Courses written and changed. -/

@[simp] theorem setCourse_now (w : W) (c : Course) : (setCourse w c).now = w.now := rfl
@[simp] theorem setCourse_fresh (w : W) (c : Course) : (setCourse w c).fresh = w.fresh := rfl
@[simp] theorem setCourse_nextCid (w : W) (c : Course) : (setCourse w c).nextCid = w.nextCid := rfl
@[simp] theorem setCourse_nextConsort (w : W) (c : Course) : (setCourse w c).nextConsort = w.nextConsort := rfl
@[simp] theorem setCourse_nextLaunch (w : W) (c : Course) : (setCourse w c).nextLaunch = w.nextLaunch := rfl
@[simp] theorem setCourse_nextOp (w : W) (c : Course) : (setCourse w c).nextOp = w.nextOp := rfl
@[simp] theorem setCourse_nextFlight (w : W) (c : Course) : (setCourse w c).nextFlight = w.nextFlight := rfl
@[simp] theorem setCourse_nextOrder (w : W) (c : Course) : (setCourse w c).nextOrder = w.nextOrder := rfl
@[simp] theorem setCourse_agenda (w : W) (c : Course) : (setCourse w c).agenda = w.agenda := rfl
@[simp] theorem setCourse_wb (w : W) (c : Course) : (setCourse w c).wb = w.wb := rfl
@[simp] theorem setCourse_replies (w : W) (c : Course) : (setCourse w c).replies = w.replies := rfl
@[simp] theorem setCourse_hub (w : W) (c : Course) : (setCourse w c).hub = w.hub := rfl
@[simp] theorem setCourse_sec (w : W) (c : Course) : (setCourse w c).sec = w.sec := rfl
@[simp] theorem setCourse_fns (w : W) (c : Course) : (setCourse w c).fns = w.fns := rfl
@[simp] theorem setCourse_parts (w : W) (c : Course) : (setCourse w c).parts = w.parts := rfl
@[simp] theorem setCourse_cores (w : W) (c : Course) : (setCourse w c).cores = w.cores := rfl
@[simp] theorem setCourse_quads (w : W) (c : Course) : (setCourse w c).quads = w.quads := rfl
@[simp] theorem setCourse_tiles (w : W) (c : Course) : (setCourse w c).tiles = w.tiles := rfl
@[simp] theorem setCourse_ports (w : W) (c : Course) : (setCourse w c).ports = w.ports := rfl
@[simp] theorem setCourse_disps (w : W) (c : Course) : (setCourse w c).disps = w.disps := rfl
@[simp] theorem setCourse_launches (w : W) (c : Course) : (setCourse w c).launches = w.launches := rfl
@[simp] theorem setCourse_consorts (w : W) (c : Course) : (setCourse w c).consorts = w.consorts := rfl
@[simp] theorem setCourse_courses (w : W) (c : Course) : (setCourse w c).courses = tPut w.courses c.id.cid c := rfl
@[simp] theorem setCourse_ops (w : W) (c : Course) : (setCourse w c).ops = w.ops := rfl
@[simp] theorem setCourse_flights (w : W) (c : Course) : (setCourse w c).flights = w.flights := rfl
@[simp] theorem setCourse_tlb (w : W) (c : Course) : (setCourse w c).tlb = w.tlb := rfl
@[simp] theorem setCourse_invals (w : W) (c : Course) : (setCourse w c).invals = w.invals := rfl
@[simp] theorem setCourse_ats (w : W) (c : Course) : (setCourse w c).ats = w.ats := rfl
@[simp] theorem setCourse_lost (w : W) (c : Course) : (setCourse w c).lost = w.lost := rfl
@[simp] theorem setCourse_poison (w : W) (c : Course) : (setCourse w c).poison = w.poison := rfl
@[simp] theorem setCourse_scrub (w : W) (c : Course) : (setCourse w c).scrub = w.scrub := rfl

@[simp] theorem updCourse_now (w : W) (n : Nat) (f : Course → Course) : (updCourse w n f).now = w.now := rfl
@[simp] theorem updCourse_fresh (w : W) (n : Nat) (f : Course → Course) : (updCourse w n f).fresh = w.fresh := rfl
@[simp] theorem updCourse_nextCid (w : W) (n : Nat) (f : Course → Course) : (updCourse w n f).nextCid = w.nextCid := rfl
@[simp] theorem updCourse_nextConsort (w : W) (n : Nat) (f : Course → Course) : (updCourse w n f).nextConsort = w.nextConsort := rfl
@[simp] theorem updCourse_nextLaunch (w : W) (n : Nat) (f : Course → Course) : (updCourse w n f).nextLaunch = w.nextLaunch := rfl
@[simp] theorem updCourse_nextOp (w : W) (n : Nat) (f : Course → Course) : (updCourse w n f).nextOp = w.nextOp := rfl
@[simp] theorem updCourse_nextFlight (w : W) (n : Nat) (f : Course → Course) : (updCourse w n f).nextFlight = w.nextFlight := rfl
@[simp] theorem updCourse_nextOrder (w : W) (n : Nat) (f : Course → Course) : (updCourse w n f).nextOrder = w.nextOrder := rfl
@[simp] theorem updCourse_agenda (w : W) (n : Nat) (f : Course → Course) : (updCourse w n f).agenda = w.agenda := rfl
@[simp] theorem updCourse_wb (w : W) (n : Nat) (f : Course → Course) : (updCourse w n f).wb = w.wb := rfl
@[simp] theorem updCourse_replies (w : W) (n : Nat) (f : Course → Course) : (updCourse w n f).replies = w.replies := rfl
@[simp] theorem updCourse_hub (w : W) (n : Nat) (f : Course → Course) : (updCourse w n f).hub = w.hub := rfl
@[simp] theorem updCourse_sec (w : W) (n : Nat) (f : Course → Course) : (updCourse w n f).sec = w.sec := rfl
@[simp] theorem updCourse_fns (w : W) (n : Nat) (f : Course → Course) : (updCourse w n f).fns = w.fns := rfl
@[simp] theorem updCourse_parts (w : W) (n : Nat) (f : Course → Course) : (updCourse w n f).parts = w.parts := rfl
@[simp] theorem updCourse_cores (w : W) (n : Nat) (f : Course → Course) : (updCourse w n f).cores = w.cores := rfl
@[simp] theorem updCourse_quads (w : W) (n : Nat) (f : Course → Course) : (updCourse w n f).quads = w.quads := rfl
@[simp] theorem updCourse_tiles (w : W) (n : Nat) (f : Course → Course) : (updCourse w n f).tiles = w.tiles := rfl
@[simp] theorem updCourse_ports (w : W) (n : Nat) (f : Course → Course) : (updCourse w n f).ports = w.ports := rfl
@[simp] theorem updCourse_disps (w : W) (n : Nat) (f : Course → Course) : (updCourse w n f).disps = w.disps := rfl
@[simp] theorem updCourse_launches (w : W) (n : Nat) (f : Course → Course) : (updCourse w n f).launches = w.launches := rfl
@[simp] theorem updCourse_consorts (w : W) (n : Nat) (f : Course → Course) : (updCourse w n f).consorts = w.consorts := rfl
@[simp] theorem updCourse_courses (w : W) (n : Nat) (f : Course → Course) : (updCourse w n f).courses = tUpd w.courses n f := rfl
@[simp] theorem updCourse_ops (w : W) (n : Nat) (f : Course → Course) : (updCourse w n f).ops = w.ops := rfl
@[simp] theorem updCourse_flights (w : W) (n : Nat) (f : Course → Course) : (updCourse w n f).flights = w.flights := rfl
@[simp] theorem updCourse_tlb (w : W) (n : Nat) (f : Course → Course) : (updCourse w n f).tlb = w.tlb := rfl
@[simp] theorem updCourse_invals (w : W) (n : Nat) (f : Course → Course) : (updCourse w n f).invals = w.invals := rfl
@[simp] theorem updCourse_ats (w : W) (n : Nat) (f : Course → Course) : (updCourse w n f).ats = w.ats := rfl
@[simp] theorem updCourse_lost (w : W) (n : Nat) (f : Course → Course) : (updCourse w n f).lost = w.lost := rfl
@[simp] theorem updCourse_poison (w : W) (n : Nat) (f : Course → Course) : (updCourse w n f).poison = w.poison := rfl
@[simp] theorem updCourse_scrub (w : W) (n : Nat) (f : Course → Course) : (updCourse w n f).scrub = w.scrub := rfl

/-! Consorts, launches, cores, quadrants, operations. -/

@[simp] theorem updConsort_now (w : W) (n : Nat) (f : Consort → Consort) : (updConsort w n f).now = w.now := rfl
@[simp] theorem updConsort_fresh (w : W) (n : Nat) (f : Consort → Consort) : (updConsort w n f).fresh = w.fresh := rfl
@[simp] theorem updConsort_nextCid (w : W) (n : Nat) (f : Consort → Consort) : (updConsort w n f).nextCid = w.nextCid := rfl
@[simp] theorem updConsort_nextConsort (w : W) (n : Nat) (f : Consort → Consort) : (updConsort w n f).nextConsort = w.nextConsort := rfl
@[simp] theorem updConsort_nextLaunch (w : W) (n : Nat) (f : Consort → Consort) : (updConsort w n f).nextLaunch = w.nextLaunch := rfl
@[simp] theorem updConsort_nextOp (w : W) (n : Nat) (f : Consort → Consort) : (updConsort w n f).nextOp = w.nextOp := rfl
@[simp] theorem updConsort_nextFlight (w : W) (n : Nat) (f : Consort → Consort) : (updConsort w n f).nextFlight = w.nextFlight := rfl
@[simp] theorem updConsort_nextOrder (w : W) (n : Nat) (f : Consort → Consort) : (updConsort w n f).nextOrder = w.nextOrder := rfl
@[simp] theorem updConsort_agenda (w : W) (n : Nat) (f : Consort → Consort) : (updConsort w n f).agenda = w.agenda := rfl
@[simp] theorem updConsort_wb (w : W) (n : Nat) (f : Consort → Consort) : (updConsort w n f).wb = w.wb := rfl
@[simp] theorem updConsort_replies (w : W) (n : Nat) (f : Consort → Consort) : (updConsort w n f).replies = w.replies := rfl
@[simp] theorem updConsort_hub (w : W) (n : Nat) (f : Consort → Consort) : (updConsort w n f).hub = w.hub := rfl
@[simp] theorem updConsort_sec (w : W) (n : Nat) (f : Consort → Consort) : (updConsort w n f).sec = w.sec := rfl
@[simp] theorem updConsort_fns (w : W) (n : Nat) (f : Consort → Consort) : (updConsort w n f).fns = w.fns := rfl
@[simp] theorem updConsort_parts (w : W) (n : Nat) (f : Consort → Consort) : (updConsort w n f).parts = w.parts := rfl
@[simp] theorem updConsort_cores (w : W) (n : Nat) (f : Consort → Consort) : (updConsort w n f).cores = w.cores := rfl
@[simp] theorem updConsort_quads (w : W) (n : Nat) (f : Consort → Consort) : (updConsort w n f).quads = w.quads := rfl
@[simp] theorem updConsort_tiles (w : W) (n : Nat) (f : Consort → Consort) : (updConsort w n f).tiles = w.tiles := rfl
@[simp] theorem updConsort_ports (w : W) (n : Nat) (f : Consort → Consort) : (updConsort w n f).ports = w.ports := rfl
@[simp] theorem updConsort_disps (w : W) (n : Nat) (f : Consort → Consort) : (updConsort w n f).disps = w.disps := rfl
@[simp] theorem updConsort_launches (w : W) (n : Nat) (f : Consort → Consort) : (updConsort w n f).launches = w.launches := rfl
@[simp] theorem updConsort_consorts (w : W) (n : Nat) (f : Consort → Consort) : (updConsort w n f).consorts = tUpd w.consorts n f := rfl
@[simp] theorem updConsort_courses (w : W) (n : Nat) (f : Consort → Consort) : (updConsort w n f).courses = w.courses := rfl
@[simp] theorem updConsort_ops (w : W) (n : Nat) (f : Consort → Consort) : (updConsort w n f).ops = w.ops := rfl
@[simp] theorem updConsort_flights (w : W) (n : Nat) (f : Consort → Consort) : (updConsort w n f).flights = w.flights := rfl
@[simp] theorem updConsort_tlb (w : W) (n : Nat) (f : Consort → Consort) : (updConsort w n f).tlb = w.tlb := rfl
@[simp] theorem updConsort_invals (w : W) (n : Nat) (f : Consort → Consort) : (updConsort w n f).invals = w.invals := rfl
@[simp] theorem updConsort_ats (w : W) (n : Nat) (f : Consort → Consort) : (updConsort w n f).ats = w.ats := rfl
@[simp] theorem updConsort_lost (w : W) (n : Nat) (f : Consort → Consort) : (updConsort w n f).lost = w.lost := rfl
@[simp] theorem updConsort_poison (w : W) (n : Nat) (f : Consort → Consort) : (updConsort w n f).poison = w.poison := rfl
@[simp] theorem updConsort_scrub (w : W) (n : Nat) (f : Consort → Consort) : (updConsort w n f).scrub = w.scrub := rfl

@[simp] theorem updLaunch_now (w : W) (n : Nat) (f : Launch → Launch) : (updLaunch w n f).now = w.now := rfl
@[simp] theorem updLaunch_fresh (w : W) (n : Nat) (f : Launch → Launch) : (updLaunch w n f).fresh = w.fresh := rfl
@[simp] theorem updLaunch_nextCid (w : W) (n : Nat) (f : Launch → Launch) : (updLaunch w n f).nextCid = w.nextCid := rfl
@[simp] theorem updLaunch_nextConsort (w : W) (n : Nat) (f : Launch → Launch) : (updLaunch w n f).nextConsort = w.nextConsort := rfl
@[simp] theorem updLaunch_nextLaunch (w : W) (n : Nat) (f : Launch → Launch) : (updLaunch w n f).nextLaunch = w.nextLaunch := rfl
@[simp] theorem updLaunch_nextOp (w : W) (n : Nat) (f : Launch → Launch) : (updLaunch w n f).nextOp = w.nextOp := rfl
@[simp] theorem updLaunch_nextFlight (w : W) (n : Nat) (f : Launch → Launch) : (updLaunch w n f).nextFlight = w.nextFlight := rfl
@[simp] theorem updLaunch_nextOrder (w : W) (n : Nat) (f : Launch → Launch) : (updLaunch w n f).nextOrder = w.nextOrder := rfl
@[simp] theorem updLaunch_agenda (w : W) (n : Nat) (f : Launch → Launch) : (updLaunch w n f).agenda = w.agenda := rfl
@[simp] theorem updLaunch_wb (w : W) (n : Nat) (f : Launch → Launch) : (updLaunch w n f).wb = w.wb := rfl
@[simp] theorem updLaunch_replies (w : W) (n : Nat) (f : Launch → Launch) : (updLaunch w n f).replies = w.replies := rfl
@[simp] theorem updLaunch_hub (w : W) (n : Nat) (f : Launch → Launch) : (updLaunch w n f).hub = w.hub := rfl
@[simp] theorem updLaunch_sec (w : W) (n : Nat) (f : Launch → Launch) : (updLaunch w n f).sec = w.sec := rfl
@[simp] theorem updLaunch_fns (w : W) (n : Nat) (f : Launch → Launch) : (updLaunch w n f).fns = w.fns := rfl
@[simp] theorem updLaunch_parts (w : W) (n : Nat) (f : Launch → Launch) : (updLaunch w n f).parts = w.parts := rfl
@[simp] theorem updLaunch_cores (w : W) (n : Nat) (f : Launch → Launch) : (updLaunch w n f).cores = w.cores := rfl
@[simp] theorem updLaunch_quads (w : W) (n : Nat) (f : Launch → Launch) : (updLaunch w n f).quads = w.quads := rfl
@[simp] theorem updLaunch_tiles (w : W) (n : Nat) (f : Launch → Launch) : (updLaunch w n f).tiles = w.tiles := rfl
@[simp] theorem updLaunch_ports (w : W) (n : Nat) (f : Launch → Launch) : (updLaunch w n f).ports = w.ports := rfl
@[simp] theorem updLaunch_disps (w : W) (n : Nat) (f : Launch → Launch) : (updLaunch w n f).disps = w.disps := rfl
@[simp] theorem updLaunch_launches (w : W) (n : Nat) (f : Launch → Launch) : (updLaunch w n f).launches = tUpd w.launches n f := rfl
@[simp] theorem updLaunch_consorts (w : W) (n : Nat) (f : Launch → Launch) : (updLaunch w n f).consorts = w.consorts := rfl
@[simp] theorem updLaunch_courses (w : W) (n : Nat) (f : Launch → Launch) : (updLaunch w n f).courses = w.courses := rfl
@[simp] theorem updLaunch_ops (w : W) (n : Nat) (f : Launch → Launch) : (updLaunch w n f).ops = w.ops := rfl
@[simp] theorem updLaunch_flights (w : W) (n : Nat) (f : Launch → Launch) : (updLaunch w n f).flights = w.flights := rfl
@[simp] theorem updLaunch_tlb (w : W) (n : Nat) (f : Launch → Launch) : (updLaunch w n f).tlb = w.tlb := rfl
@[simp] theorem updLaunch_invals (w : W) (n : Nat) (f : Launch → Launch) : (updLaunch w n f).invals = w.invals := rfl
@[simp] theorem updLaunch_ats (w : W) (n : Nat) (f : Launch → Launch) : (updLaunch w n f).ats = w.ats := rfl
@[simp] theorem updLaunch_lost (w : W) (n : Nat) (f : Launch → Launch) : (updLaunch w n f).lost = w.lost := rfl
@[simp] theorem updLaunch_poison (w : W) (n : Nat) (f : Launch → Launch) : (updLaunch w n f).poison = w.poison := rfl
@[simp] theorem updLaunch_scrub (w : W) (n : Nat) (f : Launch → Launch) : (updLaunch w n f).scrub = w.scrub := rfl

@[simp] theorem updCore_now (w : W) (n : Nat) (f : CoreSt → CoreSt) : (updCore w n f).now = w.now := rfl
@[simp] theorem updCore_fresh (w : W) (n : Nat) (f : CoreSt → CoreSt) : (updCore w n f).fresh = w.fresh := rfl
@[simp] theorem updCore_nextCid (w : W) (n : Nat) (f : CoreSt → CoreSt) : (updCore w n f).nextCid = w.nextCid := rfl
@[simp] theorem updCore_nextConsort (w : W) (n : Nat) (f : CoreSt → CoreSt) : (updCore w n f).nextConsort = w.nextConsort := rfl
@[simp] theorem updCore_nextLaunch (w : W) (n : Nat) (f : CoreSt → CoreSt) : (updCore w n f).nextLaunch = w.nextLaunch := rfl
@[simp] theorem updCore_nextOp (w : W) (n : Nat) (f : CoreSt → CoreSt) : (updCore w n f).nextOp = w.nextOp := rfl
@[simp] theorem updCore_nextFlight (w : W) (n : Nat) (f : CoreSt → CoreSt) : (updCore w n f).nextFlight = w.nextFlight := rfl
@[simp] theorem updCore_nextOrder (w : W) (n : Nat) (f : CoreSt → CoreSt) : (updCore w n f).nextOrder = w.nextOrder := rfl
@[simp] theorem updCore_agenda (w : W) (n : Nat) (f : CoreSt → CoreSt) : (updCore w n f).agenda = w.agenda := rfl
@[simp] theorem updCore_wb (w : W) (n : Nat) (f : CoreSt → CoreSt) : (updCore w n f).wb = w.wb := rfl
@[simp] theorem updCore_replies (w : W) (n : Nat) (f : CoreSt → CoreSt) : (updCore w n f).replies = w.replies := rfl
@[simp] theorem updCore_hub (w : W) (n : Nat) (f : CoreSt → CoreSt) : (updCore w n f).hub = w.hub := rfl
@[simp] theorem updCore_sec (w : W) (n : Nat) (f : CoreSt → CoreSt) : (updCore w n f).sec = w.sec := rfl
@[simp] theorem updCore_fns (w : W) (n : Nat) (f : CoreSt → CoreSt) : (updCore w n f).fns = w.fns := rfl
@[simp] theorem updCore_parts (w : W) (n : Nat) (f : CoreSt → CoreSt) : (updCore w n f).parts = w.parts := rfl
@[simp] theorem updCore_cores (w : W) (n : Nat) (f : CoreSt → CoreSt) : (updCore w n f).cores = tPut w.cores n (f (core w n)) := rfl
@[simp] theorem updCore_quads (w : W) (n : Nat) (f : CoreSt → CoreSt) : (updCore w n f).quads = w.quads := rfl
@[simp] theorem updCore_tiles (w : W) (n : Nat) (f : CoreSt → CoreSt) : (updCore w n f).tiles = w.tiles := rfl
@[simp] theorem updCore_ports (w : W) (n : Nat) (f : CoreSt → CoreSt) : (updCore w n f).ports = w.ports := rfl
@[simp] theorem updCore_disps (w : W) (n : Nat) (f : CoreSt → CoreSt) : (updCore w n f).disps = w.disps := rfl
@[simp] theorem updCore_launches (w : W) (n : Nat) (f : CoreSt → CoreSt) : (updCore w n f).launches = w.launches := rfl
@[simp] theorem updCore_consorts (w : W) (n : Nat) (f : CoreSt → CoreSt) : (updCore w n f).consorts = w.consorts := rfl
@[simp] theorem updCore_courses (w : W) (n : Nat) (f : CoreSt → CoreSt) : (updCore w n f).courses = w.courses := rfl
@[simp] theorem updCore_ops (w : W) (n : Nat) (f : CoreSt → CoreSt) : (updCore w n f).ops = w.ops := rfl
@[simp] theorem updCore_flights (w : W) (n : Nat) (f : CoreSt → CoreSt) : (updCore w n f).flights = w.flights := rfl
@[simp] theorem updCore_tlb (w : W) (n : Nat) (f : CoreSt → CoreSt) : (updCore w n f).tlb = w.tlb := rfl
@[simp] theorem updCore_invals (w : W) (n : Nat) (f : CoreSt → CoreSt) : (updCore w n f).invals = w.invals := rfl
@[simp] theorem updCore_ats (w : W) (n : Nat) (f : CoreSt → CoreSt) : (updCore w n f).ats = w.ats := rfl
@[simp] theorem updCore_lost (w : W) (n : Nat) (f : CoreSt → CoreSt) : (updCore w n f).lost = w.lost := rfl
@[simp] theorem updCore_poison (w : W) (n : Nat) (f : CoreSt → CoreSt) : (updCore w n f).poison = w.poison := rfl
@[simp] theorem updCore_scrub (w : W) (n : Nat) (f : CoreSt → CoreSt) : (updCore w n f).scrub = w.scrub := rfl

@[simp] theorem updQuad_now (w : W) (n : Nat) (f : Quad → Quad) : (updQuad w n f).now = w.now := rfl
@[simp] theorem updQuad_fresh (w : W) (n : Nat) (f : Quad → Quad) : (updQuad w n f).fresh = w.fresh := rfl
@[simp] theorem updQuad_nextCid (w : W) (n : Nat) (f : Quad → Quad) : (updQuad w n f).nextCid = w.nextCid := rfl
@[simp] theorem updQuad_nextConsort (w : W) (n : Nat) (f : Quad → Quad) : (updQuad w n f).nextConsort = w.nextConsort := rfl
@[simp] theorem updQuad_nextLaunch (w : W) (n : Nat) (f : Quad → Quad) : (updQuad w n f).nextLaunch = w.nextLaunch := rfl
@[simp] theorem updQuad_nextOp (w : W) (n : Nat) (f : Quad → Quad) : (updQuad w n f).nextOp = w.nextOp := rfl
@[simp] theorem updQuad_nextFlight (w : W) (n : Nat) (f : Quad → Quad) : (updQuad w n f).nextFlight = w.nextFlight := rfl
@[simp] theorem updQuad_nextOrder (w : W) (n : Nat) (f : Quad → Quad) : (updQuad w n f).nextOrder = w.nextOrder := rfl
@[simp] theorem updQuad_agenda (w : W) (n : Nat) (f : Quad → Quad) : (updQuad w n f).agenda = w.agenda := rfl
@[simp] theorem updQuad_wb (w : W) (n : Nat) (f : Quad → Quad) : (updQuad w n f).wb = w.wb := rfl
@[simp] theorem updQuad_replies (w : W) (n : Nat) (f : Quad → Quad) : (updQuad w n f).replies = w.replies := rfl
@[simp] theorem updQuad_hub (w : W) (n : Nat) (f : Quad → Quad) : (updQuad w n f).hub = w.hub := rfl
@[simp] theorem updQuad_sec (w : W) (n : Nat) (f : Quad → Quad) : (updQuad w n f).sec = w.sec := rfl
@[simp] theorem updQuad_fns (w : W) (n : Nat) (f : Quad → Quad) : (updQuad w n f).fns = w.fns := rfl
@[simp] theorem updQuad_parts (w : W) (n : Nat) (f : Quad → Quad) : (updQuad w n f).parts = w.parts := rfl
@[simp] theorem updQuad_cores (w : W) (n : Nat) (f : Quad → Quad) : (updQuad w n f).cores = w.cores := rfl
@[simp] theorem updQuad_quads (w : W) (n : Nat) (f : Quad → Quad) : (updQuad w n f).quads = tPut w.quads n (f (quad w n)) := rfl
@[simp] theorem updQuad_tiles (w : W) (n : Nat) (f : Quad → Quad) : (updQuad w n f).tiles = w.tiles := rfl
@[simp] theorem updQuad_ports (w : W) (n : Nat) (f : Quad → Quad) : (updQuad w n f).ports = w.ports := rfl
@[simp] theorem updQuad_disps (w : W) (n : Nat) (f : Quad → Quad) : (updQuad w n f).disps = w.disps := rfl
@[simp] theorem updQuad_launches (w : W) (n : Nat) (f : Quad → Quad) : (updQuad w n f).launches = w.launches := rfl
@[simp] theorem updQuad_consorts (w : W) (n : Nat) (f : Quad → Quad) : (updQuad w n f).consorts = w.consorts := rfl
@[simp] theorem updQuad_courses (w : W) (n : Nat) (f : Quad → Quad) : (updQuad w n f).courses = w.courses := rfl
@[simp] theorem updQuad_ops (w : W) (n : Nat) (f : Quad → Quad) : (updQuad w n f).ops = w.ops := rfl
@[simp] theorem updQuad_flights (w : W) (n : Nat) (f : Quad → Quad) : (updQuad w n f).flights = w.flights := rfl
@[simp] theorem updQuad_tlb (w : W) (n : Nat) (f : Quad → Quad) : (updQuad w n f).tlb = w.tlb := rfl
@[simp] theorem updQuad_invals (w : W) (n : Nat) (f : Quad → Quad) : (updQuad w n f).invals = w.invals := rfl
@[simp] theorem updQuad_ats (w : W) (n : Nat) (f : Quad → Quad) : (updQuad w n f).ats = w.ats := rfl
@[simp] theorem updQuad_lost (w : W) (n : Nat) (f : Quad → Quad) : (updQuad w n f).lost = w.lost := rfl
@[simp] theorem updQuad_poison (w : W) (n : Nat) (f : Quad → Quad) : (updQuad w n f).poison = w.poison := rfl
@[simp] theorem updQuad_scrub (w : W) (n : Nat) (f : Quad → Quad) : (updQuad w n f).scrub = w.scrub := rfl

/-! Partitions, functions, tiles, ports, dispensers. -/

@[simp] theorem updPart_now (w : W) (n : Nat) (f : Part → Part) : (updPart w n f).now = w.now := rfl
@[simp] theorem updPart_fresh (w : W) (n : Nat) (f : Part → Part) : (updPart w n f).fresh = w.fresh := rfl
@[simp] theorem updPart_nextCid (w : W) (n : Nat) (f : Part → Part) : (updPart w n f).nextCid = w.nextCid := rfl
@[simp] theorem updPart_nextConsort (w : W) (n : Nat) (f : Part → Part) : (updPart w n f).nextConsort = w.nextConsort := rfl
@[simp] theorem updPart_nextLaunch (w : W) (n : Nat) (f : Part → Part) : (updPart w n f).nextLaunch = w.nextLaunch := rfl
@[simp] theorem updPart_nextOp (w : W) (n : Nat) (f : Part → Part) : (updPart w n f).nextOp = w.nextOp := rfl
@[simp] theorem updPart_nextFlight (w : W) (n : Nat) (f : Part → Part) : (updPart w n f).nextFlight = w.nextFlight := rfl
@[simp] theorem updPart_nextOrder (w : W) (n : Nat) (f : Part → Part) : (updPart w n f).nextOrder = w.nextOrder := rfl
@[simp] theorem updPart_agenda (w : W) (n : Nat) (f : Part → Part) : (updPart w n f).agenda = w.agenda := rfl
@[simp] theorem updPart_wb (w : W) (n : Nat) (f : Part → Part) : (updPart w n f).wb = w.wb := rfl
@[simp] theorem updPart_replies (w : W) (n : Nat) (f : Part → Part) : (updPart w n f).replies = w.replies := rfl
@[simp] theorem updPart_hub (w : W) (n : Nat) (f : Part → Part) : (updPart w n f).hub = w.hub := rfl
@[simp] theorem updPart_sec (w : W) (n : Nat) (f : Part → Part) : (updPart w n f).sec = w.sec := rfl
@[simp] theorem updPart_fns (w : W) (n : Nat) (f : Part → Part) : (updPart w n f).fns = w.fns := rfl
@[simp] theorem updPart_parts (w : W) (n : Nat) (f : Part → Part) : (updPart w n f).parts = tPut w.parts n (f (part w n)) := rfl
@[simp] theorem updPart_cores (w : W) (n : Nat) (f : Part → Part) : (updPart w n f).cores = w.cores := rfl
@[simp] theorem updPart_quads (w : W) (n : Nat) (f : Part → Part) : (updPart w n f).quads = w.quads := rfl
@[simp] theorem updPart_tiles (w : W) (n : Nat) (f : Part → Part) : (updPart w n f).tiles = w.tiles := rfl
@[simp] theorem updPart_ports (w : W) (n : Nat) (f : Part → Part) : (updPart w n f).ports = w.ports := rfl
@[simp] theorem updPart_disps (w : W) (n : Nat) (f : Part → Part) : (updPart w n f).disps = w.disps := rfl
@[simp] theorem updPart_launches (w : W) (n : Nat) (f : Part → Part) : (updPart w n f).launches = w.launches := rfl
@[simp] theorem updPart_consorts (w : W) (n : Nat) (f : Part → Part) : (updPart w n f).consorts = w.consorts := rfl
@[simp] theorem updPart_courses (w : W) (n : Nat) (f : Part → Part) : (updPart w n f).courses = w.courses := rfl
@[simp] theorem updPart_ops (w : W) (n : Nat) (f : Part → Part) : (updPart w n f).ops = w.ops := rfl
@[simp] theorem updPart_flights (w : W) (n : Nat) (f : Part → Part) : (updPart w n f).flights = w.flights := rfl
@[simp] theorem updPart_tlb (w : W) (n : Nat) (f : Part → Part) : (updPart w n f).tlb = w.tlb := rfl
@[simp] theorem updPart_invals (w : W) (n : Nat) (f : Part → Part) : (updPart w n f).invals = w.invals := rfl
@[simp] theorem updPart_ats (w : W) (n : Nat) (f : Part → Part) : (updPart w n f).ats = w.ats := rfl
@[simp] theorem updPart_lost (w : W) (n : Nat) (f : Part → Part) : (updPart w n f).lost = w.lost := rfl
@[simp] theorem updPart_poison (w : W) (n : Nat) (f : Part → Part) : (updPart w n f).poison = w.poison := rfl
@[simp] theorem updPart_scrub (w : W) (n : Nat) (f : Part → Part) : (updPart w n f).scrub = w.scrub := rfl

@[simp] theorem updFn_now (w : W) (n : Nat) (f : Fn → Fn) : (updFn w n f).now = w.now := rfl
@[simp] theorem updFn_fresh (w : W) (n : Nat) (f : Fn → Fn) : (updFn w n f).fresh = w.fresh := rfl
@[simp] theorem updFn_nextCid (w : W) (n : Nat) (f : Fn → Fn) : (updFn w n f).nextCid = w.nextCid := rfl
@[simp] theorem updFn_nextConsort (w : W) (n : Nat) (f : Fn → Fn) : (updFn w n f).nextConsort = w.nextConsort := rfl
@[simp] theorem updFn_nextLaunch (w : W) (n : Nat) (f : Fn → Fn) : (updFn w n f).nextLaunch = w.nextLaunch := rfl
@[simp] theorem updFn_nextOp (w : W) (n : Nat) (f : Fn → Fn) : (updFn w n f).nextOp = w.nextOp := rfl
@[simp] theorem updFn_nextFlight (w : W) (n : Nat) (f : Fn → Fn) : (updFn w n f).nextFlight = w.nextFlight := rfl
@[simp] theorem updFn_nextOrder (w : W) (n : Nat) (f : Fn → Fn) : (updFn w n f).nextOrder = w.nextOrder := rfl
@[simp] theorem updFn_agenda (w : W) (n : Nat) (f : Fn → Fn) : (updFn w n f).agenda = w.agenda := rfl
@[simp] theorem updFn_wb (w : W) (n : Nat) (f : Fn → Fn) : (updFn w n f).wb = w.wb := rfl
@[simp] theorem updFn_replies (w : W) (n : Nat) (f : Fn → Fn) : (updFn w n f).replies = w.replies := rfl
@[simp] theorem updFn_hub (w : W) (n : Nat) (f : Fn → Fn) : (updFn w n f).hub = w.hub := rfl
@[simp] theorem updFn_sec (w : W) (n : Nat) (f : Fn → Fn) : (updFn w n f).sec = w.sec := rfl
@[simp] theorem updFn_fns (w : W) (n : Nat) (f : Fn → Fn) : (updFn w n f).fns = tPut w.fns n (f (fn w n)) := rfl
@[simp] theorem updFn_parts (w : W) (n : Nat) (f : Fn → Fn) : (updFn w n f).parts = w.parts := rfl
@[simp] theorem updFn_cores (w : W) (n : Nat) (f : Fn → Fn) : (updFn w n f).cores = w.cores := rfl
@[simp] theorem updFn_quads (w : W) (n : Nat) (f : Fn → Fn) : (updFn w n f).quads = w.quads := rfl
@[simp] theorem updFn_tiles (w : W) (n : Nat) (f : Fn → Fn) : (updFn w n f).tiles = w.tiles := rfl
@[simp] theorem updFn_ports (w : W) (n : Nat) (f : Fn → Fn) : (updFn w n f).ports = w.ports := rfl
@[simp] theorem updFn_disps (w : W) (n : Nat) (f : Fn → Fn) : (updFn w n f).disps = w.disps := rfl
@[simp] theorem updFn_launches (w : W) (n : Nat) (f : Fn → Fn) : (updFn w n f).launches = w.launches := rfl
@[simp] theorem updFn_consorts (w : W) (n : Nat) (f : Fn → Fn) : (updFn w n f).consorts = w.consorts := rfl
@[simp] theorem updFn_courses (w : W) (n : Nat) (f : Fn → Fn) : (updFn w n f).courses = w.courses := rfl
@[simp] theorem updFn_ops (w : W) (n : Nat) (f : Fn → Fn) : (updFn w n f).ops = w.ops := rfl
@[simp] theorem updFn_flights (w : W) (n : Nat) (f : Fn → Fn) : (updFn w n f).flights = w.flights := rfl
@[simp] theorem updFn_tlb (w : W) (n : Nat) (f : Fn → Fn) : (updFn w n f).tlb = w.tlb := rfl
@[simp] theorem updFn_invals (w : W) (n : Nat) (f : Fn → Fn) : (updFn w n f).invals = w.invals := rfl
@[simp] theorem updFn_ats (w : W) (n : Nat) (f : Fn → Fn) : (updFn w n f).ats = w.ats := rfl
@[simp] theorem updFn_lost (w : W) (n : Nat) (f : Fn → Fn) : (updFn w n f).lost = w.lost := rfl
@[simp] theorem updFn_poison (w : W) (n : Nat) (f : Fn → Fn) : (updFn w n f).poison = w.poison := rfl
@[simp] theorem updFn_scrub (w : W) (n : Nat) (f : Fn → Fn) : (updFn w n f).scrub = w.scrub := rfl

@[simp] theorem updTile_now (w : W) (n : Nat) (f : Tile → Tile) : (updTile w n f).now = w.now := rfl
@[simp] theorem updTile_fresh (w : W) (n : Nat) (f : Tile → Tile) : (updTile w n f).fresh = w.fresh := rfl
@[simp] theorem updTile_nextCid (w : W) (n : Nat) (f : Tile → Tile) : (updTile w n f).nextCid = w.nextCid := rfl
@[simp] theorem updTile_nextConsort (w : W) (n : Nat) (f : Tile → Tile) : (updTile w n f).nextConsort = w.nextConsort := rfl
@[simp] theorem updTile_nextLaunch (w : W) (n : Nat) (f : Tile → Tile) : (updTile w n f).nextLaunch = w.nextLaunch := rfl
@[simp] theorem updTile_nextOp (w : W) (n : Nat) (f : Tile → Tile) : (updTile w n f).nextOp = w.nextOp := rfl
@[simp] theorem updTile_nextFlight (w : W) (n : Nat) (f : Tile → Tile) : (updTile w n f).nextFlight = w.nextFlight := rfl
@[simp] theorem updTile_nextOrder (w : W) (n : Nat) (f : Tile → Tile) : (updTile w n f).nextOrder = w.nextOrder := rfl
@[simp] theorem updTile_agenda (w : W) (n : Nat) (f : Tile → Tile) : (updTile w n f).agenda = w.agenda := rfl
@[simp] theorem updTile_wb (w : W) (n : Nat) (f : Tile → Tile) : (updTile w n f).wb = w.wb := rfl
@[simp] theorem updTile_replies (w : W) (n : Nat) (f : Tile → Tile) : (updTile w n f).replies = w.replies := rfl
@[simp] theorem updTile_hub (w : W) (n : Nat) (f : Tile → Tile) : (updTile w n f).hub = w.hub := rfl
@[simp] theorem updTile_sec (w : W) (n : Nat) (f : Tile → Tile) : (updTile w n f).sec = w.sec := rfl
@[simp] theorem updTile_fns (w : W) (n : Nat) (f : Tile → Tile) : (updTile w n f).fns = w.fns := rfl
@[simp] theorem updTile_parts (w : W) (n : Nat) (f : Tile → Tile) : (updTile w n f).parts = w.parts := rfl
@[simp] theorem updTile_cores (w : W) (n : Nat) (f : Tile → Tile) : (updTile w n f).cores = w.cores := rfl
@[simp] theorem updTile_quads (w : W) (n : Nat) (f : Tile → Tile) : (updTile w n f).quads = w.quads := rfl
@[simp] theorem updTile_tiles (w : W) (n : Nat) (f : Tile → Tile) : (updTile w n f).tiles = tPut w.tiles n (f (tile w n)) := rfl
@[simp] theorem updTile_ports (w : W) (n : Nat) (f : Tile → Tile) : (updTile w n f).ports = w.ports := rfl
@[simp] theorem updTile_disps (w : W) (n : Nat) (f : Tile → Tile) : (updTile w n f).disps = w.disps := rfl
@[simp] theorem updTile_launches (w : W) (n : Nat) (f : Tile → Tile) : (updTile w n f).launches = w.launches := rfl
@[simp] theorem updTile_consorts (w : W) (n : Nat) (f : Tile → Tile) : (updTile w n f).consorts = w.consorts := rfl
@[simp] theorem updTile_courses (w : W) (n : Nat) (f : Tile → Tile) : (updTile w n f).courses = w.courses := rfl
@[simp] theorem updTile_ops (w : W) (n : Nat) (f : Tile → Tile) : (updTile w n f).ops = w.ops := rfl
@[simp] theorem updTile_flights (w : W) (n : Nat) (f : Tile → Tile) : (updTile w n f).flights = w.flights := rfl
@[simp] theorem updTile_tlb (w : W) (n : Nat) (f : Tile → Tile) : (updTile w n f).tlb = w.tlb := rfl
@[simp] theorem updTile_invals (w : W) (n : Nat) (f : Tile → Tile) : (updTile w n f).invals = w.invals := rfl
@[simp] theorem updTile_ats (w : W) (n : Nat) (f : Tile → Tile) : (updTile w n f).ats = w.ats := rfl
@[simp] theorem updTile_lost (w : W) (n : Nat) (f : Tile → Tile) : (updTile w n f).lost = w.lost := rfl
@[simp] theorem updTile_poison (w : W) (n : Nat) (f : Tile → Tile) : (updTile w n f).poison = w.poison := rfl
@[simp] theorem updTile_scrub (w : W) (n : Nat) (f : Tile → Tile) : (updTile w n f).scrub = w.scrub := rfl

@[simp] theorem updPort_now (w : W) (n : Nat) (f : Port → Port) : (updPort w n f).now = w.now := rfl
@[simp] theorem updPort_fresh (w : W) (n : Nat) (f : Port → Port) : (updPort w n f).fresh = w.fresh := rfl
@[simp] theorem updPort_nextCid (w : W) (n : Nat) (f : Port → Port) : (updPort w n f).nextCid = w.nextCid := rfl
@[simp] theorem updPort_nextConsort (w : W) (n : Nat) (f : Port → Port) : (updPort w n f).nextConsort = w.nextConsort := rfl
@[simp] theorem updPort_nextLaunch (w : W) (n : Nat) (f : Port → Port) : (updPort w n f).nextLaunch = w.nextLaunch := rfl
@[simp] theorem updPort_nextOp (w : W) (n : Nat) (f : Port → Port) : (updPort w n f).nextOp = w.nextOp := rfl
@[simp] theorem updPort_nextFlight (w : W) (n : Nat) (f : Port → Port) : (updPort w n f).nextFlight = w.nextFlight := rfl
@[simp] theorem updPort_nextOrder (w : W) (n : Nat) (f : Port → Port) : (updPort w n f).nextOrder = w.nextOrder := rfl
@[simp] theorem updPort_agenda (w : W) (n : Nat) (f : Port → Port) : (updPort w n f).agenda = w.agenda := rfl
@[simp] theorem updPort_wb (w : W) (n : Nat) (f : Port → Port) : (updPort w n f).wb = w.wb := rfl
@[simp] theorem updPort_replies (w : W) (n : Nat) (f : Port → Port) : (updPort w n f).replies = w.replies := rfl
@[simp] theorem updPort_hub (w : W) (n : Nat) (f : Port → Port) : (updPort w n f).hub = w.hub := rfl
@[simp] theorem updPort_sec (w : W) (n : Nat) (f : Port → Port) : (updPort w n f).sec = w.sec := rfl
@[simp] theorem updPort_fns (w : W) (n : Nat) (f : Port → Port) : (updPort w n f).fns = w.fns := rfl
@[simp] theorem updPort_parts (w : W) (n : Nat) (f : Port → Port) : (updPort w n f).parts = w.parts := rfl
@[simp] theorem updPort_cores (w : W) (n : Nat) (f : Port → Port) : (updPort w n f).cores = w.cores := rfl
@[simp] theorem updPort_quads (w : W) (n : Nat) (f : Port → Port) : (updPort w n f).quads = w.quads := rfl
@[simp] theorem updPort_tiles (w : W) (n : Nat) (f : Port → Port) : (updPort w n f).tiles = w.tiles := rfl
@[simp] theorem updPort_ports (w : W) (n : Nat) (f : Port → Port) : (updPort w n f).ports = tPut w.ports n (f (port w n)) := rfl
@[simp] theorem updPort_disps (w : W) (n : Nat) (f : Port → Port) : (updPort w n f).disps = w.disps := rfl
@[simp] theorem updPort_launches (w : W) (n : Nat) (f : Port → Port) : (updPort w n f).launches = w.launches := rfl
@[simp] theorem updPort_consorts (w : W) (n : Nat) (f : Port → Port) : (updPort w n f).consorts = w.consorts := rfl
@[simp] theorem updPort_courses (w : W) (n : Nat) (f : Port → Port) : (updPort w n f).courses = w.courses := rfl
@[simp] theorem updPort_ops (w : W) (n : Nat) (f : Port → Port) : (updPort w n f).ops = w.ops := rfl
@[simp] theorem updPort_flights (w : W) (n : Nat) (f : Port → Port) : (updPort w n f).flights = w.flights := rfl
@[simp] theorem updPort_tlb (w : W) (n : Nat) (f : Port → Port) : (updPort w n f).tlb = w.tlb := rfl
@[simp] theorem updPort_invals (w : W) (n : Nat) (f : Port → Port) : (updPort w n f).invals = w.invals := rfl
@[simp] theorem updPort_ats (w : W) (n : Nat) (f : Port → Port) : (updPort w n f).ats = w.ats := rfl
@[simp] theorem updPort_lost (w : W) (n : Nat) (f : Port → Port) : (updPort w n f).lost = w.lost := rfl
@[simp] theorem updPort_poison (w : W) (n : Nat) (f : Port → Port) : (updPort w n f).poison = w.poison := rfl
@[simp] theorem updPort_scrub (w : W) (n : Nat) (f : Port → Port) : (updPort w n f).scrub = w.scrub := rfl

@[simp] theorem updDisp_now (w : W) (n : Nat) (f : Disp → Disp) : (updDisp w n f).now = w.now := rfl
@[simp] theorem updDisp_fresh (w : W) (n : Nat) (f : Disp → Disp) : (updDisp w n f).fresh = w.fresh := rfl
@[simp] theorem updDisp_nextCid (w : W) (n : Nat) (f : Disp → Disp) : (updDisp w n f).nextCid = w.nextCid := rfl
@[simp] theorem updDisp_nextConsort (w : W) (n : Nat) (f : Disp → Disp) : (updDisp w n f).nextConsort = w.nextConsort := rfl
@[simp] theorem updDisp_nextLaunch (w : W) (n : Nat) (f : Disp → Disp) : (updDisp w n f).nextLaunch = w.nextLaunch := rfl
@[simp] theorem updDisp_nextOp (w : W) (n : Nat) (f : Disp → Disp) : (updDisp w n f).nextOp = w.nextOp := rfl
@[simp] theorem updDisp_nextFlight (w : W) (n : Nat) (f : Disp → Disp) : (updDisp w n f).nextFlight = w.nextFlight := rfl
@[simp] theorem updDisp_nextOrder (w : W) (n : Nat) (f : Disp → Disp) : (updDisp w n f).nextOrder = w.nextOrder := rfl
@[simp] theorem updDisp_agenda (w : W) (n : Nat) (f : Disp → Disp) : (updDisp w n f).agenda = w.agenda := rfl
@[simp] theorem updDisp_wb (w : W) (n : Nat) (f : Disp → Disp) : (updDisp w n f).wb = w.wb := rfl
@[simp] theorem updDisp_replies (w : W) (n : Nat) (f : Disp → Disp) : (updDisp w n f).replies = w.replies := rfl
@[simp] theorem updDisp_hub (w : W) (n : Nat) (f : Disp → Disp) : (updDisp w n f).hub = w.hub := rfl
@[simp] theorem updDisp_sec (w : W) (n : Nat) (f : Disp → Disp) : (updDisp w n f).sec = w.sec := rfl
@[simp] theorem updDisp_fns (w : W) (n : Nat) (f : Disp → Disp) : (updDisp w n f).fns = w.fns := rfl
@[simp] theorem updDisp_parts (w : W) (n : Nat) (f : Disp → Disp) : (updDisp w n f).parts = w.parts := rfl
@[simp] theorem updDisp_cores (w : W) (n : Nat) (f : Disp → Disp) : (updDisp w n f).cores = w.cores := rfl
@[simp] theorem updDisp_quads (w : W) (n : Nat) (f : Disp → Disp) : (updDisp w n f).quads = w.quads := rfl
@[simp] theorem updDisp_tiles (w : W) (n : Nat) (f : Disp → Disp) : (updDisp w n f).tiles = w.tiles := rfl
@[simp] theorem updDisp_ports (w : W) (n : Nat) (f : Disp → Disp) : (updDisp w n f).ports = w.ports := rfl
@[simp] theorem updDisp_disps (w : W) (n : Nat) (f : Disp → Disp) : (updDisp w n f).disps = tPut w.disps n (f (disp w n)) := rfl
@[simp] theorem updDisp_launches (w : W) (n : Nat) (f : Disp → Disp) : (updDisp w n f).launches = w.launches := rfl
@[simp] theorem updDisp_consorts (w : W) (n : Nat) (f : Disp → Disp) : (updDisp w n f).consorts = w.consorts := rfl
@[simp] theorem updDisp_courses (w : W) (n : Nat) (f : Disp → Disp) : (updDisp w n f).courses = w.courses := rfl
@[simp] theorem updDisp_ops (w : W) (n : Nat) (f : Disp → Disp) : (updDisp w n f).ops = w.ops := rfl
@[simp] theorem updDisp_flights (w : W) (n : Nat) (f : Disp → Disp) : (updDisp w n f).flights = w.flights := rfl
@[simp] theorem updDisp_tlb (w : W) (n : Nat) (f : Disp → Disp) : (updDisp w n f).tlb = w.tlb := rfl
@[simp] theorem updDisp_invals (w : W) (n : Nat) (f : Disp → Disp) : (updDisp w n f).invals = w.invals := rfl
@[simp] theorem updDisp_ats (w : W) (n : Nat) (f : Disp → Disp) : (updDisp w n f).ats = w.ats := rfl
@[simp] theorem updDisp_lost (w : W) (n : Nat) (f : Disp → Disp) : (updDisp w n f).lost = w.lost := rfl
@[simp] theorem updDisp_poison (w : W) (n : Nat) (f : Disp → Disp) : (updDisp w n f).poison = w.poison := rfl
@[simp] theorem updDisp_scrub (w : W) (n : Nat) (f : Disp → Disp) : (updDisp w n f).scrub = w.scrub := rfl

/-! Writes gathered. -/

@[simp] theorem wrB_now (w : W) (a : Nat) (v : Byte) : (wrB w a v).now = w.now := rfl
@[simp] theorem wrB_fresh (w : W) (a : Nat) (v : Byte) : (wrB w a v).fresh = w.fresh := rfl
@[simp] theorem wrB_nextCid (w : W) (a : Nat) (v : Byte) : (wrB w a v).nextCid = w.nextCid := rfl
@[simp] theorem wrB_nextConsort (w : W) (a : Nat) (v : Byte) : (wrB w a v).nextConsort = w.nextConsort := rfl
@[simp] theorem wrB_nextLaunch (w : W) (a : Nat) (v : Byte) : (wrB w a v).nextLaunch = w.nextLaunch := rfl
@[simp] theorem wrB_nextOp (w : W) (a : Nat) (v : Byte) : (wrB w a v).nextOp = w.nextOp := rfl
@[simp] theorem wrB_nextFlight (w : W) (a : Nat) (v : Byte) : (wrB w a v).nextFlight = w.nextFlight := rfl
@[simp] theorem wrB_nextOrder (w : W) (a : Nat) (v : Byte) : (wrB w a v).nextOrder = w.nextOrder := rfl
@[simp] theorem wrB_agenda (w : W) (a : Nat) (v : Byte) : (wrB w a v).agenda = w.agenda := rfl
@[simp] theorem wrB_wb (w : W) (a : Nat) (v : Byte) : (wrB w a v).wb = .byte a v :: w.wb := rfl
@[simp] theorem wrB_replies (w : W) (a : Nat) (v : Byte) : (wrB w a v).replies = w.replies := rfl
@[simp] theorem wrB_hub (w : W) (a : Nat) (v : Byte) : (wrB w a v).hub = w.hub := rfl
@[simp] theorem wrB_sec (w : W) (a : Nat) (v : Byte) : (wrB w a v).sec = w.sec := rfl
@[simp] theorem wrB_fns (w : W) (a : Nat) (v : Byte) : (wrB w a v).fns = w.fns := rfl
@[simp] theorem wrB_parts (w : W) (a : Nat) (v : Byte) : (wrB w a v).parts = w.parts := rfl
@[simp] theorem wrB_cores (w : W) (a : Nat) (v : Byte) : (wrB w a v).cores = w.cores := rfl
@[simp] theorem wrB_quads (w : W) (a : Nat) (v : Byte) : (wrB w a v).quads = w.quads := rfl
@[simp] theorem wrB_tiles (w : W) (a : Nat) (v : Byte) : (wrB w a v).tiles = w.tiles := rfl
@[simp] theorem wrB_ports (w : W) (a : Nat) (v : Byte) : (wrB w a v).ports = w.ports := rfl
@[simp] theorem wrB_disps (w : W) (a : Nat) (v : Byte) : (wrB w a v).disps = w.disps := rfl
@[simp] theorem wrB_launches (w : W) (a : Nat) (v : Byte) : (wrB w a v).launches = w.launches := rfl
@[simp] theorem wrB_consorts (w : W) (a : Nat) (v : Byte) : (wrB w a v).consorts = w.consorts := rfl
@[simp] theorem wrB_courses (w : W) (a : Nat) (v : Byte) : (wrB w a v).courses = w.courses := rfl
@[simp] theorem wrB_ops (w : W) (a : Nat) (v : Byte) : (wrB w a v).ops = w.ops := rfl
@[simp] theorem wrB_flights (w : W) (a : Nat) (v : Byte) : (wrB w a v).flights = w.flights := rfl
@[simp] theorem wrB_tlb (w : W) (a : Nat) (v : Byte) : (wrB w a v).tlb = w.tlb := rfl
@[simp] theorem wrB_invals (w : W) (a : Nat) (v : Byte) : (wrB w a v).invals = w.invals := rfl
@[simp] theorem wrB_ats (w : W) (a : Nat) (v : Byte) : (wrB w a v).ats = w.ats := rfl
@[simp] theorem wrB_lost (w : W) (a : Nat) (v : Byte) : (wrB w a v).lost = w.lost := rfl
@[simp] theorem wrB_poison (w : W) (a : Nat) (v : Byte) : (wrB w a v).poison = w.poison := rfl
@[simp] theorem wrB_scrub (w : W) (a : Nat) (v : Byte) : (wrB w a v).scrub = w.scrub := rfl

@[simp] theorem wrClear_now (w : W) (a n : Nat) : (wrClear w a n).now = w.now := rfl
@[simp] theorem wrClear_fresh (w : W) (a n : Nat) : (wrClear w a n).fresh = w.fresh := rfl
@[simp] theorem wrClear_nextCid (w : W) (a n : Nat) : (wrClear w a n).nextCid = w.nextCid := rfl
@[simp] theorem wrClear_nextConsort (w : W) (a n : Nat) : (wrClear w a n).nextConsort = w.nextConsort := rfl
@[simp] theorem wrClear_nextLaunch (w : W) (a n : Nat) : (wrClear w a n).nextLaunch = w.nextLaunch := rfl
@[simp] theorem wrClear_nextOp (w : W) (a n : Nat) : (wrClear w a n).nextOp = w.nextOp := rfl
@[simp] theorem wrClear_nextFlight (w : W) (a n : Nat) : (wrClear w a n).nextFlight = w.nextFlight := rfl
@[simp] theorem wrClear_nextOrder (w : W) (a n : Nat) : (wrClear w a n).nextOrder = w.nextOrder := rfl
@[simp] theorem wrClear_agenda (w : W) (a n : Nat) : (wrClear w a n).agenda = w.agenda := rfl
@[simp] theorem wrClear_wb (w : W) (a n : Nat) : (wrClear w a n).wb = .clear a n :: w.wb := rfl
@[simp] theorem wrClear_replies (w : W) (a n : Nat) : (wrClear w a n).replies = w.replies := rfl
@[simp] theorem wrClear_hub (w : W) (a n : Nat) : (wrClear w a n).hub = w.hub := rfl
@[simp] theorem wrClear_sec (w : W) (a n : Nat) : (wrClear w a n).sec = w.sec := rfl
@[simp] theorem wrClear_fns (w : W) (a n : Nat) : (wrClear w a n).fns = w.fns := rfl
@[simp] theorem wrClear_parts (w : W) (a n : Nat) : (wrClear w a n).parts = w.parts := rfl
@[simp] theorem wrClear_cores (w : W) (a n : Nat) : (wrClear w a n).cores = w.cores := rfl
@[simp] theorem wrClear_quads (w : W) (a n : Nat) : (wrClear w a n).quads = w.quads := rfl
@[simp] theorem wrClear_tiles (w : W) (a n : Nat) : (wrClear w a n).tiles = w.tiles := rfl
@[simp] theorem wrClear_ports (w : W) (a n : Nat) : (wrClear w a n).ports = w.ports := rfl
@[simp] theorem wrClear_disps (w : W) (a n : Nat) : (wrClear w a n).disps = w.disps := rfl
@[simp] theorem wrClear_launches (w : W) (a n : Nat) : (wrClear w a n).launches = w.launches := rfl
@[simp] theorem wrClear_consorts (w : W) (a n : Nat) : (wrClear w a n).consorts = w.consorts := rfl
@[simp] theorem wrClear_courses (w : W) (a n : Nat) : (wrClear w a n).courses = w.courses := rfl
@[simp] theorem wrClear_ops (w : W) (a n : Nat) : (wrClear w a n).ops = w.ops := rfl
@[simp] theorem wrClear_flights (w : W) (a n : Nat) : (wrClear w a n).flights = w.flights := rfl
@[simp] theorem wrClear_tlb (w : W) (a n : Nat) : (wrClear w a n).tlb = w.tlb := rfl
@[simp] theorem wrClear_invals (w : W) (a n : Nat) : (wrClear w a n).invals = w.invals := rfl
@[simp] theorem wrClear_ats (w : W) (a n : Nat) : (wrClear w a n).ats = w.ats := rfl
@[simp] theorem wrClear_lost (w : W) (a n : Nat) : (wrClear w a n).lost = w.lost := rfl
@[simp] theorem wrClear_poison (w : W) (a n : Nat) : (wrClear w a n).poison = w.poison := rfl
@[simp] theorem wrClear_scrub (w : W) (a n : Nat) : (wrClear w a n).scrub = w.scrub := rfl

/-! Registers of a course: what each write leaves of its parts. -/

@[simp] theorem putS_id (c : Course) (i : Nat) (v : Word) : (putS c i v).id = c.id := rfl
@[simp] theorem putS_v (c : Course) (i : Nat) (v : Word) : (putS c i v).v = c.v := rfl
@[simp] theorem putS_w (c : Course) (i : Nat) (v : Word) : (putS c i v).w = c.w := rfl
@[simp] theorem putS_k (c : Course) (i : Nat) (v : Word) : (putS c i v).k = c.k := rfl
@[simp] theorem putS_r_p (c : Course) (i : Nat) (v : Word) : (putS c i v).r.p = c.r.p := rfl
@[simp] theorem putS_r_q (c : Course) (i : Nat) (v : Word) : (putS c i v).r.q = c.r.q := rfl
@[simp] theorem putS_r_lpc (c : Course) (i : Nat) (v : Word) : (putS c i v).r.lpc = c.r.lpc := rfl
@[simp] theorem putS_r_status (c : Course) (i : Nat) (v : Word) : (putS c i v).r.status = c.r.status := rfl
@[simp] theorem putS_r_d (c : Course) (i : Nat) (v : Word) : (putS c i v).r.d = c.r.d := rfl
@[simp] theorem putS_r_a (c : Course) (i : Nat) (v : Word) : (putS c i v).r.a = c.r.a := rfl
@[simp] theorem putS_r_tl (c : Course) (i : Nat) (v : Word) : (putS c i v).r.tl = c.r.tl := rfl
@[simp] theorem putS_r_slots (c : Course) (i : Nat) (v : Word) : (putS c i v).r.slots = c.r.slots := rfl

@[simp] theorem setLpcs_id (c : Course) (m : Mask) (f : Nat → Word) : (setLpcs c m f).id = c.id := rfl
@[simp] theorem setLpcs_v (c : Course) (m : Mask) (f : Nat → Word) : (setLpcs c m f).v = c.v := rfl
@[simp] theorem setLpcs_w (c : Course) (m : Mask) (f : Nat → Word) : (setLpcs c m f).w = c.w := rfl
@[simp] theorem setLpcs_k (c : Course) (m : Mask) (f : Nat → Word) : (setLpcs c m f).k = c.k := rfl
@[simp] theorem setLpcs_r_s (c : Course) (m : Mask) (f : Nat → Word) : (setLpcs c m f).r.s = c.r.s := rfl
@[simp] theorem setLpcs_r_p (c : Course) (m : Mask) (f : Nat → Word) : (setLpcs c m f).r.p = c.r.p := rfl
@[simp] theorem setLpcs_r_q (c : Course) (m : Mask) (f : Nat → Word) : (setLpcs c m f).r.q = c.r.q := rfl
@[simp] theorem setLpcs_r_status (c : Course) (m : Mask) (f : Nat → Word) : (setLpcs c m f).r.status = c.r.status := rfl
@[simp] theorem setLpcs_r_d (c : Course) (m : Mask) (f : Nat → Word) : (setLpcs c m f).r.d = c.r.d := rfl
@[simp] theorem setLpcs_r_a (c : Course) (m : Mask) (f : Nat → Word) : (setLpcs c m f).r.a = c.r.a := rfl
@[simp] theorem setLpcs_r_tl (c : Course) (m : Mask) (f : Nat → Word) : (setLpcs c m f).r.tl = c.r.tl := rfl
@[simp] theorem setLpcs_r_slots (c : Course) (m : Mask) (f : Nat → Word) : (setLpcs c m f).r.slots = c.r.slots := rfl

@[simp] theorem advance_id (c : Course) (m : Mask) (n : Nat) : (advance c m n).id = c.id := rfl
@[simp] theorem advance_v (c : Course) (m : Mask) (n : Nat) : (advance c m n).v = c.v := rfl
@[simp] theorem advance_w (c : Course) (m : Mask) (n : Nat) : (advance c m n).w = c.w := rfl
@[simp] theorem advance_k (c : Course) (m : Mask) (n : Nat) : (advance c m n).k = c.k := rfl
@[simp] theorem advance_r_s (c : Course) (m : Mask) (n : Nat) : (advance c m n).r.s = c.r.s := rfl
@[simp] theorem advance_r_p (c : Course) (m : Mask) (n : Nat) : (advance c m n).r.p = c.r.p := rfl
@[simp] theorem advance_r_q (c : Course) (m : Mask) (n : Nat) : (advance c m n).r.q = c.r.q := rfl
@[simp] theorem advance_r_status (c : Course) (m : Mask) (n : Nat) : (advance c m n).r.status = c.r.status := rfl
@[simp] theorem advance_r_d (c : Course) (m : Mask) (n : Nat) : (advance c m n).r.d = c.r.d := rfl
@[simp] theorem advance_r_a (c : Course) (m : Mask) (n : Nat) : (advance c m n).r.a = c.r.a := rfl
@[simp] theorem advance_r_tl (c : Course) (m : Mask) (n : Nat) : (advance c m n).r.tl = c.r.tl := rfl
@[simp] theorem advance_r_slots (c : Course) (m : Mask) (n : Nat) : (advance c m n).r.slots = c.r.slots := rfl

@[simp] theorem setSlotF_id (c : Course) (s lo n v : Nat) : (setSlotF c s lo n v).id = c.id := rfl
@[simp] theorem setSlotF_v (c : Course) (s lo n v : Nat) : (setSlotF c s lo n v).v = c.v := rfl
@[simp] theorem setSlotF_w (c : Course) (s lo n v : Nat) : (setSlotF c s lo n v).w = c.w := rfl
@[simp] theorem setSlotF_k (c : Course) (s lo n v : Nat) : (setSlotF c s lo n v).k = c.k := rfl
@[simp] theorem setSlotF_r_s (c : Course) (s lo n v : Nat) : (setSlotF c s lo n v).r.s = c.r.s := rfl
@[simp] theorem setSlotF_r_p (c : Course) (s lo n v : Nat) : (setSlotF c s lo n v).r.p = c.r.p := rfl
@[simp] theorem setSlotF_r_q (c : Course) (s lo n v : Nat) : (setSlotF c s lo n v).r.q = c.r.q := rfl
@[simp] theorem setSlotF_r_lpc (c : Course) (s lo n v : Nat) : (setSlotF c s lo n v).r.lpc = c.r.lpc := rfl
@[simp] theorem setSlotF_r_status (c : Course) (s lo n v : Nat) : (setSlotF c s lo n v).r.status = c.r.status := rfl
@[simp] theorem setSlotF_r_d (c : Course) (s lo n v : Nat) : (setSlotF c s lo n v).r.d = c.r.d := rfl
@[simp] theorem setSlotF_r_a (c : Course) (s lo n v : Nat) : (setSlotF c s lo n v).r.a = c.r.a := rfl
@[simp] theorem setSlotF_r_tl (c : Course) (s lo n v : Nat) : (setSlotF c s lo n v).r.tl = c.r.tl := rfl

@[simp] theorem putD256_id (c : Course) (i : Nat) (v : BitVec 256) : (putD256 c i v).id = c.id := rfl
@[simp] theorem putD256_v (c : Course) (i : Nat) (v : BitVec 256) : (putD256 c i v).v = c.v := rfl
@[simp] theorem putD256_w (c : Course) (i : Nat) (v : BitVec 256) : (putD256 c i v).w = c.w := rfl
@[simp] theorem putD256_k (c : Course) (i : Nat) (v : BitVec 256) : (putD256 c i v).k = c.k := rfl
@[simp] theorem putD256_r_s (c : Course) (i : Nat) (v : BitVec 256) : (putD256 c i v).r.s = c.r.s := rfl
@[simp] theorem putD256_r_p (c : Course) (i : Nat) (v : BitVec 256) : (putD256 c i v).r.p = c.r.p := rfl
@[simp] theorem putD256_r_q (c : Course) (i : Nat) (v : BitVec 256) : (putD256 c i v).r.q = c.r.q := rfl
@[simp] theorem putD256_r_lpc (c : Course) (i : Nat) (v : BitVec 256) : (putD256 c i v).r.lpc = c.r.lpc := rfl
@[simp] theorem putD256_r_status (c : Course) (i : Nat) (v : BitVec 256) : (putD256 c i v).r.status = c.r.status := rfl
@[simp] theorem putD256_r_a (c : Course) (i : Nat) (v : BitVec 256) : (putD256 c i v).r.a = c.r.a := rfl
@[simp] theorem putD256_r_tl (c : Course) (i : Nat) (v : BitVec 256) : (putD256 c i v).r.tl = c.r.tl := rfl
@[simp] theorem putD256_r_slots (c : Course) (i : Nat) (v : BitVec 256) : (putD256 c i v).r.slots = c.r.slots := rfl

@[simp] theorem putA_id (c : Course) (i : Nat) (v : BitVec 128) : (putA c i v).id = c.id := rfl
@[simp] theorem putA_v (c : Course) (i : Nat) (v : BitVec 128) : (putA c i v).v = c.v := rfl
@[simp] theorem putA_w (c : Course) (i : Nat) (v : BitVec 128) : (putA c i v).w = c.w := rfl
@[simp] theorem putA_k (c : Course) (i : Nat) (v : BitVec 128) : (putA c i v).k = c.k := rfl
@[simp] theorem putA_r_s (c : Course) (i : Nat) (v : BitVec 128) : (putA c i v).r.s = c.r.s := rfl
@[simp] theorem putA_r_p (c : Course) (i : Nat) (v : BitVec 128) : (putA c i v).r.p = c.r.p := rfl
@[simp] theorem putA_r_q (c : Course) (i : Nat) (v : BitVec 128) : (putA c i v).r.q = c.r.q := rfl
@[simp] theorem putA_r_lpc (c : Course) (i : Nat) (v : BitVec 128) : (putA c i v).r.lpc = c.r.lpc := rfl
@[simp] theorem putA_r_status (c : Course) (i : Nat) (v : BitVec 128) : (putA c i v).r.status = c.r.status := rfl
@[simp] theorem putA_r_d (c : Course) (i : Nat) (v : BitVec 128) : (putA c i v).r.d = c.r.d := rfl
@[simp] theorem putA_r_tl (c : Course) (i : Nat) (v : BitVec 128) : (putA c i v).r.tl = c.r.tl := rfl
@[simp] theorem putA_r_slots (c : Course) (i : Nat) (v : BitVec 128) : (putA c i v).r.slots = c.r.slots := rfl

@[simp] theorem putTL_id (c : Course) (i : Nat) (v : BitVec 64) : (putTL c i v).id = c.id := rfl
@[simp] theorem putTL_v (c : Course) (i : Nat) (v : BitVec 64) : (putTL c i v).v = c.v := rfl
@[simp] theorem putTL_w (c : Course) (i : Nat) (v : BitVec 64) : (putTL c i v).w = c.w := rfl
@[simp] theorem putTL_k (c : Course) (i : Nat) (v : BitVec 64) : (putTL c i v).k = c.k := rfl
@[simp] theorem putTL_r_s (c : Course) (i : Nat) (v : BitVec 64) : (putTL c i v).r.s = c.r.s := rfl
@[simp] theorem putTL_r_p (c : Course) (i : Nat) (v : BitVec 64) : (putTL c i v).r.p = c.r.p := rfl
@[simp] theorem putTL_r_q (c : Course) (i : Nat) (v : BitVec 64) : (putTL c i v).r.q = c.r.q := rfl
@[simp] theorem putTL_r_lpc (c : Course) (i : Nat) (v : BitVec 64) : (putTL c i v).r.lpc = c.r.lpc := rfl
@[simp] theorem putTL_r_status (c : Course) (i : Nat) (v : BitVec 64) : (putTL c i v).r.status = c.r.status := rfl
@[simp] theorem putTL_r_d (c : Course) (i : Nat) (v : BitVec 64) : (putTL c i v).r.d = c.r.d := rfl
@[simp] theorem putTL_r_a (c : Course) (i : Nat) (v : BitVec 64) : (putTL c i v).r.a = c.r.a := rfl
@[simp] theorem putTL_r_slots (c : Course) (i : Nat) (v : BitVec 64) : (putTL c i v).r.slots = c.r.slots := rfl

@[simp] theorem setLaneSt_id (c : Course) (n v : Nat) : (setLaneSt c n v).id = c.id := rfl
@[simp] theorem setLaneSt_v (c : Course) (n v : Nat) : (setLaneSt c n v).v = c.v := rfl
@[simp] theorem setLaneSt_w (c : Course) (n v : Nat) : (setLaneSt c n v).w = c.w := rfl
@[simp] theorem setLaneSt_k (c : Course) (n v : Nat) : (setLaneSt c n v).k = c.k := rfl
@[simp] theorem setLaneSt_r_s (c : Course) (n v : Nat) : (setLaneSt c n v).r.s = c.r.s := rfl
@[simp] theorem setLaneSt_r_p (c : Course) (n v : Nat) : (setLaneSt c n v).r.p = c.r.p := rfl
@[simp] theorem setLaneSt_r_q (c : Course) (n v : Nat) : (setLaneSt c n v).r.q = c.r.q := rfl
@[simp] theorem setLaneSt_r_lpc (c : Course) (n v : Nat) : (setLaneSt c n v).r.lpc = c.r.lpc := rfl
@[simp] theorem setLaneSt_r_d (c : Course) (n v : Nat) : (setLaneSt c n v).r.d = c.r.d := rfl
@[simp] theorem setLaneSt_r_a (c : Course) (n v : Nat) : (setLaneSt c n v).r.a = c.r.a := rfl
@[simp] theorem setLaneSt_r_tl (c : Course) (n v : Nat) : (setLaneSt c n v).r.tl = c.r.tl := rfl
@[simp] theorem setLaneSt_r_slots (c : Course) (n v : Nat) : (setLaneSt c n v).r.slots = c.r.slots := rfl

@[simp] theorem putP_id (c : Course) (i : Nat) (m b : Mask) : (putP c i m b).id = c.id := by unfold putP; split <;> rfl
@[simp] theorem putP_w (c : Course) (i : Nat) (m b : Mask) : (putP c i m b).w = c.w := by unfold putP; split <;> rfl
@[simp] theorem putP_k (c : Course) (i : Nat) (m b : Mask) : (putP c i m b).k = c.k := by unfold putP; split <;> rfl
@[simp] theorem putP_v (c : Course) (i : Nat) (m b : Mask) : (putP c i m b).v = c.v := by unfold putP; split <;> rfl
@[simp] theorem putP_r_s (c : Course) (i : Nat) (m b : Mask) : (putP c i m b).r.s = c.r.s := by unfold putP; split <;> rfl
@[simp] theorem putP_r_q (c : Course) (i : Nat) (m b : Mask) : (putP c i m b).r.q = c.r.q := by unfold putP; split <;> rfl
@[simp] theorem putP_r_lpc (c : Course) (i : Nat) (m b : Mask) : (putP c i m b).r.lpc = c.r.lpc := by unfold putP; split <;> rfl
@[simp] theorem putP_r_status (c : Course) (i : Nat) (m b : Mask) : (putP c i m b).r.status = c.r.status := by unfold putP; split <;> rfl
@[simp] theorem putP_r_d (c : Course) (i : Nat) (m b : Mask) : (putP c i m b).r.d = c.r.d := by unfold putP; split <;> rfl
@[simp] theorem putP_r_a (c : Course) (i : Nat) (m b : Mask) : (putP c i m b).r.a = c.r.a := by unfold putP; split <;> rfl
@[simp] theorem putP_r_tl (c : Course) (i : Nat) (m b : Mask) : (putP c i m b).r.tl = c.r.tl := by unfold putP; split <;> rfl
@[simp] theorem putP_r_slots (c : Course) (i : Nat) (m b : Mask) : (putP c i m b).r.slots = c.r.slots := by unfold putP; split <;> rfl

@[simp] theorem putQ_id (c : Course) (i : Nat) (b : Bool) : (putQ c i b).id = c.id := by unfold putQ; split <;> rfl
@[simp] theorem putQ_w (c : Course) (i : Nat) (b : Bool) : (putQ c i b).w = c.w := by unfold putQ; split <;> rfl
@[simp] theorem putQ_k (c : Course) (i : Nat) (b : Bool) : (putQ c i b).k = c.k := by unfold putQ; split <;> rfl
@[simp] theorem putQ_v (c : Course) (i : Nat) (b : Bool) : (putQ c i b).v = c.v := by unfold putQ; split <;> rfl
@[simp] theorem putQ_r_s (c : Course) (i : Nat) (b : Bool) : (putQ c i b).r.s = c.r.s := by unfold putQ; split <;> rfl
@[simp] theorem putQ_r_p (c : Course) (i : Nat) (b : Bool) : (putQ c i b).r.p = c.r.p := by unfold putQ; split <;> rfl
@[simp] theorem putQ_r_lpc (c : Course) (i : Nat) (b : Bool) : (putQ c i b).r.lpc = c.r.lpc := by unfold putQ; split <;> rfl
@[simp] theorem putQ_r_status (c : Course) (i : Nat) (b : Bool) : (putQ c i b).r.status = c.r.status := by unfold putQ; split <;> rfl
@[simp] theorem putQ_r_d (c : Course) (i : Nat) (b : Bool) : (putQ c i b).r.d = c.r.d := by unfold putQ; split <;> rfl
@[simp] theorem putQ_r_a (c : Course) (i : Nat) (b : Bool) : (putQ c i b).r.a = c.r.a := by unfold putQ; split <;> rfl
@[simp] theorem putQ_r_tl (c : Course) (i : Nat) (b : Bool) : (putQ c i b).r.tl = c.r.tl := by unfold putQ; split <;> rfl
@[simp] theorem putQ_r_slots (c : Course) (i : Nat) (b : Bool) : (putQ c i b).r.slots = c.r.slots := by unfold putQ; split <;> rfl

@[simp] theorem putV_id (c : Course) (r : Nat) (m : Mask) (l : Line) : (putV c r m l).id = c.id := by unfold putV; split <;> rfl
@[simp] theorem putV_w (c : Course) (r : Nat) (m : Mask) (l : Line) : (putV c r m l).w = c.w := by unfold putV; split <;> rfl
@[simp] theorem putV_k (c : Course) (r : Nat) (m : Mask) (l : Line) : (putV c r m l).k = c.k := by unfold putV; split <;> rfl
@[simp] theorem putV_r_s (c : Course) (r : Nat) (m : Mask) (l : Line) : (putV c r m l).r.s = c.r.s := by unfold putV; split <;> rfl
@[simp] theorem putV_r_p (c : Course) (r : Nat) (m : Mask) (l : Line) : (putV c r m l).r.p = c.r.p := by unfold putV; split <;> rfl
@[simp] theorem putV_r_q (c : Course) (r : Nat) (m : Mask) (l : Line) : (putV c r m l).r.q = c.r.q := by unfold putV; split <;> rfl
@[simp] theorem putV_r_lpc (c : Course) (r : Nat) (m : Mask) (l : Line) : (putV c r m l).r.lpc = c.r.lpc := by unfold putV; split <;> rfl
@[simp] theorem putV_r_status (c : Course) (r : Nat) (m : Mask) (l : Line) : (putV c r m l).r.status = c.r.status := by unfold putV; split <;> rfl
@[simp] theorem putV_r_d (c : Course) (r : Nat) (m : Mask) (l : Line) : (putV c r m l).r.d = c.r.d := by unfold putV; split <;> rfl
@[simp] theorem putV_r_a (c : Course) (r : Nat) (m : Mask) (l : Line) : (putV c r m l).r.a = c.r.a := by unfold putV; split <;> rfl
@[simp] theorem putV_r_tl (c : Course) (r : Nat) (m : Mask) (l : Line) : (putV c r m l).r.tl = c.r.tl := by unfold putV; split <;> rfl
@[simp] theorem putV_r_slots (c : Course) (r : Nat) (m : Mask) (l : Line) : (putV c r m l).r.slots = c.r.slots := by unfold putV; split <;> rfl

@[simp] theorem orFlags_id (c : Course) (s x : Nat) : (orFlags c s x).id = c.id := by unfold orFlags; split <;> rfl
@[simp] theorem orFlags_w (c : Course) (s x : Nat) : (orFlags c s x).w = c.w := by unfold orFlags; split <;> rfl
@[simp] theorem orFlags_k (c : Course) (s x : Nat) : (orFlags c s x).k = c.k := by unfold orFlags; split <;> rfl
@[simp] theorem orFlags_v (c : Course) (s x : Nat) : (orFlags c s x).v = c.v := by unfold orFlags; split <;> rfl
@[simp] theorem orFlags_r_s (c : Course) (s x : Nat) : (orFlags c s x).r.s = c.r.s := by unfold orFlags; split <;> rfl
@[simp] theorem orFlags_r_p (c : Course) (s x : Nat) : (orFlags c s x).r.p = c.r.p := by unfold orFlags; split <;> rfl
@[simp] theorem orFlags_r_q (c : Course) (s x : Nat) : (orFlags c s x).r.q = c.r.q := by unfold orFlags; split <;> rfl
@[simp] theorem orFlags_r_lpc (c : Course) (s x : Nat) : (orFlags c s x).r.lpc = c.r.lpc := by unfold orFlags; split <;> rfl
@[simp] theorem orFlags_r_status (c : Course) (s x : Nat) : (orFlags c s x).r.status = c.r.status := by unfold orFlags; split <;> rfl
@[simp] theorem orFlags_r_d (c : Course) (s x : Nat) : (orFlags c s x).r.d = c.r.d := by unfold orFlags; split <;> rfl
@[simp] theorem orFlags_r_a (c : Course) (s x : Nat) : (orFlags c s x).r.a = c.r.a := by unfold orFlags; split <;> rfl
@[simp] theorem orFlags_r_tl (c : Course) (s x : Nat) : (orFlags c s x).r.tl = c.r.tl := by unfold orFlags; split <;> rfl

@[simp] theorem takeEntries_id (c : Course) (n : Nat) : (takeEntries c n).id = c.id := rfl
@[simp] theorem takeEntries_r (c : Course) (n : Nat) : (takeEntries c n).r = c.r := rfl
@[simp] theorem takeEntries_v (c : Course) (n : Nat) : (takeEntries c n).v = c.v := rfl
@[simp] theorem takeEntries_k (c : Course) (n : Nat) : (takeEntries c n).k = c.k := rfl
@[simp] theorem takeEntries_used (c : Course) (n : Nat) : (takeEntries c n).w.used = c.w.used + n := rfl
@[simp] theorem takeEntries_buf (c : Course) (n : Nat) : (takeEntries c n).w.buf = c.w.buf := rfl

end Sys2Proof.Machine
end

