-- ==== Sys2Proof/Laws/Issue.lean ====
section
/-! SUPPORT. Laws of issue: what an issue selects, what the checks leave, what every issue settles. -/

namespace Sys2Proof.Machine

/-! What is selected (R144). -/

theorem choose_mem {l : List Cand} {x : Cand} (h : choose l = some x) : x ∈ l := by
  induction l generalizing x with
  | nil => simp [choose] at h
  | cons y r ih =>
    simp only [choose] at h
    cases hr : choose r with
    | none =>
      rw [hr] at h
      simp only [Option.some.injEq] at h
      simp [h]
    | some z =>
      rw [hr] at h
      simp only at h
      split at h
      · simp only [Option.some.injEq] at h; subst h; exact List.mem_cons_of_mem _ (ih hr)
      · simp only [Option.some.injEq] at h; simp [h]

/-- An issue is the pick of a course that may issue. -/
theorem issueOf_go {e : Env} {w : W} {x : Sel} (h : issueOf e w = .go x) :
    ∃ n c, (n, c) ∈ w.courses ∧ canIssue c = true ∧ pick e w c = .go x := by
  simp only [issueOf] at h
  split at h
  · rename_i y hy
    have hm := List.mem_filter.mp (choose_mem hy) |>.1
    simp only [candidates, List.mem_filterMap] at hm
    obtain ⟨⟨n, c⟩, hc, hf⟩ := hm
    refine ⟨n, c, hc, ?_⟩
    simp only at hf
    split at hf
    · rename_i hci
      refine ⟨hci, ?_⟩
      split at hf
      · simp at hf
      · rename_i s hs
        simp only [Option.some.injEq] at hf
        subst hf
        simp only at h
        rw [hs, h]
      · simp only [Option.some.injEq] at hf
        subst hf
        simp at h
    · simp at hf
  · simp at h

@[simp] theorem mHas_lanesAt (c : Course) (m : Mask) (pc : Word) (k : Nat) :
    mHas (lanesAt c m pc) k = (mHas m k && lpc c k == pc) := by
  simp only [lanesAt, mHas_and, mHas_mkMask]
  by_cases hm : mHas m k = true
  · simp [hm, mHas_lt hm]
  · simp [hm]

@[simp] theorem mHas_liveM (c : Course) (k : Nat) : mHas (liveM c) k = (decide (k < 32) && laneSt c k == 1) := by
  simp [liveM, lanesSt]

theorem heldLanes_sub {e : Env} {w : W} {c : Course} {en : Mask} {k : Nat} (h : mHas (heldLanes e w c en) k = true) :
    mHas en k = true := by
  simp only [heldLanes] at h
  split at h
  · simp at h
  · rw [mHas_and] at h
    simp_all

/-- A fold that keeps the lowest of a list is one of it. -/
theorem foldl_min_mem (l : List Word) (a : Word) :
    l.foldl (fun (a : Word) b => if b < a then b else a) a = a ∨
    l.foldl (fun (a : Word) b => if b < a then b else a) a ∈ l := by
  induction l generalizing a with
  | nil => simp
  | cons b r ih =>
    simp only [List.foldl_cons]
    rcases ih (if b < a then b else a) with h | h
    · split at h
      · right; rw [if_pos ‹_›, h]; simp
      · left; rw [if_neg ‹_›, h]
    · right; simp [h]

theorem minLpc_le (l : List Word) (a : Word) :
    (l.foldl (fun (a : Word) b => if b < a then b else a) a) ≤ a ∧
    ∀ b ∈ l, (l.foldl (fun (a : Word) b => if b < a then b else a) a) ≤ b := by
  induction l generalizing a with
  | nil => simp
  | cons b r ih =>
    simp only [List.foldl_cons, List.mem_cons, forall_eq_or_imp]
    obtain ⟨h1, h2⟩ := ih (if b < a then b else a)
    refine ⟨?_, ?_, h2⟩
    · split at h1 <;> rename_i hb
      · rw [if_pos hb]; exact BitVec.le_trans h1 (BitVec.le_of_lt hb)
      · rw [if_neg hb]; exact h1
    · split at h1 <;> rename_i hb
      · rw [if_pos hb]; exact h1
      · rw [if_neg hb]; exact BitVec.le_trans h1 (BitVec.not_lt.mp hb)

/-- Some lane of a mask that is not empty stands at its lowest PC. -/
theorem exists_minLpc (c : Course) {m : Mask} (h : m ≠ 0) : ∃ k, mHas m k = true ∧ lpc c k = minLpc c m := by
  obtain ⟨k, hk⟩ := exists_mHas h
  have hl : k ∈ mLanes m := mem_mLanes.mpr hk
  rcases foldl_min_mem ((mLanes m).map (lpc c)) (BitVec.allOnes 32) with h1 | h1
  · refine ⟨k, hk, ?_⟩
    obtain ⟨_, h2⟩ := minLpc_le ((mLanes m).map (lpc c)) (BitVec.allOnes 32)
    have h3 := h2 (lpc c k) (List.mem_map_of_mem hl)
    rw [h1] at h3
    unfold minLpc
    rw [h1]
    apply BitVec.eq_of_toNat_eq
    have h4 := (lpc c k).isLt
    simp only [BitVec.le_def, BitVec.toNat_allOnes] at h3 ⊢
    omega
  · obtain ⟨j, hj, he⟩ := List.mem_map.mp h1
    exact ⟨j, mem_mLanes.mp hj, he⟩

/-- What an issue selects: lanes of its course, at least one, all live and at the issue PC. -/
theorem pick_go {e : Env} {w : W} {c : Course} {x : Sel} (h : pick e w c = .go x) :
    x.c = c ∧ x.x ≠ 0 ∧ ∀ k, mHas x.x k = true → laneSt c k = 1 ∧ lpc c k = x.pc := by
  have sub : ∀ pc k, mHas (lanesAt c (liveM c) pc) k = true → laneSt c k = 1 ∧ lpc c k = pc := by
    intro pc k hk
    simp only [mHas_lanesAt, mHas_liveM, Bool.and_eq_true, decide_eq_true_eq, beq_iff_eq] at hk
    exact ⟨hk.1.2, hk.2⟩
  have ne : ∀ k, mHas (liveM c) k = true → lanesAt c (liveM c) (lpc c k) ≠ 0 := by
    intro k hk hz
    have : mHas (lanesAt c (liveM c) (lpc c k)) k = true := by simp only [mHas_lanesAt, hk]; simp
    rw [hz] at this
    simp at this
  have freeLive : ∀ k, mHas (liveM c &&& ~~~(heldLanes e w c (liveM c))) k = true → mHas (liveM c) k = true := by
    intro k hk
    rw [mHas_and, Bool.and_eq_true] at hk
    exact hk.1
  unfold pick at h
  simp only at h
  split at h
  · rename_i t ht
    simp only [Pick.go.injEq] at h
    subst h
    refine ⟨rfl, ?_, sub _⟩
    split at ht
    · split at ht
      · rename_i hf
        simp only [Option.some.injEq] at ht
        subst ht
        exact ne _ (freeLive _ hf)
      · simp at ht
    · simp at ht
  · split at h
    · rename_i hfree
      split at h
      · rename_i k hk
        simp only [Pick.go.injEq] at h
        subst h
        have := List.mem_of_find?_eq_some hk
        exact ⟨rfl, ne _ (freeLive _ (mem_mLanes.mp this)), sub _⟩
      · simp only [Pick.go.injEq] at h
        subst h
        obtain ⟨k, hk, he⟩ := exists_minLpc c hfree
        refine ⟨rfl, ?_, sub _⟩
        simp only [← he]
        exact ne _ (freeLive _ hk)
    · split at h
      · simp at h
      · rename_i hn
        split at h
        · rename_i heq
          simp only [Pick.go.injEq] at h
          subst h
          refine ⟨rfl, fun hz => hn (Or.inl hz), ?_⟩
          intro k hk
          have h1 := heldLanes_sub hk
          rw [← heq] at hk
          simp only [mHas_lanesAt, mHas_liveM, Bool.and_eq_true, decide_eq_true_eq, beq_iff_eq] at hk h1
          exact ⟨h1.2, hk.2⟩
        · simp at h

theorem Issues.nonempty {s : State} {x : Sel} (h : Issues s x) : x.x ≠ 0 := by
  obtain ⟨n, c, _, _, hp⟩ := issueOf_go h.pick
  exact (pick_go hp).2.1

theorem Issues.live {s : State} {x : Sel} (h : Issues s x) {k : Nat} (hk : mHas x.x k = true) : laneSt x.c k = 1 := by
  obtain ⟨n, c, _, _, hp⟩ := issueOf_go h.pick
  obtain ⟨h1, _, h3⟩ := pick_go hp
  rw [h1]
  exact (h3 k hk).1

theorem Issues.at_pc {s : State} {x : Sel} (h : Issues s x) {k : Nat} (hk : mHas x.x k = true) : lpc x.c k = x.pc := by
  obtain ⟨n, c, _, _, hp⟩ := issueOf_go h.pick
  obtain ⟨h1, _, h3⟩ := pick_go hp
  rw [h1]
  exact (h3 k hk).2

theorem Issues.resident {s : State} {x : Sel} (h : Issues s x) : canIssue x.c = true := by
  obtain ⟨n, c, _, hc, hp⟩ := issueOf_go h.pick
  rw [(pick_go hp).1]
  exact hc

/-- A course whose selected lanes are live has live or parked lanes. -/
theorem liveParked_ne_zero {c : Course} {k : Nat} (hk : k < 32) (h : laneSt c k = 1) : liveParked c ≠ 0 := by
  intro hz
  have : mHas (liveParked c) k = true := by simp [liveParked, hk, h]
  rw [hz] at this
  simp at this

/-! What runs (R144, R165). -/

/-- An instruction executed where a course issues ends in the state its meaning leaves. -/
theorem runIssue_next {s : State} {x : Sel} (f : Meaning) (h : Issues s x) :
    runIssue f s = .next (commit (fun e w => f e w x) s) := by
  have hp : issueOf ⟨s.fix, s.mem⟩ s.w = .go x := h.pick
  simp only [runIssue, hp, h.shut, Bool.false_eq_true, if_false]

/-- An instruction executed where a course issues always ends in a next state. -/
theorem runIssue_go {s : State} {x : Sel} (f : Meaning) (h : issueOf s.env s.w = .go x) :
    ∃ t, runIssue f s = .next t := by
  have hp : issueOf ⟨s.fix, s.mem⟩ s.w = .go x := h
  simp only [runIssue, hp]
  exact ⟨_, rfl⟩

/-- An instruction executed where no course issues stops. -/
theorem runIssue_stop {s : State} (f : Meaning) (h : ∀ x, issueOf s.env s.w ≠ .go x) :
    runIssue f s = .fault .noIssuingCourse := by
  unfold runIssue
  split
  · rename_i x hx; exact absurd hx (h x)
  · rfl

theorem partition_none {l : List Flight} {p : Flight → Bool} (h : ∀ f ∈ l, p f = false) : l.partition p = ([], l) := by
  rw [List.partition_eq_filter_filter]
  congr 1
  · rw [List.filter_eq_nil_iff]; intro f hf; simp [h f hf]
  · rw [List.filter_eq_self]; intro f hf; simp [h f hf]

/-- A quiet marker has no result to write. -/
theorem markerV_quiet {s : State} {x : Sel} {sw : Bool} (hq : Quiet s x sw) : markerV s.w x.c sw = [] := by
  rcases hq with hq | ⟨hb, hf⟩
  · rw [hq]; rfl
  · simp only [markerV, drain, partition_none hf, List.foldl_nil, bufV, hb, List.filterMap_nil, ite_self]

/-- Room that is there is not made, and nothing waits for it (R62). -/
theorem withRoom_of_room {s : State} {x : Sel} {u : Uses} {m : Mask} (e : Env) (f : W → W) (h : Clear s x u m) :
    withRoom e s.w x.c u.d f = f s.w := by
  have h1 : roomFor e s.w x.c u.d = s.w := if_pos h.room
  have h2 : crampedLine s.w x.c u.d = none := if_pos h.room
  simp only [withRoom, h1, h2]

/-- A quiet marker awaits no line of a buffered result. -/
theorem missingLine_quiet {s : State} {x : Sel} {u : Uses} {m : Mask} {sw : Bool} (h : Clear s x u m) (hq : Quiet s x sw) :
    missingLine x.c u sw = none := by
  rcases hq with hq | hq
  · rw [hq]; exact h.lines
  · simpa [missingLine, bufV, hq.1] using h.lines

/-- What stands before the issue lets a word whose checks pass go on. -/
theorem staged_clear {s : State} {x : Sel} {u : Uses} {m : Mask} {sw : Bool} (e : Env) (f : W → W) (h : Clear s x u m)
    (hq : Quiet s x sw) : staged e s.w x u sw f = f s.w := by
  have hw : ¬ 16 < x.c.w.used + u.entries := Nat.not_lt.mpr h.window
  simp only [staged, hw, if_false, missingLine_quiet h hq, markerV_quiet hq, List.append_nil, withRoom_of_room e f h]

/-- Sources without poison leave the effect alone. -/
theorem sourced_clear {s : State} {x : Sel} {u : Uses} {m : Mask} (e : Env) (w : W) (f : W → W) (h : Clear s x u m) :
    sourced e w x u m f = f w := by
  rcases h.clean with h1 | h1 <;> simp [sourced, h1]

/-- Checks that pass leave the effect alone. -/
theorem guarded_clear {s : State} {x : Sel} {u : Uses} {m : Mask} {sw : Bool} (e : Env) (f : W → W) (h : Clear s x u m)
    (hq : Quiet s x sw) : guarded e s.w x u sw m f = f s.w := by
  simp only [guarded, staged_clear e _ h hq, sourced_clear e _ _ h]

end Sys2Proof.Machine
end

