-- ==== Sys2Proof/Laws/Settle.lean ====
section
/-! SUPPORT. Laws of what every issue settles: charges, counters, the window, and the course written back (R51, R52, R67). -/

namespace Sys2Proof.Machine

/-! Cores. -/

theorem core_updCore (w : W) (p n : Nat) (f : CoreSt → CoreSt) :
    core (updCore w p f) n = if n = p then f (core w p) else core w n := by
  simp [core, tGetD_tPut]

/-- The cores of two states differ in event counters alone. -/
def SameCores (w w' : W) : Prop := ∀ n, { core w' n with ev := (core w n).ev } = core w n

theorem SameCores.refl (w : W) : SameCores w w := fun _ => rfl

theorem SameCores.trans {a b c : W} (h : SameCores a b) (h' : SameCores b c) : SameCores a c := by
  intro n
  have h1 := h n
  have h2 := h' n
  rw [← h1]
  rw [← h2]

theorem sameCores_bumpCore (w : W) (p e n : Nat) : SameCores w (bumpCore w p e n) := by
  intro m
  simp only [bumpCore, core_updCore]
  split
  · subst_vars; rfl
  · rfl

theorem bumpCore_eq (w : W) (p e n : Nat) : bumpCore w p e n = { w with cores := (bumpCore w p e n).cores } := rfl

/-! Slots. -/

theorem slotBits_setSlotF (c : Course) (s lo n v : Nat) {j : Nat} (h : j < 8) :
    slotBits (setSlotF c s lo n v) j = if j = s then bvSet (slotBits c s) lo n v else slotBits c j := by
  simp only [slotBits, setSlotF]
  rw [nth_setNth _ _ _ _ _ _ h]

theorem slotLanecyc_lt (c : Course) (s : Nat) : slotLanecyc c s < 2 ^ 64 := bitsAt_lt _ _ _

/-- Slots changed in LANECYC alone. -/
def SlotsBut (c c' : Course) : Prop := ∀ n, n < 8 → ∀ i, i < 448 → (slotBits c' n).getLsbD i = (slotBits c n).getLsbD i

theorem charge_fold (c : Course) (x : Mask) (m : Nat) (hm : m ≤ 8) :
    let c' := (List.range m).foldl (fun c s =>
      let n := mCount (x &&& mkMask fun k => own c k == s)
      if n = 0 then c else setSlotF c s 448 64 ((slotLanecyc c s + n) % 2 ^ 64)) c
    c' = { c with r := { c.r with slots := c'.r.slots } } ∧ SlotsBut c c' ∧
    (∀ n, n < 8 → slotLanecyc c' n =
      if n < m then (slotLanecyc c n + mCount (x &&& mkMask fun k => own c k == n)) % 2 ^ 64 else slotLanecyc c n) := by
  induction m with
  | zero => exact ⟨rfl, fun _ _ _ _ => rfl, fun _ _ => rfl⟩
  | succ m ih =>
    obtain ⟨h1, h2, h3⟩ := ih (by omega)
    simp only [List.range_succ, List.foldl_append, List.foldl_cons, List.foldl_nil] at *
    set c' := (List.range m).foldl (fun c s =>
      let n := mCount (x &&& mkMask fun k => own c k == s)
      if n = 0 then c else setSlotF c s 448 64 ((slotLanecyc c s + n) % 2 ^ 64)) c with hc'
    have hown : ∀ k, own c' k = own c k := by intro k; rw [h1]; rfl
    simp only [hown]
    split
    · rename_i h0
      refine ⟨h1, h2, ?_⟩
      intro n hn
      rw [h3 n hn]
      by_cases hlt : n < m
      · have : n < m + 1 := by omega
        simp [hlt, this]
      · by_cases he : n = m
        · subst he
          have := slotLanecyc_lt c n
          simp only [lt_irrefl, if_false, Nat.lt_succ_self, if_true, h0, Nat.add_zero]
          exact (Nat.mod_eq_of_lt this).symm
        · have : ¬ n < m + 1 := by omega
          simp [hlt, this]
    · refine ⟨?_, ?_, ?_⟩
      · rw [h1]; rfl
      · intro n hn i hi
        rw [slotBits_setSlotF _ _ _ _ _ hn]
        split
        · subst_vars
          rw [bvSet_getLsbD, if_pos (by omega), if_neg (by omega)]
          exact h2 _ hn i hi
        · exact h2 _ hn i hi
      · intro n hn
        have hlc : ∀ v, slotLanecyc (setSlotF c' m 448 64 v) n = if n = m then v % 2 ^ 64 else slotLanecyc c' n := by
          intro v
          simp only [slotLanecyc, slotF]
          rw [slotBits_setSlotF _ _ _ _ _ hn]
          split
          · rw [bvF_bvSet_same _ _ _ _ (by omega)]
          · rfl
        rw [hlc]
        by_cases he : n = m
        · subst he
          have hold := h3 n hn
          simp only [lt_irrefl, if_false] at hold
          simp [hold]
        · have hold := h3 n hn
          rw [if_neg he, hold]
          by_cases hlt : n < m
          · have : n < m + 1 := by omega
            simp [hlt, this]
          · have : ¬ n < m + 1 := by omega
            simp [hlt, this]

/-- The lanes at the issue PC charged to their owners (R52): nothing but the slots changes, and of those LANECYC alone. -/
theorem chargeLanes_spec (c : Course) (x : Mask) :
    chargeLanes c x = { c with r := { c.r with slots := (chargeLanes c x).r.slots } } ∧ SlotsBut c (chargeLanes c x) ∧
    ∀ n, n < 8 → slotLanecyc (chargeLanes c x) n =
      (slotLanecyc c n + mCount (x &&& mkMask fun k => own c k == n)) % 2 ^ 64 := by
  obtain ⟨h1, h2, h3⟩ := charge_fold c x 8 (le_refl _)
  refine ⟨h1, h2, ?_⟩
  intro n hn
  have := h3 n hn
  rw [if_pos hn] at this
  exact this

/-! The window (R67). -/

/-- A window with nothing buffered and nothing outstanding closes without a write. -/
theorem closeWindow_quiet {e : Env} {w : W} {c : Course} (hb : c.w.buf = []) (hf : ∀ f ∈ w.flights, sameTag c f = false) :
    closeWindow e w c = (w, { c with w := { c.w with used := 0, buf := [], isOpen := false, closing := false } }) := by
  simp only [closeWindow, drain, partition_none hf, List.foldl_nil, bufV, hb, List.filterMap_nil, roomFor, newLines, List.filter_nil,
    List.dedup_nil, List.length_nil, true_or, if_true]

/-- What every instruction does at its end (R51, R52, R67): with live or parked lanes left, and nothing for a marker to commit,
the course is written back as c with its slots charged; of the rest only event counters change. -/
theorem done_spec (e : Env) (w : W) (c : Course) (x : Sel) (m back : Bool) (live : liveParked c ≠ 0)
    (hq : m = false ∨ (c.w.buf = [] ∧ ∀ f ∈ w.flights, sameTag c f = false)) :
    ∃ c' w', done e w c x m back = setCourse w' c' ∧ w' = { w with cores := w'.cores } ∧ SameCores w w' ∧
      c'.id = c.id ∧ c'.v = c.v ∧ c'.r = { c.r with slots := c'.r.slots } ∧ SlotsBut c c' ∧
      (∀ n, n < 8 → slotLanecyc c' n = (slotLanecyc c n + mCount (x.x &&& mkMask fun k => own c k == n)) % 2 ^ 64) ∧
      (m = false → c'.w = c.w) ∧ (m = true → c'.w.used = 0 ∧ c'.w.buf = []) := by
  obtain ⟨hs1, hs2, hs3⟩ := chargeLanes_spec c x.x
  set d := chargeLanes c x.x with hd
  -- the course after its turn and age are settled
  set t : Course := { settleTurn d x m back with k := { (settleTurn d x m back).k with age := w.now + 1 } } with ht
  have tid : t.id = c.id := by rw [ht]; simp only [settleTurn]; rw [hs1]
  have tv : t.v = c.v := by rw [ht]; simp only [settleTurn]; rw [hs1]
  have tr : t.r = d.r := rfl
  have tw : t.w = c.w := by rw [ht]; simp only [settleTurn]; rw [hs1]
  have tslot : t.k.slot = c.k.slot ∧ t.k.gen = c.k.gen := by rw [ht]; simp only [settleTurn]; rw [hs1]; exact ⟨rfl, rfl⟩
  have dr : d.r = { c.r with slots := d.r.slots } := by rw [hs1]
  set w1 := bumpCore w (pcnOf w t.v.hcore) 0 1 with hw1
  set w2 := (if x.started then bumpCore w1 (pcnOf w t.v.hcore) 3 1 else w1) with hw2
  have sc : SameCores w w2 := by
    rw [hw2]
    split
    · exact (sameCores_bumpCore _ _ _ _).trans (sameCores_bumpCore _ _ _ _)
    · exact sameCores_bumpCore _ _ _ _
  have e2 : w2 = { w with cores := w2.cores } := by
    rw [hw2]
    split <;> rfl
  have fl : w2.flights = w.flights := by rw [e2]
  have tag : ∀ f, sameTag t f = sameTag c f := by
    intro f
    simp only [sameTag, quadOf, tid, tv, tslot.1, tslot.2]
  have lv : ∀ u : Course, u.r.status = c.r.status → liveParked u ≠ 0 := by
    intro u hu
    have : liveParked u = liveParked c := by simp only [liveParked, laneSt, hu]
    rw [this]; exact live
  have bits : ∀ n, slotBits t n = slotBits d n := fun n => by simp only [slotBits, tr]
  cases m with
  | false =>
    have hst : settle e w c x false back = (w2, t) := rfl
    refine ⟨t, w2, ?_, e2, sc, tid, tv, by rw [tr]; exact dr, hs2, hs3, fun _ => tw, by simp⟩
    simp only [done, hst, finish]
    rw [if_neg (lv t (by rw [tr, dr]))]
  | true =>
    obtain ⟨hb, hf⟩ := hq.resolve_left (by simp)
    have hst : settle e w c x true back = closeWindow e w2 t := rfl
    have hcl : closeWindow e w2 t = (w2, { t with w := { t.w with used := 0, buf := [], isOpen := false, closing := false } }) := by
      apply closeWindow_quiet
      · rw [tw]; exact hb
      · rw [fl]; intro f hf'; rw [tag]; exact hf f hf'
    refine ⟨{ t with w := { t.w with used := 0, buf := [], isOpen := false, closing := false } }, w2, ?_, e2, sc, tid, tv,
      dr, hs2, hs3, by simp, fun _ => ⟨rfl, rfl⟩⟩
    simp only [done, hst, hcl, finish]
    rw [if_neg (lv _ (by show t.r.status = _; rw [tr, dr]))]

end Sys2Proof.Machine
end

