-- ==== Sys2Proof/Laws/Lane.lean ====
section
/-! SUPPORT. What the shared forms of lane instructions do once their checks pass (R227, R230). -/

namespace Sys2Proof.Machine

/-! Registers read after a write. -/

@[simp] theorem quadOf_putV (c : Course) (r : Nat) (m : Mask) (l : Line) : quadOf (putV c r m l) = quadOf c := by
  unfold putV; split <;> rfl

theorem getV_congr {c c' : Course} (h : c'.v = c.v) (r : Nat) : getV c' r = getV c r := by
  unfold getV cached? quadOf; rw [h]

theorem poisV_congr {c c' : Course} (h : c'.v = c.v) (r : Nat) : poisV c' r = poisV c r := by
  unfold poisV cached? quadOf; rw [h]

theorem cached?_putV_other (c : Course) {r n : Nat} (m : Mask) (l : Line) (q : Nat) (h : n ≠ r) :
    cached? q (putV c r m l) n = cached? q c n := by
  unfold putV
  split
  · rfl
  · simp only [cached?, tGet?_tPut_other _ _ h]

theorem getV_putV_other (c : Course) {r n : Nat} (m : Mask) (l : Line) (h : n ≠ r) :
    getV (putV c r m l) n = getV c n := by
  simp only [getV, quadOf_putV, cached?_putV_other _ _ _ _ h]

theorem poisV_putV_other (c : Course) {r n : Nat} (m : Mask) (l : Line) (h : n ≠ r) :
    poisV (putV c r m l) n = poisV c n := by
  simp only [poisV, quadOf_putV, cached?_putV_other _ _ _ _ h]

/-- A V register after a write of some lanes: those lanes new, the others as before (R40). -/
theorem laneOf_getV_putV (c : Course) (r : Nat) (m : Mask) (l : Line) {k : Nat} (hk : k < 32) :
    laneOf (getV (putV c r m l) r) k = if mHas m k then laneOf l k else laneOf (getV c r) k := by
  by_cases hm : m = 0
  · subst hm; simp [putV]
  · have h1 : cached? (quadOf c) (putV c r m l) r =
        some ⟨quadOf c, mergeLine m l (getV c r), true, false, poisV c r && m != BitVec.allOnes 32⟩ := by
      simp only [putV, hm, if_false, cached?, tGet?_tPut_same, if_true]
    rw [getV, quadOf_putV, h1]
    exact laneOf_mergeLine m l _ hk

theorem laneOf_resultLine (m : Mask) (f : Nat → Word) {k : Nat} (hk : k < 32) :
    laneOf (resultLine m f) k = if mHas m k then f k else 0 := by
  simp [resultLine, hk]

/-- A lane predicate after a write of some lanes (R43): P7 stays all ones. -/
theorem mHas_getP_putP (c : Course) (i : Nat) (m bits : Mask) {k j : Nat} (hk : k < 32) (hj : j < 8) (hi : i < 8) :
    mHas (getP (putP c i m bits) j) k =
      if j = 7 then true else if j = i ∧ mHas m k then mHas bits k else mHas (getP c j) k := by
  have h7 : ∀ c : Course, mHas (getP c 7) k = true := by intro c; simp only [getP, if_true, mHas, BitVec.getLsbD_allOnes, hk, decide_true]
  by_cases hj7 : j = 7
  · subst hj7; simp [h7]
  · rw [if_neg hj7]
    by_cases hi7 : i = 7
    · subst hi7
      have : ¬ j = 7 := hj7
      simp [putP, this]
    · have hlt : j < 7 := by omega
      simp only [putP, hi7, if_false, getP, hj7]
      rw [nth_setNth _ _ _ _ _ _ hlt]
      by_cases he : j = i
      · subst he
        simp only [if_true, true_and]
        by_cases hm : mHas m k = true
        · simp only [mHas] at hm ⊢
          simp only [BitVec.getLsbD_or, BitVec.getLsbD_and, BitVec.getLsbD_not, hm, hk]
          simp
        · have hm' : m.getLsbD k = false := by simpa [mHas] using hm
          simp only [mHas, BitVec.getLsbD_or, BitVec.getLsbD_and, BitVec.getLsbD_not, hm', hk]
          simp
      · simp [he]

theorem getP_putP_other (c : Course) {i j : Nat} (m bits : Mask) (h : j ≠ i) (hj : j < 8) :
    getP (putP c i m bits) j = getP c j := by
  by_cases hj7 : j = 7
  · subst hj7; simp [getP]
  · unfold putP
    split
    · rfl
    · simp only [getP, hj7, if_false]
      rw [nth_setNth _ _ _ _ _ _ (by omega), if_neg h]

theorem getS_putS (c : Course) (i j : Nat) (v : Word) (hj : j < 64) : getS (putS c i v) j = if j = i then v else getS c j := by
  simp only [getS, putS]
  rw [nth_setNth _ _ _ _ _ _ hj]

theorem getQ_putQ (c : Course) (i j : Nat) (b : Bool) (hi : i < 8) (hj : j < 8) :
    getQ (putQ c i b) j = if j = 7 then true else if j = i then b else getQ c j := by
  by_cases hj7 : j = 7
  · subst hj7; simp [getQ]
  · have hb : (j == 7) = false := by simpa using hj7
    unfold putQ
    split
    · rename_i h7; subst h7; simp [hj7]
    · simp only [getQ, hb, Bool.false_or, bvSet_getLsbD, hj, if_true]
      by_cases he : j = i
      · subst he
        simp only [le_refl, Nat.lt_succ_self, and_self, if_true, Nat.sub_self]
        cases b <;> rfl
      · rw [if_neg (by omega), if_neg he]

theorem lpc_advance (c : Course) (m : Mask) (n : Nat) {k : Nat} (hk : k < 32) :
    lpc (advance c m n) k = if mHas m k then lpc c k + BitVec.ofNat 32 n else lpc c k := by
  simp only [advance, setLpcs, lpc, laneOf_mkLine _ hk]

theorem lpc_setLpcs (c : Course) (m : Mask) (f : Nat → Word) {k : Nat} (hk : k < 32) :
    lpc (setLpcs c m f) k = if mHas m k then f k else lpc c k := by
  simp only [setLpcs, lpc, laneOf_mkLine _ hk]

theorem liveParked_congr {c c' : Course} (h : c'.r.status = c.r.status) : liveParked c' = liveParked c := by
  simp only [liveParked, laneSt, h]

theorem Issues.live_ne {s : State} {x : Sel} (h : Issues s x) {c : Course} (hc : c.r.status = x.c.r.status) :
    liveParked c ≠ 0 := by
  obtain ⟨k, hk⟩ := exists_mHas h.nonempty
  rw [liveParked_congr hc]
  exact liveParked_ne_zero (mHas_lt hk) (h.live hk)

/-! What any instruction leaves that ends as `done` (R51, R52). -/

/-- The outcome of an instruction that ends by settling a course: what changed, and what did not. -/
theorem finish_ran {s : State} {x : Sel} {F : Env → W → W} {e : Env} {w1 : W} {c : Course} {m back : Bool}
    (hF : F s.env s.w = done e w1 c x m back) (hco : w1.courses = s.w.courses) (hcr : w1.cores = s.w.cores)
    (hid : c.id = x.c.id) (live : liveParked c ≠ 0) (hlc : ∀ n, n < 8 → slotLanecyc c n = slotLanecyc x.c n)
    (hq : m = false ∨ (c.w.buf = [] ∧ ∀ f ∈ w1.flights, sameTag c f = false)) :
    ∃ c', Ran s (commit F s) x c' ∧
      (commit F s).w = { w1 with wb := [], cores := (commit F s).w.cores, courses := (commit F s).w.courses } ∧
      (commit F s).mem = flush w1.wb s.mem ∧ c'.v = c.v ∧ c'.r = { c.r with slots := c'.r.slots } ∧ SlotsBut c c' ∧
      (m = false → c'.w = c.w) ∧ (m = true → c'.w.used = 0 ∧ c'.w.buf = []) := by
  obtain ⟨c', w', hd, hw', hsc, h1, h2, h3, h4, h5, h6, h7⟩ := done_spec e w1 c x m back live hq
  have hF' : F ⟨s.fix, s.mem⟩ s.w = setCourse w' c' := by rw [← hd]; exact hF
  have hcw : (commit F s).w = { setCourse w' c' with wb := [] } := by rw [commit_w, hF']
  have hown : ∀ k, own c k = own x.c k := fun k => by simp only [own, hid]
  refine ⟨c', ⟨?_, h1.trans hid, ?_, ?_, ?_, rfl⟩, ?_, ?_, h2, h3, h4, h6, h7⟩
  · rw [hcw]
    simp only [course?, setCourse_courses, h1, hid]
    exact tGet?_tPut_same _ _ _
  · intro n hn
    rw [hcw]
    simp only [course?, setCourse_courses, h1, hid]
    rw [tGet?_tPut_other _ _ hn, hw', hco]
  · intro n hn
    rw [h5 n hn, hlc n hn]
    simp only [ownedBy, hown]
  · intro n
    rw [hcw]
    have := hsc n
    simp only [core, setCourse_cores, hcr] at this ⊢
    exact this
  · rw [hcw, hw']
    rfl
  · rw [commit_mem, hF', setCourse_wb, hw']

/-- The same for an instruction that writes no memory and changes no state but its course. -/
theorem finish_still {s : State} {x : Sel} (hI : Issues s x) {F : Env → W → W} {e : Env} {w1 : W} {c : Course} {m back : Bool}
    (hF : F s.env s.w = done e w1 c x m back)
    (hw : w1 = { s.w with flights := w1.flights, nextFlight := w1.nextFlight })
    (hid : c.id = x.c.id) (live : liveParked c ≠ 0) (hlc : ∀ n, n < 8 → slotLanecyc c n = slotLanecyc x.c n)
    (hq : m = false ∨ (c.w.buf = [] ∧ ∀ f ∈ w1.flights, sameTag c f = false)) :
    ∃ c', Ran s (commit F s) x c' ∧ Still s (commit F s) ∧ (commit F s).w.flights = w1.flights ∧
      c'.v = c.v ∧ c'.r = { c.r with slots := c'.r.slots } ∧ SlotsBut c c' ∧
      (m = false → c'.w = c.w) ∧ (m = true → c'.w.used = 0 ∧ c'.w.buf = []) := by
  have hb : w1.wb = [] := by rw [hw]; exact hI.wb
  obtain ⟨c', h1, h2, h3, h4⟩ := finish_ran hF (by rw [hw]) (by rw [hw]) hid live hlc hq
  refine ⟨c', h1, ⟨?_, ?_⟩, ?_, h4⟩
  · intro a; rw [h3, hb]; rfl
  · have hfl : (commit F s).w.flights = w1.flights := by rw [h2]
    have hnf : (commit F s).w.nextFlight = w1.nextFlight := by rw [h2]
    rw [h2, hw]
    rw [← hI.wb]
  · rw [h2]

/-- What the slots keep but for LANECYC: FLAGS, and every bit that `Keeps` names. -/
theorem SlotsBut.flags {c c' : Course} (h : SlotsBut c c') : FlagsKept c c' := by
  intro n hn
  exact bvF_congr fun i h1 h2 => h n hn i (by omega)

/-- A course that differs from another in nothing but the V lines, LPC, LANECYC and what is listed keeps the rest. -/
theorem keeps_of {c d c' : Course} {vs ss ps qs : List Nat} (hv : c'.v = d.v) (hr : c'.r = { d.r with slots := c'.r.slots })
    (hs : SlotsBut d c')
    (v : ∀ r, r ∉ vs → getV d r = getV c r ∧ poisV d r = poisV c r)
    (s : ∀ r, r < 64 → r ∉ ss → getS d r = getS c r) (p : ∀ r, r < 8 → r ∉ ps → getP d r = getP c r)
    (q : ∀ r, r < 8 → r ∉ qs → getQ d r = getQ c r) (hd : d.r.d = c.r.d) (ha : d.r.a = c.r.a) (htl : d.r.tl = c.r.tl)
    (hst : d.r.status = c.r.status)
    (hsl : ∀ n, n < 8 → ∀ i, i < 448 → (i < 24 ∨ 29 ≤ i) → (slotBits d n).getLsbD i = (slotBits c n).getLsbD i) :
    Keeps c c' vs ss ps qs where
  v := fun r h => by rw [getV_congr hv, poisV_congr hv]; exact v r h
  s := fun r h1 h2 => by have : getS c' r = getS d r := by simp only [getS]; rw [hr]
                         rw [this]; exact s r h1 h2
  p := fun r h1 h2 => by have : getP c' r = getP d r := by simp only [getP]; rw [hr]
                         rw [this]; exact p r h1 h2
  q := fun r h1 h2 => by have : getQ c' r = getQ d r := by simp only [getQ]; rw [hr]
                         rw [this]; exact q r h1 h2
  d := by rw [hr]; exact hd
  a := by rw [hr]; exact ha
  tl := by rw [hr]; exact htl
  status := by rw [hr]; exact hst
  slots := fun n hn i hi h => by rw [hs n hn i hi]; exact hsl n hn i hi h

/-- A quiet marker stays quiet for a course of the same place and window. -/
theorem Quiet.of {s : State} {x : Sel} {m : Bool} (h : Quiet s x m) {c : Course} (hid : c.id = x.c.id) (hv : quadOf c = quadOf x.c)
    (hk : c.k = x.c.k) (hb : c.w.buf = x.c.w.buf) : m = false ∨ (c.w.buf = [] ∧ ∀ f ∈ s.w.flights, sameTag c f = false) := by
  rcases h with h | ⟨h1, h2⟩
  · exact Or.inl h
  · refine Or.inr ⟨by rw [hb, h1], ?_⟩
    intro f hf
    have := h2 f hf
    simp only [sameTag, hid, hv, hk] at this ⊢
    exact this

/-! One V destination at once (R227). -/

/-- An immediate-class lane instruction of one destination: its executing lanes take the value, all else is as the frame says. -/
theorem lane1_spec {s : State} {x : Sel} {h : Hd} {v : List Nat} {d : R64} {f : Course → Nat → Word} (hI : Issues s x)
    (hC : Clear s x (laneUses h { Uses.none with v := v, d := [d.val] }) (readersAll x.c h x.x)) (hQ : Quiet s x h.sw) :
    ∃ t c', runIssue (lane1 h v d.val f) s = .next t ∧ Ran s t x c' ∧ Still s t ∧ t.w.flights = s.w.flights ∧
      Keeps x.c c' [d.val] [] [] [] ∧ FlagsKept x.c c' ∧ Advanced x c' 4 ∧
      Wrote x.c c' d.val (lanesOn x.c h x.x) (fun k r => r = f x.c k) := by
  set on := lanesOn x.c h x.x with hon
  set c := advance (putV x.c d.val on (resultLine on fun k => f x.c k)) x.x 4 with hc
  have flags0 : ∀ (l : List Nat) (c : Course), l.foldl (fun c k => orFlags c (own c k) 0) c = c := by
    intro l; induction l with
    | nil => intro c; rfl
    | cons a r ih => intro c; simp only [List.foldl_cons]; rw [show orFlags c (own c a) 0 = c from if_pos rfl]; exact ih c
  have hF : lane1 h v d.val f s.env s.w x = done s.env s.w c x h.sw false := by
    simp only [lane1, laneImm]
    rw [guarded_clear _ _ hC hQ]
    simp only [Uses.none, laneUses, List.zipIdx_cons, List.zipIdx_nil, List.foldl_cons, List.foldl_nil, laneFlags, flags0]
    rfl
  have hst : c.r.status = x.c.r.status := by simp [hc]
  have hsl : c.r.slots = x.c.r.slots := by simp [hc]
  obtain ⟨c', h1, h2, h3, h4, h5, h6, _⟩ := finish_still hI (F := fun e w => lane1 h v d.val f e w x) hF rfl (by simp [hc])
    (hI.live_ne hst) (fun n _ => by simp only [slotLanecyc, slotF, slotBits, hsl])
    (hQ.of (by simp [hc]) (quadOf_putV _ _ _ _) (by simp [hc]) (by simp [hc]))
  have hcv : c.v = (putV x.c d.val on (resultLine on fun k => f x.c k)).v := rfl
  refine ⟨_, c', runIssue_next _ hI, h1, h2, h3, ?_, ?_, ?_, ?_⟩
  · refine keeps_of h4 h5 h6 ?_ ?_ ?_ ?_ (by simp [hc]) (by simp [hc]) (by simp [hc]) hst ?_
    · intro r hr
      have hne : r ≠ d.val := by simpa using hr
      rw [getV_congr hcv, poisV_congr hcv, getV_putV_other _ _ _ hne, poisV_putV_other _ _ _ hne]
      exact ⟨rfl, rfl⟩
    · intro r _ _; simp [getS, hc]
    · intro r _ _; simp [getP, hc]
    · intro r _ _; simp [getQ, hc]
    · intro n _ i _ _; simp only [slotBits, hsl]
  · intro n hn
    rw [h6.flags n hn]
    simp only [slotFlags, slotF, slotBits, hsl]
  · intro k hk
    have : lpc c' k = lpc c k := by simp only [lpc]; rw [h5]
    rw [this, hc, lpc_advance _ _ _ hk]
    simp [lpc]
  · intro k hk
    rw [getV_congr h4, getV_congr hcv, laneOf_getV_putV _ _ _ _ hk, laneOf_resultLine _ _ hk]
    split <;> simp_all

/-! Flags (R21). -/

theorem slotBits_orFlags (c : Course) (s f : Nat) {j : Nat} (hj : j < 8) (i : Nat) :
    (slotBits (orFlags c s f) j).getLsbD i =
      if j = s ∧ 24 ≤ i ∧ i < 29 then ((slotBits c j).getLsbD i || f.testBit (i - 24)) else (slotBits c j).getLsbD i := by
  unfold orFlags
  by_cases hf : f = 0
  · subst hf; simp
  · rw [if_neg hf, slotBits_setSlotF _ _ _ _ _ hj]
    by_cases hs : j = s
    · subst hs
      rw [if_pos rfl, bvSet_getLsbD]
      by_cases hi : 24 ≤ i ∧ i < 29
      · rw [if_pos (by omega), if_pos (by omega), if_pos (by omega), Nat.testBit_or]
        congr 1
        have e : slotFlags c j = bitsAt (slotBits c j).toNat 24 5 := rfl
        rw [e, bitsAt, Nat.testBit_mod_two_pow, Nat.testBit_div_two_pow]
        have h1 : i - 24 < 5 := by omega
        have h2 : i - 24 + 24 = i := by omega
        simp only [h1, h2, decide_true, Bool.true_and]
        rfl
      · have h1 : ¬ (24 ≤ i ∧ i < 24 + 5) := by omega
        have h3 : ¬ (j = j ∧ 24 ≤ i ∧ i < 29) := fun h => hi h.2
        rw [if_neg h1, if_neg h3]
        split
        · rfl
        · rename_i h2
          exact (BitVec.getLsbD_of_ge _ _ (by omega)).symm
    · rw [if_neg hs, if_neg (fun h => hs h.1)]

theorem slotFlags_testBit (c : Course) (n : Nat) {i : Nat} (hi : i < 5) :
    (slotFlags c n).testBit i = (slotBits c n).getLsbD (i + 24) := by
  have e : slotFlags c n = bitsAt (slotBits c n).toNat 24 5 := rfl
  rw [e, bitsAt, Nat.testBit_mod_two_pow, Nat.testBit_div_two_pow]
  simp only [hi, decide_true, Bool.true_and]
  rfl

theorem laneFlags_fold (l : List Nat) (f : Nat → Nat) : ∀ (c : Course) (n : Nat), n < 8 → ∀ i,
    (slotBits (l.foldl (fun c k => orFlags c (own c k) (f k)) c) n).getLsbD i =
      if 24 ≤ i ∧ i < 29 then ((slotBits c n).getLsbD i || l.any fun k => own c k == n && (f k).testBit (i - 24))
      else (slotBits c n).getLsbD i := by
  induction l with
  | nil => intro c n _ i; simp
  | cons a r ih =>
    intro c n hn i
    simp only [List.foldl_cons, List.any_cons]
    rw [ih _ n hn i]
    have ho : ∀ k, own (orFlags c (own c a) (f a)) k = own c k := fun k => by simp only [own, orFlags_id]
    simp only [ho]
    rw [slotBits_orFlags _ _ _ hn]
    by_cases hi : 24 ≤ i ∧ i < 29
    · by_cases hs : n = own c a
      · simp [hi, ← hs, Bool.or_assoc]
      · have : (own c a == n) = false := by simpa using fun e => hs e.symm
        simp [hi, hs, this]
    · by_cases hs : n = own c a
      · simp [hi]
      · simp [hi]

theorem laneFlags_rest (l : List Nat) (f : Nat → Nat) : ∀ (c : Course),
    let d := l.foldl (fun c k => orFlags c (own c k) (f k)) c
    d.id = c.id ∧ d.v = c.v ∧ d.w = c.w ∧ d.k = c.k ∧ d.r = { c.r with slots := d.r.slots } := by
  induction l with
  | nil => intro c; exact ⟨rfl, rfl, rfl, rfl, rfl⟩
  | cons a r ih =>
    intro c
    obtain ⟨h1, h2, h3, h4, h5⟩ := ih (orFlags c (own c a) (f a))
    simp only [List.foldl_cons]
    refine ⟨h1.trans (orFlags_id _ _ _), h2.trans (orFlags_v _ _ _), h3.trans (orFlags_w _ _ _), h4.trans (orFlags_k _ _ _), ?_⟩
    rw [h5]
    simp

/-! Registers written one after another. -/

/-- The registers of a list, each written in the lanes of a mask with its place in the lane's results. -/
theorem putV_fold (on : Mask) (g : Nat → List Word) : ∀ (ds : List Nat) (j : Nat) (c : Course), ds.Nodup →
    let d := (ds.zipIdx j).foldl (fun c (r, i) => putV c r on (resultLine on fun k => nth (g k) i 0)) c
    d.id = c.id ∧ d.r = c.r ∧ d.w = c.w ∧ d.k = c.k ∧ quadOf d = quadOf c ∧
    (∀ r, r ∉ ds → getV d r = getV c r ∧ poisV d r = poisV c r) ∧
    ∀ r i, (r, i) ∈ ds.zipIdx j → ∀ k, k < 32 → laneOf (getV d r) k =
      if mHas on k then nth (g k) i 0 else laneOf (getV c r) k := by
  intro ds
  induction ds with
  | nil => intro j c _; simp
  | cons a r ih =>
    intro j c hn
    obtain ⟨ha, hr⟩ := List.nodup_cons.mp hn
    obtain ⟨h1, h2, h3, h4, h5, h6, h7⟩ := ih (j + 1) (putV c a on (resultLine on fun k => nth (g k) j 0)) hr
    simp only [List.zipIdx_cons, List.foldl_cons]
    refine ⟨h1.trans (putV_id _ _ _ _), h2.trans ?_, h3.trans (putV_w _ _ _ _), h4.trans (putV_k _ _ _ _),
      h5.trans (quadOf_putV _ _ _ _), ?_, ?_⟩
    · unfold putV; split <;> rfl
    · intro y hy
      simp only [List.mem_cons, not_or] at hy
      obtain ⟨e1, e2⟩ := h6 y hy.2
      rw [e1, e2, getV_putV_other _ _ _ hy.1, poisV_putV_other _ _ _ hy.1]
      exact ⟨rfl, rfl⟩
    · intro y i hy k hk
      simp only [List.mem_cons, Prod.mk.injEq] at hy
      rcases hy with ⟨e1, e2⟩ | hy
      · subst e1; subst e2
        rw [(h6 y ha).1, laneOf_getV_putV _ _ _ _ hk, laneOf_resultLine _ _ hk]
        split <;> simp_all
      · rw [h7 y i hy k hk]
        have hne : y ≠ a := by
          intro e; subst e
          exact ha (List.fst_mem_of_mem_zipIdx hy)
        rw [getV_putV_other _ _ _ hne]

/-- An immediate-class lane instruction: each executing lane writes its destinations and raises its flags; all else is as the
frame says (R21, R227). -/
theorem laneImm_spec {s : State} {x : Sel} {h : Hd} {u : Uses} {f : Course → Nat → List Word × Nat} (hI : Issues s x)
    (hC : Clear s x (laneUses h u) (readersAll x.c h x.x)) (hQ : Quiet s x h.sw) (hn : u.d.Nodup) :
    ∃ t c', runIssue (laneImm h u f) s = .next t ∧ Ran s t x c' ∧ Still s t ∧ t.w.flights = s.w.flights ∧
      Keeps x.c c' u.d [] [] [] ∧ FlagsRaised x.c c' (lanesOn x.c h x.x) (fun k => (f x.c k).2) ∧ Advanced x c' 4 ∧
      ∀ r i, (r, i) ∈ u.d.zipIdx → Wrote x.c c' r (lanesOn x.c h x.x) (fun k v => v = nth (f x.c k).1 i 0) := by
  set on := lanesOn x.c h x.x with hon
  set d := u.d.zipIdx.foldl (fun c (r, i) => putV c r on (resultLine on fun k => nth (f x.c k).1 i 0)) x.c with hd
  obtain ⟨p1, p2, p3, p4, p5, p6, p7⟩ := putV_fold on (fun k => (f x.c k).1) u.d 0 x.c hn
  rw [← hd] at p1 p2 p3 p4 p5 p6 p7
  set d2 := (mLanes on).foldl (fun c k => orFlags c (own c k) (f x.c k).2) d with hd2
  obtain ⟨q1, q2, q3, q4, q5⟩ := laneFlags_rest (mLanes on) (fun k => (f x.c k).2) d
  have qb := laneFlags_fold (mLanes on) (fun k => (f x.c k).2) d
  rw [← hd2] at q1 q2 q3 q4 q5
  simp only [← hd2] at qb
  set c := advance d2 x.x 4 with hc
  have hF : laneImm h u f s.env s.w x = done s.env s.w c x h.sw false := by
    simp only [laneImm]
    rw [guarded_clear _ _ hC hQ]
    rfl
  have hst : c.r.status = x.c.r.status := by
    show d2.r.status = _
    rw [q5, p2]
  have hbits : ∀ n, slotBits c n = slotBits d2 n := fun n => rfl
  have hown : ∀ k, own d k = own x.c k := fun k => by simp only [own, p1]
  have hxb : ∀ n, slotBits d n = slotBits x.c n := fun n => by simp only [slotBits, p2]
  have hlc : ∀ n, n < 8 → slotLanecyc c n = slotLanecyc x.c n := by
    intro n hn
    simp only [slotLanecyc, slotF]
    apply bvF_congr
    intro i h1 h2
    rw [hbits, qb n hn i, if_neg (by omega), hxb]
  obtain ⟨c', h1, h2, h3, h4, h5, h6, _⟩ := finish_still hI (F := fun e w => laneImm h u f e w x) hF rfl
    (by show d2.id = _; rw [q1, p1]) (hI.live_ne hst) hlc
    (hQ.of (by show d2.id = _; rw [q1, p1]) (by show d2.v.hcore * 4 + d2.v.hquad = _; rw [q2]; exact p5)
      (by show d2.k = _; rw [q4, p4]) (by show d2.w.buf = _; rw [q3, p3]))
  have hcv : c.v = d.v := q2
  refine ⟨_, c', runIssue_next _ hI, h1, h2, h3, ?_, ?_, ?_, ?_⟩
  · refine keeps_of h4 h5 h6 ?_ ?_ ?_ ?_ (by show d2.r.d = _; rw [q5, p2]) (by show d2.r.a = _; rw [q5, p2])
      (by show d2.r.tl = _; rw [q5, p2]) hst ?_
    · intro r hr
      rw [getV_congr hcv, poisV_congr hcv]
      exact p6 r hr
    · intro r _ _; show nth d2.r.s r 0 = _; rw [q5, p2]; rfl
    · intro r _ _; show (if r = 7 then _ else nth d2.r.p r 0) = _; rw [q5, p2]; rfl
    · intro r _ _; show (r == 7 || d2.r.q.getLsbD r) = _; rw [q5, p2]; rfl
    · intro n hn i hi h8
      rw [hbits, qb n hn i, if_neg (by omega), hxb]
  · intro n hn i hi
    rw [slotFlags_testBit _ _ hi, h6 n hn _ (by omega), hbits, qb n hn _, if_pos (by omega), slotFlags_testBit _ _ hi, hxb]
    simp only [hown, show i + 24 - 24 = i by omega]
  · intro k hk
    have : lpc c' k = lpc c k := by simp only [lpc]; rw [h5]
    have e2 : lpc d2 k = lpc x.c k := by simp only [lpc]; rw [q5, p2]
    rw [this, hc, lpc_advance _ _ _ hk, e2]
  · intro r i hri k hk
    rw [getV_congr h4, getV_congr hcv, p7 r i hri k hk]
    by_cases hm : mHas on k = true
    · rw [if_pos hm, if_pos hm]
    · rw [if_neg hm, if_neg hm]

/-! Lane predicates (R43, R234). -/

/-- A lane instruction that writes a lane predicate: a write of P7 changes nothing. -/
theorem lanePred_spec {s : State} {x : Sel} {h : Hd} {v p : List Nat} {d : R8} {f : Course → Nat → Bool × Nat} (hI : Issues s x)
    (hC : Clear s x (laneUses h { Uses.none with v := v, p := p }) (readersAll x.c h x.x)) (hQ : Quiet s x h.sw) :
    ∃ t c', runIssue (lanePred h v p d.val f) s = .next t ∧ Ran s t x c' ∧ Still s t ∧ t.w.flights = s.w.flights ∧
      Keeps x.c c' [] [] [d.val] [] ∧ FlagsRaised x.c c' (lanesOn x.c h x.x) (fun k => (f x.c k).2) ∧ Advanced x c' 4 ∧
      ∀ k, k < 32 → mHas (getP c' d.val) k =
        if d.val = 7 then true else if mHas (lanesOn x.c h x.x) k then (f x.c k).1 else mHas (getP x.c d.val) k := by
  set on := lanesOn x.c h x.x with hon
  set d1 := putP x.c d.val on (mkMask fun k => mHas on k && (f x.c k).1) with hd1
  set d2 := (mLanes on).foldl (fun c k => orFlags c (own c k) (f x.c k).2) d1 with hd2
  obtain ⟨q1, q2, q3, q4, q5⟩ := laneFlags_rest (mLanes on) (fun k => (f x.c k).2) d1
  have qb := laneFlags_fold (mLanes on) (fun k => (f x.c k).2) d1
  rw [← hd2] at q1 q2 q3 q4 q5
  simp only [← hd2] at qb
  set c := advance d2 x.x 4 with hc
  have hF : lanePred h v p d.val f s.env s.w x = done s.env s.w c x h.sw false := by
    simp only [lanePred]
    rw [guarded_clear _ _ hC hQ]
    rfl
  have hst : c.r.status = x.c.r.status := by
    show d2.r.status = _
    rw [q5]; exact putP_r_status _ _ _ _
  have hbits : ∀ n, slotBits c n = slotBits d2 n := fun n => rfl
  have hown : ∀ k, own d1 k = own x.c k := fun k => by simp only [own, hd1, putP_id]
  have hxb : ∀ n, slotBits d1 n = slotBits x.c n := fun n => by simp only [slotBits, hd1, putP_r_slots]
  have hlc : ∀ n, n < 8 → slotLanecyc c n = slotLanecyc x.c n := by
    intro n hn
    simp only [slotLanecyc, slotF]
    apply bvF_congr
    intro i h1 h2
    rw [hbits, qb n hn i, if_neg (by omega), hxb]
  have hid : c.id = x.c.id := by show d2.id = _; rw [q1]; exact putP_id _ _ _ _
  have hv : c.v = x.c.v := by show d2.v = _; rw [q2]; exact putP_v _ _ _ _
  obtain ⟨c', h1, h2, h3, h4, h5, h6, _⟩ := finish_still hI (F := fun e w => lanePred h v p d.val f e w x) hF rfl
    hid (hI.live_ne hst) hlc
    (hQ.of hid (by simp only [quadOf, hv]) (by show d2.k = _; rw [q4]; exact putP_k _ _ _ _)
      (by show d2.w.buf = _; rw [q3, hd1, putP_w]))
  have hp : ∀ r, getP c' r = getP d1 r := by
    intro r
    have : c'.r.p = d1.r.p := by
      rw [h5]
      show d2.r.p = _
      rw [q5]
    simp only [getP, this]
  refine ⟨_, c', runIssue_next _ hI, h1, h2, h3, ?_, ?_, ?_, ?_⟩
  · refine keeps_of h4 h5 h6 ?_ ?_ ?_ ?_ (by show d2.r.d = _; rw [q5]; simp [hd1]) (by show d2.r.a = _; rw [q5]; simp [hd1])
      (by show d2.r.tl = _; rw [q5]; simp [hd1]) hst ?_
    · intro r _
      rw [getV_congr hv, poisV_congr hv]
      exact ⟨rfl, rfl⟩
    · intro r _ _; show nth d2.r.s r 0 = _; rw [q5]; simp only [hd1, putP_r_s]; rfl
    · intro r hr hne
      have hne' : r ≠ d.val := by simpa using hne
      have : getP c r = getP d1 r := by simp only [getP]; show (if r = 7 then _ else nth d2.r.p r 0) = _; rw [q5]
      rw [this, hd1, getP_putP_other _ _ _ hne' hr]
    · intro r _ _; show (r == 7 || d2.r.q.getLsbD r) = _; rw [q5]; simp only [hd1, putP_r_q]; rfl
    · intro n hn i hi h8
      rw [hbits, qb n hn i, if_neg (by omega), hxb]
  · intro n hn i hi
    rw [slotFlags_testBit _ _ hi, h6 n hn _ (by omega), hbits, qb n hn _, if_pos (by omega), slotFlags_testBit _ _ hi, hxb]
    simp only [hown, show i + 24 - 24 = i by omega]
  · intro k hk
    have : lpc c' k = lpc c k := by simp only [lpc]; rw [h5]
    have e2 : lpc d2 k = lpc x.c k := by simp only [lpc]; rw [q5]; simp only [hd1, putP_r_lpc]
    rw [this, hc, lpc_advance _ _ _ hk, e2]
  · intro k hk
    rw [hp, hd1, mHas_getP_putP _ _ _ _ hk d.isLt d.isLt]
    split
    · rfl
    · simp only [true_and, mHas_mkMask, hk, decide_true, Bool.true_and]
      by_cases hm : mHas on k = true
      · simp [hm]
      · simp [hm]

/-! Deferred results (R67, R230). -/

/-- A deferred-class lane instruction that is no switch marker: its result is on its way, tagged with the slot and generation,
and one entry of the window is taken; all else is as the frame says. -/
theorem laneDef_spec {s : State} {x : Sel} {h : Hd} {v : List Nat} {sect : List (Nat × Nat)} {d : R64}
    {f : Mask → Course → Nat → Nat × Nat}
    (hI : Issues s x)
    (hC : Clear s x (laneUses h { Uses.none with v := v, d := [d.val], entries := 1, sect := sect }) (readersAll x.c h x.x))
    (hm : h.sw = false) :
    ∃ t c', runIssue (laneDef h v sect d.val f) s = .next t ∧ Ran s t x c' ∧ Still s t ∧
      Keeps x.c c' [] [] [] [] ∧ FlagsKept x.c c' ∧ Advanced x c' 4 ∧ c'.w.used = x.c.w.used + 1 ∧
      t.w.flights = s.w.flights ++ (if lanesOn x.c h x.x = 0 then [] else
        [⟨s.w.nextFlight, x.c.id.cid, quadOf x.c, x.c.k.slot, x.c.k.gen, .v d, lanesOn x.c h x.x,
          resultLine (lanesOn x.c h x.x) fun k => BitVec.ofNat 32 (f (lanesOn x.c h x.x) x.c k).1,
          (mLanes (lanesOn x.c h x.x)).map fun k => (own x.c k, (f (lanesOn x.c h x.x) x.c k).2)⟩]) := by
  set on := lanesOn x.c h x.x with hon
  set c := advance (takeEntries x.c 1) x.x 4 with hc
  set w1 := launchResult s.w c (.v d) on (resultLine on fun k => BitVec.ofNat 32 (f on x.c k).1)
      ((mLanes on).map fun k => (own x.c k, (f on x.c k).2)) with hw1
  have hF : laneDef h v sect d.val f s.env s.w x = done s.env w1 c x false false := by
    simp only [laneDef]
    rw [guarded_clear _ _ hC (Or.inl hm), hm]
    have : reg64 d.val = d := by apply Fin.ext; exact Nat.mod_eq_of_lt d.isLt
    rw [this]
  have hst : c.r.status = x.c.r.status := rfl
  have hw : w1 = { s.w with flights := w1.flights, nextFlight := w1.nextFlight } := by
    rw [hw1]; unfold launchResult; split <;> rfl
  obtain ⟨c', h1, h2, h3, h4, h5, h6, h7, _⟩ := finish_still hI (F := fun e w => laneDef h v sect d.val f e w x) hF hw rfl
    (hI.live_ne hst) (fun n _ => rfl) (Or.inl rfl)
  refine ⟨_, c', runIssue_next _ hI, h1, h2, ?_, h6.flags, ?_, ?_, ?_⟩
  · exact keeps_of h4 h5 h6 (fun _ _ => ⟨getV_congr rfl _, poisV_congr rfl _⟩) (fun _ _ _ => rfl) (fun _ _ _ => rfl)
      (fun _ _ _ => rfl) rfl rfl rfl hst (fun _ _ _ _ _ => rfl)
  · intro k hk
    have : lpc c' k = lpc c k := by simp only [lpc]; rw [h5]
    rw [this, hc, lpc_advance _ _ _ hk]
    rfl
  · rw [h7 rfl]; rfl
  · rw [h3, hw1]
    unfold launchResult
    split
    · simp
    · rfl

end Sys2Proof.Machine
end

