-- ==== Sys2Proof/Laws/Uniform.lean ====
section
/-! SUPPORT. What the shared forms of uniform instructions do once their checks pass (R165, R274). -/

namespace Sys2Proof.Machine

/-- A uniform instruction whose guard is true and whose checks pass performs its effect. -/
theorem uniformC_run {s : State} {x : Sel} {h : Hd} {u : Uses} {chk : W → Course → Option Nat} {f : Meaning} {e : Env}
    (hC : Clear s x (uniReads x.c h u) x.x) (hQ : Quiet s x h.sw) (hg : guardOn x.c h = true) (hk : chk s.w x.c = none) :
    uniformC h u chk f e s.w x = f e s.w x := by
  simp only [uniformC, uniformL, hg, if_true, hk, ite_self]
  rw [uniReads, if_pos hg] at hC
  rw [staged_clear e _ hC hQ, sourced_clear e _ _ hC]

/-- A uniform instruction whose guard is false advances the lanes of X and does nothing else; it reads its guard alone. -/
theorem uniformC_skip {s : State} {x : Sel} {h : Hd} {u : Uses} {chk : W → Course → Option Nat} {f : Meaning} {e : Env}
    (hC : Clear s x (uniReads x.c h u) x.x) (hQ : Quiet s x h.sw) (hg : guardOn x.c h = false) :
    uniformC h u chk f e s.w x = done e s.w (advance (takeEntries x.c u.entries) x.x 4) x h.sw false := by
  simp only [uniformC, uniformL, hg, Bool.false_eq_true, if_false]
  rw [uniReads, hg, if_neg Bool.false_ne_true] at hC
  rw [guarded_clear _ _ hC hQ]

/-- A check of group 1 that fails takes its fault for the lanes of X (R165). -/
theorem uniformC_fault {x : Sel} {w : W} {h : Hd} {u : Uses} {chk : W → Course → Option Nat} {f : Meaning} {e : Env} {n : Nat}
    (hw : x.c.w.used + u.entries ≤ 16) (hg : guardOn x.c h = true) (hk : chk w x.c = some n) :
    uniformC h u chk f e w x = faulted e w x.c x fun w c => faultPc e w c n x.x := by
  simp only [uniformC, uniformL, hw, hg, hk, if_true]

theorem putS_fold (l : List (Nat × Word)) : ∀ (c : Course),
    let d := l.foldl (fun c (r, v) => putS c r v) c
    d.id = c.id ∧ d.v = c.v ∧ d.w = c.w ∧ d.k = c.k ∧ d.r = { c.r with s := d.r.s } ∧
    ∀ j, j < 64 → j ∉ l.map (·.1) → getS d j = getS c j := by
  induction l with
  | nil => intro c; exact ⟨rfl, rfl, rfl, rfl, rfl, fun _ _ _ => rfl⟩
  | cons a r ih =>
    intro c
    obtain ⟨h1, h2, h3, h4, h5, h6⟩ := ih (putS c a.1 a.2)
    refine ⟨h1, h2, h3, h4, ?_, ?_⟩
    · simp only [List.foldl_cons]; rw [h5]; rfl
    · intro j hj hn
      simp only [List.map_cons, List.mem_cons, not_or] at hn
      simp only [List.foldl_cons]
      rw [h6 j hj hn.2, getS_putS _ _ _ _ hj, if_neg hn.1]

/-- A uniform instruction of one S destination: written when its guard is true, everything else as the frame says (R274). -/
theorem uniS_spec {s : State} {x : Sel} {h : Hd} {srcs qs : List Nat} {d : R64} {f : Course → Word} (hI : Issues s x)
    (hC : Clear s x (uniReads x.c h { Uses.none with s := srcs, q := qs }) x.x) (hQ : Quiet s x h.sw) :
    ∃ t c', runIssue (uniS h srcs qs fun c => [(d.val, f c)]) s = .next t ∧ Ran s t x c' ∧ Still s t ∧
      t.w.flights = s.w.flights ∧ Keeps x.c c' [] (if guardOn x.c h then [d.val] else []) [] [] ∧ FlagsKept x.c c' ∧
      Advanced x c' 4 ∧ (guardOn x.c h = true → getS c' d.val = f x.c) := by
  set c := advance (if guardOn x.c h then putS x.c d.val (f x.c) else x.c) x.x 4 with hc
  have hF : uniS h srcs qs (fun c => [(d.val, f c)]) s.env s.w x = done s.env s.w c x h.sw false := by
    unfold uniS uniform
    by_cases hg : guardOn x.c h = true
    · rw [uniformC_run hC hQ hg rfl, hc, if_pos hg]
      rfl
    · have hg' : guardOn x.c h = false := by simpa using hg
      rw [uniformC_skip hC hQ hg', hc, hg']
      rfl
  have cases2 : ∀ P : Course → Prop, P (putS x.c d.val (f x.c)) → P x.c →
      P (if guardOn x.c h then putS x.c d.val (f x.c) else x.c) := by
    intro P h1 h2; split
    · exact h1
    · exact h2
  have hst : c.r.status = x.c.r.status := cases2 (fun c => c.r.status = x.c.r.status) rfl rfl
  have hid : c.id = x.c.id := cases2 (fun c => c.id = x.c.id) rfl rfl
  have hv : c.v = x.c.v := cases2 (fun c => c.v = x.c.v) rfl rfl
  have hsl : c.r.slots = x.c.r.slots := cases2 (fun c => c.r.slots = x.c.r.slots) rfl rfl
  obtain ⟨c', h1, h2, h3, h4, h5, h6, _⟩ := finish_still hI
    (F := fun e w => uniS h srcs qs (fun c => [(d.val, f c)]) e w x) hF rfl hid (hI.live_ne hst)
    (fun n _ => by simp only [slotLanecyc, slotF, slotBits, hsl])
    (hQ.of hid (by simp only [quadOf, hv]) (cases2 (fun c => c.k = x.c.k) rfl rfl)
      (cases2 (fun c => c.w.buf = x.c.w.buf) rfl rfl))
  have hs : ∀ j, j < 64 → getS c' j = if guardOn x.c h = true ∧ j = d.val then f x.c else getS x.c j := by
    intro j hj
    have : getS c' j = getS c j := by simp only [getS]; rw [h5]
    rw [this, hc]
    by_cases hg : guardOn x.c h = true
    · simp only [hg, if_true, true_and]
      exact getS_putS _ _ _ _ hj
    · simp only [hg, false_and, if_false]
      rfl
  refine ⟨_, c', runIssue_next _ hI, h1, h2, h3, ?_, ?_, ?_, ?_⟩
  · refine ⟨fun r _ => ?_, fun r hr hn => ?_, fun r _ _ => ?_, fun r _ _ => ?_, ?_, ?_, ?_, ?_, ?_⟩
    · rw [getV_congr (h4.trans hv), poisV_congr (h4.trans hv)]; exact ⟨rfl, rfl⟩
    · rw [hs r hr, if_neg]
      rintro ⟨hg, he⟩
      rw [if_pos hg] at hn
      exact hn (by simp [he])
    · simp only [getP]; rw [h5]
      exact cases2 (fun c => (if r = 7 then _ else nth c.r.p r 0) = _) rfl rfl
    · simp only [getQ]; rw [h5]
      exact cases2 (fun c => (r == 7 || c.r.q.getLsbD r) = _) rfl rfl
    · rw [h5]; exact cases2 (fun c => c.r.d = x.c.r.d) rfl rfl
    · rw [h5]; exact cases2 (fun c => c.r.a = x.c.r.a) rfl rfl
    · rw [h5]; exact cases2 (fun c => c.r.tl = x.c.r.tl) rfl rfl
    · rw [h5]; exact hst
    · intro n hn i hi _; rw [h6 n hn i hi]; simp only [slotBits, hsl]
  · intro n hn; rw [h6.flags n hn]; simp only [slotFlags, slotF, slotBits, hsl]
  · intro k hk
    have : lpc c' k = lpc c k := by simp only [lpc]; rw [h5]
    rw [this, hc, lpc_advance _ _ _ hk]
    exact cases2 (fun c => (if mHas x.x k = true then lpc c k + _ else lpc c k) = _) rfl rfl
  · intro hg
    rw [hs d.val d.isLt, if_pos ⟨hg, rfl⟩]

/-- A uniform instruction of one Q destination: written when its guard is true; a write of Q7 changes nothing (R43, R274). -/
theorem uniQ_spec {s : State} {x : Sel} {h : Hd} {srcs qs : List Nat} {d : R8} {f : Course → Bool} (hI : Issues s x)
    (hC : Clear s x (uniReads x.c h { Uses.none with s := srcs, q := qs }) x.x) (hQ : Quiet s x h.sw) :
    ∃ t c', runIssue (uniQ h srcs qs d.val f) s = .next t ∧ Ran s t x c' ∧ Still s t ∧
      t.w.flights = s.w.flights ∧ Keeps x.c c' [] [] [] (if guardOn x.c h then [d.val] else []) ∧ FlagsKept x.c c' ∧
      Advanced x c' 4 ∧ (guardOn x.c h = true → getQ c' d.val = if d.val = 7 then true else f x.c) := by
  set c := advance (if guardOn x.c h then putQ x.c d.val (f x.c) else x.c) x.x 4 with hc
  have hF : uniQ h srcs qs d.val f s.env s.w x = done s.env s.w c x h.sw false := by
    unfold uniQ uniform
    by_cases hg : guardOn x.c h = true
    · rw [uniformC_run hC hQ hg rfl, hc, if_pos hg]
    · have hg' : guardOn x.c h = false := by simpa using hg
      rw [uniformC_skip hC hQ hg', hc, hg']
      rfl
  have cases2 : ∀ P : Course → Prop, P (putQ x.c d.val (f x.c)) → P x.c →
      P (if guardOn x.c h then putQ x.c d.val (f x.c) else x.c) := by
    intro P h1 h2; split
    · exact h1
    · exact h2
  have hst : c.r.status = x.c.r.status := cases2 (fun c => c.r.status = x.c.r.status) (by simp) rfl
  have hid : c.id = x.c.id := cases2 (fun c => c.id = x.c.id) (by simp) rfl
  have hv : c.v = x.c.v := cases2 (fun c => c.v = x.c.v) (by simp) rfl
  have hsl : c.r.slots = x.c.r.slots := cases2 (fun c => c.r.slots = x.c.r.slots) (by simp) rfl
  obtain ⟨c', h1, h2, h3, h4, h5, h6, _⟩ := finish_still hI (F := fun e w => uniQ h srcs qs d.val f e w x) hF rfl hid
    (hI.live_ne hst) (fun n _ => by simp only [slotLanecyc, slotF, slotBits, hsl])
    (hQ.of hid (by simp only [quadOf, hv]) (cases2 (fun c => c.k = x.c.k) (by simp) rfl)
      (cases2 (fun c => c.w.buf = x.c.w.buf) (by simp) rfl))
  have hq : ∀ j, j < 8 → getQ c' j =
      if guardOn x.c h = true then getQ (putQ x.c d.val (f x.c)) j else getQ x.c j := by
    intro j hj
    have : getQ c' j = getQ c j := by simp only [getQ]; rw [h5]
    rw [this, hc]
    by_cases hg : guardOn x.c h = true
    · simp only [hg, if_true]; rfl
    · simp only [hg, if_false]; rfl
  refine ⟨_, c', runIssue_next _ hI, h1, h2, h3, ?_, ?_, ?_, ?_⟩
  · refine ⟨fun r _ => ?_, fun r _ _ => ?_, fun r _ _ => ?_, fun r hr hn => ?_, ?_, ?_, ?_, ?_, ?_⟩
    · rw [getV_congr (h4.trans hv), poisV_congr (h4.trans hv)]; exact ⟨rfl, rfl⟩
    · simp only [getS]; rw [h5]
      exact cases2 (fun c => nth c.r.s r 0 = nth x.c.r.s r 0) (by simp) rfl
    · simp only [getP]; rw [h5]
      exact cases2 (fun c => (if r = 7 then _ else nth c.r.p r 0) = _) (by simp) rfl
    · rw [hq r hr]
      split
      · rename_i hg
        rw [if_pos hg] at hn
        have hne : r ≠ d.val := by simpa using hn
        rw [getQ_putQ _ _ _ _ d.isLt hr, if_neg hne]
        by_cases h7 : r = 7
        · subst h7; simp [getQ]
        · rw [if_neg h7]
      · rfl
    · rw [h5]; exact cases2 (fun c => c.r.d = x.c.r.d) (by simp) rfl
    · rw [h5]; exact cases2 (fun c => c.r.a = x.c.r.a) (by simp) rfl
    · rw [h5]; exact cases2 (fun c => c.r.tl = x.c.r.tl) (by simp) rfl
    · rw [h5]; exact hst
    · intro n hn i hi _; rw [h6 n hn i hi]; simp only [slotBits, hsl]
  · intro n hn; rw [h6.flags n hn]; simp only [slotFlags, slotF, slotBits, hsl]
  · intro k hk
    have : lpc c' k = lpc c k := by simp only [lpc]; rw [h5]
    rw [this, hc, lpc_advance _ _ _ hk]
    exact cases2 (fun c => (if mHas x.x k = true then lpc c k + _ else lpc c k) = _) (by simp [lpc]) rfl
  · intro hg
    rw [hq d.val d.isLt, if_pos hg, getQ_putQ _ _ _ _ d.isLt d.isLt, if_pos rfl]

end Sys2Proof.Machine
end

