-- ==== Sys2Proof/Tests/Demo.lean ====
section
/-! SUPPORT. A small machine on which the hypotheses of the statements are shown to be met: one partition with core 0, one launch of one
consort of one course with four lanes, resident. -/

namespace Sys2Proof.Tests

set_option Elab.async false

open Sys2Proof Sys2Proof.Machine Sys2Proof.Claims

/-- The header: one course, a scratch window of 32 KiB, accumulator rows 64, lane-local and argument segments, two counters. -/
def hdr : Hdr :=
  { progHdr with scrb := 32768, accr := 64, lclb := 64, lcladdr := 0x400000, argaddr := 0x500000, argsize := 64, tlcnt := 2, compaddr := 0x600000 }

def launch : Launch :=
  { mkLaunch hdr 0 .single [⟨0, 0, 0, 7, 4⟩] 0 0 true 0 none none none with slots := [⟨[0], 0, some 0⟩], next := 1 }

def consort : Consort :=
  { newConsort 0 0 launch [0] 0 with
    st := .placed, pw := [0], rows := [[0], [0], [0], [0]], scales := [[0], [0], [0], [0]], csave := 0x10190000, live := 1 }

/-- Core 0 with the consort's scratch blocks, row groups, scale groups and counters. -/
def core0 : CoreSt :=
  { CoreSt.init with
    blocks := [(0, 0), (1, 0)], groups := [(0, 0), (8, 0), (16, 0), (24, 0)], scales := [(0, 0), (8, 0), (16, 0), (24, 0)],
    tlOwner := [(0, 0), (1, 0)] }

/-- The resident course. -/
def course : Course :=
  let c := courseInit W.init 0 consort launch 0 0x10180000 0
  { c with k := { c.k with at_ := .resident, isNew := false } }

/-- The state with the course changed by f and the rest by g. -/
def stateOf (f : Course → Course) (g : W → W) : State :=
  let s := fetchState State.reset 0
  { s with w := g { s.w with launches := [(0, launch)], consorts := [(0, consort)], cores := [(0, core0)], courses := [(0, f course)] } }

/-- The issue of the four lanes of that course. -/
def selOf (f : Course → Course) : Sel :=
  { c := f course, pc := 0x100000, x := 0xF, free := 0xF, held := 0, turn := none, started := false }

/-- The checks of `Clear`, computed. -/
def clearB (s : State) (x : Sel) (u : Uses) (m : Mask) : Bool :=
  decide (x.c.w.used + u.entries ≤ 16) && (missingLine x.c u false).isNone && (m == 0 || (poisonedUnit x.c u).isNone) &&
    (newLines x.c u.d == 0 || decide (lineCount (setCourse s.w x.c) (quadOf x.c) + newLines x.c u.d ≤ 2048))

theorem clear_of {s : State} {x : Sel} {u : Uses} {m : Mask} (h : clearB s x u m = true) : Clear s x u m := by
  simp only [clearB, Bool.and_eq_true, Bool.or_eq_true, decide_eq_true_eq, Option.isNone_iff_eq_none, beq_iff_eq] at h
  exact ⟨h.1.1.1, h.1.1.2, h.1.2, h.2⟩

/-- The first checks of an instruction, computed. -/
def standsB (s : State) (x : Sel) (u : Uses) (sw : Bool) : Bool :=
  let vs := u.d ++ markerV s.w x.c sw
  decide (x.c.w.used + u.entries ≤ 16) && (missingLine x.c u sw).isNone &&
    (newLines x.c vs == 0 || decide (lineCount (setCourse s.w x.c) (quadOf x.c) + newLines x.c vs ≤ 2048))

/-- They pass: the window has room, no register it names misses, and the cache has room for the lines it allocates. -/
theorem stands_of {s : State} {x : Sel} {u : Uses} {sw : Bool} (h : standsB s x u sw = true) : Stands s x u sw := by
  simp only [standsB, Bool.and_eq_true, Bool.or_eq_true, decide_eq_true_eq, Option.isNone_iff_eq_none, beq_iff_eq] at h
  exact ⟨h.1.1, h.1.2, h.2⟩

/-- The lines of a course lie in its quadrant, computed. -/
theorem near_of {c : Course} (h : (c.v.lines.all fun p => p.2.quad == quadOf c) = true) : NearLines c := by
  simpa [NearLines] using h

theorem nears_of {s : State} (h : (s.w.courses.all fun y => y.2.v.lines.all fun p => p.2.quad == quadOf y.2) = true) :
    ∀ y ∈ s.w.courses, NearLines y.2 := fun y hy => near_of (List.all_eq_true.mp h y hy)

/-- What is asked of a state for its issue, computed. -/
def issuesB (s : State) (x : Sel) : Bool :=
  issueOf s.env s.w == .go x && !x.c.w.closing && s.w.wb == [] && s.mem.wf

theorem issues_of {s : State} {x : Sel} (h : issuesB s x = true) : Issues s x := by
  simp only [issuesB, Bool.and_eq_true, beq_iff_eq, Bool.not_eq_true'] at h
  exact ⟨h.1.1.1, h.1.1.2, h.1.2, h.2⟩

/-- Courses listed once under their CIDs, computed. -/
def keyedB (s : State) : Bool :=
  decide ((s.w.courses.map (·.1)).Pairwise (· < ·)) && s.w.courses.all fun p => p.2.id.cid == p.1

theorem keyed_of {s : State} (h : keyedB s = true) : Keyed s := by
  simp only [keyedB, Bool.and_eq_true, decide_eq_true_eq, List.all_eq_true, beq_iff_eq] at h
  exact h

theorem inv_of {s : State} (h : (s.mem.wf && s.w.wb == []) = true) : s.Inv := by
  simp only [Bool.and_eq_true, beq_iff_eq] at h
  exact ⟨h.1, h.2⟩

/-- The privileged course as it is, and one without privilege. -/
def demo : State := stateOf id id
def demoX : Sel := selOf id
def user (c : Course) : Course := { c with id := { c.id with priv := false } }
def demoU : State := stateOf user id
def demoUX : Sel := selOf user

theorem demo_issues : Issues demo demoX := issues_of (by decide +kernel)
theorem demo_keyed : Keyed demo := keyed_of (by decide +kernel)
theorem demo_inv : demo.Inv := inv_of (by decide +kernel)
theorem demoU_issues : Issues demoU demoUX := issues_of (by decide +kernel)
theorem demoU_keyed : Keyed demoU := keyed_of (by decide +kernel)

/-- No result is outstanding: a switch marker closes an empty window. -/
theorem demo_quiet (sw : Bool) : Quiet demo demoX sw := .inr ⟨rfl, by decide +kernel⟩
theorem demoU_quiet (sw : Bool) : Quiet demoU demoUX sw := .inr ⟨rfl, by decide +kernel⟩

/-- The head of an instruction for every lane, and of one that no lane executes. -/
def all : Hd := ⟨false, 7⟩
def off : Hd := ⟨false, 0⟩

/-- A property of every lane of a mask, computed. -/
def lanesB (m : Mask) (p : Nat → Bool) : Bool := (List.range 32).all fun k => !mHas m k || p k

theorem lanes_of {p : Nat → Prop} {m : Mask} {b : Nat → Bool} (hb : ∀ k, b k = true → p k) (h : lanesB m b = true) :
    ∀ k, mHas m k = true → p k := by
  intro k hk
  by_cases h32 : k < 32
  · have := List.all_eq_true.mp h k (List.mem_range.mpr h32)
    rw [hk] at this
    exact hb k (by simpa using this)
  · exact absurd hk (by rw [mHas, BitVec.getLsbD_of_ge _ _ (by omega)]; decide)

/-- Whether a result is one, computed. -/
def okB {a b : Type} : Except a b → Bool
  | .ok _ => true
  | .error _ => false

theorem ok_of {a b : Type} {r : Except a b} (h : okB r = true) : ∃ y, r = .ok y := by
  cases r with
  | ok y => exact ⟨y, rfl⟩
  | error _ => simp [okB] at h

theorem error_of {a b : Type} {r : Except a b} (h : okB r = false) : ∃ y, r = .error y := by
  cases r with
  | ok y => simp [okB] at h
  | error y => exact ⟨y, rfl⟩

end Sys2Proof.Tests
end

