-- ==== Sys2Proof/Tests/Slice0.lean ====
section
/-! SUPPORT. Tests: words written out in the spec decode to the instructions they stand for, an ill-formed term for each check of
well-formedness, and single steps with the results of the spec's worked examples. -/

namespace Sys2Proof.Tests

set_option Elab.async false

open Sys2Proof Sys2Proof.Machine Sys2Proof.Claims

/-! ## Decoding: the words of the spec's worked encodings -/

/-- From spec/13 and spec/14, 'Worked encodings'. -/
theorem test_decode_integer_words :
    decodeTableWord 32 0x0070C108 = some (.iadd ⟨false, 7⟩ 3 1 2 .wrap) ∧
    decodeTableWord 32 0x01F14109 = some (.imulh ⟨false, 7⟩ 5 1 2 true) ∧
    decodeTableWord 32 0x0AA0C415 = some (.sel ⟨false, 2⟩ 3 4 5 1) ∧
    decodeTableWord 32 0x0B748419 = some (.icmp ⟨false, 7⟩ 2 .lt 4 6 true) ∧
    decodeTableWord 32 0x13F342FD = some (.icmpi ⟨false, 7⟩ 1 .ge 2 0xFD) := by
  decide +kernel

/-- From spec/13, the code image, and spec/14, the quantisation example. -/
theorem test_decode_move_words :
    decodeTableWord 32 0x2A704000 = some (.widx ⟨false, 7⟩ 1 0 false) ∧
    decodeTableWord 32 0x11F08000 = some (.movs ⟨false, 7⟩ 2 0) ∧
    decodeTableWord 32 0x11724A00 = some (.mov ⟨false, 7⟩ 9 10) := by
  decide +kernel

/-- From spec/14, 'Worked encodings' and the quantisation example. -/
theorem test_decode_float_words :
    decodeTableWord 32 0x15F1C109 = some (.fmac ⟨false, 7⟩ 7 1 2 .rz) ∧
    decodeTableWord 32 0x1BF185A0 = some (.cvt ⟨false, 7⟩ 6 5 .f16SR .rne) ∧
    decodeTableWord 32 0x1EF0814C = some (.cvtf8 ⟨false, 7⟩ 2 1 (.widen true 2) .rne) ∧
    decodeTableWord 32 0x1FF10119 = some (.rand ⟨false, 7⟩ 4 1 6 true) ∧
    decodeTableWord 32 0x1F728300 = some (.sclx ⟨false, 7⟩ 10 3 .e4m3 .rne) ∧
    decodeTableWord 32 0x1F724820 = some (.sclx ⟨false, 7⟩ 9 8 .apply .rne) := by
  decide +kernel

/-- From spec/13 and spec/15, 'Worked encodings'. -/
theorem test_decode_memory_words :
    decodeTableWord 32 0x62730D90 = some (.lds ⟨true, 7⟩ 12 13 .b4 16) ∧
    decodeTableWord 32 0x207102C2 = some (.ld ⟨false, 7⟩ 4 2 .b8 2) ∧
    decodeTableWord 32 0x21F142A0 = some (.strel ⟨false, 7⟩ 5 2 .b4 .dv) ∧
    decodeTableWord 32 0x24784218 = some (.atadd ⟨false, 7⟩ .dv false .f32 2 6 .rlx) ∧
    decodeTableWord 32 0x25FA021B = some (.atcas ⟨false, 7⟩ .dv .w32 2 6 .ar) := by
  decide +kernel

/-- From spec/15, 'Worked encodings'. -/
theorem test_decode_lane_words :
    decodeTableWord 32 0x28714407 = some (.shfl ⟨false, 7⟩ 5 4 1 .flip) ∧
    decodeTableWord 32 0x28F18402 = some (.vote ⟨false, 7⟩ 6 4 .mask) ∧
    decodeTableWord 32 0x2971C400 = some (.redl ⟨false, 7⟩ 7 4 .iadd .rne) ∧
    decodeTableWord 32 0x2AF24000 = some (.ownq ⟨false, 7⟩ 9 .slot) ∧
    decodeTableWord 32 0x2B100003 = some (.bra ⟨false, 1⟩ 3) ∧
    decodeTableWord 32 0x2C7F8005 = some (.call ⟨false, 7⟩ 62 5) ∧
    decodeTableWord 32 0x2D700000 = some (.recon ⟨false, 7⟩) ∧
    decodeTableWord 32 0x2E700007 = some (.trap ⟨false, 7⟩ 7) := by
  decide +kernel

/-- From spec/13 and spec/16, 'Worked encodings'. -/
theorem test_decode_uniform_words :
    decodeTableWord 32 0x80704108 = some (.sadd ⟨false, 7⟩ 1 1 2 .wrap) ∧
    decodeTableWord 32 0x85F2C20C = some (.scmp ⟨false, 7⟩ 1 .le 2 3 false) ∧
    decodeTableWord 32 0x86F00064 = some (.smovi ⟨false, 7⟩ 0 100) ∧
    decodeTableWord 32 0x89710102 = some (.argld ⟨false, 7⟩ 4 1 2) ∧
    decodeTableWord 32 0x8C1FFFFD = some (.ubra ⟨false, 1⟩ (-3)) ∧
    decodeTableWord 32 0x8E700000 = some (.exit ⟨false, 7⟩) := by
  decide +kernel

/-- From spec/16, 'Worked encodings'. -/
theorem test_decode_sync_words :
    decodeTableWord 32 0x8F700700 = some (.waittl ⟨false, 7⟩ 0 7) ∧
    decodeTableWord 32 0x91714D04 = some (.bardl ⟨false, 7⟩ 5 3 2 4) ∧
    decodeTableWord 32 0x91F0C200 = some (.tktake ⟨false, 7⟩ 3 2) ∧
    decodeTableWord 32 0x93700002 = some (.fence ⟨false, 7⟩ .dv) ∧
    decodeTableWord 32 0x93F18400 = some (.launchq ⟨false, 7⟩ 6 4) ∧
    decodeTableWord 32 0x9C78C405 = some (.mfsr ⟨false, 7⟩ true 3 0x405) := by
  decide +kernel

/-- From spec/13 and spec/17, 'Worked encodings'. -/
theorem test_decode_engine_words :
    decodeTableWord 32 0x94700800 = some (.dsetD ⟨false, 7⟩ 0 8) ∧
    decodeTableWord 32 0x94745000 = some (.dsetA ⟨false, 7⟩ 1 16 0) ∧
    decodeTableWord 32 0x94F4C08C = some (.mma ⟨false, 7⟩ 9 true 0 2 3 0) ∧
    decodeTableWord 32 0x94F4848C = some (.mma ⟨false, 7⟩ 9 false 1 2 3 0) ∧
    decodeTableWord 32 0x95740000 = some (.azero ⟨false, 7⟩ 8 0 0) ∧
    decodeTableWord 32 0x95F50200 = some (.astp ⟨false, 7⟩ 10 0 4 .rne 0) ∧
    decodeTableWord 32 0x96708800 = some (.aldp ⟨false, 7⟩ 1 1 0 false 0) ∧
    decodeTableWord 32 0x96F10880 = some (.arow ⟨false, 7⟩ 2 1 1 .sum 0) ∧
    decodeTableWord 32 0x96F1890C = some (.arow ⟨false, 7⟩ 3 1 2 .maxx 0) := by
  decide +kernel

/-- From spec/13 and spec/17, 'Worked encodings'. -/
theorem test_decode_copy_words :
    decodeTableWord 32 0x97730A84 = some (.scld ⟨false, 7⟩ 6 1 5 true 0) ∧
    decodeTableWord 32 0x97F38880 = some (.copy ⟨false, 7⟩ 7 1 4 0) ∧
    decodeTableWord 32 0x98728881 = some (.copym ⟨false, 7⟩ 5 1 4 1) ∧
    decodeTableWord 32 0x99F51803 = some (.coll ⟨false, 7⟩ 10 12 3) ∧
    decodeTableWord 32 0x9A718000 = some (.tlread ⟨false, 7⟩ 6 0) ∧
    decodeTableWord 32 0x9AF20002 = some (.tlsig ⟨false, 7⟩ 4 2) ∧
    decodeTableWord 32 0x9B71C900 = some (.engst ⟨false, 7⟩ 7 9 0) := by
  decide +kernel

/-- From spec/13, 'Worked encodings': MOVL V1, 0x7FC0_0000 with its literal word. -/
theorem test_decode_literal : decodeTableWord 64 (0x10F04000 + 0x7FC00000 * 2 ^ 32) = some (.movl ⟨false, 7⟩ 1 0x7FC00000) := by
  decide +kernel

/-- R213: a word of an opcode that the table does not list. -/
theorem test_decode_reserved : decodeTableWord 32 0xFFFFFFFF = none := by decide +kernel

/-- The words of the code image of spec/13, encoded. -/
theorem test_encode_image : [Instr.widx ⟨false, 7⟩ 1 0 false, .smovi ⟨false, 7⟩ 0 100, .movs ⟨false, 7⟩ 2 0, .iadd ⟨false, 7⟩ 3 1 2 .wrap,
    .exit ⟨false, 7⟩].map encode =
    [some [0x2A704000], some [0x86F00064], some [0x11F08000], some [0x0070C108], some [0x8E700000]] := by decide +kernel

/-! ## Well-formedness: one ill-formed term for each check (R214, R215) -/

theorem test_wf_compare_unordered : [Instr.icmp all 1 .un 2 3 false, .icmpi all 1 .un 2 3, .scmp all 1 .un 2 3 false].map Instr.wf =
    [false, false, false] := by decide

theorem test_wf_not_with_b : [Instr.plog all 1 .not 2 1, .qlog all 1 .not 2 1].map Instr.wf = [false, false] := by decide

theorem test_wf_rounding : [Instr.cvt all 1 2 .f32I8 .rz, .cvtf8 all 1 2 (.widen true 0) .rz, .cvtf8 all 1 2 (.narrow true true) .rz,
    .sclx all 1 2 .e4m3 .rz, .redl all 1 2 .iadd .rz, .scanl all 1 2 .iadd false .rz].map Instr.wf =
    [false, false, false, false, false, false] := by decide

theorem test_wf_pairs : [Instr.lea all 1 2 0 0, .lea all 2 1 0 0, .fmaxx all 1 2 4, .fmaxx all 2 1 4, .fmaxx all 2 4 1,
    .ld all 2 3 .b4 0, .ld all 3 2 .b8 0, .st all 2 3 .b4 0, .st all 3 2 .b8 0].map Instr.wf =
    [false, false, false, false, false, false, false, false, false] := by decide

theorem test_wf_sync_pairs : [Instr.ldacq all 2 3 .b4 .dv, .ldacq all 3 2 .b8 .dv, .strel all 2 3 .b4 .dv, .strel all 3 2 .b8 .dv,
    .atadd all .dv false .i32 3 2 .rlx, .atadd all .dv false .i64 2 3 .rlx, .atexch all .dv .w32 3 2 .rlx, .atexch all .dv .w64 2 3 .rlx,
    .atcas all .dv .w32 2 3 .rlx, .atcas all .dv .w64 2 6 .rlx, .atcas all .dv .w32 3 2 .rlx].map Instr.wf =
    [false, false, false, false, false, false, false, false, false, false, false] := by decide

theorem test_wf_scratch_pairs : [Instr.lds all 3 2 .b8 0, .sts all 3 2 .b8 0, .ldl all 3 2 .b8 0, .stl all 3 2 .b8 0].map Instr.wf =
    [false, false, false, false] := by decide

theorem test_wf_shuffles : [Instr.shfl all 1 2 32 .step, .shfl all 1 2 32 .flip].map Instr.wf = [false, false] := by decide

theorem test_wf_uniform_pairs : [Instr.sld all 2 3 .b4 0, .sld all 3 2 .b8 0, .sst all 2 3 .b4 0, .sst all 3 2 .b8 0, .exitSucc all 3,
    .launchq all 2 3].map Instr.wf = [false, false, false, false, false, false] := by decide

theorem test_wf_descriptors : [Instr.dsetD all 0 4, .dsetA all 0 2 0, .dsetTl all 0 1].map Instr.wf = [false, false, false] := by decide

theorem test_wf_engines : [Instr.copy all 1 0 3 0, .copym all 1 0 3 0, .copyo all 1 0 3 0, .gather all 1 0 2 0, .coll all 1 3 0].map Instr.wf =
    [false, false, false, false, false] := by decide

theorem test_wf_privileged : [Instr.tlbinvPage all 1 2, .tlbinvCtx all 1, .keyopSet all 2 1, .keyopBump all 2 1, .keyopClear all 2 1,
    .keyopNewkey all 2 1, .svcall all 2 2 0].map Instr.wf = [false, false, false, false, false, false, false] := by decide

/-! ## Numbers -/

/-- R24's table: 1.1875 to E4M3 in RNE and RZ, and to E5M2. -/
theorem test_narrow_tie : [(e4m3.ofFv .rne (fp32.decode 0x3F980000)), (e4m3.ofFv .rz (fp32.decode 0x3F980000)),
    (e5m2.ofFv .rne (fp32.decode 0x3F980000))] = [(0x3A, 1), (0x39, 1), (0x3D, 1)] := by decide +kernel

/-- R24's table: 1.1875 to E4M3 stochastically. -/
theorem test_narrow_stochastic : [(e4m3.ofFvSr 0x7FFFFFFF (fp32.decode 0x3F980000)), (e4m3.ofFvSr 0x80000000 (fp32.decode 0x3F980000))] =
    [(0x3A, 1), (0x39, 1)] := by decide +kernel

/-- R32's examples, and the data image of spec/13: 3.0 at scales 127 and 126, 1.0 and -0.5. -/
theorem test_l6_codes : [cvtL6 0x40400000 127, cvtL6 0x40400000 126, cvtL6 0x3F800000 127, cvtL6 0xBF000000 127].map (·.1) =
    [0x16, 0x1A, 0x10, 0x2C] := by decide +kernel

/-- R77's rule in the example of spec/06: rows 0, 1, 7, 8 and 9 of a column at pitch 256. -/
theorem test_banks : [0, 256, 1792, 2048, 2304].map (bankOf 128) = [0, 16, 112, 1, 17] := by decide

/-- R161's table: 44 completes, then 42, then 43. -/
theorem test_timeline_order : let u : Tlc := { Tlc.init with issued := 44, done := 41 }
    [[44], [42, 44], [42, 43, 44]].map (fun m => ((Tlc.advance [] 300 { u with marked := m }).done).toNat) = [41, 42, 44] := by decide +kernel

/-! ## Single steps -/

/-- The course after one step from words at its PC. -/
def ran (f : Course → Course) (words : Nat) : Course :=
  match step { stateOf f id with mem := poke (stateOf f id).mem 0x100000 8 words } with
  | .next t => (course? t.w 0).getD course
  | _ => course

/-- A V register's value in the lanes 0 to 3. -/
def lanes4 (c : Course) (r : Nat) : List Nat := (List.range 4).map fun k => (laneOf (getV c r) k).toNat

/-- V registers of the four lanes. -/
def withV (r : Nat) (l : List Nat) (c : Course) : Course := putV c r 0xF (mkLine fun k => BitVec.ofNat 32 (nth l k 0))

/-- The quantisation of spec/14, line by line: SCLX.E4M3 of 1000.0. -/
theorem test_step_derive : lanes4 (ran (withV 3 [0x447A0000, 0x447A0000, 0x447A0000, 0x447A0000]) 0x1F728300) 10 = [0x81, 0x81, 0x81, 0x81] := by
  decide +kernel

/-- MOV V9, V10. -/
theorem test_step_mov : lanes4 (ran (withV 10 [0x81, 0x81, 0x81, 0x81]) 0x11724A00) 9 = [0x81, 0x81, 0x81, 0x81] := by decide +kernel

/-- SCLX.APPLY V9, V8 of 1000.0, -37.5, 0.046875 and 1.0 at scale 0x81. -/
theorem test_step_apply : lanes4 (ran (fun c => withV 8 [0x447A0000, 0xC2160000, 0x3D400000, 0x3F800000] (withV 9 [0x81, 0x81, 0x81, 0x81] c))
    0x1F724820) 9 = [0x437A0000, 0xC1160000, 0x3C400000, 0x3E800000] := by decide +kernel

/-- CVTF8.E4M3 V9, V9: the four codes, and NX alone in the owner's FLAGS. -/
theorem test_step_narrow : let c := ran (withV 9 [0x437A0000, 0xC1160000, 0x3C400000, 0x3E800000]) 0x1EF24900
    lanes4 c 9 = [0x78, 0xD1, 0x06, 0x28] ∧ slotFlags c 0 = 1 := by decide +kernel

/-- WIDX V1, 0 of spec/13: the lane's index. -/
theorem test_step_widx : lanes4 (ran id 0x2A704000) 1 = [0, 1, 2, 3] := by decide +kernel

/-- SMOVI S0, 100 of spec/13. -/
theorem test_step_smovi : getS (ran id 0x86F00064) 0 = 100 := by decide +kernel

/-- IADD V3, V1, V2 wraps (R236). -/
theorem test_step_iadd : lanes4 (ran (fun c => withV 1 [0xFFFFFFFF, 1, 5, 0] (withV 2 [1, 2, 0xFFFFFFFE, 0] c)) 0x0070C108) 3 = [0, 3, 3, 0] := by
  decide +kernel

/-- MOVL V1, 0x7FC0_0000: the literal, and the LPC past both words (R219). -/
theorem test_step_movl : let c := ran id (0x10F04000 + 0x7FC00000 * 2 ^ 32)
    lanes4 c 1 = [0x7FC00000, 0x7FC00000, 0x7FC00000, 0x7FC00000] ∧ lpc c 0 = 0x100008 := by decide +kernel

/-- (P1) BRA 3 words ahead, P1 of lanes 0 and 2 (R263). -/
theorem test_step_bra : let c := ran (fun c => putP c 1 0xF 5) 0x2B100003
    (List.range 4).map (fun k => (lpc c k).toNat) = [0x10000C, 0x100004, 0x10000C, 0x100004] := by decide +kernel

/-- (Q1) UBRA 3 words back, Q1 set and clear (R280). -/
theorem test_step_ubra : (lpc (ran (fun c => putQ c 1 true) 0x8C1FFFFD) 0).toNat = 0xFFFF4 ∧
    (lpc (ran id 0x8C1FFFFD) 0).toNat = 0x100004 := by decide +kernel

/-- CALL V62, sub 5 words ahead: the return address is the next word's (R264). -/
theorem test_step_call : let c := ran id 0x2C7F8005
    lanes4 c 62 = [0x100004, 0x100004, 0x100004, 0x100004] ∧ (lpc c 3).toNat = 0x100014 := by decide +kernel

/-- MFSR.H S3, 0x405 of spec/13, on the part with PCN 37, 58 and 71 fused off: the result that S3 awaits. -/
theorem test_step_mfsr : (match step { demo with
      fix := { demo.fix with harv1 := BitVec.ofNat 64 (2 ^ 1 + 2 ^ 22 + 2 ^ 35) }, mem := poke demo.mem 0x100000 4 0x9C78C405 } with
    | .next t => t.w.flights.map fun f => (f.dest, f.val)
    | _ => []) = [(.s 3, [8])] := by decide +kernel

/-- Bytes written with the first on the left. -/
def written (n v : Nat) : List Nat := ((leBytes n v).map (·.toNat)).reverse

/-- The first block of vector 10 of IEEE 1619, deciphered: the data by the cipher's inverse, the tweak by the cipher. -/
theorem test_xts : xtsBlock aesDec
    (written 64 0x27182818284590452353602874713526624977572470936999595749669676273141592653589793238462643383279502884197169399375105820974944592)
    (written 16 0xFF).reverse (written 16 0x1C3B3A102F770386E4836C99E370CF9B) = written 16 0x000102030405060708090A0B0C0D0E0F := by decide +kernel

/-- An instruction placed by the host's own means runs as the next step, from reset. -/
theorem test_placed : (match step (State.reset.withFetchWord 32 0x86F00064) with
    | .next t => t.w.courses.map fun p => getS p.2 0
    | _ => []) = [100] := by decide +kernel

/-- The step right after reset is step 1 of bring-up: BOOTST shows 1, neither ready nor failed (R201). -/
theorem test_first_step : (match step State.reset with
    | .next t => (t.w.hub.boot, t.w.hub.ready, t.w.hub.failed)
    | _ => (0, false, false)) = (1, false, false) := by decide +kernel

end Sys2Proof.Tests
end

