-- ==== Sys2Proof/Tests/WitnessCtl.lean ====
section
/-! SUPPORT. Witnesses: states and operands that meet the hypotheses of the statements about lane control and uniform instructions. -/

namespace Sys2Proof.Tests

set_option Elab.async false

open Sys2Proof Sys2Proof.Machine Sys2Proof.Claims

/-! ## Lane control -/

theorem witness_LaneAdvances : ∃ i h v, advanceRow i = some (h, v) ∧ Issues demo demoX ∧
    Clear demo demoX (laneUses h { Uses.none with v := v }) (if v = [] then readers demoX.c h demoX.x else 0) ∧ Quiet demo demoX h.sw :=
  ⟨.spinh all, _, _, rfl, demo_issues, clear_of (by decide +kernel), demo_quiet _⟩

theorem witness_LaneJumps : ∃ i row, jumpRow i = some row ∧ Issues demo demoX ∧ Clear demo demoX row.uses (row.reads demoX) ∧
    Quiet demo demoX row.h.sw ∧ row.v ≠ [] ∧ ∀ k, mHas (row.on demoX) k = true → (row.target demoX k).toNat % 4 = 0 :=
  ⟨.ret all 2, _, rfl, demo_issues, clear_of (by decide +kernel), demo_quiet _, by decide,
    lanes_of (b := fun k => decide ((vAt demoX.c 2 k).toNat % 4 = 0)) (by simp) (by decide +kernel)⟩

/-- V2 holds a lane's number: lanes 1 to 3 hold no multiple of 4. -/
def odd (c : Course) : Course := putV c 2 0xF (mkLine fun k => BitVec.ofNat 32 k)

theorem witness_LaneJumpMisaligned : ∃ row s x, jumpRow (.brx all 2) = some row ∧ row.v ≠ [] ∧ Issues s x ∧ Stands s x row.uses row.h.sw ∧
    Keyed s ∧ (∀ k, k < 32 → mHas (0xE : Mask) k = (mHas (row.on x) k && (row.target x k).toNat % 4 != 0)) ∧ (0xE : Mask) ≠ 0 :=
  ⟨_, stateOf odd id, selOf odd, rfl, by decide, issues_of (by decide +kernel), stands_of (by decide +kernel), keyed_of (by decide +kernel),
    by decide +kernel, by decide⟩

/-- Lanes are left live; no lane is left. -/
theorem witness_LaneExits : (Issues demo demoX ∧ ∀ h, Quiet demo demoX h) ∧
    (Clear demo demoX (laneUses off Uses.none) (readers demoX.c off demoX.x) ∧
      ∃ k, k < 32 ∧ (laneSt demoX.c k = 1 ∨ laneSt demoX.c k = 2) ∧ mHas (lanesOn demoX.c off demoX.x) k = false) ∧
    (Clear demo demoX (laneUses all Uses.none) (readers demoX.c all demoX.x) ∧
      ∀ k, k < 32 → laneSt demoX.c k = 1 ∨ laneSt demoX.c k = 2 → mHas (lanesOn demoX.c all demoX.x) k = true) :=
  ⟨⟨demo_issues, demo_quiet⟩, ⟨clear_of (by decide +kernel), 0, by decide +kernel⟩, clear_of (by decide +kernel), by decide +kernel⟩

theorem witness_LaneTraps : ∃ i h cause code, ((i = Instr.trap h code ∧ cause = 0x08) ∨ (i = Instr.bkpt h code ∧ cause = 0x09)) ∧
    Issues demo demoX ∧ Clear demo demoX (laneUses h Uses.none) (readers demoX.c h demoX.x) ∧ Quiet demo demoX h.sw ∧ Keyed demo ∧
    lanesOn demoX.c h demoX.x ≠ 0 :=
  ⟨.bkpt all 255, all, 9, 255, .inr ⟨rfl, rfl⟩, demo_issues, clear_of (by decide +kernel), demo_quiet _, demo_keyed, by decide +kernel⟩

/-! ## Uniform instructions -/

theorem witness_ScalarResults : ∃ i row, scalarRow i = some row ∧ Issues demo demoX ∧ Clear demo demoX (row.reads demoX.c) demoX.x ∧
    Quiet demo demoX row.h.sw ∧ guardOn demoX.c row.h = true :=
  ⟨.scsel all 3 1 2 6, _, rfl, demo_issues, clear_of (by decide +kernel), demo_quiet _, by decide +kernel⟩

theorem witness_ScalarPredicatesAndLiteral : ∃ h, Issues demo demoX ∧ Quiet demo demoX h.sw ∧ guardOn demoX.c h = true ∧
    Clear demo demoX (uniReads demoX.c h { Uses.none with s := [(1 : R64).val, (2 : R64).val] }) demoX.x ∧
    Clear demo demoX (uniReads demoX.c h { Uses.none with q := [(1 : R8).val, (2 : R8).val] }) demoX.x ∧
    Clear demo demoX (uniUses h Uses.none) demoX.x :=
  ⟨all, demo_issues, demo_quiet _, by decide +kernel, clear_of (by decide +kernel), clear_of (by decide +kernel),
    clear_of (by decide +kernel)⟩

theorem witness_UniformSkipped : ∃ i h n, uniHead i = some (h, n) ∧ Issues demo demoX ∧
    Clear demo demoX (uniUses h { Uses.none with entries := n }) demoX.x ∧
    Quiet demo demoX h.sw ∧ guardOn demoX.c h = false :=
  ⟨.bardl off 3 1 0 0, _, _, rfl, demo_issues, clear_of (by decide +kernel), demo_quiet _, by decide +kernel⟩

/-- A guard that is true skips nothing, and FENCE has the clause of its own. -/
theorem witness_UniformSkipped_fence : ∃ h, Issues demo demoX ∧ Clear demo demoX (uniUses h Uses.none) demoX.x ∧ Quiet demo demoX h.sw :=
  ⟨all, demo_issues, clear_of (by decide +kernel), demo_quiet _⟩

/-- An aligned target of a register. -/
theorem witness_UniformJumps : ∃ row, uniJumpRow (.uret all 63) = some row ∧ Issues demo demoX ∧ Clear demo demoX row.uses demoX.x ∧
    guardOn demoX.c row.h = true ∧ (row.target demoX).toNat % 4 = 0 ∧ Quiet demo demoX row.h.sw :=
  ⟨_, rfl, demo_issues, clear_of (by decide +kernel), by decide +kernel, by decide +kernel, demo_quiet _⟩

/-- S1 = v. -/
def s1 (v : Word) (c : Course) : Course := putS c 1 v

theorem witness_UniformJumps_misaligned : ∃ row s x, uniJumpRow (.ujmpx all 1) = some row ∧ Issues s x ∧ Stands s x row.uses row.h.sw ∧
    guardOn x.c row.h = true ∧ row.s ≠ [] ∧ (row.target x).toNat % 4 ≠ 0 ∧ Keyed s :=
  ⟨_, stateOf (s1 3) id, selOf (s1 3), rfl, issues_of (by decide +kernel), stands_of (by decide +kernel), by decide +kernel, by decide,
    by decide +kernel, keyed_of (by decide +kernel)⟩

/-! ## Uniform memory -/

/-- The places of a uniform access, as computed, and the checks of `UniPerforms`. -/
def uniPlaces (s : State) (x : Sel) (nd : Need) (n va slot : Nat) : List (Loc × Nat × Nat) :=
  match slotAccess s.env s.w x.c (uniOp nd n va) slot 0 with
  | .ok ls => ls
  | _ => []

def uniB (s : State) (x : Sel) (nd : Need) (n va slot : Nat) (q : List (Loc × Nat × Nat) → Bool) : Bool :=
  x.c.k.tmo.isNone && match slotAccess s.env s.w x.c (uniOp nd n va) slot 0 with
    | .ok ls => q ls
    | _ => false

theorem uni_of {s : State} {x : Sel} {nd : Need} {n va slot : Nat} {q : List (Loc × Nat × Nat) → Bool} (h : uniB s x nd n va slot q = true) :
    UniPerforms s x nd n va slot (uniPlaces s x nd n va slot) ∧ q (uniPlaces s x nd n va slot) = true := by
  simp only [uniB, Bool.and_eq_true, Option.isNone_iff_eq_none] at h
  obtain ⟨ht, h⟩ := h
  unfold uniPlaces
  split at h
  · exact ⟨⟨by simp_all, ht⟩, by simp_all⟩
  · simp at h

/-- World 0's blocks bear no encipherment. -/
def plain (w : W) (wd : Nat) : Bool := decide (wd = 0) && w.sec.cipher.isEmpty

theorem same_plain {w : W} {wd : Nat} {ls : List (Loc × Nat × Nat)} (h : plain w wd = true) : SameTag w wd ls := by
  simp only [plain, Bool.and_eq_true, decide_eq_true_eq, List.isEmpty_iff] at h
  intro l n i _ _
  rw [h.1, h.2]
  split
  · simp [tagOf, tGet?]
  · trivial

theorem witness_UniformLoads : ∃ h d a z o ls, Instr.wf (.sld h d a z o) = true ∧ Issues demo demoX ∧
    Clear demo demoX (uniUses h { Uses.none with s := [(a : R64).val, a.val + 1], entries := (regsOf z d).length }) demoX.x ∧
    Quiet demo demoX h.sw ∧ guardOn demoX.c h = true ∧ OneOwner demoX.c ∧
    UniPerforms demo demoX .read (sizeOf' z) (uniAddr demoX.c a z o) (lowSlot demoX) ls :=
  ⟨all, 4, 2, .b8, 63, _, by decide, demo_issues, clear_of (by decide +kernel), demo_quiet _, by decide +kernel, by
    unfold OneOwner; decide +kernel, (uni_of (q := fun _ => true) (by decide +kernel)).1⟩

/-- An argument within the limit, and one past it; the last of 64 bytes and the first beyond. -/
theorem witness_UniformLoads_argument : ∃ ls, Issues demo demoX ∧
    Clear demo demoX (uniUses all { Uses.none with entries := 1, sect := slotSects (0 : R8).val [6, 7] }) demoX.x ∧
    Stands demo demoX { Uses.none with entries := 1 } all.sw ∧ guardOn demoX.c all = true ∧ Keyed demo ∧ Quiet demo demoX all.sw ∧
    (slotArgLim demoX.c (0 : R8).val < 4 * (16 : Fin 256).val + 4) ∧ (4 * (15 : Fin 256).val + 4 ≤ slotArgLim demoX.c (0 : R8).val) ∧
    UniPerforms demo demoX .read 4 ((slotArgBase demoX.c (0 : R8).val + 4 * (15 : Fin 256).val) % 2 ^ 64) (0 : R8).val ls :=
  ⟨_, demo_issues, clear_of (by decide +kernel), stands_of (by decide +kernel), by decide +kernel, demo_keyed, demo_quiet _, by decide +kernel, by decide +kernel,
    (uni_of (q := fun _ => true) (by decide +kernel)).1⟩

/-- A course of a single launch with a payload. -/
def paid (c : Course) : Course := { c with id := { c.id with payload := some 0x1122334455667788 } }

theorem witness_UniformLoads_payload : ∃ s x p, Issues s x ∧
    Clear s x (uniUses all { Uses.none with entries := 1, sect := slotSects (0 : R8).val [6, 7] }) x.x ∧
    guardOn x.c all = true ∧ 4 * (1 : Fin 256).val + 4 ≤ slotArgLim x.c (0 : R8).val ∧ Quiet s x all.sw ∧ x.c.id.payload = some p :=
  ⟨stateOf paid id, selOf paid, _, issues_of (by decide +kernel), clear_of (by decide +kernel), by decide +kernel, by decide +kernel,
    .inl rfl, rfl⟩

theorem witness_UniformStores : ∃ h d a z o ls, Instr.wf (.sst h d a z o) = true ∧ Issues demo demoX ∧
    Clear demo demoX (uniUses h { Uses.none with s := [(a : R64).val, a.val + 1] ++ regsOf z d }) demoX.x ∧ Quiet demo demoX h.sw ∧
    guardOn demoX.c h = true ∧ OneOwner demoX.c ∧
    UniPerforms demo demoX .write (sizeOf' z) (uniAddr demoX.c a z o) (lowSlot demoX) ls ∧
    SameTag demo.w (slotWorld demoX.c (lowSlot demoX)) ls ∧ (placeKeys ls).Nodup :=
  have h := uni_of (q := fun ls => decide (placeKeys ls).Nodup) (by decide +kernel)
  ⟨all, 4, 2, .b8, 63, _, by decide, demo_issues, clear_of (by decide +kernel), demo_quiet _, by decide +kernel, by
    unfold OneOwner; decide +kernel, h.1, same_plain (by decide +kernel), by simpa using h.2⟩

/-! ## System registers -/

theorem witness_UniformReads : ∃ i row, readRow i = some row ∧ Issues demo demoX ∧ Clear demo demoX (uniUses row.h row.u) demoX.x ∧
    Quiet demo demoX row.h.sw ∧ guardOn demoX.c row.h = true ∧ row.may demoX.c ∧ row.near demo demoX.c :=
  ⟨.mfsr all true 3 0x403, _, rfl, demo_issues, clear_of (by decide +kernel), demo_quiet _, by decide +kernel, by
    refine ⟨⟨?_, ?_, ?_⟩, trivial⟩
    · unfold Assigned; decide
    · intro h1 h2; exact absurd h2 (by decide)
    · exact fun _ => by decide +kernel⟩

/-- The counter of TL0 is in reach. -/
theorem witness_UniformReads_counter : ∃ s x row, readRow (.tlread all 3 0) = some row ∧ Issues s x ∧ guardOn x.c row.h = true ∧
    Clear s x (uniUses row.h row.u) x.x ∧ row.may x.c ∧ row.near s x.c :=
  ⟨stateOf (putTL · 0 0x400) id, selOf (putTL · 0 0x400), _, rfl, issues_of (by decide +kernel), by decide +kernel, clear_of (by decide +kernel),
    by decide +kernel, by unfold CounterNear; decide +kernel⟩

theorem user_slot : SlotAllowed demoUX.c 0x101 := fun _ _ => .inr (by decide +kernel)

/-- An unprivileged course writes its own FLAGS. -/
theorem witness_SystemRegisterWrites : ∃ h hi a i, Issues demoU demoUX ∧
    Clear demoU demoUX (uniUses h { Uses.none with s := [(a : Fin 32).val] }) demoUX.x ∧ Quiet demoU demoUX h.sw ∧
    guardOn demoUX.c h = true ∧ Assigned (i : Fin 16384).val ∧ SlotAllowed demoUX.c i.val ∧ ¬ (0x400 ≤ i.val ∧ i.val ≤ 0x402) ∧
    (0x100 ≤ i.val → i.val < 0x180 → 2 ≤ i.val % 16 → i.val % 16 ≤ 7 → demoUX.c.id.priv = true) ∧ (hi : Bool) = false :=
  ⟨all, false, 3, 0x101, demoU_issues, clear_of (by decide +kernel), demoU_quiet _, by decide +kernel, by unfold Assigned; decide,
    user_slot, by decide, by decide, rfl⟩

/-- The course is privileged and writes the half of a 64-bit field, the argument base of slot 7. -/
theorem witness_SystemRegisterWrites_privileged : ∃ h a i, Issues demo demoX ∧
    Clear demo demoX (uniUses h { Uses.none with s := [(a : Fin 32).val] }) demoX.x ∧ Quiet demo demoX h.sw ∧
    guardOn demoX.c h = true ∧ Assigned (i : Fin 16384).val ∧ SlotAllowed demoX.c i.val ∧ ¬ (0x400 ≤ i.val ∧ i.val ≤ 0x402) ∧
    2 ≤ i.val % 16 ∧ i.val % 16 ≤ 7 ∧ demoX.c.id.priv = true :=
  ⟨all, 3, 0x176, demo_issues, clear_of (by decide +kernel), demo_quiet _, by decide +kernel, by unfold Assigned; decide,
    fun _ _ => .inl (by decide +kernel), by decide, by decide, by decide, by decide +kernel⟩

/-- An unassigned number, privileged numbers, an owner slot of another, a privileged field of the course's own slot, a head that may
stand in a ring of four and one that may not. -/
theorem witness_SystemRegisterTraps : Issues demoU demoUX ∧ Keyed demoU ∧ demoUX.c.w.used + 1 ≤ 16 ∧ guardOn demoUX.c all = true ∧
    demoUX.c.id.priv = false ∧ ¬ Assigned (7 : Fin 16384).val ∧ ¬ Assigned (0x548 : Fin 16384).val ∧ ¬ Assigned (0x109 : Fin 16384).val ∧
    (Assigned (0x178 : Fin 16384).val ∧ ¬ SlotAllowed demoUX.c (0x178 : Fin 16384).val) ∧
    (Assigned (0x102 : Fin 16384).val ∧ SlotAllowed demoUX.c (0x102 : Fin 16384).val) ∧
    (∃ f : Fq, f.size = 4 ∧ HeadOk f 2 ∧ ¬ HeadOk f 3) := by
  refine ⟨demoU_issues, demoU_keyed, by decide +kernel, by decide +kernel, by decide +kernel, ?_, ?_, ?_, ⟨?_, fun h => ?_⟩,
    ⟨?_, fun _ _ => .inr (by decide +kernel)⟩, ⟨{ Fq.init with size := 4, tail := 2 }, rfl, by unfold HeadOk; decide, by unfold HeadOk; decide⟩⟩
  case refine_5 =>
    rcases h (by decide) (by decide) with h | h
    · exact absurd h (by decide +kernel)
    · exact absurd (h 0 (by decide) (.inl (by decide +kernel))) (by decide +kernel)
  all_goals unfold Assigned; decide

end Sys2Proof.Tests
end

