-- ==== Sys2Proof/Tests/WitnessSys.lean ====
section
/-! SUPPORT. Witnesses: states and operands that meet the hypotheses of the statements about descriptors, engine instructions and
privileged instructions. -/

namespace Sys2Proof.Tests

set_option Elab.async false

open Sys2Proof Sys2Proof.Machine Sys2Proof.Claims

/-! ## Descriptors -/

theorem demo_unused : Unused demo demoX.c 15 := by
  have h : demo.w.ops = [] := by decide +kernel
  intro p hp
  rw [h] at hp
  cases hp

theorem witness_DescriptorSet : ∃ h n b, Issues demo demoX ∧
    Clear demo demoX (uniUses h { Uses.none with s := (List.range 8).map ((b : R64).val + ·) }) demoX.x ∧ guardOn demoX.c h = true ∧
    Unused demo demoX.c (n : Fin 16).val ∧ Quiet demo demoX h.sw :=
  ⟨all, 15, 56, demo_issues, clear_of (by decide +kernel), by decide +kernel, demo_unused, demo_quiet _⟩

/-- An operation of the course in flight names D3. -/
def flying (w : W) : W :=
  { w with ops := [(0, ⟨.copy, 0, 0, 0, 0, 0, 0, 0, 0, 1, 0, 0, 0, 0, 0, 0, [3], 0, 0, 0, 0, 0, true, 0, 0, 0, 0, [], 0, 0, false, false,
    false, false, false, [], [], [], 0, 0⟩)] }

theorem witness_DescriptorSet_stalls : ∃ s x, Issues s x ∧
    Clear s x (uniUses all { Uses.none with s := (List.range 8).map (8 + ·) }) x.x ∧ guardOn x.c all = true ∧ ¬ Unused s x.c 3 ∧
    Stands s x (uniUses all { Uses.none with s := (List.range 8).map (8 + ·) }) all.sw :=
  ⟨stateOf id flying, selOf id, issues_of (by decide +kernel), clear_of (by decide +kernel), by decide +kernel,
    fun h => h _ (List.mem_singleton.mpr rfl) rfl (by decide), stands_of (by decide +kernel)⟩

/-- A0 names a region of 64 rows and 128 columns, A1 nothing; S0 and S1 hold a handle of its second half; TL0 is counter 1; D0 is a panel of
64 rows of 64 FP32 elements. -/
def region (col cols : Nat) : Nat := 64 * 2 ^ 32 + cols * 2 ^ 44 + col * 2 ^ 16
def panel0 : Nat := 0x0040004000400040 * 2 ^ 64 + 256 * 2 ^ 32
def geared (c : Course) : Course :=
  let c := putA c 0 (BitVec.ofNat 128 (region 0 128))
  let c := putS (putS c 0 (BitVec.ofNat 32 (region 64 64))) 1 (BitVec.ofNat 32 (region 64 64 / 2 ^ 32))
  let c := putS (putS c 2 0x401) 4 0x800
  putD256 (putTL c 0 0x401) 0 (BitVec.ofNat 256 panel0)

def gear : State := stateOf geared id
def gearX : Sel := selOf geared
theorem gear_issues : Issues gear gearX := issues_of (by decide +kernel)
theorem gear_keyed : Keyed gear := keyed_of (by decide +kernel)
theorem gear_guard : guardOn gearX.c all = true := by decide +kernel
theorem gear_consort : consortIs gear gearX.c consort := by unfold consortIs; decide +kernel

theorem witness_HandleSet : ∃ h n b f k, Issues gear gearX ∧ consortIs gear gearX.c k ∧ guardOn gearX.c h = true ∧
    Clear gear gearX (uniUses h { Uses.none with s := [(b : R64).val, b.val + 1], sect := [(sectA (f : Fin 16).val, f.val)] }) gearX.x ∧
    Quiet gear gearX h.sw ∧ Derives k (BitVec.ofNat 128 (getS2 gearX.c b.val % 2 ^ 58)) (getA gearX.c f.val) ∧
    (getA gearX.c (n : Fin 16).val).getLsbD 58 = false ∧ (getA gearX.c f.val).getLsbD 58 = false :=
  ⟨all, 15, 0, 0, consort, gear_issues, gear_consort, gear_guard, clear_of (by decide +kernel), .inl rfl,
    by unfold Derives; decide +kernel, by decide +kernel, by decide +kernel⟩

/-- A1 to be written is busy. -/
def busyTo (c : Course) : Course := putA (geared c) 1 (BitVec.ofNat 128 (2 ^ 58))

theorem witness_HandleSet_busy : ∃ s x, Issues s x ∧ consortIs s x.c consort ∧ guardOn x.c all = true ∧
    Clear s x (uniUses all { Uses.none with s := [0, 1], sect := [(sectA 0, 0)] }) x.x ∧
    Derives consort (BitVec.ofNat 128 (getS2 x.c 0 % 2 ^ 58)) (getA x.c 0) ∧ (getA x.c 1).getLsbD 58 = true ∧
    Stands s x (uniUses all { Uses.none with s := [0, 1], sect := [(sectA 0, 0)] }) all.sw :=
  ⟨stateOf busyTo id, selOf busyTo, issues_of (by decide +kernel), by unfold consortIs; decide +kernel, by decide +kernel,
    clear_of (by decide +kernel), by unfold Derives; decide +kernel, by decide +kernel,
    stands_of (by decide +kernel)⟩

/-- A handle that names nothing gives no other. -/
theorem witness_HandleSet_refused : Keyed gear ∧ ¬ Derives consort (BitVec.ofNat 128 (getS2 gearX.c 0 % 2 ^ 58)) (getA gearX.c 1) :=
  ⟨gear_keyed, fun h => h.1 (by decide +kernel)⟩

theorem witness_HandleSet_counter : Clear gear gearX (uniUses all { Uses.none with s := [2, 3], sect := [(sectStatus, 6)] }) gearX.x ∧ Quiet gear gearX all.sw ∧
    Allotted gearX.c consort (getS2 gearX.c 2) ∧ 2 ^ 11 ≤ getS2 gearX.c 4 :=
  ⟨clear_of (by decide +kernel), .inl rfl, ⟨by decide +kernel, fun _ => by decide +kernel⟩, by decide +kernel⟩

/-- Counter 2 is the first beyond the allotment of two. -/
theorem witness_HandleSet_beyond : Stands gear gearX Uses.none all.sw ∧ 0x402 < 2 ^ 11 ∧ ¬ Allotted gearX.c consort 0x402 :=
  ⟨stands_of (by decide +kernel), by decide, fun h => absurd (h.2 (by decide)).2.2 (by decide +kernel)⟩

/-! ## Engine instructions -/

/-- What an engine instruction is, in a course. -/
def engOf (c : Course) (i : Instr) : Hd × EngInstr :=
  (engRow c i).getD (all, ⟨0, false, [], fun _ => [], none, 0, fun _ _ => false, .tlsig, 0⟩)

/-- The checks of `Accepts`, computed. -/
def acceptsB (s : State) (x : Sel) (e : EngInstr) (k : Consort) : Bool :=
  (consort? s.w x.c.id.consort == some k) && (getTL x.c e.tl).getLsbD 10 &&
    (match e.ah with
      | some a => regionOk k.cores.length k.accN (regionOf (getA x.c a)) && !(getA x.c a).getLsbD 58
      | none => true) &&
    (e.ds x.c).all (fun d => !panelBad (getD256 x.c d) && panelSeg x.c k (getD256 x.c d) && copyLines (parsePanel (getD256 x.c d)) != 0) &&
    !e.check x.c k && decide (((tlOf s x.c e.tl).issued - (tlOf s x.c e.tl).done).toNat < 256) && engineOk s.w x.c e.kind &&
    !coreAway s.w (pcnOf s.w x.c.v.hcore) (tlPlace s.w x.c (getTL x.c e.tl)).1

theorem accepts_of {s : State} {x : Sel} {e : EngInstr} {k : Consort} (h : acceptsB s x e k = true) : Accepts s x e k := by
  simp only [acceptsB, Bool.and_eq_true, List.all_eq_true, beq_iff_eq, bne_iff_ne, Bool.not_eq_true', decide_eq_true_eq] at h
  obtain ⟨h, near⟩ := h
  have ds := h.1.1.1.2
  exact { consort := h.1.1.1.1.1.1, tl := h.1.1.1.1.1.2, region := fun a ha => by simp_all, panels := fun d hd => (ds d hd).1,
          own := h.1.1.2, room := h.1.2, engine := h.2, near := near, lines := fun _ d hd => (ds d hd).2 }

/-- ASTP of the panel to the region. -/
theorem witness_EngineIssue : ∃ i h e, engRow gearX.c i = some (h, e) ∧ Issues gear gearX ∧ Clear gear gearX (uniUses h (e.uses gearX.c)) gearX.x ∧
    Quiet gear gearX h.sw ∧ guardOn gearX.c h = true ∧ Accepts gear gearX e consort ∧ i.wf = true ∧ e.kind ≠ .tlsig :=
  ⟨.astp all 5 0 0 .rne 0, _, _, rfl, gear_issues, clear_of (by decide +kernel), .inl rfl, gear_guard, accepts_of (by decide +kernel), by decide,
    by decide⟩

/-- TLSIG behind another number of its counter. -/
def behind (w : W) : W := updTlc w 0 1 fun t => { t with issued := 1, stat := [(1, 1)] }

/-- No course of a table waits or stalls, computed. -/
def idleB (l : Tbl Course) : Bool := l.all fun p => p.2.k.await == .nothing && p.2.k.stall.isNone

theorem idle_of {l : Tbl Course} (h : idleB l = true) : ∀ p ∈ l, p.2.k.await = .nothing ∧ p.2.k.stall = none := by
  simp only [idleB, List.all_eq_true, Bool.and_eq_true, beq_iff_eq, Option.isNone_iff_eq_none] at h
  exact h

def behindState : State := stateOf geared behind
def signal : EngInstr := (engOf gearX.c (.tlsig all 5 0)).2

theorem behind_idle : ∀ p ∈ behindState.w.courses, p.2.k.await = .nothing ∧ p.2.k.stall = none := idle_of (by decide +kernel)
theorem behind_sigs : pendingSigs behindState.w (tlAt behindState gearX.c signal.tl).1 (tlAt behindState gearX.c signal.tl).2 = [] := by
  decide +kernel
theorem behind_first : (tlOf behindState gearX.c signal.tl).done ≠ (tlOf behindState gearX.c signal.tl).issued := by decide +kernel
theorem behind_marked : (tlOf behindState gearX.c signal.tl).done + 1 ∉ (tlOf behindState gearX.c signal.tl).marked := by decide +kernel

theorem behind_waits : Pending' behindState gearX signal where
  behind := behind_first
  marked := behind_marked
  sigs m h := by rw [behind_sigs] at h; cases h
  waits p hp m q h := by rw [(behind_idle p hp).1] at h; cases h
  stalls p hp y h := by rw [(behind_idle p hp).2] at h; cases h

theorem witness_EngineIssue_signal : ∃ i h e s, engRow gearX.c i = some (h, e) ∧ Issues s gearX ∧ Clear s gearX (uniUses h (e.uses gearX.c)) gearX.x ∧
    Quiet s gearX h.sw ∧ guardOn gearX.c h = true ∧ Accepts s gearX e consort ∧ i.wf = true ∧ Pending' s gearX e :=
  ⟨.tlsig all 5 0, _, signal, behindState, rfl, issues_of (by decide +kernel), clear_of (by decide +kernel), .inl rfl, gear_guard,
    accepts_of (by decide +kernel), by decide, behind_waits⟩

theorem witness_TimelineSignal : ∃ i h e, engRow gearX.c i = some (h, e) ∧ e.kind = .tlsig ∧ i.wf = true ∧ Issues gear gearX ∧
    Clear gear gearX (uniUses h (e.uses gearX.c)) gearX.x ∧ Quiet gear gearX h.sw ∧ guardOn gearX.c h = true ∧
    Accepts gear gearX { e with kind := .tlsig } consort ∧ engineOk gear.w gearX.c e.kind = true ∧
    (tlOf gear gearX.c e.tl).done = (tlOf gear gearX.c e.tl).issued ∧ (tlOf gear gearX.c e.tl).marked = [] ∧
    pendingSigs gear.w (tlAt gear gearX.c e.tl).1 (tlAt gear gearX.c e.tl).2 = [] ∧ Keyed gear :=
  ⟨.tlsig all 5 0, _, _, rfl, rfl, by decide, gear_issues, clear_of (by decide +kernel), .inl rfl, gear_guard,
    accepts_of (by decide +kernel), by decide +kernel, by decide +kernel, by decide +kernel, by decide +kernel, gear_keyed⟩

/-- D1 is a panel of no valid rows, copied. -/
def hollow (c : Course) : Course := putD256 (geared c) 1 (BitVec.ofNat 256 (0x0040000000400040 * 2 ^ 64 + 256 * 2 ^ 32))

theorem witness_TimelineSignal_copy : ∃ i h e s x, engRow x.c i = some (h, e) ∧ e.kind.isCopy = true ∧ i.wf = true ∧ Issues s x ∧
    Clear s x (uniUses h (e.uses x.c)) x.x ∧ Quiet s x h.sw ∧ guardOn x.c h = true ∧
    Accepts s x { e with kind := .tlsig } consort ∧ engineOk s.w x.c e.kind = true ∧
    (∀ d ∈ e.ds x.c, copyLines (parsePanel (getD256 x.c d)) = 0) ∧ (tlOf s x.c e.tl).done = (tlOf s x.c e.tl).issued ∧
    (tlOf s x.c e.tl).marked = [] ∧ pendingSigs s.w (tlAt s x.c e.tl).1 (tlAt s x.c e.tl).2 = [] ∧ Keyed s :=
  ⟨.copy all 5 1 2 0, _, _, stateOf hollow id, selOf hollow, rfl, rfl, by decide, issues_of (by decide +kernel), clear_of (by decide +kernel),
    .inl rfl, by decide +kernel,
    ⟨by unfold consortIs; decide +kernel, by decide +kernel, fun a h => (by cases h), by decide +kernel, by decide +kernel, by decide +kernel,
      by decide +kernel, by unfold CounterNear; decide +kernel, fun h => absurd h (by decide)⟩,
    by decide +kernel, by decide +kernel, by decide +kernel, by decide +kernel, by decide +kernel, keyed_of (by decide +kernel)⟩

/-- TL1 is not valid; a panel at the last 16 bytes of the window leaves its segment. -/
def leaving (c : Course) : Course := putD256 (geared c) 0 (BitVec.ofNat 256 (panel0 + 32752))

theorem witness_EngineTraps : ∃ i h e, engRow gearX.c i = some (h, e) ∧ Issues gear gearX ∧ guardOn gearX.c h = true ∧
    consortIs gear gearX.c consort ∧ Keyed gear ∧ ¬ (getTL gearX.c e.tl).getLsbD 10 = true :=
  ⟨.azero all 5 0 1, _, _, rfl, gear_issues, gear_guard, gear_consort, gear_keyed, by decide +kernel⟩

theorem witness_EngineTraps_segment : ∃ i h e s x, engRow x.c i = some (h, e) ∧ Issues s x ∧ guardOn x.c h = true ∧
    Stands s x Uses.none h.sw ∧ consortIs s x.c consort ∧ Keyed s ∧ ((getTL x.c e.tl).getLsbD 10 = true ∧
      (∀ a, e.ah = some a → regionOk consort.cores.length consort.accN (regionOf (getA x.c a)) = true) ∧
      (∀ d ∈ e.ds x.c, panelBad (getD256 x.c d) = false) ∧ e.check x.c consort = false) ∧
    0 ∈ e.ds x.c ∧ panelSeg x.c consort (getD256 x.c 0) = false ∧ ∀ d' ∈ e.ds x.c, panelSeg x.c consort (getD256 x.c d') = false → d' = 0 :=
  ⟨.astp all 5 0 0 .rne 0, _, _, stateOf leaving id, selOf leaving, rfl, issues_of (by decide +kernel), by decide +kernel,
    stands_of (by decide +kernel), by unfold consortIs; decide +kernel, keyed_of (by decide +kernel),
    ⟨by decide +kernel, fun a h => by cases h; decide +kernel, by decide +kernel, by decide +kernel⟩, by decide +kernel⟩

/-- A0 is busy; the counter has 256 numbers outstanding. -/
def busy (c : Course) : Course := putA (geared c) 0 (BitVec.ofNat 128 (region 0 128 + 2 ^ 58))
def filled (w : W) : W := updTlc w 0 1 fun t => { t with issued := 256 }

theorem witness_EngineStalls : ∃ i h e s x, engRow x.c i = some (h, e) ∧ Issues s x ∧ Clear s x (uniUses h (e.uses x.c)) x.x ∧
    guardOn x.c h = true ∧ consortIs s x.c consort ∧ e.ill x.c consort = false ∧ e.segOk x.c consort = true ∧
    e.ah = some 0 ∧ (getA x.c 0).getLsbD 58 = true ∧ Stands s x (uniUses h (e.uses x.c)) h.sw ∧ CounterNear s x.c e.tl :=
  ⟨.azero all 5 0 0, _, _, stateOf busy id, selOf busy, rfl, issues_of (by decide +kernel), clear_of (by decide +kernel), by decide +kernel,
    by unfold consortIs; decide +kernel, by decide +kernel, by decide +kernel, rfl, by decide +kernel, stands_of (by decide +kernel),
    by unfold CounterNear; decide +kernel⟩

theorem witness_EngineStalls_full : ∃ i h e s, engRow gearX.c i = some (h, e) ∧ Issues s gearX ∧ Clear s gearX (uniUses h (e.uses gearX.c)) gearX.x ∧
    guardOn gearX.c h = true ∧ consortIs s gearX.c consort ∧ e.ill gearX.c consort = false ∧ e.segOk gearX.c consort = true ∧
    (∀ a, e.ah = some a → (getA gearX.c a).getLsbD 58 = false) ∧
    256 ≤ ((tlOf s gearX.c e.tl).issued - (tlOf s gearX.c e.tl).done).toNat ∧ Stands s gearX (uniUses h (e.uses gearX.c)) h.sw ∧
    CounterNear s gearX.c e.tl :=
  ⟨.azero all 5 0 0, _, _, stateOf geared filled, rfl, issues_of (by decide +kernel), clear_of (by decide +kernel), gear_guard,
    by unfold consortIs; decide +kernel, by decide +kernel, by decide +kernel, fun a h => by cases h; decide +kernel, by decide +kernel,
    stands_of (by decide +kernel), by unfold CounterNear; decide +kernel⟩

/-! ## Privileged instructions -/

theorem witness_PrivilegedTraps : ∃ i h, privRow i = some h ∧ Issues demoU demoUX ∧ guardOn demoUX.c h = true ∧ demoUX.c.w.used ≤ 16 ∧
    Keyed demoU ∧ ¬ OwnTarget demoU demoUX i ∧ demoUX.c.id.priv = false :=
  ⟨.svcall all 3 0 0, _, rfl, demoU_issues, by decide +kernel, by decide +kernel, demoU_keyed, id, by decide +kernel⟩

/-- S1 is 0, the CID of the course itself. -/
theorem witness_PrivilegedTraps_own : ∃ h, privRow (.haltbHalt all 3 1 true) = some h ∧ Issues demo demoX ∧ guardOn demoX.c h = true ∧
    demoX.c.w.used ≤ 16 ∧ Keyed demo ∧ OwnTarget demo demoX (.haltbHalt all 3 1 true) :=
  ⟨_, rfl, demo_issues, by decide +kernel, by decide +kernel, demo_keyed, demoX.c, by decide +kernel, rfl, rfl⟩

/-- The checks of a privileged instruction pass in a privileged course. -/
theorem privileged_of {s : State} {x : Sel} {u : Uses} (hi : Issues s x) (hc : clearB s x (uniUses all u) x.x = true)
    (hp : (guardOn x.c all && x.c.id.priv) = true) : Privileged s x all u := by
  simp only [Bool.and_eq_true] at hp
  exact ⟨hi, clear_of hc, .inl rfl, hp.1, hp.2⟩

theorem witness_TlbInvalidation : ∃ i, Instr.wf i = true ∧ (∃ a b, i = .tlbinvPage all a b ∧
    Privileged demo demoX all { Uses.none with s := [a.val, a.val + 1, b.val] }) :=
  ⟨.tlbinvPage all 2 63, by decide, 2, 63, rfl, privileged_of demo_issues (by decide +kernel) (by decide +kernel)⟩

theorem witness_TlbInvalidation_asid : ∃ i b, Instr.wf i = true ∧ i = .tlbinvAsid all b ∧
    Privileged demo demoX all { Uses.none with s := [b.val] } :=
  ⟨.tlbinvAsid all 63, 63, by decide, rfl, privileged_of demo_issues (by decide +kernel) (by decide +kernel)⟩

theorem witness_ContextInvalidation : ∃ a, Privileged demo demoX all { Uses.none with s := [(a : R64).val, a.val + 1] } :=
  ⟨62, privileged_of demo_issues (by decide +kernel) (by decide +kernel)⟩

/-- A second course of the partition, CID 1: parked on a join counter of 1 with no line in the cache. S1 names it. -/
def other (c : Course) : Course :=
  { courseInit W.init 0 consort launch 0 0x10180000 0 with
    id := { c.id with cid := 1, consort := 1 }, k := { c.k with at_ := .parked, join := 1, isNew := false } }
def pair (f : Course → Course) (k : Consort) (w : W) : W :=
  { w with courses := w.courses ++ [(1, f (other course))], consorts := [(0, consort), (1, k)] }
def pairState (f : Course → Course) (k : Consort) : State :=
  let s := stateOf (s1 1) id
  { s with w := pair f k s.w }
def pairX : Sel := selOf (s1 1)

theorem pair_privileged : Privileged (pairState id consort) pairX all { Uses.none with s := [1] } :=
  privileged_of (issues_of (by decide +kernel)) (by decide +kernel) (by decide +kernel)
theorem pair_keyed : Keyed (pairState id consort) := keyed_of (by decide +kernel)
theorem pair_names : Names (pairState id consort) pairX 1 (other course) := ⟨by decide +kernel, by decide +kernel⟩

theorem witness_ContextFlush : ∃ s x u, Privileged s x all { Uses.none with s := [1] } ∧ Keyed s ∧ Names s x 1 u ∧
    u.k.at_ ≠ .resident ∧ (slotWorld u 0 = 0 ∨ slotWorld u 0 = slotWorld x.c 0) ∧ u.v.lines = [] ∧ u.k.at_ = .parked ∧ u.k.join ≠ 0 :=
  ⟨pairState id consort, pairX, other course, pair_privileged, pair_keyed, pair_names, by decide +kernel, .inl (by decide +kernel),
    by decide +kernel⟩

/-- CID 0 is the issuer, resident; no course has CID 2. -/
theorem witness_ContextFlush_others : (Names demo demoX 1 demoX.c ∧ demoX.c.k.at_ = .resident) ∧
    NamesNone (stateOf (s1 2) id) (selOf (s1 2)) 1 := by
  refine ⟨⟨⟨by decide +kernel, rfl⟩, by decide +kernel⟩, fun t h => ?_⟩
  have : course? (stateOf (s1 2) id).w (getS (selOf (s1 2)).c 1).toNat = none := by decide +kernel
  exact absurd (this.symm.trans h) (by simp)

/-- A course of another confidential world. -/
def worldly (c : Course) : Course := setSlotF c 0 16 4 1

theorem witness_ContextFlush_world : ∃ s x u, Names s x 1 u ∧ u.k.at_ ≠ .resident ∧ slotWorld u 0 ≠ 0 ∧ slotWorld u 0 ≠ slotWorld x.c 0 :=
  ⟨pairState worldly consort, pairX, worldly (other course), ⟨by decide +kernel, by decide +kernel⟩, by decide +kernel⟩

/-- The other course's consort, to be halted, and halted already. -/
theorem witness_Halts : ∃ s x u, Privileged s x all { Uses.none with s := [1] } ∧ Keyed s ∧ Names s x 1 u ∧ Claims.Target s u false 1 ∧
    ¬ OwnTarget s x (.haltbHalt all 3 1 false) ∧ ∃ k, consort? s.w 1 = some k ∧ k.haltb = false := by
  refine ⟨pairState id consort, pairX, other course, pair_privileged, pair_keyed, pair_names, (show 1 = (other course).id.consort by decide +kernel), ?_, consort,
    by decide +kernel, by decide +kernel⟩
  rintro ⟨t, h, -, e⟩
  have := pair_names.1.symm.trans h
  cases this
  exact absurd e (by decide +kernel)

def held : Consort := { consort with haltb := true }
def halted (c : Course) : Course := { c with k := { c.k with at_ := .halted, join := 0 } }

theorem witness_Halts_release : ∃ s x v, Privileged s x all { Uses.none with s := [1] } ∧ Keyed s ∧ Names s x 1 v ∧ Claims.Target s v false 1 ∧
    (∃ k, consort? s.w 1 = some k ∧ k.haltb = true) ∧ course? s.w 1 = some v ∧ 1 ≠ x.c.id.cid ∧ v.id.consort = 1 ∧ v.k.at_ = .halted ∧
    hasPend v = false ∧ (part s.w v.id.part).ctxs.count ≤ 1 :=
  ⟨pairState halted held, pairX, halted (other course), privileged_of (issues_of (by decide +kernel)) (by decide +kernel) (by decide +kernel),
    keyed_of (by decide +kernel), ⟨by decide +kernel, by decide +kernel⟩, (show 1 = (halted (other course)).id.consort by decide +kernel),
    ⟨held, by decide +kernel, by decide +kernel⟩, by decide +kernel⟩

/-- Logical core 0 is present; 72 is none. -/
theorem witness_EngineReset : Privileged demo demoX all { Uses.none with s := [1] } ∧ Keyed demo ∧ (demo.w.ops.map (·.1)).Pairwise (· < ·) ∧
    ((getS demoX.c 1).toNat < 72 ∧ (lptAt demo.w (getS demoX.c 1).toNat).getLsbD 18 = true ∧
      (lptAt demo.w (getS demoX.c 1).toNat).getLsbD 16 = false ∧
      (part demo.w demoX.c.id.part).cores.getLsbD ((lptAt demo.w (getS demoX.c 1).toNat).toNat % 128) = true) ∧
    ¬ (getS (selOf (s1 72)).c 1).toNat < 72 ∧ Privileged (stateOf (s1 72) id) (selOf (s1 72)) all { Uses.none with s := [1] } :=
  ⟨privileged_of demo_issues (by decide +kernel) (by decide +kernel), demo_keyed, by decide +kernel,
    by decide +kernel, by decide +kernel,
    privileged_of (issues_of (by decide +kernel)) (by decide +kernel) (by decide +kernel)⟩

/-! ## Keys and services -/

/-- S4 holds the address of a block of zeros. -/
def blocked (c : Course) : Course := putS c 4 0x700000

theorem zero_block : KeyBlock (List.replicate 64 0) ⟨0, 0, 0, 0, 0, false⟩ := by
  constructor <;> decide

def blockS : State := stateOf blocked id
def blockX : Sel := selOf blocked
def blockAt : Nat := 0x700000

theorem block_addr : getS2 blockX.c 4 = blockAt := by decide +kernel
theorem block_slot : lowSlot blockX = 0 := by decide +kernel
theorem block_world : slotWorld blockX.c 0 = 0 := by decide +kernel

/-- The bytes read are zeros. -/
def zeros (ls : List (Loc × Nat × Nat)) : Bool := decide (rdPlaces blockS.env blockS.w 0 ls = List.replicate 64 0)

theorem block_read : uniB blockS blockX .read 64 blockAt 0 zeros = true := by decide +kernel

theorem witness_KeyRequests : ∃ i h d a o s x ls q, keyRow i = some (h, d, a, o) ∧ Privileged s x h { Uses.none with s := [a.val, a.val + 1] } ∧
    OneOwner x.c ∧ UniPerforms s x .read 64 (getS2 x.c a.val) (lowSlot x) ls ∧
    KeyBlock (rdPlaces s.env s.w (slotWorld x.c (lowSlot x)) ls) q := by
  have h := uni_of block_read
  refine ⟨.keyopSet all 3 4, all, 3, 4, .set, blockS, blockX, uniPlaces blockS blockX .read 64 blockAt 0, ⟨0, 0, 0, 0, 0, false⟩, rfl,
    privileged_of (issues_of (by decide +kernel)) (by decide +kernel) (by decide +kernel), by unfold OneOwner; decide +kernel, ?_, ?_⟩
  · exact block_addr ▸ block_slot ▸ h.1
  · rw [block_slot, block_world, of_decide_eq_true h.2]
    exact zero_block

/-- S6 names tag 5 with one lane; the arming entry of tag 5 is valid, of version 1, and pooled or not; its header at 0 has CCOUNT 1. -/
def calls (c : Course) : Course := putS c 6 (BitVec.ofNat 32 (1 * 2 ^ 16 + 5))
def armed (v : Nat) : State :=
  let s := stateOf calls id
  { s with mem := poke (poke s.mem (0x200000 + 32 * 5) 8 v) 16 4 1 }
def callX : Sel := selOf calls

theorem armed_privileged : Privileged (armed 0x101) callX all { Uses.none with s := [4, 5, 6, 7], sect := slotSects 0 [0] } :=
  privileged_of (issues_of (by decide +kernel)) (by decide +kernel) (by decide +kernel)
theorem pooled_privileged : Privileged (armed 0x301) callX all { Uses.none with s := [4, 5, 6, 7], sect := slotSects 0 [0] } :=
  privileged_of (issues_of (by decide +kernel)) (by decide +kernel) (by decide +kernel)

/-- What R296 asks of the message: lanes, reserved bits, a 48-bit payload, a configured partition. -/
theorem witness_ServiceCalls : ∃ a n s x e, Privileged s x all { Uses.none with s := [(a : R64).val, a.val + 1, a.val + 2, a.val + 3], sect := slotSects (n : R8).val [0] } ∧
    a.val % 4 = 0 ∧
    slotValid x.c n.val = true ∧
    ((getS x.c (a.val + 2)).toNat / 2 ^ 16 % 64 = 1 ∧ (getS x.c (a.val + 2)).toNat / 2 ^ 22 + (getS x.c (a.val + 3)).toNat * 2 ^ 10 = 0 ∧
      (getS x.c (a.val + 2)).toNat / 2 ^ 12 % 16 = 0 ∧ getS2 x.c a.val < 2 ^ 48 ∧ (part s.w x.c.id.part).configured = true) ∧
    armingAt s.env s.w x.c.id.part 5 = some e ∧ e.valid = true ∧ e.ver = verOf s.w x.c.id.part 3 ∧ e.ver ≠ 0 ∧ e.pooled = false :=
  ⟨4, 0, armed 0x101, callX, ⟨0, 0, 0, 0, false, true, 1⟩, armed_privileged, by decide, by decide +kernel, by decide +kernel, by decide +kernel,
    by decide, by decide +kernel, by decide, rfl⟩

/-- The pooled entry. -/
def pooled : Arming := ⟨0, 0, 0, 0, true, true, 1⟩
theorem pooled_entry : armingAt (armed 0x301).env (armed 0x301).w 0 5 = some pooled := by decide +kernel
theorem pooled_ok : pooledOk (armed 0x301).env (armed 0x301).w 0 (slotWorld callX.c 0) pooled = true := by decide +kernel
theorem no_pool : tGet? (part (armed 0x301).w 0).pools 5 = none := by decide +kernel
theorem pooled_ver : pooled.ver = verOf (armed 0x301).w 0 3 := by decide +kernel

theorem witness_ServiceCalls_pooled : ∃ e, Privileged (armed 0x301) callX all { Uses.none with s := [4, 5, 6, 7], sect := slotSects 0 [0] } ∧ slotValid callX.c 0 = true ∧
    armingAt (armed 0x301).env (armed 0x301).w 0 5 = some e ∧ e.valid = true ∧ e.ver = verOf (armed 0x301).w 0 3 ∧ e.ver ≠ 0 ∧ e.pooled = true ∧
    pooledOk (armed 0x301).env (armed 0x301).w 0 (slotWorld callX.c 0) e = true ∧ tGet? (part (armed 0x301).w 0).pools 5 = none :=
  ⟨pooled, pooled_privileged, by decide +kernel, pooled_entry, rfl, pooled_ver, by decide, rfl, pooled_ok, no_pool⟩

/-- A slot that is not valid. -/
theorem witness_ServiceCalls_invalid : slotValid callX.c 7 = false := by decide +kernel

end Sys2Proof.Tests
end

