-- ==== Sys2Proof/Tests/WitnessQueue.lean ====
section
/-! SUPPORT. Witnesses: states that meet the hypotheses of the statements about fault queues, host events, messages, launches and consorts. -/

namespace Sys2Proof.Tests

set_option Elab.async false

open Sys2Proof Sys2Proof.Machine Sys2Proof.Claims

/-- The demo's device changed by g. -/
def atW (g : W → W) : State := { demo with w := g demo.w }

theorem atW_inv {g : W → W} (h : ((g demo.w).wb == []) = true) : (atW g).Inv := ⟨demo_inv.mem, beq_iff_eq.mp h⟩

/-! ## Fault queues -/

/-- An entry of each field at its greatest value. -/
def topEntry : Entry := ⟨255, 255, 65535, BitVec.allOnes 32, 2 ^ 64 - 1, 65535, 255, 255, 2 ^ 32 - 1, 2 ^ 32 - 1, 255, 65535⟩

theorem witness_FaultEntryLayout : ∃ x, EntryFits x :=
  ⟨topEntry, by constructor <;> decide⟩

theorem witness_FrameLayout : demoX.c.r.d.length = 16 ∧ demoX.c.r.a.length = 16 ∧ demoX.c.r.tl.length = 4 :=
  by decide +kernel

/-- A fault of the course 0 by a translation, and two alike. -/
def fault0 (cid va : Nat) : Pending := ⟨⟨0x10, 0, 0, 1, va, 0, 0, 0, cid, 0, 0, 4⟩, [.whole cid], false⟩

/-- The partition's queue: a ring of 4 entries in identity-mapped memory. -/
def queue (f : Fq → Fq) (w : W) : W := updPart w 0 fun p => { p with fq := f { p.fq with base := 0x800000, size := 4 } }
def emptyQ : State := atW (queue id)
def oneQ : State := atW (queue fun f => { f with tail := 1, pending := [fault0 0 0x5000] })
def fullQ : State := atW (queue fun f => { f with tail := 3, pending := [fault0 0 0x5000, fault0 0 0x6000, fault0 0 0x7000] })

/-- Where entry 0 stands. -/
def entryAt : List (Loc × Nat × Nat) := [(.dev 0 0x800000 0x800000, 0x800000, 32)]

theorem alike_of {x : Entry} {y : Pending} (h : x.cid ≠ 2 ^ 32 - 1) (m : Merges x y) : Alike x y := by simpa only [Alike, if_neg h] using m

theorem unlike_of {x : Entry} {y : Pending} (h : x.cid ≠ 2 ^ 32 - 1) (m : ¬ Merges x y) : ¬ Alike x y := by simpa only [Alike, if_neg h] using m

theorem witness_FaultDelivery : ∃ s x ls, State.Inv s ∧ (∀ y ∈ (fqOf s 0).pending, ¬ Alike (Pending.e x) y) ∧
    Room (part s.w 0) ∧ (fqOf s 0).held = [] ∧ HubWrites s 0 ((fqOf s 0).base.toNat + 32 * (fqOf s 0).tail.toNat) 32 ls :=
  ⟨emptyQ, fault0 0 0x5000, entryAt, atW_inv (by decide +kernel), by
      have h : (fqOf emptyQ 0).pending = [] := by decide +kernel
      simp [h],
    by constructor <;> decide +kernel, by decide +kernel,
    ⟨by decide +kernel, by decide +kernel, same_plain (by decide +kernel), by decide +kernel⟩⟩

/-- A ring of 4 entries that holds 3 takes no more. -/
theorem witness_FaultDelivery_full : fullQ.Inv ∧ (∀ y ∈ (fqOf fullQ 0).pending, ¬ Alike (fault0 0 0x8000).e y) ∧ ¬ Room (part fullQ.w 0) := by
  refine ⟨atW_inv (by decide +kernel), fun y hy => unlike_of (by decide) fun h => ?_, fun h => h.2.1 (by decide +kernel)⟩
  have e : (fqOf fullQ 0).pending = [fault0 0 0x5000, fault0 0 0x6000, fault0 0 0x7000] := by decide +kernel
  rw [e] at hy
  simp only [List.mem_cons, List.not_mem_nil, or_false] at hy
  obtain ⟨-, -, -, -, -, -, h, -⟩ := h
  rcases hy with rfl | rfl | rfl <;> exact absurd h (by decide)

theorem witness_FaultMerging : ∃ s x, ∃ i : Nat, ∃ y, (fqOf s 0).pending[i]? = some y ∧ Alike (Pending.e x) y ∧
    (∀ (j : Nat) z, j < i → (fqOf s 0).pending[j]? = some z → ¬ Alike x.e z) ∧ y.e.cid ≠ x.e.cid :=
  ⟨oneQ, fault0 1 0x5FFF, 0, fault0 0 0x5000, by decide +kernel,
    alike_of (by decide) (by refine ⟨?_, ?_, ?_, ?_, ?_, ?_, ?_, ?_⟩ <;> decide), fun j _ h => absurd h (by omega), by decide⟩

/-- The POISON entries of a slice for two words of one sector. -/
theorem witness_FaultMerging_slice : Alike (sliceEntry 0 0 0x5000 4) ⟨sliceEntry 0 0 0x501C 4, [], false⟩ := by
  rw [Alike, if_pos (show (sliceEntry 0 0 0x5000 4).cid = 2 ^ 32 - 1 from rfl)]
  refine ⟨?_, ?_, ?_, ?_, ?_, ?_, ?_, ?_⟩ <;> rfl

theorem witness_FaultQueueRegisters : demo.Inv ∧ SizeOk (2 ^ 16) ∧ SizeOk 2 ∧ ¬ SizeOk 1 ∧ ¬ SizeOk 3 ∧ (∃ a i, Issues emptyQ demoX ∧
    Clear emptyQ demoX (uniUses all { Uses.none with s := [(a : Fin 32).val] }) demoX.x ∧ Quiet emptyQ demoX all.sw ∧ guardOn demoX.c all = true ∧
    demoX.c.id.priv = true ∧ 0x400 ≤ (i : Fin 16384).val ∧ i.val ≤ 0x402 ∧ (fqOf emptyQ demoX.c.id.part).pending = [] ∧
    (fqOf emptyQ demoX.c.id.part).held = [] ∧ HeadOk (fqOf emptyQ demoX.c.id.part) (halved (fqOf emptyQ demoX.c.id.part).head.toNat false (getS demoX.c a.val))) := by
  refine ⟨demo_inv, .inr ⟨16, by decide⟩, .inr ⟨1, by decide⟩, ?_, ?_, 3, 0x402, issues_of (by decide +kernel), clear_of (by decide +kernel), .inl rfl,
    by decide +kernel, by decide +kernel, by decide, by decide, by decide +kernel, by decide +kernel, ⟨by decide +kernel, by decide +kernel⟩⟩
  all_goals
    rintro (h | ⟨i, h1, h2, h⟩)
    · exact absurd h (by decide)
    · interval_cases i <;> exact absurd h (by decide)

/-- FQBASE moves to another ring, which takes the pending fault again. -/
theorem witness_FaultQueueRegisters_again : ∃ ls, oneQ.Inv ∧ BitVec.toNat (0x900000 : BitVec 64) / 32 * 32 ≠ (fqOf oneQ 0).base.toNat ∧
    (fqOf oneQ 0).pending.filter (fun y => !y.served) ++ (fqOf oneQ 0).held = [fault0 0 0x5000] ∧ 2 ≤ (fqOf oneQ 0).size.toNat ∧
    nth (part oneQ.w 0).veract 2 0 ≠ 0 ∧ HubWrites oneQ 0 0x900000 32 ls :=
  ⟨[(.dev 0 0x900000 0x900000, 0x900000, 32)], atW_inv (by decide +kernel), by decide +kernel, by decide +kernel, by decide +kernel,
    by decide +kernel, ⟨by decide +kernel, by decide +kernel, same_plain (by decide +kernel), by decide +kernel⟩⟩

/-- The course parked for one fault; its entry's bytes 0 and 1 read as zeros. -/
def parkedQ (j : Nat) : State :=
  { atW (queue fun f => { f with tail := 1, pending := [fault0 0 0x5000] }) with
    w := { (atW (queue fun f => { f with tail := 1, pending := [fault0 0 0x5000] })).w with
      courses := [(0, { course with k := { course.k with at_ := .parked, join := j, await := .faults } })] } }

theorem parkedQ_inv (j : Nat) : (parkedQ j).Inv := ⟨demo_inv.mem, rfl⟩

theorem witness_FaultReturn : ∃ s v y c cause merge, State.Inv s ∧ (fqOf s 0).pending = [y] ∧ (fqOf s 0).held = [] ∧ y.served = false ∧
    y.who = [.whole 0] ∧ HeadOk (fqOf s 0) (BitVec.toNat (w := 64) v) ∧ v.toNat = ((fqOf s 0).head.toNat + 1) % (fqOf s 0).size.toNat ∧
    2 ≤ (fqOf s 0).size.toNat ∧ (fqOf s 0).head.toNat < (fqOf s 0).size.toNat ∧ y.e.part = 0 ∧ course? s.w 0 = some c ∧ c.id.cid = 0 ∧
    c.k.at_ = .parked ∧ devRead s.env s.w 72 0 0 (part s.w 0).rAsid ((fqOf s 0).base.toNat + 32 * (fqOf s 0).head.toNat) 2 true =
      .ok [cause, merge] ∧ cause ≠ 0xE0 ∧ c.k.join ≤ 1 ∧ Free s c :=
  ⟨parkedQ 1, 1, fault0 0 0x5000, _, 0, 0, parkedQ_inv 1, by decide +kernel, by decide +kernel, rfl, rfl, ⟨by decide +kernel, by decide +kernel⟩,
    by decide +kernel, by decide +kernel, by decide +kernel, rfl, rfl, by decide +kernel, by decide +kernel, by decide +kernel, by decide,
    by decide +kernel, ⟨by decide +kernel, by decide +kernel⟩⟩

/-- Lanes 0 and 1 of a resident course wait for their entry. -/
def away2 (c : Course) : Course := setLaneSt (setLaneSt c 0 2) 1 2
def splitQ : State :=
  { atW (queue fun f => { f with tail := 1, pending := [⟨(fault0 0 0x5000).e, [.split 0 3], false⟩] }) with
    w := { (atW (queue fun f => { f with tail := 1, pending := [⟨(fault0 0 0x5000).e, [.split 0 3], false⟩] })).w with
      courses := [(0, away2 course)] } }

theorem witness_FaultReturn_split : ∃ y c cause merge, splitQ.Inv ∧ (fqOf splitQ 0).pending = [y] ∧ (fqOf splitQ 0).held = [] ∧
    y.who = [.split 0 3] ∧ HeadOk (fqOf splitQ 0) 1 ∧ course? splitQ.w 0 = some c ∧ c.id.cid = 0 ∧ c.k.at_ = .resident ∧
    laneSt c 0 = 2 ∧ laneSt c 2 = 1 ∧
    devRead splitQ.env splitQ.w 72 0 0 (part splitQ.w 0).rAsid 0x800000 2 true = .ok [cause, merge] ∧ cause ≠ 0xE0 :=
  ⟨_, _, 0, 0, ⟨demo_inv.mem, rfl⟩, rfl, by decide +kernel, rfl, ⟨by decide +kernel, by decide +kernel⟩, rfl, by decide +kernel⟩

/-- A head past the tail is none that R150 allows. -/
theorem witness_FaultReturn_refused : (parkedQ 2).Inv ∧ ¬ HeadOk (fqOf (parkedQ 2) 0) 2 ∧ ¬ HeadOk (fqOf (parkedQ 2) 0) 4 :=
  ⟨parkedQ_inv 2, fun h => absurd h.2 (by decide +kernel), fun h => absurd h.1 (by decide +kernel)⟩

/-- The entry's CAUSE changed to 0xE0; the launch has three consorts. -/
def ended : State :=
  { parkedQ 1 with
    mem := poke (parkedQ 1).mem 0x800000 1 0xE0
    w := { (parkedQ 1).w with launches := [(0, { launch with hdr := { hdr with ccount := 3 } })] } }

/-- The accounting entries of every course are sound, computed. -/
def acctB (s : State) : Bool := s.w.courses.all fun y => (List.range 8).all fun n =>
  !slotValid y.2 n || ((placesStop s.w (acctPlace s y.2 n)).isNone && (placesScrub s.w (acctPlace s y.2 n)).isNone)

theorem acct_of {s : State} {kc : Nat} (h : acctB s = true) : ∀ n d, course? s.w n = some d → d.id.consort = kc → AcctClean s d := by
  intro n d hd _ i hi hv
  have : (n, d) ∈ s.w.courses := by
    unfold course? tGet? at hd
    obtain ⟨⟨a, b⟩, e, rfl⟩ := Option.map_eq_some_iff.mp hd
    have g := List.find?_some e
    simp only [beq_iff_eq] at g
    exact g ▸ List.mem_of_find?_eq_some e
  have h := List.all_eq_true.mp (List.all_eq_true.mp h _ this) i (List.mem_range.mpr hi)
  simpa [hv, Option.isNone_iff_eq_none] using h

theorem witness_FaultTerminate : ∃ s v y c k l cause merge, State.Inv s ∧ Keyed s ∧ fqOf s 0 = { fqOf s 0 with pending := [y], held := [] } ∧
    y.served = false ∧ y.who = [.whole 0] ∧ HeadOk (fqOf s 0) (BitVec.toNat (w := 64) v) ∧ 2 ≤ (fqOf s 0).size.toNat ∧
    (fqOf s 0).head.toNat < (fqOf s 0).size.toNat ∧ v.toNat = ((fqOf s 0).head.toNat + 1) % (fqOf s 0).size.toNat ∧ y.e.part = 0 ∧
    course? s.w 0 = some c ∧ devRead s.env s.w 72 0 0 (part s.w 0).rAsid
      ((fqOf s 0).base.toNat + 32 * (fqOf s 0).head.toNat) 2 true = .ok [cause, merge] ∧ cause = 0xE0 ∧
    consort? s.w c.id.consort = some k ∧ k.st = .placed ∧
    (∀ n d, course? s.w n = some d → d.id.consort = c.id.consort → AcctClean s d) ∧ c.id.consort < s.w.nextConsort ∧
    launch? s.w k.launch = some l ∧ l.ended + 1 < l.hdr.ccount :=
  ⟨ended, 1, fault0 0 0x5000, { course with k := { course.k with at_ := .parked, join := 1, await := .faults } }, consort,
    { launch with hdr := { hdr with ccount := 3 } }, 0xE0, 0, ⟨by decide +kernel, by decide +kernel⟩, keyed_of (by decide +kernel), by decide +kernel,
    rfl, rfl, ⟨by decide +kernel, by decide +kernel⟩, by decide +kernel, by decide +kernel, by decide +kernel, rfl, by decide +kernel,
    by decide +kernel, by decide, by decide +kernel, by decide +kernel, acct_of (by decide +kernel), by decide +kernel⟩

/-! ## Host events and messages -/

/-- Function 0 with an event ring of 4 entries at 0x1000, vector 0 unmasked with a message held in an interval, and a valid port 3. -/
def hosted (w : W) : W :=
  { w with fns := [(0, { Fn.init with
      heqBase := 0x1000, heqSize := 4, heqHead := 1, heqTail := 3, msix := [(0, BitVec.ofNat 128 (0x800 + 7 * 2 ^ 64))], pba := [0], openIv := [(0, 100)],
      coalt := 2, ports := [(3, ⟨0, 0, 7, true⟩)] })] }

theorem witness_HostEvents : (atW hosted).Inv ∧ ¬ RingFull (fn (atW hosted).w 0) ∧ Apart (fn (atW hosted).w 0) ∧ RingFull (fn demo.w 0) :=
  ⟨atW_inv (by decide +kernel), by unfold RingFull; decide +kernel, by unfold Apart; decide +kernel, by unfold RingFull; decide +kernel⟩

theorem witness_CoalesceIntervals : (atW hosted).Inv ∧ tGet? (fn (atW hosted).w 0).openIv 0 = some 100 ∧ 0 ∈ (fn (atW hosted).w 0).pba ∧
    bvF (msixEntry (fn (atW hosted).w 0) 0) 96 1 = 0 ∧ tGet? (fn (atW hosted).w 0).openIv 1 = none :=
  ⟨atW_inv (by decide +kernel), by decide +kernel⟩

/-- A message of TAG 5 with one lane and with 32; with none and with 33 it is bad. -/
def msg (lanes : Nat) : BitVec 128 := BitVec.ofNat 128 (5 * 2 ^ 64 + lanes * 2 ^ 80)

theorem witness_Messages : (atW hosted).Inv ∧ 2 ≤ (atW hosted).w.hub.boot ∧ tGetD (fn (atW hosted).w 0).ports 3 ⟨0, 0, 0, false⟩ = ⟨0, 0, 7, true⟩ ∧ FormOk (msg 1).toNat ∧
    FormOk (msg 32).toNat ∧ ¬ FormOk (msg 0).toNat ∧ ¬ FormOk (msg 33).toNat ∧ msgTag (msg 1).toNat = 5 :=
  ⟨atW_inv (by decide +kernel), by decide +kernel, by decide +kernel, by unfold FormOk; decide⟩

/-- Port 4 is up, and its link takes flits. -/
theorem witness_Messages_peer : (atW fun w => updPort w 4 fun p => { p with up := true }).Inv ∧
    takesFlit (atW fun w => updPort w 4 fun p => { p with up := true }).w 4 0 = true ∧ takesFlit demo.w 4 0 = false :=
  ⟨atW_inv (by decide +kernel), by decide +kernel, by decide +kernel⟩

/-- The arming entry that the message names is valid, single, and its header is readable. -/
theorem witness_Messages_single : ∃ a, armingAt (armed 0x101).env (armed 0x101).w 0 (msgTag (msg 1).toNat) = some a ∧ a.valid = true ∧
    a.ver = verOf (armed 0x101).w 0 3 ∧ a.ver ≠ 0 ∧ a.pooled = false ∧ (part (armed 0x101).w 0).configured = true ∧
    tGet? (part (armed 0x101).w 0).pools (msgTag (msg 1).toNat) = none ∧ (armed 0x101).Inv :=
  ⟨⟨0, 0, 0, 0, false, true, 1⟩, by decide +kernel, rfl, by decide +kernel, by decide, rfl, by decide +kernel, by decide +kernel,
    ⟨by decide +kernel, by decide +kernel⟩⟩

/-- A pool of tag 5 whose header stands at 0: VER 1, CCOUNT 1, TLCNT 1. -/
def header1 : Nat := 1 + 2 ^ 128 + 2 ^ 208
def pool5 : Pool := ⟨[⟨0, 0, 0, 0, 1⟩], 1, 0, 0, 0, 20, 0, 50, none, none⟩
def pools : State :=
  { demo with mem := poke demo.mem 0 128 header1, w := updPart demo.w 0 fun p => { p with pools := [(5, pool5)] } }

/-- What is read of a header. -/
def readOk (r : Except Nat Hdr) (p : Hdr → Bool) : Bool :=
  match r with
  | .ok h => p h
  | .error _ => false

theorem read_of {r : Except Nat Hdr} {p : Hdr → Bool} (h : readOk r p = true) : ∃ x, r = .ok x ∧ p x = true := by
  cases r with
  | ok x => exact ⟨x, rfl, h⟩
  | error _ => simp [readOk] at h

theorem witness_PoolTimer : pools.Inv ∧ tGet? (part pools.w 0).pools 5 = some pool5 ∧ tGet? (part pools.w 0).pools 6 = none ∧
    ∃ h, readHdr pools.env (drained pools 0 5 pool5) 0 0 pool5.casid pool5.hdr = .ok h ∧
      (h.widthc == 0 && h.cpc == 0 && h.ccount == 1 && !h.bad (verOf pools.w 0 0) (pool5.casid == (part pools.w 0).rAsid)) = true :=
  ⟨⟨by decide +kernel, by decide +kernel⟩, by decide +kernel, by decide +kernel, read_of (by decide +kernel)⟩

/-! ## The launch queue -/

/-- Where entry 0 of the queue stands. -/
def queueBase : Nat := 0x10000000

/-- A queue of one entry, whose copy in the context space is sealed under the context key of world 0. -/
def queued1 : State :=
  { demo with
    mem := poke demo.mem queueBase 128 header1
    w := updPart { demo.w with sec := { demo.w.sec with cipher := (List.range 8).map fun i => (queueBase / 16 + i, ⟨1, 0, 0, queueBase + 16 * i⟩) } } 0 fun p =>
      { p with lq := [⟨0, 0, 0, 0, true, 0, 0, 0⟩] } }

/-- The bytes of that header, as they stand. -/
def header1Bytes : List Byte := leBytes 128 header1

theorem queued1_read : (match ctxRead queued1.env queued1.w 72 0 0 ((part queued1.w 0).ctxBase + 128 * 0) 128 with
    | .ok b => b == header1Bytes
    | .error _ => false) = true := by decide +kernel

theorem nobody_waits : NoneQueued queued1 0 := by
  intro y hy _ h
  have e : queued1.w.courses.all (fun y => y.2.k.at_ != .parked) = true := by decide +kernel
  have := List.all_eq_true.mp e y hy
  simp [h] at this

theorem witness_LaunchQueueEvents : ∃ q b, queued1.Inv ∧ (part queued1.w 0).lq = [q] ∧
    ctxRead queued1.env queued1.w 72 0 q.world ((part queued1.w 0).ctxBase + 128 * q.pos) 128 = .ok b ∧
    (part queued1.w 0).lqHold = false ∧ (parseHdr b).fenced = false ∧ (parseHdr b).bad (verOf queued1.w 0 0) q.priv = false ∧ NoneQueued queued1 0 := by
  refine ⟨⟨0, 0, 0, 0, true, 0, 0, 0⟩, header1Bytes, ⟨by decide +kernel, by decide +kernel⟩, by decide +kernel, ?_, by decide +kernel, by decide +kernel,
    by decide +kernel, nobody_waits⟩
  have h := queued1_read
  show ctxRead queued1.env queued1.w 72 0 0 ((part queued1.w 0).ctxBase + 128 * 0) 128 = _
  split at h <;> simp_all

/-! ## Consorts -/

/-- A consort with a slot, and cores that hold nothing. -/
def slotted : Consort := { consort with st := .slotted, live := 0 }
def unplaced : State := atW fun w => { w with consorts := [(0, slotted)], cores := [], courses := [] }

theorem witness_ConsortPlacement : ∃ k' pt fs, unplaced.Inv ∧ consort? unplaced.w 0 = some slotted ∧ launch? unplaced.w slotted.launch = some launch ∧
    slotted.st = .slotted ∧ launch.held = false ∧ behindEarlier unplaced.w slotted launch = false ∧ supply unplaced.w slotted = some (k', pt, fs) := by
  have h : (supply unplaced.w slotted).isSome = true := by decide +kernel
  obtain ⟨⟨k', pt, fs⟩, e⟩ := Option.isSome_iff_exists.mp h
  exact ⟨k', pt, fs, atW_inv (by decide +kernel), by decide +kernel, by decide +kernel, rfl, by decide +kernel, by decide +kernel, e⟩

theorem witness_ConsortPlacement_waits : demo.Inv ∧ consort? demo.w 0 = some consort ∧ launch? demo.w consort.launch = some launch ∧
    consort.st ≠ .slotted :=
  ⟨demo_inv, by decide +kernel⟩

/-- The consort has no course left. -/
def done : Consort := { consort with live := 0 }
def overState (k : Consort) : State := atW fun w => { w with consorts := [(0, k)], courses := [] }

theorem over_of (k : Consort) (h : (k.st == .placed && k.live == 0 && (overState k).w.ops.isEmpty) = true) : Over (overState k) 0 k := by
  simp only [Bool.and_eq_true, beq_iff_eq, List.isEmpty_iff] at h
  exact ⟨h.1.1, h.1.2, by rw [h.2]; simp⟩

theorem witness_ConsortEnd : (overState done).Inv ∧ consort? (overState done).w 0 = some done ∧ launch? (overState done).w done.launch = some launch ∧
    0 < (overState done).w.nextConsort ∧ Over (overState done) 0 done ∧ done.succ = none ∧ launch.hdr.ccount ≤ launch.ended + 1 ∧
    done.slotL = done.launch :=
  ⟨atW_inv (by decide +kernel), by decide +kernel, by decide +kernel, by decide +kernel, over_of done (by decide +kernel), by decide +kernel⟩

/-- The launch's completion record has its place in plain memory. -/
theorem witness_ConsortEnd_record : ∃ ls, RecordAt (overState done) launch ls ∧ launch.quiet = false ∧ launch.hdr.event = false ∧
    launch.hdr.msix = false ∧ done.lost = none ∧ launch.first = none :=
  ⟨[(.dev 0 0x600000 0x600000, 0x600000, 32)], ⟨by decide +kernel, by decide +kernel, same_plain (by decide +kernel), by decide +kernel⟩,
    by decide +kernel⟩

/-- A successor header: VER 1, CCOUNT 1, ACCR 64, TLCNT 1. -/
def headerS : List Byte := leBytes 128 (1 + 2 ^ 128 + 64 * 2 ^ 192 + 2 ^ 208)
def followed : Consort := { done with succ := some headerS }

theorem witness_ConsortEnd_successor : ∃ fs pt, Over (overState followed) 0 followed ∧ followed.succ = some headerS ∧ followed.lost = none ∧
    succOk (overState followed).w followed (parseHdr headerS) = true ∧
    takeFrames (parseHdr headerS).courses (part (overState followed).w followed.part) = some (fs, pt) ∧
    followed.launch < (overState followed).w.nextLaunch := by
  have h : (takeFrames (parseHdr headerS).courses (part (overState followed).w followed.part)).isSome = true := by decide +kernel
  obtain ⟨⟨fs, pt⟩, e⟩ := Option.isSome_iff_exists.mp h
  exact ⟨fs, pt, over_of followed (by decide +kernel), rfl, by decide +kernel, by decide +kernel, e, by decide +kernel⟩

/-- A resumable consort without units, its launch of three consorts. -/
def resumable : Consort := { consort with kept := true, win := 0, accN := 0, rows := [[], [], [], []], scales := [[], [], [], []] }
def mutedS : State := atW fun w => { w with
  consorts := [(0, resumable)], cores := [], launches := [(0, { launch with hdr := { hdr with ccount := 3 } })] }

/-- Its units saved, and freed. -/
def saved1 : W := (saveUnits mutedS.env resumable (unitsOf mutedS.w 0 resumable) mutedS.w).getD W.init
def freed0 : W :=
  { freeUnits saved1 0 { resumable with csave := 2 ^ 64 } with
    consorts := tDel (freeUnits saved1 0 { resumable with csave := 2 ^ 64 }).consorts 0 }

theorem got {a : Type} {o : Option a} {d : a} (h : o.isSome = true) : o = some (o.getD d) := by
  cases o with
  | some _ => rfl
  | none => simp at h

/-- The one slot of the partition that the launch may have. -/
theorem dealt0 : ∃ l y, launch? mutedS.w resumable.launch = some l ∧ y ∈ dealSlots mutedS.w 0 l.hdr resumable.world ∧ y.cores = [0] := by
  refine ⟨{ launch with hdr := { hdr with ccount := 3 } }, ⟨[0], 0, none⟩, by decide +kernel, ?_, rfl⟩
  have h : dealSlots mutedS.w 0 { hdr with ccount := 3 } resumable.world = [⟨[0], 0, none⟩] := by decide +kernel
  exact h ▸ List.mem_singleton.mpr rfl

theorem movable : ∃ pw rows scales, Movable mutedS 0 resumable [0] saved1 freed0 pw rows scales := by
  refine ⟨_, _, _, ⟨rfl, ?_, ?_⟩, dealt0, ?_, got ?_, rfl, fun n _ => ⟨?_, ?_⟩, ?_, got (d := []) ?_, got (d := []) ?_, got (d := []) ?_, ?_⟩
  case refine_3 =>
    intro p hp h
    have e : mutedS.w.consorts = [(0, resumable)] := rfl
    rw [e] at hp
    exact absurd (congrArg Prod.fst (List.mem_singleton.mp hp)) h
  case refine_5 => exact fun y h => absurd h (List.not_mem_nil (a := y))
  case refine_6 => exact fun y h => absurd h (List.not_mem_nil (a := y))
  all_goals decide +kernel

theorem mutedS_keyed : Keyed mutedS := keyed_of (by decide +kernel)

theorem witness_ResumableConsorts : ∃ pw rows scales, mutedS.Inv ∧ Keyed mutedS ∧ consort? mutedS.w 0 = some resumable ∧ resumable.kept = true ∧
    Movable mutedS 0 resumable [0] saved1 freed0 pw rows scales := by
  obtain ⟨pw, rows, scales, h⟩ := movable
  exact ⟨pw, rows, scales, atW_inv (by decide +kernel), mutedS_keyed, by decide +kernel, rfl, h⟩

theorem witness_ResumableConsorts_lost : ∃ l, resumable.st = .placed ∧ 0 < mutedS.w.nextConsort ∧ launch? mutedS.w resumable.launch = some l ∧
    l.ended + 1 < l.hdr.ccount :=
  ⟨{ launch with hdr := { hdr with ccount := 3 } }, by decide +kernel⟩

/-! ## Traps at issue -/

/-- A word of ones stands at the PC. -/
def reservedS : State := { demo with mem := poke demo.mem 0x100000 4 (2 ^ 32 - 1) }

theorem witness_IssueTraps : ∃ word : Word, Issues reservedS demoX ∧ Keyed reservedS ∧
    (fetchAt reservedS.env reservedS.w demoX.c demoX.pc).word = .ok word.toNat ∧ decodeWord word.toNat 0 = none :=
  ⟨BitVec.allOnes 32, issues_of (by decide +kernel), keyed_of (by decide +kernel), by decide +kernel, by decide +kernel⟩

/-- EXIT, opcode 0x34, at the PC and after it; lane 3 stands at the second. -/
def split (c : Course) : Course := setLpcs c 8 fun _ => 0x100004
def splitS : State :=
  let s := stateOf split id
  { s with mem := poke s.mem 0x100000 8 (2389704704 * (2 ^ 32 + 1)) }

theorem witness_IssueTraps_convergence : ∃ c, splitS.Inv ∧ Keyed splitS ∧ course? splitS.w 0 = some c ∧ canIssue c = true ∧
    (∀ k, k < 32 → laneSt c k = 1 → convergentAt splitS.env splitS.w c (lpc c k) = true) ∧ (∀ k, k < 32 → laneSt c k ≠ 2) ∧
    (∃ j k, j < 32 ∧ k < 32 ∧ laneSt c j = 1 ∧ laneSt c k = 1 ∧ lpc c j ≠ lpc c k) :=
  ⟨split course, ⟨by decide +kernel, by decide +kernel⟩, keyed_of (by decide +kernel), by decide +kernel, by decide +kernel, by decide +kernel,
    by decide +kernel, 0, 3, by decide, by decide, by decide +kernel⟩

end Sys2Proof.Tests
end

