-- ==== Sys2Proof/Tests/WitnessCache.lean ====
section
/-! SUPPORT. Witnesses: states that meet the hypotheses of the statements about activation, the register cache, claims, deferred results
and time. -/

namespace Sys2Proof.Tests

set_option Elab.async false

open Sys2Proof Sys2Proof.Machine Sys2Proof.Claims

/-- The demo with another course in the place of its own. -/
def withCourse (f : Course → Course) (g : W → W) : State := atW fun w => g { w with courses := [(0, f course)] }

theorem withCourse_inv {f : Course → Course} {g : W → W} (h : ((g { demo.w with courses := [(0, f course)] }).wb == []) = true) :
    (withCourse f g).Inv := ⟨demo_inv.mem, beq_iff_eq.mp h⟩

/-! ## Activation -/

/-- A ready record: of a new course, and of one whose frame holds its state. -/
def ready (new : Bool) (c : Course) : Course := { c with k := { c.k with at_ := .ready, isNew := new } }
def readyS : State := withCourse (ready true) id

theorem readyS_next : NextReady readyS 0 0 (ready true course) 0 0 := by
  have e : readyFor readyS.w 0 0 = [(ready true course, 0, 0)] := by decide +kernel
  refine ⟨by rw [e]; exact List.mem_singleton.mpr rfl, fun y hy => .inl ?_⟩
  rw [e] at hy
  exact List.mem_singleton.mp hy

theorem witness_Activations : readyS.Inv ∧ Keyed readyS ∧ canActivate readyS.w 0 0 = true ∧ NextReady readyS 0 0 (ready true course) 0 0 ∧
    (ready true course).k.isNew = true :=
  ⟨withCourse_inv (by decide +kernel), keyed_of (by decide +kernel), by decide +kernel, readyS_next, by decide +kernel⟩

/-- The frame's control area is sealed under the context key, and its VER byte is 1. -/
def framedAt : Nat := 0x10182000
def framed : State :=
  { withCourse (ready false) fun w => { w with sec := { w.sec with
      cipher := (List.range 256).map fun i => (framedAt / 16 + i, ⟨1, 0, 0, framedAt + 16 * i⟩) } } with
    mem := poke demo.mem (framedAt + 0x133) 1 1 }

theorem framed_next : NextReady framed 0 0 (ready false course) 0 0 := by
  have e : readyFor framed.w 0 0 = [(ready false course, 0, 0)] := by decide +kernel
  refine ⟨by rw [e]; exact List.mem_singleton.mpr rfl, fun y hy => .inl ?_⟩
  rw [e] at hy
  exact List.mem_singleton.mp hy

/-- What the control area reads as. -/
theorem witness_Activations_frame : framed.Inv ∧ Keyed framed ∧ canActivate framed.w 0 0 = true ∧ NextReady framed 0 0 (ready false course) 0 0 ∧
    (ready false course).k.isNew = false ∧ (ready false course).k.newer = [] ∧
    ∃ b, ctxRead framed.env framed.w (pcnOf framed.w 0) (ready false course).id.part (slotWorld (ready false course) 0) ((ready false course).id.frame + 0x2000) 4096 =
      .ok b :=
  ⟨⟨by decide +kernel, by decide +kernel⟩, keyed_of (by decide +kernel), by decide +kernel, framed_next, by decide +kernel, by decide +kernel,
    ok_of (by decide +kernel)⟩

theorem witness_Activations_none : demo.Inv ∧ readyFor demo.w 0 0 = [] := ⟨demo_inv, by decide +kernel⟩

/-! ## The register cache -/

/-- The course misses line 5. -/
def missing5 (c : Course) : Course := { c with k := { c.k with stall := some (.fill 5) }, v := { c.v with zmask := 0 } }
def missS : State := withCourse missing5 id

theorem witness_RegisterCache : missS.Inv ∧ Keyed missS ∧ course? missS.w 0 = some (missing5 course) ∧ wantsLine (missing5 course) 5 = true ∧
    isZero (missing5 course) 5 = false ∧ CacheRoom missS (missing5 course) ∧ tGet? (missing5 course).v.lines 5 = none ∧ missS.w.poison = [] ∧
    ∃ b, ctxRead missS.env missS.w (pcnOf missS.w (missing5 course).v.hcore) (missing5 course).id.part (slotWorld (missing5 course) 0) ((missing5 course).id.frame + 128 * 5) 128 = .ok b :=
  ⟨withCourse_inv (by decide +kernel), keyed_of (by decide +kernel), by decide +kernel, by decide +kernel, by decide +kernel, by unfold CacheRoom; decide +kernel,
    by decide +kernel, by decide +kernel, ok_of (by decide +kernel)⟩

/-- The course waits for a line that was never written. -/
def unwritten (c : Course) : Course := { c with k := { c.k with stall := some (.fill 5) } }

theorem witness_RegisterCache_zero : (withCourse unwritten id).Inv ∧ Keyed (withCourse unwritten id) ∧ wantsLine (unwritten course) 5 = true ∧
    isZero (unwritten course) 5 = true ∧ CacheRoom (withCourse unwritten id) (unwritten course) ∧ tGet? (unwritten course).v.lines 5 = none := by
  refine ⟨withCourse_inv ?_, keyed_of ?_, ?_, ?_, by unfold CacheRoom; decide +kernel, ?_⟩ <;> decide +kernel

/-- 2,048 lines of resident courses fill the quadrant. -/
def crowd (c : Course) : Course :=
  { c with v := { c.v with zmask := 0, lines := (List.range 2048).map fun r => (r + 64, ⟨0, mkLine fun _ => 0, false, false, false⟩) } }

theorem witness_RegisterCache_fixed : (withCourse crowd id).Inv ∧ Keyed (withCourse crowd id) ∧
    course? (withCourse crowd id).w 0 = some (crowd course) ∧ CacheFixed (withCourse crowd id) (crowd course) := by
  refine ⟨withCourse_inv rfl, keyed_of (by decide +kernel), rfl, by unfold CacheRoom; decide +kernel, fun y hy l _ _ => .inl ?_⟩
  have e : (withCourse crowd id).w.courses = [(0, crowd course)] := rfl
  rw [e] at hy
  rw [List.mem_singleton.mp hy]
  rfl

/-- A prefetch of a line whose page the context space does not map: the frame stands outside. -/
def strange (c : Course) : Course := { c with id := { c.id with frame := 2 ^ 45 }, v := { c.v with zmask := 0, pref := 32 } }
def strangeS : State := withCourse strange id

theorem witness_RegisterCache_dropped : strangeS.Inv ∧ Keyed strangeS ∧ course? strangeS.w 0 = some (strange course) ∧
    wantsLine (strange course) 5 = true ∧ isZero (strange course) 5 = false ∧ CacheRoom strangeS (strange course) ∧ tGet? (strange course).v.lines 5 = none ∧
    (strange course).k.stall ≠ some (.fill 5) ∧
    ∃ e, ctxRead strangeS.env strangeS.w (pcnOf strangeS.w (strange course).v.hcore) (strange course).id.part (slotWorld (strange course) 0) ((strange course).id.frame + 128 * 5) 128 =
      .error e :=
  ⟨withCourse_inv (by decide +kernel), keyed_of (by decide +kernel), by decide +kernel, by decide +kernel, by decide +kernel, by unfold CacheRoom; decide +kernel,
    by decide +kernel, by decide +kernel, error_of (by decide +kernel)⟩

/-- Line 5 stands in another quadrant's cache; and in that of a parked course, dirty. -/
def line5 : CLine := ⟨3, mkLine fun _ => 7, true, false, false⟩
def remote (c : Course) : Course :=
  { c with k := { c.k with stall := some (.fill 5) }, v := { c.v with zmask := 0, lines := [(5, line5)] } }
def remoteS : State := withCourse remote id

theorem witness_RegisterCache_remote : remoteS.Inv ∧ Keyed remoteS ∧ course? remoteS.w 0 = some (remote course) ∧ wantsLine (remote course) 5 = true ∧
    CacheRoom remoteS (remote course) ∧ tGet? (remote course).v.lines 5 = some line5 :=
  ⟨withCourse_inv (by decide +kernel), keyed_of (by decide +kernel), by decide +kernel, by decide +kernel, by unfold CacheRoom; decide +kernel,
    by decide +kernel⟩

def victim (c : Course) : Course := { c with k := { c.k with at_ := .parked, join := 1 }, v := { c.v with zmask := 0, lines := [(5, line5)] } }
def lineAt : Nat := 0x10180280
def victimS : State := withCourse victim fun w => { w with sec := { w.sec with
  cipher := (List.range 8).map fun i => (lineAt / 16 + i, ⟨1, 0, 0, lineAt + 16 * i⟩) } }

theorem victim_tags : ∀ j : Fin 128, tGet? victimS.w.sec.cipher (keyDev 0 (lineAt + j.val) / 16) =
    ctxTag victimS.w (slotWorld (victim course) 0) (lineAt + j.val) := by decide +kernel

theorem victim_same : SameCtxTag victimS.w (slotWorld (victim course) 0) [(.dev 0 lineAt lineAt, lineAt, 128)] := by
  intro l va n i hl hi
  simp only [List.mem_singleton, Prod.mk.injEq] at hl
  obtain ⟨rfl, rfl, rfl⟩ := hl
  exact victim_tags ⟨i, hi⟩

theorem witness_RegisterCache_spill : victimS.Inv ∧ Keyed victimS ∧ course? victimS.w 0 = some (victim course) ∧
    tGet? (victim course).v.lines 5 = some line5 ∧ (victim course).k.at_ ≠ .resident ∧ (victim course).id.pinned = false ∧ line5.pend = false ∧ line5.dirty = true ∧
    CtxWrites victimS (line5.quad / 4) (victim course).id.part (slotWorld (victim course) 0) ((victim course).id.frame + 128 * 5) 128
      [(.dev 0 lineAt lineAt, lineAt, 128)] :=
  ⟨withCourse_inv (by decide +kernel), keyed_of (by decide +kernel), by decide +kernel, by decide +kernel, by decide +kernel, by decide +kernel, rfl, rfl,
    ⟨by decide +kernel, by decide +kernel, victim_same, by decide +kernel⟩⟩

/-! ## Claims -/

/-- The course waits for scratch block 5, which no consort holds. -/
def claims (u : Unit70) (c : Course) : Course := { c with k := { c.k with stall := some (.claim u) } }
def claimS : State := withCourse (claims (.scratch 0 5)) id

theorem witness_LazyClaims : claimS.Inv ∧ Keyed claimS ∧ consort? claimS.w 0 = some consort ∧ course? claimS.w 0 = some (claims (.scratch 0 5) course) ∧
    (claims (.scratch 0 5) course).id.consort = 0 ∧ (claims (.scratch 0 5) course).k.at_ = .resident ∧
    (claims (.scratch 0 5) course).k.stall = some (.claim (.scratch 0 5)) ∧ claimable claimS.w 0 (.scratch 0 5) = true ∧
    claimFaulted claimS.w consort.part (.scratch 0 5) = false ∧ Unit70.scratch 0 5 ∉ consort.away ∧ unitHolder claimS.w (.scratch 0 5) = none :=
  ⟨withCourse_inv (by decide +kernel), keyed_of (by decide +kernel), by decide +kernel⟩

/-- Block 0 is held by a halted consort and has data. -/
def heldS : State :=
  { withCourse (claims (.scratch 0 0)) fun w => { w with
      consorts := [(0, consort), (1, { held with csave := 0x101A0000, ctx := 1 })], cores := [(0, { core0 with blocks := [(0, 1)] })] } with
    mem := demo.mem.wr (keyScr 0 0 0) 9 }

theorem heldS_inv : heldS.Inv := ⟨by decide +kernel, by decide +kernel⟩
theorem heldS_keyed : Keyed heldS := keyed_of (by decide +kernel)
theorem heldS_data : unitData heldS.env heldS.w (.scratch 0 0) = true := by decide +kernel

theorem witness_LazyClaims_holder : heldS.Inv ∧ Keyed heldS ∧ (consort? heldS.w 0 = some consort ∧
    course? heldS.w 0 = some (claims (.scratch 0 0) course) ∧ claimable heldS.w 0 (.scratch 0 0) = true ∧
    claimFaulted heldS.w consort.part (.scratch 0 0) = false ∧ unitHolder heldS.w (.scratch 0 0) = some 1 ∧
    consort? heldS.w 1 = some { held with csave := 0x101A0000, ctx := 1 }) ∧ unitData heldS.env heldS.w (.scratch 0 0) = true ∧
    ∃ w1, saveUnit heldS.env heldS.w { held with csave := 0x101A0000, ctx := 1 } (.scratch 0 0) = .ok w1 :=
  ⟨heldS_inv, heldS_keyed, by decide +kernel, heldS_data, ok_of (by decide +kernel)⟩

/-! ## Deferred results and time -/

/-- A result of lane 0 for V3 with the flag NX, under the course's tag; and one of another generation. -/
def result (gen : Nat) : Flight := ⟨4, 0, 0, 0, gen, .v 3, 1, mkLine fun _ => 6, [(0, flagNX)]⟩
def flightS (gen : Nat) : State := atW fun w => { w with flights := [result gen] }

theorem witness_DeferredReturns : (flightS 0).Inv ∧ (flightS 0).w.flights.find? (fun f => f.n == 4) = some (result 0) ∧
    ∃ c, course? (flightS 0).w (result 0).cid = some c ∧ (result 0).quad = quadOf c ∧ (result 0).slot = c.k.slot ∧ (result 0).gen = c.k.gen ∧
      c.id.cid = (result 0).cid :=
  ⟨⟨demo_inv.mem, rfl⟩, rfl, course, by decide +kernel⟩

theorem witness_DeferredReturns_old : (flightS 9).Inv ∧ (flightS 9).w.flights.find? (fun f => f.n == 4) = some (result 9) ∧
    ∀ c, course? (flightS 9).w (result 9).cid = some c → (result 9).gen ≠ c.k.gen := by
  refine ⟨⟨demo_inv.mem, rfl⟩, rfl, fun c h => ?_⟩
  have e : course? (flightS 9).w (result 9).cid = some course := by decide +kernel
  cases e.symm.trans h
  decide +kernel

/-- A course that waits with a deadline for Q3. -/
def waiting (c : Course) : Course :=
  { c with k := { c.k with at_ := .parked, join := 1, deadline := some 100, await := .timeline 0 1 5 (some 3) } }

theorem witness_Deadlines : (withCourse waiting id).Inv ∧ Keyed (withCourse waiting id) ∧ course? (withCourse waiting id).w 0 = some (waiting course) ∧
    (waiting course).k.at_ = .parked ∧ (waiting course).k.deadline = some 100 :=
  ⟨withCourse_inv (by decide +kernel), keyed_of (by decide +kernel), by decide +kernel⟩

/-- Two contexts; the course of the first is ready, one of the second is halted. -/
def sliced : State :=
  atW fun w =>
    let w := { w with courses := [(0, ready true course), (1, { halted (other course) with id := { (other course).id with consort := 0, ctx := 1 } })] }
    updPart w 0 fun p => { p with ctxs := { p.ctxs with count := 2, weights := [1, 1], left := 1, slice := 100, endAt := 500 } }

theorem witness_Slices : sliced.Inv ∧ Keyed sliced ∧ (1 < (ctxsOf sliced 0).count ∧ (ctxsOf sliced 0).next = none ∧
    (ctxsOf sliced 0).cur < (ctxsOf sliced 0).count ∧ (ctxsOf sliced 0).left ≤ 1 ∧ course? sliced.w 0 = some (ready true course) ∧
    (ready true course).id.ctx = (ctxsOf sliced 0).cur ∧ (ready true course).id.pinned = false) ∧
    (∃ c, course? sliced.w 1 = some c ∧ c.id.ctx = 1 ∧ c.k.at_ = .halted ∧ consort? sliced.w c.id.consort = some consort ∧ hasPend c = false) ∧
    consort.haltb = false ∧ ∀ y ∈ sliced.w.courses, NearLines y.2 :=
  ⟨⟨demo_inv.mem, by decide +kernel⟩, keyed_of (by decide +kernel), by decide +kernel,
    ⟨{ halted (other course) with id := { (other course).id with consort := 0, ctx := 1 } }, by decide +kernel⟩, by decide +kernel, nears_of (by decide +kernel)⟩

/-- The context's weight gives it one more slice. -/
def weighted : State :=
  atW fun w => updPart { w with courses := [(0, ready true course)] } 0 fun p =>
    { p with ctxs := { p.ctxs with count := 2, weights := [2, 1], left := 2, slice := 100, endAt := 500 } }

theorem witness_Slices_weight : weighted.Inv ∧ Keyed weighted ∧ (1 < (ctxsOf weighted 0).count ∧ (ctxsOf weighted 0).next = none ∧
    (ctxsOf weighted 0).cur < (ctxsOf weighted 0).count ∧ 1 < (ctxsOf weighted 0).left ∧ course? weighted.w 0 = some (ready true course) ∧
    (ready true course).id.ctx = (ctxsOf weighted 0).cur ∧ (ready true course).id.pinned = false ∧ hasPend (ready true course) = false) ∧
    ∀ y ∈ weighted.w.courses, NearLines y.2 :=
  ⟨⟨demo_inv.mem, by decide +kernel⟩, keyed_of (by decide +kernel), by decide +kernel, nears_of (by decide +kernel)⟩

/-- Block 0 is held by a consort with a ready course, which keeps it. -/
def keptS : State := atW fun w => { w with
  consorts := [(0, consort), (1, { held with ctx := 1 })], cores := [(0, { core0 with blocks := [(0, 1)] })],
  courses := [(0, claims (.scratch 0 0) course), (1, ready true (other course))] }

theorem witness_LazyClaims_kept : unitHolder keptS.w (.scratch 0 0) = some 1 ∧ consort? keptS.w 1 = some { held with ctx := 1 } ∧
    Keeps70 keptS 0 consort 1 { held with ctx := 1 } :=
  ⟨by decide +kernel, by decide +kernel,
    .inr (.inr (.inr (.inr ⟨(1, ready true (other course)), List.mem_cons_of_mem _ (List.mem_singleton.mpr rfl), rfl, .inr rfl⟩)))⟩

theorem witness_Slices_one : demo.Inv ∧ Keyed demo ∧ (ctxsOf demo 0).count ≤ 1 := ⟨demo_inv, demo_keyed, by decide +kernel⟩

theorem witness_RequestTimeouts : demo.Inv ∧ course? demo.w 0 = some course ∧ course.k.at_ = .resident ∧
    (∃ o, (atW flying).Inv ∧ tGet? (atW flying).w.ops 0 = some o) :=
  ⟨demo_inv, by decide +kernel, by decide +kernel, _, ⟨demo_inv.mem, rfl⟩, rfl⟩

end Sys2Proof.Tests
end

