-- ==== Sys2Proof/Tests/WitnessUnit.lean ====
section
/-! SUPPORT. Witnesses: states that meet the hypotheses of the statements about device memory, links, errors and engines. -/

namespace Sys2Proof.Tests

set_option Elab.async false

open Sys2Proof Sys2Proof.Machine Sys2Proof.Claims

/-! ## Device memory -/

/-- A read of the last 4 bytes of a 32-byte sector, by core 0; a write to a frame that waits for its scrub; a row without the slice. -/
def sliceReq (row : Nat) (acc : Acc) (op : AtOp) : SliceReq := ⟨row, 0, 0, acc, op, 0x70001C, 4, [1, 2, 3, 4], []⟩
/-- The hub in no slice's row, so that its own requests are refused. -/
def noRowS : State := atW fun w => { w with hub := { w.hub with matrix := [] } }
def scrubS : State := atW fun w => { w with scrub := [(0, 3)] }

theorem witness_SliceRequests : demo.Inv ∧ physLoc demo.fix.form (part demo.w (sliceReq 0 .read .add32).part) (sliceReq 0 .read .add32).pa =
    some (0, 0x70001C) ∧ bytesMoved .read .add32 4 ≠ 0 ∧ 0x70001C % 32 + bytesMoved .read .add32 4 ≤ 32 ∧ Reaches demo 0 0 ∧ ¬ Reaches demo 5 0 ∧ ¬ Reaches noRowS 72 0 ∧
    placesCut demo.w 0 [(.dev 0 0x70001C 0x70001C, 0x70001C, 4)] = none ∧ (scrubS.Inv ∧ (0, 0x70001C / 2 ^ 21) ∈ scrubS.w.scrub) :=
  ⟨demo_inv, by decide +kernel, by decide, by decide, by unfold Reaches; decide +kernel, by unfold Reaches; decide +kernel,
    by unfold Reaches; decide +kernel, by decide +kernel, ⟨demo_inv.mem, rfl⟩, by decide +kernel⟩

/-- Core 1, whose row has slice 0, is kept from it by the muted tile between them, which its router knows. -/
def cutS : State := atW fun w =>
  updTile { w with hub := { w.hub with matrix := [(1, BitVec.ofNat 64 (2 ^ 31 + 1))] } } 2 fun x => { x with map := 2 }

theorem witness_SliceRequests_cut : cutS.Inv ∧ Reaches cutS 1 0 ∧ placesCut cutS.w 1 [(.dev 0 0x70001C 0x70001C, 0x70001C, 4)] ≠ none :=
  ⟨⟨demo_inv.mem, rfl⟩, by unfold Reaches; decide +kernel, by decide +kernel⟩

/-- Every premise about the places of a request. -/
theorem witness_SliceRequests_places : placesStop demo.w [(.dev 0 0x70001C 0x70001C, 0x70001C, 4)] = none ∧
    placesMuted demo.w [(.dev 0 0x70001C 0x70001C, 0x70001C, 4)] = none ∧ SameTag demo.w 0 [(.dev 0 0x70001C 0x70001C, 0x70001C, 4)] ∧
    (placeKeys [(.dev 0 0x70001C 0x70001C, 0x70001C, 4)]).length = 4 ∧ (placeKeys [(.dev 0 0x70001C 0x70001C, 0x70001C, 4)]).Nodup ∧
    atWidth .add32 = 4 :=
  ⟨by decide +kernel, by decide +kernel, same_plain (by decide +kernel), by decide +kernel, by decide +kernel, rfl⟩

theorem witness_PageWalks : ∃ y, demo.Inv ∧ walkEntry demo.env demo.w 0 0 0x5000 true = some y ∧
    (∀ z ∈ demo.w.tlb, ¬ (z.part = 0 ∧ z.asid = 0 ∧ z.page = 0x5000 / 4096)) ∧ walkEntry demo.env demo.w 0 0 (2 ^ 48) true = none := by
  have h : (walkEntry demo.env demo.w 0 0 0x5000 true).isSome = true := by decide +kernel
  obtain ⟨y, e⟩ := Option.isSome_iff_exists.mp h
  exact ⟨y, demo_inv, e, by decide +kernel, by decide +kernel⟩

/-- Core 0, the hub die and port 0 reach slice 0. -/
def reach0 : BitVec 64 := BitVec.ofNat 64 (2 ^ 31 + 1)
def reached : State := atW fun w => { w with hub := { w.hub with matrix := [(0, reach0), (72, reach0), (73, reach0)] } }

theorem witness_Stage2Changes : reached.Inv ∧ 0x1008 % 8 = 0 ∧
    ownPlaces reached.w 72 0 (physPlace reached.env reached.w 0) 0x1008 8 = .ok [(.dev 0 0x1008 0x1008, 0x1008, 8)] ∧
    scrubbing reached.w 0 0x1008 = false ∧ SameTag reached.w 0 [(.dev 0 0x1008 0x1008, 0x1008, 8)] ∧
    (∃ s x, State.Inv s ∧ s.w.invals.find? (fun y => y.n == 7) = some x) :=
  ⟨⟨demo_inv.mem, rfl⟩, by decide, by decide +kernel, by decide +kernel, same_plain (by decide +kernel),
    atW fun w => { w with invals := [⟨7, 0, 0⟩] }, ⟨7, 0, 0⟩, ⟨demo_inv.mem, rfl⟩, rfl⟩

theorem witness_AtsEvents : demo.Inv := demo_inv

theorem witness_ScrubsAndKeys : ∃ p frame, scrubS.Inv ∧ (p, frame) ∈ scrubS.w.scrub ∧ (15, 0) ∉ scrubS.w.scrub ∧
    InFrame scrubS p frame (keyDev 0 0x70001C) ∧ physLoc demo.fix.form (part demo.w 0) (frame * 2 ^ 21) ≠ none :=
  ⟨0, 3, ⟨demo_inv.mem, rfl⟩, by decide +kernel, by decide +kernel, ⟨0x10001C, 0, 0x70001C, by decide, by decide +kernel, by decide +kernel⟩,
    by decide +kernel⟩

/-- An export entry for member 5 of partition 2: 64 bytes of IPA 0x700000, readable; port 0 is the partition's. -/
def exported : State :=
  { atW fun w => updPart { w with hub := reached.w.hub, ports := [(0, { Port.init with up := true })] } 0 fun p =>
      { p with expT := some 0x240000, ports := 1 } with
    mem := poke demo.mem 0x240000 32 (3 + 0x700000 * 2 ^ 64 + 64 * 2 ^ 128 + 5 * 2 ^ 198 + 2 * 2 ^ 208) }

def export0 : Export := ⟨2, 5, 64, 0x700000, false, false, true, true⟩

theorem witness_FabricAccesses : exported.Inv ∧ takesFlit exported.w 0 0 = true ∧ takesFlit demo.w 0 0 = false ∧ exportAt exported.env exported.w 0 0 = some export0 ∧
    export0.admits 5 2 60 (bytesMoved .read .add32 4) .read = true ∧ bytesMoved .read .add32 4 ≠ 0 ∧
    fabPlaces exported 0 (export0.ipa + 60) 4 .read = .ok [(.dev 0 0x70003C 0x70003C, 0x70003C, 4)] ∧
    ReachesAll exported 73 [(.dev 0 0x70003C 0x70003C, 0x70003C, 4)] ∧
    placesCut exported.w 73 [(.dev 0 0x70003C 0x70003C, 0x70003C, 4)] = none ∧ export0.admits 5 2 61 4 .read = false ∧
    exportAt demo.env demo.w 0 0 = none :=
  ⟨⟨by decide +kernel, by decide +kernel⟩, by decide +kernel, by decide +kernel, by decide +kernel, by decide +kernel, by decide,
    by unfold fabPlaces; decide +kernel, by intro y hy; simp only [List.mem_singleton] at hy; subst hy; simp only [Reaches]; decide +kernel,
    by decide +kernel, by decide, by decide +kernel⟩

theorem witness_RequestsComplete : exported.Inv := ⟨by decide +kernel, by decide +kernel⟩

/-! ## Links and errors -/

/-- Port 11 is up and retraining; flits 5 and 6 are kept, and an XOFF holds an answer back. -/
def linked : State := atW fun w =>
  { w with ports := [(11, { Port.init with up := true, rx := 3, retrain := some 100, tx := 7, unacked := [5, 6], xoff := 2, held := [.done] })] }

theorem witness_CelileLinks : linked.Inv ∧ ((port linked.w 11).up = true ∧ (port linked.w 11).discarding = false ∧
    (port linked.w 11).retrain = some 100 ∧ portParts linked.w 11 = [] ∧ (port demo.w 0).up = false ∧ (port demo.w 0).retrain = none) ∧
    (∃ m ∈ (port linked.w 11).unacked, 6 ≤ m) ∧ (∀ m ∈ (port linked.w 11).unacked, m < 7) ∧ (port linked.w 11).held = [.done] ∧
    ∃ q, portParts exported.w 0 = [q] :=
  ⟨⟨demo_inv.mem, rfl⟩, by decide +kernel,
    ⟨6, by decide +kernel, by decide⟩, by decide +kernel, by decide +kernel, 0, by decide +kernel⟩

theorem witness_UncorrectableErrors : remoteS.Inv ∧ course? remoteS.w 0 = some (remote course) ∧ tGet? (remote course).v.lines 5 = some line5 :=
  ⟨withCourse_inv (by decide +kernel), by decide +kernel, by decide +kernel⟩

theorem witness_ControlStateErrors : demo.Inv ∧ Keyed demo ∧ course? demo.w 0 = some course ∧ course.id.consort = 0 ∧
    consort? demo.w 0 = some consort ∧ consort.st = .placed ∧ 0 < demo.w.nextConsort :=
  ⟨demo_inv, demo_keyed, by decide +kernel⟩

/-! ## Engines -/

/-- An operation of the course: its kind, descriptors, addresses and units. -/
def op (kind : EKind) (d1 : Nat) (comp : Word) (va : BitVec 64) (step total : Nat) (units : List Nat) : EngOp :=
  ⟨kind, 0, 0, 0, 0, 0, 0, 0, 1, 1, 0, BitVec.ofNat 128 (region 0 128), BitVec.ofNat 256 d1, BitVec.ofNat 256 d1, 0, 0, [], comp, va, 0,
    0, 0, true, 0, 0, step, total, units, 0, 0, false, false, false, false, false, [], [], [], 0, 0⟩
def opS (o : EngOp) : State := atW fun w => { w with ops := [(9, o)] }

theorem opS_inv (o : EngOp) : (opS o).Inv := ⟨demo_inv.mem, rfl⟩
theorem opS_keyed (o : EngOp) : Keyed (opS o) := demo_keyed

/-- The checks of `AtHead`, computed. -/
def headB (o : EngOp) : Bool :=
  (headOp (opS o).w 0 0 == some (9, o)) && (quad (opS o).w 0).chiselOk && !pcnMuted (opS o).w 0 && (opAway (opS o).w o).isNone &&
    (consort? (opS o).w o.consort == some consort) && decide (o.ah < 16)

theorem head_of {o : EngOp} (h : headB o = true) : AtHead (opS o) 0 0 9 o consort := by
  simp only [headB, Bool.and_eq_true, beq_iff_eq, Bool.not_eq_true', decide_eq_true_eq, Option.isNone_iff_eq_none] at h
  exact ⟨h.1.1.1.1.1, rfl, h.1.1.1.1.2, h.1.1.1.2, h.1.1.2, h.1.2, h.2⟩

/-- The first of two steps of AZERO, the last of them, and none left. -/
theorem witness_ChiselSteps : ∀ n, n ∈ [0, 1, 2] → AtHead (opS (op .azero 0 0 0 n 2 [])) 0 0 9 (op .azero 0 0 0 n 2 []) consort ∧
    StepFits consort (op .azero 0 0 0 n 2 []) ∧ (opS (op .azero 0 0 0 n 2 [])).Inv ∧ Keyed (opS (op .azero 0 0 0 n 2 [])) ∧
    InReach (opS (op .azero 0 0 0 n 2 [])) consort (op .azero 0 0 0 n 2 []) ∧ InSlot (opS (op .azero 0 0 0 n 2 [])) (op .azero 0 0 0 n 2 []) := by
  intro n hn
  simp only [List.mem_cons, List.not_mem_nil, or_false] at hn
  refine ⟨head_of ?_, trivial, opS_inv _, opS_keyed _, ?_, ?_⟩
  · rcases hn with rfl | rfl | rfl <;> decide +kernel
  · unfold InReach SomeAway
    rcases hn with rfl | rfl | rfl <;> decide +kernel
  · intro c h
    have e : course? demo.w 0 = some course := by decide +kernel
    cases Option.some.inj (h.symm.trans e)
    decide +kernel

/-- The consort's core is a muted one, PCN 1, out of the reach of an AZERO of core 0; an ASTP whose read of the block gets no reply. -/
def awayS (o : EngOp) : State :=
  atW fun w => { w with ops := [(9, o)], cores := [(1, core0)], hub := { w.hub with lpt := [BitVec.ofNat 64 (1 + 2 ^ 17 + 2 ^ 18)] } }
def lateOp : EngOp := { op (.astp .rne) panel0 0 0 0 2 [] with tmo := true }

/-- An AZERO whose write gets no reply, performed or not. -/
def lateZero (done : Bool) : EngOp := { op .azero 0 0 0 0 2 [] with tmo := true, tmoDone := done }

/-- An ASTP of a sound panel, a PSWZ to one, an SCLD of scale groups in range. -/
theorem sound0 : Sound (parsePanel (BitVec.ofNat 256 panel0)) := by constructor <;> decide +kernel

theorem witness_StepsOutOfReach : ((awayS (op .azero 0 0 0 0 2 [])).Inv ∧ Keyed (awayS (op .azero 0 0 0 0 2 [])) ∧
      AtHead (awayS (op .azero 0 0 0 0 2 [])) 0 0 9 (op .azero 0 0 0 0 2 []) consort ∧
      SomeAway (awayS (op .azero 0 0 0 0 2 [])) consort (op .azero 0 0 0 0 2 []) (stepCores consort (op .azero 0 0 0 0 2 [])).2) ∧
    (AtHead (opS lateOp) 0 0 9 lateOp consort ∧ StepFits consort lateOp ∧ ¬ SomeAway (opS lateOp) consort lateOp (stepCores consort lateOp).2 ∧
      lateOp.tmo = true ∧ (stepCores consort lateOp).1 ≠ []) ∧
    ∀ done, AtHead (opS (lateZero done)) 0 0 9 (lateZero done) consort ∧ StepFits consort (lateZero done) ∧
      ¬ SomeAway (opS (lateZero done)) consort (lateZero done) (stepCores consort (lateZero done)).2 :=
  ⟨⟨⟨demo_inv.mem, rfl⟩, demo_keyed, ⟨by decide +kernel, rfl, by decide +kernel, by decide +kernel, by decide +kernel, by decide +kernel, by decide⟩, by unfold SomeAway; decide +kernel⟩,
    ⟨head_of (by decide +kernel), sound0, by unfold SomeAway; decide +kernel, rfl, by decide +kernel⟩,
    fun done => ⟨head_of (by cases done <;> decide +kernel), trivial, by unfold SomeAway; cases done <;> decide +kernel⟩⟩

theorem witness_EngineChecks : panelBad (BitVec.ofNat 256 panel0) = false := by decide +kernel

theorem witness_ChiselSteps_panels : (AtHead (opS (op (.astp .rne) panel0 0 0 0 2 [])) 0 0 9 (op (.astp .rne) panel0 0 0 0 2 []) consort ∧
      StepFits consort (op (.astp .rne) panel0 0 0 0 2 [])) ∧ StepFits consort (op (.pswz .rne true) panel0 0 0 0 1 []) ∧
    StepFits consort (op (.scld true) panel0 (0xF * 2 ^ 20) 0 0 1 []) := by
  refine ⟨⟨head_of (by decide +kernel), sound0⟩, sound0, ?_, by decide +kernel⟩
  intro i
  have e : consort.pw = [0] := by decide +kernel
  rw [e]
  cases i <;> simp [nth]

/-- A sequencer without an operation. -/
theorem witness_ChiselSteps_none : demo.Inv ∧ headOp demo.w 0 0 = none := ⟨demo_inv, by decide +kernel⟩

/-- The checks of `MayCopy` for line 63, computed. -/
def copyB (o : EngOp) : Bool :=
  o.kind.isCopy && (consort? (opS o).w o.consort == some consort) && o.units.contains 63 && (o.faulted == []) && !o.tmo && !o.tmoWalk &&
    (opAway (opS o).w o).isNone && (Sys2Proof.Machine.core (opS o).w o.pcn).copyOk &&
    !pcnMuted (opS o).w o.pcn && ((coresOf o).all fun c => !coreAway (opS o).w o.pcn (consortPcn (opS o).w consort c)) &&
    ((opS o).w.poison == [])

theorem copy_of {o : EngOp} (h : copyB o = true) : MayCopy (opS o) 9 63 o consort := by
  simp only [copyB, Bool.and_eq_true, beq_iff_eq, Bool.not_eq_true', Option.isNone_iff_eq_none, List.all_eq_true, List.contains_iff_mem] at h
  exact { op := rfl, kind := by simp_all, consort := by simp_all, unit := by simp_all, free := by simp_all, here := by simp_all,
          sound := by simp_all, present := ⟨by simp_all, fun ⟨c, hc, e⟩ => by simp_all⟩, clean := by simp_all }

/-- A copy of 64 lines of 256 bytes from 0x700000, and one to an address that no page maps. -/
def copyOp (kind : EKind) (va : BitVec 64) : EngOp := op kind panel0 256 va 0 0 [62, 63]
def copyAt : List (Loc × Nat × Nat) := [(.dev 0 0x703F00 0x703F00, 0x703F00, 256)]

theorem witness_CopyLines : ∃ o va ls, (opS o).Inv ∧ MayCopy (opS o) 9 63 o consort ∧ ((coresOf o).flatMap fun c => lineOf (opS o) consort o c 63).Nodup ∧
    (o.kind = .copy ∧ va = (o.va.toNat + 63 * bvF o.comp 0 24) % 2 ^ 64) ∧ engAccess (opS o).env (opS o).w o .read va (lineBytesOf o) = .ok ls ∧
    Near (opS o) o ls :=
  ⟨copyOp .copy 0x700000, 0x703F00, copyAt, opS_inv _, copy_of (by decide +kernel), by decide +kernel, ⟨rfl, by decide +kernel⟩,
    by unfold Near; decide +kernel⟩

/-- A gather by an index of 4 bytes, 0. -/
theorem witness_CopyLines_gather : ∃ is ls, MayCopy (opS (copyOp .gather 0x700000)) 9 63 (copyOp .gather 0x700000) consort ∧
    engAccess (opS (copyOp .gather 0x700000)).env (opS (copyOp .gather 0x700000)).w (copyOp .gather 0x700000) .read 252 4 = .ok is ∧
    Near (opS (copyOp .gather 0x700000)) (copyOp .gather 0x700000) is ∧
    leNat (rdPlaces (opS (copyOp .gather 0x700000)).env (opS (copyOp .gather 0x700000)).w 0 is) = 0 ∧
    engAccess (opS (copyOp .gather 0x700000)).env (opS (copyOp .gather 0x700000)).w (copyOp .gather 0x700000) .read 0x700000 256 = .ok ls :=
  ⟨[(.dev 0 252 252, 252, 4)], [(.dev 0 0x700000 0x700000, 0x700000, 256)], copy_of (by decide +kernel), by decide +kernel,
    ⟨by decide +kernel, by decide +kernel⟩, by decide +kernel, by decide +kernel⟩

theorem witness_CopyLines_out : ∃ o ls, MayCopy (opS o) 9 63 o consort ∧ o.kind = .copyo ∧
    engAccess (opS o).env (opS o).w o .write ((o.va.toNat + 63 * bvF o.comp 0 24) % 2 ^ 64) (lineBytesOf o) = .ok ls ∧
    Near (opS o) o ls ∧ SameTag (opS o).w o.world ls ∧ (placeKeys ls).Nodup :=
  ⟨copyOp .copyo 0x700000, copyAt, copy_of (by decide +kernel), rfl, by decide +kernel, ⟨by decide +kernel, by decide +kernel⟩,
    same_plain (by decide +kernel), by decide +kernel⟩

theorem witness_CopyLines_fault : ∃ o cause va m, MayCopy (opS o) 9 63 o consort ∧ o.kind = .copy ∧ Keyed (opS o) ∧
    course? (opS o).w o.cid = some course ∧ course.k.at_ = .resident ∧ o.part = course.id.part ∧
    engAccess (opS o).env (opS o).w o .read ((o.va.toNat + 63 * bvF o.comp 0 24) % 2 ^ 64) (lineBytesOf o) = .fault cause va m := by
  have h : (match engAccess (opS (copyOp .copy (2 ^ 40))).env (opS (copyOp .copy (2 ^ 40))).w (copyOp .copy (2 ^ 40)) .read
      (((copyOp .copy (2 ^ 40)).va.toNat + 63 * bvF (copyOp .copy (2 ^ 40)).comp 0 24) % 2 ^ 64) (lineBytesOf (copyOp .copy (2 ^ 40))) with
    | .fault .. => true
    | _ => false) = true := by decide +kernel
  obtain ⟨cause, va, m, e⟩ : ∃ cause va m, engAccess (opS (copyOp .copy (2 ^ 40))).env (opS (copyOp .copy (2 ^ 40))).w (copyOp .copy (2 ^ 40)) .read
      (((copyOp .copy (2 ^ 40)).va.toNat + 63 * bvF (copyOp .copy (2 ^ 40)).comp 0 24) % 2 ^ 64) (lineBytesOf (copyOp .copy (2 ^ 40))) =
        .fault cause va m := by
    generalize engAccess (opS (copyOp .copy (2 ^ 40))).env _ _ _ _ _ = r at h ⊢
    cases r <;> simp_all
  exact ⟨copyOp .copy (2 ^ 40), cause, va, m, copy_of (by decide +kernel), rfl, opS_keyed _, by decide +kernel, by decide +kernel, rfl, e⟩

/-- A round of two members: an INT32 sum of two elements, this device first. -/
def group2 : Nat := 1 + 2 ^ 8 + 7 * 2 ^ 16 + 2 * 2 ^ 80 + 2 * 2 ^ 96 + 0x720000 * 2 ^ 192 + 0x730000 * 2 ^ 256 + 0x710000 * 2 ^ 320
def peer1 : PeerPart := ⟨1, true, 1, 7, 0, 2, 2, 0, leBytes 8 5, []⟩
def collOp : EngOp := op .coll 0 0 0x700000 0 1 []
def collS : State := { opS collOp with mem := poke demo.mem 0x700000 64 group2 }
def groupAt : List (Loc × Nat × Nat) := [(.dev 0 0x700000 0x700000, 0x700000, 64)]
def tableAt : List (Loc × Nat × Nat) := [(.dev 0 0x710000 0x710000, 0x710000, 16)]
def grp : Group := parseGroup (rdPlaces collS.env collS.w collOp.world groupAt)

theorem reach_of {s : State} {o : EngOp} {ls : List (Loc × Nat × Nat)}
    (h : ((placesMuted s.w ls).isNone && (placesCut s.w o.pcn ls).isNone) = true) : Near s o ls := by
  simpa [Near, Bool.and_eq_true, Option.isNone_iff_eq_none] using h

/-- A collective's port that has read nothing, and one that has read the descriptor. -/
def read1 : EngOp := { collOp with desc := rdPlaces collS.env collS.w 0 groupAt, mtab := [0, 0] }
def readS : State := { opS read1 with mem := collS.mem }

theorem witness_CollectiveChunks : collS.Inv ∧ MayColl collS 9 0 collOp ∧ collOp.desc = [] ∧ (readS.Inv ∧ MayColl readS 9 0 read1 ∧ read1.desc ≠ [] ∧ read1.units = [] ∧
      (parseGroup read1.desc).agrees peer1 = true ∧ (parseGroup read1.desc).agrees { peer1 with kind := 2 } = false) ∧
    engAccess collS.env collS.w collOp .read collOp.va.toNat 64 = .ok groupAt ∧ placesStop collS.w groupAt = none ∧ Near collS collOp groupAt :=
  ⟨⟨by decide +kernel, by decide +kernel⟩, ⟨rfl, rfl, ⟨rfl, rfl, rfl⟩, by decide, by decide +kernel, by decide +kernel⟩, rfl,
    ⟨⟨by decide +kernel, by decide +kernel⟩, ⟨rfl, rfl, ⟨rfl, rfl, rfl⟩, by decide, by decide +kernel, by decide +kernel⟩, by decide +kernel, rfl, by decide +kernel,
      by decide +kernel⟩, by decide +kernel, by decide +kernel, reach_of (by decide +kernel)⟩

/-- A descriptor whose version is 2; a table whose second entry is malformed; a peer of another kind. -/
theorem witness_CollectiveChunks_ends : (parseGroup (leBytes 64 (group2 + 1))).bad = true ∧ ¬ TableOk collS collOp grp [0, 2 ^ 14] ∧
    grp.agrees { peer1 with kind := 2 } = false :=
  ⟨by decide +kernel, fun h => absurd (h.1 (2 ^ 14) (by decide)).2 (by decide +kernel), by decide +kernel⟩

/-- The table names this device twice, as partitions 0 and 0: both members are here. -/
theorem table0 : TableOk collS collOp grp [0, 0] :=
  ⟨by decide, by decide +kernel, by decide +kernel⟩

theorem near0 {s : State} (hf : s.w.hub.fdev = 0) (pt : Port) : ¬ FarMember s [0, 0] pt := by
  rintro ⟨x, hx, hne, -⟩
  have e : x = 0 := by simpa using hx
  subst e
  exact hne (by rw [hf]; decide)

/-- The chunk's bytes, its places, and what it writes. -/
def chunkOp : EngOp := { collOp with desc := rdPlaces collS.env collS.w 0 groupAt, mtab := [0, 0] }
def sourceAt : List (Loc × Nat × Nat) := [(.dev 0 0x720000 0x720000, 0x720000, 8)]
def destAt : List (Loc × Nat × Nat) := [(.dev 0 0x730000 0x730000, 0x730000, 8)]
def ownBytes : List Byte := rdPlaces collS.env collS.w chunkOp.world sourceAt
def sumBytes : List Byte := grp.reduce ownBytes [peer1]

theorem lands0 : Lands collS chunkOp collS.w [(0x730000, sumBytes)] [destAt] :=
  ⟨by decide +kernel, reach_of (by decide +kernel), same_plain (by decide +kernel), trivial⟩

theorem witness_CollectiveChunks_exchange : grp.bad = false ∧
    engAccess collS.env collS.w collOp .read grp.mtab (8 * grp.members) = .ok tableAt ∧ placesStop collS.w tableAt = none ∧
    Near collS collOp tableAt ∧
    (List.range grp.members).map (fun j => field (rdPlaces collS.env collS.w collOp.world tableAt) (8 * j) 8) = [0, 0] ∧
    TableOk collS collOp grp [0, 0] ∧ (∀ x ∈ [peer1], grp.agrees x = true) ∧
    ¬ (grp.bytes ≤ 0 ∨ grp.fullRound (min 4096 grp.bytes) [peer1] = false ∨ ∃ pt, FarMember collS [0, 0] pt ∧ pt.xoff.getLsbD 2 = true) ∧
    chunkOp.world = 0 ∧ WholeChunk collS chunkOp grp [0, 0] [peer1] ∧ grp.gives = true ∧
    engAccess collS.env collS.w chunkOp .read grp.src (min 4096 grp.bytes) = .ok sourceAt ∧ Near collS chunkOp sourceAt ∧
    ChunkRuns grp 0 ownBytes [peer1] [(0x730000, sumBytes)] ∧ Lands collS chunkOp collS.w [(0x730000, sumBytes)] [destAt] ∧
    ([destAt].flatMap placeKeys).Nodup := by
  refine ⟨by decide +kernel, by decide +kernel, by decide +kernel, reach_of (by decide +kernel), by decide +kernel, table0, ?_, ?_, rfl,
    ⟨rfl, fun pt h => absurd h (near0 rfl pt), by decide +kernel, ?_, rfl⟩, by decide +kernel, by decide +kernel, reach_of (by decide +kernel),
    ?_, lands0, by decide +kernel⟩
  · intro x hx
    rw [List.mem_singleton.mp hx]
    decide +kernel
  · rintro (h | h | ⟨pt, h, -⟩)
    · exact absurd h (by decide +kernel)
    · exact absurd h (by decide +kernel)
    · exact near0 rfl pt h
  · intro x hx
    rw [List.mem_singleton.mp hx]
    exact ⟨rfl, by decide +kernel, by decide +kernel, rfl⟩
  · have h : grp.kind = 1 ∧ grp.dst + 4096 * 0 = 0x730000 := by decide +kernel
    unfold ChunkRuns
    rw [h.1]
    exact congrArg (fun a => [(a, sumBytes)]) h.2.symm

theorem chunk_reduce (g : Group) (own : List Byte) (ps : List PeerPart) (h : g.rank = g.root) :
    ChunkRuns { g with kind := 0 } 0 own ps [(g.dst, g.reduce own ps)] :=
  (if_pos h).symm

theorem chunk_gather (g : Group) (own : List Byte) (x : PeerPart) (h : g.rank = 0 ∧ g.members = 2) (hx : x.rank = 1) :
    ChunkRuns { g with kind := 2 } 0 own [x] [(g.dst, own), (g.dst + g.bytes, x.bytes)] := by
  refine ⟨h.2.symm, fun j hj => ?_⟩
  have hj : j < 2 := h.2 ▸ hj
  interval_cases j
  · exact ⟨own, congrArg (fun a => some (a, own)) (by rw [Nat.zero_mul]; rfl), .inl ⟨h.1.symm, rfl⟩⟩
  · exact ⟨x.bytes, congrArg (fun a => some (a, x.bytes)) (by rw [Nat.one_mul]; rfl),
      .inr ⟨fun e => absurd (e.trans h.1) (by decide), x, List.mem_singleton.mpr rfl, hx, rfl⟩⟩

theorem chunk_broadcast (g : Group) (own : List Byte) (ps : List PeerPart) (h : g.root = g.rank) :
    ChunkRuns { g with kind := 3 } 0 own ps [(g.dst, own)] :=
  ⟨own, congrArg (fun a => [(a, own)]) (Nat.add_zero g.dst).symm, .inl ⟨h, rfl⟩⟩

/-- What a chunk of the other kinds writes: REDUCE here alone, where the root is; ALLGATHER both members' bytes; BROADCAST the root's. -/
theorem witness_CollectiveChunks_runs : ChunkRuns { grp with kind := 0 } 0 ownBytes [peer1] [(grp.dst, sumBytes)] ∧
    ChunkRuns { grp with kind := 2 } 0 ownBytes [peer1] [(grp.dst, ownBytes), (grp.dst + grp.bytes, peer1.bytes)] ∧
    ChunkRuns { grp with kind := 3 } 0 ownBytes [peer1] [(grp.dst, ownBytes)] :=
  have h : grp.rank = 0 ∧ grp.root = 0 ∧ grp.members = 2 := by decide +kernel
  ⟨chunk_reduce grp _ _ (h.1.trans h.2.1.symm), chunk_gather grp _ _ ⟨h.1, h.2.2⟩ rfl, chunk_broadcast grp _ _ (h.2.1.trans h.1.symm)⟩

/-- A member of world 1 reached over a link without a key. -/
theorem witness_CollectiveChunks_key : ∃ pt, ({ collOp with world := 1 } : EngOp).world ≠ 0 ∧ FarMember collS [0, 5] pt ∧ pt.key = none := by
  refine ⟨port collS.w (Config.fabRoute (bitsAt 5 0 10)).val, by decide, ⟨5, by simp, by decide +kernel, rfl⟩, ?_⟩
  have e : collS.w.ports = [] := by decide +kernel
  rw [port, e]
  rfl

end Sys2Proof.Tests
end

