-- ==== Sys2Proof/Tests/WitnessTile.lean ====
section
/-! SUPPORT. Witnesses: states that meet the hypotheses of the statements about tiles, a function's registers, bring-up and trusted
interfaces. -/

namespace Sys2Proof.Tests

set_option Elab.async false

open Sys2Proof Sys2Proof.Machine Sys2Proof.Claims

/-! ## Tiles -/

/-- Tile n stands as f makes it of its first state. -/
def tiled (n : Nat) (f : Tile → Tile) : State := { State.reset with w := updTile State.reset.w n f }

theorem reset_inv : State.reset.Inv := ⟨by decide +kernel, rfl⟩
theorem tiled_inv (n : Nat) (f : Tile → Tile) : (tiled n f).Inv := ⟨reset_inv.mem, rfl⟩

/-- Tile 9, of a core, is in STATE v after k appeals. -/
def inState (v k : Nat) : State := tiled 9 fun x => { x with word := bvSet (bvSet x.word 16 4 v) 20 2 k }

theorem takes_reset : TakesPart State.reset 9 := .inl (by decide +kernel)
theorem muted_out : ¬ TakesPart (inState 1 0) 9 := by unfold TakesPart; decide +kernel

theorem witness_HeartbeatSend : State.reset.Inv ∧ TakesPart State.reset 9 ∧ TakesPart (inState 3 0) 9 ∧ (inState 1 0).Inv ∧
    ¬ TakesPart (inState 1 0) 9 :=
  ⟨reset_inv, takes_reset, .inr (by decide +kernel), tiled_inv _ _, muted_out⟩

/-- A heartbeat from tile 1, a retune notice and a heartbeat that names tile 3. -/
def beat (kind sender : Nat) : BitVec 128 := flitOf (kind * 2 ^ 96 + 5 * 2 ^ 48 + tileGy sender * 2 ^ 8 + tileX sender * 2 ^ 4)

theorem witness_HeartbeatReceive : State.reset.Inv ∧ TakesPart State.reset 9 ∧ neighbour 9 0 = some 1 ∧
    (flitGood (beat 0 1) = true ∧ bvF (beat 0 1) 96 4 = 0) ∧ (flitGood (beat 3 1) = true ∧ bvF (beat 3 1) 96 4 = 3) ∧
    flitGood (beat 0 1 ^^^ 1) = false ∧ (flitGood (beat 0 3) = true ∧ tileAt (bvF (beat 0 3) 4 3) (bvF (beat 0 3) 8 4) ≠ 1) ∧
    neighbour 0 0 = none :=
  ⟨reset_inv, takes_reset, by decide, by decide +kernel⟩

/-- The record of the north neighbour stands at r, which is watched or not. -/
def recorded (r : Nat) : State := tiled 9 fun x => { x with nb := setNth 4 x.nb 0 (BitVec.ofNat 32 r) 0 }

/-- MISS at 3 fails the first test; at 2 no test fails; two sides before make a quorum with its own, in a tile at the edge. -/
theorem witness_PeriodBoundary : ∀ r ∈ [0x200003, 0x200002, 0x20C003, 0x240003 + 0x4000, 0x230002 + 0x4000], (recorded r).Inv ∧
    TakesPart (recorded r) 9 ∧ neighbour 9 0 = some 1 ∧ (recordOf (recorded r) 9 0).getLsbD 20 = false ∧
    (recordOf (recorded r) 9 0).getLsbD 22 = false := by
  intro r h
  refine ⟨tiled_inv _ _, ?_⟩
  unfold TakesPart
  simp only [List.mem_cons, List.not_mem_nil, or_false] at h
  rcases h with rfl | rfl | rfl | rfl | rfl <;> decide +kernel

theorem witness_PeriodBoundary_tests : Wrong (tile (recorded 0x200003).w 9) 0x200003 0 ∧ ¬ Wrong (tile (recorded 0x200002).w 9) 0x200002 0 ∧
    quorum 1 = 2 ∧ sidesIn 0xC = 2 ∧ sidesIn 4 < quorum 1 ∧ 4 < bvF (0x244003 : BitVec 32) 16 3 + 1 ∧ bvF (0x234002 : BitVec 32) 16 3 + 1 ≤ 4 ∧
    (∃ s, State.Inv s ∧ ¬ TakesPart s 9) :=
  ⟨.inl (by decide +kernel), by unfold Wrong; decide +kernel, by decide, by decide, by decide, by decide, by decide, inState 1 0, tiled_inv _ _,
    muted_out⟩

/-- The tile appeals, and its thousandth period ends. -/
def lateAppeal : State := tiled 9 fun x => { x with word := bvSet x.word 16 4 3, periods := 999 }

theorem witness_PeriodBoundary_appeal : lateAppeal.Inv ∧ TakesPart lateAppeal 9 ∧ Claims.stateOf lateAppeal 9 = 3 ∧
    ((tile lateAppeal.w 9).periods + 1) % 1000 = 0 :=
  ⟨tiled_inv _ _, .inr (by decide +kernel), by decide +kernel, by decide +kernel⟩

/-- An accusation, and a vote, of the tile to the north by its western neighbour. -/
theorem witness_AccusationsAndVotes : ∀ kind ∈ [1, 4], let f := flitAbout kind 1 0 (2 ^ (3 - 3))
    State.reset.Inv ∧ tileAt (bvF f 32 3) (bvF f 36 4) = 1 ∧ neighbour 9 0 = some 1 ∧ bvF f 0 4 = 2 ^ (3 - 3) ∧
    (flitGood f = true ∧ TakesPart State.reset 9 ∧ neighbour 1 3 = some (tileAt (bvF f 4 3) (bvF f 8 4))) ∧ bvF f 96 4 = kind ∧
    (recordOf State.reset 9 0).getLsbD 20 = false ∧ (bvF (recordOf State.reset 9 0) 12 4).testBit (3 - 3) = false ∧
    (tile State.reset.w 9).votes.getD 0 0 = 0 ∧ flitGood (f ^^^ 2 ^ 100) = false := by
  intro k h
  refine ⟨reset_inv, ?_⟩
  unfold TakesPart
  simp only [List.mem_cons, List.not_mem_nil, or_false] at h
  rcases h with rfl | rfl <;> decide +kernel

/-- Tile 9 and the slice tile 7 are reported as muted; the table names the PCN of tile 9 alone. -/
def toldOf (l : List Nat) : State :=
  { State.reset with w := { State.reset.w with hub := { State.reset.w.hub with reported := l, lpt := [BitVec.ofNat 64 (2 ^ 18 + pcnOfTile 9)] } } }

theorem toldOf_inv (l : List Nat) : (toldOf l).Inv := ⟨reset_inv.mem, rfl⟩
theorem witness_names : NamesCore (toldOf []) 0 (pcnOfTile 9) ∧ ¬ NamesCore (toldOf []) 1 (pcnOfTile 9) := by
  unfold NamesCore
  decide +kernel

theorem witness_Muting : (State.reset.Inv ∧ Claims.stateOf State.reset 9 = 0) ∧ ((inState 2 0).Inv ∧ Claims.stateOf (inState 2 0) 9 = 2) ∧
    (toldOf []).Inv ∧ (9 ∉ (toldOf []).w.hub.reported ∧ tileIsCore 9 = true ∧ tileIsCore 7 = false) ∧ 9 ∈ (toldOf [9, 7]).w.hub.reported ∧
    bvF (tile (inState 2 2).w 9).word 20 2 = 2 ∧ bvF (tile (inState 2 3).w 9).word 20 2 = 3 :=
  ⟨⟨reset_inv, by decide +kernel⟩, ⟨tiled_inv _ _, by decide +kernel⟩, toldOf_inv _, by decide +kernel⟩

/-- Record of an appealing neighbour, watched or not; a tile that heard one notice or none. -/
def watchedS (on : Bool) : State :=
  tiled 9 fun x => { x with nb := setNth 4 x.nb 0 (BitVec.ofNat 32 0x600000) 0, watch := [on, false, false, false] }
def heardS (l : List Nat) : State := atW fun w => { updTile w 9 (fun x => { x with word := bvSet x.word 16 4 3, heard := l }) with
  hub := { w.hub with lpt := [1, 10, 17].map fun t => BitVec.ofNat 64 (2 ^ 18 + pcnOfTile t) } }

theorem witness_Appeals : ((inState 3 2).Inv ∧ Claims.stateOf (inState 3 2) 9 = 3 ∧ bvF (tile (inState 3 2).w 9).word 20 2 < 3) ∧
    (Claims.stateOf (inState 3 3) 9 = 3 ∧ bvF (tile (inState 3 3).w 9).word 20 2 = 3) ∧
    ((watchedS false).Inv ∧ TakesPart (watchedS false) 9 ∧ (recordOf (watchedS false) 9 0).getLsbD 22 = true ∧
      (tile (watchedS false).w 9).watch.getD 0 false = false) ∧ (tile (watchedS true).w 9).watch.getD 0 false = true ∧
    ((heardS [1]).Inv ∧ Claims.stateOf (heardS [1]) 9 = 3 ∧ (tile (heardS [1]).w 9).heard.length + 1 < soundNeighbours (heardS [1]).w 9) ∧
    soundNeighbours (heardS [1, 8, 10]).w 9 ≤ (tile (heardS [1, 8, 10]).w 9).heard.length + 1 ∧
    9 ∈ (toldOf [9, 7]).w.hub.reported ∧ 9 ∉ (toldOf []).w.hub.reported :=
  ⟨⟨tiled_inv _ _, by decide +kernel, by decide +kernel⟩, by decide +kernel, ⟨tiled_inv _ _, by unfold TakesPart; decide +kernel,
    by decide +kernel, by decide +kernel⟩, by decide +kernel, ⟨⟨demo_inv.mem, rfl⟩, by decide +kernel, by decide +kernel⟩, by decide +kernel⟩

/-- A tile whose supply sags; the power limit is 1800 W. -/
theorem witness_PowerAndTemperature : State.reset.Inv ∧ (tile State.reset.w 9).sag = false ∧
    (tile (tiled 9 fun x => { x with sag := true, droop := 5 }).w 9).sag = true ∧ (fn State.reset.w 0).pwrlim * 1000 < 1800001 ∧
    (1710000 ≤ (fn State.reset.w 0).pwrlim * 1000 ∧ (fn State.reset.w 0).pwrlim * 1000 * 95 ≤ 1710000 * 100) ∧
    1709999 * 100 < (fn State.reset.w 0).pwrlim * 1000 * 95 ∧ State.reset.w.hub.below < 9 ∧
    9 ≤ ({ State.reset.w.hub with below := 9 } : Hub).below :=
  ⟨reset_inv, by decide +kernel⟩

/-! ## Registers of a function -/

/-- Function n stands as f makes it. -/
def fned (n : Nat) (f : Fn → Fn) : State := atW fun w => updFn w n f
theorem fned_inv (n : Nat) (f : Fn → Fn) : (fned n f).Inv := ⟨demo_inv.mem, rfl⟩

/-- The host event queue of the PF: 64 entries, head 60, tail 3. -/
def ringed : State := fned 0 fun f => { f with everHeq := true, heqSize := 64, heqHead := 60, heqTail := 3 }

theorem witness_HostQueueRegisters : ringed.Inv ∧ Takes ringed 0 ∧ ¬ Takes ringed 5 ∧ (fn ringed.w 0).everHeq = true ∧
    (∃ i, i ≤ 10 ∧ (65536 : BitVec 64).toNat = 2 ^ (6 + i)) ∧
    ((fn ringed.w 0).heqTail < (fn ringed.w 0).heqSize ∧ (fn ringed.w 0).heqHead < (fn ringed.w 0).heqSize) ∧
    (∃ i, i ≤ (3 + 64 - 60) % 64 ∧ 3 = (60 + i) % 64) ∧ ¬ ∃ i, i ≤ (3 + 64 - 60) % 64 ∧ 4 = (60 + i) % 64 :=
  ⟨fned_inv _ _, by unfold Takes; decide +kernel, by unfold Takes; decide +kernel, by decide +kernel, ⟨10, by decide, by decide⟩, by decide +kernel,
    ⟨7, by decide, by decide⟩, by rintro ⟨i, h, e⟩; omega⟩

/-- The PF's queue before its first set-up, its base or its size written already; a port and a die are reported. -/
def unheard : State :=
  atW fun w => { updFn w 0 (fun f => { f with heqSize := 0, heqBase := 0x9000, everHeq := false, dropped := 7 }) with
    hub := { w.hub with replme := 1, reports := [(0x14, 0x103, 0)] } }
def sized : State := fned 0 fun f => { f with heqSize := 64, everHeq := false }

theorem witness_FirstSetUp : unheard.Inv ∧ Takes unheard 0 ∧ (fn unheard.w 0).everHeq = false ∧ (∃ i, i ≤ 10 ∧ (64 : BitVec 64).toNat = 2 ^ (6 + i)) ∧
    HeldReports unheard 0 [(0, 0x14, 0x103, 0), (0, 0x22, 1, 1)] ∧ bvF (msixEntry (fn unheard.w 0) 0) 0 64 + 4 ≤ 0x9000 ∧
    (sized.Inv ∧ Takes sized 0 ∧ (fn sized.w 0).everHeq = false ∧ HeldReports sized 0 [] ∧ bvF (msixEntry (fn sized.w 0) 0) 0 64 + 4 ≤ 4096) :=
  ⟨⟨demo_inv.mem, rfl⟩, by unfold Takes; decide +kernel, by decide +kernel, ⟨0, by decide, by decide⟩,
    .inl ⟨⟨by decide +kernel, .inl rfl⟩, by decide +kernel⟩, by decide +kernel,
    ⟨fned_inv _ _, by unfold Takes; decide +kernel, by decide +kernel, .inr ⟨fun h => absurd h.1 (by decide +kernel), by decide +kernel⟩, by decide +kernel⟩⟩

/-- VF 5 is bound to partition 3, or to partition 0, which has a consort. -/
def vf5 (p : Nat) : State := fned 5 fun f => { f with bound := true, part := p, crsel := 0x4003 }

theorem witness_Versions : (vf5 3).Inv ∧ Takes (vf5 3) 5 ∧ (part (vf5 3).w 3).fq.held = [] ∧ (∀ y ∈ (vf5 3).w.consorts, y.2.part ≠ (fn (vf5 3).w 5).part) ∧
    (∃ y ∈ (vf5 0).w.consorts, y.2.part = (fn (vf5 0).w 5).part) :=
  ⟨fned_inv _ _, by unfold Takes; decide +kernel, by decide +kernel, by decide +kernel, (0, consort), by decide +kernel, by decide +kernel⟩

theorem counter_of (s : State) (p : Nat) (h : p < 16) : CounterIs s (0x4000 + p) (part s.w p).denied := by
  refine ⟨fun h => absurd h (by omega), fun pcn h1 h2 => absurd h2 (by omega), fun sl e h1 h2 h3 => absurd h3 (by omega),
    fun pcn e h1 h2 h3 h4 => absurd h4 (by omega), fun sl e h1 h2 h3 h4 => absurd h4 (by omega), fun q hq e => ?_⟩
  have : q = p := by omega
  rw [this]

theorem witness_CounterReads : (vf5 3).Inv ∧ (fn (vf5 3).w 5).crsel = 0x4000 + 3 ∧ CounterIs (vf5 3) (0x4000 + 3) (part (vf5 3).w 3).denied ∧
    Takes (vf5 3) 5 ∧ 2 ≤ (vf5 3).w.hub.boot ∧ (fn (vf5 3).w 6).bound = false ∧ MayRead (vf5 3) 3 (0x4000 + 3) ∧ ¬ MayRead (vf5 0) 0 (0x4000 + 3) ∧
    counterPart (vf5 0).w 0x4003 = some 3 ∧ counterPart (vf5 0).w 0x2FFF = none :=
  ⟨fned_inv _ _, by decide +kernel, counter_of _ 3 (by decide), by unfold Takes; decide +kernel, by decide +kernel, by decide +kernel, .inl rfl, by unfold MayRead; decide +kernel, by decide +kernel,
    by decide +kernel⟩

/-- A request is pending or not; vector 31 waits for its unmasking. -/
theorem witness_FunctionRegisters : ∀ on ∈ [true, false], let s := fned 5 fun f => { f with bound := true, pend := on, pba := [31] }
    s.Inv ∧ Takes s 5 ∧ (fn s.w 5).pend = on ∧ 31 ∈ (fn s.w 5).pba ∧ 30 ∉ (fn s.w 5).pba ∧ tGet? (fn s.w 5).openIv 31 = none ∧ ¬ Takes s 6 := by
  intro on h
  refine ⟨fned_inv _ _, ?_⟩
  unfold Takes
  simp only [List.mem_cons, List.not_mem_nil, or_false] at h
  rcases h with rfl | rfl <;> decide +kernel

theorem witness_FunctionRegisters_mailbox : ∀ code ∈ [1, 0x0E, 0, 0x0F], bvF (BitVec.ofNat 512 code) 0 8 = code := by decide +kernel

/-- A launch of VF 5 with all its consorts to come waits. -/
def entered : State :=
  atW fun w => { updPart (updFn w 5 fun f => { f with bound := true }) 0 (fun p => { p with fq := { p.fq with told11 := true, told16 := true } }) with
    consorts := [], courses := [], launches := [(0, { launch with fn := some 5, port := some 2, next := 0 })] }

theorem witness_FunctionReset : entered.Inv ∧ (∃ l, entered.w.launches = [(0, l)] ∧ l.fn = some 5 ∧ l.port.isSome = true ∧
    l.waiting.isSome = true ∧ l.ended + l.back.length + (l.hdr.ccount - l.next) = l.hdr.ccount) ∧ entered.w.consorts = [] ∧
    (fqShut (part entered.w 0) = true → (fqOf entered 0).told11 = true) ∧ (fqShut (part entered.w 0) = false → (fqOf entered 0).told16 = true) ∧
    (∀ y ∈ demo.w.launches, y.2.fn ≠ some 5 ∨ y.2.port = none) :=
  ⟨⟨demo_inv.mem, rfl⟩, ⟨_, rfl, rfl, rfl, by decide +kernel, by decide +kernel⟩, rfl, by decide +kernel⟩

/-- Before each of the nine steps of bring-up, as it goes on and as steps 1 to 3 fail. -/
def booting (n : Nat) : State := { State.reset with w := { State.reset.w with hub := { State.reset.w.hub with boot := n } } }

theorem witness_BringUpSteps : (∀ n, n < 9 → (booting n).Inv ∧ (booting n).w.hub.failed = false ∧ (booting n).w.hub.boot = n) ∧
    9 ≤ demo.w.hub.boot ∧ (booting 7).w.ports = [] ∧
    (∃ b : BringUp, b.secureBoot = true ∧ b.hubStart = true ∧ b.meshTrain = true ∧ 9 ∈ b.badTiles ∧ 383 ∈ b.badChannels ∧
      tileOfSlice (383 / 16) ∉ (booting 6).w.hub.reported ∧ ((b.ports.find? fun y => y.1 == 11).map (·.2)).getD 0 = 3) ∧
    ∃ b : BringUp, b.secureBoot = false ∧ b.hubStart = false ∧ b.meshTrain = false :=
  ⟨fun _ _ => ⟨⟨reset_inv.mem, rfl⟩, rfl, rfl⟩, by decide +kernel, rfl, ⟨⟨true, true, true, [9], [383], [(11, 3)], 0⟩, by decide +kernel⟩,
    ⟨false, false, false, [], [], [], 0⟩, by decide⟩

/-- Reads without a link, of VF 6, which is unbound, and of VF 5 with a port bound to ASID 7. -/
theorem witness_BarReads : let s := fned 5 fun f => { f with bound := true, part := 3, ports := [(2, ⟨7, 1, 3, true⟩)] }
    State.reset.w.hub.boot < 2 ∧ (s.Inv ∧ 2 ≤ s.w.hub.boot ∧ s.w.hub.boot < 16 ∧ s.w.hub.reason < 2 ^ 56 ∧ (fn s.w 5).part < 16) ∧
    (fn s.w 6).bound = false ∧ (Takes s 5 ∧ (∀ x ∈ (part s.w 3).veract, x < 256) ∧
      (∃ b, tGet? (fn s.w 5).ports 2 = some b ∧ b.asid < 2 ^ 16 ∧ b.world < 16 ∧ b.prio < 8) ∧ tGet? (fn s.w 5).ports 3 = none) :=
  ⟨by decide, ⟨fned_inv _ _, by decide +kernel⟩, by decide +kernel,
    by unfold Takes; decide +kernel, by decide +kernel, ⟨_, rfl, by decide, by decide, by decide⟩, by decide +kernel⟩

theorem witness_TrustedInterfaces : demo.Inv ∧ (fn demo.w 5).tdisp = 0 ∧ (fn (fned 5 fun f => { f with tdisp := 1 }).w 5).tdisp = 1 ∧
    (∃ s, State.Inv s ∧ s.w.sec.spdmOk = true) ∧ demo.w.sec.spdmOk = false :=
  ⟨demo_inv, by decide +kernel, by decide +kernel, ⟨atW fun w => { w with sec := { w.sec with spdmOk := true } }, ⟨demo_inv.mem, rfl⟩, rfl⟩,
    by decide +kernel⟩

end Sys2Proof.Tests
end

