-- ==== Sys2Proof/Tests/WitnessHub.lean ====
section
/-! SUPPORT. Witnesses: states that meet the hypotheses of the statements about hub firmware, its requests, decoding and steps. -/

namespace Sys2Proof.Tests

set_option Elab.async false

open Sys2Proof Sys2Proof.Machine Sys2Proof.Claims

/-! ## Hub services -/

/-- The blocks of the context space where the frames of the courses 0 and 1 begin their control areas. -/
def frameAt (cid : Nat) : Nat := 0x10180000 + 0x3000 * cid
def frameTags : Tbl Tag := (List.range 16).map fun i => ((frameAt 1 + 0x2000) / 16 + i, ⟨1, 0, 0, frameAt 1 + 0x2000 + 16 * i⟩)

/-- Pages of the request block, its data, the ring and the frame, cached in the TLBs. -/
def pages (w : W) : List TlbEnt :=
  [0x700000, 0x701000, 0x800000, frameAt 1, frameAt 1 + 0x2000].filterMap fun va => walkEntry demo.env w 0 0 va true

/-- A course of the handler consort: parked for its entry, its block named by S2 and S3. -/
def asker (va : Nat) : Course :=
  { putS (putS course 2 (BitVec.ofNat 32 va)) 3 0 with k := { course.k with at_ := .parked, join := 1, await := .faults } }

/-- The course served: parked, or as f makes it. -/
def served (f : Course → Course) : Course :=
  f { course with id := { course.id with cid := 1, frame := frameAt 1 }, k := { course.k with at_ := .parked, join := 1, await := .faults } }

/-- The entry of TRAP v. -/
def trapOf (v : Nat) : Pending := ⟨⟨0x08, 0, 0, 1, 0, 0, 0, 0, 0, 0x100000, 0, v⟩, [.whole 0], false⟩

/-- Partition 0 registered the launch as its handler consort; course 0 asks at va by TRAP v with block q, course 1 is served. -/
def hubS (va v q : Nat) (f : Course → Course) : State :=
  { demo with
    mem := poke (poke demo.mem 0x700000 32 q) 0x701000 4 0x04030201
    w := updPart { demo.w with
        hub := reached.w.hub, tlb := pages demo.w, courses := [(0, asker va), (1, served f)], sec := { demo.w.sec with cipher := frameTags } } 0 fun p =>
      { p with
        handler := some (BitVec.ofNat 64 launch.hdr.compseq)
        fq := { p.fq with base := 0x800000, size := 4, tail := 1, pending := [trapOf v] } } }

theorem hubS_inv (va v q : Nat) (f : Course → Course) (h : (hubS va v q f).mem.wf = true) : (hubS va v q f).Inv := ⟨h, rfl⟩

/-- The checks of `Spot`, computed. -/
def spotB (s : State) (p wd asid va n : Nat) (nd : Need) (sl l pa : Nat) : Bool :=
  (tlbHit s.w p asid va).isSome && decide (va % 4096 + n ≤ 4096) &&
    (match ownPlaces s.w 72 p (fun a => translateOwn s.env s.w p wd asid a nd true) va n with
      | .ok y => y == [(.dev sl l pa, va, n)]
      | _ => false) && !scrubbing s.w sl pa && (List.range n).all fun i => !isPois s.w (keyDev sl l + i)

/-- The blocks of a place bear the tags that f gives, computed. -/
def tagsB (s : State) (f : Nat → Option Tag) (sl l n : Nat) : Bool :=
  (List.range n).all fun i => tGet? s.w.sec.cipher (keyDev sl (l + i) / 16) == f i

theorem near_spot {s : State} {p wd asid va n : Nat} {nd : Need} {sl l pa : Nat} (h : spotB s p wd asid va n nd sl l pa = true) :
    Near72 s p wd asid va n nd true sl l pa := by
  simp only [spotB, Bool.and_eq_true, List.all_eq_true, Bool.not_eq_true', decide_eq_true_eq, List.mem_range] at h
  obtain ⟨⟨⟨⟨h1, h2⟩, h3⟩, h5⟩, h6⟩ := h
  refine ⟨h1, h2, ?_, h5, h6⟩
  split at h3
  · next y e => rw [e, beq_iff_eq.mp h3]
  · cases h3

theorem tags_of {s : State} {f : Nat → Option Tag} {sl l n : Nat} (h : tagsB s f sl l n = true) (i : Nat) (hi : i < n) :
    tGet? s.w.sec.cipher (keyDev sl (l + i) / 16) = f i := by
  simp only [tagsB, List.all_eq_true, beq_iff_eq, List.mem_range] at h
  exact h i hi

theorem spot_of {s : State} {p wd asid va n : Nat} {nd : Need} {sl l pa : Nat}
    (h : (spotB s p wd asid va n nd sl l pa && tagsB s (fun i => tagOf s.w wd (pa + i)) sl l n) = true) :
    Spot s p wd asid va n nd true sl l pa := by
  rw [Bool.and_eq_true] at h
  refine ⟨near_spot h.1, ?_⟩
  rintro y n' i ⟨va', hm⟩ hi
  obtain ⟨rfl, -, rfl⟩ := by simpa using hm
  exact tags_of h.2 i hi

/-- The checks of `FrameSpot`, computed. -/
def frameB (s : State) (y : Course) (off n : Nat) (nd : Need) (sl l pa : Nat) : Bool :=
  (tlbHit s.w y.id.part (part s.w y.id.part).cAsid (y.id.frame + off)).isSome && decide ((y.id.frame + off) % 4096 + n ≤ 4096) &&
    (match ctxPlaces s.env s.w 72 y.id.part (slotWorld y 0) (y.id.frame + off) n nd with
      | .ok x => x == [(.dev sl l pa, y.id.frame + off, n)]
      | _ => false) && !scrubbing s.w sl pa && ((List.range n).all fun i => !isPois s.w (keyDev sl l + i)) &&
    tagsB s (fun i => ctxTag s.w (slotWorld y 0) (y.id.frame + off + i)) sl l n

theorem frame_of {s : State} {y : Course} {off n : Nat} {nd : Need} {sl l pa : Nat} (h : frameB s y off n nd sl l pa = true) :
    FrameSpot s y off n nd sl l pa := by
  simp only [frameB, Bool.and_eq_true, List.all_eq_true, Bool.not_eq_true', decide_eq_true_eq, List.mem_range] at h
  obtain ⟨⟨⟨⟨⟨hit, page⟩, place⟩, sound⟩, clean⟩, tag⟩ := h
  refine ⟨hit, page, ?_, sound, clean, ?_⟩
  · split at place
    · next x e => rw [e, beq_iff_eq.mp place]
    · cases place
  · intro z va n' i hm hi
    obtain ⟨rfl, rfl, rfl⟩ := by simpa using hm
    exact tags_of tag i hi

/-- The checks of `EntryOf` for entry 0, computed. -/
def entryB (s : State) (c : Course) (x : Pending) : Bool :=
  (course? s.w 0 == some c) && c.id.cid == 0 && ((allEntries s.w c.id.part)[0]? == some x) && x.e.cid == 0 && (x.who == [.whole 0]) &&
    !x.served && c.k.at_ == .parked

theorem entry_of {s : State} {c : Course} {x : Pending} (h : entryB s c x = true) : EntryOf s 0 c 0 x := by
  constructor <;> simp_all [entryB]

theorem serves_of {s : State} {c : Course} {x : Pending}
    (h : (entryB s c x && (allEntries s.w c.id.part).findIdx? (fun y => y.e.cid == 0 && isService s.w y) == some 0) = true) :
    Serves s 0 c 0 x := by
  simp only [Bool.and_eq_true, beq_iff_eq] at h
  exact ⟨entry_of h.1, h.2⟩

/-- The mark of entry 0 in its ring. -/
theorem marks_of {s : State} (h : (decide (0 < (fqOf s 0).pending.length) && (fqOf s 0).size != 0 && (spotB s 0 0 (part s.w 0).rAsid
    ((fqOf s 0).base.toNat + 32 * (((fqOf s 0).head.toNat + 0) % (fqOf s 0).size.toNat)) 1 .write 0 0x800000 0x800000 &&
      tagsB s (fun i => tagOf s.w 0 (0x800000 + i)) 0 0x800000 1)) = true) :
    Marks s 0 0 [0x800000] := by
  rw [Bool.and_eq_true, Bool.and_eq_true, decide_eq_true_eq, bne_iff_ne] at h
  exact .inr ⟨h.1.1, 0, 0x800000, 0x800000, spot_of h.2, h.1.2, by decide⟩

theorem witness_ServicesComplete : demo.Inv := demo_inv

/-- TRAP 7 of the handler consort requests no service. -/
theorem witness_HandlerEntries : ∃ s c x ms, State.Inv s ∧ (allEntries s.w 0)[0]? = some x ∧ EntryOf s 0 c 0 x ∧ c.id.part = 0 ∧
    isHandler s.w c = true ∧ isService s.w x = false ∧ Marks s 0 0 ms ∧ c.k.join ≤ 1 ∧ Free s c :=
  ⟨hubS 0x700000 7 0 id, asker 0x700000, trapOf 7, [0x800000], hubS_inv _ _ _ _ (by decide +kernel), by decide +kernel, entry_of (by decide +kernel),
    by decide +kernel, by decide +kernel, by decide +kernel, marks_of (by decide +kernel), by decide +kernel, ⟨by decide +kernel, by decide +kernel⟩⟩

theorem witness_HandlerEntries_other : (allEntries oneQ.w 0)[0]? = some (fault0 0 0x5000) ∧ handlerCourse oneQ.w (fault0 0 0x5000) = none := by
  decide +kernel

/-- A request block (R327). -/
def blockOf (kind cid off len dest : Nat) : Nat := kind + cid * 2 ^ 32 + off * 2 ^ 64 + len * 2 ^ 96 + dest * 2 ^ 128

/-- The checks of `BlockAt`, computed. -/
def blockB (s : State) (c : Course) (q : SvcReq) : Bool :=
  let tags := tagsB s (fun i => tagOf s.w (slotWorld c 0) (0x700000 + i)) 0 0x700000 32
  getS2 c 2 % 32 == 0 && c.id.priv && (spotB s c.id.part (slotWorld c 0) (slotAsid c 0) (getS2 c 2) 32 .read 0 0x700000 0x700000 && tags) &&
    (spotB s c.id.part (slotWorld c 0) (slotAsid c 0) (getS2 c 2) 32 .write 0 0x700000 0x700000 && tags) &&
    parseSvc (bytesAt s.mem 0 0x700000 32) == q

theorem block_of {s : State} {c : Course} {q : SvcReq} (h : blockB s c q = true) : BlockAt s c q 0 0x700000 0x700000 := by
  simp only [blockB] at h
  rw [Bool.and_eq_true, Bool.and_eq_true, Bool.and_eq_true, Bool.and_eq_true, beq_iff_eq, beq_iff_eq] at h
  obtain ⟨⟨⟨⟨h1, hp⟩, h2⟩, h3⟩, h4⟩ := h
  refine ⟨h1, ?_, ?_, h4⟩ <;> rw [hp] <;> exact spot_of ‹_›

/-- A request about course 1. -/
def req (kind off len dest : Nat) : SvcReq := ⟨kind, 0, 1, off, len, dest, false⟩

/-- A transfer of 4 bytes to the data page: the frame's V registers, the scratch window, the save area. -/
def moveS (kind : Nat) : State := hubS 0x700000 0x100 (blockOf kind 1 0 4 0x701000) id

theorem moveS_inv (kind : Nat) (h : (moveS kind).mem.wf = true) : (moveS kind).Inv := hubS_inv _ _ _ _ h

theorem marks_move : Marks (moveS 0) 0 0 [0x800000] ∧ Marks (moveS 1) 0 0 [0x800000] :=
  ⟨marks_of (by decide +kernel), marks_of (by decide +kernel)⟩

theorem keys_move : (keysAt 0 0x701000 4 ++ keysAt 0 0x700000 32 ++ [0x800000]).Nodup := by decide +kernel

theorem data_move : Spot (moveS 0) 0 0 0 (0x701000 % 2 ^ 64) 4 .write true 0 0x701000 0x701000 ∧
    Spot (moveS 1) 0 0 0 (0x701000 % 2 ^ 64) 4 .write true 0 0x701000 0x701000 :=
  ⟨spot_of (by decide +kernel), spot_of (by decide +kernel)⟩

theorem asker_slot : slotWorld (asker 0x700000) 0 = 0 ∧ slotAsid (asker 0x700000) 0 = 0 ∧ (asker 0x700000).id.priv = true ∧
    (asker 0x700000).id.part = 0 := by decide +kernel

/-- The scratch bytes of course 1's consort. -/
theorem witness_HubTransfers : ∃ i kinds q b, serviceOf i = some (0, kinds) ∧ (moveS 1).Inv ∧ Serves (moveS 1) 0 (asker 0x700000) 0 (trapOf 0x100) ∧
    BlockAt (moveS 1) (asker 0x700000) q 0 0x700000 0x700000 ∧ kinds q.kind = true ∧ q.kind ≤ 3 ∧ q.kind ≠ 0 ∧
    svcSource (moveS 1).env (moveS 1).w (asker 0x700000) q = .bytes (b.map fun y => (y, false)) true ∧ b ≠ [] ∧ b.length = 4 ∧ q.dest = 0x701000 :=
  ⟨.hubServiceScratch 0, _, req 1 0 4 0x701000, [0, 0, 0, 0], rfl, moveS_inv 1 (by decide +kernel), serves_of (by decide +kernel),
    block_of (by decide +kernel), by decide, by decide, by decide, by decide +kernel, by decide, rfl, rfl⟩

/-- The first bytes of course 1's frame. -/
theorem witness_HubTransfers_frame : ∃ q b, serviceOf (.hubServiceFrame 0) = some (0, fun k => k == 0 || decide (4 < k)) ∧ (moveS 0).Inv ∧
    Serves (moveS 0) 0 (asker 0x700000) 0 (trapOf 0x100) ∧ BlockAt (moveS 0) (asker 0x700000) q 0 0x700000 0x700000 ∧ q.kind = 0 ∧
    upToDate (moveS 0).env (moveS 0).w q.cid = (moveS 0).w ∧
    svcSource (moveS 0).env (moveS 0).w (asker 0x700000) q = .bytes (b.map fun y => (y, false)) true ∧ b ≠ [] ∧ b.length = 4 :=
  ⟨req 0 0 4 0x701000, [0, 0, 0, 0], rfl, moveS_inv 0 (by decide +kernel), serves_of (by decide +kernel), block_of (by decide +kernel), rfl,
    by decide +kernel, by decide +kernel, by decide, rfl⟩

/-- Course 1 in confidential world 3; resident. -/
def secret (c : Course) : Course := setSlotF c 0 16 4 3
def running (c : Course) : Course := { c with k := { c.k with at_ := .resident } }

def refusedS (q : Nat) (f : Course → Course) : State := hubS 0x700000 0x100 q f

/-- A block whose COREN is not 0; one that names no course; the same request of a course of another world and of a resident one. -/
theorem witness_HubRefusals_form : ∃ q, (refusedS (blockOf 0 1 0 4 0x701000 + 256) id).Inv ∧
    Serves (refusedS (blockOf 0 1 0 4 0x701000 + 256) id) 0 (asker 0x700000) 0 (trapOf 0x100) ∧
    Marks (refusedS (blockOf 0 1 0 4 0x701000 + 256) id) 0 0 [0x800000] ∧
    BlockAt (refusedS (blockOf 0 1 0 4 0x701000 + 256) id) (asker 0x700000) q 0 0x700000 0x700000 ∧
    EndsWith (refusedS (blockOf 0 1 0 4 0x701000 + 256) id) (asker 0x700000) q 1 :=
  ⟨⟨0, 1, 1, 0, 4, 0x701000, false⟩, hubS_inv _ _ _ _ (by decide +kernel), serves_of (by decide +kernel), marks_of (by decide +kernel),
    block_of (by decide +kernel), .inl ⟨rfl, by unfold FormOf; decide⟩⟩

theorem witness_HubRefusals_course : ∃ q, (refusedS (blockOf 0 9 0 4 0x701000) id).Inv ∧
    BlockAt (refusedS (blockOf 0 9 0 4 0x701000) id) (asker 0x700000) q 0 0x700000 0x700000 ∧
    EndsWith (refusedS (blockOf 0 9 0 4 0x701000) id) (asker 0x700000) q 2 :=
  ⟨⟨0, 0, 9, 0, 4, 0x701000, false⟩, hubS_inv _ _ _ _ (by decide +kernel), block_of (by decide +kernel),
    .inr (.inl ⟨rfl, by unfold FormOf; decide, by decide +kernel⟩)⟩

theorem witness_HubRefusals_world : EndsWith (refusedS (blockOf 0 1 0 4 0x701000) secret) (asker 0x700000) (req 0 0 4 0x701000) 4 :=
  .inr (.inr ⟨by unfold FormOf; decide, served secret, by decide +kernel, by decide +kernel, .inl ⟨rfl, by decide +kernel, by decide +kernel⟩⟩)

theorem witness_HubRefusals_resident : EndsWith (refusedS (blockOf 0 1 0 4 0x701000) running) (asker 0x700000) (req 0 0 4 0x701000) 5 :=
  .inr (.inr ⟨by unfold FormOf; decide, served running, by decide +kernel, by decide +kernel, .inr ⟨rfl, .inl (by decide +kernel), by decide,
    by decide +kernel⟩⟩)

theorem witness_HubRefusals_misaligned : (hubS 0x700008 0x100 0 id).Inv ∧ Serves (hubS 0x700008 0x100 0 id) 0 (asker 0x700008) 0 (trapOf 0x100) ∧
    Marks (hubS 0x700008 0x100 0 id) 0 0 [0x800000] ∧ getS2 (asker 0x700008) 2 % 32 ≠ 0 :=
  ⟨hubS_inv _ _ _ _ (by decide +kernel), serves_of (by decide +kernel), marks_of (by decide +kernel), by decide +kernel⟩

/-- Four bytes into S0 of course 1. -/
def intoS : State := hubS 0x700000 0x100 (blockOf 4 1 0x2000 4 0x701000) id

theorem witness_HubFrameWrites : ∃ q y, intoS.Inv ∧ Serves intoS 0 (asker 0x700000) 0 (trapOf 0x100) ∧
    BlockAt intoS (asker 0x700000) q 0 0x700000 0x700000 ∧ q.kind = 4 ∧ FormOf q ∧ courseIn intoS.w 0 q.cid = some y ∧ y.id.cid = q.cid ∧
    q.cid ≠ 0 ∧ consort? intoS.w y.id.consort = some consort ∧ slotWorld y 0 = 0 ∧ y.k.at_ = .parked ∧ y.k.newer = [] ∧ 0x2000 ≤ q.off ∧
    q.off + q.len ≤ 0x2100 ∧ 0 < q.len ∧ q.dest = 0x701000 ∧ y.id.frame = frameAt 1 ∧ Marks intoS 0 0 [0x800000] :=
  ⟨req 4 0x2000 4 0x701000, served id, hubS_inv _ _ _ _ (by decide +kernel), serves_of (by decide +kernel), block_of (by decide +kernel), rfl,
    by unfold FormOf; decide, by decide +kernel, by decide +kernel, by decide, by decide +kernel, by decide +kernel, by decide +kernel,
    by decide +kernel, by decide, by decide, by decide, rfl, by decide +kernel, marks_of (by decide +kernel)⟩

theorem witness_HubFrameWrites_places : Spot intoS 0 0 0 (0x701000 % 2 ^ 64) 4 .read true 0 0x701000 0x701000 ∧
    FrameSpot intoS (served id) 0x2000 4 .write 0 (frameAt 1 + 0x2000) (frameAt 1 + 0x2000) ∧
    (keysAt 0 0x701000 4 ++ keysAt 0 (frameAt 1 + 0x2000) 4 ++ keysAt 0 0x700000 32 ++ [0x800000]).Nodup :=
  ⟨spot_of (by decide +kernel), frame_of (by decide +kernel), by decide +kernel⟩

/-! ## The context port, signals and dispensers -/

theorem witness_ContextPort : intoS.Inv ∧ (course? intoS.w 1 = some (served id) ∧ (served id).id.cid = 1 ∧ (served id).k.at_ ≠ .resident ∧
    slotWorld (served id) 0 = 0 ∧ upToDate intoS.env intoS.w 1 = intoS.w ∧ (served id).k.newer = [] ∧ isZero (served id) 63 = true) ∧
    FrameSpot intoS (served id) 0x2000 4 .read 0 (frameAt 1 + 0x2000) (frameAt 1 + 0x2000) ∧
    FrameSpot intoS (served id) 0x2000 4 .write 0 (frameAt 1 + 0x2000) (frameAt 1 + 0x2000) :=
  ⟨hubS_inv _ _ _ _ (by decide +kernel), by decide +kernel, frame_of (by decide +kernel), frame_of (by decide +kernel)⟩

theorem witness_ContextPort_refused : (served running).k.at_ = .resident ∧ slotWorld (served secret) 0 = 3 := by decide +kernel

/-- A signal to counter 1 of the course's consort on its first core; to counter 2, that it does not have. -/
def sigOf (n : Nat) : BitVec 64 := BitVec.ofNat 64 (n * 2 ^ 32)
def fullTl : State := atW fun w => updTlc w 0 1 fun t => { t with issued := 256 }

/-- The same signal waits in hub core 3 for the full counter. -/
def waitsTl : State := { fullTl with w := { fullTl.w with hub := { fullTl.w.hub with signals := [(3, sigOf 1)] } } }

theorem witness_HubSignals : demo.Inv ∧ Keyed demo ∧ (demo.w.hub.signals = [] ∧ bitsAt (sigOf 1).toNat 44 20 = 0 ∧ bitsAt (sigOf 1).toNat 40 4 ∈ [0]) ∧
    (courseIn demo.w 0 (bitsAt (sigOf 1).toNat 0 32) = some course ∧ consort? demo.w course.id.consort = some consort ∧
    bitsAt (sigOf 1).toNat 38 2 < consort.cores.length ∧ bitsAt (sigOf 1).toNat 32 6 < consort.tlCnt) ∧
    ((tlc demo.w 0 1).issued = (tlc demo.w 0 1).done ∧ (tlc demo.w 0 1).marked = [] ∧ pendingSigs demo.w 0 1 = []) ∧
    (pcnOf demo.w (nth consort.cores 0 0) = 0 ∧ consort.tlFirst = 0 ∧ consort.tlCnt ≤ bitsAt (sigOf 2).toNat 32 6 ∧
    256 ≤ ((tlc fullTl.w 0 1).issued - (tlc fullTl.w 0 1).done).toNat) ∧ (waitsTl.Inv ∧ waitsTl.w.hub.signals = [(3, sigOf 1)]) :=
  ⟨demo_inv, demo_keyed, by decide +kernel, by decide +kernel, by decide +kernel, by decide +kernel, ⟨demo_inv.mem, rfl⟩, rfl⟩

/-- The course sleeps on dispenser 255. -/
def sleeping : State := atW fun w => { w with courses := [(0, { course with k := { course.k with await := .ticket 255 3 } })] }

theorem witness_DispenserResets : (part demo.w 0).slices.getLsbD (255 / 256) = true ∧ sliceMuted demo.w (255 / 256) = false ∧
    (part demo.w 0).slices.getLsbD (256 / 256) = false ∧ (∀ y ∈ demo.w.courses, ∀ n, y.2.k.await ≠ .ticket 255 n) ∧
    sleeping.Inv ∧ ∃ y ∈ sleeping.w.courses, ∃ n, y.2.k.await = .ticket 255 n := by
  refine ⟨by decide +kernel, by decide +kernel, by decide +kernel, ?_, ⟨demo_inv.mem, rfl⟩, _, List.mem_singleton.mpr rfl, 3, rfl⟩
  intro y hy n
  have e : demo.w.courses.all (fun y => y.2.k.await == .nothing) = true := by decide +kernel
  have := List.all_eq_true.mp e y hy
  rw [beq_iff_eq.mp this]
  exact nofun

end Sys2Proof.Tests
end

