-- ==== Sys2Proof/Tests/WitnessLane.lean ====
section
/-! SUPPORT. Witnesses: states and operands that meet the hypotheses of the statements about lane arithmetic. -/

namespace Sys2Proof.Tests

set_option Elab.async false

open Sys2Proof Sys2Proof.Machine Sys2Proof.Claims

/-! ## Lane results: every lane executes a three-register form, a form with a switch marker, a form that no lane executes -/

theorem witness_LaneArithmetic : ∃ i row, arithRow i = some row ∧ Issues demo demoX ∧ Clear demo demoX row.uses (row.reads demoX) ∧
    Quiet demo demoX row.h.sw :=
  ⟨.iadd all 3 1 2 .wrap, _, rfl, demo_issues, clear_of (by decide +kernel), demo_quiet _⟩

theorem witness_LaneBits : ∃ i row, bitsRow i = some row ∧ Issues demo demoX ∧ Clear demo demoX row.uses (row.reads demoX) ∧
    Quiet demo demoX row.h.sw :=
  ⟨.shli ⟨true, 7⟩ 63 63 31, _, rfl, demo_issues, clear_of (by decide +kernel), demo_quiet _⟩

theorem witness_LaneMoves : ∃ i row, moveRow i = some row ∧ Issues demo demoX ∧ Clear demo demoX row.uses (row.reads demoX) ∧
    Quiet demo demoX row.h.sw :=
  ⟨.movs off 3 63, _, rfl, demo_issues, clear_of (by decide +kernel), demo_quiet _⟩

theorem witness_LanePredicates : ∃ i row, predRow i = some row ∧ Issues demoU demoUX ∧ Clear demoU demoUX row.uses (row.reads demoUX) ∧
    Quiet demoU demoUX row.h.sw :=
  ⟨.fcmp all 1 .lt 2 3, _, rfl, demoU_issues, clear_of (by decide +kernel), demoU_quiet _⟩

/-- P7 as the destination. -/
theorem witness_LanePredicates_p7 : ∃ row, predRow (.psetv all 7 2) = some row ∧ row.d.val = 7 ∧ Issues demo demoX ∧
    Clear demo demoX row.uses (row.reads demoX) ∧ Quiet demo demoX row.h.sw :=
  ⟨_, rfl, rfl, demo_issues, clear_of (by decide +kernel), demo_quiet _⟩

theorem witness_LaneFloat : ∃ i row, fpRow i = some row ∧ Issues demo demoX ∧ Clear demo demoX row.uses (row.reads demoX) ∧
    Quiet demo demoX row.h.sw :=
  ⟨.fmac all 3 1 2 .rne, _, rfl, demo_issues, clear_of (by decide +kernel), demo_quiet _⟩

/-! ## Values -/

theorem witness_RoundingIsCorrect : ∃ f m, (f = fp32 ∨ f = fp16 ∨ f = bf16 ∨ f = e5m2) ∧ 0 < m := ⟨bf16, 1, by simp, by decide⟩

theorem witness_FloatArithmetic : ∃ f, f = fp32 ∨ f = fp16 := ⟨fp16, by simp⟩

theorem witness_FloatConversion : ∃ f, f = fp16 ∨ f = bf16 ∨ f = e5m2 ∨ f = e4m3 := ⟨e4m3, by simp⟩

theorem one_f32 : fp32.decode 0x3F800000 = .fin false 0x800000 (-23) := by decide
theorem two_f32 : fp32.decode 0x40000000 = .fin false 0x800000 (-22) := by decide
theorem zero_f32 : fp32.decode 0 = .fin false 0 (-149) := by decide
theorem negz_f32 : fp32.decode 0x80000000 = .fin true 0 (-149) := by decide

theorem one_two : Less (fp32.decode 0x3F800000) (fp32.decode 0x40000000) := by
  rw [one_f32, two_f32]; norm_num [Less, ratOf]

theorem zeros_level : Level (fp32.decode 0x80000000) (fp32.decode 0) := by
  rw [zero_f32, negz_f32]; norm_num [Level, Less, ratOf, Fv.isNan]

/-- Numbers below and above, zeros of both signs, a NaN on either side and on both, numbers that are level. -/
theorem witness_FloatSelection :
    (Less (fp32.decode 0x3F800000) (fp32.decode 0x40000000)) ∧
    (Level (fp32.decode 0x80000000) (fp32.decode 0) ∧ (fp32.decode 0x80000000).neg = true ∧ (fp32.decode 0).neg = false) ∧
    ((fp32.decode 0x7FC00000).isNan = true ∧ (fp32.decode 0x7F800001).isNan = true ∧ (fp32.decode 0x7F800001).isSnan = true ∧
      (fp32.decode 0xFF800000).isNan = false) ∧
    (¬ Less (fp32.decode 0x3F800000) (fp32.decode 0x3F800000) ∧ Level (fp32.decode 0x3F800000) (fp32.decode 0x3F800000)) := by
  refine ⟨one_two, ⟨zeros_level, by decide, by decide⟩, by decide, ?_⟩
  rw [one_f32]; norm_num [Less, Level, ratOf, Fv.isNan]

/-- Operands of the clauses of LOG2 and EXP2 that meet: a power of two, one past the largest result of EXP2. -/
theorem witness_LogarithmAndPower : ratOf (fp32.decode 0x40000000) = 2 ∧ (128 : ℚ) ≤ ratOf (fp32.decode 0x43000000) := by
  have h : fp32.decode 0x43000000 = .fin false 0x800000 (-16) := by decide
  rw [two_f32, h]
  norm_num [ratOf]

theorem witness_ConversionForms : 0xFFFFFFFF < 2 ^ 32 := by decide

/-- Codes of every clause: the NaN 0x20, zero, the ends of the magnitudes; a value and a block scale at their bounds. -/
theorem witness_L6Elements : (0x20 < 64 ∧ (0 < 64 ∧ 0 % 32 = 0) ∧ (63 < 64 ∧ 63 % 32 ≠ 0) ∧ (1 < 64 ∧ 1 % 32 ≠ 0)) ∧
    (0xFFFFFFFF < 2 ^ 32 ∧ 255 < 256 ∧ 0 < 256) ∧ (∃ s m x, fp32.decode 0x3F800000 = .fin s m x) := by
  exact ⟨by decide, by decide, _, _, _, one_f32⟩

/-- A magnitude of 480 exceeds 448 in every mode, and 449 upward. -/
theorem witness_NarrowFloats :
    (∀ rm, rm ≠ .ru → Exceeds448 (ratOf (.fin false 480 0)) (some rm) 0) ∧ Exceeds448 (ratOf (.fin false 449 0)) (some .ru) 0 ∧
    (Exceeds448 (ratOf (.fin true 449 0)) (some .rd) 0) ∧ (0 < 2 ^ 32 ∧ Exceeds448 (ratOf (.fin true 449 0)) none 0) := by
  refine ⟨fun rm h => ?_, ?_, ?_, by decide, ?_⟩
  · cases rm <;> norm_num [Exceeds448, ratOf] at *
  all_goals norm_num [Exceeds448, ratOf]

end Sys2Proof.Tests
end

