-- ==== Sys2Proof/Tests/WitnessMem.lean ====
section
/-! SUPPORT. Witnesses: states and operands that meet the hypotheses of the statements about pairs, deferred results and lane accesses of
memory. -/

namespace Sys2Proof.Tests

set_option Elab.async false

open Sys2Proof Sys2Proof.Machine Sys2Proof.Claims

theorem witness_LanePairs : ∃ i row, i.wf = true ∧ pairRow i = some row ∧ Issues demo demoX ∧
    Clear demo demoX row.uses (row.reads demoX) ∧ Quiet demo demoX row.h.sw :=
  ⟨.lea all 62 2 3 3, _, by decide, rfl, demo_issues, clear_of (by decide +kernel), demo_quiet _⟩

theorem witness_LaneLiteral : ∃ h d, Issues demo demoX ∧
    Clear demo demoX (laneUses h { Uses.none with d := [(d : R64).val] }) (readersAll demoX.c h demoX.x) ∧ Quiet demo demoX h.sw :=
  ⟨all, 63, demo_issues, clear_of (by decide +kernel), demo_quiet _⟩

/-- A result on its way, and one that a switch marker lands at once. -/
theorem witness_LaneDeferred : ∃ i row, i.wf = true ∧ defRow i = some row ∧ row.h.sw = false ∧ row.on demoX ≠ 0 ∧ Issues demo demoX ∧
    Clear demo demoX row.uses (row.reads demoX) ∧ Quiet demo demoX row.h.sw :=
  ⟨.scanl all 3 1 .fadd true .rne, _, by decide, rfl, rfl, by decide +kernel, demo_issues, clear_of (by decide +kernel), demo_quiet _⟩

theorem witness_LaneDeferred_marker : ∃ i row, i.wf = true ∧ defRow i = some row ∧ row.h.sw = true ∧ Issues demo demoX ∧
    Clear demo demoX row.uses (row.reads demoX) ∧ Quiet demo demoX row.h.sw :=
  ⟨.shfl ⟨true, 7⟩ 3 1 2 .rank, _, by decide, rfl, rfl, demo_issues, clear_of (by decide +kernel), demo_quiet _⟩

/-! ## Global memory -/

/-- The places of a lane's access, as computed. -/
def placesOf (s : State) (x : Sel) (row : MemRow) (k : Nat) : List (Loc × Nat × Nat) :=
  match laneAccess s.env s.w x.c (row.g x.c) k with
  | .ok ls => ls
  | _ => []

/-- The checks of `Performs`, computed, with a further one of a lane's places. -/
def performsB (s : State) (x : Sel) (row : MemRow) (q : Nat → List (Loc × Nat × Nat) → Bool) : Bool :=
  x.c.k.tmo.isNone && lanesB (row.on x) fun k => ((row.g x.c).seg k).isNone && decide ((row.g x.c).va k % (row.g x.c).size = 0) &&
    (match laneAccess s.env s.w x.c (row.g x.c) k with
      | .ok ls => q k ls
      | _ => false)

theorem performs_of {s : State} {x : Sel} {row : MemRow} {q : Nat → List (Loc × Nat × Nat) → Bool} (h : performsB s x row q = true) :
    Performs s x row (placesOf s x row) ∧ ∀ k, mHas (row.on x) k = true → q k (placesOf s x row k) = true := by
  simp only [performsB, Bool.and_eq_true, Option.isNone_iff_eq_none] at h
  obtain ⟨ht, hl⟩ := h
  refine ⟨⟨lanes_of (fun k h => ?_) hl, fun _ => lanes_of (fun k h => ?_) hl, lanes_of (fun k h => ?_) hl, ht⟩, lanes_of (fun k h => ?_) hl⟩
  all_goals simp only [Bool.and_eq_true, Option.isNone_iff_eq_none, decide_eq_true_eq] at h
  · exact h.1.1
  · exact h.1.2
  all_goals
    have := h.2
    unfold placesOf
    split at this
    · simp_all
    · simp at this

/-- The blocks of the places bear no encipherment, and world 0 writes them under none. -/
def plainB (w : W) (x : Sel) (k : Nat) (ls : List (Loc × Nat × Nat)) : Bool :=
  decide (slotWorld x.c (own x.c k) = 0) && w.sec.cipher.isEmpty && decide (ls.length < 32)

theorem same_tag {w : W} {x : Sel} {k : Nat} {ls : List (Loc × Nat × Nat)} (h : plainB w x k ls = true) :
    SameTag w (slotWorld x.c (own x.c k)) ls := by
  simp only [plainB, Bool.and_eq_true, decide_eq_true_eq, List.isEmpty_iff] at h
  intro l n i _ _
  rw [h.1.1, h.1.2]
  split
  · simp [tagOf, tGet?]
  · trivial

theorem witness_LaneLoads : ∃ i row ls, i.wf = true ∧ loadRow i = some row ∧ Issues demo demoX ∧
    Clear demo demoX row.uses (row.reads demoX) ∧ Quiet demo demoX row.h.sw ∧ row.on demoX ≠ 0 ∧ Performs demo demoX row ls :=
  ⟨.ld all 4 2 .b8 63, _, _, by decide, rfl, demo_issues, clear_of (by decide +kernel), demo_quiet _, by decide +kernel,
    (performs_of (q := fun _ _ => true) (by decide +kernel)).1⟩

/-- A lane-local load, at the last byte of a segment of 64. -/
theorem witness_LaneLoads_local : ∃ i row ls, i.wf = true ∧ loadRow i = some row ∧ Issues demo demoX ∧
    Clear demo demoX row.uses (row.reads demoX) ∧ Quiet demo demoX row.h.sw ∧ row.on demoX ≠ 0 ∧ Performs demo demoX row ls :=
  ⟨.ldl all 4 2 .b1 63, _, _, by decide, rfl, demo_issues, clear_of (by decide +kernel), demo_quiet _, by decide +kernel,
    (performs_of (q := fun _ _ => true) (by decide +kernel)).1⟩

theorem witness_LaneStores : ∃ i row d z ls, i.wf = true ∧ storeRow i = some (row, d, z) ∧ Issues demo demoX ∧
    Clear demo demoX row.uses (row.reads demoX) ∧ Quiet demo demoX row.h.sw ∧ Performs demo demoX row ls ∧
    ∀ k, mHas (row.on demoX) k = true → SameTag demo.w (slotWorld demoX.c (own demoX.c k)) (ls k) :=
  have h := performs_of (q := plainB demo.w demoX) (by decide +kernel)
  ⟨.st all 4 2 .b2 1, _, _, _, _, by decide, rfl, demo_issues, clear_of (by decide +kernel), demo_quiet _, h.1,
    fun k hk => same_tag (h.2 k hk)⟩

/-- What an atomic asks of a lane's places, computed. -/
def atomB (w : W) (x : Sel) (o : AtOp) (k : Nat) (ls : List (Loc × Nat × Nat)) : Bool :=
  plainB w x k ls && decide ((placeKeys ls).length = atWidth o) && decide (placeKeys ls).Nodup && (placesStop w ls).isNone

theorem witness_GlobalAtomics : ∃ i h o ret a b ls, i.wf = true ∧ atomRow i = some (h, o, ret, a, b) ∧ ret = true ∧ Issues demo demoX ∧
    Clear demo demoX (atomMem h o ret a b).uses (readers demoX.c h demoX.x) ∧ Quiet demo demoX h.sw ∧
    Performs demo demoX (atomMem h o ret a b) ls ∧
    ∀ k, mHas (lanesOn demoX.c h demoX.x) k = true → SameTag demo.w (slotWorld demoX.c (own demoX.c k)) (ls k) ∧
      (placeKeys (ls k)).length = atWidth o ∧ (placeKeys (ls k)).Nodup ∧ placesStop demo.w (ls k) = none := by
  have h := performs_of (s := demo) (x := demoX) (row := atomMem all .cas64 true 2 4) (q := atomB demo.w demoX .cas64) (by decide +kernel)
  refine ⟨.atcas all .sy .w64 2 4 .ar, _, _, _, _, _, _, by decide, rfl, rfl, demo_issues, clear_of (by decide +kernel), demo_quiet _, h.1,
    fun k hk => ?_⟩
  have := h.2 k hk
  simp only [atomB, Bool.and_eq_true, decide_eq_true_eq, Option.isNone_iff_eq_none] at this
  exact ⟨same_tag this.1.1.1, this.1.1.2, this.1.2, this.2⟩

theorem witness_AtomicOperations : ∃ o, 2 ^ 64 - 1 < 2 ^ (8 * atWidth o) ∧ 0 < 2 ^ (8 * atWidth o) := ⟨.add64, by decide, by decide⟩

/-! ## Scratch -/

/-- The place of a lane's scratch access, as computed. -/
def scrOf (s : State) (x : Sel) (row : ScrRow) (kc : Consort) (k : Nat) : Scr :=
  (scrAccess s.w x.c kc row.n k (row.off x.c k)).getD ⟨0, 0, 0, 0, 0⟩

/-- The checks of `ScrPerforms`, computed. -/
def scrB (s : State) (x : Sel) (row : ScrRow) (kc : Consort) : Bool :=
  x.c.k.tmo.isNone && (consort? s.w x.c.id.consort == some kc) &&
    (scrAway s.w x.c.id.consort kc.world ((mLanes (row.on x)).map (scrOf s x row kc)) row.n).isNone &&
    lanesB (row.on x) fun k => (scrAccess s.w x.c kc row.n k (row.off x.c k)).isSome && decide (row.off x.c k % row.n = 0) &&
      !(scrWords (scrOf s x row kc k) row.n).any (racesWith kc x.c.id.cid row.write row.atom) &&
      decide (scrResult s.w x.c (scrOf s x row kc k) row.n row.rds = .ok [])

theorem scr_of {s : State} {x : Sel} {row : ScrRow} {kc : Consort} (h : scrB s x row kc = true) :
    ScrPerforms s x row kc (scrOf s x row kc) := by
  simp only [scrB, Bool.and_eq_true, Option.isNone_iff_eq_none, beq_iff_eq] at h
  obtain ⟨⟨⟨ht, hc⟩, ha⟩, hl⟩ := h
  refine ⟨hc, lanes_of (fun k h => ?_) hl, fun _ => lanes_of (fun k h => ?_) hl, ha, lanes_of (fun k h => ?_) hl, lanes_of (fun k h => ?_) hl, ht⟩
  all_goals simp only [Bool.and_eq_true, decide_eq_true_eq, Bool.not_eq_true', Option.isSome_iff_exists] at h
  · obtain ⟨a, e⟩ := h.1.1.1
    simp [scrOf, e]
  · exact h.1.1.2
  · exact h.1.2
  · exact h.2

/-- The last word of the 64 words that an offset reaches. -/
theorem witness_ScratchLoads : ∃ h d a z o kc acc, Instr.wf (.lds h d a z o) = true ∧ Issues demo demoX ∧
    Clear demo demoX (ldsRow h d a z o).uses ((ldsRow h d a z o).reads demoX) ∧ Quiet demo demoX h.sw ∧
    ScrPerforms demo demoX (ldsRow h d a z o) kc acc :=
  ⟨all, 3, 2, .b4, 63, consort, _, by decide, demo_issues, clear_of (by decide +kernel), demo_quiet _, scr_of (by decide +kernel)⟩

theorem witness_ScratchStores : ∃ h d a z o kc acc, Instr.wf (.sts h d a z o) = true ∧ Issues demo demoX ∧
    Clear demo demoX (stsRow h d a z o).uses ((stsRow h d a z o).reads demoX) ∧ Quiet demo demoX h.sw ∧
    ScrPerforms demo demoX (stsRow h d a z o) kc acc :=
  ⟨all, 4, 2, .b8, 1, consort, _, by decide, demo_issues, clear_of (by decide +kernel), demo_quiet _, scr_of (by decide +kernel)⟩

theorem witness_ScratchAtomics : ∃ i row o ret b kc acc, i.wf = true ∧ scrAtomRow i = some (row, o, ret, b) ∧ Issues demo demoX ∧
    Clear demo demoX row.uses (row.reads demoX) ∧ Quiet demo demoX row.h.sw ∧ ScrPerforms demo demoX row kc acc :=
  ⟨.atcass all true 2 4 .ar, _, _, _, _, consort, _, by decide, rfl, demo_issues, clear_of (by decide +kernel), demo_quiet _,
    scr_of (by decide +kernel)⟩

theorem witness_MemoryWrites : demo.Inv := demo_inv

theorem witness_ScratchBanks : ∃ p q j r r' : Nat, p < 2 ^ 21 ∧ q < 2 ^ 21 ∧ 4 ≤ j ∧ j ≤ 11 ∧ p % 2048 < 2 ^ j ∧ r < r' ∧ r' < 128 :=
  ⟨2047, 0, 11, 0, 127, by decide⟩

end Sys2Proof.Tests
end

