-- ==== Sys2Proof/Tests/WitnessRequest.lean ====
section
/-! SUPPORT. Witnesses: states that meet the hypotheses of the statements about requests through the mailbox, decoding and steps. -/

namespace Sys2Proof.Tests

set_option Elab.async false

open Sys2Proof Sys2Proof.Machine Sys2Proof.Claims

/-! ## Requests -/

/-- Function n asks by a code; the PF, or a VF of partition 0. -/
def asking (n code : Nat) (g : W → W) : State :=
  atW fun w => updFn (g w) n fun f => { f with bound := decide (n ≠ 0), pend := true, mbcopy := BitVec.ofNat 512 code }

theorem asking_of {n code : Nat} {g : W → W} (h : (decide ((fn (asking n code g).w n).pend = true) &&
    decide (bvF (fn (asking n code g).w n).mbcopy 0 8 = code) && ((asking n code g).w.wb == [])) = true) :
    (asking n code g).Inv ∧ Asked (asking n code g) n code := by
  simp only [Bool.and_eq_true, decide_eq_true_eq, beq_iff_eq] at h
  exact ⟨⟨demo_inv.mem, h.2⟩, h.1⟩

theorem asked_of_pf : ∀ code ∈ [1, 2, 3, 4, 5, 7, 8, 11, 12, 13, 14], (asking 0 code id).Inv ∧ Asked (asking 0 code id) 0 code := by
  intro code h
  refine asking_of ?_
  simp only [List.mem_cons, List.not_mem_nil, or_false] at h
  rcases h with rfl | rfl | rfl | rfl | rfl | rfl | rfl | rfl | rfl | rfl | rfl <;> decide +kernel

theorem asked_of_vf : ∀ code ∈ [6, 9, 10, 11, 14], ((asking 5 code id).Inv ∧ Asked (asking 5 code id) 5 code) ∧ OfPart (asking 5 code id) 5 := by
  intro code h
  unfold OfPart
  refine ⟨asking_of ?_, ?_⟩
  all_goals
    simp only [List.mem_cons, List.not_mem_nil, or_false] at h
    rcases h with rfl | rfl | rfl | rfl | rfl <;> decide +kernel

/-- A VF may not create a partition; the PF may not bind a tag port; nobody asked. -/
theorem witness_RequestSenders : requestOf (.createPartition 5 1 0 0 0 0 0 0) = some (5, 1) ∧
    ((asking 5 1 id).Inv ∧ Asked (asking 5 1 id) 5 1) ∧ ¬ MaySend (asking 5 1 id) (.createPartition 5 1 0 0 0 0 0 0) 5 1 ∧
    ¬ MaySend (asking 0 6 id) (.bindTagPort 0 1 0 0 0) 0 6 ∧ demo.Inv ∧ ¬ Asked demo 5 1 :=
  ⟨rfl, asking_of (by decide +kernel), by simp [MaySend], by unfold MaySend OfPart; decide, demo_inv, by unfold Asked; decide +kernel⟩

theorem row1_free (code : Nat) (h : ((tGetD (asking 0 code id).w.hub.matrix 1 0).getLsbD 31 == false &&
    (asking 0 code id).w.courses.all fun y => pcnOf (asking 0 code id).w y.2.v.hcore == 0) = true) : RowFree (asking 0 code id) 1 := by
  simp only [Bool.and_eq_true, beq_iff_eq, List.all_eq_true] at h
  refine ⟨h.1, fun y hy e => ?_⟩
  rw [h.2 y hy] at e
  exact absurd e (by decide)

theorem only_row1 {r : Nat} (h : rowsOf 2 0 r) : r = 1 := by
  rcases h with ⟨h1, h2⟩ | ⟨h1, h2, h3⟩
  · have : ∀ i : Fin 72, (2 : BitVec 72).getLsbD i.val = true → i.val = 1 := by decide +kernel
    exact this ⟨r, h1⟩ h2
  · simp at h3

/-- Core 1 for partition 1; partition 0 lives, partition 1 does not. -/
theorem witness_PartitionRequests : Asked (asking 0 1 id) 0 1 ∧ (part (asking 0 1 id).w 1).live = false ∧
    (∀ r, rowsOf 2 0 r → RowFree (asking 0 1 id) r) ∧ ¬ (part (asking 0 1 id).w 0).live = false ∧
    (Live (asking 0 2 id) 0 ∧ ¬ Live (asking 0 2 id) 1) ∧
    (Live (asking 0 3 id) 0 ∧ (∀ y ∈ (asking 0 3 id).w.launches, y.2.fn ≠ some 6) ∧ (fn (asking 0 3 id).w 6).tdisp = 0) ∧
    (Live (asking 0 4 id) 0 ∧ 8192 % 4096 = 0 ∧ 8193 % 4096 ≠ 0) := by
  unfold Live
  refine ⟨(asked_of_pf 1 (by decide)).2, by decide +kernel, fun r h => ?_, by decide +kernel⟩
  rw [only_row1 h]
  exact row1_free 1 (by decide +kernel)

/-- Whether a course stands on a core, computed. -/
def onCore (s : State) (pcn : Nat) : Bool :=
  s.w.courses.any fun y => (y.2.k.at_ == .resident || y.2.k.at_ == .halted) && (pcnOf s.w y.2.v.hcore == pcn ||
    match consort? s.w y.2.id.consort with
    | some k => k.cores.any fun l => pcnOf s.w l == pcn
    | none => false)

theorem busy_iff (s : State) (pcn : Nat) : CoreBusy s pcn ↔ onCore s pcn = true := by
  simp only [CoreBusy, onCore, List.any_eq_true, Bool.and_eq_true, Bool.or_eq_true, beq_iff_eq]
  refine exists_congr fun y => and_congr_right fun _ => and_congr_right fun _ => or_congr_right ?_
  cases consort? s.w y.2.id.consort <;> simp

/-- Tile 9 is reported; its neighbours hold four records each. -/
def toldW (w : W) : W := { w with hub := { w.hub with reported := [9] } }

theorem witness_WorldRequests : ¬ CoreBusy (asking 0 5 id) 1 ∧ CoreBusy (asking 0 5 id) 0 ∧ 2 * 15 ∉ (asking 0 5 id).w.sec.keyed ∧
    (OfPart (asking 5 6 id) 5 ∧ WorldOf (asking 5 6 id) 0 0 ∧ (fn (asking 5 6 id).w 5).tdisp = 0) ∧ Live (asking 0 7 id) 0 ∧
    (Asked (asking 0 8 toldW) 0 8 ∧ 9 ∈ (asking 0 8 toldW).w.hub.reported ∧ neighbour 9 3 = some 8 ∧
      (tile (asking 0 8 toldW).w 8).nb.length = 4 ∧ 8 ∉ (asking 0 8 toldW).w.hub.reported) := by
  rw [busy_iff, busy_iff]
  unfold Live
  exact ⟨by decide +kernel, by decide +kernel, by decide +kernel, ⟨(asked_of_vf 6 (by decide)).2, ⟨0, 0, by decide, by decide, by decide +kernel,
    by decide +kernel⟩, by decide +kernel⟩, by decide +kernel, (asking_of (by decide +kernel)).2, by decide +kernel, by decide, by decide +kernel,
    by decide +kernel⟩

/-- The partition's export table stands at 0x240000. -/
def tabled (w : W) : W := updPart { w with hub := reached.w.hub } 0 fun p => { p with expT := some 0x240000 }

theorem witness_TableRequests : OfPart (asking 5 9 tabled) 5 ∧ Asked (asking 5 9 tabled) 5 9 ∧ (fn (asking 5 9 tabled).w 5).part = 0 ∧
    (part (asking 5 9 tabled).w 0).expT = some 0x240000 ∧ (part (asking 5 9 tabled).w 0).impT = none ∧
    (LimitFits 0 ∧ StoredEntry false 0 0 ∧ ¬ LimitFits (BitVec.ofNat 256 (2 ^ 128))) ∧
    ownPlaces (asking 5 9 tabled).w 72 0 (physPlace (asking 5 9 tabled).env (asking 5 9 tabled).w 0) (0x240000 + 32 * 4095) 32 =
      .ok [(.dev 0 0x25FFE0 0x25FFE0, 0x25FFE0, 32)] ∧
    placesScrub (asking 5 9 tabled).w [(.dev 0 0x25FFE0 0x25FFE0, 0x25FFE0, 32)] = none ∧
    (placeKeys [(.dev 0 0x25FFE0 0x25FFE0, 0x25FFE0, 32)]).Nodup ∧
    SameTag (asking 5 9 tabled).w 0 [(.dev 0 0x25FFE0 0x25FFE0, 0x25FFE0, 32)] ∧ Asked (asking 5 10 id) 5 10 :=
  ⟨by unfold OfPart; decide +kernel, (asking_of (by decide +kernel)).2, by decide +kernel, by decide +kernel, by decide +kernel,
    ⟨by unfold LimitFits; decide +kernel, by unfold StoredEntry; decide +kernel, by unfold LimitFits; decide +kernel⟩,
    by decide +kernel, by decide +kernel, by decide +kernel, same_plain (by decide +kernel), (asked_of_vf 10 (by decide)).1.2⟩

/-- An entry of the handler consort is held; its launch has three consorts; the PF asks to end it. -/
def longer : Launch := { launch with hdr := { hdr with ccount := 3 } }
def endAsk : State :=
  { hubS 0x700000 7 0 id with
    w := updFn (updPart { (hubS 0x700000 7 0 id).w with launches := [(0, longer)] } 0 fun p =>
      { p with fq := { p.fq with pending := [], held := [trapOf 7] } }) 0 fun f => { f with pend := true, mbcopy := 11 } }

theorem witness_TerminateRequests : endAsk.Inv ∧ Asked endAsk 0 11 ∧ EntryOf endAsk 0 (asker 0x700000) 0 (trapOf 7) ∧
    (asker 0x700000).id.part = 0 ∧ isHandler endAsk.w (asker 0x700000) = true ∧ (fqOf endAsk 0).pending.length ≤ 0 ∧ Keyed endAsk ∧
    consort? endAsk.w (asker 0x700000).id.consort = some consort ∧ consort.st = .placed ∧ (asker 0x700000).id.consort < endAsk.w.nextConsort ∧
    launch? endAsk.w consort.launch = some longer ∧ longer.ended + 1 < longer.hdr.ccount :=
  ⟨⟨by decide +kernel, rfl⟩, ⟨by decide +kernel, by decide +kernel⟩, entry_of (by decide +kernel), by decide +kernel, by decide +kernel,
    by decide +kernel, keyed_of (by decide +kernel), by decide +kernel⟩

/-- No entry stands at number 1. -/
theorem witness_TerminateRequests_none : ∀ x, (allEntries endAsk.w 0)[1]? = some x → x.served = true ∨ handlerCourse endAsk.w x = none := by
  have h : (allEntries endAsk.w 0)[1]? = none := by decide +kernel
  intro x hx
  rw [h] at hx
  cases hx

/-- Partition 1 lives with slice 0 and has no consort; its records hold one or two scheduling contexts. -/
def secondPart (n : Nat) (w : W) : W := updPart w 1 fun p => { p with live := true, slices := 1, ctxs := { p.ctxs with count := n } }

theorem witness_RuntimeRequests : Asked (asking 0 12 (secondPart 1)) 0 12 ∧ RuntimeOk (asking 0 12 (secondPart 1)) 1 65535 0 (2 ^ 21) (2 ^ 26) 255 0 ∧
    ¬ RuntimeOk (asking 0 12 (secondPart 1)) 1 65535 0 (2 ^ 21) (2 ^ 25) 255 0 ∧ Asked (asking 0 13 (secondPart 1)) 0 13 ∧
    ContextsOk (asking 0 13 (secondPart 1)) 1 1 100000 [15] ∧ (part (asking 0 13 (secondPart 1)).w 1).ctxs.count ≤ 1 ∧
    ContextsOk (asking 0 13 (secondPart 2)) 1 4 10 [1, 2, 3, 15] ∧ 1 < (part (asking 0 13 (secondPart 2)).w 1).ctxs.count ∧
    ¬ ContextsOk (asking 0 13 (secondPart 1)) 1 1 9 [1] ∧ Asked (asking 5 14 id) 5 14 ∧ Live (asking 5 14 id) 0 := by
  unfold RuntimeOk ContextsOk NoConsort Live
  exact ⟨(asking_of (by decide +kernel)).2, by decide +kernel, by decide +kernel, (asking_of (by decide +kernel)).2, by decide +kernel,
    by decide +kernel, by decide +kernel, by decide +kernel, by decide +kernel, (asked_of_vf 14 (by decide)).1.2, by decide +kernel⟩

/-- Partition 0 has one scheduling context; course 0 runs in context 0 and course 1 is ready in context 1. -/
def turnW (w : W) : W :=
  { w with courses := [(0, course), (1, { course with id := { course.id with cid := 1, ctx := 1 }, k := { course.k with at_ := .ready } })] }

theorem witness_RuntimeRequests_several : let s := asking 0 13 turnW
    s.Inv ∧ Asked s 0 13 ∧ ContextsOk s 0 4 10 [1, 2, 3, 15] ∧ (part s.w 0).ctxs.count ≤ 1 ∧ Keyed s ∧ (∀ y ∈ s.w.courses, NearLines y.2) ∧
    (∃ c, course? s.w 1 = some c ∧ c.id.part = 0 ∧ c.id.ctx = 1 ∧ c.id.pinned = false ∧ c.k.at_ = .ready) ∧
    course? s.w 0 = some course ∧ course.id.ctx = 0 ∧ course.k.at_ = .resident := by
  unfold ContextsOk Live
  exact ⟨(asking_of (by decide +kernel)).1, (asking_of (by decide +kernel)).2, by decide +kernel, by decide +kernel, keyed_of (by decide +kernel),
    nears_of (by decide +kernel), ⟨_, rfl, rfl, rfl, rfl, rfl⟩, by decide +kernel⟩

/-! ## Decoding and steps -/

theorem witness_DecodeEncode : ∃ i, Instr.wf i = true ∧ encode i = some [0x0070C108] :=
  ⟨.iadd ⟨false, 7⟩ 3 1 2 .wrap, by decide +kernel, by decide +kernel⟩

/-- IADD, and LDI with its literal word. -/
theorem witness_EncodeDecode : (∃ i, decodeWord 0x0070C108 0 = some i) ∧ wordHasLiteral 0x10F04000 = true ∧
    ∃ i, decodeWord 0x10F04000 0x7FC00000 = some i :=
  ⟨Option.isSome_iff_exists.mp (by decide +kernel), by decide +kernel, Option.isSome_iff_exists.mp (by decide +kernel)⟩

/-- Words at the PC. -/
def wordsS (v : Nat) : State := { demo with mem := poke demo.mem 0x100000 8 v }

theorem next_of {s : State} (h : ((nextSignal s.w).isNone && s.w.lost.isEmpty && s.w.agenda.isEmpty && !s.w.hub.failed && s.w.hub.ready &&
    (nextInternal s).isNone) = true) : IssuesNext s := by
  simp only [Bool.and_eq_true, List.isEmpty_iff, Bool.not_eq_true', Option.isNone_iff_eq_none] at h
  exact ⟨h.1.1.1.1.1, h.1.1.1.1.2, h.1.1.1.2, ⟨h.1.1.2, h.1.2⟩, h.2⟩

theorem witness_StepRunsDecoded : ∃ s x word i, IssuesNext s ∧ issueOf s.env s.w = .go x ∧ x.c.w.closing = false ∧ x.c.k.fetchLost = false ∧
    (fetchAt s.env s.w x.c x.pc).word = .ok word ∧ decodeWord word 0 = some i ∧ i.twoWords = false :=
  ⟨wordsS 0x0070C108, demoX, 0x0070C108, .iadd ⟨false, 7⟩ 3 1 2 .wrap, next_of (by decide +kernel), by decide +kernel, by decide +kernel, rfl,
    by decide +kernel⟩

theorem witness_StepRunsDecoded_literal : ∃ s x word lit i, IssuesNext s ∧ issueOf s.env s.w = .go x ∧ x.c.w.closing = false ∧ x.c.k.fetchLost = false ∧
    (fetchAt s.env s.w x.c x.pc).word = .ok word ∧ wordHasLiteral word = true ∧ (fetchAt s.env s.w x.c (x.pc + 4)).word = .ok lit ∧
    decodeWord word lit = some i := by
  have h : (decodeWord 0x10F04000 0x7FC00000).isSome = true := by decide +kernel
  obtain ⟨i, e⟩ := Option.isSome_iff_exists.mp h
  exact ⟨wordsS (0x10F04000 + 0x7FC00000 * 2 ^ 32), demoX, 0x10F04000, 0x7FC00000, i, next_of (by decide +kernel), by decide +kernel,
    by decide +kernel, rfl, by decide +kernel, by decide +kernel, by decide +kernel, e⟩

theorem witness_StepRunsDecoded_reserved : IssuesNext reservedS ∧ issueOf reservedS.env reservedS.w = .go demoX ∧ demoX.c.w.closing = false ∧
    (fetchAt reservedS.env reservedS.w demoX.c demoX.pc).word = .ok (2 ^ 32 - 1) ∧ decodeWord (2 ^ 32 - 1) 0 = none :=
  ⟨next_of (by decide +kernel), by decide +kernel⟩

/-- A held signal; an event that waits; a hub that failed; a device before bring-up; an event that comes by itself. -/
theorem witness_StepOrder : (∃ s : State, ∃ i, nextSignal s.w = some i) ∧ (∃ s : State, nextSignal s.w = none ∧ ∃ i r, s.w.agenda = i :: r) ∧
    (∃ s : State, nextSignal s.w = none ∧ s.w.agenda = [] ∧ s.w.hub.failed = true) ∧
    (nextSignal State.reset.w = none ∧ State.reset.w.agenda = [] ∧ State.reset.w.hub.failed = false ∧ State.reset.w.hub.ready = false) ∧
    ∃ s i, nextSignal s.w = none ∧ s.w.agenda = [] ∧ s.w.hub.failed = false ∧ s.w.hub.ready = true ∧ nextInternal s = some i := by
  have h : (nextInternal (opS (op .azero 0 0 0 0 2 []))).isSome = true := by decide +kernel
  obtain ⟨i, e⟩ := Option.isSome_iff_exists.mp h
  have g : (nextSignal ({ demo.w with hub := { demo.w.hub with signals := [(3, sigOf 1)] } })).isSome = true := by decide +kernel
  obtain ⟨j, d⟩ := Option.isSome_iff_exists.mp g
  exact ⟨⟨atW fun w => { w with hub := { w.hub with signals := [(3, sigOf 1)] } }, j, d⟩,
    ⟨atW fun w => { w with agenda := [.heartbeatSend 9] }, by decide +kernel, _, _, rfl⟩,
    ⟨atW fun w => { w with hub := { w.hub with failed := true } }, by decide +kernel, by decide +kernel, rfl⟩, by decide +kernel,
    _, i, by decide +kernel, by decide +kernel, by decide +kernel, by decide +kernel, e⟩

/-- Whether an outcome is a next state, computed. -/
def nextB {S F R : Type} : Host.Outcome S F R → Bool
  | .next _ => true
  | _ => false

theorem next_some {S F R : Type} {o : Host.Outcome S F R} (h : nextB o = true) : ∃ t, o = .next t := by
  cases o with
  | next t => exact ⟨t, rfl⟩
  | _ => simp [nextB] at h

theorem witness_StepKeepsInv : ∃ s t, State.Inv s ∧ step s = .next t := by
  obtain ⟨t, h⟩ := next_some (o := step demo) (by decide +kernel)
  exact ⟨demo, t, demo_inv, h⟩

theorem witness_StepKeepsCourses : ∃ s t, Keyed s ∧ step s = .next t := by
  obtain ⟨t, h⟩ := next_some (o := step demo) (by decide +kernel)
  exact ⟨demo, t, demo_keyed, h⟩

theorem witness_StepsGoOn : demo.w.agenda = [] := by decide +kernel

end Sys2Proof.Tests
end

