-- ==== Sys2Proof/Tests/WitnessSync.lean ====
section
/-! SUPPORT. Witnesses: states and operands that meet the hypotheses of the statements about ends, parks, timelines, barriers, tickets and the
launch queue. -/

namespace Sys2Proof.Tests

set_option Elab.async false

open Sys2Proof Sys2Proof.Machine Sys2Proof.Claims

/-! ## Ends -/

theorem witness_CourseExit : ∃ h, Issues demo demoX ∧ Clear demo demoX (uniUses h Uses.none) demoX.x ∧ Quiet demo demoX h.sw ∧
    guardOn demoX.c h = true ∧ ∀ k, k < 32 → laneSt demoX.c k ≠ 2 :=
  ⟨all, demo_issues, clear_of (by decide +kernel), demo_quiet _, by decide +kernel, by decide +kernel⟩

theorem one_owner : OneOwner demoX.c := by unfold OneOwner; decide +kernel

theorem witness_SuccessorExit : ∃ h a ls, Issues demo demoX ∧ guardOn demoX.c h = true ∧
    Clear demo demoX (uniUses h { Uses.none with s := [(a : R64).val, a.val + 1] }) demoX.x ∧ Quiet demo demoX h.sw ∧
    (∀ k, k < 32 → laneSt demoX.c k ≠ 2) ∧ demoX.c.id.j = 0 ∧ OneOwner demoX.c ∧
    UniPerforms demo demoX .read 128 (getS2 demoX.c a.val) (lowSlot demoX) ls :=
  ⟨all, 2, _, demo_issues, by decide +kernel, clear_of (by decide +kernel), demo_quiet _, by decide +kernel, by decide +kernel, one_owner,
    (uni_of (q := fun _ => true) (by decide +kernel)).1⟩

/-- The course is not its consort's first; its lanes are of two owners. -/
def second (c : Course) : Course := { c with id := { c.id with j := 1 } }
def shared (c : Course) : Course := { c with id := { c.id with ownv := 0x10, mixed := true } }

theorem witness_SuccessorExit_traps :
    (∃ s x, Issues s x ∧ guardOn x.c all = true ∧ Keyed s ∧ x.c.w.used ≤ 16 ∧ x.c.id.j ≠ 0) ∧
    ∃ s x, Issues s x ∧ guardOn x.c all = true ∧ Keyed s ∧ x.c.w.used ≤ 16 ∧ x.c.id.j = 0 ∧ ¬ OneOwner x.c :=
  ⟨⟨stateOf second id, selOf second, issues_of (by decide +kernel), by decide +kernel, keyed_of (by decide +kernel), by decide +kernel,
    by decide +kernel⟩,
   ⟨stateOf shared id, selOf shared, issues_of (by decide +kernel), by decide +kernel, keyed_of (by decide +kernel), by decide +kernel,
    by decide +kernel, by unfold OneOwner; decide +kernel⟩⟩

/-! ## Parks: the control area of the frame is sealed under the world's context key -/

def ctl : Nat := 0x10182000
def sealTags : Tbl Tag := (List.range 256).map fun i => (ctl / 16 + i, ⟨1, 0, 0, ctl + 16 * i⟩)
def sealed (w : W) : W := { w with sec := { w.sec with cipher := sealTags } }

theorem seal_get : ∀ j : Fin 256, tGet? sealTags (ctl / 16 + j.val) = some ⟨1, 0, 0, ctl + 16 * j.val⟩ := by decide +kernel

def ctlAt : List (Loc × Nat × Nat) := [(.dev 0 ctl ctl, ctl, 4096)]

/-- The checks of `Saves`, computed. -/
def savesB (s : State) (x : Sel) : Bool :=
  (match ctxPlaces s.env s.w (pcnOf s.w x.c.v.hcore) x.c.id.part (slotWorld x.c 0) (x.c.id.frame + 0x2000) 4096 .write with
    | .ok l => l == ctlAt
    | _ => false) && (placesScrub s.w ctlAt).isNone && slotWorld x.c 0 == 0 && s.w.sec.keyed.isEmpty &&
    x.c.v.lines.all fun p => p.2.quad == quadOf x.c

theorem saves_of {s : State} {x : Sel} (h : savesB s x = true) (hc : s.w.sec.cipher = sealTags) : Saves s x ctlAt := by
  simp only [savesB, Bool.and_eq_true, Option.isNone_iff_eq_none, beq_iff_eq, List.isEmpty_iff, List.all_eq_true] at h
  obtain ⟨⟨⟨⟨hp, hm⟩, hw⟩, hk⟩, hn⟩ := h
  refine ⟨hn, ?_, hm, ?_, ?_⟩
  · split at hp
    · simp_all
    · simp at hp
  · intro l va n i hl hi
    simp only [ctlAt, List.mem_singleton, Prod.mk.injEq] at hl
    obtain ⟨rfl, rfl, rfl⟩ := hl
    have e : keyDev 0 (ctl + i) / 16 = ctl / 16 + i / 16 := by unfold keyDev ctl; omega
    have g : tGet? sealTags (ctl / 16 + i / 16) = some ⟨1, 0, 0, ctl + 16 * (i / 16)⟩ := seal_get ⟨i / 16, by omega⟩
    have e' : (ctl + i) / 16 * 16 = ctl + 16 * (i / 16) := by unfold ctl; omega
    simp only [Loc.add, hw, ctxTag, contextKey, keyGen, hc, hk, e, g, e', List.filter_nil, List.length_nil]
    rfl
  · simp only [ctlAt, placeKeys, List.flatMap_cons, List.flatMap_nil, List.append_nil, Loc.add, Loc.key, keyDev]
    exact (List.nodup_range (n := 4096)).map fun a b h => by simpa using h

/-- A machine whose course can park, with its course changed by f and the rest by g. -/
def parkState (f : Course → Course) (g : W → W) : State := stateOf f fun w => g (sealed w)

/-- S1 = 5. -/
def five : Course → Course := s1 5

theorem five_saves : Saves (parkState five id) (selOf five) ctlAt := saves_of (by decide +kernel) rfl
theorem five_issues : Issues (parkState five id) (selOf five) := issues_of (by decide +kernel)

theorem witness_YieldAndSleep : ∃ i h t s x ls, ((i = Instr.yield h ∧ t = none) ∨ (∃ a, i = Instr.sleep h a ∧ t = some a)) ∧ Issues s x ∧
    Clear s x (uniUses h { Uses.none with s := match t with | some a => [a.val] | none => [] }) x.x ∧ Quiet s x true ∧
    guardOn x.c h = true ∧ Saves s x ls ∧ Free s x.c ∧ (match t with | some a => (getS x.c a.val).toNat | none => 0) = 5 :=
  ⟨.sleep all 1, all, some 1, parkState five id, selOf five, ctlAt, .inr ⟨1, rfl, rfl⟩, five_issues, clear_of (by decide +kernel),
    .inr ⟨rfl, by decide +kernel⟩, by decide +kernel, five_saves, ⟨by decide +kernel, by decide +kernel⟩, by decide +kernel⟩

/-- A valid TL handle of counter 0, whose number 5 has not been reached. -/
def timed (c : Course) : Course := putTL (five c) 0 0x400

theorem timed_reach : ¬ reachedRel (tlOf (parkState timed id) (selOf timed).c 0) (getS (selOf timed).c 1) := by
  unfold reachedRel issuedRel; decide +kernel

theorem witness_TimelineWaits : ∃ i h k a o s x, ((i = Instr.waittl h k a ∧ o = none) ∨ (∃ q b, i = Instr.waittlDl h k q a b ∧ o = some (q, b))) ∧
    Issues s x ∧ Clear s x (uniUses h { Uses.none with
      s := Fin.val a :: (match o with | some (_, b) => [Fin.val b] | none => []), sect := [(sectTL, Fin.val k)] }) x.x ∧
    Quiet s x true ∧ guardOn x.c h = true ∧ (getTL x.c k.val).getLsbD 10 = true ∧
    CounterNear s x.c k.val ∧ ¬ reachedRel (tlOf s x.c k.val) (getS x.c a.val) ∧ (o = none ∨ (match o with | some (_, b) => (getS x.c (Fin.val b)).toNat | none => 0) ≠ 0) ∧
    Saves s x ctlAt :=
  ⟨.waittlDl all 0 3 1 1, all, 0, 1, some (3, 1), parkState timed id, selOf timed, .inr ⟨3, 1, rfl, rfl⟩, issues_of (by decide +kernel),
    clear_of (by decide +kernel), .inr ⟨rfl, by decide +kernel⟩, by decide +kernel, by decide +kernel, by unfold CounterNear; decide +kernel, timed_reach,
    .inr (by decide +kernel), saves_of (by decide +kernel) rfl⟩

/-- A number that is reached: 0 at a counter that stands at 0. -/
theorem witness_TimelineWaits_reached : ∃ s x, Issues s x ∧
    Clear s x (uniUses all { Uses.none with s := [2], sect := [(sectTL, 0)] }) x.x ∧ Quiet s x true ∧ guardOn x.c all = true ∧
    (getTL x.c 0).getLsbD 10 = true ∧ CounterNear s x.c 0 ∧ reachedRel (tlOf s x.c 0) (getS x.c 2) :=
  ⟨parkState timed id, selOf timed, issues_of (by decide +kernel), clear_of (by decide +kernel), .inr ⟨rfl, by decide +kernel⟩,
    by decide +kernel, by decide +kernel, by unfold CounterNear; decide +kernel, by unfold reachedRel issuedRel; decide +kernel⟩

/-! ## Barriers -/

/-- The course's consort in the demo is of one course: its arrival completes the phase. -/
theorem witness_Barriers : ∃ i h o n cnt parks k, barRow i = some (h, o, n, cnt, parks) ∧ Issues demo demoX ∧ Clear demo demoX (barUses h o) demoX.x ∧
    Quiet demo demoX true ∧ guardOn demoX.c h = true ∧ Arrives demo demoX k n cnt ∧ Keyed demo ∧
    arrivals k demoX.c n.val = countOf k cnt.val :=
  ⟨.bar all 15 0, _, _, _, _, _, consort, rfl, demo_issues, clear_of (by decide +kernel), demo_quiet _, by decide +kernel,
    ⟨by decide +kernel, by decide +kernel, .inl (by decide +kernel), by decide +kernel, by decide +kernel⟩, demo_keyed, by decide +kernel⟩

/-- A consort of 128 courses: an arrival completes nothing, and the course parks; a count above it; a phase bound to another count. -/
def many : Consort := { consort with nCourses := 127 }
def boundTo : Consort := { many with bars := [(15, ⟨0, 1, 2, [9]⟩)] }
def withConsort (k : Consort) (w : W) : W := { w with consorts := [(0, k)] }

theorem witness_Barriers_parks : ∃ i h o n cnt parks k s x, barRow i = some (h, o, n, cnt, parks) ∧ Issues s x ∧ Clear s x (barUses h o) x.x ∧
    Quiet s x true ∧ guardOn x.c h = true ∧ Arrives s x k n cnt ∧ Keyed s ∧ arrivals k x.c n.val ≠ countOf k cnt.val ∧ parks = true ∧
    (match o with | some (b, _) => (getS x.c (Fin.val b)).toNat | none => 0) ≠ 0 ∧ Saves s x ctlAt :=
  ⟨.bardl all 1 15 3 127, _, _, _, _, _, many, parkState five (withConsort many), selOf five, rfl, issues_of (by decide +kernel),
    clear_of (by decide +kernel), .inr ⟨rfl, by decide +kernel⟩, by decide +kernel,
    ⟨by decide +kernel, by decide +kernel, .inl (by decide +kernel), by decide +kernel, by decide +kernel⟩, keyed_of (by decide +kernel), by decide +kernel,
    rfl, by decide +kernel, saves_of (by decide +kernel) rfl⟩

theorem witness_BarrierCounts : ∃ i h o n cnt parks k s x, barRow i = some (h, o, n, cnt, parks) ∧ Issues s x ∧ x.c.w.used ≤ 16 ∧
    guardOn x.c h = true ∧ consort? s.w x.c.id.consort = some k ∧ k.stuck = false ∧ Keyed s ∧ cnt.val ≤ k.nCourses ∧
    (barAt k n.val).bound ≠ 0 ∧ (barAt k n.val).bound ≠ countOf k cnt.val :=
  ⟨.bara all 15 3, _, _, _, _, _, boundTo, parkState id (withConsort boundTo), selOf id, rfl, issues_of (by decide +kernel), by decide +kernel,
    by decide +kernel, by decide +kernel, by decide +kernel, keyed_of (by decide +kernel), by decide +kernel⟩

theorem witness_BarrierCounts_illegal : ∃ i h o n cnt parks, barRow i = some (h, o, n, cnt, parks) ∧ Issues demo demoX ∧ demoX.c.w.used ≤ 16 ∧
    guardOn demoX.c h = true ∧ consort? demo.w demoX.c.id.consort = some consort ∧ consort.stuck = false ∧ Keyed demo ∧
    consort.nCourses < Fin.val cnt :=
  ⟨.bara all 0 2, _, _, _, _, _, rfl, demo_issues, by decide +kernel, by decide +kernel, by decide +kernel, by decide +kernel, demo_keyed,
    by decide +kernel⟩

/-! ## Tickets -/

/-- Core 0's row of the matrix holds every slice. -/
def rowed (w : W) : W := { w with hub := { w.hub with matrix := [(0, 0xFFFFFFFF)] } }

theorem last_disp : Dispenses (parkState (s1 6143) rowed) (selOf (s1 6143)) 1 :=
  ⟨by decide +kernel, by decide +kernel, by decide +kernel, by decide +kernel, by decide +kernel, fun k h => by
    have : some k = some consort := by rw [← h]; decide +kernel
    cases this; decide⟩

theorem witness_Tickets : ∃ s x a, Issues s x ∧ Keyed s ∧ Quiet s x true ∧ guardOn x.c all = true ∧ Dispenses s x a ∧
    Clear s x (uniUses all { Uses.none with s := [(a : R64).val], entries := 1 }) x.x ∧
    Clear s x (uniUses all { Uses.none with s := [a.val] }) x.x ∧
    Clear s x (uniUses all { Uses.none with s := [a.val, (2 : R64).val] }) x.x ∧ ServedBy (disp s.w (getS x.c a.val).toNat).serving (getS x.c 2) ∧
    ¬ ServedBy (disp s.w (getS x.c a.val).toNat).serving (getS x.c a.val) ∧ Saves s x ctlAt :=
  ⟨parkState (s1 6143) rowed, selOf (s1 6143), 1, issues_of (by decide +kernel), keyed_of (by decide +kernel), .inr ⟨rfl, by decide +kernel⟩,
    by decide +kernel, last_disp, clear_of (by decide +kernel), clear_of (by decide +kernel), clear_of (by decide +kernel),
    by unfold ServedBy; decide +kernel, by unfold ServedBy; decide +kernel, saves_of (by decide +kernel) rfl⟩

theorem witness_Tickets_limit : ∃ h n s x, uniHead (.tkserve all 1) = some (h, n) ∧ Issues s x ∧ Keyed s ∧ Stands s x { Uses.none with entries := n } h.sw ∧
    guardOn x.c h = true ∧ 6144 ≤ (getS x.c 1).toNat :=
  ⟨_, _, parkState (s1 6144) rowed, selOf (s1 6144), rfl, issues_of (by decide +kernel), keyed_of (by decide +kernel), stands_of (by decide +kernel),
    by decide +kernel, by decide +kernel⟩

/-! ## The launch queue -/

/-- The partition with a sealed queue entry 0, and with a full queue. -/
def queueAt : Nat := (part demo.w 0).ctxBase
def sealedQueue (w : W) : W :=
  { w with sec := { w.sec with cipher := (List.range 8).map fun i => (queueAt / 16 + i, ⟨1, 0, 0, queueAt + 16 * i⟩) } }
def fullQueue (w : W) : W := updPart w 0 fun p => { p with lq := List.replicate 4096 ⟨0, 0, 0, 0, false, 0, 0, 0⟩ }

theorem witness_LaunchQueue_misaligned : ∃ s x, Issues s x ∧ Stands s x { Uses.none with entries := 1 } all.sw ∧
    guardOn x.c all = true ∧ OneOwner x.c ∧ getS2 x.c 0 % 128 ≠ 0 ∧ Keyed s :=
  ⟨stateOf (fun c => putS c 0 64) id, selOf fun c => putS c 0 64, issues_of (by decide +kernel), stands_of (by decide +kernel), by decide +kernel,
    by unfold OneOwner; decide +kernel, by decide +kernel, keyed_of (by decide +kernel)⟩

theorem witness_LaunchQueue : ∃ s x ls qs, Issues s x ∧ Clear s x (uniUses all { Uses.none with s := [0, 1], entries := 1 }) x.x ∧
    guardOn x.c all = true ∧ OneOwner x.c ∧ getS2 x.c 0 % 128 = 0 ∧ UniPerforms s x .read 128 (getS2 x.c 0) (lowSlot x) ls ∧
    Quiet s x all.sw ∧ (part s.w x.c.id.part).lq.length < 4096 ∧
    ctxPlaces s.env s.w (pcnOf s.w x.c.v.hcore) x.c.id.part (slotWorld x.c 0)
      ((part s.w x.c.id.part).ctxBase + 128 * (part s.w x.c.id.part).lqTail) 128 .write = .ok qs ∧
    placesScrub s.w qs = none ∧ SameCtxTag s.w (slotWorld x.c 0) qs ∧ (placeKeys qs).Nodup := by
  refine ⟨stateOf id sealedQueue, selOf id, _, [(.dev 0 queueAt queueAt, queueAt, 128)], issues_of (by decide +kernel),
    clear_of (by decide +kernel), by decide +kernel, by unfold OneOwner; decide +kernel, by decide +kernel,
    (uni_of (q := fun _ => true) (by decide +kernel)).1, .inl rfl, by decide +kernel, by decide +kernel, by decide +kernel, ?_,
    by decide +kernel⟩
  intro l va n i hl hi
  simp only [List.mem_singleton, Prod.mk.injEq] at hl
  obtain ⟨rfl, rfl, rfl⟩ := hl
  have : ∀ j : Fin 128, tGet? (stateOf id sealedQueue).w.sec.cipher (keyDev 0 (queueAt + j.val) / 16) =
    ctxTag (stateOf id sealedQueue).w (slotWorld (selOf id).c 0) (queueAt + j.val) := by decide +kernel
  exact this ⟨i, hi⟩

def fullState : State := stateOf id fullQueue

theorem full_issues : Issues fullState demoX := issues_of (by decide +kernel)
theorem full_clear : Clear fullState demoX (uniUses all { Uses.none with s := [0, 1], entries := 1 }) demoX.x := clear_of (by decide +kernel)
theorem full_reads : UniPerforms fullState demoX .read 128 (getS2 demoX.c 0) (lowSlot demoX)
    (uniPlaces fullState demoX .read 128 (getS2 demoX.c 0) (lowSlot demoX)) :=
  (uni_of (q := fun _ => true) (by decide +kernel)).1
theorem full_length : 4096 ≤ (part fullState.w demoX.c.id.part).lq.length := by decide +kernel
theorem full_flights : fullState.w.flights = [] := rfl
theorem full_quiet : ∀ f ∈ fullState.w.flights, sameTag demoX.c f = false := by simp [full_flights]
theorem demo_buf : demoX.c.w.buf = [] := rfl
theorem demo_guard : guardOn demoX.c all = true := by decide +kernel
theorem demo_base : getS2 demoX.c 0 % 128 = 0 := by decide +kernel
theorem full_control : ∃ w', writeControl fullState.env fullState.w demoX.c = .ok w' := ok_of (by decide +kernel)

theorem witness_LaunchQueue_full : ∃ s x ls, Issues s x ∧ Clear s x (uniUses all { Uses.none with s := [0, 1], entries := 1 }) x.x ∧
    guardOn x.c all = true ∧ OneOwner x.c ∧ getS2 x.c 0 % 128 = 0 ∧ UniPerforms s x .read 128 (getS2 x.c 0) (lowSlot x) ls ∧
    4096 ≤ (part s.w x.c.id.part).lq.length ∧ NearLines x.c ∧ (∀ f ∈ s.w.flights, sameTag x.c f = false) ∧ x.c.w.buf = [] ∧
    ∃ w', writeControl s.env s.w x.c = .ok w' :=
  ⟨fullState, demoX, _, full_issues, full_clear, demo_guard, one_owner, demo_base, full_reads, full_length, near_of (by decide +kernel), full_quiet, demo_buf, full_control⟩

end Sys2Proof.Tests
end

