-- ==== Sys2Proof/Tests/WitnessTrap.lean ====
section
/-! SUPPORT. Witnesses: states and operands that meet the hypotheses of the statements about where instructions stop. -/

namespace Sys2Proof.Tests

set_option Elab.async false

open Sys2Proof Sys2Proof.Machine Sys2Proof.Claims

/-! ## Global and lane-local memory -/

/-- The first checks of an instruction pass in a state of the demo's course changed by f. -/
def trapB (f : Course → Course) (u : Uses) (sw : Bool) : Bool :=
  issuesB (stateOf f id) (selOf f) && keyedB (stateOf f id) && standsB (stateOf f id) (selOf f) u sw &&
    decide ((selOf f).c.id.cid ≠ 2 ^ 32 - 1)

theorem trap_of {f : Course → Course} {u : Uses} {sw : Bool} (h : trapB f u sw = true) :
    Issues (stateOf f id) (selOf f) ∧ Keyed (stateOf f id) ∧ Stands (stateOf f id) (selOf f) u sw ∧ (selOf f).c.id.cid ≠ 2 ^ 32 - 1 := by
  simp only [trapB] at h
  rw [Bool.and_eq_true, Bool.and_eq_true, Bool.and_eq_true, decide_eq_true_eq] at h
  exact ⟨issues_of h.1.1.1, keyed_of h.1.1.2, stands_of h.1.2, h.2⟩

/-- V2 and V3 are poisoned; the requests of lane 0 get no reply; lane 0 has an address that no page maps. -/
def rotten (c : Course) : Course :=
  { c with v := { c.v with lines := [(2, ⟨0, mkLine fun _ => 0, true, false, true⟩)], zmask := bvSet c.v.zmask 2 1 0 } }
def late (c : Course) : Course := { c with k := { c.k with tmo := some (1, true) } }
def far (c : Course) : Course := putV c 3 1 (mkLine fun _ => 0x100)

/-- A lane-local load past the segment; lanes 1 to 3 of a global release store misaligned. -/
theorem witness_MemoryTraps : (∃ i row, i.wf = true ∧ memRow i = some row ∧ Issues demo demoX ∧ Keyed demo ∧
      Stands demo demoX row.uses row.h.sw ∧ demoX.c.id.cid ≠ 2 ^ 32 - 1 ∧
      ∀ k, k < 32 → mHas (0xF : Mask) k = (mHas (row.on demoX) k && ((row.g demoX.c).seg k).isSome)) ∧
    ∃ i row, i.wf = true ∧ memRow i = some row ∧ (Issues (stateOf odd id) (selOf odd) ∧ Keyed (stateOf odd id) ∧
      Stands (stateOf odd id) (selOf odd) row.uses row.h.sw ∧ (selOf odd).c.id.cid ≠ 2 ^ 32 - 1) ∧
      (∀ k, k < 32 → (mHas (row.on (selOf odd)) k && ((row.g (selOf odd).c).seg k).isSome) = false) ∧
      ∀ k, k < 32 → mHas (0xE : Mask) k =
        (mHas (row.on (selOf odd)) k && ((row.g (selOf odd).c).align && (row.g (selOf odd).c).va k % (row.g (selOf odd).c).size != 0)) :=
  ⟨⟨.ldl all 4 2 .b4 63, _, by decide, rfl, demo_issues, demo_keyed, stands_of (by decide +kernel), by decide +kernel, by decide +kernel⟩,
    .strel all 4 2 .b4 .sy, _, by decide, rfl, trap_of (by decide +kernel), by decide +kernel, by decide +kernel⟩

/-- Whether every executing lane's access is in bounds and performed. -/
def reachesB (s : State) (x : Sel) (row : MemRow) : Bool :=
  lanesB (row.on x) fun k => match laneAccess s.env s.w x.c (row.g x.c) k with
    | .ok _ => true
    | _ => false

theorem reaches_of {s : State} {x : Sel} {row : MemRow} (h : reachesB s x row = true) :
    ∀ k, mHas (row.on x) k = true → ∃ ls, laneAccess s.env s.w x.c (row.g x.c) k = .ok ls := by
  refine lanes_of (fun k h => ?_) h
  revert h
  cases laneAccess s.env s.w x.c (row.g x.c) k <;> simp

/-- A poisoned address, whose lanes' accesses would be performed. -/
theorem witness_MemoryTraps_source : ∃ row, memRow (.ld all 4 2 .b4 0) = some row ∧
    (Issues (stateOf rotten id) (selOf rotten) ∧ Keyed (stateOf rotten id) ∧ Stands (stateOf rotten id) (selOf rotten) row.uses row.h.sw ∧
      (selOf rotten).c.id.cid ≠ 2 ^ 32 - 1) ∧ row.reads (selOf rotten) ≠ 0 ∧ poisonedUnit (selOf rotten).c row.uses ≠ none ∧
    Quiet (stateOf rotten id) (selOf rotten) row.h.sw ∧
    (∀ k, k < 32 → mHas (row.on (selOf rotten)) k = true → ∃ ls, laneAccess (stateOf rotten id).env (stateOf rotten id).w (selOf rotten).c
      (row.g (selOf rotten).c) k = .ok ls) :=
  ⟨_, rfl, trap_of (by decide +kernel), by decide +kernel, by decide +kernel, .inr ⟨rfl, by decide +kernel⟩,
    fun k _ => reaches_of (by decide +kernel) k⟩

/-- The row of LD V4, [V2] of 4 bytes; a TIMEOUT of lane 0 alone. -/
def ldRow : MemRow := ⟨all, { Uses.none with v := [2, 3], d := [4], entries := 1 }, globalOp .read 0 4 false 2 0⟩
theorem ldRow_of : memRow (.ld all 4 2 .b4 0) = some ldRow := rfl
def lateOne : Nat → Option (Nat × Nat)
  | 0 => some (0x22, 0)
  | _ + 1 => none

/-- The lanes whose replies come. -/
theorem answers_late {r : LaneRes} {ls : List (Loc × Nat × Nat)} (e : r = .ok ls) (k : Nat) : Answers (selOf late).c r (k + 1) := by
  refine ⟨⟨ls, e⟩, fun m b hmb => ?_⟩
  have t : (selOf late).c.k.tmo = some (1, true) := rfl
  obtain ⟨rfl, rfl⟩ := by simpa using t.symm.trans hmb
  have : (1 : Mask).getLsbD (k + 1) = false := by simp [BitVec.getLsbD_one]
  exact this

/-- Lane 0 ends with TIMEOUT, the others' accesses are performed. -/
theorem witness_MemoryTraps_ends : ∃ row, ∃ st : Nat → Option (Nat × Nat), memRow (.ld all 4 2 .b4 0) = some row ∧
    (Issues (stateOf late id) (selOf late) ∧ Keyed (stateOf late id) ∧ Stands (stateOf late id) (selOf late) row.uses row.h.sw ∧
      (selOf late).c.id.cid ≠ 2 ^ 32 - 1) ∧ CleanFor (selOf late).c row.uses (row.reads (selOf late)) ∧ row.h.sw = false ∧
    (∃ k, k < 32 ∧ mHas (row.on (selOf late)) k = true ∧ st k ≠ none) ∧
    ∀ k, k < 32 → mHas (row.on (selOf late)) k = true →
      let r := laneAccess (stateOf late id).env (stateOf late id).w (selOf late).c (row.g (selOf late).c) k
      match st k with
      | some y => Ends (selOf late).c r k ((row.g (selOf late).c).va k) y
      | none => Answers (selOf late).c r k := by
  have h := reaches_of (s := stateOf late id) (x := selOf late) (row := ldRow) (by decide +kernel)
  refine ⟨ldRow, lateOne, ldRow_of, trap_of (by decide +kernel), .inr (by decide +kernel), rfl,
    ⟨0, by decide, by decide +kernel, by decide⟩, fun k hk hm => ?_⟩
  obtain ⟨ls, e⟩ := h k hm
  match k with
  | 0 => exact ⟨by decide, .inr ⟨1, true, ls, rfl, by decide, e, by decide +kernel⟩⟩
  | k + 1 => exact answers_late e k

/-- Where lanes split off and what the others reach, as computed. -/
def splitOf (s : State) (x : Sel) (row : MemRow) (k : Nat) : Option (Nat × Nat) :=
  match laneAccess s.env s.w x.c (row.g x.c) k with
  | .split a b _ => some (a, b)
  | _ => none

/-- Each executing lane splits off or its access is performed. -/
theorem split_or {s : State} {x : Sel} {row : MemRow} (h : lanesB (row.on x) (fun k => match laneAccess s.env s.w x.c (row.g x.c) k with
      | .ok _ => true
      | .split .. => true
      | _ => false) = true) : ∀ k, mHas (row.on x) k = true → match splitOf s x row k with
    | some y => ∃ m, laneAccess s.env s.w x.c (row.g x.c) k = .split y.1 y.2 m
    | none => laneAccess s.env s.w x.c (row.g x.c) k = .ok (placesOf s x row k) := by
  refine lanes_of (fun k h => ?_) h
  unfold splitOf placesOf
  revert h
  cases laneAccess s.env s.w x.c (row.g x.c) k <;> simp

/-- Lane 0's address has no page. -/
theorem witness_LaneSplits : ∃ row, ∃ ls : Nat → List (Loc × Nat × Nat), memRow (.ld all 4 2 .b4 0) = some row ∧ Issues (stateOf far id) (selOf far) ∧ Keyed (stateOf far id) ∧
    Clear (stateOf far id) (selOf far) row.uses (row.reads (selOf far)) ∧ Quiet (stateOf far id) (selOf far) row.h.sw ∧
    (selOf far).c.k.tmo = none ∧
    (∀ k, k < 32 → mHas (row.on (selOf far)) k = true → (row.g (selOf far).c).seg k = none ∧
      ((row.g (selOf far).c).align = true → (row.g (selOf far).c).va k % (row.g (selOf far).c).size = 0)) ∧
    (∀ k, k < 32 → mHas (row.on (selOf far)) k = true → match splitOf (stateOf far id) (selOf far) row k with
      | some y => ∃ m, laneAccess (stateOf far id).env (stateOf far id).w (selOf far).c (row.g (selOf far).c) k = .split y.1 y.2 m
      | none => laneAccess (stateOf far id).env (stateOf far id).w (selOf far).c (row.g (selOf far).c) k = .ok (ls k)) ∧
    ∀ k, k < 32 → mHas (1 : Mask) k = (mHas (row.on (selOf far)) k && (splitOf (stateOf far id) (selOf far) row k).isSome) := by
  refine ⟨ldRow, placesOf (stateOf far id) (selOf far) ldRow, ldRow_of, issues_of (by decide +kernel), keyed_of (by decide +kernel),
    clear_of (by decide +kernel), .inr ⟨rfl, by decide +kernel⟩, rfl, fun _ _ _ => ⟨rfl, nofun⟩,
    fun k _ => split_or (by decide +kernel) k, by decide +kernel⟩

/-! ## Scratch -/

/-- V2 = v in every lane; the consort's records hold a store of another course to the first word of the window. -/
def v2 (v : Nat) (c : Course) : Course := putV c 2 0xF (mkLine fun _ => BitVec.ofNat 32 v)
def raced : Consort := { consort with races := [⟨0, 9, true, false⟩] }
def racedS : State := stateOf id fun w => { w with consorts := [(0, raced)] }

/-- An offset past the limit; lanes 1 to 3 misaligned. -/
theorem witness_ScratchTraps : (∃ row, scrRow (.lds all 3 2 .b4 0) = some row ∧ (Issues (stateOf (v2 0x10000) id) (selOf (v2 0x10000)) ∧
      Keyed (stateOf (v2 0x10000) id) ∧ Stands (stateOf (v2 0x10000) id) (selOf (v2 0x10000)) row.uses row.h.sw ∧ (selOf (v2 0x10000)).c.id.cid ≠ 2 ^ 32 - 1) ∧
      consort? (stateOf (v2 0x10000) id).w (selOf (v2 0x10000)).c.id.consort = some consort ∧
      ∀ k, k < 32 → mHas (0xF : Mask) k = (mHas (row.on (selOf (v2 0x10000))) k &&
        (scrAccess (stateOf (v2 0x10000) id).w (selOf (v2 0x10000)).c consort row.n k (row.off (selOf (v2 0x10000)).c k)).isNone)) ∧
    ∃ row, scrRow (.atcass all true 2 4 .ar) = some row ∧ (Issues (stateOf odd id) (selOf odd) ∧ Keyed (stateOf odd id) ∧
      Stands (stateOf odd id) (selOf odd) row.uses row.h.sw ∧ (selOf odd).c.id.cid ≠ 2 ^ 32 - 1) ∧
      (∀ k, k < 32 → (mHas (row.on (selOf odd)) k &&
        (scrAccess (stateOf odd id).w (selOf odd).c consort row.n k (row.off (selOf odd).c k)).isNone) = false) ∧
      ∀ k, k < 32 → mHas (0xE : Mask) k = (mHas (row.on (selOf odd)) k && (row.align && row.off (selOf odd).c k % row.n != 0)) :=
  ⟨⟨_, rfl, trap_of (by decide +kernel), by decide +kernel, by decide +kernel⟩, _, rfl, trap_of (by decide +kernel), by decide +kernel,
    by decide +kernel⟩

/-- The places of a lane's access, and the conditions on the units. -/
def placedB (s : State) (x : Sel) (row : ScrRow) (k : Consort) : Bool :=
  (consort? s.w x.c.id.consort == some k) &&
    (scrAway s.w x.c.id.consort k.world ((mLanes (row.on x)).map (scrOf s x row k)) row.n).isNone &&
    (List.range 32).all fun n => !(mHas (row.on x) n && (row.align && row.off x.c n % row.n != 0)) &&
      (!mHas (row.on x) n || (scrAccess s.w x.c k row.n n (row.off x.c n)).isSome)

/-- A poisoned offset; four lanes that race with another course's store. -/
theorem witness_ScratchTraps_later : (∃ row, scrRow (.sts all 4 2 .b4 0) = some row ∧ placedB (stateOf rotten id) (selOf rotten) row consort = true ∧
      (Issues (stateOf rotten id) (selOf rotten) ∧ Keyed (stateOf rotten id) ∧ Stands (stateOf rotten id) (selOf rotten) row.uses row.h.sw ∧
        (selOf rotten).c.id.cid ≠ 2 ^ 32 - 1) ∧ row.reads (selOf rotten) ≠ 0 ∧ poisonedUnit (selOf rotten).c row.uses ≠ none ∧
      Quiet (stateOf rotten id) (selOf rotten) row.h.sw) ∧
    ∃ row, scrRow (.lds all 3 2 .b4 0) = some row ∧ placedB racedS demoX row raced = true ∧ Issues racedS demoX ∧ Keyed racedS ∧
      Stands racedS demoX row.uses row.h.sw ∧ CleanFor demoX.c row.uses (row.reads demoX) ∧
      ∀ k, k < 32 → mHas (0xF : Mask) k = (mHas (row.on demoX) k && (arrives racedS.w demoX.c (scrOf racedS demoX row raced k) &&
        (scrWords (scrOf racedS demoX row raced k) row.n).any (racesWith raced demoX.c.id.cid row.write row.atom))) :=
  ⟨⟨_, rfl, by decide +kernel, trap_of (by decide +kernel), by decide +kernel, by decide +kernel, .inr ⟨rfl, by decide +kernel⟩⟩,
    _, rfl, by decide +kernel, issues_of (by decide +kernel), keyed_of (by decide +kernel), stands_of (by decide +kernel),
    .inr (by decide +kernel), by decide +kernel⟩

/-- Lane 0's request gets no reply; the others' accesses are performed. -/
theorem witness_ScratchTraps_ends : ∃ row, ∃ st : Nat → Option (Nat × Nat), scrRow (.lds all 3 2 .b4 0) = some row ∧ placedB (stateOf late id) (selOf late) row consort = true ∧
    (Issues (stateOf late id) (selOf late) ∧ Keyed (stateOf late id) ∧ Stands (stateOf late id) (selOf late) row.uses row.h.sw ∧
      (selOf late).c.id.cid ≠ 2 ^ 32 - 1) ∧ CleanFor (selOf late).c row.uses (row.reads (selOf late)) ∧
    (∀ k, k < 32 → (mHas (row.on (selOf late)) k && (arrives (stateOf late id).w (selOf late).c (scrOf (stateOf late id) (selOf late) row consort k) &&
      (scrWords (scrOf (stateOf late id) (selOf late) row consort k) row.n).any
        (racesWith consort (selOf late).c.id.cid row.write row.atom))) = false) ∧ row.h.sw = false ∧
    (∃ k, k < 32 ∧ mHas (row.on (selOf late)) k = true ∧ st k ≠ none) ∧
    ∀ k, k < 32 → mHas (row.on (selOf late)) k = true →
      let r := scrResult (stateOf late id).w (selOf late).c
        (scrOf (stateOf late id) (selOf late) row consort k) row.n row.rds
      match st k with
      | some y => Ends (selOf late).c r k (row.off (selOf late).c k) y
      | none => Answers (selOf late).c r k := by
  have h : lanesB (lanesOn (selOf late).c all (selOf late).x) (fun k => decide (scrResult (stateOf late id).w
      (selOf late).c (scrOf (stateOf late id) (selOf late) (ldsRow all 3 2 .b4 0) consort k)
      (ldsRow all 3 2 .b4 0).n (ldsRow all 3 2 .b4 0).rds = .ok [])) = true := by decide +kernel
  refine ⟨ldsRow all 3 2 .b4 0, lateOne, rfl, by decide +kernel, trap_of (by decide +kernel),
    .inr (by decide +kernel), by decide +kernel, rfl, ⟨0, by decide, by decide +kernel, by decide⟩, fun k hk hm => ?_⟩
  have e := lanes_of (fun k h => of_decide_eq_true h) h k hm
  match k with
  | 0 => exact ⟨by decide, .inr ⟨1, true, [], rfl, by decide, e, by decide +kernel⟩⟩
  | k + 1 => exact answers_late e k

/-! ## Uniform accesses -/

/-- S2 and S3 name no page. -/
def nowhere (c : Course) : Course := putS c 3 0x100

/-- Lanes of two owners; an address without a page; a request that gets no reply. -/
theorem witness_UniformAccessTraps : (∃ h n p, mixRow (.sld all 4 2 .b8 0) = some (h, n, p) ∧ Issues (stateOf shared id) (selOf shared) ∧
      Keyed (stateOf shared id) ∧ (selOf shared).c.w.used + n ≤ 16 ∧ guardOn (selOf shared).c h = true ∧ ¬ OneOwner (selOf shared).c) ∧
    (∃ row, Instr.wf (.sld all 4 2 .b8 0) = true ∧ uniRow (.sld all 4 2 .b8 0) = some row ∧ (Issues (stateOf nowhere id) (selOf nowhere) ∧
      Keyed (stateOf nowhere id) ∧ Stands (stateOf nowhere id) (selOf nowhere) (uniUses row.h row.u) row.h.sw ∧ (selOf nowhere).c.id.cid ≠ 2 ^ 32 - 1) ∧
      guardOn (selOf nowhere).c row.h = true ∧ row.may (selOf nowhere).c ∧
      ∃ cause a m, slotAccess (stateOf nowhere id).env (stateOf nowhere id).w (selOf nowhere).c
        (uniOp row.nd row.n (row.va (selOf nowhere).c)) (row.slot (selOf nowhere)) 0 = .split cause a m) ∧
    ∃ row, uniRow (.sld all 4 2 .b8 0) = some row ∧ (Issues (stateOf late id) (selOf late) ∧ Keyed (stateOf late id) ∧
      Stands (stateOf late id) (selOf late) (uniUses row.h row.u) row.h.sw ∧ (selOf late).c.id.cid ≠ 2 ^ 32 - 1) ∧ row.may (selOf late).c ∧
      CleanFor (selOf late).c (uniUses row.h row.u) (selOf late).x ∧ (selOf late).c.k.tmo ≠ none ∧
      ∃ ls, slotAccess (stateOf late id).env (stateOf late id).w (selOf late).c
        (uniOp row.nd row.n (row.va (selOf late).c)) (row.slot (selOf late)) 0 = .ok ls := by
  refine ⟨⟨_, _, _, rfl, issues_of (by decide +kernel), keyed_of (by decide +kernel), by decide +kernel, by decide +kernel,
      by unfold OneOwner; decide +kernel⟩,
    ⟨_, by decide, rfl, trap_of (by decide +kernel), by decide +kernel, by show manyOwners _ = false; decide +kernel, ?_⟩,
    _, rfl, trap_of (by decide +kernel), by show manyOwners _ = false; decide +kernel, .inr (by decide +kernel), by decide, ?_⟩
  · have h : (match slotAccess (stateOf nowhere id).env (stateOf nowhere id).w (selOf nowhere).c
        (uniOp .read (sizeOf' .b8) (uniAddr (selOf nowhere).c 2 .b8 0)) (lowSlot (selOf nowhere)) 0 with
      | .split .. => true
      | _ => false) = true := by decide +kernel
    show ∃ cause a m, slotAccess (stateOf nowhere id).env (stateOf nowhere id).w (selOf nowhere).c
        (uniOp .read (sizeOf' .b8) (uniAddr (selOf nowhere).c 2 .b8 0)) (lowSlot (selOf nowhere)) 0 = .split cause a m
    revert h
    cases slotAccess (stateOf nowhere id).env (stateOf nowhere id).w (selOf nowhere).c
        (uniOp .read (sizeOf' .b8) (uniAddr (selOf nowhere).c 2 .b8 0)) (lowSlot (selOf nowhere)) 0 <;> simp
  · have h : (match slotAccess (stateOf late id).env (stateOf late id).w (selOf late).c
        (uniOp .read (sizeOf' .b8) (uniAddr (selOf late).c 2 .b8 0)) (lowSlot (selOf late)) 0 with
      | .ok _ => true
      | _ => false) = true := by decide +kernel
    show ∃ ls, slotAccess (stateOf late id).env (stateOf late id).w (selOf late).c
        (uniOp .read (sizeOf' .b8) (uniAddr (selOf late).c 2 .b8 0)) (lowSlot (selOf late)) 0 = .ok ls
    revert h
    cases slotAccess (stateOf late id).env (stateOf late id).w (selOf late).c
        (uniOp .read (sizeOf' .b8) (uniAddr (selOf late).c 2 .b8 0)) (lowSlot (selOf late)) 0 <;> simp

/-! ## Sources, missing lines, the window -/

/-- A sector of the S registers is poisoned; V2 is neither cached nor zero; the window is full. -/
def rottenS (c : Course) : Course := { c with v := { c.v with pois := [sectS 2] } }
def gone (c : Course) : Course := { c with v := { c.v with zmask := bvSet c.v.zmask 2 1 0 } }
def full (c : Course) : Course := { c with w := { c.w with used := 16 } }

/-- What `StopsOnPoison` asks of an instruction of the poisoned course. -/
def poisonB (f : Course → Course) (u : Uses) (m : Mask) : Bool := trapB f u false && decide (m ≠ 0) && (poisonedUnit (selOf f).c u).isSome

theorem witness_SourcePoison :
    (∃ row, arithRow (.iadd all 3 2 1 .wrap) = some row ∧ poisonB rotten row.uses (row.reads (selOf rotten)) = true) ∧
    (∃ row, predRow (.fcmp all 1 .lt 2 3) = some row ∧ poisonB rotten row.uses (row.reads (selOf rotten)) = true) ∧
    (∃ row, fpRow (.fmac all 3 2 1 .rne) = some row ∧ poisonB rotten row.uses (row.reads (selOf rotten)) = true) ∧
    (∃ row, pairRow (.lea all 62 2 3 3) = some row ∧ poisonB rotten row.uses (row.reads (selOf rotten)) = true) ∧
    (∃ row, defRow (.scanl all 3 2 .fadd true .rne) = some row ∧ poisonB rotten row.uses (row.reads (selOf rotten)) = true) ∧
    (∃ row, jumpRow (.ret all 2) = some row ∧ poisonB rotten row.uses (row.reads (selOf rotten)) = true ∧
      ∀ k, mHas (row.on (selOf rotten)) k = true → (row.target (selOf rotten) k).toNat % 4 = 0) ∧
    (∃ row, scalarRow (.scsel all 3 1 2 6) = some row ∧ poisonB rottenS (row.reads (selOf rottenS).c) (selOf rottenS).x = true) ∧
    ∃ row, readRow (.vtos all 3 2 0) = some row ∧ poisonB rotten (uniUses row.h row.u) (selOf rotten).x = true ∧
      guardOn (selOf rotten).c row.h = true ∧ row.may (selOf rotten).c :=
  ⟨⟨arithRow (.iadd all 3 2 1 .wrap) |>.get rfl, rfl, by decide +kernel⟩, ⟨predRow (.fcmp all 1 .lt 2 3) |>.get rfl, rfl, by decide +kernel⟩,
    ⟨_, rfl, by decide +kernel⟩, ⟨_, rfl, by decide +kernel⟩, ⟨defRow (.scanl all 3 2 .fadd true .rne) |>.get rfl, rfl, by decide +kernel⟩,
    ⟨_, rfl, by decide +kernel, lanes_of (b := fun k => decide ((vAt (selOf rotten).c 2 k).toNat % 4 = 0)) (by simp) (by decide +kernel)⟩,
    ⟨_, rfl, by decide +kernel⟩, _, rfl, by decide +kernel, by decide +kernel, by show manyOwners _ = false; decide +kernel⟩

theorem witness_MissStalls : ∃ i row, i.wf = true ∧ arithRow i = some row ∧ Issues (stateOf gone id) (selOf gone) ∧
    (selOf gone).c.w.used + row.uses.entries ≤ 16 ∧ ∃ r ∈ row.uses.v ++ row.uses.d, missV (selOf gone).c r = true :=
  ⟨.iadd all 3 2 1 .wrap, _, by decide, rfl, issues_of (by decide +kernel), by decide +kernel, 2, by decide, by decide +kernel⟩

theorem witness_WindowOverflow : ∃ i n, i.wf = true ∧ entriesOf i = some n ∧ 0 < n ∧ Issues (stateOf full id) (selOf full) ∧
    Keyed (stateOf full id) ∧ 16 < (selOf full).c.w.used + n :=
  ⟨.ld all 4 2 .b8 0, 2, by decide, by decide +kernel, by decide, issues_of (by decide +kernel), keyed_of (by decide +kernel), by decide +kernel⟩

/-- A buffered result for V3 in lane 0 with a flag, and an outstanding one for the same register in lanes 0 and 1. -/
def flight1 : Flight := ⟨1, 0, 0, 0, 0, .v 3, 1, mkLine fun _ => 7, [(0, 1)]⟩
def flight2 : Flight := ⟨2, 0, 0, 0, 0, .v 3, 3, mkLine fun _ => 9, []⟩
def window (c : Course) : Course := { c with w := { c.w with used := 2, buf := [flight1] } }
def windowS : State := stateOf window fun w => { w with flights := [flight2] }

theorem witness_MarkerCloses : ∃ h : Hd, h.sw = true ∧ Issues windowS (selOf window) ∧ Stands windowS (selOf window) (laneUses h Uses.none) true ∧
    CleanFor (selOf window).c (laneUses h Uses.none) (readers (selOf window).c h (selOf window).x) ∧
    InOrder windowS (selOf window).c [flight1, flight2] ∧
    lineCount (setCourse windowS.w (selOf window).c) (quadOf (selOf window).c) + 64 ≤ 2048 := by
  refine ⟨⟨true, 7⟩, rfl, issues_of (by decide +kernel), stands_of (by decide +kernel), .inr (by decide +kernel), ?_, by decide +kernel⟩
  have hb : (selOf window).c.w.buf = [flight1] := rfl
  have hf : windowS.w.flights = [flight2] := by decide +kernel
  have ht : sameTag (selOf window).c flight2 = true := by decide +kernel
  refine ⟨fun f => ?_, by decide, by decide, by rw [hf]; decide, by rw [hb, hf]; decide⟩
  rw [hb, hf]
  simp only [List.mem_cons, List.not_mem_nil, or_false]
  constructor
  · rintro (rfl | rfl)
    · exact .inl rfl
    · exact .inr ⟨rfl, ht⟩
  · rintro (rfl | ⟨rfl, -⟩) <;> simp

end Sys2Proof.Tests
end

section
/-! Deferred results of S registers that a uniform instruction sends, and owner-slot fields that it writes (R52, R67, R69). -/

namespace Sys2Proof.Machine

/-! Charging lanes writes slots alone, whatever the S registers hold (R52). -/

theorem chargeLanes_putS (c : Course) (r : Nat) (v : Word) (x : Mask) :
    chargeLanes (putS c r v) x = putS (chargeLanes c x) r v := by
  have fold : ∀ (l : List Nat) (c : Course),
      l.foldl (fun c s =>
        let n := mCount (x &&& mkMask fun k => own c k == s)
        if n = 0 then c else setSlotF c s 448 64 ((slotLanecyc c s + n) % 2 ^ 64)) (putS c r v) =
      putS (l.foldl (fun c s =>
        let n := mCount (x &&& mkMask fun k => own c k == s)
        if n = 0 then c else setSlotF c s 448 64 ((slotLanecyc c s + n) % 2 ^ 64)) c) r v := by
    intro l
    induction l with
    | nil => intro c; rfl
    | cons a l ih =>
      intro c
      simp only [List.foldl_cons]
      rw [← ih]
      congr 1
      rw [apply_ite (fun d => putS d r v)]
      rfl
  exact fold _ c

/-! A result of an S register sent (R67). -/

/-- The result on its way: its tag is the slot and the generation of the course (R69). -/
def sentS (w : W) (c : Course) (r : Nat) (v : Word) : Flight :=
  ⟨w.nextFlight, c.id.cid, quadOf c, c.k.slot, c.k.gen, .s (reg64 r), 1, [v], []⟩

theorem launchS_one (w : W) (c : Course) (r : Nat) (v : Word) :
    launchS w c [(r, v)] = { w with nextFlight := w.nextFlight + 1, flights := w.flights ++ [sentS w c r v] } := rfl

theorem commitOne_sentS (w : W) (c d : Course) {r : Nat} (v : Word) (hr : r < 64) :
    commitOne c (sentS w d r v) = putS c r v := by
  have h : (reg64 r).val = r := Nat.mod_eq_of_lt hr
  simp [commitOne, sentS, h, laneOf]

/-- A window whose one result has just been sent closes by writing it to its S register (R67). -/
theorem closeWindow_sentS (e : Env) {w w0 : W} {c d : Course} {r : Nat} (v : Word) (hr : r < 64) (hb : c.w.buf = [])
    (hw : w.flights = w0.flights ++ [sentS w0 d r v]) (hf : sameTag c (sentS w0 d r v) = true)
    (hfs : ∀ g ∈ w0.flights, sameTag c g = false) :
    closeWindow e w c = ({ w with flights := w0.flights },
      { putS c r v with w := { c.w with used := 0, buf := [], isOpen := false, closing := false } }) := by
  have hp : w.flights.partition (sameTag c) = ([sentS w0 d r v], w0.flights) := by
    have h1 : w0.flights.filter (sameTag c) = [] := List.filter_eq_nil_iff.mpr fun g hg => by simp [hfs g hg]
    have h2 : w0.flights.filter (not ∘ sameTag c) = w0.flights := List.filter_eq_self.mpr fun g hg => by simp [hfs g hg]
    rw [hw, List.partition_eq_filter_filter]
    simp [h1, h2, hf]
  have hbuf : (buffer c (sentS w0 d r v)).w.buf = [sentS w0 d r v] := by simp [buffer, hb, insertFlight]
  have hv : bufV (buffer c (sentS w0 d r v)) = [] := by rw [bufV, hbuf]; rfl
  simp only [closeWindow, drain, hp, List.foldl_cons, List.foldl_nil, hv, hbuf, commitOne_sentS _ _ _ _ hr, roomFor, newLines,
    List.filter_nil, List.dedup_nil, List.length_nil, true_or, if_true]
  rfl

/-- The event counts of an issue: instructions, and launches started (R158). -/
def counted (w : W) (p : Nat) (started : Bool) : W :=
  if started then bumpCore (bumpCore w p 0 1) p 3 1 else bumpCore w p 0 1

@[simp] theorem counted_flights (w : W) (p : Nat) (b : Bool) : (counted w p b).flights = w.flights := by cases b <;> rfl

theorem counted_withFlights (w : W) (n : Nat) (fs : List Flight) (p : Nat) (b : Bool) :
    { counted { w with nextFlight := n, flights := fs } p b with flights := w.flights } = counted { w with nextFlight := n } p b := by
  cases b <;> rfl

/-- The course after its lanes are charged and its turn and age are settled. -/
def aged (w : W) (c : Course) (x : Sel) (back : Bool) : Course :=
  { settleTurn (chargeLanes c x.x) x true back with
    k := { (settleTurn (chargeLanes c x.x) x true back).k with age := w.now + 1 } }

theorem done_marker (e : Env) (w : W) (c : Course) (x : Sel) (back : Bool) :
    done e w c x true back =
      finish e (closeWindow e (counted w (pcnOf w (aged w c x back).v.hcore) x.started) (aged w c x back)).1
        (closeWindow e (counted w (pcnOf w (aged w c x back).v.hcore) x.started) (aged w c x back)).2 := rfl

theorem aged_putS (w : W) (c : Course) (x : Sel) (back : Bool) (r : Nat) (v : Word) :
    aged w (putS c r v) x back = putS (aged w c x back) r v := by
  unfold aged
  rw [chargeLanes_putS]
  rfl

theorem aged_buf (w : W) (c : Course) (x : Sel) (back : Bool) : (aged w c x back).w.buf = c.w.buf := by
  obtain ⟨hs, -, -⟩ := chargeLanes_spec c x.x
  simp only [aged, settleTurn]
  rw [hs]

theorem sameTag_aged (w : W) (c : Course) (x : Sel) (back : Bool) (f : Flight) : sameTag (aged w c x back) f = sameTag c f := by
  obtain ⟨hs, -, -⟩ := chargeLanes_spec c x.x
  simp only [aged, settleTurn, sameTag, quadOf]
  rw [hs]

theorem aged_withFlights (w : W) (n : Nat) (fs : List Flight) (c : Course) (x : Sel) (back : Bool) :
    aged { w with nextFlight := n, flights := fs } c x back = aged w c x back := rfl

theorem pcnOf_withFlights (w : W) (n : Nat) (fs : List Flight) (l : Nat) :
    pcnOf { w with nextFlight := n, flights := fs } l = pcnOf w l := rfl

/-- A switch marker on the instruction that sends an S result: it ends as if the register had been written at once (R67). -/
theorem done_sentS (e : Env) (w : W) (c : Course) (x : Sel) (back : Bool) {r : Nat} (v : Word) (hr : r < 64) (hb : c.w.buf = [])
    (hfs : ∀ f ∈ w.flights, sameTag c f = false) :
    done e (launchS w c [(r, v)]) c x true back = done e { w with nextFlight := w.nextFlight + 1 } (putS c r v) x true back := by
  have hself : sameTag (aged w c x back) (sentS w c r v) = true := by rw [sameTag_aged]; simp [sameTag, sentS]
  have hothers : ∀ f ∈ w.flights, sameTag (aged w c x back) f = false := fun f hf => (sameTag_aged _ _ _ _ _).trans (hfs f hf)
  have hbuf : (aged w c x back).w.buf = [] := (aged_buf _ _ _ _).trans hb
  rw [done_marker, done_marker, launchS_one]
  simp only [aged_withFlights, pcnOf_withFlights, aged_putS]
  rw [closeWindow_sentS e v hr hbuf (counted_flights _ _ _) hself hothers, counted_withFlights,
    closeWindow_quiet (c := putS (aged w c x back) r v) hbuf (by rw [counted_flights]; exact hothers)]
  rfl

/-- A course that sent an S result: one entry of the window taken, the lanes of X at the next instruction. -/
def senderOf (x : Sel) : Course := advance (takeEntries x.c 1) x.x 4

end Sys2Proof.Machine

namespace Sys2Proof.Claims

open Sys2Proof.Machine

/-- What an instruction leaves that sends one S result and ends: the result under way, or landed by a switch marker (R67). -/
theorem sendS_spec {s : State} {x : Sel} {F : Env → W → W} {sw : Bool} {r n : Nat} {v : Word} (hI : Issues s x) (hQ : Quiet s x sw)
    (hr : r < 64) (hv : v.toNat = n % 2 ^ 32)
    (hF : F s.env s.w = done s.env (launchS s.w (senderOf x) [(r, v)]) (senderOf x) x sw false) :
    ∃ c', Ran s (commit F s) x c' ∧ Still s (commit F s) ∧ Advanced x c' 4 ∧ SentS s (commit F s) x c' sw [r] n := by
  have hlpc : ∀ c' : Course, c'.r.lpc = (senderOf x).r.lpc → Advanced x c' 4 := by
    intro c' hl k hk
    have : lpc c' k = lpc (senderOf x) k := by simp only [lpc, hl]
    rw [this, senderOf, lpc_advance _ _ _ hk]
    rfl
  cases sw with
  | false =>
    obtain ⟨c', h1, h2, h3, h4, h5, h6, h7, -⟩ := finish_still hI hF rfl rfl (hI.live_ne rfl) (fun _ _ => rfl) (Or.inl rfl)
    refine ⟨c', h1, h2, hlpc c' (congrArg (·.lpc) h5), ?_⟩
    simp only [SentS, Bool.false_eq_true, if_false]
    refine ⟨keeps_of h4 h5 h6 (fun _ _ => ⟨getV_congr rfl _, poisV_congr rfl _⟩) (fun _ _ _ => rfl) (fun _ _ _ => rfl)
      (fun _ _ _ => rfl) rfl rfl rfl rfl (fun _ _ _ _ _ => rfl), h6.flags, by rw [h7 rfl]; rfl, [sentS s.w (senderOf x) r v], h3, rfl, ?_⟩
    rintro f i hfi
    obtain ⟨rfl, rfl⟩ : f = sentS s.w (senderOf x) r v ∧ i = 0 := by simpa using hfi
    exact ⟨rfl, rfl, rfl, rfl, rfl, rfl, rfl, by simpa [sentS, laneOf] using hv⟩
  | true =>
    obtain ⟨hb, hf⟩ := hQ.resolve_left (by simp)
    rw [done_sentS s.env s.w (senderOf x) x false v hr hb hf] at hF
    obtain ⟨c', h1, h2, h3, h4, h5, h6, -, h7⟩ := finish_still hI hF rfl rfl (hI.live_ne rfl) (fun _ _ => rfl) (Or.inr ⟨hb, hf⟩)
    obtain ⟨hu, hb'⟩ := h7 rfl
    have hs : ∀ j, j < 64 → getS c' j = if j = r then v else getS x.c j := by
      intro j hj
      have : getS c' j = getS (putS (senderOf x) r v) j := by simp only [getS]; rw [h5]
      rw [this, getS_putS _ _ _ _ hj]
      rfl
    refine ⟨c', h1, h2, hlpc c' (congrArg (·.lpc) h5), ?_⟩
    simp only [SentS, if_true]
    refine ⟨keeps_of h4 h5 h6 (fun _ _ => ⟨getV_congr rfl _, poisV_congr rfl _⟩) (fun j hj hn => ?_) (fun _ _ _ => rfl)
      (fun _ _ _ => rfl) rfl rfl rfl rfl (fun _ _ _ _ _ => rfl), h6.flags, hu, hb', h3, ?_⟩
    · rw [getS_putS _ _ _ _ hj, if_neg (by simpa using hn)]
      rfl
    · rintro j i hji
      obtain ⟨rfl, rfl⟩ : j = r ∧ i = 0 := by simpa using hji
      rw [hs j hr, if_pos rfl]
      simpa using hv

/-- An instruction that samples a value and sends it: what it leaves once its checks pass. -/
theorem sample_spec {s : State} {x : Sel} {i : Instr} {h : Hd} {u : Uses} {chk : W → Course → Option Nat} {f : Meaning} {r n : Nat}
    {v : Word} (he : exec i s = runIssue (uniformC h u chk f) s)
    (hf : f s.env s.w x = done s.env (launchS s.w (senderOf x) [(r, v)]) (senderOf x) x h.sw false)
    (hI : Issues s x) (hC : Clear s x (uniUses h u) x.x) (hQ : Quiet s x h.sw) (hg : guardOn x.c h = true) (hk : chk s.w x.c = none)
    (hr : r < 64) (hv : v.toNat = n % 2 ^ 32) :
    ∃ t c', exec i s = .next t ∧ Ran s t x c' ∧ Still s t ∧ Advanced x c' 4 ∧ SentS s t x c' h.sw [r] n := by
  have hC' : Clear s x (uniReads x.c h u) x.x := by rw [uniReads, if_pos hg]; exact hC
  obtain ⟨c', hc⟩ := sendS_spec (F := fun e w => uniformC h u chk f e w x) hI hQ hr hv ((uniformC_run hC' hQ hg hk).trans hf)
  exact ⟨_, c', he.trans (runIssue_next _ hI), hc⟩

/-! ## What the sampling instructions read (R54 to R56, R161, R277, R312) -/

theorem mixCheck_oneOwner {w : W} {c : Course} (h : OneOwner c) : mixCheck w c = none := by
  have h' : manyOwners c = false := h
  simp [mixCheck, h']

theorem tlCheck_valid {w : W} {c : Course} {t : Fin 4} (h : (getTL c t.val).getLsbD 10 = true) : tlCheck t w c = none := by
  have : tlValid (getTL c t.val) = true := by
    simp only [tlValid, bvF, bitsAt, pow_one, beq_iff_eq]
    rw [BitVec.getLsbD, Nat.testBit_eq_decide_div_mod_eq] at h
    simpa using h
  simp [tlCheck, this]

/-- The counter that a TL handle names is the one at its place. -/
theorem tlc_tlPlace (s : State) (c : Course) (t : Nat) :
    tlc s.w (tlPlace s.w c (getTL c t)).1 (tlPlace s.w c (getTL c t)).2 = tlOf s c t := rfl

theorem unlessAway_near {e : Env} {s : State} {x : Sel} {t n : Nat} {f : W → W} (h : CounterNear s x.c t) :
    unlessAway e s.w x n (tlPlace s.w x.c (getTL x.c t)).1 f = f s.w := by
  have h' : coreAway s.w (pcnOf s.w x.c.v.hcore) (tlPlace s.w x.c (getTL x.c t)).1 = false := h
  simp [unlessAway, h']

theorem isIssued_iff (t : Tlc) (n : Word) : t.isIssued n = true ↔ issuedRel t n := by simp [Tlc.isIssued, issuedRel]

/-- ENGST's status: 2 for a number not issued or too old, else the status that stands for the number (R312). -/
theorem status_of (t : Tlc) (n : Word) :
    (¬ issuedRel t n → (t.status n).toNat = 2) ∧
    (issuedRel t n → n ≠ 0 → (∀ v, (n, v) ∉ t.stat) → (t.status n).toNat = 2) ∧
    ∀ v, issuedRel t n → (n, v) ∈ t.stat → (∀ v', (n, v') ∈ t.stat → v' = v) → (t.status n).toNat = v.toNat := by
  have notIssued : ¬ issuedRel t n → t.isIssued n = false := fun h => by rw [← isIssued_iff] at h; simpa using h
  refine ⟨fun h => ?_, fun h h0 hn => ?_, fun v h hv hu => ?_⟩
  · simp [Tlc.status, notIssued h]
  · have hf : t.stat.find? (fun (m, _) => m == n) = none := by
      rw [List.find?_eq_none]
      rintro ⟨m, v⟩ hm hmn
      exact hn v (by rw [← beq_iff_eq.mp hmn]; exact hm)
    have h0' : n ≠ 0#32 := h0
    simp [Tlc.status, (isIssued_iff t n).mpr h, hf, h0']
  · cases hf : t.stat.find? (fun (m, _) => m == n) with
    | none => exact absurd (List.find?_eq_none.mp hf _ hv) (by simp)
    | some y =>
      obtain ⟨m, v'⟩ := y
      have hm : m = n := by simpa using List.find?_some hf
      subst hm
      have hv' : v' = v := hu v' (List.mem_of_find?_eq_some hf)
      simp [Tlc.status, (isIssued_iff t m).mpr h, hf, hv']

theorem srAssigned_iff (n : Nat) : srAssigned n = true ↔ Assigned n := by
  simp [srAssigned, Assigned, or_assoc, and_assoc]

/-- An owner-slot register is the field of its slot (R52, R55). -/
theorem slotReg_field (c : Course) (n f : Nat) (h : f ≤ 8) : slotReg c n f = slotF c n (slotField f).1 (slotField f).2 := by
  interval_cases f <;> rfl

/-- What MFSR samples is the register's value (R55). -/
theorem srValue_sysReg (s : State) (c : Course) {n : Nat} (h : Assigned n) : srValue s.env s.w c n = sysReg s c n := by
  rcases h with h | ⟨h1, h2, h3⟩ | ⟨h1, h2⟩ | ⟨h1, h2⟩
  · have e : cstat c = c.id.priv.toNat + 2 * c.id.mixed.toNat + 4 * c.v.hquad + 16 * c.k.slot + 512 * c.v.hcore := by
      simp only [cstat]; ring
    interval_cases n
    · rfl
    · exact e
    all_goals rfl
  · have hs : srIsSlot n = true := by simp [srIsSlot, h1, h2]
    have hn : ¬ 0x500 ≤ n ∧ n ≠ 0x400 ∧ n ≠ 0x401 ∧ n ≠ 0x402 ∧ n ≠ 0x403 ∧ n ≠ 0x404 ∧ n ≠ 0x405 ∧ n ≠ 0x406 := by omega
    simp only [srValue, hs, if_true, sysReg, hn, if_false, h1]
    exact slotReg_field _ _ _ h3
  · interval_cases n <;> rfl
  · have hs : srIsSlot n = false := by simp [srIsSlot]; omega
    simp only [srValue, sysReg, hs, h1, if_true, Bool.false_eq_true, if_false]
    rfl

/-- A register that the course may touch raises no MIXUNI (R56). -/
theorem srMixed_allowed {c : Course} {n : Nat} (h : SlotAllowed c n) : srMixed c n = false := by
  by_contra hm
  simp only [srMixed, srIsSlot, Bool.not_eq_false, Bool.and_eq_true, decide_eq_true_eq, Bool.not_eq_true', List.any_eq_true, bne_iff_ne] at hm
  obtain ⟨⟨⟨h1, h2⟩, hp⟩, k, hk, hne⟩ := hm
  rcases h h1 h2 with hp' | hall
  · rw [hp] at hp'; cases hp'
  · have hk' := mem_mLanes.mp hk
    have hst : laneSt c k = 1 ∨ laneSt c k = 2 := by
      simpa [liveParked, mHas_lt hk'] using hk'
    exact hne (hall k (mHas_lt hk') hst)

theorem mfsrCheck_may {w : W} {c : Course} {n : Nat} (h : SlotAllowed c n)
    (hp : n = 3 ∨ (0x400 ≤ n ∧ n ≤ 0x403) → c.id.priv = true) : mfsrCheck n w c = none := by
  unfold mfsrCheck
  rw [if_neg, srMixed_allowed h]
  · rfl
  · rintro ⟨h1, h2⟩
    simp [hp h2] at h1

theorem loW_toNat (n : Nat) : (loW n).toNat = n % 2 ^ 32 := BitVec.toNat_ofNat _ _
theorem hiW_toNat (n : Nat) : (hiW n).toNat = n / 2 ^ 32 % 2 ^ 32 := BitVec.toNat_ofNat _ _

theorem uniformReadsHold : UniformReadsHold := by
  intro i row hrow s x hI hC hQ hg hmay hnear
  unfold readRow at hrow
  split at hrow <;> cases hrow
  case h_1 h d a l =>
    obtain ⟨t, c', he, hran, hstill, hadv, hsent⟩ := sample_spec (i := .vtos h d a l) (n := (vAt x.c a l.val).toNat) rfl rfl
      hI hC hQ hg (mixCheck_oneOwner hmay) d.isLt (Nat.mod_eq_of_lt (BitVec.isLt _)).symm
    exact ⟨t, c', _, he, hran, hstill, hadv, rfl, hsent⟩
  case h_2 h d tl =>
    obtain ⟨t, c', he, hran, hstill, hadv, hsent⟩ := sample_spec (i := .tlread h d tl) (n := (tlOf s x.c tl.val).done.toNat) rfl
      (unlessAway_near hnear) hI hC hQ hg (tlCheck_valid hmay) d.isLt (Nat.mod_eq_of_lt (BitVec.isLt _)).symm
    exact ⟨t, c', _, he, hran, hstill, hadv, rfl, hsent⟩
  case h_3 h d a tl =>
    obtain ⟨t, c', he, hran, hstill, hadv, hsent⟩ := sample_spec (i := .engst h d a tl)
      (n := ((tlOf s x.c tl.val).status (getS x.c a.val)).toNat) rfl
      (unlessAway_near hnear) hI hC hQ hg (tlCheck_valid hmay) d.isLt (Nat.mod_eq_of_lt (BitVec.isLt _)).symm
    exact ⟨t, c', _, he, hran, hstill, hadv, status_of _ _, hsent⟩
  case h_4 h hi d i =>
    obtain ⟨ha, hs, hp⟩ := hmay
    have he : exec (.mfsr h hi d i) s = runIssue (uniformC h { Uses.none with entries := 1, sect := srSect i.val } (mfsrCheck i.val)
        fun e w s => done e (launchS w (senderOf s) [(d.val, if hi then hiW (srValue e w s.c i.val) else loW (srValue e w s.c i.val))])
          (senderOf s) s h.sw false) s := by
      simp only [exec, execMfsr, (srAssigned_iff _).mpr ha, Bool.not_true, Bool.false_eq_true, if_false]
      rfl
    have hv : (if hi then hiW (srValue s.env s.w x.c i.val) else loW (srValue s.env s.w x.c i.val)).toNat =
        (if hi then sysReg s x.c i.val / 2 ^ 32 % 2 ^ 32 else sysReg s x.c i.val % 2 ^ 32) % 2 ^ 32 := by
      rw [srValue_sysReg s x.c ha]
      cases hi
      · exact (loW_toNat _).trans (Nat.mod_mod _ _).symm
      · exact (hiW_toNat _).trans (Nat.mod_mod _ _).symm
    obtain ⟨t, c', he', hran, hstill, hadv, hsent⟩ := sample_spec he rfl hI hC hQ hg (mfsrCheck_may hs hp) (by omega) hv
    exact ⟨t, c', _, he', hran, hstill, hadv, rfl, hsent⟩

/-! ## MTSR (R54 to R56, R289) -/

theorem halfSet_halved (old : Nat) (hi : Bool) (v : Word) : halfSet old hi v = halved old hi v := by
  have hv := v.isLt
  cases hi <;> simp only [halfSet, halved, setBits, Bool.false_eq_true, if_true, if_false] <;> omega

/-- MTSR's half-write of the field of an owner-slot register: FLAGS to ARGLIM are written, the others keep their value (R52, R55). -/
theorem slotWrite_eq (c : Course) (n f : Nat) (hi : Bool) (v : Word) :
    slotWrite c n f hi v = if 1 ≤ f ∧ f ≤ 7 then setSlotF c n (slotField f).1 (slotField f).2
      (halved (slotF c n (slotField f).1 (slotField f).2) hi v) else c := by
  by_cases h : 1 ≤ f ∧ f ≤ 7
  · rw [if_pos h, ← halfSet_halved, ← slotReg_field _ _ _ (by omega)]
    obtain ⟨h1, h2⟩ := h
    interval_cases f <;> rfl
  · rw [if_neg h]
    obtain rfl | hf : f = 0 ∨ 8 ≤ f := by omega
    · rfl
    · obtain ⟨k, rfl⟩ := Nat.exists_eq_add_of_le' hf
      rfl

/-- The course after MTSR's write. -/
def mtsrCourse (c : Course) (i : Nat) (hi : Bool) (v : Word) : Course :=
  if srIsSlot i then slotWrite c ((i - 0x100) / 16) (i % 16) hi v else c

theorem mtsrCourse_eq (c : Course) (i : Nat) (hi : Bool) (v : Word) :
    mtsrCourse c i hi v =
      if 0x100 ≤ i ∧ i < 0x180 ∧ 1 ≤ i % 16 ∧ i % 16 ≤ 7 then
        setSlotF c ((i - 0x100) / 16) (slotField (i % 16)).1 (slotField (i % 16)).2
          (halved (slotF c ((i - 0x100) / 16) (slotField (i % 16)).1 (slotField (i % 16)).2) hi v)
      else c := by
  simp only [mtsrCourse, srIsSlot, slotWrite_eq, Bool.and_eq_true, decide_eq_true_eq, ← ite_and, and_assoc]

/-- A field of an owner slot that MTSR writes ends below LANECYC (R52). -/
theorem slotField_below {f : Nat} (h1 : 1 ≤ f) (h7 : f ≤ 7) : (slotField f).1 + (slotField f).2 ≤ 448 := by
  interval_cases f <;> decide

/-- MTSR changes slots alone. -/
theorem mtsrCourse_slots (c : Course) (i : Nat) (hi : Bool) (v : Word) :
    mtsrCourse c i hi v = { c with r := { c.r with slots := (mtsrCourse c i hi v).r.slots } } := by
  rw [mtsrCourse_eq]
  split <;> rfl

/-- The bits of the slots after MTSR's write. -/
theorem slotBits_mtsrCourse (c : Course) (i : Nat) (hi : Bool) (v : Word) {m j : Nat} (hm : m < 8) (hj : j < 512) :
    (slotBits (mtsrCourse c i hi v) m).getLsbD j =
      if (0x100 ≤ i ∧ i < 0x180 ∧ 1 ≤ i % 16 ∧ i % 16 ≤ 7) ∧ m = (i - 0x100) / 16 ∧
          (slotField (i % 16)).1 ≤ j ∧ j < (slotField (i % 16)).1 + (slotField (i % 16)).2 then
        (halved (slotF c ((i - 0x100) / 16) (slotField (i % 16)).1 (slotField (i % 16)).2) hi v).testBit (j - (slotField (i % 16)).1)
      else (slotBits c m).getLsbD j := by
  rw [mtsrCourse_eq]
  by_cases hw : 0x100 ≤ i ∧ i < 0x180 ∧ 1 ≤ i % 16 ∧ i % 16 ≤ 7
  · simp only [hw, if_true, and_self, true_and]
    rw [slotBits_setSlotF _ _ _ _ _ hm]
    by_cases he : m = (i - 0x100) / 16
    · rw [if_pos he, bvSet_getLsbD, if_pos hj, he]
      simp only [true_and]
    · simp only [he, if_false, false_and]
  · simp only [hw, if_false, false_and]

theorem slotLanecyc_mtsrCourse (c : Course) (i : Nat) (hi : Bool) (v : Word) {n : Nat} (hn : n < 8) :
    slotLanecyc (mtsrCourse c i hi v) n = slotLanecyc c n := by
  refine bvF_congr fun j h1 h2 => ?_
  rw [slotBits_mtsrCourse _ _ _ _ hn (by omega), if_neg]
  rintro ⟨⟨-, -, h3, h4⟩, -, -, h5⟩
  have := slotField_below h3 h4
  omega

theorem partWrite_other (e : Env) (w : W) (p : Nat) {n : Nat} (hi : Bool) (v : Word) (h : ¬ (0x400 ≤ n ∧ n ≤ 0x402)) :
    partWrite e w p n hi v = w := by
  unfold partWrite
  split
  · omega
  · omega
  · omega
  · rfl

/-- The register may be written: no check of R56 stops MTSR. -/
theorem mtsrCheck_may {w : W} {c : Course} {n a : Nat} {hi : Bool} (hs : SlotAllowed c n) (hq : ¬ (0x400 ≤ n ∧ n ≤ 0x402))
    (hp : 0x100 ≤ n → n < 0x180 → 2 ≤ n % 16 → n % 16 ≤ 7 → c.id.priv = true) : mtsrCheck n hi a w c = none := by
  have h1 : n ≠ 0x402 := by omega
  have h2 : ¬ (srRwp n = true ∧ (!c.id.priv) = true) := by
    rintro ⟨hr, hu⟩
    simp only [srRwp, srIsSlot, Bool.or_eq_true, Bool.and_eq_true, decide_eq_true_eq] at hr
    have := hp (by omega) (by omega) (by omega) (by omega)
    simp [this] at hu
  simp only [mtsrCheck, h1, false_and, if_false, srMixed_allowed hs, Bool.false_eq_true, h2]

/-- MTSR of a register of its own course, which is none of the fault queue's: a half-write and the advance of X (R289). -/
theorem exec_mtsr (s : State) (h : Hd) (hi : Bool) (a : Fin 32) (i : Fin 16384) (ha : Assigned i.val)
    (hq : ¬ (0x400 ≤ i.val ∧ i.val ≤ 0x402)) :
    exec (.mtsr h hi a i) s = runIssue (uniformC h { Uses.none with s := [a.val] } (mtsrCheck i.val hi a.val)
      fun e w y => done e w (mtsrCourse (advance y.c y.x 4) i.val hi (getS y.c a.val)) y h.sw false) s := by
  simp only [exec, execMtsr, (srAssigned_iff _).mpr ha, Bool.not_true, Bool.false_eq_true, if_false, mtsrCourse,
    partWrite_other _ _ _ _ _ hq]
  congr 2
  funext e w y
  split <;> rfl

theorem systemRegisterWritesHold : SystemRegisterWritesHold := by
  intro h hi a i s x hI hC hQ hg ha hs hq hp n f writes
  set d := mtsrCourse (advance x.c x.x 4) i.val hi (getS x.c a.val) with hd
  have hds : d = { advance x.c x.x 4 with r := { (advance x.c x.x 4).r with slots := d.r.slots } } := mtsrCourse_slots _ _ _ _
  have hC' : Clear s x (uniReads x.c h { Uses.none with s := [a.val] }) x.x := by rw [uniReads, if_pos hg]; exact hC
  have hF := uniformC_run (chk := mtsrCheck i.val hi a.val) (e := s.env)
      (f := fun e w y => done e w (mtsrCourse (advance y.c y.x 4) i.val hi (getS y.c a.val)) y h.sw false)
      hC' hQ hg (mtsrCheck_may hs hq hp)
  obtain ⟨c', h1, h2, h3, h4, h5, h6, -⟩ := finish_still hI (F := fun e w => uniformC h { Uses.none with s := [a.val] } (mtsrCheck i.val hi a.val)
      (fun e w y => done e w (mtsrCourse (advance y.c y.x 4) i.val hi (getS y.c a.val)) y h.sw false) e w x) (c := d) hF rfl
      (by rw [hds]; rfl) (hI.live_ne (by rw [hds]; rfl))
      (fun n hn => slotLanecyc_mtsrCourse _ _ _ _ hn) (hQ.of (by rw [hds]; rfl) (by rw [hds]; rfl) (by rw [hds]; rfl) (by rw [hds]; rfl))
  have hr : c'.r = { x.c.r with lpc := (advance x.c x.x 4).r.lpc, slots := c'.r.slots } := by rw [h5, hds]; rfl
  have hv : c'.v = x.c.v := by rw [h4, hds]; rfl
  refine ⟨_, c', (exec_mtsr s h hi a i ha hq).trans (runIssue_next _ hI), h1, h2, h3, fun k hk => ?_, ?_, fun m hm j hj => ?_⟩
  · have : lpc c' k = lpc (advance x.c x.x 4) k := by simp only [lpc]; rw [hr]
    rw [this, lpc_advance _ _ _ hk]
  · exact ⟨fun r _ => ⟨getV_congr hv r, poisV_congr hv r⟩, fun r _ _ => by simp only [getS]; rw [hr],
      fun r _ _ => by simp only [getP]; rw [hr], fun r _ _ => by simp only [getQ]; rw [hr], by rw [hr], by rw [hr], by rw [hr], by rw [hr],
      fun _ _ _ _ _ => rfl⟩
  · rw [h6 m hm j hj]
    exact slotBits_mtsrCourse _ _ _ _ hm (by omega)

/-- Settles O10: what is sampled is a deferred result, and MTSR is one half-write of a slot's field. -/
theorem systemRegisters : Obligations.SystemRegisters := ⟨uniformReadsHold, systemRegisterWritesHold⟩

end Sys2Proof.Claims
end

section
/-! The context port reads across a frame that waits for its scrub (R73, R109): O43 fails where a cached translation does not stand at a
page of physical addresses. -/

namespace Sys2Proof.Claims

open Sys2Proof.Machine Sys2Proof.Tests

/-- A TLB entry for the page of course 1's control area whose physical base is the last byte of 2 MiB frame 0: nothing in `State.Inv` says
that an entry's base is a multiple of 4 KiB. -/
def strayEntry : TlbEnt := ⟨0, 0, (frameAt 1 + 0x2000) / 4096, 0, 4096, 2, 0, 2, 2 ^ 21 - 1, 4096⟩

/-- Courses 0 and 1 parked, the stray entry in the TLBs, frame 1 of the partition waiting for its scrub, and a byte 1 at its start. -/
def strayS : State :=
  { demo with
    mem := poke demo.mem (2 ^ 21) 1 1
    w := { demo.w with
      tlb := [strayEntry], scrub := [(0, 1)], courses := [(0, course), (1, served id)]
      sec := { demo.w.sec with cipher := [(0x1FFFF, ⟨1, 0, 0, frameAt 1 + 0x2000⟩), (0x20000, ⟨1, 0, 0, frameAt 1 + 0x2000⟩)] } } }

/-- What a step answers on the port: the newest reply. -/
def answerOf : Host.Outcome State Fault Refusal → Option Reply
  | .next t => t.w.replies.head?
  | _ => none

theorem strayS_inv : strayS.Inv := inv_of (by decide +kernel)

theorem strayS_frame : FrameSpot strayS (served id) 0x2000 2 .read 0 (2 ^ 21 - 1) (2 ^ 21 - 1) := frame_of (by decide +kernel)

/-- The port answers zero for the second byte: it lies in the frame that waits for its scrub. -/
theorem strayS_answer : answerOf (exec (.contextPortRead none 1 0x2000 2) strayS) = some (.data [0, 0]) := by decide +kernel

theorem strayS_bytes : bytesAt strayS.mem 0 (2 ^ 21 - 1) 2 = [0, 1] := by decide +kernel

/-- Refutes O43: the claim for reads of the control area asks only that the first place is not being scrubbed. A TLB entry whose base is no
multiple of 4 KiB, which `State.Inv` does not exclude, lets a read within one page reach a second frame; where that one waits for its scrub
the port answers 0 (R109) while memory holds 1. -/
theorem not_contextPort : ¬ Obligations.ContextPort := by
  intro h
  obtain ⟨-, hport⟩ := h none 1 0x2000 strayS (served id) strayS_inv (by decide +kernel) (by decide +kernel)
  obtain ⟨hread, -⟩ := hport (by decide +kernel) (Or.inl (by decide +kernel))
  obtain ⟨hctl, -, -⟩ := hread 2 0 _ _ (by decide +kernel) (by decide) strayS_frame
  obtain ⟨t, he, ht⟩ := hctl (by decide +kernel) (by decide) (by decide)
  have ha := strayS_answer
  rw [he, ht, strayS_bytes] at ha
  simp [answerOf, Replied] at ha

end Sys2Proof.Claims
end

section
/-! Hub requests that change worlds, ports and tables (R83, R153, R159, R187, R191, R192, R195 to R198). -/

namespace Sys2Proof.Machine

/-! Entries of tables read after an update. -/

theorem fn_updFn (w : W) (n m : Nat) (f : Fn → Fn) : fn (updFn w n f) m = if m = n then f (fn w n) else fn w m := by
  simp [fn, updFn, tGetD_tPut]

theorem part_updPart (w : W) (n m : Nat) (f : Part → Part) : part (updPart w n f) m = if m = n then f (part w n) else part w m := by
  simp [part, updPart, tGetD_tPut]

theorem quad_updQuad (w : W) (n m : Nat) (f : Quad → Quad) : quad (updQuad w n f) m = if m = n then f (quad w n) else quad w m := by
  simp [quad, updQuad, tGetD_tPut]

theorem tile_updTile (w : W) (n m : Nat) (f : Tile → Tile) : tile (updTile w n f) m = if m = n then f (tile w n) else tile w m := by
  simp [tile, updTile, tGetD_tPut]

/-! The mailbox (R190, R192). -/

theorem mailbox_refused {e : Env} {w : W} {n code : Nat} {from_ : W → Bool} {r : Request} (ha : asks w n code = true)
    (hf : from_ w = true) (hr : r e w = none) : mailbox n code from_ r e w = finishReq w n 1 0 := by
  simp [mailbox, ha, hf, hr]

theorem mailbox_done {e : Env} {w w' : W} {n code x : Nat} {from_ : W → Bool} {r : Request} (ha : asks w n code = true)
    (hf : from_ w = true) (hr : r e w = some (w', x)) : mailbox n code from_ r e w = finishReq w' n 0 x := by
  simp [mailbox, ha, hf, hr]

/-- A step that gathers no write and leaves none gathered leaves memory alone. -/
theorem commit_quiet {s : State} {F : Env → W → W} {w : W} (hF : F s.env s.w = w) (hw : w.wb = []) :
    commit F s = { s with w := w } := by
  have hF' : F ⟨s.fix, s.mem⟩ s.w = w := hF
  simp only [commit, hF', hw, flush]
  rw [← hw]

end Sys2Proof.Machine

namespace Sys2Proof.Claims

open Sys2Proof.Machine

theorem asks_of {s : State} {n code : Nat} (h : Asked s n code) : asks s.w n code = true := by
  simp [asks, h.1, h.2]

theorem fromPart_of {s : State} {n : Nat} (h : OfPart s n) : fromPart n s.w = true := by
  obtain ⟨h0, hb, hl⟩ := h
  simp [fromPart, h0, hb, hl]

theorem isLive_iff (s : State) (p : Nat) : isLive s.w p = true ↔ Live s p := by simp [isLive, Live]

theorem fn_finishReq (w : W) (n st x m : Nat) : fn (finishReq w n st x) m = if m = n then finished (fn w n) st x else fn w m :=
  fn_updFn _ _ _ _

/-- A step of which functions alone come out changed. -/
theorem fnIs_commit {s : State} {F : Env → W → W} {w : W} {n : Nat} {f : Fn} (hs : s.Inv) (hF : F s.env s.w = w)
    (hw : w = { s.w with fns := w.fns }) (here : fn w n = f) (others : ∀ m, m ≠ n → fn w m = fn s.w m) : FnIs s (commit F s) n f := by
  rw [commit_quiet hF (by rw [hw]; exact hs.wb)]
  exact ⟨here, others, congrArg (fun v => { s with w := v }) hw⟩

/-- A step of which functions and partitions alone come out changed. -/
theorem partIs_commit {s : State} {F : Env → W → W} {w : W} {n p : Nat} {f : Fn} {q : Part} (hs : s.Inv) (hF : F s.env s.w = w)
    (hw : w = { s.w with fns := w.fns, parts := w.parts }) (here : fn w n = f) (others : ∀ m, m ≠ n → fn w m = fn s.w m)
    (changed : part w p = q) (parts : ∀ m, m ≠ p → part w m = part s.w m) : PartIs s (commit F s) n f p q := by
  rw [commit_quiet hF (by rw [hw]; exact hs.wb)]
  exact ⟨here, others, changed, parts, congrArg (fun v => { s with w := v }) hw⟩

/-- A request that its rules refuse. -/
theorem denied_of {s : State} {i : Instr} {n code : Nat} {from_ : W → Bool} {r : Request} (hs : s.Inv)
    (hi : exec i s = event (mailbox n code from_ r) s) (ha : Asked s n code) (hf : from_ s.w = true) (hr : r s.env s.w = none) :
    ∃ t, exec i s = .next t ∧ Denied s t n :=
  ⟨_, hi, fnIs_commit hs (mailbox_refused (asks_of ha) hf hr) rfl (by rw [fn_finishReq, if_pos rfl])
    fun m hm => by rw [fn_finishReq, if_neg hm]⟩

/-- A request granted that changes a partition. -/
theorem partRequest_of {s : State} {i : Instr} {n code p : Nat} {from_ : W → Bool} {r : Request} {g : Part → Part} (hs : s.Inv)
    (hi : exec i s = event (mailbox n code from_ r) s) (ha : Asked s n code) (hf : from_ s.w = true)
    (hr : r s.env s.w = some (updPart s.w p g, 0)) :
    ∃ t, exec i s = .next t ∧ PartIs s t n (finished (fn s.w n) 0 0) p (g (part s.w p)) :=
  ⟨_, hi, partIs_commit hs (mailbox_done (asks_of ha) hf hr) rfl (by rw [fn_finishReq, if_pos rfl]; rfl)
    (fun m hm => by rw [fn_finishReq, if_neg hm]; rfl) (by show part (updPart s.w p g) p = _; rw [part_updPart, if_pos rfl])
    fun m hm => by show part (updPart s.w p g) m = _; rw [part_updPart, if_neg hm]⟩

/-! ## Ports, allow lists, handler consorts (R159, R167, R191) -/

/-- A world has a quadrant in a partition. -/
theorem worldIn_iff (s : State) (p wd : Nat) : worldIn s.w p wd = true ↔ WorldOf s p wd := by
  simp only [worldIn, worldQuads, WorldOf, List.any_eq_true, List.mem_range, Bool.and_eq_true, bne_iff_ne, ne_eq,
    List.filter_eq_nil_iff, beq_iff_eq, not_forall, not_not, exists_prop]
  constructor
  · rintro ⟨c, hc, hp, q, hq, h⟩
    exact ⟨c, q, hc, hq, hp, h⟩
  · rintro ⟨c, q, hc, hq, hp, h⟩
    exact ⟨c, hc, hp, q, hq, h⟩

theorem bindTagPort_spec {s : State} {n : FnNo} (k : Fin 64) (asid wd prio : Nat) (hs : s.Inv) (ha : Asked s n.val 0x06)
    (hp : OfPart s n.val) :
    let i := Instr.bindTagPort n k asid wd prio
    let f := fn s.w n.val
    let ok := asid < 2 ^ 16 ∧ wd < 16 ∧ prio < 8 ∧ WorldOf s f.part wd ∧ f.tdisp ≠ 1 ∧ f.tdisp ≠ 2
    (¬ ok → ∃ t, exec i s = .next t ∧ Denied s t n.val) ∧
    (ok → ∃ t, exec i s = .next t ∧
      FnIs s t n.val (finished { f with ports := tPut f.ports k.val ⟨asid, wd, prio, true⟩ } 0 0)) := by
  intro i f ok
  have hok : (2 ^ 16 ≤ asid ∨ 16 ≤ wd ∨ 8 ≤ prio ∨ !worldIn s.w f.part wd ∨ f.tdisp = 1 ∨ f.tdisp = 2) ↔ ¬ ok := by
    have hw : (!worldIn s.w f.part wd) = true ↔ ¬ WorldOf s f.part wd := by rw [← worldIn_iff]; simp
    rw [hw]
    simp only [ok, not_and_or, not_lt, not_not]
  refine ⟨fun h => denied_of hs rfl ha (fromPart_of hp) (if_pos (hok.mpr h)), fun h => ?_⟩
  refine ⟨_, rfl, fnIs_commit hs (mailbox_done (asks_of ha) (fromPart_of hp) (if_neg fun hc => hok.mp hc h)) rfl ?_ fun m hm => ?_⟩
  · rw [fn_finishReq, if_pos rfl, fn_updFn, if_pos rfl]
  · rw [fn_finishReq, if_neg hm, fn_updFn, if_neg hm]

theorem setAllowListEntry_spec {s : State} (p k : Nat) (e : Word) (hs : s.Inv) (ha : Asked s 0 0x07) :
    let i := Instr.setAllowListEntry 0 p k e
    (¬ (Live s p ∧ k < 256) → ∃ t, exec i s = .next t ∧ Denied s t 0) ∧
    (Live s p → k < 256 → ∃ t q, exec i s = .next t ∧ PartIs s t 0 (finished (fn s.w 0) 0 0) p q ∧
      q = { part s.w p with allow := q.allow } ∧ (tGetD q.allow k 0).toNat = e.toNat % 2 ^ 17 ∧
      ∀ m, m ≠ k → tGet? q.allow m = tGet? (part s.w p).allow m) := by
  intro i
  rw [← isLive_iff]
  refine ⟨fun h => denied_of hs rfl ha rfl (if_neg h), fun hl hk => ?_⟩
  obtain ⟨t, ht, hp⟩ := partRequest_of (i := i) (g := fun x => { x with allow := tPut x.allow k (e &&& 0x1FFFF) }) hs rfl ha rfl
    (if_pos ⟨hl, hk⟩)
  refine ⟨t, _, ht, hp, rfl, ?_, fun m hm => tGet?_tPut_other _ _ hm⟩
  rw [tGetD_tPut, if_pos rfl, BitVec.toNat_and]
  exact Nat.and_two_pow_sub_one_eq_mod e.toNat 17

theorem registerHandlerConsort_spec {s : State} {n : FnNo} (seq : BitVec 64) (hs : s.Inv) (hp : OfPart s n.val)
    (ha : Asked s n.val 0x0A) :
    ∃ t, exec (.registerHandlerConsort n seq) s = .next t ∧
      PartIs s t n.val (finished (fn s.w n.val) 0 0) (fn s.w n.val).part { part s.w (fn s.w n.val).part with handler := some seq } :=
  partRequest_of (g := fun x => { x with handler := some seq }) hs rfl ha (fromPart_of hp) rfl

/-! ## Appeals (R187) -/

/-- APPEAL written in the record of the neighbour in one direction. -/
def appealFacing (t : Nat) (on : Bool) (w : W) (d : Nat) : W :=
  match neighbour t d with
  | none => w
  | some n => updTile w n fun x =>
      { x with nb := x.nb.mapIdx fun i r => if i = (d + 2) % 4 then bvSet r 22 1 on.toNat else r }

theorem setAppeal_eq (w : W) (t : Nat) (on : Bool) : setAppeal w t on = (List.range 4).foldl (appealFacing t on) w := rfl

/-- Only tiles change. -/
theorem setAppeal_tiles (w : W) (t : Nat) (on : Bool) : setAppeal w t on = { w with tiles := (setAppeal w t on).tiles } := by
  have step : ∀ (l : List Nat) (w : W), l.foldl (appealFacing t on) w = { w with tiles := (l.foldl (appealFacing t on) w).tiles } := by
    intro l
    induction l with
    | nil => intro w; rfl
    | cons d l ih =>
      intro w
      have h : appealFacing t on w d = { w with tiles := (appealFacing t on w d).tiles } := by unfold appealFacing; split <;> rfl
      rw [List.foldl_cons, ih, h]
  exact step _ w

/-- The record that faces the tile from a direction holds APPEAL once that direction is written; other directions leave it. -/
theorem appealFacing_record {t d a m : Nat} {on : Bool} {w : W} (hd : d < 4) (ha : a < 4) (hm : neighbour t d = some m)
    (hl : (tile w m).nb.length = 4) :
    (tile (appealFacing t on w a) m).nb.length = 4 ∧
    (nth (tile (appealFacing t on w a) m).nb ((d + 2) % 4) 0).getLsbD 22 =
      if a = d then on else (nth (tile w m).nb ((d + 2) % 4) 0).getLsbD 22 := by
  have hi : (d + 2) % 4 < (tile w m).nb.length := by omega
  cases hn : neighbour t a with
  | none =>
    have hne : a ≠ d := by rintro rfl; rw [hm] at hn; cases hn
    simp [appealFacing, hn, hl, hne]
  | some n =>
    simp only [appealFacing, hn, tile_updTile]
    by_cases he : m = n
    · subst he
      simp only [if_true, List.length_mapIdx, hl, true_and, nth, List.getD_eq_getElem?_getD, List.getElem?_mapIdx]
      rw [List.getElem?_eq_getElem hi, Option.map_some, Option.getD_some, Option.getD_some]
      by_cases hda : a = d
      · subst hda
        rw [if_pos rfl, if_pos rfl, bvSet_getLsbD, if_pos (by omega), if_pos (by omega)]
        cases on <;> rfl
      · rw [if_neg (by omega), if_neg hda]
    · have hne : a ≠ d := by rintro rfl; rw [hm] at hn; exact he (Option.some.inj hn)
      simp [he, hl, hne]

theorem setAppeal_record {t d m : Nat} {on : Bool} {w : W} (hd : d < 4) (hm : neighbour t d = some m)
    (hl : (tile w m).nb.length = 4) : (nth (tile (setAppeal w t on) m).nb ((d + 2) % 4) 0).getLsbD 22 = on := by
  have fold : ∀ (l : List Nat) (w : W), (∀ a ∈ l, a < 4) → (tile w m).nb.length = 4 →
      (d ∈ l ∨ (nth (tile w m).nb ((d + 2) % 4) 0).getLsbD 22 = on) →
      (nth (tile (l.foldl (appealFacing t on) w) m).nb ((d + 2) % 4) 0).getLsbD 22 = on := by
    intro l
    induction l with
    | nil => intro w _ _ h; simpa using h
    | cons a l ih =>
      intro w hlt hl h
      obtain ⟨h1, h2⟩ := appealFacing_record (on := on) hd (hlt a (by simp)) hm hl
      refine ih _ (fun b hb => hlt b (by simp [hb])) h1 ?_
      rw [h2]
      by_cases had : a = d
      · simp [had]
      · have had' : d ≠ a := fun e => had e.symm
        simpa [had, had'] using h
  exact fold _ w (by simp) hl (Or.inl (by simpa using hd))

theorem appealPolicy_spec {s : State} (u : Fin 96) (on : Bool) (hs : s.Inv) (ha : Asked s 0 0x08) :
    ∃ t, exec (.appealPolicy 0 u on) s = .next t ∧ fn t.w 0 = finished (fn s.w 0) 0 0 ∧
      (u.val ∈ t.w.hub.appealOn ↔ on = true) ∧ (∀ v, v ≠ u.val → (v ∈ t.w.hub.appealOn ↔ v ∈ s.w.hub.appealOn)) ∧
      (u.val ∈ s.w.hub.reported → ∀ d m, d < 4 → neighbour u.val d = some m → (tile s.w m).nb.length = 4 →
        (nth (tile t.w m).nb ((d + 2) % 4) 0).getLsbD 22 = on) ∧
      (u.val ∉ s.w.hub.reported → t.w.tiles = s.w.tiles) := by
  set l := s.w.hub.appealOn.filter (· != u.val) with hl
  set w1 : W := { s.w with hub := { s.w.hub with appealOn := if on then u.val :: l else l } } with hw1
  set w2 : W := if s.w.hub.reported.contains u.val then setAppeal w1 u.val on else w1 with hw2
  have hF := mailbox_done (e := s.env) (from_ := fromPf 0) (r := fun _ w =>
    let l := w.hub.appealOn.filter (· != u.val)
    let w := { w with hub := { w.hub with appealOn := if on then u.val :: l else l } }
    some (if w.hub.reported.contains u.val then setAppeal w u.val on else w, 0)) (asks_of ha) rfl (w' := w2) (x := 0) rfl
  have hw2' : w2 = { w1 with tiles := w2.tiles } := by
    rw [hw2]
    split
    · exact setAppeal_tiles _ _ _
    · rfl
  have hfn : w2.fns = s.w.fns := by rw [hw2']
  have hwb : w2.wb = [] := by rw [hw2']; exact hs.wb
  have hon : ∀ v, v ∈ w2.hub.appealOn ↔ (v = u.val ∧ on = true) ∨ (v ≠ u.val ∧ v ∈ s.w.hub.appealOn) := by
    intro v
    have : w2.hub.appealOn = if on then u.val :: l else l := by rw [hw2']
    rw [this, hl]
    cases on <;> by_cases hv : v = u.val <;> simp [hv]
  refine ⟨{ s with w := finishReq w2 0 0 0 }, congrArg _ (commit_quiet hF hwb), ?_, ?_, fun v hv => ?_, fun hr d m hd hm hlen => ?_, fun hr => ?_⟩
  · rw [fn_finishReq, if_pos rfl]
    simp only [fn, hfn]
  · exact (hon u.val).trans (by simp)
  · exact (hon v).trans (by simp [hv])
  · have : w2 = setAppeal w1 u.val on := by rw [hw2, if_pos (by simpa using hr)]
    show (nth (tile w2 m).nb _ 0).getLsbD 22 = on
    rw [this]
    exact setAppeal_record hd hm hlen
  · have : w2 = w1 := by rw [hw2, if_neg (by simpa using hr)]
    show w2.tiles = _
    rw [this]

end Sys2Proof.Claims

namespace Sys2Proof.Machine

/-! Memory of a core cleared (R83). -/

/-- Bytes 0 written one after another: those keys read 0, every other as before. -/
theorem rdW_zeros (m : Memory) (g : Nat → Nat) (l : List Nat) : ∀ (w : W) (x : Nat),
    rdW m (l.foldl (fun w i => wrB w (g i) 0) w).wb x = if x ∈ l.map g then 0 else rdW m w.wb x := by
  induction l with
  | nil => intro w x; simp
  | cons a l ih =>
    intro w x
    rw [List.foldl_cons, ih]
    simp only [List.map_cons, List.mem_cons, wrB, rdW]
    by_cases h1 : x ∈ l.map g
    · rw [if_pos h1, if_pos (Or.inr h1)]
    · by_cases h2 : x = g a
      · rw [if_neg h1, if_pos h2.symm, if_pos (Or.inl h2)]
      · rw [if_neg h1, if_neg (Ne.symm h2), if_neg (by simp [h1, h2])]

theorem rdW_wrZeros (m : Memory) (w : W) (a n x : Nat) :
    rdW m (wrZeros w a n).wb x = if a ≤ x ∧ x < a + n then 0 else rdW m w.wb x := by
  have h : (x ∈ (List.range n).map fun i => a + (n - 1 - i)) ↔ a ≤ x ∧ x < a + n := by
    simp only [List.mem_map, List.mem_range]
    constructor
    · rintro ⟨i, hi, rfl⟩; omega
    · intro hx; exact ⟨n - 1 - (x - a), by omega, by omega⟩
  simp only [wrZeros, rdW_zeros, h]

theorem wrZeros_wb (w : W) (a n : Nat) : wrZeros w a n = { w with wb := (wrZeros w a n).wb } := by
  have fold : ∀ (l : List Nat) (w : W), l.foldl (fun w i => wrB w (a + (n - 1 - i)) 0) w =
      { w with wb := (l.foldl (fun w i => wrB w (a + (n - 1 - i)) 0) w).wb } := by
    intro l
    induction l with
    | nil => intro w; rfl
    | cons b l ih => intro w; rw [List.foldl_cons, ih]; rfl
  exact fold _ w

/-! Slots offered: consorts and launches alone change (R139). -/

/-- Nothing but consorts and launches differs. -/
def SameButSlots (w w' : W) : Prop :=
  w' = { w with nextConsort := w'.nextConsort, launches := w'.launches, consorts := w'.consorts }

theorem SameButSlots.wb {w w' : W} (h : SameButSlots w w') : w'.wb = w.wb := by
  unfold SameButSlots at h
  rw [h]
theorem SameButSlots.fns {w w' : W} (h : SameButSlots w w') : w'.fns = w.fns := by
  unfold SameButSlots at h
  rw [h]
theorem SameButSlots.quads {w w' : W} (h : SameButSlots w w') : w'.quads = w.quads := by
  unfold SameButSlots at h
  rw [h]
theorem SameButSlots.sec {w w' : W} (h : SameButSlots w w') : w'.sec = w.sec := by
  unfold SameButSlots at h
  rw [h]

theorem SameButSlots.trans {a b c : W} (h : SameButSlots a b) (h' : SameButSlots b c) : SameButSlots a c :=
  Eq.trans h' (congrArg (fun v : W => { v with nextConsort := c.nextConsort, launches := c.launches, consorts := c.consorts }) h)

theorem SameButSlots.foldl {α : Type} {f : W → α → W} (hf : ∀ w a, SameButSlots w (f w a)) (l : List α) :
    ∀ w, SameButSlots w (l.foldl f w) := by
  induction l with
  | nil => intro w; rfl
  | cons a l ih => intro w; exact (hf w a).trans (ih _)

theorem giveSlot_frame (w : W) (lid i : Nat) : SameButSlots w (giveSlot w lid i) := by
  unfold giveSlot
  split
  · rfl
  · dsimp only
    split
    · rfl
    · split <;> rfl

theorem giveSlots_frame (w : W) (y : Nat × Launch) : SameButSlots w (giveSlots w y.1 (slotsByCore y.2)) :=
  SameButSlots.foldl (fun w i => giveSlot_frame w y.1 i) (slotsByCore y.2) w

theorem offerSlots_frame (w : W) : SameButSlots w (offerSlots w) :=
  SameButSlots.foldl (f := fun (w : W) (y : Nat × Launch) => giveSlots w y.1 (slotsByCore y.2)) giveSlots_frame w.launches w

/-! Quadrants given to a world (R83, R153, R195). -/

/-- The quadrants of a core named by a mask given to a world. -/
def giveQuads (w : W) (pcn : Nat) (quads : BitVec 4) (wd : Nat) : W :=
  (List.range 4).foldl (fun w q => if quads.getLsbD q then updQuad w (4 * pcn + q) fun x => { x with world := wd } else w) w

/-- Nothing but quadrants differs. -/
def SameButQuads (w w' : W) : Prop := w' = { w with quads := w'.quads }

theorem SameButQuads.wb {w w' : W} (h : SameButQuads w w') : w'.wb = w.wb := by
  unfold SameButQuads at h
  rw [h]
theorem SameButQuads.fns {w w' : W} (h : SameButQuads w w') : w'.fns = w.fns := by
  unfold SameButQuads at h
  rw [h]
theorem SameButQuads.sec {w w' : W} (h : SameButQuads w w') : w'.sec = w.sec := by
  unfold SameButQuads at h
  rw [h]

theorem giveQuads_frame (w : W) (pcn : Nat) (quads : BitVec 4) (wd : Nat) : SameButQuads w (giveQuads w pcn quads wd) := by
  have fold : ∀ (l : List Nat) (w : W), ∃ qs,
      l.foldl (fun w q => if quads.getLsbD q then updQuad w (4 * pcn + q) fun x => { x with world := wd } else w) w =
        { w with quads := qs } := by
    intro l
    induction l with
    | nil => intro w; exact ⟨_, rfl⟩
    | cons q l ih =>
      intro w
      rw [List.foldl_cons]
      split
      · obtain ⟨qs, h⟩ := ih (updQuad w (4 * pcn + q) fun x => { x with world := wd })
        exact ⟨qs, h⟩
      · exact ih w
  obtain ⟨qs, h⟩ := fold (List.range 4) w
  have h' : giveQuads w pcn quads wd = { w with quads := qs } := h
  unfold SameButQuads
  rw [h']

theorem giveQuads_world (w : W) (pcn : Nat) (quads : BitVec 4) (wd : Nat) {q : Nat} (hq : q < 4) :
    (quad (giveQuads w pcn quads wd) (4 * pcn + q)).world = if quads.getLsbD q then wd else (quad w (4 * pcn + q)).world := by
  have fold : ∀ (l : List Nat) (w : W),
      (quad (l.foldl (fun w q => if quads.getLsbD q then updQuad w (4 * pcn + q) fun x => { x with world := wd } else w) w)
        (4 * pcn + q)).world = if q ∈ l ∧ quads.getLsbD q = true then wd else (quad w (4 * pcn + q)).world := by
    intro l
    induction l with
    | nil => intro w; simp
    | cons a l ih =>
      intro w
      rw [List.foldl_cons, ih]
      by_cases ha : q = a
      · subst ha
        by_cases hb : quads.getLsbD q = true <;> simp [hb, quad_updQuad]
      · have hne : 4 * pcn + q ≠ 4 * pcn + a := by omega
        by_cases hb : quads.getLsbD a = true <;> simp [hb, ha, quad_updQuad]
  simpa [giveQuads, hq] using fold (List.range 4) w


end Sys2Proof.Machine
end

section
/-! Worlds assigned (R83, R153, R195). -/

namespace Sys2Proof.Machine

/-- Two ranges made zero, with their poison gone: one returned to what unlisted addresses read as, the next written. -/
def clearTwo (w : W) (a n b m : Nat) : W :=
  let w := cleanRange (wrClear w a n) a n
  cleanRange (wrZeros w b m) b m

theorem clearTwo_frame (w : W) (a n b m : Nat) :
    clearTwo w a n b m = { w with wb := (clearTwo w a n b m).wb, poison := (clearTwo w a n b m).poison } := by
  unfold clearTwo cleanRange
  dsimp only
  rw [wrZeros_wb]
  rfl

theorem clearTwo_quads (w : W) (a n b m : Nat) : (clearTwo w a n b m).quads = w.quads := by rw [clearTwo_frame]
theorem clearTwo_fns (w : W) (a n b m : Nat) : (clearTwo w a n b m).fns = w.fns := by rw [clearTwo_frame]
theorem clearTwo_sec (w : W) (a n b m : Nat) : (clearTwo w a n b m).sec = w.sec := by rw [clearTwo_frame]

theorem rdW_clearTwo (mem : Memory) (w : W) (a n b m x : Nat) : rdW mem (clearTwo w a n b m).wb x =
    if b ≤ x ∧ x < b + m then 0 else if a ≤ x ∧ x < a + n then unlisted x else rdW mem w.wb x :=
  rdW_wrZeros mem (cleanRange (wrClear w a n) a n) b m x

/-- A core's scratch and scale memory zero, their poison gone (R83). -/
def clearStores (w : W) (pcn : Nat) : W := clearTwo w (keyScr pcn 0 0) (2 ^ 21) (keyScale pcn 0 0 0) (2 ^ 18)

theorem clearStores_quads (w : W) (pcn : Nat) : (clearStores w pcn).quads = w.quads := clearTwo_quads _ _ _ _ _
theorem clearStores_fns (w : W) (pcn : Nat) : (clearStores w pcn).fns = w.fns := clearTwo_fns _ _ _ _ _
theorem clearStores_sec (w : W) (pcn : Nat) : (clearStores w pcn).sec = w.sec := clearTwo_sec _ _ _ _ _

/-- The keys of worlds that hold no quadrant dropped (R153). -/
def dropKeys (w : W) : W := { w with sec := { w.sec with keySlots := w.sec.keySlots.filter fun k => worldHeld w (keyWorld k) } }

/-- The next context key of a world (R153, R195). -/
def newKey (w : W) (wd : Nat) : Nat := 2 * wd + 2 ^ 32 * (w.sec.keyed.filter fun k => k % 2 ^ 32 == 2 * wd).length

/-- A world's next context key and default key made (R195). -/
def makeKeys (w : W) (wd : Nat) : W := { w with sec := { w.sec with keyed := w.sec.keyed ++ [newKey w wd, newKey w wd + 1] } }

theorem giveWorld_eq (w : W) (pcn : Nat) (quads : BitVec 4) (wd : Nat) :
    giveWorld w pcn quads wd =
      let v := dropKeys (giveQuads (clearStores w pcn) pcn quads wd)
      if wd != 0 && quads != 0 && !worldHeld w wd then makeKeys v wd else v := rfl

/-- Nothing but security state differs. -/
def SameButSec (w w' : W) : Prop := w' = { w with sec := w'.sec }

theorem SameButSec.wb {w w' : W} (h : SameButSec w w') : w'.wb = w.wb := by
  unfold SameButSec at h
  rw [h]
theorem SameButSec.fns {w w' : W} (h : SameButSec w w') : w'.fns = w.fns := by
  unfold SameButSec at h
  rw [h]
theorem SameButSec.quads {w w' : W} (h : SameButSec w w') : w'.quads = w.quads := by
  unfold SameButSec at h
  rw [h]

/-- Once the core is cleared and its quadrants given, assigning a world changes keys alone. -/
theorem giveWorld_frame (w : W) (pcn : Nat) (quads : BitVec 4) (wd : Nat) :
    SameButSec (giveQuads (clearStores w pcn) pcn quads wd) (giveWorld w pcn quads wd) := by
  generalize hv : giveQuads (clearStores w pcn) pcn quads wd = v
  simp only [giveWorld_eq, hv]
  split <;> rfl

theorem giveWorld_quads (w : W) (pcn : Nat) (quads : BitVec 4) (wd : Nat) :
    (giveWorld w pcn quads wd).quads = (giveQuads (clearStores w pcn) pcn quads wd).quads := (giveWorld_frame w pcn quads wd).quads

theorem giveWorld_wb (w : W) (pcn : Nat) (quads : BitVec 4) (wd : Nat) : (giveWorld w pcn quads wd).wb = (clearStores w pcn).wb :=
  (giveWorld_frame w pcn quads wd).wb.trans (giveQuads_frame (clearStores w pcn) pcn quads wd).wb

theorem giveWorld_fns (w : W) (pcn : Nat) (quads : BitVec 4) (wd : Nat) : (giveWorld w pcn quads wd).fns = w.fns :=
  calc (giveWorld w pcn quads wd).fns = (giveQuads (clearStores w pcn) pcn quads wd).fns := (giveWorld_frame w pcn quads wd).fns
    _ = (clearStores w pcn).fns := (giveQuads_frame (clearStores w pcn) pcn quads wd).fns
    _ = w.fns := clearStores_fns w pcn

theorem giveWorld_sec (w : W) (pcn : Nat) (quads : BitVec 4) (wd : Nat) :
    (giveWorld w pcn quads wd).sec = { w.sec with
      keySlots := w.sec.keySlots.filter fun k => worldHeld (giveWorld w pcn quads wd) (keyWorld k)
      keyed := if wd != 0 && quads != 0 && !worldHeld w wd then w.sec.keyed ++ [newKey w wd, newKey w wd + 1] else w.sec.keyed } := by
  have hq : worldHeld (giveWorld w pcn quads wd) = worldHeld (giveQuads (clearStores w pcn) pcn quads wd) := by
    funext k
    simp only [worldHeld, quad, giveWorld_quads]
  have hs : (giveQuads (clearStores w pcn) pcn quads wd).sec = w.sec :=
    (giveQuads_frame (clearStores w pcn) pcn quads wd).sec.trans (clearStores_sec w pcn)
  rw [hq, giveWorld_eq]
  generalize giveQuads (clearStores w pcn) pcn quads wd = v at hs
  dsimp only
  split <;> simp only [dropKeys, makeKeys, newKey, hs]

end Sys2Proof.Machine

namespace Sys2Proof.Claims

open Sys2Proof.Machine

/-- No byte of a core's scratch is a scale byte, so unwritten it reads 0. -/
theorem unlisted_scratch {pcn a : Nat} (hp : pcn < 72) (ha : a < keyScr pcn 0 0 + 2 ^ 21) : unlisted a = 0 := by
  have hlow : ¬ keyScaleBase ≤ a := by
    unfold keyScr at ha
    unfold keyScaleBase
    omega
  exact if_neg fun h => hlow h.1

/-- Bytes of a core's own memory read 0 after it is cleared. -/
theorem rdW_clearStores_own (m : Memory) (w : W) {pcn a : Nat} (hp : pcn < 72) (ha : OwnMemory pcn a) :
    rdW m (clearStores w pcn).wb a = 0 := by
  rw [clearStores, rdW_clearTwo]
  split
  · rfl
  · next hb =>
    have hs := ha.resolve_right hb
    rw [if_pos hs, unlisted_scratch hp hs.2]

/-- Every byte outside a core's own memory reads as before it is cleared. -/
theorem rdW_clearStores_other (m : Memory) (w : W) {pcn a : Nat} (ha : ¬ OwnMemory pcn a) :
    rdW m (clearStores w pcn).wb a = rdW m w.wb a := by
  rw [clearStores, rdW_clearTwo, if_neg fun h => ha (Or.inr h), if_neg fun h => ha (Or.inl h)]

/-- No course is resident or halted on a core, nor on another core of a consort placed there (R83). -/
theorem coreQuiet_iff (s : State) (pcn : Nat) : coreQuiet s.w pcn = true ↔ ¬ CoreBusy s pcn := by
  have cores : ∀ c : Course, ((((consort? s.w c.id.consort).map (·.cores)).getD []).any fun l => pcnOf s.w l == pcn) = true ↔
      ∃ k, consort? s.w c.id.consort = some k ∧ ∃ l ∈ k.cores, pcnOf s.w l = pcn := by
    intro c
    cases consort? s.w c.id.consort <;> simp
  have busy : (∃ y ∈ s.w.courses, pcnOf s.w y.2.v.hcore = pcn ∧ (y.2.k.at_ = .resident ∨ y.2.k.at_ = .halted)) ∨
      (∃ y ∈ s.w.courses, (y.2.k.at_ = .resident ∨ y.2.k.at_ = .halted) ∧
        ∃ k, consort? s.w y.2.id.consort = some k ∧ ∃ l ∈ k.cores, pcnOf s.w l = pcn) ↔ CoreBusy s pcn := by
    constructor
    · rintro (⟨y, hy, hc, ha⟩ | ⟨y, hy, ha, hk⟩)
      · exact ⟨y, hy, ha, Or.inl hc⟩
      · exact ⟨y, hy, ha, Or.inr hk⟩
    · rintro ⟨y, hy, ha, hc | hk⟩
      · exact Or.inl ⟨y, hy, hc, ha⟩
      · exact Or.inr ⟨y, hy, ha, hk⟩
  rw [← busy, coreQuiet, rowQuiet, ← Bool.not_or, Bool.not_eq_true', ← Bool.not_eq_true, not_iff_not, Bool.or_eq_true,
    List.any_eq_true, List.any_eq_true]
  simp only [Bool.and_eq_true, Bool.or_eq_true, beq_iff_eq, cores]

theorem worldHeld_iff (w : W) (wd : Nat) : worldHeld w wd = true ↔ ∃ q, q < 288 ∧ (quad w q).world = wd := by
  simp [worldHeld]

/-- A request that its rules allow: what it leaves, with its writes made. -/
theorem granted_of {s : State} {i : Instr} {n code x : Nat} {from_ : W → Bool} {r : Request} {w : W}
    (hi : exec i s = event (mailbox n code from_ r) s) (ha : Asked s n code) (hf : from_ s.w = true) (hr : r s.env s.w = some (w, x)) :
    exec i s = .next ⟨s.fix, flush w.wb s.mem, { finishReq w n 0 x with wb := [] }⟩ := by
  have hF : mailbox n code from_ r ⟨s.fix, s.mem⟩ s.w = finishReq w n 0 x := mailbox_done (asks_of ha) hf hr
  rw [hi, event, commit, hF]
  rfl

theorem assignWorld_denied {s : State} {pcn wd : Nat} (quads : BitVec 4) (hs : s.Inv) (ha : Asked s 0 0x05)
    (h : 72 ≤ pcn ∨ 16 ≤ wd ∨ CoreBusy s pcn) : ∃ t, exec (.assignWorld 0 pcn quads wd) s = .next t ∧ Denied s t 0 := by
  refine denied_of hs rfl ha rfl (if_pos ?_)
  rw [Bool.not_eq_true', ← Bool.not_eq_true, coreQuiet_iff, not_not]
  exact h

/-- An assignment of a world that its rules allow: the state it leaves. -/
theorem assignWorld_next {s : State} {pcn wd : Nat} (quads : BitVec 4) (hs : s.Inv) (ha : Asked s 0 0x05) (hp : pcn < 72) (hw : wd < 16)
    (hc : ¬ CoreBusy s pcn) : ∃ t, exec (.assignWorld 0 pcn quads wd) s = .next t ∧ fn t.w 0 = finished (fn s.w 0) 0 0 ∧
      t.w.quads = (giveWorld s.w pcn quads wd).quads ∧ t.w.sec = (giveWorld s.w pcn quads wd).sec ∧
      ∀ a, t.mem.rd a = rdW s.mem (clearStores s.w pcn).wb a := by
  have hr : (if 72 ≤ pcn ∨ 16 ≤ wd ∨ !coreQuiet s.w pcn then none else some (offerSlots (giveWorld s.w pcn quads wd), 0)) =
      some (offerSlots (giveWorld s.w pcn quads wd), 0) := if_neg (by rw [(coreQuiet_iff s pcn).mpr hc]; simp; omega)
  have hv : SameButSlots _ (offerSlots (giveWorld s.w pcn quads wd)) := offerSlots_frame _
  refine ⟨_, granted_of (n := 0) (from_ := fromPf 0) rfl ha rfl hr, ?_, hv.quads, hv.sec, fun a => ?_⟩
  · show fn (finishReq _ 0 0 0) 0 = _
    rw [fn_finishReq, if_pos rfl, fn, hv.fns, giveWorld_fns, fn]
  · show (flush (offerSlots (giveWorld s.w pcn quads wd)).wb s.mem).rd a = _
    rw [rd_flush _ hs.mem, hv.wb, giveWorld_wb]

theorem assignWorld_spec {s : State} {pcn wd : Nat} (quads : BitVec 4) (hs : s.Inv) (ha : Asked s 0 0x05) (hp : pcn < 72) (hw : wd < 16)
    (hc : ¬ CoreBusy s pcn) : ∃ t, exec (.assignWorld 0 pcn quads wd) s = .next t ∧ fn t.w 0 = finished (fn s.w 0) 0 0 ∧
      (∀ q, q < 4 → (quad t.w (4 * pcn + q)).world = if quads.getLsbD q then wd else (quad s.w (4 * pcn + q)).world) ∧
      (∀ a, OwnMemory pcn a → t.mem.rd a = 0) ∧ (∀ a, ¬ OwnMemory pcn a → t.mem.rd a = s.mem.rd a) ∧
      (∀ k, k ∈ t.w.sec.keySlots ↔ k ∈ s.w.sec.keySlots ∧
        ∃ q, q < 288 ∧ (quad t.w q).world = if k % 2 ^ 32 < 32 then k % 2 ^ 32 / 2 else k % 32) ∧
      let first := wd ≠ 0 ∧ quads ≠ 0 ∧ ∀ q, q < 288 → (quad s.w q).world ≠ wd
      let key := 2 * wd + 2 ^ 32 * (s.w.sec.keyed.filter fun k => k % 2 ^ 32 == 2 * wd).length
      (first → t.w.sec.keyed = s.w.sec.keyed ++ [key, key + 1]) ∧ (¬ first → t.w.sec.keyed = s.w.sec.keyed) := by
  obtain ⟨t, ht, hfn, hquads, hsec, hmem⟩ := assignWorld_next quads hs ha hp hw hc
  have hq : ∀ q, quad t.w q = quad (giveWorld s.w pcn quads wd) q := fun q => by rw [quad, hquads, quad]
  have hfirst : (wd != 0 && quads != 0 && !worldHeld s.w wd) = true ↔
      wd ≠ 0 ∧ quads ≠ 0 ∧ ∀ q, q < 288 → (quad s.w q).world ≠ wd := by
    rw [Bool.and_eq_true, Bool.and_eq_true, bne_iff_ne, bne_iff_ne, Bool.not_eq_true', ← Bool.not_eq_true, worldHeld_iff, and_assoc]
    simp only [not_exists, not_and, ne_eq]
  rw [giveWorld_sec] at hsec
  refine ⟨t, ht, hfn, fun q hlt => ?_, fun a ho => ?_, fun a ho => ?_, fun k => ?_, fun h => ?_, fun h => ?_⟩
  · have hgive : quad (giveWorld s.w pcn quads wd) (4 * pcn + q) = quad (giveQuads (clearStores s.w pcn) pcn quads wd) (4 * pcn + q) := by
      rw [quad, giveWorld_quads, quad]
    rw [hq, hgive, giveQuads_world _ _ _ _ hlt, quad, clearStores_quads, quad]
  · rw [hmem, rdW_clearStores_own _ _ hp ho]
  · rw [hmem, rdW_clearStores_other _ _ ho, hs.wb, rdW]
  · rw [hsec, List.mem_filter, worldHeld_iff]
    simp only [hq, keyWorld]
  · rw [hsec, if_pos (hfirst.mpr h)]; rfl
  · rw [hsec, if_neg (mt hfirst.mp h)]

end Sys2Proof.Claims
end

section
/-! Entries of export and import tables written (R3, R197, R198). -/

namespace Sys2Proof.Machine

open Sys2Proof.Claims

/-! Bytes gathered at keys. -/

/-- Bytes written one after another to keys. -/
def gatherAt : W → List Nat → List Byte → W
  | w, k :: ks, b :: bs => gatherAt (wrB w k b) ks bs
  | w, _, _ => w

theorem gatherAt_frame (ks : List Nat) : ∀ (w : W) (bs : List Byte), gatherAt w ks bs = { w with wb := (gatherAt w ks bs).wb } := by
  induction ks with
  | nil => intro w bs; cases bs <;> rfl
  | cons k ks ih =>
    intro w bs
    cases bs with
    | nil => rfl
    | cons b bs => exact ih (wrB w k b) bs

theorem gatherAt_sec (w : W) (ks : List Nat) (bs : List Byte) : (gatherAt w ks bs).sec = w.sec := by rw [gatherAt_frame]

theorem gatherAt_append (ks ks' : List Nat) : ∀ (w : W) (bs : List Byte), ks.length ≤ bs.length →
    gatherAt w (ks ++ ks') bs = gatherAt (gatherAt w ks (bs.take ks.length)) ks' (bs.drop ks.length) := by
  induction ks with
  | nil => intro w bs _; rfl
  | cons k ks ih =>
    intro w bs h
    cases bs with
    | nil => simp at h
    | cons b bs => exact ih (wrB w k b) bs (by simpa using h)

/-- A key that is not written reads as before. -/
theorem rdW_gatherAt_other (m : Memory) {ks : List Nat} {a : Nat} (ha : a ∉ ks) : ∀ (w : W) (bs : List Byte),
    rdW m (gatherAt w ks bs).wb a = rdW m w.wb a := by
  induction ks with
  | nil => intro w bs; cases bs <;> rfl
  | cons k ks ih =>
    intro w bs
    obtain ⟨hk, hks⟩ := not_or.mp (mt List.mem_cons.mpr ha)
    cases bs with
    | nil => rfl
    | cons b bs =>
      calc rdW m (gatherAt (wrB w k b) ks bs).wb a = rdW m (wrB w k b).wb a := ih hks _ _
        _ = rdW m w.wb a := if_neg (Ne.symm hk)

/-- Bytes written to distinct keys are read back. -/
theorem rdW_gatherAt_same (m : Memory) {ks : List Nat} (hn : ks.Nodup) : ∀ (w : W) (bs : List Byte), ks.length = bs.length →
    ks.map (rdW m (gatherAt w ks bs).wb) = bs := by
  induction ks with
  | nil => intro w bs h; exact (List.length_eq_zero_iff.mp h.symm).symm
  | cons k ks ih =>
    intro w bs h
    obtain ⟨hk, hks⟩ := List.nodup_cons.mp hn
    cases bs with
    | nil => simp at h
    | cons b bs =>
      have head : rdW m (gatherAt (wrB w k b) ks bs).wb k = b := (rdW_gatherAt_other m hk _ _).trans (if_pos rfl)
      have rest := ih hks (wrB w k b) bs (by simpa using h)
      rw [List.map_cons, gatherAt, head, rest]

/-! Places whose blocks bear their world's encipherment already: their bytes are gathered at their keys (R111). -/

/-- A place's block bears the encipherment under which a world writes it. -/
def Tagged (w : W) (wd : Nat) (l : Loc) : Prop := match l with
  | .dev sl loc pa => tGet? w.sec.cipher (keyDev sl loc / 16) = tagOf w wd pa
  | _ => True

theorem tagged_congr {w v : W} (h : v.sec = w.sec) (wd : Nat) (l : Loc) : Tagged v wd l ↔ Tagged w wd l := by
  cases l with
  | dev sl loc pa => simp only [Tagged, tagOf, tensorAt, defaultKey, keyGen, h]
  | host p q i => exact Iff.rfl
  | fab f a => exact Iff.rfl

theorem tagged_of {w : W} {wd : Nat} {ls : List (Loc × Nat × Nat)} (h : SameTag w wd ls) {l : Loc} {va n i : Nat} (hl : (l, va, n) ∈ ls)
    (hi : i < n) : Tagged w wd (l.add i) := by
  have hli := h l n i ⟨va, hl⟩ hi
  unfold Tagged
  cases l <;> exact hli

theorem wrLoc_tagged (e : Env) {w : W} {wd : Nat} {l : Loc} (h : Tagged w wd l) (v : Byte) : wrLoc e w wd l v = wrB w l.key v := by
  cases l with
  | dev sl loc pa => exact if_pos h
  | host p q i => rfl
  | fab f a => rfl

theorem loc_add_zero (l : Loc) : l.add 0 = l := by cases l <;> rfl

theorem loc_add_add (l : Loc) (i j : Nat) : (l.add i).add j = l.add (i + j) := by cases l <;> simp [Loc.add, Nat.add_assoc]

/-- The keys of n bytes from a place. -/
def spanKeys (l : Loc) (n : Nat) : List Nat := (List.range n).map fun i => (l.add i).key

theorem spanKeys_succ (l : Loc) (n : Nat) : spanKeys l (n + 1) = l.key :: spanKeys (l.add 1) n := by
  simp [spanKeys, List.range_succ_eq_map, loc_add_zero, loc_add_add, Nat.add_comm 1]

theorem spanKeys_length (l : Loc) (n : Nat) : (spanKeys l n).length = n := by simp [spanKeys]

theorem placeKeys_cons (l : Loc) (va n : Nat) (ls : List (Loc × Nat × Nat)) : placeKeys ((l, va, n) :: ls) = spanKeys l n ++ placeKeys ls :=
  rfl

theorem wrLocs_tagged (e : Env) {wd : Nat} (bs : List Byte) : ∀ (w : W) (l : Loc), (∀ i, i < bs.length → Tagged w wd (l.add i)) →
    wrLocs e w wd l bs = gatherAt w (spanKeys l bs.length) bs := by
  induction bs with
  | nil => intro w l _; rfl
  | cons b bs ih =>
    intro w l h
    have h0 : Tagged w wd l := loc_add_zero l ▸ h 0 (Nat.succ_pos _)
    have rest : ∀ i, i < bs.length → Tagged (wrB w l.key b) wd ((l.add 1).add i) := fun i hi => by
      rw [loc_add_add, tagged_congr rfl, Nat.add_comm]
      exact h (i + 1) (Nat.succ_lt_succ hi)
    rw [wrLocs, wrLoc_tagged e h0, ih _ _ rest, List.length_cons, spanKeys_succ, gatherAt]

theorem wrPlaces_tagged (e : Env) {wd : Nat} (ls : List (Loc × Nat × Nat)) : ∀ (w : W) (bs : List Byte), SameTag w wd ls →
    (placeKeys ls).length ≤ bs.length → wrPlaces e w wd ls bs = gatherAt w (placeKeys ls) bs := by
  induction ls with
  | nil => intro w bs _ _; cases bs <;> rfl
  | cons x ls ih =>
    intro w bs h hlen
    obtain ⟨l, va, n⟩ := x
    rw [placeKeys_cons, List.length_append, spanKeys_length] at hlen
    have htake : (bs.take n).length = n := by simp; omega
    have here : wrLocs e w wd l (bs.take n) = gatherAt w (spanKeys l n) (bs.take n) := by
      rw [wrLocs_tagged e _ _ _ fun i hi => tagged_of h List.mem_cons_self (htake ▸ hi), htake]
    have rest : SameTag (gatherAt w (spanKeys l n) (bs.take n)) wd ls := by
      rintro l' n' i ⟨va', hm⟩ hi
      have ht := (tagged_congr (gatherAt_sec w (spanKeys l n) (bs.take n)) wd (l'.add i)).mpr (tagged_of h (List.mem_cons_of_mem _ hm) hi)
      unfold Tagged at ht
      cases l' <;> exact ht
    rw [wrPlaces, here, ih _ _ rest (by simp; omega), placeKeys_cons, gatherAt_append _ _ _ _ (by rw [spanKeys_length]; omega), spanKeys_length]

/-! The places of an access hold as many bytes as it asks for. -/

theorem pieces_zero (f va : Nat) : pieces f va 0 = [] := by cases f <;> rfl

theorem pieces_sum (f : Nat) : ∀ va n, va % 4096 + n ≤ 4096 * f → ((pieces f va n).map (·.2)).sum = n := by
  induction f with
  | zero => intro va n h; simp only [pieces, List.map_nil, List.sum_nil]; omega
  | succ f ih =>
    intro va n h
    rw [pieces]
    split
    · next hn => simp [hn]
    · simp only [List.map_cons, List.sum_cons]
      by_cases hlast : n ≤ 4096 - va % 4096
      · rw [Nat.min_eq_left hlast, Nat.sub_self, pieces_zero, List.map_nil, List.sum_nil, Nat.add_zero]
      · rw [Nat.min_eq_right (by omega), ih _ _ (by omega)]
        omega

theorem piecesOf_sum (va n : Nat) : ((piecesOf va n).map (·.2)).sum = n := pieces_sum _ _ _ (by omega)

theorem placesOf_lengths {tr : Nat → Xr Loc} (ps : List (Nat × Nat)) : ∀ {ls : List (Loc × Nat × Nat)}, placesOf tr ps = .ok ls →
    ls.map (·.2.2) = ps.map (·.2) := by
  induction ps with
  | nil => intro ls h; cases h; rfl
  | cons x ps ih =>
    intro ls h
    obtain ⟨va, n⟩ := x
    unfold placesOf at h
    split at h
    · split at h
      · next hrest => cases h; simp [ih hrest]
      · cases h
    · cases h

theorem placeKeys_length (ls : List (Loc × Nat × Nat)) : (placeKeys ls).length = (ls.map (·.2.2)).sum := by
  induction ls with
  | nil => rfl
  | cons x ls ih =>
    obtain ⟨l, va, n⟩ := x
    rw [placeKeys_cons, List.length_append, spanKeys_length, ih]
    rfl

/-- The places of the device's own access are those of its pieces, when nothing stops it. -/
theorem ownPlaces_places {w : W} {row p va n : Nat} {tr : Nat → Xr Loc} {ls : List (Loc × Nat × Nat)}
    (h : ownPlaces w row p tr va n = .ok ls) : placesOf tr (piecesOf va n) = .ok ls := by
  unfold ownPlaces at h
  split at h
  · cases h
  · split at h
    · cases h
    · cases h
    · next hls =>
      split at h
      · cases h
      · split at h
        · cases h
        · cases h; exact hls

theorem ownPlaces_length {w : W} {row p va n : Nat} {tr : Nat → Xr Loc} {ls : List (Loc × Nat × Nat)}
    (h : ownPlaces w row p tr va n = .ok ls) : (placeKeys ls).length = n := by
  rw [placeKeys_length, placesOf_lengths _ (ownPlaces_places h), piecesOf_sum]

/-! A table's bytes written by hub firmware. -/

theorem afterScrub_none (e : Env) {w : W} (ls : List (Loc × Nat × Nat)) (h : placesScrub w ls = none) : afterScrub e w ls = w := by
  induction ls with
  | nil => rfl
  | cons x ls ih =>
    obtain ⟨l, va, n⟩ := x
    simp only [placesScrub, List.findSome?_cons] at h
    split at h
    · cases h
    · next hl =>
      rw [afterScrub, List.foldl_cons]
      cases l with
      | dev s loc pa => simp only [hl]; exact ih h
      | host p q i => exact ih h
      | fab f a => exact ih h

/-- Clearing the marks of sectors covered changes poison alone. -/
theorem cleanCovered_frame (w : W) (keys : List Nat) : cleanCovered w keys = { w with poison := (cleanCovered w keys).poison } := by
  have fold : ∀ (l : List Nat) (w : W), ∃ ps, l.foldl (fun w u =>
      if w.poison.contains u ∧ (List.range 32).all fun i => keys.contains (u + i) then cleanAt w u else w) w = { w with poison := ps } := by
    intro l
    induction l with
    | nil => intro w; exact ⟨_, rfl⟩
    | cons u l ih =>
      intro w
      rw [List.foldl_cons]
      split
      · exact ih (cleanAt w u)
      · exact ih w
  unfold cleanCovered
  split
  · rfl
  · obtain ⟨ps, h⟩ := fold (keys.map unitOf).dedup w
    rw [h]

theorem tableWrite_refused {e : Env} {w : W} {p pa : Nat} {bs : List Byte} {x : Nat × Nat}
    (h : ownPlaces w 72 p (physPlace e w p) pa bs.length = .error x) : tableWrite e w p pa bs = none := by
  simp only [tableWrite, h]

theorem tableWrite_tagged {e : Env} {w : W} {p pa : Nat} {bs : List Byte} {ls : List (Loc × Nat × Nat)}
    (h : ownPlaces w 72 p (physPlace e w p) pa bs.length = .ok ls) (hscrub : placesScrub w ls = none) (htag : SameTag w 0 ls) :
    tableWrite e w p pa bs = some (cleanCovered (gatherAt w (placeKeys ls) bs) (placeKeys ls)) := by
  simp only [tableWrite, h, afterScrub_none e ls hscrub, wrPlaces_tagged e ls w bs htag (ownPlaces_length h).le]

end Sys2Proof.Machine

namespace Sys2Proof.Claims

open Sys2Proof.Machine

/-! The entries (R3, R197, R198). -/

theorem limitOk_iff (e : BitVec 256) : limitOk e = true ↔ LimitFits e := by
  have h : bvF e 128 12 = bvF e 128 64 % 4096 := (Nat.mod_mod_of_dvd _ ⟨2 ^ 52, by norm_num⟩).symm
  have hlim : 64 * 2 ^ 30 = 2 ^ 36 := by norm_num
  rw [limitOk, LimitFits, Bool.and_eq_true, decide_eq_true_eq, beq_iff_eq, h, hlim, and_comm]

/-- The bits of an export entry that are not reserved (R197). -/
theorem exportMask_bit : ∀ k, k < 256 →
    exportMask.getLsbD k = (decide (k < 4) || decide (64 ≤ k ∧ k < 192) || decide (198 ≤ k ∧ k < 212)) := by
  decide +kernel

theorem storedExport_eq {e : BitVec 256} {v : Nat} (h : StoredEntry false e v) : v = (e &&& exportMask).toNat := by
  obtain ⟨hv, hbits⟩ := h
  refine Nat.eq_of_testBit_eq fun k => ?_
  by_cases hk : k < 256
  · rw [hbits k hk, ← exportMask_bit k hk, ← BitVec.getLsbD_and, BitVec.getLsbD]
  · have hle : 2 ^ 256 ≤ 2 ^ k := Nat.pow_le_pow_right (by omega) (by omega)
    rw [Nat.testBit_lt_two_pow (hv.trans_le hle), Nat.testBit_lt_two_pow ((e &&& exportMask).isLt.trans_le hle)]

section
variable {s : State} {i : Instr} {n p pa size v : Nat} {r : Request}

theorem tableEntry_refused {x : Nat × Nat} (hs : s.Inv) (hi : exec i s = event (mailbox n 0x09 (fromPart n) r) s) (ha : Asked s n 0x09)
    (hp : OfPart s n) (hr : r s.env s.w = (tableWrite s.env s.w p pa (leBytes size v)).map fun w => (w, 0))
    (h : ownPlaces s.w 72 p (physPlace s.env s.w p) pa size = .error x) : ∃ t, exec i s = .next t ∧ Denied s t n :=
  denied_of hs hi ha (fromPart_of hp) (by rw [hr, tableWrite_refused (x := x) (by rw [leBytes_length]; exact h)]; rfl)

/-- An entry written where hub firmware can reach it: its bytes stand at its places, nothing else but poison and the mailbox differs. -/
theorem tableEntry_written {ls : List (Loc × Nat × Nat)} (hs : s.Inv) (hi : exec i s = event (mailbox n 0x09 (fromPart n) r) s)
    (ha : Asked s n 0x09) (hp : OfPart s n)
    (hr : r s.env s.w = (tableWrite s.env s.w p pa (leBytes size v)).map fun w => (w, 0))
    (hls : ownPlaces s.w 72 p (physPlace s.env s.w p) pa size = .ok ls) (hscrub : placesScrub s.w ls = none) (htag : SameTag s.w 0 ls)
    (hnodup : (placeKeys ls).Nodup) : ∃ t, exec i s = .next t ∧ fn t.w n = finished (fn s.w n) 0 0 ∧
      (placeKeys ls).map t.mem.rd = leBytes size v ∧ (∀ a, a ∉ placeKeys ls → t.mem.rd a = s.mem.rd a) ∧
      t.w = { s.w with fns := t.w.fns, sec := t.w.sec, poison := t.w.poison } := by
  have hlen := ownPlaces_length hls
  rw [tableWrite_tagged (ls := ls) (by rw [leBytes_length]; exact hls) hscrub htag] at hr
  set v1 := gatherAt s.w (placeKeys ls) (leBytes size v) with hv1
  have hw1 : v1 = { s.w with wb := v1.wb } := gatherAt_frame _ _ _
  have hw2 : cleanCovered v1 (placeKeys ls) = { s.w with wb := v1.wb, poison := (cleanCovered v1 (placeKeys ls)).poison } :=
    (cleanCovered_frame v1 _).trans (congrArg (fun w : W => { w with poison := (cleanCovered v1 (placeKeys ls)).poison }) hw1)
  generalize cleanCovered v1 (placeKeys ls) = v2 at hr hw2
  have hmem : ∀ a, (flush v2.wb s.mem).rd a = rdW s.mem v1.wb a := fun a => by rw [rd_flush _ hs.mem, hw2]
  refine ⟨_, granted_of hi ha (fromPart_of hp) hr, ?_, ?_, fun a hk => ?_, ?_⟩
  · show fn (finishReq v2 n 0 0) n = _
    rw [fn_finishReq, if_pos rfl, hw2]
    rfl
  · have hfun : (flush v2.wb s.mem).rd = rdW s.mem v1.wb := funext hmem
    show (placeKeys ls).map (flush v2.wb s.mem).rd = _
    rw [hfun]
    exact rdW_gatherAt_same s.mem hnodup s.w _ (by rw [hlen, leBytes_length])
  · show (flush v2.wb s.mem).rd a = _
    rw [hmem, hv1, rdW_gatherAt_other _ hk, hs.wb]
    rfl
  · rw [hw2, ← hs.wb]
    rfl

end

/-! The requests as one statement each. -/

/-- A table placed where index 0xFFFF names it (R197, R198). -/
theorem tablePlaced {s : State} {n : FnNo} (imp : Bool) (e : BitVec 256) (hs : s.Inv) (hp : OfPart s n.val) (ha : Asked s n.val 0x09) :
    ∃ t, exec (.writeExportOrImportEntry n imp 0xFFFF e) s = .next t ∧
      PartIs s t n.val (finished (fn s.w n.val) 0 0) (fn s.w n.val).part
        (if imp then { part s.w (fn s.w n.val).part with impT := some (bvF e 0 64) }
        else { part s.w (fn s.w n.val).part with expT := some (bvF e 0 64) }) :=
  partRequest_of (g := fun x => if imp then { x with impT := some (bvF e 0 64) } else { x with expT := some (bvF e 0 64) }) hs rfl ha
    (fromPart_of hp) rfl

/-- The request that writes an entry, away from index 0xFFFF (R197, R198). -/
def entryRequest (n : FnNo) (imp : Bool) (index : Nat) (e : BitVec 256) : Request := fun env w =>
  let p := (fn w n.val).part
  match (if imp then (part w p).impT else (part w p).expT) with
  | none => none
  | some b =>
    if imp then
      if index < 256 then (tableWrite env w p (b + 16 * index) (leBytes 16 (bvF e 0 128))).map fun w => (w, 0) else none
    else if index < 4096 ∧ limitOk e then
      (tableWrite env w p (b + 32 * index) (leBytes 32 (e &&& exportMask).toNat)).map fun w => (w, 0)
    else none

theorem exec_writeEntry {n : FnNo} {imp : Bool} {index : Nat} {e : BitVec 256} {s : State} (h : index ≠ 0xFFFF) :
    exec (.writeExportOrImportEntry n imp index e) s = event (mailbox n.val 0x09 (fromPart n.val) (entryRequest n imp index e)) s := by
  have hr : entryRequest n imp index e = fun env w =>
      if index = 0xFFFF then
        some (updPart w (fn w n.val).part fun x => if imp then { x with impT := some (bvF e 0 64) } else { x with expT := some (bvF e 0 64) }, 0)
      else entryRequest n imp index e env w := by
    funext env w
    rw [if_neg h]
  rw [hr]
  rfl

section
variable {s : State} {n : FnNo} {imp : Bool} {index : Nat} {e : BitVec 256}

/-- An entry without a table, beyond its end or with a LIMIT that does not fit is refused. -/
theorem entryRequest_none (h : (if imp then (part s.w (fn s.w n.val).part).impT else (part s.w (fn s.w n.val).part).expT) = none ∨
    (if imp then 256 else 4096) ≤ index ∨ (imp = false ∧ ¬ LimitFits e)) : entryRequest n imp index e s.env s.w = none := by
  unfold entryRequest
  dsimp only
  split
  · rfl
  · next b hb =>
    rcases h with h | h | ⟨rfl, h⟩
    · rw [h] at hb; cases hb
    · cases imp
      · exact if_neg fun hc : index < 4096 ∧ limitOk e = true => Nat.not_lt.mpr h hc.1
      · exact if_neg (Nat.not_lt.mpr h)
    · exact if_neg fun hc : index < 4096 ∧ limitOk e = true => h ((limitOk_iff e).mp hc.2)

/-- An entry of a placed table that fits is the write of its stored bytes. -/
theorem entryRequest_write {b v : Nat} (hb : (if imp then (part s.w (fn s.w n.val).part).impT else (part s.w (fn s.w n.val).part).expT) = some b)
    (hi : index < if imp then 256 else 4096) (hl : imp = false → LimitFits e) (hv : StoredEntry imp e v) :
    entryRequest n imp index e s.env s.w = (tableWrite s.env s.w (fn s.w n.val).part (b + (if imp then 16 else 32) * index)
      (leBytes (if imp then 16 else 32) v)).map fun w => (w, 0) := by
  unfold entryRequest
  dsimp only
  rw [hb]
  cases imp
  · rw [storedExport_eq hv]
    exact if_pos (show index < 4096 ∧ limitOk e = true from ⟨hi, (limitOk_iff e).mpr (hl rfl)⟩)
  · have hv' : v = bvF e 0 128 := hv
    rw [hv']
    exact if_pos hi

end

theorem storedEntry_exists (imp : Bool) (e : BitVec 256) : ∃ v, StoredEntry imp e v := by
  cases imp
  · refine ⟨(e &&& exportMask).toNat, (e &&& exportMask).isLt, fun k hk => ?_⟩
    rw [← exportMask_bit k hk, ← BitVec.getLsbD_and, BitVec.getLsbD]
  · exact ⟨bvF e 0 128, rfl⟩

theorem tableRequestsHold : TableRequestsHold := by
  intro n s hs hp
  refine ⟨fun imp index e ha => ⟨?_, fun hne h => ?_, fun b hb hi hl => ?_⟩, fun seq ha => registerHandlerConsort_spec seq hs hp ha⟩
  · rintro rfl
    exact tablePlaced imp e hs hp ha
  · exact denied_of hs (exec_writeEntry hne) ha (fromPart_of hp) (entryRequest_none h)
  · have hne : index ≠ 0xFFFF := by
      have hmax : (if imp then 256 else 4096) ≤ 4096 := by split <;> omega
      omega
    refine ⟨fun x hx => ?_, fun ls v hls hv hscrub htag hnodup => ?_⟩
    · obtain ⟨v, hv⟩ := storedEntry_exists imp e
      exact tableEntry_refused hs (exec_writeEntry hne) ha hp (entryRequest_write hb hi hl hv) hx
    · exact tableEntry_written hs (exec_writeEntry hne) ha hp (entryRequest_write hb hi hl hv) hls hscrub htag hnodup

theorem worldRequestsHold : WorldRequestsHold := by
  intro n s hs
  refine ⟨fun pcn quads wd hn ha => ?_, fun k asid wd prio ha hp => bindTagPort_spec k asid wd prio hs ha hp,
    fun p k e hn ha => ?_, fun u on hn ha => ?_⟩
  · obtain rfl : n = 0 := Fin.ext hn
    exact ⟨assignWorld_denied quads hs ha, fun hp hw hc => assignWorld_spec quads hs ha hp hw hc⟩
  · obtain rfl : n = 0 := Fin.ext hn
    exact setAllowListEntry_spec p k e hs ha
  · obtain rfl : n = 0 := Fin.ext hn
    exact appealPolicy_spec u on hs ha

/-- Settles O50: world, port, allow-list and appeal requests by the part of the state each changes; a table entry by the bytes gathered at
its places' keys. -/
theorem tableRequests : Obligations.TableRequests := ⟨worldRequestsHold, tableRequestsHold⟩

end Sys2Proof.Claims
end

section
/-! Versions, TDISP and SPDM (R16, R106, R195, R196, R199). -/

namespace Sys2Proof.Machine

/-- An event that gathers no write leaves memory alone. -/
theorem event_quiet {s : State} {F : Env → W → W} {w : W} (hF : F s.env s.w = w) (hw : w.wb = []) :
    event F s = .next { s with w := w } := congrArg _ (commit_quiet hF hw)

/-- An event that changes nothing leaves the state as it was. -/
theorem event_same {s : State} {F : Env → W → W} (hs : s.Inv) (hF : F s.env s.w = s.w) : event F s = .next s :=
  event_quiet hF hs.wb

theorem port_updPort (w : W) (n m : Nat) (f : Port → Port) : port (updPort w n f) m = if m = n then f (port w n) else port w m := by
  simp [port, updPort, tGetD_tPut]

@[simp] theorem fn_updPart (w : W) (p n : Nat) (f : Part → Part) : fn (updPart w p f) n = fn w n := rfl

@[simp] theorem part_updFn (w : W) (n p : Nat) (f : Fn → Fn) : part (updFn w n f) p = part w p := rfl

/-! Versions (R199). -/

theorem bitAt_eq_testBit (x i : Nat) : bitAt x i = x.testBit i := by
  rw [bitAt, Nat.testBit_eq_decide_div_mod_eq]
  by_cases h : x / 2 ^ i % 2 = 1 <;> simp [h]

/-- One more than the last set bit below n; 0 when none is set. -/
theorem lastBit_spec (x n : Nat) :
    let v := ((List.range n).filter fun i => bitAt x i).foldl (fun _ i => i + 1) 0
    (v = 0 ∧ ∀ i, i < n → x.testBit i = false) ∨
      (0 < v ∧ v ≤ n ∧ x.testBit (v - 1) = true ∧ ∀ i, v ≤ i → i < n → x.testBit i = false) := by
  induction n with
  | zero => exact .inl ⟨rfl, fun i h => absurd h (Nat.not_lt_zero i)⟩
  | succ n ih =>
    rw [List.range_succ, List.filter_append, List.foldl_append]
    cases hb : x.testBit n with
    | true => exact .inr (by simp [bitAt_eq_testBit, hb]; omega)
    | false =>
      have hlast : ∀ i, i < n + 1 → ¬ i < n → x.testBit i = false := fun i h1 h2 => by
        rwa [show i = n by omega]
      simp only [List.filter_cons, bitAt_eq_testBit, hb, List.filter_nil, Bool.false_eq_true, if_false, List.foldl_nil] at ih ⊢
      rcases ih with ⟨h0, h⟩ | ⟨h0, hn, h1, h⟩
      · exact .inl ⟨h0, fun i hi => if hn : i < n then h i hn else hlast i hi hn⟩
      · exact .inr ⟨h0, by omega, h1, fun i hv hi => if hn : i < n then h i hv hn else hlast i hi hn⟩

end Sys2Proof.Machine

namespace Sys2Proof.Claims

open Sys2Proof.Machine

/-- The highest version in force of two bytes is that of the byte of their common bits. -/
theorem highest_verBest {a b x : Nat} (h : ∀ i, i < 8 → x.testBit i = (a.testBit i && b.testBit i)) : Highest a b (verBest x) := by
  have no : ∀ i, i < 8 → x.testBit i = false → ¬ (a.testBit i = true ∧ b.testBit i = true) := fun i hi hx hc => by
    rw [h i hi, hc.1, hc.2] at hx
    cases hx
  rcases lastBit_spec x 8 with ⟨h0, hx⟩ | ⟨h0, h8, h1, hx⟩
  · exact .inl ⟨h0, fun i hi => no i hi (hx i hi)⟩
  · rw [h _ (by omega), Bool.and_eq_true] at h1
    exact .inr ⟨h0, h8, h1.1, h1.2, fun i hv hi => no i hi (hx i hv hi)⟩

theorem ofNat8_testBit (x : Nat) {i : Nat} (hi : i < 8) : (BitVec.ofNat 8 x).toNat.testBit i = x.testBit i := by
  rw [BitVec.toNat_ofNat, Nat.testBit_mod_two_pow, decide_eq_true hi, Bool.true_and]

/-- The version in force of a structure (R199). -/
theorem highest_verAct (sel : Nat) {b : Nat} (hb : b < 5) : Highest (capByte b) (bitsAt sel (8 * b) 8) (nth (verAct sel) b 0) := by
  have hcap : bitsAt verCap (8 * b) 8 = capByte b := by
    have : ∀ b, b < 5 → bitsAt verCap (8 * b) 8 = capByte b := by decide
    exact this b hb
  have hn : nth (verAct sel) b 0 = verBest (BitVec.ofNat 8 (capByte b) &&& BitVec.ofNat 8 (bitsAt sel (8 * b) 8)).toNat := by
    simp [nth, verAct, hb, hcap]
  rw [hn]
  exact highest_verBest fun i hi => by rw [BitVec.toNat_and, Nat.testBit_and, ofNat8_testBit _ hi, ofNat8_testBit _ hi]

theorem takesWrites_iff (s : State) (n : Nat) : takesWrites s.w n = true ↔ Takes s n := by
  simp [takesWrites, linkUp, Takes]

/-- A partition's consorts, as a write of VERSEL looks for them. -/
theorem anyConsort_iff (w : W) (p : Nat) : (w.consorts.any fun y => y.2.part == p) = true ↔ ∃ y ∈ w.consorts, y.2.part = p := by
  simp

/-- Where no fault is held, trying held faults again changes nothing (R149). -/
theorem retryHeld_none (e : Env) {w : W} {p : Nat} (h : (part w p).fq.held = []) :
    retryHeld e w p = updPart w p fun x => { x with fq := { x.fq with held := [] } } := by
  simp [retryHeld, h, deliverHeld, updFq]

theorem versionsHold : VersionsHold := by
  intro n v s hs f
  have stays : (¬ Takes s n.val ∨ ∃ y ∈ s.w.consorts, y.2.part = f.part) → exec (.verselWrite n v) s = .next s := fun h =>
    event_same hs (if_pos (by simpa only [Bool.not_eq_true', ← Bool.not_eq_true, takesWrites_iff, anyConsort_iff] using h))
  have takes : Takes s n.val → (∀ y ∈ s.w.consorts, y.2.part ≠ f.part) →
      ¬ ((!takesWrites s.w n.val) = true ∨ (s.w.consorts.any fun y => y.2.part == f.part) = true) := fun ht hc => by
    simp only [Bool.not_eq_true', ← Bool.not_eq_true, takesWrites_iff, anyConsort_iff]
    rintro (h | ⟨y, hy, h⟩)
    · exact h ht
    · exact hc y hy h
  refine ⟨stays, fun ht h0 hc => ?_, fun ht h0 hc hh => ?_⟩
  · exact ⟨_, rfl, fnIs_commit hs ((if_neg (takes ht hc)).trans (if_pos h0)) rfl (by rw [fn_updFn, if_pos rfl])
      fun m hm => by rw [fn_updFn, if_neg hm]⟩
  · refine ⟨_, { part s.w f.part with veract := verAct v.toNat }, rfl, partIs_commit hs
      ((if_neg (takes ht hc)).trans ((if_neg h0).trans (retryHeld_none _ ?_))) rfl ?_ (fun m hm => ?_) ?_ fun m hm => ?_, rfl,
      fun b hb => highest_verAct _ hb⟩
    · rw [part_updPart, if_pos rfl]; exact hh
    · rw [fn_updPart, fn_updPart, fn_updFn, if_pos rfl]
    · rw [fn_updPart, fn_updPart, fn_updFn, if_neg hm]
    · rw [part_updPart, if_pos rfl, part_updPart, if_pos rfl]
      show ({ part s.w f.part with veract := verAct v.toNat, fq := { (part s.w f.part).fq with held := [] } } : Part) = _
      rw [← hh]
    · rw [part_updPart, if_neg hm, part_updPart, if_neg hm]
      rfl

/-! TDISP and SPDM (R106, R195, R196). -/

theorem tdispStateChange_spec {s : State} (hs : s.Inv) (n : FnNo) (st : Fin 4) (hn : n.val ≠ 0) :
    let now := (fn s.w n.val).tdisp
    (st.val = 1 → now ≠ 0 → exec (.tdispStateChange n st) s = .next s) ∧ (st.val = 2 → now ≠ 1 → exec (.tdispStateChange n st) s = .next s) ∧
    ((st.val = 1 → now = 0) → (st.val = 2 → now = 1) → ∃ t, exec (.tdispStateChange n st) s = .next t ∧
      FnIs s t n.val { fn s.w n.val with tdisp := st.val }) := by
  intro now
  refine ⟨fun h1 h => event_same hs (if_pos (.inr (.inl ⟨h1, h⟩))), fun h2 h => event_same hs (if_pos (.inr (.inr ⟨h2, h⟩))), fun h1 h2 => ?_⟩
  have hgo : ¬ (n.val = 0 ∨ (st.val = 1 ∧ now ≠ 0) ∨ (st.val = 2 ∧ now ≠ 1)) := by tauto
  exact ⟨_, rfl, fnIs_commit hs (if_neg hgo) rfl (by rw [fn_updFn, if_pos rfl]) fun m hm => by rw [fn_updFn, if_neg hm]⟩

theorem spdmNegotiate_spec {s : State} (hs : s.Inv) (ver : Nat) (a h k : Bool) :
    let good := ver = 0x14 ∧ a = true ∧ h = true ∧ k = true
    ∃ t, exec (.spdmNegotiateAlgorithms ver a h k) s = .next t ∧ t.w.sec.session = none ∧
      (good → t.w.sec.spdmOk = true ∧ t.w.replies = .done :: s.w.replies) ∧
      (¬ good → t.w.sec.spdmOk = false ∧ t.w.replies = .error :: s.w.replies) ∧
      t = { s with w := { s.w with replies := t.w.replies, sec := t.w.sec } } := by
  intro good
  have hg : (ver == 0x14 && a && h && k) = true ↔ good := by simp [good, and_assoc]
  by_cases hgood : good
  · have hok := hg.mpr hgood
    refine ⟨_, event_quiet (if_pos hok) hs.wb, rfl, fun _ => ⟨hok, rfl⟩, fun hn => absurd hgood hn, rfl⟩
  · have hok : ¬ (ver == 0x14 && a && h && k) = true := fun hc => hgood (hg.mp hc)
    refine ⟨_, event_quiet (if_neg hok) hs.wb, rfl, fun hy => absurd hy hgood, fun _ => ⟨Bool.eq_false_iff.mpr hok, rfl⟩, rfl⟩

theorem spdmKeyExchange_spec {s : State} (hs : s.Inv) (link : Option (Fin 12)) (k : Bool) (peer : BitVec 256) :
    (s.w.sec.spdmOk = true ∧ k = true → ∃ t, exec (.spdmKeyExchange k ⟨link, peer⟩) s = .next t ∧
      t.w.replies = .done :: s.w.replies ∧
      match link with
      | none => t.w.sec.session.isSome = true ∧ t.w.sec = { s.w.sec with session := t.w.sec.session } ∧ t.w.ports = s.w.ports
      | some n => t.w.sec = s.w.sec ∧ (port t.w n.val).key.isSome = true ∧
          PortIs s t n.val { port s.w n.val with key := (port t.w n.val).key }) ∧
    (s.w.sec.spdmOk = false ∨ k = false → ∃ t, exec (.spdmKeyExchange k ⟨link, peer⟩) s = .next t ∧
      t = { s with w := { s.w with replies := .error :: s.w.replies } }) := by
  have hbad : (s.w.sec.spdmOk = false ∨ k = false) ↔ ((!s.w.sec.spdmOk) = true ∨ (!k) = true) := by simp
  refine ⟨fun ⟨hok, hk⟩ => ?_, fun h => ⟨_, event_quiet (if_pos (hbad.mp h)) hs.wb, rfl⟩⟩
  have hgo : ¬ ((!s.w.sec.spdmOk) = true ∨ (!k) = true) := by simp [hok, hk]
  cases link with
  | none => exact ⟨_, event_quiet (if_neg hgo) hs.wb, rfl, rfl, rfl, rfl⟩
  | some n =>
    have hp : ∀ (w : W) r m f, port (reply (updPort w n.val f) r) m = if m = n.val then f (port w n.val) else port w m :=
      fun w r m f => port_updPort w n.val m f
    refine ⟨_, event_quiet (if_neg hgo) hs.wb, rfl, rfl, ?_, rfl, ?_, fun m hm => ?_⟩
    · simp only [hp, if_true]; rfl
    · simp only [hp, if_true]
    · simp only [hp, if_neg hm]

theorem spdmGetMeasurements_spec {s : State} (hs : s.Inv) (i : Nat) :
    (1 ≤ i ∧ i ≤ 7 → ∃ t, exec (.spdmGetMeasurements i) s = .next t ∧ t.w.replies = .done :: s.w.replies ∧
      t.w.sec = { s.w.sec with spdmOut := t.w.sec.spdmOut } ∧ t.w.sec.spdmOut.head? = some i) ∧
    (i = 0 ∨ 7 < i → ∃ t, exec (.spdmGetMeasurements i) s = .next t ∧
      t = { s with w := { s.w with replies := .error :: s.w.replies } }) :=
  ⟨fun h => ⟨_, event_quiet (if_neg (by omega)) hs.wb, rfl, rfl, rfl⟩, fun h => ⟨_, event_quiet (if_pos h) hs.wb, rfl⟩⟩

theorem trustedInterfacesHold : TrustedInterfacesHold := fun _ hs =>
  ⟨fun n st hn => tdispStateChange_spec hs n st hn, fun ver a h k => spdmNegotiate_spec hs ver a h k,
    fun link k peer => spdmKeyExchange_spec hs link k peer, fun i => spdmGetMeasurements_spec hs i⟩

/-- Settles O48: a version in force is the last common bit of VERCAP and VERSEL, and each event of the trusted interfaces is one branch
of its meaning. -/
theorem versionsAndTrust : Obligations.VersionsAndTrust := ⟨versionsHold, trustedInterfacesHold⟩

end Sys2Proof.Claims
end

section
/-! Supply, power and temperature (R17, R158, R200). -/

namespace Sys2Proof.Machine

theorem tile_setDroop (w : W) (t n m : Nat) (sag : Bool) : tile (setDroop w t n sag) m =
    if m = t then { tile w t with droop := n, sag := sag, word := bvSet (tile w t).word 33 1 (decide (n < 8)).toNat } else tile w m :=
  tile_updTile _ _ _ _

/-- HEALTH's bit 33 tells whether the tile is slowed. -/
theorem setDroop_health (x : BitVec 64) (n : Nat) : (bvSet x 33 1 (decide (n < 8)).toNat).getLsbD 33 = decide (n < 8) := by
  rw [bvSet_getLsbD, if_pos (by omega), if_pos (by omega)]
  cases decide (n < 8) <;> rfl

@[simp] theorem tile_bumpDev (w : W) (e n t : Nat) : tile (bumpDev w e n) t = tile w t := rfl

theorem bumpDev_same (w : W) (e n : Nat) : tGetD (bumpDev w e n).hub.dev e 0 = (tGetD w.hub.dev e 0 + n) % 2 ^ 64 := by
  simp [bumpDev, tGetD_tPut]

/-- A droop of a tile at full speed counted in device event 3 (R158). -/
def countDroop (w : W) (t : Nat) : W := if (tile w t).droop = 8 then bumpDev w 3 1 else w

@[simp] theorem tile_countDroop (w : W) (t m : Nat) : tile (countDroop w t) m = tile w m := by
  unfold countDroop; split <;> rfl

theorem countDroop_wb (w : W) (t : Nat) : (countDroop w t).wb = w.wb := by
  unfold countDroop; split <;> rfl

theorem countDroop_dev (w : W) (t : Nat) : tGetD (countDroop w t).hub.dev 3 0 =
    if (tile w t).droop = 8 then (tGetD w.hub.dev 3 0 + 1) % 2 ^ 64 else tGetD w.hub.dev 3 0 := by
  unfold countDroop
  split
  · exact bumpDev_same _ _ _
  · rfl

theorem setDev_dev (w : W) (e v i : Nat) : tGetD (setDev w e v).hub.dev i 0 = if i = e then v else tGetD w.hub.dev i 0 := by
  simp [setDev, tGetD_tPut]

end Sys2Proof.Machine

namespace Sys2Proof.Claims

open Sys2Proof.Machine

/-- A step that sets a tile's droop level changes that tile alone. -/
theorem tileOnly_setDroop {s t : State} {n : Nat} (k : Nat) (sag : Bool) (ht : t = { s with w := setDroop s.w n k sag }) :
    TileOnly s t n ∧ (tile t.w n).droop = k ∧ (tile t.w n).sag = sag ∧ (tile t.w n).word.getLsbD 33 = decide (k < 8) := by
  subst ht
  refine ⟨⟨rfl, fun m hm => by rw [tile_setDroop, if_neg hm], rfl⟩, ?_⟩
  rw [tile_setDroop, if_pos rfl]
  exact ⟨rfl, rfl, setDroop_health _ _⟩

theorem supplyDroop_spec {s : State} (hs : s.Inv) (n : Fin 96) :
    let x := tile s.w n.val
    ∃ t, exec (.supplyDroop n) s = .next t ∧ t.mem = s.mem ∧ (tile t.w n.val).droop = min 7 x.droop ∧ (tile t.w n.val).sag = true ∧
      (tile t.w n.val).word.getLsbD 33 = true ∧ (∀ m, m ≠ n.val → tile t.w m = tile s.w m) ∧
      tGetD t.w.hub.dev 3 0 = if x.droop = 8 then (tGetD s.w.hub.dev 3 0 + 1) % 2 ^ 64 else tGetD s.w.hub.dev 3 0 := by
  intro x
  obtain ⟨⟨-, hothers, -⟩, hdroop, hsag, hword⟩ := tileOnly_setDroop (s := { s with w := countDroop s.w n.val }) (n := n.val)
    (min 7 (tile (countDroop s.w n.val) n.val).droop) true rfl
  refine ⟨_, event_quiet rfl ((countDroop_wb s.w n.val).trans hs.wb), rfl, ?_, hsag, ?_, fun m hm => ?_, countDroop_dev s.w n.val⟩
  · exact hdroop.trans (by rw [tile_countDroop])
  · exact hword.trans (decide_eq_true (by omega))
  · exact (hothers m hm).trans (tile_countDroop _ _ _)

theorem droopStep_spec {s : State} (hs : s.Inv) (n : Fin 96) :
    let x := tile s.w n.val
    ∃ t, exec (.droopStep n) s = .next t ∧ t.mem = s.mem ∧
      (x.sag = true → TileOnly s t n.val ∧ (tile t.w n.val).droop = max 4 (x.droop - 1)) ∧ (x.sag = false → t = s) := by
  intro x
  cases hx : x.sag with
  | true =>
    refine ⟨_, event_quiet (if_pos hx) hs.wb, rfl, fun _ => ?_, fun h => (nomatch h)⟩
    obtain ⟨honly, hdroop, -⟩ := tileOnly_setDroop (s := s) (n := n.val) (max 4 (x.droop - 1)) true rfl
    exact ⟨honly, hdroop⟩
  | false =>
    exact ⟨s, event_same hs (if_neg (by show ¬ x.sag = true; simp [hx])), rfl, fun h => (nomatch h), fun _ => rfl⟩

theorem droopRecovery_spec {s : State} (hs : s.Inv) (n : Fin 96) :
    ∃ t, exec (.droopRecovery n) s = .next t ∧ TileOnly s t n.val ∧ (tile t.w n.val).droop = 8 ∧ (tile t.w n.val).sag = false ∧
      (tile t.w n.val).word.getLsbD 33 = false :=
  ⟨_, event_quiet rfl hs.wb, tileOnly_setDroop 8 false rfl⟩

theorem powerCheckTick_spec {s : State} (hs : s.Inv) (mW : Nat) :
    ∃ t, exec (.powerCheckTick mW) s = .next t ∧ t.mem = s.mem ∧ tGetD t.w.hub.dev 2 0 = mW ∧
      let lim := (fn s.w 0).pwrlim * 1000
      let h := s.w.hub
      (lim < mW → t.w.hub.ceiling = max 4 (h.ceiling - 1) ∧ t.w.hub.below = 0) ∧
      (mW ≤ lim → lim * 95 ≤ mW * 100 → t.w.hub.ceiling = h.ceiling ∧ t.w.hub.below = 0) ∧
      (mW ≤ lim → mW * 100 < lim * 95 → 9 ≤ h.below → t.w.hub.ceiling = min 8 (h.ceiling + 1) ∧ t.w.hub.below = 0) ∧
      (mW ≤ lim → mW * 100 < lim * 95 → h.below < 9 → t.w.hub.ceiling = h.ceiling ∧ t.w.hub.below = h.below + 1) := by
  have hdev : tGetD (setDev s.w 2 mW).hub.dev 2 0 = mW := by rw [setDev_dev, if_pos rfl]
  by_cases hover : (fn s.w 0).pwrlim * 1000 < mW
  · refine ⟨_, event_quiet (if_pos hover) hs.wb, rfl, hdev, fun _ => ⟨rfl, rfl⟩, ?_, ?_, ?_⟩ <;> intros <;> omega
  by_cases hunder : mW * 100 < (fn s.w 0).pwrlim * 1000 * 95
  · by_cases hlong : 9 ≤ s.w.hub.below
    · refine ⟨_, event_quiet ((if_neg hover).trans ((if_pos hunder).trans (if_pos hlong))) hs.wb, rfl, hdev, ?_, ?_,
        fun _ _ _ => ⟨rfl, rfl⟩, ?_⟩ <;> intros <;> omega
    · refine ⟨_, event_quiet ((if_neg hover).trans ((if_pos hunder).trans (if_neg hlong))) hs.wb, rfl, hdev, ?_, ?_, ?_,
        fun _ _ _ => ⟨rfl, rfl⟩⟩ <;> intros <;> omega
  · refine ⟨_, event_quiet ((if_neg hover).trans (if_neg hunder)) hs.wb, rfl, hdev, ?_, fun _ _ => ⟨rfl, rfl⟩, ?_, ?_⟩ <;>
      intros <;> omega

theorem thermalTrip_spec {s : State} (hs : s.Inv) (d : Fin 2) (x : Nat) :
    ∃ t, exec (.thermalTrip d x) s = .next t ∧ t.mem = s.mem ∧ tGetD t.w.hub.dev d.val 0 = x ∧
      t.w.hub.hot = (s.w.hub.hot || decide (1680 ≤ x)) ∧ t.w.hub.ceiling = s.w.hub.ceiling ∧ (1680 ≤ x → clockCeiling t.w = 4) := by
  have hdev : tGetD (setDev s.w d.val x).hub.dev d.val 0 = x := by rw [setDev_dev, if_pos rfl]
  by_cases hx : 1680 ≤ x
  · exact ⟨_, event_quiet (if_pos hx) hs.wb, rfl, hdev, by rw [decide_eq_true hx, Bool.or_true], rfl, fun _ => rfl⟩
  · exact ⟨_, event_quiet (if_neg hx) hs.wb, rfl, hdev, by rw [decide_eq_false hx, Bool.or_false]; rfl, rfl, fun h => absurd h hx⟩

theorem thermalCeilingRelease_spec {s : State} (hs : s.Inv) (x y : Nat) :
    ∃ t, exec (.thermalCeilingRelease x y) s = .next t ∧ t.mem = s.mem ∧ tGetD t.w.hub.dev 0 0 = x ∧
      tGetD t.w.hub.dev 1 0 = y ∧ t.w.hub.hot = (s.w.hub.hot && !(decide (x < 1600) && decide (y < 1600))) ∧
      t.w.hub.ceiling = s.w.hub.ceiling := by
  have h0 : tGetD (setDev (setDev s.w 0 x) 1 y).hub.dev 0 0 = x := by rw [setDev_dev, if_neg (by decide), setDev_dev, if_pos rfl]
  have h1 : tGetD (setDev (setDev s.w 0 x) 1 y).hub.dev 1 0 = y := by rw [setDev_dev, if_pos rfl]
  by_cases hc : x < 1600 ∧ y < 1600
  · exact ⟨_, event_quiet (if_pos hc) hs.wb, rfl, h0, h1, by simp [hc], rfl⟩
  · refine ⟨_, event_quiet (if_neg hc) hs.wb, rfl, h0, h1, ?_, rfl⟩
    rw [← Bool.decide_and, decide_eq_false hc, Bool.not_false, Bool.and_true]
    rfl

/-- Settles O41: each event of the supply, the power check and the dies is one branch of its meaning. -/
theorem powerAndTemperature : Obligations.PowerAndTemperature :=
  ⟨fun n _ hs => ⟨supplyDroop_spec hs n, droopStep_spec hs n, droopRecovery_spec hs n⟩, fun mW _ hs => powerCheckTick_spec hs mW,
    fun d x _ hs => thermalTrip_spec hs d x, fun x y _ hs => thermalCeilingRelease_spec hs x y⟩

end Sys2Proof.Claims
end

section
/-! Bring-up (R13, R154, R199, R201). -/

namespace Sys2Proof.Machine

/-- What no step of a fold changes, the fold leaves as it was. -/
theorem foldl_keeps {α β γ : Type} (p : β → γ) {g : β → α → β} (h : ∀ w a, p (g w a) = p w) (l : List α) : ∀ w, p (l.foldl g w) = p w := by
  induction l with
  | nil => exact fun _ => rfl
  | cons a l ih => exact fun w => (ih _).trans (h w a)

/-- The hub, the tiles and the ports alone change, and not BOOTST's step. -/
structure SameButBoot (w w' : W) : Prop where
  rest : w' = { w with hub := w'.hub, tiles := w'.tiles, ports := w'.ports }
  boot : w'.hub.boot = w.hub.boot

theorem SameButBoot.trans {a b c : W} (h : SameButBoot a b) (h' : SameButBoot b c) : SameButBoot a c :=
  ⟨by rw [h'.rest, h.rest], h'.boot.trans h.boot⟩

theorem SameButBoot.foldl {α : Type} {g : W → α → W} (hg : ∀ w a, SameButBoot w (g w a)) (l : List α) : ∀ w, SameButBoot w (l.foldl g w) := by
  induction l with
  | nil => exact fun _ => ⟨rfl, rfl⟩
  | cons a l ih => exact fun w => (hg w a).trans (ih _)

/-! Tiles muted at bring-up (R201 steps 5 and 7). -/

/-- The gate of the neighbour in one direction closed towards a tile (R183). -/
def gateFacing (t : Nat) (w : W) (d : Nat) : W :=
  match neighbour t d with
  | none => w
  | some n => updTile w n fun x => { x with nb := setNth 4 x.nb ((d + 2) % 4) (bvSet (nth x.nb ((d + 2) % 4) 0) 19 2 3) 0 }

/-- A tile marked in a router's map (R184). -/
def mapWithout (t : Nat) (w : W) (r : Nat) : W := updTile w r fun x => { x with map := bvSet x.map t 1 1 }

/-- The tiles after a tile is muted at bring-up. -/
def muteTiles (w : W) (t : Nat) : W :=
  (List.range 96).foldl (mapWithout t) ((List.range 4).foldl (gateFacing t)
    (updTile w t fun x => { x with word := BitVec.ofNat 64 (2 ^ 16) }))

theorem muteAtStart_eq (w : W) (t : Nat) : muteAtStart w t = { muteTiles w t with hub := { (muteTiles w t).hub with
    reported := t :: (muteTiles w t).hub.reported
    reports := (muteTiles w t).hub.reports ++ [(0x20, tileNumber t, 0)]
    mutedSlices := if tileIsCore t then (muteTiles w t).hub.mutedSlices else sliceOfTile t :: (muteTiles w t).hub.mutedSlices } } := rfl

theorem updTile_keeps_word {w : W} {n u : Nat} {f : Tile → Tile} (hf : (f (tile w n)).word = (tile w n).word) :
    (tile (updTile w n f) u).word = (tile w u).word := by
  rw [tile_updTile]
  split
  · rename_i h; rw [hf, h]
  · rfl

theorem gateFacing_word (t u : Nat) (w : W) (d : Nat) : (tile (gateFacing t w d) u).word = (tile w u).word := by
  unfold gateFacing
  split
  · rfl
  · exact updTile_keeps_word rfl

theorem mapWithout_word (t u : Nat) (w : W) (r : Nat) : (tile (mapWithout t w r) u).word = (tile w u).word := updTile_keeps_word rfl

theorem muteTiles_word (w : W) (t u : Nat) :
    (tile (muteTiles w t) u).word = if u = t then BitVec.ofNat 64 (2 ^ 16) else (tile w u).word := by
  unfold muteTiles
  rw [foldl_keeps (fun w => (tile w u).word) (mapWithout_word t u), foldl_keeps (fun w => (tile w u).word) (gateFacing_word t u),
    tile_updTile]
  split <;> rfl

/-- Tiles alone change. -/
def SameButTiles (w w' : W) : Prop := w' = { w with tiles := w'.tiles }

theorem SameButTiles.trans {a b c : W} (h : SameButTiles a b) (h' : SameButTiles b c) : SameButTiles a c := by
  unfold SameButTiles at *
  rw [h', h]

theorem SameButTiles.foldl {α : Type} {g : W → α → W} (hg : ∀ w a, SameButTiles w (g w a)) (l : List α) :
    ∀ w, SameButTiles w (l.foldl g w) := by
  induction l with
  | nil => exact fun _ => rfl
  | cons a l ih => exact fun w => (hg w a).trans (ih _)

theorem gateFacing_frame (t : Nat) (w : W) (d : Nat) : SameButTiles w (gateFacing t w d) := by
  unfold gateFacing
  split <;> rfl

theorem muteTiles_frame (w : W) (t : Nat) : SameButTiles w (muteTiles w t) :=
  have word : SameButTiles w (updTile w t fun x => { x with word := BitVec.ofNat 64 (2 ^ 16) }) := rfl
  (word.trans (.foldl (gateFacing_frame t) _ _)).trans (.foldl (g := mapWithout t) (fun _ _ => rfl) _ _)

theorem SameButTiles.hub {w w' : W} (h : SameButTiles w w') : w'.hub = w.hub := by rw [h]

theorem muteTiles_hub (w : W) (t : Nat) : (muteTiles w t).hub = w.hub := (muteTiles_frame w t).hub

theorem tile_withHub (w : W) (h : Hub) (u : Nat) : tile { w with hub := h } u = tile w u := rfl

theorem muteAtStart_word (w : W) (t u : Nat) :
    (tile (muteAtStart w t) u).word = if u = t then BitVec.ofNat 64 (2 ^ 16) else (tile w u).word := by
  rw [muteAtStart_eq, tile_withHub, muteTiles_word]

theorem muteAtStart_reported (w : W) (t : Nat) : (muteAtStart w t).hub.reported = t :: w.hub.reported := by
  rw [muteAtStart_eq, muteTiles_hub]

theorem muteAtStart_slices (w : W) (t : Nat) :
    (muteAtStart w t).hub.mutedSlices = if tileIsCore t then w.hub.mutedSlices else sliceOfTile t :: w.hub.mutedSlices := by
  rw [muteAtStart_eq, muteTiles_hub]

theorem muteAtStart_frame (w : W) (t : Nat) : SameButBoot w (muteAtStart w t) := by
  rw [muteAtStart_eq]
  have h := muteTiles_frame w t
  generalize muteTiles w t = v at h
  rw [h]
  exact ⟨rfl, rfl⟩

/-- The words of tiles that a fold writes one after another. -/
theorem foldl_words {c : BitVec 64} {g : W → Nat → W} (hg : ∀ w a u, (tile (g w a) u).word = if u = a then c else (tile w u).word)
    (l : List Nat) (u : Nat) : ∀ w, (tile (l.foldl g w) u).word = if u ∈ l then c else (tile w u).word := by
  induction l with
  | nil => simp
  | cons a l ih =>
    intro w
    rw [List.foldl_cons, ih, hg]
    by_cases h1 : u ∈ l <;> by_cases h2 : u = a <;> simp [h1, h2]

theorem muted_reported (l : List Nat) (u : Nat) : ∀ w, u ∈ (l.foldl muteAtStart w).hub.reported ↔ u ∈ l ∨ u ∈ w.hub.reported := by
  induction l with
  | nil => simp
  | cons a l ih =>
    intro w
    rw [List.foldl_cons, ih, muteAtStart_reported, List.mem_cons, List.mem_cons]
    tauto

/-- The slice of a tile muted at bring-up stands among the muted slices. -/
theorem muted_slice {t : Nat} (ht : tileIsCore t = false) (l : List Nat) : ∀ w,
    t ∈ l ∨ sliceOfTile t ∈ w.hub.mutedSlices → sliceOfTile t ∈ (l.foldl muteAtStart w).hub.mutedSlices := by
  induction l with
  | nil => simp
  | cons a l ih =>
    intro w h
    rw [List.foldl_cons]
    apply ih
    rw [muteAtStart_slices]
    by_cases ha : t = a
    · subst ha; simp [ht]
    · rcases h with h | h
      · exact .inl ((List.mem_cons.mp h).resolve_left ha)
      · right; split
        · exact h
        · exact List.mem_cons_of_mem _ h

/-! The table (R154, R201 step 6). -/

/-- A core tile's PCN names that tile alone. -/
theorem pcnOfTile_iff {t p : Nat} : tileIsCore t = true ∧ pcnOfTile t = p ↔ t = tileOfPcn p := by
  simp only [tileIsCore, tileX, pcnOfTile, pcnAt, tileGy, tileOfPcn, tileAt, pcnX, pcnDie, pcnY, Bool.and_eq_true, bne_iff_ne, ne_eq]
  omega

/-- An entry's word as built has its fields. -/
theorem builtEntry {p : Nat} (hp : p < 72) :
    let e := BitVec.ofNat 64 (p + clusterOf p * 2 ^ 8 + posOf p * 2 ^ 13 + 2 ^ 18)
    bvF e 0 7 = p ∧ bvF e 18 1 = 1 ∧ bvF e 8 5 = clusterOf p ∧ bvF e 13 2 = posOf p ∧ bvF e 16 2 = 0 := by
  have : ∀ p, p < 72 → let e := BitVec.ofNat 64 (p + clusterOf p * 2 ^ 8 + posOf p * 2 ^ 13 + 2 ^ 18)
      bvF e 0 7 = p ∧ bvF e 18 1 = 1 ∧ bvF e 8 5 = clusterOf p ∧ bvF e 13 2 = posOf p ∧ bvF e 16 2 = 0 := by decide
  exact this p hp

theorem lptFields_other {x : BitVec 64} {v : Nat} :
    bvF (bvSet x 16 2 v) 0 7 = bvF x 0 7 ∧ bvF (bvSet x 16 2 v) 18 1 = bvF x 18 1 ∧ bvF (bvSet x 16 2 v) 8 5 = bvF x 8 5 ∧
      bvF (bvSet x 16 2 v) 13 2 = bvF x 13 2 :=
  ⟨bvF_bvSet_other x _ _ _ _ _ (by omega) (by omega), bvF_bvSet_other x _ _ _ _ _ (by omega) (by omega),
    bvF_bvSet_other x _ _ _ _ _ (by omega) (by omega), bvF_bvSet_other x _ _ _ _ _ (by omega) (by omega)⟩

/-- A tile's entry marked absent and muted. -/
def markMuted (w : W) (t : Nat) : W := setLpt w (pcnOfTile t) 16 2 3

theorem free_invalid : ¬ lptValid 0 = true := by decide

theorem markMuted_at (w : W) (t l : Nat) : lptAt (markMuted w t) l =
    if lptValid (lptAt w l) = true ∧ lptPcn (lptAt w l) = pcnOfTile t then bvSet (lptAt w l) 16 2 3 else lptAt w l := by
  by_cases hl : l < w.hub.lpt.length
  · simp [lptAt, markMuted, setLpt, nth, hl]
  · have : lptAt w l = 0 := by simp [lptAt, nth, hl]
    rw [this, if_neg fun h => free_invalid h.1]
    simp [lptAt, markMuted, setLpt, nth, hl]

theorem markMuted_frame (w : W) (t : Nat) : SameButBoot w (markMuted w t) := ⟨rfl, rfl⟩

/-- A free entry stays free. -/
theorem marked_none {l : Nat} (ts : List Nat) : ∀ w, lptAt w l = 0 → lptAt (ts.foldl markMuted w) l = 0 := by
  induction ts with
  | nil => exact fun _ h => h
  | cons a ts ih =>
    intro w h
    exact ih _ (by rw [markMuted_at, h, if_neg fun h => free_invalid h.1])

/-- What a fold of marks leaves of the entry of a PCN: its fields, and 3 in the mute bits where one of the tiles is its own. -/
theorem marked_some {l p c o : Nat} (ts : List Nat) : ∀ w b,
    (bvF (lptAt w l) 0 7 = p ∧ bvF (lptAt w l) 18 1 = 1 ∧ bvF (lptAt w l) 8 5 = c ∧ bvF (lptAt w l) 13 2 = o ∧ bvF (lptAt w l) 16 2 = b) →
    let e := lptAt (ts.foldl markMuted w) l
    bvF e 0 7 = p ∧ bvF e 18 1 = 1 ∧ bvF e 8 5 = c ∧ bvF e 13 2 = o ∧ bvF e 16 2 = if ∃ t ∈ ts, pcnOfTile t = p then 3 else b := by
  induction ts with
  | nil => intro w b h; simpa using h
  | cons a ts ih =>
    intro w b h
    obtain ⟨hp, hv, hc, ho, hb⟩ := h
    obtain ⟨h1, h2, h3, h4⟩ := @lptFields_other (lptAt w l) 3
    have hw := markMuted_at w a l
    simp only [lptValid, lptPcn, hp, hv, beq_self_eq_true, true_and] at hw
    by_cases ha : pcnOfTile a = p
    · rw [if_pos ha.symm] at hw
      have hs : bvF (bvSet (lptAt w l) 16 2 3) 16 2 = 3 := bvF_bvSet_same _ _ _ _ (by omega)
      have := ih (markMuted w a) 3 (by rw [hw]; exact ⟨h1.trans hp, h2.trans hv, h3.trans hc, h4.trans ho, hs⟩)
      simpa [ha] using this
    · rw [if_neg fun e => ha e.symm] at hw
      have := ih (markMuted w a) b (by rw [hw]; exact ⟨hp, hv, hc, ho, hb⟩)
      simpa [ha] using this

/-! Ports (R199, R201 step 8). -/

theorem startPort_frame (l : List (Nat × Nat)) (w : W) (n : Nat) : SameButBoot w (startPort l w n) := by
  unfold startPort
  simp only
  split <;> exact ⟨rfl, rfl⟩

/-- The versions that the other end of a port advertises (R199). -/
def advertised (l : List (Nat × Nat)) (n : Nat) : Nat := ((l.find? fun x => x.1 == n).map (·.2)).getD 0

/-- The version that a port comes up with; 0 when it stays down. -/
def linkVersion (l : List (Nat × Nat)) (n : Nat) : Nat := verBest (BitVec.ofNat 2 (advertised l n)).toNat

theorem startPort_eq (l : List (Nat × Nat)) (w : W) (n : Nat) : startPort l w n =
    if linkVersion l n ≠ 0 then updPort w n fun p => { p with up := true, ver := linkVersion l n }
    else { w with hub := { w.hub with reports := w.hub.reports ++ [(0x14, n + (if advertised l n = 0 then 1 else 2) * 256, 0)] } } := rfl

theorem port_startPort (l : List (Nat × Nat)) (w : W) (n p : Nat) : port (startPort l w n) p =
    if p = n ∧ linkVersion l n ≠ 0 then { port w n with up := true, ver := linkVersion l n } else port w p := by
  rw [startPort_eq]
  by_cases hv : linkVersion l n ≠ 0
  · rw [if_pos hv, port_updPort]; simp [hv]
  · simp [hv, port]

/-- A port that one of the negotiations concerns comes up with its version; another, and one without a version, stays. -/
theorem port_started (l : List (Nat × Nat)) (p : Nat) (ns : List Nat) : ∀ w,
    (linkVersion l p = 0 → port (ns.foldl (startPort l) w) p = port w p) ∧
    (linkVersion l p ≠ 0 → p ∈ ns ∨ ((port w p).up = true ∧ (port w p).ver = linkVersion l p) →
      (port (ns.foldl (startPort l) w) p).up = true ∧ (port (ns.foldl (startPort l) w) p).ver = linkVersion l p) := by
  induction ns with
  | nil => simp
  | cons n ns ih =>
    intro w
    obtain ⟨h0, h1⟩ := ih (startPort l w n)
    rw [List.foldl_cons]
    refine ⟨fun hv => ?_, fun hv h => h1 hv ?_⟩
    · rw [h0 hv, port_startPort, if_neg]
      rintro ⟨rfl, hn⟩
      exact hn hv
    · by_cases hp : p = n
      · subst hp
        exact .inr (by rw [port_startPort, if_pos ⟨rfl, hv⟩]; exact ⟨rfl, rfl⟩)
      · rw [port_startPort, if_neg fun h => hp h.1]
        exact h.imp_left fun h => (List.mem_cons.mp h).resolve_left hp

/-- The report of a port that stays down (R201). -/
theorem reports_started (l : List (Nat × Nat)) {p : Nat} (hv : linkVersion l p = 0) (ns : List Nat) : ∀ w,
    p ∈ ns ∨ (0x14, p + (if advertised l p = 0 then 1 else 2) * 256, 0) ∈ w.hub.reports →
    (0x14, p + (if advertised l p = 0 then 1 else 2) * 256, 0) ∈ (ns.foldl (startPort l) w).hub.reports := by
  induction ns with
  | nil => simp
  | cons n ns ih =>
    intro w h
    rw [List.foldl_cons]
    refine ih _ ?_
    by_cases hp : p = n
    · subst hp
      exact .inr (by rw [startPort_eq, if_neg (not_not_intro hv)]; simp)
    · refine h.imp (fun h => (List.mem_cons.mp h).resolve_left hp) fun h => ?_
      rw [startPort_eq]
      split
      · exact h
      · exact List.mem_append_left _ h

/-! REPLME (R179, R201 step 9). -/

/-- A sum of distinct powers of two, all moved up by o bits. -/
theorem shiftedBits (f : Nat → Bool) (o n : Nat) : (List.range n).foldl (fun x i => if f i then x + 2 ^ (o + i) else x) 0 =
    2 ^ o * (List.range n).foldl (fun x i => if f i then x + 2 ^ i else x) 0 := by
  induction n with
  | zero => rfl
  | succ n ih =>
    rw [List.range_succ, List.foldl_append, List.foldl_append, ih]
    simp only [List.foldl_cons, List.foldl_nil]
    split
    · rw [Nat.mul_add, Nat.pow_add]
    · rfl

/-- The low three bits of REPLME: dies 0 and 1, and a muted slice. -/
def replmeLow (w : W) : Nat :=
  (if 2 < absentOn w 0 then 1 else 0) + (if 2 < absentOn w 1 then 2 else 0) + (if w.hub.mutedSlices = [] then 0 else 4)

theorem replmeLow_testBit (w : W) (k : Nat) : (replmeLow w).testBit k =
    ((decide (k < 2) && decide (2 < absentOn w k)) || (decide (k = 2) && decide (w.hub.mutedSlices ≠ []))) := by
  have small : replmeLow w < 2 ^ 3 := by unfold replmeLow; split <;> split <;> split <;> omega
  match k with
  | 0 | 1 | 2 =>
    unfold replmeLow
    by_cases h0 : 2 < absentOn w 0 <;> by_cases h1 : 2 < absentOn w 1 <;> by_cases h2 : w.hub.mutedSlices = [] <;>
      simp [h0, h1, h2, Nat.testBit_eq_decide_div_mod_eq]
  | k + 3 =>
    rw [Nat.testBit_lt_two_pow (lt_of_lt_of_le small (Nat.pow_le_pow_right (by omega) (by omega)))]
    simp

theorem replmeBits_testBit (w : W) (k : Nat) : (replmeBits w).testBit k =
    if k < 24 then (replmeLow w).testBit k else decide (k < 48) && sliceMuted w (k - 24) := by
  have small : replmeLow w < 2 ^ 24 := by unfold replmeLow; split <;> split <;> split <;> omega
  have hsum : replmeBits w = 2 ^ 24 * (List.range 24).foldl (fun x i => if sliceMuted w i then x + 2 ^ i else x) 0 + replmeLow w := by
    rw [Nat.add_comm, ← shiftedBits]; rfl
  rw [hsum, Nat.testBit_two_pow_mul_add _ small]
  split
  · rfl
  · rw [(mask_fold_testBit (sliceMuted w) 24 (k - 24)).2]
    congr 1
    exact decide_eq_decide.mpr (by omega)

/-! The steps' actions (R201). -/

/-- Every tile of the mesh with HEALTH clear of errors, before step 5 mutes those that failed. -/
def testedTiles (w : W) : W := (List.range 96).foldl (fun w t => updTile w t fun x => { x with word := BitVec.ofNat 64 (2 ^ 32) }) w

theorem testedTiles_frame (w : W) : SameButBoot w (testedTiles w) :=
  .foldl (g := fun w t => updTile w t fun x => { x with word := BitVec.ofNat 64 (2 ^ 32) }) (fun _ _ => ⟨rfl, rfl⟩) (List.range 96) w

theorem bootAct_frame {e : Env} {w : W} {b : BringUp} {n : Nat} (hn : w.hub.boot = n) : SameButBoot w (bootAct e w b n) := by
  have muted : ∀ (v : W) (l : List Nat), SameButBoot w v → SameButBoot w (l.foldl muteAtStart v) := fun v l h => h.trans (.foldl muteAtStart_frame l v)
  unfold bootAct
  split
  · split
    · exact ⟨rfl, rfl⟩
    · exact ⟨rfl, hn.symm⟩
  · split
    · exact ⟨rfl, rfl⟩
    · exact ⟨rfl, hn.symm⟩
  · split
    · exact ⟨rfl, rfl⟩
    · exact ⟨rfl, hn.symm⟩
  · exact muted (testedTiles w) _ (testedTiles_frame w)
  · exact SameButBoot.trans (b := { w with hub := { w.hub with lpt := buildLpt e.fix } }) ⟨rfl, rfl⟩ (.foldl markMuted_frame _ _)
  · exact muted w _ ⟨rfl, rfl⟩
  · exact SameButBoot.trans (.foldl (startPort_frame b.ports) (List.range 12) w) ⟨rfl, rfl⟩
  · exact ⟨rfl, rfl⟩
  · exact ⟨rfl, rfl⟩

theorem testedTiles_word (w : W) {u : Nat} (hu : u < 96) : (tile (testedTiles w) u).word = BitVec.ofNat 64 (2 ^ 32) := by
  unfold testedTiles
  rw [foldl_words (c := BitVec.ofNat 64 (2 ^ 32)) fun w a u => by rw [tile_updTile]; split <;> rfl, if_pos (List.mem_range.mpr hu)]

theorem bootAct_tiles (e : Env) (w : W) (b : BringUp) :
    bootAct e w b 5 = ((b.badTiles.filter (· < 96)).dedup).foldl muteAtStart (testedTiles w) := rfl

theorem mem_badTiles {l : List Nat} {u : Nat} (hu : u < 96) : u ∈ (l.filter (· < 96)).dedup ↔ u ∈ l := by simp [hu]

/-- Step 5 mutes the tiles that failed, and only them. -/
theorem bootTiles_spec (e : Env) (w : W) (b : BringUp) {u : Nat} (hu : u < 96) :
    bvF (tile (bootAct e w b 5) u).word 16 4 = (if u ∈ b.badTiles then 1 else 0) ∧
    (u ∈ b.badTiles → u ∈ (bootAct e w b 5).hub.reported ∧
      (tileIsCore u = false → sliceOfTile u ∈ (bootAct e w b 5).hub.mutedSlices)) := by
  rw [bootAct_tiles]
  refine ⟨?_, fun h => ⟨?_, fun hc => ?_⟩⟩
  · rw [foldl_words muteAtStart_word, testedTiles_word w hu]
    by_cases h : u ∈ b.badTiles
    · rw [if_pos ((mem_badTiles hu).mpr h), if_pos h]; decide
    · rw [if_neg fun hm => h ((mem_badTiles hu).mp hm), if_neg h]; decide
  · exact (muted_reported _ _ _).mpr (.inl ((mem_badTiles hu).mpr h))
  · exact muted_slice hc _ _ (.inl ((mem_badTiles hu).mpr h))

/-- The tiles of bad channels whose tiles are not muted yet (R201 step 7). -/
def badSliceTiles (w : W) (l : List Nat) : List Nat :=
  (((l.filter (· < 384)).map fun c => tileOfSlice (c / 16)).dedup).filter fun t => !w.hub.reported.contains t

theorem sliceOfTile_tileOfSlice {sl : Nat} (h : sl < 24) : tileIsCore (tileOfSlice sl) = false ∧ sliceOfTile (tileOfSlice sl) = sl := by
  have : ∀ sl, sl < 24 → tileIsCore (tileOfSlice sl) = false ∧ sliceOfTile (tileOfSlice sl) = sl := by decide
  exact this sl h

/-- Step 7 mutes the slices of bad channels. -/
theorem bootChannels_spec (e : Env) (w : W) (b : BringUp) {c : Nat} (hc : c < 384) (hb : c ∈ b.badChannels)
    (hr : tileOfSlice (c / 16) ∉ w.hub.reported) :
    c / 16 ∈ (bootAct e w b 7).hub.mutedSlices ∧ tileOfSlice (c / 16) ∈ (bootAct e w b 7).hub.reported := by
  have hmem : tileOfSlice (c / 16) ∈ badSliceTiles w b.badChannels := by
    simp only [badSliceTiles, List.mem_filter, List.mem_dedup, List.mem_map, decide_eq_true_eq]
    exact ⟨⟨c, ⟨hb, hc⟩, rfl⟩, by simpa using hr⟩
  obtain ⟨hcore, hsl⟩ := sliceOfTile_tileOfSlice (sl := c / 16) (by omega)
  have hm := muted_slice hcore (badSliceTiles w b.badChannels) w (.inl hmem)
  rw [hsl] at hm
  exact ⟨hm, (muted_reported (badSliceTiles w b.badChannels) _ w).mpr (.inl hmem)⟩

theorem bootAct_ports (e : Env) (w : W) (b : BringUp) : bootAct e w b 8 =
    { (List.range 12).foldl (startPort b.ports) w with
      hub := { ((List.range 12).foldl (startPort b.ports) w).hub with fdev := b.fdev % 640 } } := rfl

/-- Step 6 gives entry l the l-th enabled core, marked where its tile is muted, and leaves an entry of none free. -/
theorem bootTable_spec (e : Env) (w : W) (b : BringUp) {l : Nat} (hl : l < 72) :
    (e.fix.enabled[l]? = none → lptAt (bootAct e w b 6) l = 0) ∧
    ∀ p, e.fix.enabled[l]? = some p → let x := lptAt (bootAct e w b 6) l
      bvF x 0 7 = p ∧ bvF x 18 1 = 1 ∧ bvF x 8 5 = clusterOf p ∧ bvF x 13 2 = posOf p ∧
        bvF x 16 2 = if tileOfPcn p ∈ w.hub.reported then 3 else 0 := by
  have built : ∀ w : W, w.hub.lpt = buildLpt e.fix → lptAt w l = match e.fix.enabled[l]? with
      | none => 0
      | some p => BitVec.ofNat 64 (p + clusterOf p * 2 ^ 8 + posOf p * 2 ^ 13 + 2 ^ 18) := by
    intro w hw
    rw [lptAt, hw, buildLpt, nth, List.getD_eq_getElem?_getD, List.getElem?_map, List.getElem?_range hl]
    rfl
  constructor
  · intro h
    exact marked_none (w.hub.reported.filter tileIsCore) _ (by rw [built _ rfl, h])
  · intro p h
    have hp : p < 72 := List.mem_range.mp (List.mem_filter.mp (List.mem_of_getElem? h)).1
    have hm := marked_some (l := l) (p := p) (c := clusterOf p) (o := posOf p) (w.hub.reported.filter tileIsCore)
      { w with hub := { w.hub with lpt := buildLpt e.fix } } 0 (by rw [built _ rfl, h]; exact builtEntry hp)
    have hex : (∃ t ∈ w.hub.reported.filter tileIsCore, pcnOfTile t = p) ↔ tileOfPcn p ∈ w.hub.reported := by
      constructor
      · rintro ⟨t, ht, hp⟩
        obtain ⟨hr, hc⟩ := List.mem_filter.mp ht
        rwa [← pcnOfTile_iff.mp ⟨hc, hp⟩]
      · intro hr
        obtain ⟨hc, hp⟩ := pcnOfTile_iff.mpr (rfl : tileOfPcn p = tileOfPcn p)
        exact ⟨_, List.mem_filter.mpr ⟨hr, hc⟩, hp⟩
    simp only [hex] at hm
    exact hm

end Sys2Proof.Machine

namespace Sys2Proof.Claims

open Sys2Proof.Machine

/-- BOOTST shows the number of the step that starts. -/
def atNextStep (w : W) : W := { w with hub := { w.hub with boot := w.hub.boot + 1 } }

/-- What the next step of bring-up leaves. -/
def nextStep (s : State) (b : BringUp) : W := bootAct s.env (atNextStep s.w) b (s.w.hub.boot + 1)

theorem bringUp_next {b : BringUp} {s : State} (hs : s.Inv) (hf : s.w.hub.failed = false) (hb : s.w.hub.boot < 9) :
    exec (.deviceBringUp b) s = .next { s with w := nextStep s b } ∧ SameButBoot (atNextStep s.w) (nextStep s b) := by
  have hgo : ¬ (s.w.hub.failed = true ∨ 9 ≤ s.w.hub.boot) := by simp [hf]; omega
  have frame : SameButBoot (atNextStep s.w) (nextStep s b) := bootAct_frame rfl
  exact ⟨event_quiet (if_neg hgo) (by rw [frame.rest]; exact hs.wb), frame⟩

theorem enabled_eq (f : Fixed) : enabled f = f.enabled := by
  unfold enabled Fixed.enabled harvested
  congr 1
  funext p
  split <;> rfl

/-- The highest version of two that a port has in common with its link's other end (R199). -/
theorem highest_linkVersion (l : List (Nat × Nat)) (p : Nat) : Highest 3 (advertised l p) (linkVersion l p) :=
  highest_verBest fun i _ => by
    have h3 : Nat.testBit 3 i = decide (i < 2) := Nat.testBit_two_pow_sub_one 2 i
    rw [h3, BitVec.toNat_ofNat, Nat.testBit_mod_two_pow]

/-- Step 8 sets FDEV and brings each port up with the highest common version, or leaves it down with a report. -/
theorem bootPorts_spec (e : Env) {w : W} (b : BringUp) :
    (bootAct e w b 8).hub.fdev = b.fdev % 640 ∧ ∀ p, p < 12 → w.ports = [] → ∃ v, Highest 3 (advertised b.ports p) v ∧
      (0 < v → (port (bootAct e w b 8) p).up = true ∧ (port (bootAct e w b 8) p).ver = v) ∧
      (v = 0 → (port (bootAct e w b 8) p).up = false ∧
        (0x14, p + (if advertised b.ports p = 0 then 1 else 2) * 256, 0) ∈ (bootAct e w b 8).hub.reports) := by
  rw [bootAct_ports]
  refine ⟨rfl, fun p hp hw => ⟨linkVersion b.ports p, highest_linkVersion _ _, fun hv => ?_, fun hv => ⟨?_, ?_⟩⟩⟩
  · exact (port_started b.ports p (List.range 12) w).2 (by omega) (.inl (List.mem_range.mpr hp))
  · have h := (port_started b.ports p (List.range 12) w).1 hv
    exact (congrArg Port.up h).trans (by simp [port, hw, tGetD, tGet?, Port.init])
  · exact reports_started b.ports hv (List.range 12) w (.inl (List.mem_range.mpr hp))

/-- Step 9 makes the hub ready and gives REPLME its bits. -/
theorem bootReady_spec (e : Env) (w : W) (b : BringUp) :
    (bootAct e w b 9).hub.ready = true ∧ ((bootAct e w b 9).hub.replme.getLsbD 2 = true ↔ w.hub.mutedSlices ≠ []) ∧
    (∀ d, d < 2 → ((bootAct e w b 9).hub.replme.getLsbD d = true ↔ 2 < absentOn w d)) ∧
    (∀ sl, sl < 24 → ((bootAct e w b 9).hub.replme.getLsbD (24 + sl) = true ↔ sl ∈ w.hub.mutedSlices)) ∧
    ∀ k, (3 ≤ k ∧ k < 24) ∨ 48 ≤ k → (bootAct e w b 9).hub.replme.getLsbD k = false := by
  have bit : ∀ k, k < 64 → (bootAct e w b 9).hub.replme.getLsbD k = (replmeBits w).testBit k := fun k hk => by
    show (BitVec.ofNat 64 (replmeBits w)).getLsbD k = _
    rw [BitVec.getLsbD_ofNat, decide_eq_true hk, Bool.true_and]
  refine ⟨rfl, ?_, fun d hd => ?_, fun sl hs => ?_, fun k hk => ?_⟩
  · rw [bit 2 (by omega), replmeBits_testBit, if_pos (by omega), replmeLow_testBit]
    simp
  · rw [bit d (by omega), replmeBits_testBit, if_pos (by omega), replmeLow_testBit]
    simp [hd, show d ≠ 2 by omega]
  · rw [bit _ (by omega), replmeBits_testBit, if_neg (by omega), show 24 + sl - 24 = sl by omega]
    simp [sliceMuted, show 24 + sl < 48 by omega]
  · by_cases h64 : k < 64
    · rw [bit k h64, replmeBits_testBit]
      split
      · rw [replmeLow_testBit]; simp; omega
      · simp; omega
    · exact BitVec.getLsbD_of_ge _ _ (by omega)

/-- Step 1, 2 or 3 finds what stops bring-up (R201). -/
def Fails (b : BringUp) (h : Hub) : Prop :=
  (h.boot = 0 ∧ b.secureBoot = false) ∨ (h.boot = 1 ∧ b.hubStart = false) ∨ (h.boot = 2 ∧ b.meshTrain = false)

theorem bootAct_fails {e : Env} {w : W} {b : BringUp} {h : Hub} (hf : Fails b h) :
    bootAct e w b (h.boot + 1) = { w with hub := { w.hub with boot := h.boot + 1, failed := true, reason := h.boot + 1 } } := by
  rcases hf with ⟨hb, hx⟩ | ⟨hb, hx⟩ | ⟨hb, hx⟩ <;> simp [hb, hx, bootAct, failBoot]

theorem bootAct_early {e : Env} {w : W} {b : BringUp} {h : Hub} (hb : h.boot < 4) (hf : ¬ Fails b h) : bootAct e w b (h.boot + 1) = w := by
  unfold Fails at hf
  have hcases : h.boot = 0 ∨ h.boot = 1 ∨ h.boot = 2 ∨ h.boot = 3 := by omega
  rcases hcases with h0 | h0 | h0 | h0 <;> simp_all [bootAct]

/-- Settles O46: the action of each step, one lemma a step. -/
theorem bringUpSteps : Obligations.BringUpSteps := by
  intro b s hs h fails
  refine ⟨fun hstop => event_same hs (if_pos hstop), fun hf hb => ?_⟩
  obtain ⟨hnext, frame⟩ := bringUp_next (b := b) hs hf hb
  have step : ∀ k, h.boot = k → nextStep s b = bootAct s.env (atNextStep s.w) b (k + 1) := fun k hk => by rw [← hk]; rfl
  refine ⟨_, hnext, frame.boot, rfl, by rw [frame.rest]; rfl, fun hfail => ?_, fun h4 hfail => ?_, fun h4 u hu => ?_, fun h5 l hl => ?_,
    fun h6 c hc hbad hr => ?_, fun h7 => ?_, fun h8 => ?_⟩
  · exact congrArg (fun w => { s with w := w }) (bootAct_fails hfail)
  · exact congrArg (fun w => { s with w := w }) (bootAct_early h4 hfail)
  · rw [step 4 h4]
    exact bootTiles_spec s.env (atNextStep s.w) b hu
  · rw [step 5 h5, enabled_eq]
    obtain ⟨hnone, hsome⟩ := bootTable_spec s.env (atNextStep s.w) b hl
    cases he : s.fix.enabled[l]? with
    | none => exact hnone he
    | some p => exact hsome p he
  · rw [step 6 h6]
    exact bootChannels_spec s.env (atNextStep s.w) b hc hbad hr
  · rw [step 7 h7]
    obtain ⟨hfdev, hports⟩ := bootPorts_spec s.env (w := atNextStep s.w) b
    exact ⟨hfdev, fun p hp _ hw => hports p hp hw⟩
  · rw [step 8 h8]
    exact bootReady_spec s.env (atNextStep s.w) b

end Sys2Proof.Claims
end

section
/-! Counters of slices (R158, R159). -/

namespace Sys2Proof.Machine

/-- A slice's events 2 to 4 are read where they are counted: under 16 times the slice plus the event. -/
theorem sampleCounter_slice (w : W) {sl ev : Nat} (hs : sl < 24) (h2 : 2 ≤ ev) (h5 : ev < 5) :
    sampleCounter w (0x3000 + 16 * sl + ev) = (tGetD w.hub.sliceEv (16 * sl + ev) 0, w) := by
  have hpos : (0x3000 + 16 * sl + ev - 0x3000) % 16 = ev := by omega
  have hidx : 0x3000 + 16 * sl + ev - 0x3000 = 16 * sl + ev := by omega
  have htime : countsTiming (0x3000 + 16 * sl + ev) = false := by
    simp only [countsTiming, hpos, Bool.or_eq_false_iff, Bool.and_eq_false_iff, decide_eq_false_iff_not]
    omega
  have hval : counterValue w (0x3000 + 16 * sl + ev) = tGetD w.hub.sliceEv (16 * sl + ev) 0 := by
    unfold counterValue
    rw [if_neg (by omega), if_neg (by omega), if_pos (by omega), hpos, if_pos h5, hidx]
  rw [sampleCounter, htime, hval, if_neg Bool.false_ne_true]

end Sys2Proof.Machine

namespace Sys2Proof.Claims

open Sys2Proof.Machine

/-- A read of CRVAL by the PF answers with the sampled counter (R159). -/
theorem counterRead_pf {s : State} {v : Nat} (hs : s.Inv) (hl : 2 ≤ s.w.hub.boot)
    (hv : sampleCounter s.w (fn s.w 0).crsel = (v, s.w)) :
    exec (.counterRead 0) s = .next { s with
      w := reply (updFn s.w 0 fun f => { f with crval := BitVec.ofNat 64 v, denied := false }) (.data (leBytes 8 v)) } := by
  refine event_quiet ?_ hs.wb
  have hlink : ¬ (!linkUp s.w) = true := by simp [linkUp, hl]
  refine (if_neg hlink).trans ((if_neg fun h => h.1 rfl).trans ((if_pos (.inl rfl)).trans ?_))
  simp only [show ((0 : FnNo) : Nat) = 0 from rfl, hv]

/-- After bring-up step 2, slice 0's event 2 counted 5 times, and CRSEL of the PF names it. -/
def sliceCounted : State :=
  { State.reset with w := { W.init with
      hub := { Hub.init with boot := 2, sliceEv := [(2, 5)] }
      fns := [(0, { Fn.init with crsel := 0x3002 })] } }

/-- What the claim takes for the value there: entry 0x3002 of a table whose entries are numbered by slice and event. -/
theorem sliceCounted_claimed : CounterIs sliceCounted (fn sliceCounted.w 0).crsel 0 := by
  have hid : (fn sliceCounted.w 0).crsel = 0x3002 := rfl
  rw [hid]
  exact ⟨fun h => absurd h (by omega), fun pcn _ _ => by omega, fun sl e _ _ _ => by omega, fun pcn e _ _ _ _ => by omega,
    fun _ _ _ _ _ _ => rfl, fun p _ _ => by omega⟩

/-- Refutes O47: the value that CounterIs gives for a slice's events 2 to 4 is entry 0x3000 + 16 s + e of the hub's table, whose entry 16 s
+ e is where the device counts them and where a read of CRVAL finds them. With slice 0's event 2 at 5 the read returns 5, and the claim has
it return 0. -/
theorem not_functionRegisters : ¬ Obligations.FunctionRegisters := by
  unfold Obligations.FunctionRegisters
  rintro ⟨-, -, hcounters, -⟩
  have hinv : sliceCounted.Inv := ⟨rfl, rfl⟩
  obtain ⟨hread, -⟩ := hcounters 0 sliceCounted 0 hinv sliceCounted_claimed
  obtain ⟨t, ht, hreplies, -⟩ := hread ⟨le_refl 2, .inl rfl⟩ (.inr (.inr (.inl ⟨0, 2, by omega, by omega, rfl⟩))) (.inl rfl)
  rw [counterRead_pf hinv (le_refl 2) (sampleCounter_slice sliceCounted.w (sl := 0) (ev := 2) (by omega) (by omega) (by omega))] at ht
  obtain rfl := Host.Outcome.next.inj ht
  have hbytes : leBytes 8 5 = leBytes 8 0 := Reply.data.inj (List.cons.inj hreplies).1
  exact absurd hbytes (by decide)

end Sys2Proof.Claims
end

section
/-! An engine reset's poison does not last (R177): O21 fails where a row group lies outside the accumulators. -/

namespace Sys2Proof.Claims

open Sys2Proof.Machine Sys2Proof.Tests

/-- A row group far beyond a quadrant's eight, whose block's key is the first key of host memory of partition 1: nothing among the claim's
hypotheses bounds the groups that a consort lists. -/
def farGroup : Nat := 2 ^ 69 - 2 ^ 26

theorem farGroup_key : (⟨0, 0, farGroup, 0⟩ : Block).key = keyHost 1 0 0 := by decide +kernel

/-- An AZERO of the consort on sequencer 0, its step still to come, whose entries go to partition 1. -/
def farOp : EngOp := { sigOp W.init course 0 0 1 with kind := .azero, part := 1, total := 1 }

/-- Partition 1, with a fault queue of eight entries at virtual address 2^30. -/
def farPart : Part := { progPart with cores := 0, fq := { Fq.init with base := 2 ^ 30, size := 8 } }

/-- Virtual addresses from 2^30 lead to host memory from 0, which ATS grants to partition 1; the consort's rows in quadrant 0 are the far
group, which it holds, and sequencer 0 has the AZERO. -/
def farS : State :=
  let s := Tests.stateOf id fun w => { w with
    consorts := [(0, { consort with rows := [[farGroup], [0], [0], [0]] })]
    cores := [(0, { core0 with groups := [(farGroup, 0)] })]
    parts := w.parts ++ [(1, farPart)]
    ops := [(0, farOp)]
    ats := [⟨1, 0, 0, 0, true, true⟩] }
  { s with mem := poke s.mem 0x4008 8 (2 ^ 0 + 2 ^ 1 + 2 ^ 2 + 3 * 2 ^ 6 + 1 * 2 ^ 9) }

theorem farS_privileged : Privileged farS demoX all { Uses.none with s := [1] } :=
  privileged_of (issues_of (by decide +kernel)) (by decide +kernel) (by decide +kernel)

theorem farS_keyed : Keyed farS := keyed_of (by decide +kernel)

theorem farS_block : Machine.stepBlock farS.w 0 0 = some ⟨0, 0, farGroup, 0⟩ := by decide +kernel

/-- Whether a step leaves a key poisoned. -/
def leavesPoison (a : Nat) : Host.Outcome State Fault Refusal → Bool
  | .next t => isPois t.w a
  | _ => false

/-- The reset poisons the block, and then the ENGERR entry of the AZERO is written over it. -/
theorem farS_clean : leavesPoison (keyHost 1 0 0) (exec (.engrst all 3 1 0) farS) = false := by decide +kernel

/-- Refutes O21, by its claim about engine resets: the claim wants the output block's poison to outlast the step. The ENGERR entry that the
reset itself writes for the ended operation covers 32 bytes and so cleans them (R172), and a consort whose row group is out of range, which
the hypotheses allow, has a block whose key is where a fault queue in host memory takes that entry. -/
theorem not_haltsAndResets : ¬ Obligations.HaltsAndResets := by
  unfold Obligations.HaltsAndResets
  rintro ⟨-, hreset⟩
  obtain ⟨t, c', ht, -, hpresent⟩ := hreset all 3 1 0 farS demoX farS_privileged farS_keyed (by decide +kernel)
  obtain ⟨-, -, -, hsequencer, -⟩ := hpresent (by decide +kernel)
  obtain ⟨-, hpoison⟩ := hsequencer (by decide)
  have hblock := hpoison _ farS_block
  have hclean := farS_clean
  rw [ht, leavesPoison, ← farGroup_key, hblock] at hclean
  cases hclean

end Sys2Proof.Claims
end

section
/-! Tables after their entries are changed or removed. -/

namespace Sys2Proof

theorem tGet?_cons {α : Type} (j : Nat) (y : α) (r : Tbl α) (n : Nat) :
    tGet? ((j, y) :: r) n = if j = n then some y else tGet? r n := by
  unfold tGet?
  by_cases h : j = n
  · simp [h]
  · simp [h]

theorem tGet?_tUpd {α : Type} (t : Tbl α) (k n : Nat) (f : α → α) :
    tGet? (tUpd t k f) n = if n = k then (tGet? t n).map f else tGet? t n := by
  induction t with
  | nil => simp [tUpd, tGet?]
  | cons x r ih =>
    obtain ⟨j, y⟩ := x
    rw [show tUpd ((j, y) :: r) k f = (if j = k then (j, f y) else (j, y)) :: tUpd r k f from rfl, tGet?_cons j y]
    by_cases hj : j = k
    · rw [if_pos hj, tGet?_cons, ih]
      by_cases hn : j = n
      · rw [if_pos hn, if_pos hn, if_pos (hn.symm.trans hj)]; rfl
      · rw [if_neg hn, if_neg hn]
    · rw [if_neg hj, tGet?_cons, ih]
      by_cases hn : j = n
      · rw [if_pos hn, if_pos hn, if_neg fun h => hj (hn.trans h)]
      · rw [if_neg hn, if_neg hn]

theorem tGet?_tDel_same {α : Type} (t : Tbl α) (k : Nat) : tGet? (tDel t k) k = none := by
  simp [tGet?, tDel, List.find?_eq_none]

theorem tGet?_tDel_other {α : Type} (t : Tbl α) {k n : Nat} (h : n ≠ k) : tGet? (tDel t k) n = tGet? t n := by
  induction t with
  | nil => rfl
  | cons x r ih =>
    obtain ⟨j, y⟩ := x
    unfold tDel at ih ⊢
    rw [List.filter_cons, tGet?_cons]
    by_cases hj : j = k
    · rw [if_neg (by simpa using hj), if_neg fun e => h (e.symm.trans hj), ih]
    · rw [if_pos (by simpa using hj), tGet?_cons, ih]

theorem tGet?_map {α β : Type} (t : Tbl α) (n : Nat) (f : α → β) : tGet? (t.map fun p => (p.1, f p.2)) n = (tGet? t n).map f := by
  simp [tGet?, List.find?_map, Function.comp_def]

theorem tPut_map {α β : Type} (t : Tbl α) (k : Nat) (v : α) (f : α → β) :
    (tPut t k v).map (fun p => (p.1, f p.2)) = tPut (t.map fun p => (p.1, f p.2)) k (f v) := by
  induction t with
  | nil => rfl
  | cons x r ih =>
    simp only [tPut, List.map_cons]
    split
    · rfl
    · split
      · rfl
      · rw [List.map_cons, ih]

theorem mem_of_tGet? {α : Type} {t : Tbl α} {k : Nat} {v : α} (h : tGet? t k = some v) : (k, v) ∈ t := by
  obtain ⟨x, hx, hv⟩ := Option.map_eq_some_iff.mp h
  have hk : x.1 = k := by simpa using List.find?_some hx
  have hm := List.mem_of_find?_eq_some hx
  rwa [← hk, ← hv]

theorem tGet?_eq_none {α : Type} {t : Tbl α} {k : Nat} : tGet? t k = none ↔ ∀ p ∈ t, p.1 ≠ k := by
  simp [tGet?, List.find?_eq_none]

/-- In a table in order the entry of a number is the only one. -/
theorem tGet?_of_mem {α : Type} {t : Tbl α} (hs : (t.map (·.1)).Pairwise (· < ·)) {k : Nat} {v : α} (h : (k, v) ∈ t) : tGet? t k = some v := by
  induction t with
  | nil => cases h
  | cons x r ih =>
    rw [List.map_cons, List.pairwise_cons] at hs
    rw [tGet?_cons]
    rcases List.mem_cons.mp h with rfl | h
    · exact if_pos rfl
    · have : x.1 < k := hs.1 k (List.mem_map.mpr ⟨_, h, rfl⟩)
      rw [if_neg (by omega), ih hs.2 h]

/-- Writing an entry that a table in order holds already changes nothing. -/
theorem tPut_self {α : Type} {t : Tbl α} (hs : (t.map (·.1)).Pairwise (· < ·)) {k : Nat} {v : α} (h : tGet? t k = some v) : tPut t k v = t := by
  induction t with
  | nil => cases h
  | cons x r ih =>
    rw [List.map_cons, List.pairwise_cons] at hs
    obtain ⟨j, y⟩ := x
    rw [tGet?_cons] at h
    simp only [tPut]
    by_cases hj : j = k
    · rw [if_pos hj] at h
      rw [if_pos hj, ← Option.some.inj h, hj]
    · rw [if_neg hj] at h
      have : j < k := hs.1 k (List.mem_map.mpr ⟨_, mem_of_tGet? h, rfl⟩)
      rw [if_neg hj, if_neg (by omega), ih hs.2 h]

end Sys2Proof

namespace Sys2Proof.Claims

open Sys2Proof.Machine

/-! Where the courses sit: what of the courses the ends of consorts read. -/

/-- A course's identity, its quadrant, and whether it is resident there. -/
def seatOf (c : Course) : CourseId × Nat × Bool := (c.id, quadOf c, c.k.at_ == .resident)

/-- The courses' seats, in the order of the table. -/
def seats (w : W) : Tbl (CourseId × Nat × Bool) := w.courses.map fun p => (p.1, seatOf p.2)

/-- A table of seats in order, each under its CID. -/
def Seated (t : Tbl (CourseId × Nat × Bool)) : Prop := (t.map (·.1)).Pairwise (· < ·) ∧ ∀ p ∈ t, p.2.1.cid = p.1

theorem seated_of_keyed {s : State} (h : Keyed s) : Seated (seats s.w) := by
  refine ⟨?_, ?_⟩
  · simpa [seats, Function.comp_def] using h.1
  · intro p hp
    obtain ⟨q, hq, rfl⟩ := List.mem_map.mp hp
    exact h.2 q hq

/-- A course's entry in the table, where the table is in order, stands where the course's own copy says. -/
def Sits (w : W) (c : Course) : Prop := Seated (seats w) → tGet? (seats w) c.id.cid = some (seatOf c)

theorem tGet?_seats (w : W) (n : Nat) : tGet? (seats w) n = (course? w n).map seatOf := tGet?_map w.courses n seatOf

theorem sits_of_mem {w : W} {p : Nat × Course} (h : p ∈ w.courses) : Sits w p.2 := fun ho =>
  have hm : (p.1, seatOf p.2) ∈ seats w := List.mem_map.mpr ⟨p, h, rfl⟩
  (congrArg (tGet? (seats w)) (ho.2 _ hm)).trans (tGet?_of_mem ho.1 hm)

theorem sits_of_course? {w : W} {n : Nat} {c : Course} (h : course? w n = some c) : Sits w c :=
  sits_of_mem (mem_of_tGet? h)

theorem Sits.congr {w : W} {c c' : Course} (h : Sits w c) (hc : seatOf c' = seatOf c) : Sits w c' := by
  have hid : c'.id = c.id := congrArg (·.1) hc
  unfold Sits
  rw [hid, hc]
  exact h

/-! Steps that end nothing. -/

/-- The flags of a core that an error sets. -/
def flagsOf (c : CoreSt) : Bool × Bool × Bool × Bool := (c.copyOk, c.collOk, c.actOk, c.withheld)

/-- The flags of a core in a state. -/
def coreFlags (w : W) (pcn : Nat) : Bool × Bool × Bool × Bool := flagsOf (Machine.core w pcn)

/-- From w to w' no consort, launch or course begins or ends and no unit is withheld; operations may end. -/
structure Still (w w' : W) : Prop where
  hub : w'.hub = w.hub
  quads : w'.quads = w.quads
  consorts : w'.consorts = w.consorts
  launches : w'.launches = w.launches
  nextConsort : w'.nextConsort = w.nextConsort
  ops : ∀ n, op? w n = none → op? w' n = none
  flags : ∀ pcn, coreFlags w' pcn = coreFlags w pcn
  seats : seats w' = seats w

/-- The same where w's courses stand in order: writing a course back keeps the seats only there. -/
def Calm (w w' : W) : Prop := Seated (seats w) → Still w w'

theorem Still.trans {w w' w'' : W} (h : Still w w') (h' : Still w' w'') : Still w w'' where
  hub := h'.hub.trans h.hub
  quads := h'.quads.trans h.quads
  consorts := h'.consorts.trans h.consorts
  launches := h'.launches.trans h.launches
  nextConsort := h'.nextConsort.trans h.nextConsort
  ops n hn := h'.ops n (h.ops n hn)
  flags p := (h'.flags p).trans (h.flags p)
  seats := h'.seats.trans h.seats

namespace Calm

variable {w w' w'' : W}

theorem refl (w : W) : Calm w w := fun _ => ⟨rfl, rfl, rfl, rfl, rfl, fun _ h => h, fun _ => rfl, rfl⟩

theorem trans (h : Calm w w') (h' : Calm w' w'') : Calm w w'' := fun ho =>
  (h ho).trans (h' ((h ho).seats.symm ▸ ho))

theorem foldl {α : Type} {g : W → α → W} (hg : ∀ w a, Calm w (g w a)) (l : List α) : ∀ w, Calm w (l.foldl g w) := by
  induction l with
  | nil => exact refl
  | cons a l ih => exact fun w => (hg w a).trans (ih _)

/-- What of the state the relation looks at. -/
def bulk (w : W) := (w.hub, w.quads, w.consorts, w.launches, w.nextConsort, w.ops, w.cores, w.courses)

theorem of_bulk (h : bulk w' = bulk w) : Calm w w' := by
  simp only [bulk, Prod.mk.injEq] at h
  obtain ⟨h1, h2, h3, h4, h5, h6, h7, h8⟩ := h
  exact fun _ => ⟨h1, h2, h3, h4, h5, fun n hn => by rwa [op?, h6], fun p => by simp only [coreFlags, Machine.core, h7],
    by rw [Claims.seats, h8]; rfl⟩

/-- A course written back in its seat. -/
theorem setCourse {c : Course} (h : Sits w c) : Calm w (setCourse w c) := fun ho =>
  ⟨rfl, rfl, rfl, rfl, rfl, fun _ h => h, fun _ => rfl, (tPut_map w.courses c.id.cid c seatOf).trans (tPut_self ho.1 (h ho))⟩

/-- Courses changed without their seats. -/
theorem mapCourses {f : Nat × Course → Course} (hf : ∀ p, seatOf (f p) = seatOf p.2) :
    Calm w { w with courses := w.courses.map fun p => (p.1, f p) } := fun _ =>
  ⟨rfl, rfl, rfl, rfl, rfl, fun _ h => h, fun _ => rfl, by simp [Claims.seats, hf]⟩

theorem updCourse (w : W) (n : Nat) {f : Course → Course} (hf : ∀ c, seatOf (f c) = seatOf c) : Calm w (updCourse w n f) := by
  have : tUpd w.courses n f = w.courses.map fun p => (p.1, if p.1 = n then f p.2 else p.2) :=
    List.map_congr_left fun p _ => by by_cases h : p.1 = n <;> simp [h]
  rw [Machine.updCourse, this]
  exact mapCourses fun p => by split <;> simp [hf]

theorem updCore (w : W) (n : Nat) {f : CoreSt → CoreSt} (hf : ∀ c, flagsOf (f c) = flagsOf c) : Calm w (updCore w n f) := fun _ =>
  ⟨rfl, rfl, rfl, rfl, rfl, fun _ h => h, fun p => by
    rw [coreFlags, core_updCore]
    split
    next h => rw [hf, h]; rfl
    · rfl, rfl⟩

end Calm

end Sys2Proof.Claims
end

section
/-! The shared operations that end nothing: writes, host events, waking courses, the fault queue, engine errors. -/

namespace Sys2Proof.Claims

open Sys2Proof.Machine

namespace Calm

variable {w w' : W}

theorem updFn (n : Nat) (f : Fn → Fn) (w : W) : Calm w (updFn w n f) := of_bulk rfl

theorem updPart (p : Nat) (f : Part → Part) (w : W) : Calm w (updPart w p f) := of_bulk rfl

theorem updDisp (d : Nat) (f : Disp → Disp) (w : W) : Calm w (updDisp w d f) := of_bulk rfl

theorem reply (r : Reply) (w : W) : Calm w { w with replies := r :: w.replies } := of_bulk rfl

/-! Writes of memory. -/

theorem wrB (a : Nat) (v : Byte) (w : W) : Calm w (wrB w a v) := of_bulk rfl

theorem sec (x : Sec) (w : W) : Calm w { w with sec := x } := of_bulk rfl

theorem wrBs (a : Nat) (bs : List Byte) (w : W) : Calm w (wrBs w a bs) := by
  induction bs generalizing w a with
  | nil => exact refl w
  | cons b bs ih => exact (wrB a b w).trans (ih (a + 1) _)

theorem wrN (a n v : Nat) (w : W) : Calm w (wrN w a n v) := wrBs a _ w

theorem wrTag (e : Env) (t : Option Tag) (key : Nat) (v : Byte) (w : W) : Calm w (wrTag e w t key v) := by
  rw [Machine.wrTag]
  split
  · exact of_bulk rfl
  · exact ((wrBs _ _ w).trans (sec _ _)).trans (wrB key v _)

theorem wrLoc (e : Env) (wd : Nat) (l : Loc) (v : Byte) (w : W) : Calm w (wrLoc e w wd l v) := by
  cases l with
  | dev s l pa => exact wrTag e _ _ v w
  | host | fab => exact of_bulk rfl

theorem wrLocs (e : Env) (wd : Nat) (bs : List Byte) (l : Loc) (w : W) : Calm w (wrLocs e w wd l bs) := by
  induction bs generalizing w l with
  | nil => exact refl w
  | cons b bs ih => exact (wrLoc e wd l b w).trans (ih _ _)

theorem wrPlaces (e : Env) (wd : Nat) (ls : List (Loc × Nat × Nat)) (bs : List Byte) (w : W) : Calm w (wrPlaces e w wd ls bs) := by
  induction ls generalizing w bs with
  | nil => exact refl w
  | cons p ls ih => exact (wrLocs e wd _ p.1 w).trans (ih _ _)

theorem wrCtx (e : Env) (wd va : Nat) (l : Loc) (v : Byte) (w : W) : Calm w (wrCtx e w wd va l v) := by
  cases l with
  | dev s l pa => exact wrTag e _ _ v w
  | host | fab => exact of_bulk rfl

theorem wrCtxs (e : Env) (wd : Nat) (bs : List Byte) (va : Nat) (l : Loc) (w : W) : Calm w (wrCtxs e w wd va l bs) := by
  induction bs generalizing w l va with
  | nil => exact refl w
  | cons b bs ih => exact (wrCtx e wd va l b w).trans (ih _ _ _)

theorem wrCtxPlaces (e : Env) (wd : Nat) (ls : List (Loc × Nat × Nat)) (bs : List Byte) (w : W) :
    Calm w (wrCtxPlaces e w wd ls bs) := by
  induction ls generalizing w bs with
  | nil => exact refl w
  | cons p ls ih => exact (wrCtxs e wd _ p.2.1 p.1 w).trans (ih _ _)

theorem poisonAt (a : Nat) (w : W) : Calm w (poisonAt w a) := by
  rw [Machine.poisonAt]
  split <;> exact of_bulk rfl

theorem cleanCovered (keys : List Nat) (w : W) : Calm w (cleanCovered w keys) := by
  rw [cleanCovered_frame]
  exact of_bulk rfl

theorem markBad (va : Nat) (ls : List (Loc × Nat × Nat)) (bad : List Nat) (w : W) : Calm w (markBad w va ls bad) := by
  rw [Machine.markBad]
  split
  · exact refl w
  · refine foldl (fun w p => foldl (fun w i => ?_) _ w) ls w
    split
    · exact poisonAt _ w
    · exact refl w

theorem cleared (a : Nat) (w : W) : Calm w (cleanRange (wrClear w a 4096) a 4096) := of_bulk rfl

theorem scrubs (l : List (Nat × Nat)) (s : Sec) (w : W) : Calm w { w with scrub := l, sec := s } := of_bulk rfl

/-- A frame's scrub noted, and the courses that wait for it going on. -/
theorem scrubbed (x : Stall) (l : List (Nat × Nat)) (s : Sec) (w : W) :
    Calm w { w with
      scrub := l
      sec := s
      courses := tMap w.courses fun _ c => if c.k.stall = some x then { c with k := { c.k with stall := none } } else c } := by
  refine (scrubs l s w).trans ?_
  exact mapCourses (f := fun p => if p.2.k.stall = some x then { p.2 with k := { p.2.k with stall := none } } else p.2) fun p => by split <;> rfl

theorem scrubFrame (e : Env) (p f : Nat) (w : W) : Calm w (scrubFrame e w p f) := by
  rw [Machine.scrubFrame]
  split
  · exact refl w
  · refine trans (foldl (fun w a => cleared a w) (frameKeys e.fix.form (part w p) f) w) ?_
    exact scrubbed (.scrub p f) _ _ _

theorem afterScrub (e : Env) (ls : List (Loc × Nat × Nat)) (w : W) : Calm w (afterScrub e w ls) := by
  refine foldl (fun w p => ?_) ls w
  obtain ⟨l, _⟩ := p
  cases l with
  | dev s _ pa =>
    cases h : scrubAt w s pa with
    | none => simpa [h] using refl w
    | some q => simpa [h] using scrubFrame e _ _ w
  | host | fab => exact refl w

/-- A state that a write of the device's own leaves. -/
theorem devWrite {e : Env} {row p wd asid va : Nat} {bs : List Byte} {priv : Bool}
    (h : devWrite e w row p wd asid va bs priv = .ok w') : Calm w w' := by
  rw [Machine.devWrite] at h
  split at h
  · cases h
  · cases h
    exact ((afterScrub e _ w).trans (wrPlaces e wd _ bs _)).trans (cleanCovered _ _)

theorem ctxWrite {e : Env} {row p wd va : Nat} {bs : List Byte} {bad : List Nat}
    (h : ctxWrite e w row p wd va bs bad = .ok w') : Calm w w' := by
  rw [Machine.ctxWrite] at h
  split at h
  · cases h
  · cases h
    exact (((afterScrub e _ w).trans (wrCtxPlaces e wd _ bs _)).trans (cleanCovered _ _)).trans (markBad va _ bad _)

/-! Host events. -/

theorem msixSend (n v : Nat) (w : W) : Calm w (msixSend w n v) := by
  rw [Machine.msixSend]
  refine (wrN (fnKey n (bvF (msixEntry (fn w n) v) 0 64)) 4 (bvF (msixEntry (fn w n) v) 64 32) w).trans ?_
  exact (reply _ _).trans (updFn n _ _)

theorem msixPost (n v : Nat) (w : W) : Calm w (msixPost w n v) := by
  rw [Machine.msixPost]
  split
  · exact updFn _ _ w
  · exact msixSend n v w

theorem hostEvent (n p wd code detail addr : Nat) (w : W) : Calm w (hostEvent w n p wd code detail addr) := by
  rw [Machine.hostEvent]
  split
  · exact updFn _ _ w
  · exact ((wrN _ _ _ w).trans (updFn _ _ _)).trans (msixPost n 0 _)

theorem partEvent (p wd code detail addr : Nat) (w : W) : Calm w (partEvent w p wd code detail addr) := by
  rw [Machine.partEvent]
  split
  · exact hostEvent _ _ _ _ _ _ w
  · exact (hostEvent _ _ _ _ _ _ w).trans (hostEvent _ _ _ _ _ _ _)

theorem manyEvent (ps : List Nat) (code detail addr : Nat) (w : W) : Calm w (manyEvent w ps code detail addr) :=
  (hostEvent _ _ _ _ _ _ w).trans (foldl (fun w _ => hostEvent _ _ _ _ _ _ w) _ _)

/-! Courses that wake. -/

theorem haltbCause_seat (c : Course) : seatOf (haltbCause c) = seatOf c := by
  rw [haltbCause]
  split <;> rfl

theorem nextOrder (n : Nat) (w : W) : Calm w { w with nextOrder := n } := of_bulk rfl

/-- A course that is not resident moved among the lists. -/
theorem seatOf_moved {c d : Course} {k : Sched} (h : seatOf d = seatOf c) (hc : c.k.at_ ≠ .resident) (hk : k.at_ ≠ .resident) :
    seatOf { d with k := k } = seatOf c := by
  have hc : (c.k.at_ == Where.resident) = false := by simpa using hc
  have hk : (k.at_ == Where.resident) = false := by simpa using hk
  simp only [seatOf, Prod.mk.injEq] at h ⊢
  exact ⟨h.1, h.2.1, hk.trans hc.symm⟩

theorem enterReady {c : Course} (h : Sits w c) (hc : c.k.at_ ≠ .resident) : Calm w (enterReady w c) := by
  rw [Machine.enterReady]
  split
  · exact setCourse (h.congr (seatOf_moved rfl hc nofun))
  · refine (nextOrder (w.nextOrder + 1) w).trans ?_
    have h : Sits { w with nextOrder := w.nextOrder + 1 } c := h
    dsimp only
    split
    · refine setCourse (h.congr (seatOf_moved ?_ hc nofun))
      split
      · exact haltbCause_seat c
      · rfl
    · exact setCourse (h.congr (seatOf_moved rfl hc nofun))

theorem decJoin (n : Nat) (w : W) : Calm w (decJoin w n) := by
  rw [Machine.decJoin]
  split
  · exact refl w
  next c hc =>
    have h := sits_of_course? hc
    split
    · exact refl w
    next hp =>
      have hp : c.k.at_ = .parked := not_not.mp hp
      split
      · exact enterReady h (by rw [hp]; nofun)
      · exact setCourse (h.congr rfl)

theorem wake {c : Course} (h : Sits w c) : Calm w (wake w c) := by
  rw [Machine.wake]
  refine trans (w' := Machine.setCourse w { c with k := { c.k with await := .nothing, deadline := none } }) (setCourse (h.congr rfl)) ?_
  exact decJoin c.id.cid _

/-- Steps over courses of the table, each of which leaves them in their seats. -/
theorem foldl_sits {α : Type} {f : α → Course} {g : W → α → W} (hg : ∀ w a, Sits w (f a) → Calm w (g w a)) (l : List α) :
    ∀ w, (∀ a ∈ l, Sits w (f a)) → Calm w (l.foldl g w) := by
  induction l with
  | nil => exact fun w _ => refl w
  | cons a l ih =>
    intro w h ho
    have hs := hg w a (h a (List.mem_cons_self ..)) ho
    have hr : ∀ b ∈ l, Sits (g w a) (f b) := fun b hb _ => hs.seats ▸ h b (List.mem_cons_of_mem a hb) ho
    exact hs.trans (ih _ hr (hs.seats.symm ▸ ho))

/-- Courses picked from the table. -/
theorem sits_of_filterMap {α : Type} {f : Nat × Course → Option α} {g : α → Course} (hf : ∀ p a, f p = some a → g a = p.2) {a : α}
    (h : a ∈ w.courses.filterMap f) : Sits w (g a) := by
  obtain ⟨p, hp, ha⟩ := List.mem_filterMap.mp h
  rw [hf p a ha]
  exact sits_of_mem hp

/-! Tickets and timeline counters. -/

theorem ticketWake (d : Nat) (w : W) : Calm w (ticketWake w d) := by
  rw [Machine.ticketWake]
  refine trans (foldl_sits (f := (·.1)) (fun w a h => ?_) (sleepersOf w d) w fun a ha => ?_) (updDisp d _ _)
  · obtain ⟨c, t⟩ := a
    dsimp only
    split
    · exact wake h
    · exact refl w
  · refine sits_of_filterMap (fun p b hb => ?_) ha
    obtain ⟨m, c⟩ := p
    dsimp only at hb
    split at hb
    · split at hb
      · exact congrArg (·.1) (Option.some.inj hb).symm
      · cases hb
    · cases hb

theorem serveDisp (d : Nat) (w : W) : Calm w (serveDisp w d) := by
  rw [Machine.serveDisp]
  split
  · exact refl w
  · exact (updDisp d _ w).trans (ticketWake d _)

/-! The fault queue. -/

theorem updFq (p : Nat) (g : Fq → Fq) (w : W) : Calm w (updFq w p g) := updPart p _ w

theorem holdFull (p : Nat) (x : Pending) (w : W) : Calm w (holdFull w p x) := by
  rw [Machine.holdFull]
  split
  · exact updFq p _ w
  · exact (updFq p _ w).trans (partEvent _ _ _ _ _ _)

theorem holdUnwritten (p : Nat) (x : Pending) (c a : Nat) (w : W) : Calm w (holdUnwritten w p x c a) := by
  rw [Machine.holdUnwritten]
  split
  · exact updFq p _ w
  · exact (updFq p _ w).trans (partEvent _ _ _ _ _ _)

theorem writeEntry {e : Env} {p : Nat} {x : Pending} (h : writeEntry e w p x = .ok w') : Calm w w' := by
  rw [Machine.writeEntry] at h
  split at h
  · cases h
  next v hv =>
    refine (devWrite hv).trans ?_
    cases h
    split
    · exact (updFq p _ v).trans (serveDisp _ _)
    · exact updFq p _ v

theorem newEntry (e : Env) (p : Nat) (x : Pending) (w : W) : Calm w (newEntry e w p x) := by
  rw [Machine.newEntry]
  split
  · split
    · exact updFq p _ w
    · exact holdFull p x w
  · split
    · exact updFq p _ w
    · split
      next h => exact writeEntry h
      · exact holdUnwritten _ _ _ _ w

theorem deliver (e : Env) (p : Nat) (x : Pending) (w : W) : Calm w (deliver e w p x) := by
  rw [Machine.deliver]
  split
  next i _ =>
    refine (updFq p (fun f => { f with pending := f.pending.set i (mergeWith ((part w p).fq.pending.getD i x) x) }) w).trans ?_
    dsimp only
    split
    next h => exact devWrite h
    · exact refl _
  · exact newEntry e p x w

theorem report (e : Env) (x : Pending) (m : Option (Nat × Nat)) (w : W) : Calm w (report e w x m) := by
  rw [Machine.report.eq_def]
  split
  · split
    · exact (deliver e _ x w).trans (partEvent _ _ _ _ _ _)
    · exact (deliver e _ x w).trans (partEvent _ _ _ _ _ _)
  · exact deliver e _ x w

theorem fresh (n : Nat) (w : W) : Calm w { w with fresh := n } := of_bulk rfl

theorem reportEntries (e : Env) (ps : List Nat) (w : W) : Calm w (reportEntries e w ps) :=
  (fresh (w.fresh + 2) w).trans (foldl (fun w p => deliver e p _ w) ps _)

theorem reportAction (e : Env) (ps : List Nat) (w : W) : Calm w (reportAction e w ps) :=
  ((reportEntries e ps w).trans (fresh _ _)).trans (manyEvent _ _ _ _ _)

theorem withheldEvent (e : Env) (pcn d : Nat) (w : W) : Calm w (withheldEvent e w pcn d) := by
  rw [Machine.withheldEvent]
  split
  · exact (reportEntries e _ w).trans (partEvent _ _ _ _ _ _)
  · exact hostEvent _ _ _ _ _ _ w

/-! Engine errors. -/

theorem flushNewer (e : Env) (n : Nat) (w : W) : Calm w (flushNewer e w n) := by
  rw [Machine.flushNewer]
  split
  · exact refl w
  · refine foldl (fun w r => ?_) _ w
    obtain ⟨o, m⟩ := r
    dsimp only
    split
    next h => exact (ctxWrite h).trans (updCourse _ n fun _ => rfl)
    · exact refl w

theorem updHandle (e : Env) (n ah : Nat) (f : BitVec 128 → BitVec 128) (w : W) : Calm w (updHandle e w n ah f) := by
  rw [Machine.updHandle]
  split
  · exact refl w
  next c hc =>
    have h := sits_of_course? hc
    dsimp only
    split
    · exact setCourse (h.congr rfl)
    · exact trans (setCourse (c := markNewer (putA c ah (f (getA c ah))) (0x440 + 16 * ah) 16) (h.congr rfl)) (flushNewer e n _)

theorem recheckStalls (w : W) : Calm w (recheckStalls w) := by
  refine mapCourses (f := fun p => match p.2.k.stall with
    | some x => if stallOver w p.2 x then { p.2 with k := { p.2.k with stall := none } } else p.2
    | none => p.2) fun p => ?_
  split
  · split <;> rfl
  · rfl

/-- Operations that end. -/
theorem filterOps (f : Nat × EngOp → Bool) (w : W) : Calm w { w with ops := w.ops.filter f } := fun _ =>
  ⟨rfl, rfl, rfl, rfl, rfl, fun _ h => tGet?_eq_none.mpr fun p hp => tGet?_eq_none.mp h p (List.mem_filter.mp hp).1, fun _ => rfl, rfl⟩

theorem updTlc (p i : Nat) (f : Tlc → Tlc) (w : W) : Calm w (updTlc w p i f) := updCore w p fun _ => rfl

theorem putQParked_seat (c : Course) (q : Nat) (b : Bool) : seatOf (putQParked c q b) = seatOf c := by
  rw [putQParked, putQ]
  split <;> rfl

theorem wakeTimeline {c : Course} (h : Sits w c) : Calm w (wakeTimeline w c) := by
  rw [Machine.wakeTimeline]
  split
  · exact wake (h.congr (putQParked_seat c _ true))
  · exact wake h

theorem sits_of_watchers {p i : Nat} {c : Course} (h : c ∈ watchers w p i) : Sits w c := by
  obtain ⟨⟨n, d⟩, hd, rfl⟩ := List.mem_map.mp h
  refine sits_of_filterMap (g := (·.2)) (fun q b hb => ?_) (List.mem_mergeSort.mp hd)
  obtain ⟨m, c⟩ := q
  dsimp only at hb
  split at hb
  · split at hb
    · exact congrArg (·.2) (Option.some.inj hb).symm
    · cases hb
  · cases hb

theorem settleTlc (p i : Nat) (w : W) : Calm w (settleTlc w p i) := by
  rw [Machine.settleTlc]
  refine ((updTlc p i _ w).trans (filterOps _ _)).trans (foldl_sits (f := id) (fun w c h => wakeTimeline h) _ _ fun c hc => sits_of_watchers hc)

theorem completeNum (p i : Nat) (n : Word) (code skip : Nat) (w : W) : Calm w (completeNum w p i n code skip) :=
  (updTlc p i _ w).trans (settleTlc p i _)

end Calm

/-- An operation's record gone. -/
def withoutOp (w : W) (n : Nat) : W := { w with ops := tDel w.ops n }

/-- The handle of an operation of a sequencer free (R47). -/
def freeHandle (e : Env) (w : W) (o : EngOp) : W :=
  if o.kind.chisel then updHandle e w o.cid o.ah fun h => bvSet h 58 1 0 else w

theorem completeOp_eq (e : Env) {w : W} {n : Nat} {o : EngOp} (h : op? w n = some o) :
    completeOp e w n = recheckStalls (completeNum (freeHandle e (withoutOp w n) o) o.tlPcn o.tlIdx o.num o.code o.skip) := by
  rw [completeOp, h]
  rfl

theorem completeOp_none (e : Env) {w : W} {n : Nat} (h : op? w n = none) : completeOp e w n = w := by
  rw [completeOp, h]

namespace Calm

theorem withoutOp (w : W) (n : Nat) : Calm w (withoutOp w n) := filterOps _ w

theorem freeHandle (e : Env) (o : EngOp) (w : W) : Calm w (freeHandle e w o) := by
  rw [Claims.freeHandle]
  split
  · exact updHandle e _ _ _ w
  · exact refl w

/-- All that completing an operation does after its record is gone. -/
theorem completed (e : Env) (n : Nat) (w : W) : Calm (Claims.withoutOp w n) (completeOp e w n) := by
  cases h : op? w n with
  | none =>
    rw [completeOp_none e h]
    refine of_bulk (w := Claims.withoutOp w n) ?_
    have : tDel w.ops n = w.ops := List.filter_eq_self.mpr fun p hp => by simpa using tGet?_eq_none.mp h p hp
    rw [bulk, bulk, Claims.withoutOp, this]
  | some o =>
    rw [completeOp_eq e h]
    exact ((freeHandle e o _).trans (completeNum _ _ _ _ _ _)).trans (recheckStalls _)

theorem completeOp (e : Env) (n : Nat) (w : W) : Calm w (completeOp e w n) := (withoutOp w n).trans (completed e n w)

theorem updOp (n : Nat) (f : EngOp → EngOp) (w : W) : Calm w (updOp w n f) := fun _ =>
  ⟨rfl, rfl, rfl, rfl, rfl, fun m h => by
    have : op? (Machine.updOp w n f) m = if m = n then (op? w m).map f else op? w m := tGet?_tUpd w.ops n m f
    rw [this, h]
    exact ite_self none, fun _ => rfl, rfl⟩

theorem engErr (e : Env) (n : Nat) (w : W) : Calm w (engErr e w n) := by
  rw [Machine.engErr]
  split
  · exact refl w
  · exact ((updOp n _ w).trans (completeOp e n _)).trans (report e _ none _)

end Calm

/-- An operation that ends with ENGERR is over. -/
theorem engErr_over (e : Env) {w : W} (n : Nat) (hw : Seated (seats w)) : op? (engErr e w n) n = none := by
  rw [engErr]
  split
  · assumption
  next o _ =>
    have start : op? (withoutOp (updOp w n fun o => addCode o 0x23) n) n = none := tGet?_tDel_same _ n
    have done := Calm.completed e n (updOp w n fun o => addCode o 0x23) hw
    exact (Calm.report e _ none _ (done.seats.symm ▸ hw)).ops n (done.ops n start)

theorem engErrs_over (e : Env) (l : List Nat) {n : Nat} (hn : n ∈ l) : ∀ {w : W}, Seated (seats w) → op? (l.foldl (engErr e) w) n = none := by
  induction l with
  | nil => cases hn
  | cons m l ih =>
    intro w hw
    have hs := (Calm.engErr e m w hw).seats
    rcases List.mem_cons.mp hn with rfl | hn
    · exact (Calm.foldl (fun w m => Calm.engErr e m w) l _ (hs.symm ▸ hw)).ops n (engErr_over e n hw)
    · exact ih hn (hs.symm ▸ hw)

end Sys2Proof.Claims
end

section
/-! The ends of courses and consorts (R69, R138, R160): what an end leaves, and what does not come back. -/

namespace Sys2Proof.Claims

open Sys2Proof.Machine

/-! Steps in which courses and consorts end. -/

/-- From w to w' courses, consorts and operations may end, and what has ended stays so; consorts that form take new numbers. -/
structure Waned (w w' : W) : Prop where
  quads : w'.quads = w.quads
  flags : ∀ pcn, coreFlags w' pcn = coreFlags w pcn
  ops : ∀ n, op? w n = none → op? w' n = none
  nextConsort : w.nextConsort ≤ w'.nextConsort
  consorts : ∀ kc, kc < w.nextConsort → consort? w kc = none → consort? w' kc = none
  seated : Seated (seats w')
  courses : ∀ n, course? w n = none → course? w' n = none

/-- The same where w's courses stand in order. -/
def Wanes (w w' : W) : Prop := Seated (seats w) → Waned w w'

namespace Wanes

variable {w w' w'' : W}

theorem of_calm (h : Calm w w') : Wanes w w' := fun ho =>
  have h := h ho
  { quads := h.quads
    flags := h.flags
    ops := h.ops
    nextConsort := h.nextConsort.ge
    consorts := fun kc _ hk => by rwa [consort?, h.consorts]
    seated := h.seats.symm ▸ ho
    courses := fun n hn => by
      have : (course? w' n).map seatOf = (course? w n).map seatOf := by rw [← tGet?_seats, ← tGet?_seats, h.seats]
      rwa [hn, Option.map_none, Option.map_eq_none_iff] at this }

theorem refl (w : W) : Wanes w w := of_calm (.refl w)

theorem trans (h : Wanes w w') (h' : Wanes w' w'') : Wanes w w'' := fun ho =>
  have a := h ho
  have b := h' a.seated
  { quads := b.quads.trans a.quads
    flags := fun p => (b.flags p).trans (a.flags p)
    ops := fun n hn => b.ops n (a.ops n hn)
    nextConsort := a.nextConsort.trans b.nextConsort
    consorts := fun kc hk hn => b.consorts kc (hk.trans_le a.nextConsort) (a.consorts kc hk hn)
    seated := b.seated
    courses := fun n hn => b.courses n (a.courses n hn) }

theorem foldl {α : Type} {g : W → α → W} (hg : ∀ w a, Wanes w (g w a)) (l : List α) : ∀ w, Wanes w (l.foldl g w) := by
  induction l with
  | nil => exact refl
  | cons a l ih => exact fun w => (hg w a).trans (ih _)

/-- Launches changed at will. -/
theorem launches (x : Tbl Launch) (w : W) : Wanes w { w with launches := x } := fun ho =>
  ⟨rfl, fun _ => rfl, fun _ h => h, le_rfl, fun _ _ h => h, ho, fun _ h => h⟩

/-- A consort gone. -/
theorem delConsort (kc : Nat) (w : W) : Wanes w { w with consorts := tDel w.consorts kc } := fun ho =>
  ⟨rfl, fun _ => rfl, fun _ h => h, le_rfl, fun _ _ h => tGet?_eq_none.mpr fun p hp => tGet?_eq_none.mp h p (List.mem_filter.mp hp).1,
    ho, fun _ h => h⟩

end Wanes

/-! The accounts, and a course's end. -/

theorem Calm.ownAdd (e : Env) (row p pa n : Nat) (w : W) : Calm w (ownAdd e w row p pa n) := by
  rw [Machine.ownAdd]
  split
  · exact refl w
  next ls _ =>
    refine (afterScrub e ls w).trans ?_
    dsimp only
    split
    · exact deliver e _ _ _
    · exact wrPlaces e _ _ _ _

theorem Calm.account (e : Env) (c : Course) (w : W) : Calm w (account e w c) := by
  refine foldl (fun w s => ?_) _ w
  split
  · exact refl w
  · exact ownAdd e _ _ _ _ w

/-- What the end of a consort reads of it: its launch and its index there. -/
def kinOf (k : Consort) : Nat × Nat := (k.launch, k.idx)

/-- From w to w' courses may end; launches and consorts stay, but for the consorts' counts and marks. -/
structure Left (w w' : W) : Prop extends Waned w w' where
  launches : w'.launches = w.launches
  next : w'.nextConsort = w.nextConsort
  kin : ∀ kc, (consort? w' kc).map kinOf = (consort? w kc).map kinOf

/-- The same where w's courses stand in order. -/
def Leaves (w w' : W) : Prop := Seated (seats w) → Left w w'

namespace Leaves

variable {w w' w'' : W}

theorem of_calm (h : Calm w w') : Leaves w w' := fun ho =>
  ⟨Wanes.of_calm h ho, (h ho).launches, (h ho).nextConsort, fun kc => by rw [consort?, (h ho).consorts]; rfl⟩

theorem refl (w : W) : Leaves w w := of_calm (.refl w)

theorem trans (h : Leaves w w') (h' : Leaves w' w'') : Leaves w w'' := fun ho =>
  have a := h ho
  have b := h' a.seated
  ⟨Wanes.trans (fun _ => a.toWaned) (fun _ => b.toWaned) ho, b.launches.trans a.launches, b.next.trans a.next,
    fun kc => (b.kin kc).trans (a.kin kc)⟩

theorem foldl {α : Type} {g : W → α → W} (hg : ∀ w a, Leaves w (g w a)) (l : List α) : ∀ w, Leaves w (l.foldl g w) := by
  induction l with
  | nil => exact refl
  | cons a l ih => exact fun w => (hg w a).trans (ih _)

/-- A consort's counts or marks changed. -/
theorem updConsort (w : W) (kc : Nat) {f : Consort → Consort} (hf : ∀ k, kinOf (f k) = kinOf k) : Leaves w (updConsort w kc f) := fun ho => by
  have get : ∀ n, consort? (Machine.updConsort w kc f) n = if n = kc then (consort? w n).map f else consort? w n :=
    fun n => tGet?_tUpd w.consorts kc n f
  refine ⟨⟨rfl, fun _ => rfl, fun _ h => h, le_rfl, fun n _ h => ?_, ho, fun _ h => h⟩, rfl, rfl, fun n => ?_⟩
  · rw [get, h]
    exact ite_self none
  · rw [get]
    split
    · rw [Option.map_map]
      exact congrArg (Option.map · _) (funext hf)
    · rfl

/-- A course gone. -/
theorem delCourse (n : Nat) (w : W) : Leaves w { w with courses := tDel w.courses n } := fun ho => by
  have sub : ({ w with courses := tDel w.courses n } : W).courses.Sublist w.courses := List.filter_sublist
  refine ⟨⟨rfl, fun _ => rfl, fun _ h => h, le_rfl, fun _ _ h => h, ⟨?_, fun p hp => ?_⟩, fun m h => ?_⟩, rfl, rfl, fun _ => rfl⟩
  · exact ho.1.sublist ((sub.map _).map _)
  · exact ho.2 p ((sub.map _).subset hp)
  · exact tGet?_eq_none.mpr fun p hp => tGet?_eq_none.mp h p (sub.subset hp)

/-- A course's end up to its removal: accounted, its frame returned, its consort's count reduced (R69, R160). -/
theorem settled (e : Env) (c : Course) (w : W) : Leaves w
    (Machine.updConsort (updPart (account e w c) c.id.part fun p => { p with frames := p.frames.filter fun f => f.1 != c.id.frame })
      c.id.consort fun k => { k with live := k.live - 1 }) :=
  (of_calm ((Calm.account e c w).trans (.updPart _ _ _))).trans (updConsort _ _ fun _ => rfl)

theorem endCourse (e : Env) (n : Nat) (w : W) : Leaves w (endCourse e w n) := by
  rw [Machine.endCourse]
  split
  · exact refl w
  next c _ =>
    refine ((settled e c w).trans (delCourse n _)).trans ?_
    dsimp only
    split
    · exact of_calm (.updDisp _ _ _)
    · exact refl _

end Leaves

theorem endCourse_over (e : Env) (n : Nat) (w : W) : course? (endCourse e w n) n = none := by
  rw [endCourse]
  split
  · assumption
  · dsimp only
    split <;> exact tGet?_tDel_same _ n

theorem endCourses_over (e : Env) (l : List Nat) {n : Nat} (hn : n ∈ l) :
    ∀ {w : W}, Seated (seats w) → course? (l.foldl (endCourse e) w) n = none := by
  induction l with
  | nil => cases hn
  | cons m l ih =>
    intro w hw
    have hs := Leaves.endCourse e m w hw
    rcases List.mem_cons.mp hn with rfl | hn
    · exact (Leaves.foldl (fun w m => Leaves.endCourse e m w) l _ hs.seated).courses n (endCourse_over e n w)
    · exact ih hn hs.seated

/-! Slots and resources given back, and the launch counted. -/

theorem Calm.freeUnits (kc : Nat) (k : Consort) (w : W) : Calm w (freeUnits w kc k) := by
  rw [Machine.freeUnits]
  refine trans (foldl (fun w l => ?_) k.cores w) (updPart k.part _ _)
  exact updCore w (pcnOf w l) fun _ => rfl

/-- The write of a completed launch's record (R138). -/
def recordWrite (e : Env) (w : W) (l : Launch) : Except Nat W :=
  devWrite e w 72 l.part l.world l.compAsid l.hdr.compaddr
    (recordBytes l.hdr.compseq ((l.first.map (·.2)).getD 0) l.lost ((l.first.map (·.1)).getD (2 ^ 32 - 1))) l.compPriv

/-- The event of a completed launch, or of a record that could not be written (R124, R138). -/
def recordEvent (w : W) (l : Launch) : Except Nat W → W
  | .ok w =>
    if l.hdr.event then
      hostEvent w (reportFn w l) l.part l.world 0x01 ((l.first.map (·.2)).getD 0 + min l.lost (2 ^ 24 - 1) * 256) l.hdr.compseq
    else w
  | .error c => hostEvent w (reportFn w l) l.part l.world 0x02 c l.hdr.compaddr

/-- What is left of a record's write without an event. -/
def recordKept (w : W) : Except Nat W → W
  | .ok w => w
  | .error _ => w

theorem completeLaunch_eq (e : Env) (w : W) (l : Launch) : completeLaunch e w l =
    if l.quiet then recordKept w (recordWrite e w l)
    else
      let w := recordEvent w l (recordWrite e w l)
      if l.hdr.msix then msixPost w (reportFn w l) 1 else w := rfl

theorem Calm.completeLaunch (e : Env) (l : Launch) (w : W) : Calm w (completeLaunch e w l) := by
  rw [completeLaunch_eq]
  cases h : recordWrite e w l with
  | ok v =>
    have hv : Calm w v := devWrite h
    have told : Calm v (recordEvent w l (.ok v)) := by
      rw [recordEvent]
      split
      · exact hostEvent _ _ _ _ _ _ v
      · exact refl v
    split
    · exact hv
    · dsimp only
      split
      · exact (hv.trans told).trans (msixPost _ 1 _)
      · exact hv.trans told
  | error c =>
    have told : Calm w (recordEvent w l (.error c)) := hostEvent _ _ _ _ _ _ w
    split
    · exact refl w
    · dsimp only
      split
      · exact told.trans (msixPost _ 1 _)
      · exact told

/-- What a launch's completion record tells of its consorts so far. -/
def tallyOf (l : Launch) : Nat × Nat × Option (Nat × Nat) := (l.ended, l.lost, l.first)

theorem Wanes.giveSlot (lid i : Nat) (w : W) : Wanes w (giveSlot w lid i) := by
  rw [Machine.giveSlot]
  split
  · exact refl w
  · dsimp only
    split
    · exact refl w
    · split
      · exact refl w
      · refine fun ho => ⟨rfl, fun _ => rfl, fun _ h => h, Nat.le_succ _, fun kc hk h => ?_, ho, fun _ h => h⟩
        exact (tGet?_tPut_other _ _ hk.ne).trans h

theorem giveSlot_tally (w : W) (lid i n : Nat) : (launch? (giveSlot w lid i) n).map tallyOf = (launch? w n).map tallyOf := by
  rw [giveSlot]
  split
  · rfl
  next l hl =>
    dsimp only
    split
    · rfl
    · split
      · rfl
      · by_cases hn : n = lid
        · rw [hn, hl, launch?, tGet?_tPut_same]
          rfl
        · rw [launch?, tGet?_tPut_other _ _ hn]
          rfl

theorem Wanes.releaseSlot (lid i : Nat) (w : W) : Wanes w (releaseSlot w lid i) :=
  (launches _ w).trans (giveSlot lid i _)

theorem releaseSlot_tally (w : W) (lid i n : Nat) : (launch? (releaseSlot w lid i) n).map tallyOf = (launch? w n).map tallyOf := by
  refine (giveSlot_tally _ lid i n).trans ?_
  rw [launch?, updLaunch_launches, tGet?_tUpd]
  split
  · rw [Option.map_map]
    rfl
  · rfl

theorem Wanes.dropConsort (kc : Nat) (k : Consort) (w : W) : Wanes w (dropConsort w kc k) :=
  ((of_calm (.freeUnits kc k w)).trans (delConsort kc _)).trans (releaseSlot _ _ _)

theorem dropConsort_gone {w : W} {kc : Nat} (k : Consort) (ho : Seated (seats w)) (hk : kc < w.nextConsort) :
    consort? (dropConsort w kc k) kc = none := by
  have hf := Calm.freeUnits kc k w ho
  have hd := Wanes.delConsort kc (freeUnits w kc k) (hf.seats.symm ▸ ho)
  exact (Wanes.releaseSlot k.slotL k.slotI _ hd.seated).consorts kc (by simpa [hf.nextConsort] using hk) (tGet?_tDel_same _ kc)

theorem dropConsort_tally {w : W} (kc : Nat) (k : Consort) (ho : Seated (seats w)) (n : Nat) :
    (launch? (dropConsort w kc k) n).map tallyOf = (launch? w n).map tallyOf := by
  refine (releaseSlot_tally _ _ _ n).trans ?_
  rw [← (show launch? (freeUnits w kc k) n = launch? w n by rw [launch?, (Calm.freeUnits kc k w ho).launches]; rfl)]
  rfl

theorem Wanes.countEnd (e : Env) (lid idx : Nat) (lost : Option Nat) (w : W) : Wanes w (countEnd e w lid idx lost) := by
  rw [Machine.countEnd]
  split
  · exact refl w
  · dsimp only
    split
    · exact launches _ w
    · exact ((launches _ w).trans (launches _ _)).trans (of_calm (.completeLaunch e _ _))

theorem countEnd_launch (e : Env) {w : W} {lid : Nat} {l : Launch} (idx status : Nat) (h : launch? w lid = some l)
    (hc : l.ended + 1 < l.hdr.ccount) : ∃ f, launch? (countEnd e w lid idx (some status)) lid =
      some { l with ended := l.ended + 1, lost := l.lost + 1, first := f } ∧ (l.first = none → f = some (idx, status)) := by
  rw [countEnd, h]
  dsimp only
  rw [if_pos hc]
  refine ⟨_, tGet?_tPut_same _ _ _, fun hf => ?_⟩
  rw [hf]

/-- The end of a consort marked as lost: no successor follows it (R138, R281). -/
theorem finishConsort_lost (e : Env) {w : W} {kc status : Nat} {k : Consort} (h : consort? w kc = some k) (hl : k.lost = some status) :
    finishConsort e w kc =
      dropConsort (countEnd e { w with ops := w.ops.filter fun (_, o) => o.consort != kc } k.launch k.idx (some status)) kc k := by
  rw [finishConsort, h]
  dsimp only
  split
  next hn => rw [hl] at hn; cases hn
  next => rw [hl]

/-! A consort lost (R138). -/

/-- The CIDs of a consort's courses. -/
def coursesOf (w : W) (kc : Nat) : List Nat := w.courses.filterMap fun (cid, c) => if c.id.consort = kc then some cid else none

/-- A consort marked as lost, its courses ended. -/
def emptied (e : Env) (w : W) (kc status : Nat) : W :=
  updConsort ((coursesOf w kc).foldl (endCourse e) w) kc fun k => { k with lost := some status }

theorem emptied_leaves (e : Env) (w : W) (kc status : Nat) : Leaves w (emptied e w kc status) :=
  (Leaves.foldl (fun w n => Leaves.endCourse e n w) _ w).trans (Leaves.updConsort _ kc fun _ => rfl)

/-- The operations of a consort stopped. -/
def silenced (w : W) (kc : Nat) : W := { w with ops := w.ops.filter fun (_, o) => o.consort != kc }

theorem Calm.silenced (w : W) (kc : Nat) : Calm w (silenced w kc) := filterOps _ w

/-- The end of a placed consort, with the record that its end reads. -/
theorem loseConsort_placed (e : Env) {w : W} {kc status : Nat} {k : Consort} (h : consort? w kc = some k) (hp : k.st ≠ .slotted)
    (ho : Seated (seats w)) : ∃ k', kinOf k' = kinOf k ∧ consort? (emptied e w kc status) kc = some k' ∧
      loseConsort e w kc status = dropConsort (countEnd e (silenced (emptied e w kc status) kc) k'.launch k'.idx (some status)) kc k' := by
  have hkin := (Leaves.foldl (fun w n => Leaves.endCourse e n w) (coursesOf w kc) w ho).kin kc
  rw [h, Option.map_some, Option.map_eq_some_iff] at hkin
  obtain ⟨j, hj, hkj⟩ := hkin
  have hget : consort? (emptied e w kc status) kc = some { j with lost := some status } := by
    rw [emptied, consort?, updConsort_consorts, tGet?_tUpd, if_pos rfl]
    exact congrArg (Option.map _) hj
  refine ⟨{ j with lost := some status }, hkj, hget, ?_⟩
  rw [loseConsort, h]
  dsimp only
  rw [if_neg hp]
  exact (finishConsort_lost e hget rfl :)

theorem Wanes.loseConsort (e : Env) (kc status : Nat) (w : W) : Wanes w (loseConsort e w kc status) := by
  cases h : consort? w kc with
  | none =>
    rw [Machine.loseConsort, h]
    exact refl w
  | some k =>
    by_cases hp : k.st = .slotted
    · rw [Machine.loseConsort, h]
      dsimp only
      rw [if_pos hp]
      exact ((delConsort kc w).trans (countEnd e _ _ _ _)).trans (releaseSlot _ _ _)
    · intro ho
      obtain ⟨k', -, -, heq⟩ := loseConsort_placed (status := status) e h hp ho
      rw [heq]
      have left : Wanes w (emptied e w kc status) := fun ho => (emptied_leaves e w kc status ho).toWaned
      exact (((left.trans (of_calm (.silenced _ kc))).trans (countEnd e _ _ _ _)).trans (dropConsort kc k' _)) ho

theorem loseConsort_gone (e : Env) {w : W} {kc : Nat} (status : Nat) (ho : Seated (seats w)) (hk : kc < w.nextConsort) :
    consort? (loseConsort e w kc status) kc = none := by
  cases h : consort? w kc with
  | none => exact (Wanes.loseConsort e kc status w ho).consorts kc hk h
  | some k =>
    by_cases hp : k.st = .slotted
    · rw [loseConsort, h]
      dsimp only
      rw [if_pos hp]
      have hd := Wanes.delConsort kc w ho
      exact ((Wanes.countEnd e _ _ _ _).trans (Wanes.releaseSlot _ _ _) hd.seated).consorts kc hk (tGet?_tDel_same _ kc)
    · obtain ⟨k', -, -, heq⟩ := loseConsort_placed (status := status) e h hp ho
      rw [heq]
      have left := emptied_leaves e w kc status ho
      have counted := ((Wanes.of_calm (.silenced _ kc)).trans (Wanes.countEnd e k'.launch k'.idx (some status) _)) left.seated
      exact dropConsort_gone k' counted.seated (hk.trans_le (left.next.ge.trans counted.nextConsort))

theorem loseConsort_courses (e : Env) {w : W} {kc : Nat} (status : Nat) {k : Consort} (h : consort? w kc = some k) (hp : k.st ≠ .slotted)
    (ho : Seated (seats w)) {n : Nat} {d : Course} (hd : course? w n = some d) (hdk : d.id.consort = kc) :
    course? (loseConsort e w kc status) n = none := by
  obtain ⟨k', -, -, heq⟩ := loseConsort_placed (status := status) e h hp ho
  have hn : n ∈ coursesOf w kc := List.mem_filterMap.mpr ⟨(n, d), mem_of_tGet? hd, if_pos hdk⟩
  have hover : course? (emptied e w kc status) n = none := endCourses_over e _ hn ho
  rw [heq]
  exact ((((Wanes.of_calm (.silenced _ kc)).trans (Wanes.countEnd e _ _ _ _)).trans (Wanes.dropConsort kc k' _))
    (emptied_leaves e w kc status ho).seated).courses n hover

theorem loseConsort_launch (e : Env) {w : W} {kc : Nat} (status : Nat) {k : Consort} (h : consort? w kc = some k) (hp : k.st ≠ .slotted)
    (ho : Seated (seats w)) {l : Launch} (hl : launch? w k.launch = some l) (hc : l.ended + 1 < l.hdr.ccount) :
    ∃ l', launch? (loseConsort e w kc status) k.launch = some l' ∧ l'.ended = l.ended + 1 ∧ l'.lost = l.lost + 1 ∧
      (l.first = none → l'.first = some (k.idx, status)) := by
  obtain ⟨k', hkin, -, heq⟩ := loseConsort_placed (status := status) e h hp ho
  obtain ⟨hla, hix⟩ := Prod.mk.inj hkin
  have left := emptied_leaves e w kc status ho
  have hl' : launch? (silenced (emptied e w kc status) kc) k.launch = some l := by
    rw [launch?, (Calm.silenced _ kc left.seated).launches, left.launches]
    exact hl
  obtain ⟨f, hcount, hf⟩ := countEnd_launch e k.idx status hl' hc
  have counted := ((Wanes.of_calm (.silenced _ kc)).trans (Wanes.countEnd e k'.launch k'.idx (some status) _)) left.seated
  have tally := dropConsort_tally kc k' counted.seated k.launch
  rw [← heq, hla, hix, hcount, Option.map_some, Option.map_eq_some_iff] at tally
  obtain ⟨l', hget, ht⟩ := tally
  obtain ⟨h1, h2, h3⟩ : l'.ended = l.ended + 1 ∧ l'.lost = l.lost + 1 ∧ l'.first = f := by simpa [tallyOf] using ht
  exact ⟨l', hget, h1, h2, fun hn => h3.trans (hf hn)⟩

/-! Several consorts lost at once (R139). -/

theorem mem_byCore {w : W} {ks : List Nat} {kc : Nat} {k : Consort} (h : consort? w kc = some k) (hk : kc ∈ ks) : kc ∈ byCore w ks := by
  refine List.mem_map.mpr ⟨(k.cores.headD 72, kc), List.mem_mergeSort.mpr (List.mem_filterMap.mpr ⟨kc, hk, ?_⟩), rfl⟩
  rw [h]
  rfl

theorem byCore_single {w : W} {kc : Nat} {k : Consort} (h : consort? w kc = some k) : byCore w [kc] = [kc] := by
  simp [byCore, h]

theorem foldl_gone (e : Env) (status : Nat) {l : List Nat} {kc : Nat} (hk : kc ∈ l) : ∀ {w : W}, Seated (seats w) → kc < w.nextConsort →
    consort? (l.foldl (fun w kc => loseConsort e w kc status) w) kc = none := by
  induction l with
  | nil => cases hk
  | cons j l ih =>
    intro w ho hn
    have hs := Wanes.loseConsort e j status w ho
    rcases List.mem_cons.mp hk with rfl | hk
    · exact (Wanes.foldl (fun w kc => Wanes.loseConsort e kc status w) l _ hs.seated).consorts kc (hn.trans_le hs.nextConsort)
        (loseConsort_gone e status ho hn)
    · exact ih hk hs.seated (hn.trans_le hs.nextConsort)

theorem Wanes.loseConsorts (e : Env) (ks : List Nat) (status : Nat) (w : W) : Wanes w (loseConsorts e w ks status) :=
  foldl (fun w kc => loseConsort e kc status w) _ w

theorem loseConsorts_gone (e : Env) {w : W} {ks : List Nat} {kc : Nat} (status : Nat) (ho : Seated (seats w)) (hk : kc ∈ ks)
    (hn : kc < w.nextConsort) : consort? (loseConsorts e w ks status) kc = none := by
  cases h : consort? w kc with
  | none => exact (Wanes.loseConsorts e ks status w ho).consorts kc hn h
  | some k => exact foldl_gone e status (mem_byCore h (List.mem_dedup.mpr hk)) ho hn

/-- What follows the loss itself when hub firmware ends consorts: their report (R14). -/
theorem Calm.lossReported (e : Env) (w : W) (ks : List Nat) : Calm (loseConsorts e w ks 0x23) (loseAll e w ks) := by
  rw [loseAll]
  split
  · exact refl _
  · exact reportAction e _ _

theorem Wanes.loseAll (e : Env) (ks : List Nat) (w : W) : Wanes w (loseAll e w ks) :=
  (loseConsorts e ks 0x23 w).trans (of_calm (.lossReported e w ks))

theorem loseAll_gone (e : Env) {w : W} {ks : List Nat} {kc : Nat} (ho : Seated (seats w)) (hk : kc ∈ ks) (hn : kc < w.nextConsort) :
    consort? (loseAll e w ks) kc = none := by
  have hs := Wanes.loseConsorts e ks 0x23 w ho
  exact (Wanes.of_calm (.lossReported e w ks) hs.seated).consorts kc (hn.trans_le hs.nextConsort) (loseConsorts_gone e 0x23 ho hk hn)

end Sys2Proof.Claims
end

section
/-! Uncorrectable and control-state errors (R14, R138, R158, R170, R173). -/

namespace Sys2Proof.Claims

open Sys2Proof.Machine

/-! Uncorrectable errors. -/

theorem poisonAt_isPois (w : W) (a : Nat) : isPois (poisonAt w a) a = true := by
  rw [poisonAt]
  split
  · assumption
  · simp [isPois]

theorem poisonAt_wb (w : W) (a : Nat) : (poisonAt w a).wb = w.wb := by
  rw [poisonAt]
  split <;> rfl

theorem poisonAt_hub (w : W) (a : Nat) : (poisonAt w a).hub = w.hub := by
  rw [poisonAt]
  split <;> rfl

theorem bumpSlice_same (w : W) (sl e : Nat) :
    tGetD (bumpSlice w sl e 1).hub.sliceEv (16 * sl + e) 0 = (tGetD w.hub.sliceEv (16 * sl + e) 0 + 1) % 2 ^ 64 := by
  rw [bumpSlice, tGetD_tPut, if_pos rfl]

theorem course?_updCourse (w : W) (n m : Nat) (f : Course → Course) :
    course? (updCourse w n f) m = if m = n then (course? w m).map f else course? w m := tGet?_tUpd w.courses n m f

theorem course?_updCourse_same {w : W} {n : Nat} {c : Course} (h : course? w n = some c) (f : Course → Course) :
    course? (updCourse w n f) n = some (f c) := by
  rw [course?_updCourse, if_pos rfl, h]
  rfl

/-- A course marked at a sector of its frame keeps its registers and its other marks. -/
theorem markSlotUnit_marks {w : W} {n : Nat} {c : Course} (m : Nat) (h : course? w n = some c) :
    ∃ c', course? (markSlotUnit w n m) n = some c' ∧ c'.r = c.r ∧ m ∈ c'.v.pois ∧ ∀ i ∈ c.v.pois, i ∈ c'.v.pois := by
  refine ⟨_, course?_updCourse_same h _, rfl, ?_, fun i hi => ?_⟩ <;> dsimp only <;> split
  next hm => simpa using hm
  · exact List.mem_cons_self ..
  · exact hi
  · exact List.mem_cons_of_mem _ hi

/-- A corrected error raises its tile's count. -/
theorem correctedWord (x : BitVec 64) : bvF (bvSet x 40 8 (min 255 (bvF x 40 8 + 1))) 40 8 = min 255 (bvF x 40 8 + 1) := by
  rw [bvF_bvSet_same x 40 8 _ (by decide)]
  exact Nat.mod_eq_of_lt (by omega)

theorem noteCorrected_frame (w : W) (t : Nat) : (noteCorrected w t).poison = w.poison ∧ (noteCorrected w t).wb = w.wb := by
  rw [noteCorrected]
  split <;> exact ⟨rfl, rfl⟩

theorem noteCorrected_word (w : W) (t : Nat) :
    bvF (tile (noteCorrected w t) t).word 40 8 = min 255 (bvF (tile w t).word 40 8 + 1) := by
  have counted : bvF (tile (updTile w t fun x => { x with word := bvSet x.word 40 8 (min 255 (bvF x.word 40 8 + 1)) }) t).word 40 8 =
      min 255 (bvF (tile w t).word 40 8 + 1) := by
    rw [tile_updTile, if_pos rfl]
    exact correctedWord _
  rw [noteCorrected]
  split <;> exact counted

theorem noteCorrected_slice (w : W) {t : Nat} (h : tileIsCore t = false) :
    tGetD (noteCorrected w t).hub.sliceEv (16 * sliceOfTile t + 3) 0 = (tGetD w.hub.sliceEv (16 * sliceOfTile t + 3) 0 + 1) % 2 ^ 64 := by
  rw [noteCorrected, if_neg (by simp [h])]
  exact bumpSlice_same _ _ 3

theorem uncorrectableErrorsHold : UncorrectableErrorsHold := by
  intro u s hs
  cases u with
  | sector sl l =>
    refine ⟨_, event_quiet rfl ((poisonAt_wb _ _).trans hs.wb), rfl, poisonAt_isPois s.w _, ?_⟩
    refine (bumpSlice_same (poisonAt s.w (keyDev sl l)) sl 4).trans ?_
    rw [poisonAt_hub]
  | scratch pcn o => exact ⟨_, event_quiet rfl ((poisonAt_wb _ _).trans hs.wb), rfl, poisonAt_isPois _ _⟩
  | line cid r =>
    refine ⟨_, event_quiet rfl hs.wb, rfl, fun c l hc hl => ⟨_, course?_updCourse_same hc _, rfl, ?_⟩⟩
    dsimp only
    rw [tGet?_tUpd, if_pos rfl, hl]
    rfl
  | granule cid g =>
    refine ⟨_, event_quiet rfl hs.wb, rfl, fun c hc => ?_⟩
    obtain ⟨c', hc', hr, hm, -⟩ := markSlotUnit_marks (sectS (8 * g.val)) hc
    have : sectS (8 * g.val) = 256 + g.val := by rw [sectS]; omega
    exact ⟨c', hc', hr, this ▸ hm⟩
  | pred cid =>
    refine ⟨_, event_quiet rfl hs.wb, rfl, fun c hc => ?_⟩
    obtain ⟨c₁, hc₁, hr₁, hp, -⟩ := markSlotUnit_marks sectP hc
    obtain ⟨c₂, hc₂, hr₂, hq, hkeep⟩ := markSlotUnit_marks sectQ hc₁
    exact ⟨c₂, hc₂, hr₂.trans hr₁, hkeep _ hp, hq⟩
  | accBlock pcn q g cb => exact ⟨_, event_quiet rfl ((poisonAt_wb _ _).trans hs.wb), rfl, poisonAt_isPois _ _⟩
  | scale pcn q col g => exact ⟨_, event_quiet rfl ((poisonAt_wb _ _).trans hs.wb), rfl, poisonAt_isPois _ _⟩
  | corrected x =>
    obtain ⟨hp, hw⟩ := noteCorrected_frame s.w x.val
    exact ⟨_, event_quiet rfl (hw.trans hs.wb), rfl, noteCorrected_word s.w x.val, hp, noteCorrected_slice s.w⟩
  | hubDie => exact ⟨_, event_quiet rfl hs.wb, rfl, rfl, rfl⟩

/-! Control-state errors. -/

theorem mem_courses_of_seats {w w' : W} (h : seats w' = seats w) {n : Nat} {c : Course} (hc : course? w n = some c) :
    ∃ c', course? w' n = some c' ∧ seatOf c' = seatOf c := by
  have := tGet?_seats w' n
  rw [h, tGet?_seats, hc, Option.map_some] at this
  exact Option.map_eq_some_iff.mp this.symm

/-- Hub firmware ends a placed consort, whose courses, launch and place in it are as they were in s. -/
theorem lost_of_loseAll {s t : State} {w : W} {kc : Nat} {k k' : Consort} (hs : Keyed s) (hseats : seats w = seats s.w)
    (hl : w.launches = s.w.launches) (hn : kc < w.nextConsort) (hk : consort? w kc = some k') (hp : k'.st = .placed)
    (hkin : kinOf k' = kinOf k) (ht : t.w = { loseAll s.env w [kc] with wb := [] }) : Lost s t kc k 0x23 := by
  have ho : Seated (seats w) := hseats.symm ▸ seated_of_keyed hs
  have hp' : k'.st ≠ .slotted := by rw [hp]; nofun
  obtain ⟨hla, hix⟩ := Prod.mk.inj hkin
  have heq : loseConsorts s.env w [kc] 0x23 = loseConsort s.env w kc 0x23 := by
    rw [loseConsorts, List.dedup_eq_self.mpr (List.nodup_singleton kc), byCore_single hk]
    rfl
  have hrep := Calm.lossReported s.env w [kc]
  rw [heq] at hrep
  have hw := Wanes.loseConsort s.env kc 0x23 w ho
  have still := hrep hw.seated
  have waned := Wanes.of_calm hrep hw.seated
  refine ⟨?_, fun n d hd hdk => ?_, fun l hlaunch hc => ?_⟩
  · rw [ht]
    exact waned.consorts kc (hn.trans_le hw.nextConsort) (loseConsort_gone s.env 0x23 ho hn)
  · obtain ⟨d', hd', hseat⟩ := mem_courses_of_seats hseats hd
    have hid : d'.id = d.id := congrArg (·.1) hseat
    rw [ht]
    exact waned.courses n (loseConsort_courses s.env 0x23 hk hp' ho hd' (hid ▸ hdk))
  · have hlaunch' : launch? w k'.launch = some l := by rw [launch?, hl, hla]; exact hlaunch
    obtain ⟨l', hget, hended, hlost, hfirst⟩ := loseConsort_launch s.env 0x23 hk hp' ho hlaunch' hc
    refine ⟨l', ?_, hended, hlost, hix ▸ hfirst⟩
    rw [ht, ← hla]
    exact (congrArg (tGet? · k'.launch) still.launches).trans hget

/-- A course slot's state corrupt. -/
theorem slotError_lost {s : State} (hs : Keyed s) {cid : Nat} {c : Course} (hc : course? s.w cid = some c) {k : Consort}
    (hk : consort? s.w c.id.consort = some k) (hp : k.st = .placed) (hn : c.id.consort < s.w.nextConsort) :
    ∃ t, exec (.controlStateError (.slot cid)) s = .next t ∧ Lost s t c.id.consort k 0x23 := by
  refine ⟨_, rfl, ?_⟩
  have still := Calm.updCourse s.w cid (f := fun c => { c with k := { c.k with stopped := true } }) (fun _ => rfl) (seated_of_keyed hs)
  refine lost_of_loseAll hs still.seats rfl hn hk hp rfl ?_
  dsimp only [commit]
  rw [show course? (State.w s) cid = some c from hc]

/-- A barrier's or a ticket's record corrupt. -/
theorem recordError_lost {s : State} (hs : Keyed s) {kc : Nat} {k : Consort} (hk : consort? s.w kc = some k) (hp : k.st = .placed)
    (hn : kc < s.w.nextConsort) {u : CtlUnit} (hu : u = .barrier kc ∨ u = .ticket kc) :
    ∃ t, exec (.controlStateError u) s = .next t ∧ Lost s t kc k 0x23 := by
  have mark : consort? (updConsort s.w kc fun k => { k with stuck := true }) kc = some { k with stuck := true } := by
    rw [consort?, updConsort_consorts, tGet?_tUpd, if_pos rfl]
    exact congrArg (Option.map _) hk
  rcases hu with rfl | rfl <;>
    exact ⟨_, rfl, lost_of_loseAll (w := updConsort s.w kc fun k => { k with stuck := true }) hs rfl rfl hn mark hp rfl rfl⟩

/-- What follows once a unit is marked: hub firmware ends consorts and reports the unit as withheld (R14, R173). -/
theorem unitStopped (e : Env) {w : W} (ho : Seated (seats w)) (ks : List Nat) (pcn d : Nat) :
    Waned w (withheldEvent e (loseAll e w ks) pcn d) ∧
      ∀ kc ∈ ks, kc < w.nextConsort → consort? (withheldEvent e (loseAll e w ks) pcn d) kc = none := by
  have lost := Wanes.loseAll e ks w ho
  have told := Wanes.of_calm (Calm.withheldEvent e pcn d (loseAll e w ks)) lost.seated
  exact ⟨Wanes.trans (fun _ => lost) (fun _ => told) ho, fun kc hk hn =>
    told.consorts kc (hn.trans_le lost.nextConsort) (loseAll_gone e ho hk hn)⟩

/-- The operations of an engine ended with ENGERR. -/
def engineEmptied (e : Env) (w : W) (pcn eng : Nat) : W := (opsOf w pcn eng).foldl (engErr e) w

theorem engineEmptied_still (e : Env) {w : W} (ho : Seated (seats w)) (pcn eng : Nat) : Still w (engineEmptied e w pcn eng) :=
  Calm.foldl (fun w n => Calm.engErr e n w) _ w ho

/-- A sequencer marked corrupt and its quadrant withheld, with no operation left. -/
def quadFailed (e : Env) (w : W) (pcn q : Nat) : W :=
  updQuad (engineEmptied e w pcn (q % 4)) (4 * pcn + q % 4) fun x => { x with chiselOk := false, withheld := true }

/-- A core's engine marked corrupt and its core withheld, with no operation left. -/
def coreFailed (e : Env) (w : W) (pcn eng : Nat) (f : CoreSt → CoreSt) : W :=
  updCore (engineEmptied e w pcn eng) pcn fun c => { f c with withheld := true }

theorem mem_opsOf {w : W} {pcn eng n : Nat} {o : EngOp} (h : tGet? w.ops n = some o) (hp : o.pcn = pcn)
    (hk : (o.kind.chisel = true ∧ o.quad = eng) ∨ (o.kind.isCopy = true ∧ eng = 4) ∨ (o.kind = .coll ∧ eng = 5)) :
    n ∈ opsOf w pcn eng :=
  List.mem_filterMap.mpr ⟨(n, o), mem_of_tGet? h, if_pos ⟨hp, hk⟩⟩

theorem mem_quadConsorts {w w' : W} {pcn q n : Nat} {c : Course} (hseats : seats w' = seats w) (hhub : w'.hub = w.hub)
    (hc : course? w n = some c) (hr : c.k.at_ = .resident) (hq : quadOf c = 4 * lcoreOf w pcn + q) :
    c.id.consort ∈ quadConsorts w' pcn q := by
  obtain ⟨c', hc', hseat⟩ := mem_courses_of_seats hseats hc
  obtain ⟨hid, hquad, hat⟩ : c'.id = c.id ∧ quadOf c' = quadOf c ∧ (c'.k.at_ == Where.resident) = (c.k.at_ == Where.resident) := by
    simpa only [seatOf, Prod.mk.injEq] using hseat
  have hr' : c'.k.at_ = .resident := by simpa [hr] using hat
  have hl : lcoreOf w' pcn = lcoreOf w pcn := by simp only [lcoreOf, lptAt, hhub]
  refine List.mem_filterMap.mpr ⟨(n, c'), mem_of_tGet? hc', ?_⟩
  rw [← hid]
  exact if_pos ⟨by rw [hquad, hl, hq], .inl hr'⟩

theorem mem_coreConsorts {w w' : W} {pcn kc : Nat} {k : Consort} (hk : w'.consorts = w.consorts) (hhub : w'.hub = w.hub)
    (h : consort? w kc = some k) (hp : k.st = .placed) (hc : lcoreOf w pcn ∈ k.cores) : kc ∈ coreConsorts w' pcn := by
  have hl : lcoreOf w' pcn = lcoreOf w pcn := by simp only [lcoreOf, lptAt, hhub]
  refine List.mem_filterMap.mpr ⟨(kc, k), hk ▸ mem_of_tGet? h, ?_⟩
  exact if_pos ⟨hp, by rw [hl]; exact List.contains_iff_mem.mpr hc⟩

/-- A sequencer found corrupt. -/
theorem quadError_spec {s : State} (hs : Keyed s) (pcn q : Nat) :
    ∃ t, exec (.controlStateError (.chisel pcn q)) s = .next t ∧
      (quad t.w (4 * pcn + q % 4)).chiselOk = false ∧ (quad t.w (4 * pcn + q % 4)).withheld = true ∧
      (∀ n o, tGet? s.w.ops n = some o → o.pcn = pcn → o.kind.chisel = true → o.quad = q % 4 → tGet? t.w.ops n = none) ∧
      ∀ n c, course? s.w n = some c → c.k.at_ = .resident → quadOf c = 4 * lcoreOf s.w pcn + q % 4 →
        c.id.consort < s.w.nextConsort → consort? t.w c.id.consort = none := by
  have ho := seated_of_keyed hs
  have still := engineEmptied_still s.env ho pcn (q % 4)
  have ho' : Seated (seats (quadFailed s.env s.w pcn q)) := still.seats.symm ▸ ho
  obtain ⟨waned, gone⟩ := unitStopped s.env ho' (quadConsorts (quadFailed s.env s.w pcn q) pcn (q % 4)) pcn (0x23 + q % 4 * 2 ^ 8)
  have flags : ∀ t : W, t.quads = (quadFailed s.env s.w pcn q).quads → quad t (4 * pcn + q % 4) =
      { quad (engineEmptied s.env s.w pcn (q % 4)) (4 * pcn + q % 4) with chiselOk := false, withheld := true } := fun t ht => by
    rw [quad, ht]
    exact (quad_updQuad _ _ _ _).trans (if_pos rfl)
  refine ⟨_, rfl, ?_, ?_, fun n o hop hp hk hq => ?_, fun n c hc hr hq hn => ?_⟩
  · exact congrArg Quad.chiselOk (flags _ waned.quads)
  · exact congrArg Quad.withheld (flags _ waned.quads)
  · exact waned.ops n (engErrs_over s.env _ (mem_opsOf hop hp (.inl ⟨hk, hq⟩)) ho)
  · exact gone _ (mem_quadConsorts still.seats still.hub hc hr hq) (hn.trans_le still.nextConsort.ge)

/-- A core's engine found corrupt, whatever flag of its core says so. -/
theorem coreError_spec {s : State} (hs : Keyed s) (pcn eng : Nat) (f : CoreSt → CoreSt) :
    let w := stopCoreEngine s.env s.w pcn eng f
    flagsOf (Sys2Proof.Machine.core w pcn) =
      flagsOf { f (Sys2Proof.Machine.core (engineEmptied s.env s.w pcn eng) pcn) with withheld := true } ∧
    (∀ n ∈ opsOf s.w pcn eng, op? w n = none) ∧
    ∀ kc k, consort? s.w kc = some k → k.st = .placed → lcoreOf s.w pcn ∈ k.cores → kc < s.w.nextConsort → consort? w kc = none := by
  have ho := seated_of_keyed hs
  have still := engineEmptied_still s.env ho pcn eng
  have ho' : Seated (seats (coreFailed s.env s.w pcn eng f)) := still.seats.symm ▸ ho
  obtain ⟨waned, gone⟩ := unitStopped s.env ho' (coreConsorts (coreFailed s.env s.w pcn eng f) pcn) pcn (0x23 + 2 ^ 10)
  refine ⟨(waned.flags pcn).trans ?_, fun n hn => waned.ops n (engErrs_over s.env _ hn ho), fun kc k hk hp hc hn => ?_⟩
  · exact congrArg flagsOf ((core_updCore _ _ _ _).trans (if_pos rfl))
  · exact gone kc (mem_coreConsorts still.consorts still.hub hk hp hc) (hn.trans_le still.nextConsort.ge)

theorem flagsOf_eq {c d : CoreSt} (h : flagsOf c = flagsOf d) :
    c.copyOk = d.copyOk ∧ c.collOk = d.collOk ∧ c.actOk = d.actOk ∧ c.withheld = d.withheld := by
  simpa only [flagsOf, Prod.mk.injEq] using h

theorem controlStateErrorsHold : ControlStateErrorsHold := by
  refine ⟨fun u s c k kc _ hs hu hk hp hn => ?_, fun pcn q s _ hs => quadError_spec hs pcn q, fun pcn u s _ hs hu => ?_⟩
  · rcases hu with ⟨cid, rfl, hc, rfl⟩ | hu
    · exact slotError_lost hs hc hk hp hn
    · exact recordError_lost hs hk hp hn hu
  · rcases hu with rfl | rfl | rfl
    · obtain ⟨hf, hops, gone⟩ := coreError_spec hs pcn 4 fun c => { c with copyOk := false }
      obtain ⟨hok, -, -, hw⟩ := flagsOf_eq hf
      refine ⟨_, rfl, hw, fun _ => hok, nofun, nofun, fun n o hop hp hk => hops n (mem_opsOf hop hp ?_), gone⟩
      rcases hk with ⟨hk, -⟩ | ⟨-, hu⟩
      · exact .inr (.inl ⟨hk, rfl⟩)
      · cases hu
    · obtain ⟨hf, hops, gone⟩ := coreError_spec hs pcn 5 fun c => { c with collOk := false }
      obtain ⟨-, hok, -, hw⟩ := flagsOf_eq hf
      refine ⟨_, rfl, hw, nofun, fun _ => hok, nofun, fun n o hop hp hk => hops n (mem_opsOf hop hp ?_), gone⟩
      rcases hk with ⟨-, hu⟩ | ⟨hk, -⟩
      · cases hu
      · exact .inr (.inr ⟨hk, rfl⟩)
    · obtain ⟨hf, -, gone⟩ := coreError_spec hs pcn 6 fun c => { c with actOk := false }
      obtain ⟨-, -, hok, hw⟩ := flagsOf_eq hf
      refine ⟨_, rfl, hw, nofun, nofun, fun _ => hok, fun n o _ _ hk => ?_, gone⟩
      rcases hk with ⟨-, hu⟩ | ⟨-, hu⟩ <;> cases hu

/-- Settles O36. An uncorrectable error marks one unit; a control-state error ends consorts as lost, by `Waned`: what has ended stays ended
through the reports and the slots given on that follow. -/
theorem errors : Obligations.Errors := ⟨uncorrectableErrorsHold, controlStateErrorsHold⟩

end Sys2Proof.Claims
end

section
/-! O58: the courses of a state stand in order, each under its own CID, and every step keeps it so. One lemma for each function of the
model that changes a state, in the model's order, then one for each instruction and event. -/

namespace Sys2Proof.Claims
open Sys2Proof.Machine

/-- The courses of a state stand in order: the CIDs rise, and each course stands under its own. -/
def Listed (w : W) : Prop := (w.courses.map (·.1)).Pairwise (· < ·) ∧ ∀ p ∈ w.courses, p.2.id.cid = p.1

/-- A meaning that keeps the courses in order. -/
def Lists (f : Meaning) : Prop := ∀ e w x, Listed w → Listed (f e w x)

/-- What an access does to the places of one lane, keeping the courses in order. -/
def PerformLists (f : Perform) : Prop := ∀ e w c k ls, Listed w → Listed (f e w c k ls).1

/-- The same of an access of scratch. -/
def ScrLists (f : ScrPerform) : Prop := ∀ e w c x, Listed w → Listed (f e w c x).1

/-- A step of an engine that keeps the courses in order. -/
def StepLists (f : StepFn) : Prop := ∀ gone e w k o, Listed w → Listed (f gone e w k o)

namespace Listed

/-- Only the course table matters. -/
theorem congr {w w' : W} (h : Listed w) (hc : w'.courses = w.courses) : Listed w' := by
  unfold Listed
  rwa [hc]

/-! The operations on the table. -/

theorem mem_tPut {α : Type} {t : Tbl α} {k : Nat} {v : α} {p : Nat × α} (h : p ∈ tPut t k v) : p ∈ t ∨ p = (k, v) := by
  induction t with
  | nil => exact .inr (by simpa [tPut] using h)
  | cons x r ih =>
    obtain ⟨j, y⟩ := x
    simp only [tPut] at h
    split at h
    · grind
    · split at h
      · grind
      · grind

theorem setCourse {w : W} (c : Course) (h : Listed w) : Listed (setCourse w c) := by
  obtain ⟨hs, hid⟩ := h
  refine ⟨?_, fun p hp => ?_⟩
  · show ((tPut w.courses c.id.cid c).map (·.1)).Pairwise (· < ·)
    clear hid
    generalize w.courses = t at *
    induction t with
    | nil => simp [tPut]
    | cons x r ih =>
      obtain ⟨j, y⟩ := x
      rw [List.map_cons, List.pairwise_cons] at hs
      obtain ⟨hj, hr⟩ := hs
      simp only [tPut]
      split
      next e => subst e; exact List.pairwise_cons.mpr ⟨hj, hr⟩
      · split
        next hl =>
          refine List.pairwise_cons.mpr ⟨?_, List.pairwise_cons.mpr ⟨hj, hr⟩⟩
          simp only [List.map_cons, List.mem_cons]
          rintro a (rfl | ha)
          · exact hl
          · exact hl.trans (hj a ha)
        next hne hl =>
          refine List.pairwise_cons.mpr ⟨fun a ha => ?_, ih hr⟩
          obtain ⟨q, hq, rfl⟩ := List.mem_map.mp ha
          rcases mem_tPut hq with hq | rfl
          · exact hj _ (List.mem_map_of_mem hq)
          · show j < c.id.cid
            omega
  · rcases mem_tPut hp with hp | rfl
    · exact hid p hp
    · rfl

/-- Courses changed where they stand. -/
theorem mapped {w w' : W} {f : Nat × Course → Nat × Course} (h : Listed w) (hf : ∀ p, (f p).1 = p.1 ∧ (f p).2.id.cid = p.2.id.cid)
    (hc : w'.courses = w.courses.map f) : Listed w' := by
  refine ⟨?_, fun p hp => ?_⟩
  · rw [hc, List.map_map, show (fun x : Nat × Course => x.1) ∘ f = fun x => x.1 from funext fun p => (hf p).1]
    exact h.1
  · rw [hc] at hp
    obtain ⟨q, hq, rfl⟩ := List.mem_map.mp hp
    rw [(hf q).1, (hf q).2, h.2 q hq]

theorem tMap {w w' : W} {f : Nat → Course → Course} (h : Listed w) (hf : ∀ n c, (f n c).id.cid = c.id.cid)
    (hc : w'.courses = tMap w.courses f) : Listed w' :=
  h.mapped (f := fun p => (p.1, f p.1 p.2)) (fun _ => ⟨rfl, hf _ _⟩) hc

theorem updCourse {w : W} (n : Nat) (f : Course → Course) (hf : ∀ c, (f c).id.cid = c.id.cid) (h : Listed w) : Listed (updCourse w n f) :=
  h.mapped (f := fun p => if p.1 = n then (p.1, f p.2) else p) (fun p => by split <;> simp [hf]) rfl

theorem tDel {w w' : W} {n : Nat} (h : Listed w) (hc : w'.courses = tDel w.courses n) : Listed w' := by
  have sub : w'.courses.Sublist w.courses := hc ▸ List.filter_sublist
  exact ⟨h.1.sublist (sub.map _), fun p hp => h.2 p (sub.subset hp)⟩

/-! Folds. -/

theorem foldl {α : Type} {g : W → α → W} (l : List α) (hg : ∀ w a, Listed w → Listed (g w a)) :
    ∀ {w : W}, Listed w → Listed (l.foldl g w) := by
  induction l with
  | nil => exact fun h => h
  | cons a l ih => exact fun h => ih (hg _ a h)

/-- A fold that carries more than the state. -/
theorem foldl_fst {α β : Type} {g : W × β → α → W × β} (l : List α) (hg : ∀ s a, Listed s.1 → Listed (g s a).1) :
    ∀ {s : W × β}, Listed s.1 → Listed (l.foldl g s).1 := by
  induction l with
  | nil => exact fun h => h
  | cons a l ih => exact fun h => ih (hg _ a h)

/-- A fold that an error ends. -/
theorem foldl_ok {α ε : Type} {g : Except ε W → α → Except ε W} (l : List α)
    (hg : ∀ r a, (∀ v, r = .ok v → Listed v) → ∀ v, g r a = .ok v → Listed v) :
    ∀ {r : Except ε W}, (∀ v, r = .ok v → Listed v) → ∀ v, l.foldl g r = .ok v → Listed v := by
  induction l with
  | nil => exact fun h => h
  | cons a l ih => exact fun h => ih (hg _ a h)

/-! Mem. -/

theorem wrB {w : W} (a : Nat) (v : Byte) (hw : Listed w) : Listed (Machine.wrB w a v) :=
  hw.congr rfl

theorem wrClear {w : W} (a n : Nat) (hw : Listed w) : Listed (Machine.wrClear w a n) :=
  hw.congr rfl

theorem wrZeros {w : W} (a n : Nat) (hw : Listed w) : Listed (Machine.wrZeros w a n) := by
  unfold Machine.wrZeros
  grind [Listed.foldl, Listed.wrB]

theorem wrBs {w : W} (a : Nat) (bs : List Byte) (hw : Listed w) : Listed (Machine.wrBs w a bs) := by
  induction bs generalizing w a with
  | nil => exact hw
  | cons b bs ih => exact ih _ (wrB a b hw)

theorem wrN {w : W} (a n v : Nat) (hw : Listed w) : Listed (Machine.wrN w a n v) := wrBs a _ hw

theorem poisonAt {w : W} (a : Nat) (hw : Listed w) : Listed (Machine.poisonAt w a) := by
  unfold Machine.poisonAt
  grind [Listed.congr]

theorem cleanAt {w : W} (a : Nat) (hw : Listed w) : Listed (Machine.cleanAt w a) :=
  hw.congr rfl

theorem cleanRange {w : W} (a n : Nat) (hw : Listed w) : Listed (Machine.cleanRange w a n) :=
  hw.congr rfl

theorem cleanCovered {w : W} (keys : List Nat) (hw : Listed w) : Listed (Machine.cleanCovered w keys) := by
  unfold Machine.cleanCovered
  grind [Listed.foldl, Listed.cleanAt]

theorem freshN {w : W} (hw : Listed w) : Listed (Machine.freshN w).2 := by
  unfold Machine.freshN
  grind [Listed.congr]

/-! Mesh. -/

theorem updTile {w : W} (t : Nat) (f : Tile → Tile) (hw : Listed w) : Listed (Machine.updTile w t f) :=
  hw.congr rfl

theorem updPort {w : W} (n : Nat) (f : Port → Port) (hw : Listed w) : Listed (Machine.updPort w n f) :=
  hw.congr rfl

theorem flitIn {w : W} (n : Nat) (hw : Listed w) : Listed (Machine.flitIn w n) := by
  unfold Machine.flitIn
  grind [Listed.congr, Listed.updPort]

theorem flitOut {w : W} (n : Nat) (hw : Listed w) : Listed (Machine.flitOut w n) := by
  unfold Machine.flitOut
  grind [Listed.congr, Listed.updPort]

theorem updDisp {w : W} (d : Nat) (f : Disp → Disp) (hw : Listed w) : Listed (Machine.updDisp w d f) :=
  hw.congr rfl

/-! Xlate. -/

theorem updPart {w : W} (p : Nat) (f : Part → Part) (hw : Listed w) : Listed (Machine.updPart w p f) :=
  hw.congr rfl

theorem updFn {w : W} (n : Nat) (f : Fn → Fn) (hw : Listed w) : Listed (Machine.updFn w n f) :=
  hw.congr rfl

theorem updCore {w : W} (pcn : Nat) (f : CoreSt → CoreSt) (hw : Listed w) : Listed (Machine.updCore w pcn f) :=
  hw.congr rfl

theorem updQuad {w : W} (q : Nat) (f : Quad → Quad) (hw : Listed w) : Listed (Machine.updQuad w q f) :=
  hw.congr rfl

theorem wrTag {w : W} (e : Env) (want : Option Tag) (key : Nat) (v : Byte) (hw : Listed w) :
    Listed (Machine.wrTag e w want key v) := by
  rw [Machine.wrTag]
  split
  · exact wrB key v hw
  · dsimp only
    generalize recipher _ _ _ = bs
    exact wrB key v ((wrBs _ bs hw).congr rfl)

theorem wrCipher {w : W} (e : Env) (wd pa key : Nat) (v : Byte) (hw : Listed w) : Listed (Machine.wrCipher e w wd pa key v) := by
  unfold Machine.wrCipher
  grind [Listed.wrTag]

theorem scrubFrame {w : W} (e : Env) (p frame : Nat) (hw : Listed w) : Listed (Machine.scrubFrame e w p frame) := by
  unfold Machine.scrubFrame
  grind [Listed.foldl, Listed.congr, Listed.tMap, Listed.wrClear, Listed.cleanRange]

theorem scrubFirst {w : W} (p frame : Nat) (hw : Listed w) : Listed (Machine.scrubFirst w p frame) := by
  unfold Machine.scrubFirst
  grind [Listed.congr]

theorem wrLoc {w : W} (e : Env) (wd : Nat) (l : Loc) (v : Byte) (hw : Listed w) : Listed (Machine.wrLoc e w wd l v) := by
  unfold Machine.wrLoc
  grind [Listed.congr, Listed.wrB, Listed.wrCipher]

theorem wrLocs {w : W} (e : Env) (wd : Nat) (l : Loc) (bs : List Byte) (hw : Listed w) :
    Listed (Machine.wrLocs e w wd l bs) := by
  induction bs generalizing w l with
  | nil => exact hw
  | cons b bs ih => exact ih _ (wrLoc e wd l b hw)

theorem wrPlaces {w : W} (e : Env) (wd : Nat) (ls : List (Loc × Nat × Nat)) (bs : List Byte) (hw : Listed w) :
    Listed (Machine.wrPlaces e w wd ls bs) := by
  induction ls generalizing w bs with
  | nil => exact hw
  | cons p ls ih => exact ih _ (wrLocs e wd p.1 _ hw)

theorem afterScrub {w : W} (e : Env) (ls : List (Loc × Nat × Nat)) (hw : Listed w) : Listed (Machine.afterScrub e w ls) := by
  unfold Machine.afterScrub
  grind [Listed.foldl, Listed.congr, Listed.scrubFrame]

theorem tableWrite {w w' : W} (e : Env) (p pa : Nat) (bs : List Byte) (he : Machine.tableWrite e w p pa bs = some w') (hw : Listed w) :
    Listed w' := by
  rw [Machine.tableWrite] at he
  split at he
  · cases he
  · cases he
    exact cleanCovered _ (wrPlaces e _ _ _ (afterScrub e _ hw))

theorem devWrite {w w' : W} (e : Env) (row p wd asid va : Nat) (bs : List Byte) (priv : Bool) (he : Machine.devWrite e w row p wd asid va bs priv = .ok w') (hw : Listed w) :
    Listed w' := by
  rw [Machine.devWrite] at he
  split at he
  · cases he
  · cases he
    exact cleanCovered _ (wrPlaces e _ _ _ (afterScrub e _ hw))

theorem wrCtx {w : W} (e : Env) (wd va : Nat) (l : Loc) (v : Byte) (hw : Listed w) : Listed (Machine.wrCtx e w wd va l v) := by
  unfold Machine.wrCtx
  grind [Listed.congr, Listed.wrB, Listed.wrTag]

theorem wrCtxs {w : W} (e : Env) (wd va : Nat) (l : Loc) (bs : List Byte) (hw : Listed w) :
    Listed (Machine.wrCtxs e w wd va l bs) := by
  induction bs generalizing w l va with
  | nil => exact hw
  | cons b bs ih => exact ih _ _ (wrCtx e wd va l b hw)

theorem wrCtxPlaces {w : W} (e : Env) (wd : Nat) (ls : List (Loc × Nat × Nat)) (bs : List Byte) (hw : Listed w) :
    Listed (Machine.wrCtxPlaces e w wd ls bs) := by
  induction ls generalizing w bs with
  | nil => exact hw
  | cons p ls ih => exact ih _ (wrCtxs e wd p.2.1 p.1 _ hw)

theorem markBad {w : W} (va : Nat) (ls : List (Loc × Nat × Nat)) (bad : List Nat) (hw : Listed w) :
    Listed (Machine.markBad w va ls bad) := by
  unfold Machine.markBad
  grind [Listed.foldl, Listed.poisonAt]

theorem ctxWrite {w w' : W} (e : Env) (row p wd va : Nat) (bs : List Byte) (bad : List Nat)
    (he : Machine.ctxWrite e w row p wd va bs bad = .ok w') (hw : Listed w) : Listed w' := by
  rw [Machine.ctxWrite] at he
  split at he
  · cases he
  · cases he
    exact markBad _ _ bad (cleanCovered _ (wrCtxPlaces e _ _ _ (afterScrub e _ hw)))

/-! HostEv. -/

theorem msixSend {w : W} (n vec : Nat) (hw : Listed w) : Listed (Machine.msixSend w n vec) := by
  unfold Machine.msixSend
  grind [Listed.congr, Listed.wrN, Listed.updFn]

theorem msixPost {w : W} (n vec : Nat) (hw : Listed w) : Listed (Machine.msixPost w n vec) := by
  unfold Machine.msixPost
  grind [Listed.congr, Listed.updFn, Listed.msixSend]

theorem hostEvent {w : W} (n p wd code detail addr : Nat) (hw : Listed w) : Listed (Machine.hostEvent w n p wd code detail addr) := by
  unfold Machine.hostEvent
  grind [Listed.congr, Listed.wrN, Listed.updFn, Listed.msixPost]

theorem evFnEvent {w : W} (p wd code detail addr : Nat) (hw : Listed w) : Listed (Machine.evFnEvent w p wd code detail addr) := by
  unfold Machine.evFnEvent
  grind [Listed.hostEvent]

theorem partEvent {w : W} (p wd code detail addr : Nat) (hw : Listed w) : Listed (Machine.partEvent w p wd code detail addr) := by
  unfold Machine.partEvent
  grind [Listed.hostEvent, Listed.evFnEvent]

theorem manyEvent {w : W} (ps : List Nat) (code detail addr : Nat) (hw : Listed w) :
    Listed (Machine.manyEvent w ps code detail addr) := by
  unfold Machine.manyEvent
  grind [Listed.foldl, Listed.hostEvent]

theorem raiseReplme {w : W} (bits : Nat) (hw : Listed w) : Listed (Machine.raiseReplme w bits) := by
  unfold Machine.raiseReplme
  grind [Listed.congr, Listed.manyEvent]

theorem bumpDev {w : W} (e n : Nat) (hw : Listed w) : Listed (Machine.bumpDev w e n) :=
  hw.congr rfl

theorem setDev {w : W} (e v : Nat) (hw : Listed w) : Listed (Machine.setDev w e v) :=
  hw.congr rfl

theorem bumpCore {w : W} (pcn e n : Nat) (hw : Listed w) : Listed (Machine.bumpCore w pcn e n) := by
  unfold Machine.bumpCore
  grind [Listed.congr, Listed.updCore]

theorem bumpSlice {w : W} (s e n : Nat) (hw : Listed w) : Listed (Machine.bumpSlice w s e n) :=
  hw.congr rfl

/-! Wake. -/

theorem updConsort {w : W} (k : Nat) (f : Consort → Consort) (hw : Listed w) : Listed (Machine.updConsort w k f) :=
  hw.congr rfl

theorem updLaunch {w : W} (l : Nat) (f : Launch → Launch) (hw : Listed w) : Listed (Machine.updLaunch w l f) :=
  hw.congr rfl

theorem enterReady {w : W} (c : Course) (hw : Listed w) : Listed (Machine.enterReady w c) := by
  unfold Machine.enterReady
  grind [Listed.congr, Listed.setCourse]

theorem decJoin {w : W} (cid : Nat) (hw : Listed w) : Listed (Machine.decJoin w cid) := by
  unfold Machine.decJoin
  grind [Listed.congr, Listed.setCourse, Listed.enterReady]

theorem wake {w : W} (c : Course) (hw : Listed w) : Listed (Machine.wake w c) := by
  unfold Machine.wake
  grind [Listed.congr, Listed.setCourse, Listed.decJoin]

theorem ticketWake {w : W} (d : Nat) (hw : Listed w) : Listed (Machine.ticketWake w d) := by
  unfold Machine.ticketWake
  grind [Listed.foldl, Listed.congr, Listed.updDisp, Listed.wake]

theorem serveDisp {w : W} (d : Nat) (hw : Listed w) : Listed (Machine.serveDisp w d) := by
  unfold Machine.serveDisp
  grind [Listed.congr, Listed.updDisp, Listed.ticketWake]

theorem updTlc {w : W} (pcn i : Nat) (f : Tlc → Tlc) (hw : Listed w) : Listed (Machine.updTlc w pcn i f) := by
  unfold Machine.updTlc
  grind [Listed.congr, Listed.updCore]

theorem wakeTimeline {w : W} (c : Course) (hw : Listed w) : Listed (Machine.wakeTimeline w c) := by
  unfold Machine.wakeTimeline
  grind [Listed.congr, Listed.wake]

theorem settleTlc {w : W} (pcn i : Nat) (hw : Listed w) : Listed (Machine.settleTlc w pcn i) := by
  unfold Machine.settleTlc
  grind [Listed.foldl, Listed.congr, Listed.updTlc, Listed.wakeTimeline]

theorem completeNum {w : W} (pcn i : Nat) (n : Word) (code skip : Nat) (hw : Listed w) :
    Listed (Machine.completeNum w pcn i n code skip) := by
  unfold Machine.completeNum
  grind [Listed.congr, Listed.updTlc, Listed.settleTlc]

/-! Fq. -/

theorem updFq {w : W} (p : Nat) (g : Fq → Fq) (hw : Listed w) : Listed (Machine.updFq w p g) := by
  unfold Machine.updFq
  grind [Listed.congr, Listed.updPart]

theorem holdFull {w : W} (p : Nat) (x : Pending) (hw : Listed w) : Listed (Machine.holdFull w p x) := by
  unfold Machine.holdFull
  grind [Listed.congr, Listed.partEvent, Listed.updFq]

theorem holdUnwritten {w : W} (p : Nat) (x : Pending) (cause addr : Nat) (hw : Listed w) :
    Listed (Machine.holdUnwritten w p x cause addr) := by
  unfold Machine.holdUnwritten
  grind [Listed.congr, Listed.partEvent, Listed.updFq]

theorem writeEntry {w w' : W} (e : Env) (p : Nat) (x : Pending) (he : Machine.writeEntry e w p x = .ok w') (hw : Listed w) :
    Listed w' := by
  unfold Machine.writeEntry at he
  grind [Listed.congr, Listed.devWrite, Listed.serveDisp, Listed.updFq]

theorem setAside {w : W} (p : Nat) (x : Pending) (hw : Listed w) : Listed (Machine.setAside w p x) := by
  unfold Machine.setAside
  grind [Listed.congr, Listed.updFq]

theorem newEntry {w : W} (e : Env) (p : Nat) (x : Pending) (hw : Listed w) : Listed (Machine.newEntry e w p x) := by
  unfold Machine.newEntry
  grind [Listed.congr, Listed.holdFull, Listed.holdUnwritten, Listed.writeEntry, Listed.setAside]

theorem deliver {w : W} (e : Env) (p : Nat) (x : Pending) (hw : Listed w) : Listed (Machine.deliver e w p x) := by
  unfold Machine.deliver
  grind [Listed.congr, Listed.devWrite, Listed.updFq, Listed.newEntry]

theorem deliverHeld {w : W} (e : Env) (p : Nat) (l : List (Bool × Pending)) (hw : Listed w) :
    Listed (Machine.deliverHeld e p l w) := by
  induction l generalizing w with
  | nil => exact hw
  | cons x l ih =>
    obtain ⟨_ | _, x⟩ := x
    · simp only [Machine.deliverHeld]
      grind [Listed.setAside, Listed.updFq, Listed.holdFull, Listed.deliver, Listed.writeEntry, Listed.holdUnwritten]
    · exact ih (setAside _ _ hw)

theorem retryHeld {w : W} (e : Env) (p : Nat) (hw : Listed w) : Listed (Machine.retryHeld e w p) :=
  deliverHeld e p _ (updFq p _ hw)

theorem rebuildFq {w : W} (e : Env) (p : Nat) (base size : BitVec 64) (hw : Listed w) :
    Listed (Machine.rebuildFq e w p base size) := by
  rw [Machine.rebuildFq]
  dsimp only
  split
  · exact hw
  · exact deliverHeld e p _ (updFq p _ hw)

theorem reportEntries {w : W} (e : Env) (ps : List Nat) (hw : Listed w) : Listed (Machine.reportEntries e w ps) := by
  unfold Machine.reportEntries
  grind [Listed.foldl, Listed.congr, Listed.deliver]

theorem reportAction {w : W} (e : Env) (ps : List Nat) (hw : Listed w) : Listed (Machine.reportAction e w ps) := by
  unfold Machine.reportAction
  grind [Listed.congr, Listed.manyEvent, Listed.reportEntries]

/-! Launch. -/

theorem giveSlot {w : W} (lid i : Nat) (hw : Listed w) : Listed (Machine.giveSlot w lid i) := by
  unfold Machine.giveSlot
  grind [Listed.congr]

theorem giveSlots {w : W} (lid : Nat) (order : List Nat) (hw : Listed w) : Listed (Machine.giveSlots w lid order) := by
  unfold Machine.giveSlots
  grind [Listed.foldl, Listed.giveSlot]

theorem releaseSlot {w : W} (lid i : Nat) (hw : Listed w) : Listed (Machine.releaseSlot w lid i) := by
  unfold Machine.releaseSlot
  grind [Listed.congr, Listed.updLaunch, Listed.giveSlot]

/-- Bytes written to a course's frame at formation; a write that fails is dropped. -/
theorem frameWrite {w : W} (e : Env) (row p wd va : Nat) (bs : List Byte) (hw : Listed w) :
    Listed (match Machine.ctxWrite e w row p wd va bs [] with | .ok w => w | .error _ => w) := by
  split
  next h => exact ctxWrite e row p wd va bs [] h hw
  · exact hw

theorem formFrame {w : W} (e : Env) (c : Course) (hw : Listed w) : Listed (Machine.formFrame e w c) :=
  frameWrite e _ _ _ _ _ (frameWrite e _ _ _ _ _ (frameWrite e _ _ _ _ _ (frameWrite e _ _ _ _ _ (frameWrite e _ _ _ _ _ hw))))

theorem formCourse {w : W} (e : Env) (kc : Nat) (k : Consort) (l : Launch) (j frame : Nat) (hw : Listed w) :
    Listed (Machine.formCourse e kc k l w j frame) := by
  unfold Machine.formCourse
  grind [Listed.congr, Listed.enterReady, Listed.formFrame]

theorem formAll {w : W} (e : Env) (kc : Nat) (k : Consort) (l : Launch) (frames : List Nat) (hw : Listed w) :
    Listed (Machine.formAll e w kc k l frames) := by
  unfold Machine.formAll
  grind [Listed.foldl, Listed.congr, Listed.updConsort, Listed.formCourse]

theorem grabBlock {w : W} (kc pcn b : Nat) (hw : Listed w) : Listed (Machine.grabBlock w kc pcn b) := by
  unfold Machine.grabBlock
  grind [Listed.congr, Listed.wrClear, Listed.cleanRange, Listed.updCore]

theorem grabGroup {w : W} (kc pcn q g : Nat) (hw : Listed w) : Listed (Machine.grabGroup w kc pcn q g) := by
  unfold Machine.grabGroup
  grind [Listed.congr, Listed.wrClear, Listed.cleanRange, Listed.updCore]

theorem grabScale {w : W} (kc pcn q g : Nat) (hw : Listed w) : Listed (Machine.grabScale w kc pcn q g) := by
  unfold Machine.grabScale
  grind [Listed.congr, Listed.wrClear, Listed.cleanRange, Listed.updCore]

theorem grabUnits {w : W} (kc : Nat) (k : Consort) (hw : Listed w) : Listed (Machine.grabUnits w kc k) := by
  unfold Machine.grabUnits
  grind [Listed.foldl, Listed.grabBlock, Listed.grabGroup]

theorem grabCounters {w : W} (kc : Nat) (k : Consort) (hw : Listed w) : Listed (Machine.grabCounters w kc k) := by
  unfold Machine.grabCounters
  grind [Listed.foldl, Listed.congr, Listed.updCore, Listed.grabScale]

theorem placeConsort {w : W} (e : Env) (kc : Nat) (hw : Listed w) : Listed (Machine.placeConsort e w kc) := by
  unfold Machine.placeConsort
  grind [Listed.congr, Listed.updPart, Listed.updConsort, Listed.formAll, Listed.grabUnits, Listed.grabCounters]

theorem completeLaunch {w : W} (e : Env) (l : Launch) (hw : Listed w) : Listed (Machine.completeLaunch e w l) := by
  unfold Machine.completeLaunch
  grind [Listed.congr, Listed.devWrite, Listed.msixPost, Listed.hostEvent]

theorem rejectLaunch {w : W} (e : Env) (l : Launch) (hw : Listed w) : Listed (Machine.rejectLaunch e w l) := by
  unfold Machine.rejectLaunch
  grind [Listed.congr, Listed.devWrite, Listed.msixPost, Listed.hostEvent]

theorem startLaunch {w : W} (e : Env) (l : Launch) (mayPriv : Bool) (hw : Listed w) : Listed (Machine.startLaunch e w l mayPriv) := by
  unfold Machine.startLaunch
  grind [Listed.congr, Listed.giveSlots, Listed.rejectLaunch]

theorem ownAdd {w : W} (e : Env) (row p pa n : Nat) (hw : Listed w) : Listed (Machine.ownAdd e w row p pa n) := by
  rw [Machine.ownAdd]
  split
  · exact hw
  · dsimp only
    split
    · exact deliver e _ _ (afterScrub e _ hw)
    · exact wrPlaces e _ _ _ (afterScrub e _ hw)

theorem account {w : W} (e : Env) (c : Course) (hw : Listed w) : Listed (Machine.account e w c) := by
  unfold Machine.account
  grind [Listed.foldl, Listed.ownAdd]

theorem endCourse {w : W} (e : Env) (cid : Nat) (hw : Listed w) : Listed (Machine.endCourse e w cid) := by
  unfold Machine.endCourse
  grind [Listed.congr, Listed.tDel, Listed.updDisp, Listed.updPart, Listed.updConsort, Listed.account]

theorem freeUnits {w : W} (kc : Nat) (k : Consort) (hw : Listed w) : Listed (Machine.freeUnits w kc k) := by
  unfold Machine.freeUnits
  grind [Listed.foldl, Listed.congr, Listed.updPart, Listed.updCore]

theorem countEnd {w : W} (e : Env) (lid idx : Nat) (lost : Option Nat) (hw : Listed w) : Listed (Machine.countEnd e w lid idx lost) := by
  unfold Machine.countEnd
  grind [Listed.congr, Listed.tDel, Listed.completeLaunch]

theorem formSuccessor {w : W} (e : Env) (kc : Nat) (k : Consort) (nl : Launch) (fs : List Nat) (hw : Listed w) :
    Listed (Machine.formSuccessor e w kc k nl fs) := by
  unfold Machine.formSuccessor
  grind [Listed.congr, Listed.updConsort, Listed.formAll]

theorem dropConsort {w : W} (kc : Nat) (k : Consort) (hw : Listed w) : Listed (Machine.dropConsort w kc k) := by
  unfold Machine.dropConsort
  grind [Listed.congr, Listed.tDel, Listed.releaseSlot, Listed.freeUnits]

theorem finishConsort {w : W} (e : Env) (kc : Nat) (hw : Listed w) : Listed (Machine.finishConsort e w kc) := by
  unfold Machine.finishConsort
  grind [Listed.congr, Listed.updPart, Listed.rejectLaunch, Listed.countEnd, Listed.formSuccessor, Listed.dropConsort]

theorem loseConsort {w : W} (e : Env) (kc status : Nat) (hw : Listed w) : Listed (Machine.loseConsort e w kc status) := by
  unfold Machine.loseConsort
  grind [Listed.foldl, Listed.congr, Listed.tDel, Listed.updConsort, Listed.releaseSlot, Listed.endCourse, Listed.countEnd,
    Listed.finishConsort]

theorem loseConsorts {w : W} (e : Env) (ks : List Nat) (status : Nat) (hw : Listed w) : Listed (Machine.loseConsorts e w ks status) := by
  unfold Machine.loseConsorts
  grind [Listed.foldl, Listed.loseConsort]

/-! Ops. -/

theorem report {w : W} (e : Env) (x : Pending) (matrix : Option (Nat × Nat)) (hw : Listed w) : Listed (Machine.report e w x matrix) := by
  unfold Machine.report
  grind [Listed.congr, Listed.partEvent, Listed.deliver]

theorem drain {w : W} (c : Course) (hw : Listed w) : Listed (Machine.drain w c).1 := by
  unfold Machine.drain
  grind [Listed.foldl, Listed.congr]

theorem writeLine {w w' : W} (e : Env) (c : Course) (r : Nat) (l : CLine) (he : Machine.writeLine e w c r l = .ok w') (hw : Listed w) :
    Listed w' := by
  unfold Machine.writeLine at he
  grind [Listed.ctxWrite]

theorem afterSpill {w : W} (cid : Nat) (hw : Listed w) : Listed (Machine.afterSpill w cid) := by
  unfold Machine.afterSpill
  grind [Listed.congr, Listed.setCourse, Listed.enterReady]

theorem reportSpill {w : W} (e : Env) (cid : Nat) (rs : List Nat) (cause : Nat) (hw : Listed w) :
    Listed (Machine.reportSpill e w cid rs cause) := by
  unfold Machine.reportSpill
  grind [Listed.congr, Listed.report]

theorem spillLine {w : W} (e : Env) (cid r : Nat) (hw : Listed w) : Listed (Machine.spillLine e w cid r).1 := by
  unfold Machine.spillLine
  grind [Listed.congr, Listed.setCourse, Listed.bumpCore, Listed.writeLine]

theorem spillLines {w : W} (e : Env) (cid : Nat) (rs : List Nat) (hw : Listed w) :
    Listed (Machine.spillLines e w cid rs) := by
  rw [Machine.spillLines]
  refine afterSpill _ (reportSpill e _ _ _ (reportSpill e _ _ _ (foldl_fst rs (fun s r hs => ?_) hw)))
  exact spillLine e cid r hs

theorem makeRoom {w : W} (e : Env) (q n fuel : Nat) (hw : Listed w) : Listed (Machine.makeRoom e q n fuel w) := by
  induction fuel generalizing w with
  | zero => exact hw
  | succ fuel ih =>
    rw [Machine.makeRoom]
    split
    · exact hw
    · split
      · exact hw
      · exact ih (spillLines e _ _ hw)

theorem roomFor {w : W} (e : Env) (c : Course) (rs : List Nat) (hw : Listed w) : Listed (Machine.roomFor e w c rs) := by
  rw [Machine.roomFor]
  split
  · exact hw
  · exact makeRoom e _ _ 2049 (setCourse c hw)

theorem gather {w : W} (e : Env) (c : Course) (hw : Listed w) : Listed (Machine.gather e w c).1 := by
  fun_cases Machine.gather e w c
  · exact hw
  · grind [Listed.spillLines, Listed.updCourse, Listed.makeRoom, Listed.setCourse]

theorem closeWindow {w : W} (e : Env) (c : Course) (hw : Listed w) : Listed (Machine.closeWindow e w c).1 := by
  unfold Machine.closeWindow
  grind [Listed.foldl, Listed.congr, Listed.drain, Listed.roomFor]

theorem writeControl {w w' : W} (e : Env) (c : Course) (he : Machine.writeControl e w c = .ok w') (hw : Listed w) : Listed w' := by
  unfold Machine.writeControl at he
  grind [Listed.ctxWrite]

theorem leaveSlot {w : W} (e : Env) (c : Course) (hw : Listed w) : Listed (Machine.leaveSlot e w c).1 := by
  unfold Machine.leaveSlot
  grind [Listed.congr, Listed.setCourse, Listed.report, Listed.drain, Listed.gather, Listed.writeControl]

theorem parkCourse {w : W} (e : Env) (c : Course) (cause : Nat) (aw : Await) (join : Nat) (deadline : Option Nat) (hw : Listed w) :
    Listed (Machine.parkCourse e w c cause aw join deadline) := by
  unfold Machine.parkCourse
  grind [Listed.congr, Listed.setCourse, Listed.enterReady, Listed.leaveSlot]

theorem takeFaults {w : W} (e : Env) (c : Course) (xs : List Entry) (matrix : Option (Nat × Nat)) (hw : Listed w) :
    Listed (Machine.takeFaults e w c xs matrix) := by
  unfold Machine.takeFaults
  grind [Listed.foldl, Listed.congr, Listed.deliver, Listed.report, Listed.parkCourse]

theorem faultLanes {w : W} (e : Env) (c : Course) (cause : Nat) (lanes : Mask) (va : Nat → Nat) (atype size : Nat) (hw : Listed w) :
    Listed (Machine.faultLanes e w c cause lanes va atype size) := by
  unfold Machine.faultLanes
  grind [Listed.takeFaults]

theorem faultFree {w : W} (e : Env) (c : Course) (cause : Nat) (lanes : Mask) (va : Nat → Nat) (hw : Listed w) :
    Listed (Machine.faultFree e w c cause lanes va) := by
  unfold Machine.faultFree
  grind [Listed.takeFaults]

theorem faultPc {w : W} (e : Env) (c : Course) (cause : Nat) (lanes : Mask) (hw : Listed w) :
    Listed (Machine.faultPc e w c cause lanes) := by
  unfold Machine.faultPc
  grind [Listed.faultFree]

theorem faultCtx {w : W} (e : Env) (c : Course) (va atype size cause : Nat) (hw : Listed w) :
    Listed (Machine.faultCtx e w c va atype size cause) := by
  unfold Machine.faultCtx
  grind [Listed.report, Listed.parkCourse]

theorem splitLanes {w : W} (e : Env) (c : Course) (xs : List Split) (atype size : Nat) (hw : Listed w) :
    Listed (Machine.splitLanes e w c xs atype size) := by
  unfold Machine.splitLanes
  grind [Listed.foldl, Listed.congr, Listed.setCourse, Listed.bumpCore, Listed.report]

theorem saveUnit {w w' : W} (e : Env) (k : Consort) (u : Unit70) (he : Machine.saveUnit e w k u = .ok w')
    (hw : Listed w) : Listed w' := by
  refine foldl_ok _ (fun r x hr v hv => ?_) (fun v hv => ?_) w' he
  · cases r with
    | error y => cases hv
    | ok w => exact ctxWrite e _ _ _ _ _ _ hv (hr w rfl)
  · cases hv
    exact hw

theorem loadUnit {w w' : W} (e : Env) (k : Consort) (u : Unit70) (he : Machine.loadUnit e w k u = .ok w')
    (hw : Listed w) : Listed w' := by
  refine foldl_ok _ (fun r x hr v hv => ?_) (fun v hv => ?_) w' he
  · cases r with
    | error y => cases hv
    | ok w =>
      dsimp only at hv
      split at hv
      · cases hv
      · cases hv
        exact foldl _ (fun w i => poisonAt _) (wrBs _ _ (hr w rfl))
  · cases hv
    exact hw

theorem giveUnit {w : W} (kc : Nat) (u : Unit70) (hw : Listed w) : Listed (Machine.giveUnit w kc u) := by
  cases u with
  | scratch pcn b => exact updCore pcn _ hw
  | rows pcn q g => exact updCore pcn _ hw

theorem claimUnit {w w' : W} (e : Env) (kc : Nat) (u : Unit70) (he : Machine.claimUnit e w kc u = .ok w') (hw : Listed w) :
    Listed w' := by
  rw [Machine.claimUnit] at he
  split at he
  · cases he
    exact hw
  next k _ =>
    dsimp only at he
    split at he
    · cases he
    next v hv =>
      have saved : Listed v := by grind [Listed.saveUnit, Listed.updConsort]
      have given := giveUnit kc u (cleanRange (unitMem u).1 (unitMem u).2 (wrClear (unitMem u).1 (unitMem u).2 saved))
      split at he
      · split at he
        · cases he
        next hl =>
          cases he
          exact updConsort _ _ (loadUnit e _ _ hl given)
      · cases he
        exact given

theorem writeBar {w : W} (e : Env) (kc : Nat) (hw : Listed w) : Listed (Machine.writeBar e w kc).1 := by
  unfold Machine.writeBar
  grind [Listed.congr, Listed.ctxWrite, Listed.updConsort, Listed.report]

theorem enqueue {w : W} {p : W × Nat} (e : Env) (c : Course) (header : List Byte) (he : Machine.enqueue e w c header = .ok p)
    (hw : Listed w) : Listed p.1 := by
  rw [Machine.enqueue] at he
  split at he
  · cases he
  next h =>
    cases he
    exact updPart _ _ (ctxWrite e _ _ _ _ _ _ h hw)

theorem enqueueWaiting {w : W} (e : Env) (c : Course) (hw : Listed w) : Listed (Machine.enqueueWaiting e w c) := by
  rw [Machine.enqueueWaiting]
  split
  · split
    · exact report e _ none (setCourse _ hw)
    next h => exact wake _ (enqueue e c _ h hw)
  · exact hw

theorem enqueueWaiters {w : W} (e : Env) (p : Nat) (hw : Listed w) : Listed (Machine.enqueueWaiters e w p) := by
  unfold Machine.enqueueWaiters
  grind [Listed.foldl, Listed.enqueueWaiting]

theorem flushNewer {w : W} (e : Env) (cid : Nat) (hw : Listed w) : Listed (Machine.flushNewer e w cid) := by
  unfold Machine.flushNewer
  grind [Listed.foldl, Listed.congr, Listed.updCourse, Listed.ctxWrite]

theorem reviveLanes {w : W} (e : Env) (cid : Nat) (lanes : Mask) (hw : Listed w) : Listed (Machine.reviveLanes e w cid lanes) := by
  unfold Machine.reviveLanes
  grind [Listed.foldl, Listed.congr, Listed.setCourse, Listed.flushNewer]

theorem replayOne {w : W} (e : Env) (x : Waiter) (hw : Listed w) : Listed (Machine.replayOne e w x) := by
  cases x with
  | split cid lanes => exact reviveLanes e cid lanes hw
  | whole cid => exact decJoin cid hw
  | spill cid lines => exact spillLines e cid lines hw
  | control cid =>
    simp only [Machine.replayOne]
    grind [Listed.writeControl, Listed.decJoin, Listed.report]
  | engine op cid counted =>
    simp only [Machine.replayOne]
    split
    · exact decJoin cid hw
    · exact hw
  | barrier kc => exact writeBar e kc hw
  | launch | report => exact hw
  | claim cid => exact updCourse cid _ (fun _ => rfl) hw

theorem discardQueued {w : W} (e : Env) (p : Nat) (hw : Listed w) : Listed (Machine.discardQueued e w p) := by
  unfold Machine.discardQueued
  grind [Listed.congr, Listed.updPart, Listed.evFnEvent, Listed.enqueueWaiters]

theorem replayEntry {w : W} (e : Env) (x : Pending) (hw : Listed w) : Listed (Machine.replayEntry e w x) := by
  rw [Machine.replayEntry]
  refine foldl _ (fun w y => replayOne e y) ?_
  split
  · exact updPart _ _ hw
  · exact hw

theorem terminateEntry {w : W} (e : Env) (x : Pending) (status : Nat) (hw : Listed w) : Listed (Machine.terminateEntry e w x status) := by
  unfold Machine.terminateEntry
  grind [Listed.loseConsorts, Listed.discardQueued]

theorem passEntry {w : W} (e : Env) (x : Pending) (r : Option Nat) (hw : Listed w) : Listed (Machine.passEntry e w x r) := by
  unfold Machine.passEntry
  grind [Listed.congr, Listed.replayEntry, Listed.terminateEntry]

theorem forgetRefusals {w : W} (p : Nat) (hw : Listed w) : Listed (Machine.forgetRefusals w p) :=
  hw.congr rfl

theorem moveHead {w : W} (e : Env) (p h : Nat) (hw : Listed w) : Listed (Machine.moveHead e w p h) := by
  unfold Machine.moveHead
  grind [Listed.foldl, Listed.congr, Listed.updFq, Listed.retryHeld, Listed.passEntry, Listed.forgetRefusals]

/-! Panel. -/

theorem wrElem {w : W} (e : Env) (k : Consort) (p : Panel) (b r c v : Nat) (hw : Listed w) : Listed (Machine.wrElem e w k p b r c v) := by
  unfold Machine.wrElem
  grind [Listed.wrN]

theorem settlePoison {w : W} (bad whole : List Nat) (hw : Listed w) : Listed (Machine.settlePoison w bad whole) := by
  unfold Machine.settlePoison
  grind [Listed.foldl, Listed.poisonAt, Listed.cleanAt]

theorem putElems {w : W} (e : Env) (k : Consort) (p : Panel) (b : Nat) (l : List Put) (hw : Listed w) :
    Listed (Machine.putElems e w k p b l) := by
  unfold Machine.putElems
  grind [Listed.foldl, Listed.wrElem, Listed.settlePoison]

theorem putBlock {w : W} (b : Block) (f : Nat → Nat → Nat) (hw : Listed w) : Listed (Machine.putBlock w b f) :=
  wrBs _ _ hw

/-! EngOps. -/

theorem updOp {w : W} (n : Nat) (f : EngOp → EngOp) (hw : Listed w) : Listed (Machine.updOp w n f) :=
  hw.congr rfl

theorem updHandle {w : W} (e : Env) (cid ah : Nat) (f : BitVec 128 → BitVec 128) (hw : Listed w) :
    Listed (Machine.updHandle e w cid ah f) := by
  unfold Machine.updHandle
  grind [Listed.congr, Listed.setCourse, Listed.flushNewer]

theorem recheckStalls {w : W} (hw : Listed w) : Listed (Machine.recheckStalls w) := by
  unfold Machine.recheckStalls
  grind [Listed.congr, Listed.tMap]

theorem completeOp {w : W} (e : Env) (n : Nat) (hw : Listed w) : Listed (Machine.completeOp e w n) := by
  unfold Machine.completeOp
  grind [Listed.congr, Listed.tDel, Listed.completeNum, Listed.updHandle, Listed.recheckStalls]

theorem engErr {w : W} (e : Env) (n : Nat) (hw : Listed w) : Listed (Machine.engErr e w n) := by
  unfold Machine.engErr
  grind [Listed.congr, Listed.report, Listed.updOp, Listed.completeOp]

theorem parkForOp {w : W} (e : Env) (cid cause : Nat) (hw : Listed w) : Listed (Machine.parkForOp e w cid cause).1 := by
  unfold Machine.parkForOp
  grind [Listed.congr, Listed.setCourse, Listed.parkCourse, Listed.flushNewer]

theorem opFault {w : W} (e : Env) (n cause va atype size : Nat) (matrix : Option (Nat × Nat)) (hw : Listed w) :
    Listed (Machine.opFault e w n cause va atype size matrix) := by
  unfold Machine.opFault
  grind [Listed.congr, Listed.report, Listed.updOp, Listed.parkForOp]

theorem stopOps {w : W} (p : EngOp → Bool) (hw : Listed w) : Listed (Machine.stopOps w p) := by
  unfold Machine.stopOps
  grind [Listed.congr, Listed.tMap]

theorem resumeOps {w : W} (cid pcn q : Nat) (hw : Listed w) : Listed (Machine.resumeOps w cid pcn q) := by
  unfold Machine.resumeOps
  grind [Listed.foldl, Listed.congr, Listed.updOp]

theorem resetEngine {w : W} (e : Env) (pcn eng : Nat) (hw : Listed w) : Listed (Machine.resetEngine e w pcn eng) := by
  unfold Machine.resetEngine
  grind [Listed.foldl, Listed.congr, Listed.poisonAt, Listed.updCore, Listed.updQuad, Listed.engErr]

/-! Issue. -/

theorem settle {w : W} (e : Env) (c : Course) (s : Sel) (marker back : Bool) (hw : Listed w) :
    Listed (Machine.settle e w c s marker back).1 := by
  unfold Machine.settle
  grind [Listed.congr, Listed.bumpCore, Listed.closeWindow]

theorem finish {w : W} (e : Env) (c : Course) (hw : Listed w) : Listed (Machine.finish e w c) := by
  unfold Machine.finish
  grind [Listed.setCourse, Listed.endCourse]

theorem done {w : W} (e : Env) (c : Course) (s : Sel) (marker back : Bool) (hw : Listed w) :
    Listed (Machine.done e w c s marker back) := by
  unfold Machine.done
  grind [Listed.settle, Listed.finish]

theorem stallOn {w : W} (c : Course) (x : Stall) (hw : Listed w) : Listed (Machine.stallOn w c x) := by
  unfold Machine.stallOn
  grind [Listed.congr, Listed.setCourse]

theorem faulted {w : W} (e : Env) (c : Course) (s : Sel) (f : W → Course → W) (hf : ∀ w c, Listed w → Listed (f w c)) (hw : Listed w) :
    Listed (Machine.faulted e w c s f) := by
  unfold Machine.faulted
  grind [Listed.settle]

theorem withRoom {w : W} (e : Env) (c : Course) (rs : List Nat) (f : W → W) (hf : ∀ w, Listed w → Listed (f w)) (hw : Listed w) :
    Listed (Machine.withRoom e w c rs f) := by
  unfold Machine.withRoom
  grind [Listed.congr, Listed.roomFor, Listed.stallOn]

theorem staged {w : W} (e : Env) (s : Sel) (u : Uses) (marker : Bool) (f : W → W) (hf : ∀ w, Listed w → Listed (f w)) (hw : Listed w) :
    Listed (Machine.staged e w s u marker f) := by
  unfold Machine.staged
  grind [Listed.congr, Listed.faultPc, Listed.stallOn, Listed.withRoom]

theorem sourced {w : W} (e : Env) (s : Sel) (u : Uses) (reads : Mask) (f : W → W) (hf : ∀ w, Listed w → Listed (f w)) (hw : Listed w) :
    Listed (Machine.sourced e w s u reads f) := by
  unfold Machine.sourced
  grind [Listed.congr, Listed.faultFree, Listed.faulted]

theorem guarded {w : W} (e : Env) (s : Sel) (u : Uses) (marker : Bool) (reads : Mask) (f : W → W) (hf : ∀ w, Listed w → Listed (f w))
    (hw : Listed w) : Listed (Machine.guarded e w s u marker reads f) := by
  unfold Machine.guarded
  grind [Listed.staged, Listed.sourced]

theorem closeFirst {w : W} (e : Env) (c : Course) (hw : Listed w) : Listed (Machine.closeFirst e w c) := by
  unfold Machine.closeFirst
  grind [Listed.congr, Listed.setCourse, Listed.closeWindow, Listed.stallOn, Listed.withRoom]

theorem launchResult {w : W} (c : Course) (dest : Dest) (mask : Mask) (val : Line) (flags : List (Nat × Nat)) (hw : Listed w) :
    Listed (Machine.launchResult w c dest mask val flags) := by
  unfold Machine.launchResult
  grind [Listed.congr]

theorem laneImm (h : Hd) (u : Uses) (f : Course → Nat → List Word × Nat) : Lists (Machine.laneImm h u f) := by
  intro e w x hw
  unfold Machine.laneImm
  grind [Listed.foldl, Listed.done, Listed.guarded]

theorem lane1 (h : Hd) (v : List Nat) (d : Nat) (f : Course → Nat → Word) : Lists (Machine.lane1 h v d f) := by
  intro e w x hw
  unfold Machine.lane1
  grind [Listed.congr, Listed.laneImm, Lists]

theorem laneF (h : Hd) (v : List Nat) (d : Nat) (f : Course → Nat → Nat × Nat) : Lists (Machine.laneF h v d f) := by
  intro e w x hw
  unfold Machine.laneF
  grind [Listed.congr, Listed.laneImm, Lists]

theorem lanePred (h : Hd) (v p : List Nat) (d : Nat) (f : Course → Nat → Bool × Nat) : Lists (Machine.lanePred h v p d f) := by
  intro e w x hw
  unfold Machine.lanePred
  grind [Listed.congr, Listed.done, Listed.guarded]

theorem laneDef (h : Hd) (v : List Nat) (sect : List (Nat × Nat)) (d : Nat) (f : Mask → Course → Nat → Nat × Nat) :
    Lists (Machine.laneDef h v sect d f) := by
  intro e w x hw
  unfold Machine.laneDef
  grind [Listed.congr, Listed.done, Listed.guarded, Listed.launchResult]

theorem uniformL (h : Hd) (u : Uses) (n : Nat) (chk : W → Course → Option Nat) (f : Meaning) (hf : Lists f) :
    Lists (Machine.uniformL h u n chk f) := by
  intro e w x hw
  unfold Machine.uniformL
  grind [Listed.congr, Listed.faultPc, Listed.done, Listed.faulted, Listed.staged, Listed.guarded, Lists]

theorem uniformC (h : Hd) (u : Uses) (chk : W → Course → Option Nat) (f : Meaning) (hf : Lists f) :
    Lists (Machine.uniformC h u chk f) := by
  intro e w x hw
  unfold Machine.uniformC
  grind [Listed.sourced, Listed.uniformL, Lists]

theorem uniform (h : Hd) (u : Uses) (f : Meaning) (hf : Lists f) : Lists (Machine.uniform h u f) := by
  intro e w x hw
  unfold Machine.uniform
  grind [Listed.uniformC, Lists]

theorem uniS (h : Hd) (srcs : List Nat) (qs : List Nat) (f : Course → List (Nat × Word)) : Lists (Machine.uniS h srcs qs f) := by
  intro e w x hw
  unfold Machine.uniS
  grind [Listed.foldl, Listed.congr, Listed.done, Listed.uniform, Lists]

theorem uniQ (h : Hd) (srcs qs : List Nat) (d : Nat) (f : Course → Bool) : Lists (Machine.uniQ h srcs qs d f) := by
  intro e w x hw
  unfold Machine.uniQ
  grind [Listed.congr, Listed.done, Listed.uniform, Lists]

theorem launchS {w : W} (c : Course) (l : List (Nat × Word)) (hw : Listed w) : Listed (Machine.launchS w c l) := by
  unfold Machine.launchS
  grind [Listed.foldl, Listed.launchResult]

theorem fetchFault {w : W} (e : Env) (s : Sel) (pc : Word) (cause : Nat) (matrix : Option (Nat × Nat)) (hw : Listed w) :
    Listed (Machine.fetchFault e w s pc cause matrix) := by
  unfold Machine.fetchFault
  grind [Listed.takeFaults]

theorem illopAt {w : W} (e : Env) (s : Sel) (hw : Listed w) : Listed (Machine.illopAt e w s) := by
  unfold Machine.illopAt
  grind [Listed.faultPc, Listed.faulted]

/-! LaneInt. -/

theorem laneRR (h : Hd) (d a b : R64) (f : Word → Word → Word) : Lists (Machine.laneRR h d a b f) := by
  intro e w x hw
  unfold Machine.laneRR
  grind [Listed.lane1, Lists]

theorem laneR (h : Hd) (d a : R64) (f : Word → Word) : Lists (Machine.laneR h d a f) := by
  intro e w x hw
  unfold Machine.laneR
  grind [Listed.lane1, Lists]

theorem laneRRD (h : Hd) (d a b : R64) (f : Word → Word → Word → Word) : Lists (Machine.laneRRD h d a b f) := by
  intro e w x hw
  unfold Machine.laneRRD
  grind [Listed.lane1, Lists]

/-! LaneMem. -/

theorem performAll {w : W} (e : Env) (c : Course) (f : Perform) (l : List (Nat × List (Loc × Nat × Nat))) (hf : PerformLists f)
    (hw : Listed w) : Listed (Machine.performAll e c f w l).1 := by
  rw [Machine.performAll]
  refine foldl_fst l (fun s x hs => ?_) hw
  exact hf e s.1 c x.1 x.2 hs

theorem sendLanes {w : W} (c : Course) (d : List Nat) (vals : List (Nat × Nat)) (hw : Listed w) :
    Listed (Machine.sendLanes w c d vals) := by
  unfold Machine.sendLanes
  grind [Listed.foldl, Listed.launchResult]

theorem memFinish {w : W} (e : Env) (s : Sel) (h : Hd) (u : Uses) (x : MemEnd) (atype size : Nat) (hw : Listed w) :
    Listed (Machine.memFinish e w s h u x atype size) := by
  unfold Machine.memFinish
  grind [Listed.foldl, Listed.congr, Listed.takeFaults, Listed.splitLanes, Listed.settle, Listed.sendLanes]

theorem globalLanes (h : Hd) (u : Uses) (g : Course → GlobalOp) (f : Perform) (hf : PerformLists f) :
    Lists (Machine.globalLanes h u g f) := by
  intro e w x hw
  unfold Machine.globalLanes
  grind [Listed.congr, Listed.cleanCovered, Listed.faultLanes, Listed.stallOn, Listed.faulted, Listed.staged, Listed.performAll,
    Listed.memFinish, PerformLists]

theorem doLoad : PerformLists doLoad := fun _ _ _ _ _ hw => hw

theorem doStore (d : R64) (n : Nat) : PerformLists (doStore d n) := fun e _ _ _ _ hw => wrPlaces e _ _ _ hw

theorem atomAt {w : W} (e : Env) (p wd : Nat) (o : AtOp) (ret : Bool) (b c : Nat) (ls : List (Loc × Nat × Nat))
    (hw : Listed w) : Listed (Machine.atomAt e w p wd o ret b c ls).1 := by
  rw [Machine.atomAt]
  dsimp only
  split
  · exact deliver e p _ hw
  · exact wrPlaces e wd ls _ hw

theorem globalAtomic (h : Hd) (o : AtOp) (ret : Bool) (a b : R64) : Lists (Machine.globalAtomic h o ret a b) := by
  intro e w x hw
  unfold Machine.globalAtomic
  grind [Listed.foldl, Listed.congr, Listed.globalLanes, Listed.atomAt, Lists, PerformLists, ScrLists]

theorem noteRaces {w : W} (kc cid : Nat) (write atom : Bool) (words : List Nat) (hw : Listed w) :
    Listed (Machine.noteRaces w kc cid write atom words) := by
  unfold Machine.noteRaces
  grind [Listed.foldl, Listed.congr, Listed.updConsort]

/-- Scratch accesses performed one after another. -/
theorem performScr {w : W} (e : Env) (c : Course) {f : ScrPerform} (hf : ScrLists f) (l : List Scr) (hw : Listed w) :
    Listed (l.foldl (fun (st : W × List (Nat × Nat)) x =>
      let (w, v) := f e st.1 c x
      (w, st.2 ++ [(x.lane, v)])) (w, [])).1 := by
  refine foldl_fst l (fun s x hs => ?_) hw
  exact hf e s.1 c x hs

theorem scrLanes (h : Hd) (u : Uses) (atype n : Nat) (align reads write atom : Bool) (off : Course → Nat → Nat) {f : ScrPerform}
    (hf : ScrLists f) : Lists (Machine.scrLanes h u atype n align reads write atom off f) := by
  intro e w s hw
  refine staged e s _ _ _ (fun w hw => ?_) hw
  split
  · exact hw
  · dsimp only
    split
    · exact faulted e _ s _ (fun w c hw => faultLanes e c _ _ _ _ _ hw) hw
    · split
      · exact faulted e _ s _ (fun w c hw => faultLanes e c _ _ _ _ _ hw) hw
      · split
        · exact stallOn _ _ hw
        · split
          · exact memFinish e s h _ _ _ _ hw
          · split
            · exact faulted e _ s _ (fun w c hw => faultLanes e c _ _ _ _ _ (bumpCore _ _ _ hw)) hw
            · refine memFinish e s h _ _ _ _ ?_
              split
              · exact cleanCovered _ (performScr e s.c hf _ (performScr e s.c hf _ (noteRaces _ _ _ _ _ hw)))
              · exact performScr e s.c hf _ (performScr e s.c hf _ (noteRaces _ _ _ _ _ hw))

theorem scrAtomic (h : Hd) (o : AtOp) (ret : Bool) (a b : R64) : Lists (Machine.scrAtomic h o ret a b) := by
  intro e w x hw
  unfold Machine.scrAtomic
  grind [Listed.foldl, Listed.congr, Listed.wrN, Listed.scrLanes, Lists, PerformLists, ScrLists]

/-! UniMem. -/

theorem uniStop {w : W} (e : Env) (s : Sel) (u : Uses) (g : GlobalOp) (cause va : Nat) (hw : Listed w) :
    Listed (Machine.uniStop e w s u g cause va) := by
  unfold Machine.uniStop
  grind [Listed.congr, Listed.takeFaults, Listed.faulted]

theorem uniAccess {w : W} (e : Env) (s : Sel) (u : Uses) (g : GlobalOp) (slot : Nat) (act f : W → List (Loc × Nat × Nat) → W)
    (hact : ∀ w ls, Listed w → Listed (act w ls)) (hf : ∀ w ls, Listed w → Listed (f w ls)) (hw : Listed w) :
    Listed (Machine.uniAccess e w s u g slot act f) := by
  unfold Machine.uniAccess
  grind [Listed.congr, Listed.takeFaults, Listed.stallOn, Listed.faulted, Listed.sourced, Listed.uniStop]

/-! UniCtl. -/

theorem uniJumpReg (h : Hd) (a : R64) : Lists (Machine.uniJumpReg h a) := by
  intro e w x hw
  unfold Machine.uniJumpReg
  grind [Listed.congr, Listed.faultFree, Listed.done, Listed.faulted, Listed.sourced, Listed.uniformL, Lists]

theorem exitCourse (h : Hd) : Lists (Machine.exitCourse h) := by
  intro e w x hw
  unfold Machine.exitCourse
  grind [Listed.done]

theorem parkMark {w : W} (e : Env) (c : Course) (s : Sel) (cause : Nat) (aw : Await) (join : Nat) (dl : Option Nat) (hw : Listed w) :
    Listed (Machine.parkMark e w c s cause aw join dl) := by
  unfold Machine.parkMark
  grind [Listed.parkCourse, Listed.settle]

theorem dispFault {w : W} (e : Env) (c : Course) (s : Sel) (d cause : Nat) (mx : Option (Nat × Nat)) (hw : Listed w) :
    Listed (Machine.dispFault e w c s d cause mx) := by
  unfold Machine.dispFault
  grind [Listed.congr, Listed.takeFaults, Listed.faulted]

theorem unlessAway {w : W} (e : Env) (s : Sel) (entries pcn : Nat) (f : W → W) (hf : ∀ w, Listed w → Listed (f w)) (hw : Listed w) :
    Listed (Machine.unlessAway e w s entries pcn f) := by
  unfold Machine.unlessAway
  grind [Listed.dispFault]

theorem waitTl (h : Hd) (t : Fin 4) (a : R64) (dl : Option (R8 × R64)) : Lists (Machine.waitTl h t a dl) := by
  intro e w x hw
  unfold Machine.waitTl
  grind [Listed.congr, Listed.done, Listed.uniformC, Listed.parkMark, Listed.unlessAway, Lists]

/-! Engine. -/

theorem takeNumber {w : W} (c : Course) (tl sd : Nat) (hw : Listed w) : Listed (Machine.takeNumber w c tl sd).1 := by
  unfold Machine.takeNumber
  grind [Listed.updTlc]

theorem handOver {w : W} (e : Env) (o : EngOp) (hw : Listed w) : Listed (Machine.handOver e w o) := by
  unfold Machine.handOver
  grind [Listed.congr, Listed.settleTlc, Listed.recheckStalls, Listed.completeOp]

theorem engGo {w : W} (h : Hd) (x : EngInstr) (e : Env) (s : Sel) (p i : Nat) (hw : Listed w) :
    Listed (engIssue.engGo h x e w s p i) := by
  rw [engIssue.engGo]
  grind [Listed.stallOn, Listed.handOver, Listed.done, Listed.takeNumber]

theorem engIssue (h : Hd) (x : EngInstr) : Lists (Machine.engIssue h x) := by
  intro e w s hw
  refine uniformL h _ 4 _ _ (fun e w s hw => ?_) e w s hw
  grind [Listed.faulted, Listed.faultFree, Listed.sourced, Listed.unlessAway, Listed.stallOn, Listed.engGo]

theorem dsetWith (h : Hd) (u : Uses) (ill seg : W → Course → Bool) (stall : W → Course → Option Stall) (f : Course → Course) :
    Lists (Machine.dsetWith h u ill seg stall f) := by
  intro e w x hw
  unfold Machine.dsetWith
  grind [Listed.congr, Listed.faultFree, Listed.done, Listed.stallOn, Listed.faulted, Listed.sourced, Listed.uniformL, Lists]

/-! Message. -/

theorem rejectMessage {w : W} (p : Nat) (x : Sender) (data : Nat) (hw : Listed w) : Listed (Machine.rejectMessage w p x data) := by
  unfold Machine.rejectMessage
  grind [Listed.hostEvent]

theorem fireLaunch {w : W} (e : Env) (p : Nat) (o : Origin) (owners : List Owner) (hdr casid ctx : Nat) (fn port : Option Nat)
    (hw : Listed w) : Listed (Machine.fireLaunch e w p o owners hdr casid ctx fn port) := by
  unfold Machine.fireLaunch
  grind [Listed.congr, Listed.hostEvent, Listed.rejectLaunch, Listed.startLaunch]

theorem firePool {w : W} (e : Env) (p tag : Nat) (hw : Listed w) : Listed (Machine.firePool e w p tag) := by
  unfold Machine.firePool
  grind [Listed.congr, Listed.tDel, Listed.updPart, Listed.fireLaunch]

theorem expirePool {w : W} (e : Env) (p tag : Nat) (hw : Listed w) : Listed (Machine.expirePool e w p tag) := by
  unfold Machine.expirePool
  grind [Listed.congr, Listed.firePool]

theorem joinPool {w : W} (e : Env) (p tag : Nat) (a : Arming) (o : Owner) (fn port : Option Nat) (hw : Listed w) :
    Listed (Machine.joinPool e w p tag a o fn port) := by
  unfold Machine.joinPool
  grind [Listed.congr, Listed.updPart, Listed.firePool]

theorem takeMessage {w : W} (e : Env) (p : Nat) (x : Sender) (data : Nat) (hw : Listed w) :
    Listed (Machine.takeMessage e w p x data).1 := by
  unfold Machine.takeMessage
  grind [Listed.congr, Listed.rejectMessage, Listed.fireLaunch, Listed.firePool, Listed.expirePool, Listed.joinPool]

/-! UniSync. -/

theorem wakeBar {w : W} (c : Course) (hw : Listed w) : Listed (Machine.wakeBar w c) := by
  unfold Machine.wakeBar
  grind [Listed.congr, Listed.wake]

theorem arrive {w : W} (c : Course) (n count : Nat) (hw : Listed w) : Listed (Machine.arrive w c n count).1 := by
  unfold Machine.arrive
  grind [Listed.foldl, Listed.congr, Listed.updConsort, Listed.wakeBar]

theorem barWith (h : Hd) (srcs : List Nat) (n : Fin 16) (cnt : Fin 128) (after : AfterArrive)
    (hafter : ∀ e w c x b, Listed w → Listed (after e w c x b)) : Lists (Machine.barWith h srcs n cnt after) := by
  intro e w x hw
  unfold Machine.barWith
  grind [Listed.congr, Listed.setCourse, Listed.faultFree, Listed.stallOn, Listed.faulted, Listed.uniformC, Listed.unlessAway,
    Listed.arrive, Lists]

theorem withDisp (h : Hd) (srcs : List Nat) (entries : Nat) (a : R64) (act : W → Nat → W) (f : Nat → Meaning)
    (hact : ∀ w d, Listed w → Listed (act w d)) (hf : ∀ d, Lists (f d)) : Lists (Machine.withDisp h srcs entries a act f) := by
  intro e w x hw
  unfold Machine.withDisp
  grind [Listed.congr, Listed.faultFree, Listed.stallOn, Listed.faulted, Listed.sourced, Listed.uniformL, Listed.dispFault, Lists]

theorem takeTicket {w : W} (n : Nat) (hw : Listed w) : Listed (Machine.takeTicket w n) := by
  unfold Machine.takeTicket
  grind [Listed.congr, Listed.updDisp]

/-! UniSys. -/

theorem partWrite {w : W} (e : Env) (p n : Nat) (hi : Bool) (v : Word) (hw : Listed w) : Listed (Machine.partWrite e w p n hi v) := by
  unfold Machine.partWrite
  grind [Listed.congr, Listed.rebuildFq, Listed.moveHead]

theorem privWith (h : Hd) (u : Uses) (ill : W → Course → Bool) (d : Option Nat) (f : Env → W → Course → Sel → W × Nat)
    (hf : ∀ e w c x, Listed w → Listed (f e w c x).1) : Lists (Machine.privWith h u ill d f) := by
  intro e w x hw
  unfold Machine.privWith
  grind [Listed.setCourse, Listed.done, Listed.uniformC, Lists]

theorem privOp (h : Hd) (u : Uses) (d : Option Nat) (f : Env → W → Course → Sel → W × Nat)
    (hf : ∀ e w c x, Listed w → Listed (f e w c x).1) : Lists (Machine.privOp h u d f) := by
  intro e w x hw
  unfold Machine.privOp
  grind [Listed.privWith, Lists]

theorem dropTlb {w : W} (p : Nat) (f : TlbEnt → Bool) (hw : Listed w) : Listed (Machine.dropTlb w p f) :=
  hw.congr rfl

theorem dropHost {w : W} (p asid : Nat) (hw : Listed w) : Listed (Machine.dropHost w p asid) :=
  hw.congr rfl

theorem markNewers_id (c : Course) (l : List (Nat × Nat)) : (l.foldl (fun c (o, n) => markNewer c o n) c).id = c.id := by
  induction l generalizing c with
  | nil => rfl
  | cons x l ih => exact ih _

theorem flushCourse {w : W} (e : Env) (t : Course) (hw : Listed w) : Listed (Machine.flushCourse e w t) := by
  refine flushNewer e _ (updCourse _ _ (fun c => ?_) (spillLines e _ _ (updCourse _ _ (fun _ => rfl) hw)))
  rw [markNewers_id]

theorem ctxfl {w : W} (e : Env) (c : Course) (cid : Nat) (hw : Listed w) : Listed (Machine.ctxfl e w c cid).1 := by
  unfold Machine.ctxfl
  grind [Listed.congr, Listed.flushCourse]

theorem haltCourse {w : W} (e : Env) (c : Course) (cause : Nat) (hw : Listed w) : Listed (Machine.haltCourse e w c cause) := by
  unfold Machine.haltCourse
  grind [Listed.congr, Listed.setCourse, Listed.leaveSlot, Listed.flushNewer]

theorem haltNow {w : W} (e : Env) (cause : Nat) (cid : Nat) (hw : Listed w) : Listed (Machine.haltNow e cause w cid) := by
  unfold Machine.haltNow
  grind [Listed.congr, Listed.haltCourse]

theorem haltConsort {w : W} (e : Env) (kc : Nat) (hw : Listed w) : Listed (Machine.haltConsort e w kc) := by
  unfold Machine.haltConsort
  grind [Listed.foldl, Listed.congr, Listed.updConsort, Listed.writeBar, Listed.stopOps, Listed.haltNow]

theorem releaseConsorts {w : W} (ks : List Nat) (hw : Listed w) : Listed (Machine.releaseConsorts w ks).1 := by
  unfold Machine.releaseConsorts
  grind [Listed.foldl, Listed.congr, Listed.updConsort, Listed.enterReady, Listed.resumeOps]

theorem haltb {w : W} (e : Env) (c : Course) (cid : Nat) (whole : Bool) (hw : Listed w) : Listed (Machine.haltb e w c cid whole).1 := by
  unfold Machine.haltb
  grind [Listed.foldl, Listed.congr, Listed.updLaunch, Listed.haltConsort]

theorem relb {w : W} (c : Course) (cid : Nat) (whole : Bool) (hw : Listed w) : Listed (Machine.relb w c cid whole).1 := by
  unfold Machine.relb
  grind [Listed.congr, Listed.updLaunch, Listed.giveSlots, Listed.releaseConsorts]

theorem putTensor {w : W} (t : Tensor) (hw : Listed w) : Listed (Machine.putTensor w t) :=
  hw.congr rfl

theorem loadKey {w : W} (key : Nat) (hw : Listed w) : Listed (Machine.loadKey w key) := by
  unfold Machine.loadKey
  grind [Listed.congr]

theorem keyAct {w : W} (wd : Nat) (o : KeyAct) (q : KeyReq) (hw : Listed w) : Listed (Machine.keyAct w wd o q).1 := by
  unfold Machine.keyAct
  grind [Listed.congr, Listed.freshN, Listed.putTensor, Listed.loadKey]

theorem keyop (h : Hd) (o : KeyAct) (d a : R64) : Lists (Machine.keyop h o d a) := by
  intro e w s hw
  unfold Machine.keyop
  dsimp only
  refine uniformL h _ 4 _ _ (fun e w s hw => ?_) e w s hw
  refine uniAccess e s _ _ _ _ _ (fun w _ hw => hw) (fun w ls hw => ?_) hw
  grind [Listed.keyAct, Listed.done]

/-! EvCache. -/

theorem takeGen {w : W} (l x slot : Nat) (hw : Listed w) : Listed (Machine.takeGen w l x slot).2 := by
  unfold Machine.takeGen
  grind [Listed.congr, Listed.updQuad]

theorem placeCourse {w : W} (c : Course) (l x slot : Nat) (hw : Listed w) : Listed (Machine.placeCourse w c l x slot) := by
  unfold Machine.placeCourse
  grind [Listed.foldl, Listed.congr, Listed.setCourse, Listed.resumeOps, Listed.takeGen]

theorem badVersion {w : W} (e : Env) (c : Course) (hw : Listed w) : Listed (Machine.badVersion e w c) := by
  unfold Machine.badVersion
  grind [Listed.congr, Listed.setCourse, Listed.partEvent, Listed.report]

theorem badControl {w : W} (e : Env) (c : Course) (cause : Nat) (hw : Listed w) : Listed (Machine.badControl e w c cause) := by
  unfold Machine.badControl
  grind [Listed.congr, Listed.setCourse, Listed.report]

theorem notePlace {w : W} (e : Env) (cid wd gen : Nat) (hw : Listed w) : Listed (Machine.notePlace e w cid wd gen) := by
  unfold Machine.notePlace
  grind [Listed.congr, Listed.ctxWrite]

theorem activate {w : W} (e : Env) (c : Course) (l x slot : Nat) (hw : Listed w) : Listed (Machine.activate e w c l x slot) := by
  unfold Machine.activate
  grind [Listed.congr, Listed.placeCourse, Listed.badVersion, Listed.badControl, Listed.notePlace]

theorem landLine {w : W} (c : Course) (r : Nat) (l : CLine) (hw : Listed w) : Listed (Machine.landLine w c r l) := by
  unfold Machine.landLine
  grind [Listed.congr, Listed.setCourse]

theorem allocLine {w : W} (c : Course) (r : Nat) (hw : Listed w) : Listed (Machine.allocLine w c r) := by
  unfold Machine.allocLine
  grind [Listed.congr, Listed.landLine]

theorem failFill {w : W} (e : Env) (c : Course) (r cause : Nat) (hw : Listed w) : Listed (Machine.failFill e w c r cause) := by
  unfold Machine.failFill
  grind [Listed.congr, Listed.setCourse, Listed.faultCtx]

theorem claimFault {w : W} (e : Env) (cid kc : Nat) (u : Unit70) (a cause atype : Nat) (hw : Listed w) :
    Listed (Machine.claimFault e w cid kc u a cause atype) := by
  unfold Machine.claimFault
  grind [Listed.congr, Listed.report]

/-! EvEngine. -/

theorem blockPoison {w : W} (b : Block) (bad whole : Bool) (hw : Listed w) : Listed (Machine.blockPoison w b bad whole) := by
  unfold Machine.blockPoison
  grind [Listed.poisonAt, Listed.cleanAt]

theorem stepMma (ns : Bool) (ca cb : Nat) : StepLists (Machine.stepMma ns ca cb) := by
  intro gone e w k o hw
  unfold Machine.stepMma
  grind [Listed.putBlock, Listed.blockPoison]

theorem stepAzero : StepLists (Machine.stepAzero ) := by
  intro gone e w k o hw
  unfold Machine.stepAzero
  grind [Listed.wrClear, Listed.blockPoison]

theorem stepAldp (add : Bool) : StepLists (Machine.stepAldp add) := by
  intro gone e w k o hw
  unfold Machine.stepAldp
  grind [Listed.putBlock, Listed.blockPoison]

theorem stepAstp (rm : Rm) : StepLists (Machine.stepAstp rm) := by
  intro gone e w k o hw
  unfold Machine.stepAstp
  grind [Listed.putElems]

theorem stepArow (op : RowOp) : StepLists (Machine.stepArow op) := by
  intro gone e w k o hw
  unfold Machine.stepArow
  grind [Listed.putElems]

theorem stepScld (colB : Bool) : StepLists (Machine.stepScld colB) := by
  intro gone e w k o hw
  unfold Machine.stepScld
  grind [Listed.foldl, Listed.wrB, Listed.settlePoison]

theorem stepPswz (rm : Rm) (tr : Bool) : StepLists (Machine.stepPswz rm tr) := by
  intro gone e w k o hw
  unfold Machine.stepPswz
  grind [Listed.putElems]

theorem stepOf (kind : EKind) : StepLists (Machine.stepOf kind) := by
  cases kind with
  | mma ns a b => exact stepMma ns a b
  | azero => exact stepAzero
  | astp rm => exact stepAstp rm
  | aldp add => exact stepAldp add
  | arow op => exact stepArow op
  | scld b => exact stepScld b
  | pswz rm tr => exact stepPswz rm tr
  | copy | copym | copyo | gather | coll | tlsig => exact fun _ _ _ _ _ hw => hw

theorem runStep {w : W} (e : Env) (k : Consort) (o : EngOp) (hw : Listed w) : Listed (Machine.runStep e w k o).1 := by
  have hs : ∀ gone, Listed (Machine.stepOf o.kind gone e w k o) := fun gone => stepOf o.kind gone e w k o hw
  rw [Machine.runStep]
  grind

theorem waitOn {w : W} (x : Option (Nat × Nat)) (hw : Listed w) : Listed (Machine.waitOn w x) := by
  unfold Machine.waitOn
  grind [Listed.congr, Listed.scrubFirst]

theorem wrKeys {w : W} (keys : List Nat) (bs : List Byte) (bad : List Nat) (hw : Listed w) : Listed (Machine.wrKeys w keys bs bad) := by
  unfold Machine.wrKeys
  grind [Listed.foldl, Listed.wrB, Listed.settlePoison]

theorem lineDone {w : W} (e : Env) (n l : Nat) (f : EngOp → EngOp) (hw : Listed w) : Listed (Machine.lineDone e w n l f) := by
  unfold Machine.lineDone
  grind [Listed.congr, Listed.updOp, Listed.completeOp]

theorem writeRun {w : W} (e : Env) (o : EngOp) (ls : List (Loc × Nat × Nat)) (bs : List Byte) (bad : List Nat)
    (hw : Listed w) : Listed (Machine.writeRun e w o ls bs bad) := by
  rw [Machine.writeRun]
  split
  · exact hw
  · refine foldl_fst ls (fun s x hs => ?_) hw
    grind [Listed.settlePoison, Listed.wrPlaces]

theorem writeLines {w : W} (k : Consort) (o : EngOp) (p : Panel) (l : Nat) (ccs : List Nat) (bs : List Byte) (bad : List Nat)
    (hw : Listed w) : Listed (Machine.writeLines w k o p l ccs bs bad) := by
  unfold Machine.writeLines
  grind [Listed.foldl, Listed.wrKeys]

theorem lineIn {w : W} (e : Env) (k : Consort) (n : Nat) (o : EngOp) (l idx : Nat) (hw : Listed w) :
    Listed (Machine.lineIn e w k n o l idx) := by
  unfold Machine.lineIn
  grind [Listed.foldl, Listed.congr, Listed.opFault, Listed.waitOn, Listed.lineDone, Listed.writeLines]

theorem lineOut {w : W} (e : Env) (k : Consort) (n : Nat) (o : EngOp) (l : Nat) (hw : Listed w) :
    Listed (Machine.lineOut e w k n o l) := by
  unfold Machine.lineOut
  grind [Listed.congr, Listed.opFault, Listed.waitOn, Listed.lineDone, Listed.writeRun]

theorem endColl {w : W} (e : Env) (n code : Nat) (hw : Listed w) : Listed (Machine.endColl e w n code) := by
  unfold Machine.endColl
  grind [Listed.updOp, Listed.completeOp]

theorem withAccess {w : W} (e : Env) (n : Nat) (o : EngOp) (nd : Need) (va len size : Nat) (f : List (Loc × Nat × Nat) → W)
    (hf : ∀ ls, Listed (f ls)) (hw : Listed w) : Listed (Machine.withAccess e w n o nd va len size f) := by
  unfold Machine.withAccess
  grind [Listed.congr, Listed.opFault, Listed.waitOn]

theorem writeRuns {w : W} (e : Env) (n len : Nat) (l : List (Nat × List Byte × List Nat)) (code : Nat) (hw : Listed w) :
    Listed (Machine.writeRuns e n len l code w).1 := by
  induction l generalizing w code with
  | nil => exact hw
  | cons x l ih =>
    obtain ⟨va, bs, bad⟩ := x
    rw [Machine.writeRuns]
    grind [Listed.waitOn, Listed.opFault, Listed.writeRun]

theorem collMove {w : W} (e : Env) (n : Nat) (o : EngOp) (g : Group) (chunk : Nat) (peers : List PeerPart) (hw : Listed w) :
    Listed (Machine.collMove e w n o g chunk peers) := by
  unfold Machine.collMove
  grind [Listed.foldl, Listed.congr, Listed.updOp, Listed.completeOp, Listed.opFault, Listed.withAccess, Listed.writeRuns]

theorem collRead {w : W} (e : Env) (n : Nat) (o : EngOp) (va len : Nat) (f : List Byte → W) (hf : ∀ bs, Listed (f bs))
    (hw : Listed w) : Listed (Machine.collRead e w n o va len f) := by
  rw [Machine.collRead]
  grind [Listed.withAccess, Listed.endColl]

/-! EvMem. -/

theorem reply {w : W} (r : Reply) (hw : Listed w) : Listed (Machine.reply w r) :=
  hw.congr rfl

theorem sliceDo {w : W} (e : Env) (r : SliceReq) (ls : List (Loc × Nat × Nat)) (hw : Listed w) : Listed (Machine.sliceDo e w r ls) := by
  unfold Machine.sliceDo
  grind [Listed.congr, Listed.cleanCovered, Listed.wrPlaces, Listed.atomAt, Listed.reply]

theorem sliceServe {w : W} (e : Env) (r : SliceReq) (ls : List (Loc × Nat × Nat)) (hw : Listed w) :
    Listed (Machine.sliceServe e w r ls) := by
  unfold Machine.sliceServe
  grind [Listed.afterScrub, Listed.reply, Listed.sliceDo]

theorem setScrub {w : W} (p : Nat) (frames : List Nat) (hw : Listed w) : Listed (Machine.setScrub w p frames) :=
  hw.congr rfl

/-! EvQueue. -/

theorem reachTime {w : W} (t : Nat) (hw : Listed w) : Listed (Machine.reachTime w t) :=
  hw.congr rfl

theorem convergeIllop {w : W} (e : Env) (c : Course) (held : Mask) (hw : Listed w) : Listed (Machine.convergeIllop e w c held) := by
  unfold Machine.convergeIllop
  grind [Listed.takeFaults]

theorem holdQueue {w : W} (e : Env) (p : Nat) (q : Queued) (cause : Nat) (hw : Listed w) : Listed (Machine.holdQueue e w p q cause) := by
  unfold Machine.holdQueue
  grind [Listed.congr, Listed.updPart, Listed.report]

theorem departQueue {w : W} (e : Env) (p : Nat) (hw : Listed w) : Listed (Machine.departQueue e w p) := by
  unfold Machine.departQueue
  grind [Listed.congr, Listed.updPart, Listed.startLaunch, Listed.enqueueWaiters, Listed.holdQueue]

theorem saveUnits {w w' : W} (e : Env) (k : Consort) (l : List Unit70) (he : Machine.saveUnits e k l w = some w')
    (hw : Listed w) : Listed w' := by
  induction l generalizing w with
  | nil =>
    cases he
    exact hw
  | cons u l ih =>
    rw [Machine.saveUnits] at he
    split at he
    next h => exact ih he (saveUnit e k u h hw)
    · cases he

theorem moveWork {w : W} (kc : Nat) (slot old new : List Nat) (hw : Listed w) : Listed (Machine.moveWork w kc slot old new) := by
  unfold Machine.moveWork
  grind [Listed.congr, Listed.tMap]

theorem moveSleepers {w : W} (kc : Nat) (hw : Listed w) : Listed (Machine.moveSleepers w kc) := by
  unfold Machine.moveSleepers
  grind [Listed.foldl, Listed.congr, Listed.updDisp]

theorem replaceConsort {w : W} (e : Env) (kc : Nat) (k : Consort) (slot : List Nat) (hw : Listed w) :
    Listed (Machine.replaceConsort e w kc k slot) := by
  unfold Machine.replaceConsort
  grind [Listed.foldl, Listed.congr, Listed.tDel, Listed.updCore, Listed.grabCounters, Listed.freeUnits, Listed.saveUnits,
    Listed.moveWork, Listed.moveSleepers]

/-! EvLink. -/

theorem fabricServe {w : W} (e : Env) (port_ part_ sdev spart addr : Nat) (r : SliceReq) (hw : Listed w) :
    Listed (Machine.fabricServe e w port_ part_ sdev spart addr r) := by
  unfold Machine.fabricServe
  grind [Listed.congr, Listed.reply, Listed.sliceServe]

theorem answerOut {w : W} (n : Nat) (hw : Listed w) : Listed (Machine.answerOut w n) := by
  unfold Machine.answerOut
  grind [Listed.congr, Listed.updPort, Listed.flitOut]

theorem linkWake {w : W} (n : Nat) (hw : Listed w) : Listed (Machine.linkWake w n) := by
  unfold Machine.linkWake
  grind [Listed.congr, Listed.tMap]

theorem portDown {w : W} (n reason : Nat) (hw : Listed w) : Listed (Machine.portDown w n reason) := by
  unfold Machine.portDown
  grind [Listed.foldl, Listed.congr, Listed.updPort, Listed.hostEvent, Listed.partEvent, Listed.linkWake]

theorem linkBack {w : W} (n ver : Nat) (hw : Listed w) : Listed (Machine.linkBack w n ver) := by
  unfold Machine.linkBack
  grind [Listed.congr, Listed.updPort, Listed.reply]

theorem xonAt {w : W} (n cls : Nat) (hw : Listed w) : Listed (Machine.xonAt w n cls) := by
  unfold Machine.xonAt
  grind [Listed.foldl, Listed.congr, Listed.updPort, Listed.flitOut, Listed.reply, Listed.linkWake]

/-! Mute. -/

theorem setLpt {w : W} (pcn lo n v : Nat) (hw : Listed w) : Listed (Machine.setLpt w pcn lo n v) :=
  hw.congr rfl

theorem reportTile {w : W} (e : Env) (t atype code lastSeq : Nat) (hw : Listed w) :
    Listed (Machine.reportTile e w t atype code lastSeq) := by
  unfold Machine.reportTile
  grind [Listed.foldl, Listed.manyEvent, Listed.deliver]

theorem giveUpSlot {w : W} (kc : Nat) (k : Consort) (hw : Listed w) : Listed (Machine.giveUpSlot w kc k) := by
  unfold Machine.giveUpSlot
  grind [Listed.congr, Listed.tDel, Listed.updLaunch, Listed.giveSlots]

theorem loseOnCore {w : W} (e : Env) (l pcn : Nat) (hw : Listed w) : Listed (Machine.loseOnCore e w l pcn) := by
  unfold Machine.loseOnCore
  grind [Listed.foldl, Listed.congr, Listed.updConsort, Listed.loseConsort, Listed.giveUpSlot]

theorem setAppeal {w : W} (t : Nat) (on : Bool) (hw : Listed w) : Listed (Machine.setAppeal w t on) := by
  unfold Machine.setAppeal
  grind [Listed.foldl, Listed.congr, Listed.updTile]

theorem muteCore {w : W} (e : Env) (pcn : Nat) (hw : Listed w) : Listed (Machine.muteCore e w pcn) := by
  unfold Machine.muteCore
  grind [Listed.congr, Listed.tMap, Listed.loseOnCore]

theorem muteSlice {w : W} (s : Nat) (hw : Listed w) : Listed (Machine.muteSlice w s) := by
  unfold Machine.muteSlice
  grind [Listed.foldl, Listed.congr, Listed.portDown]

theorem hubMute {w : W} (e : Env) (t lastSeq : Nat) (hw : Listed w) : Listed (Machine.hubMute e w t lastSeq) := by
  unfold Machine.hubMute
  grind [Listed.congr, Listed.raiseReplme, Listed.setLpt, Listed.reportTile, Listed.setAppeal, Listed.muteCore, Listed.muteSlice]

theorem hubRetune {w : W} (e : Env) (t lastSeq : Nat) (hw : Listed w) : Listed (Machine.hubRetune e w t lastSeq) := by
  unfold Machine.hubRetune
  grind [Listed.congr, Listed.setLpt, Listed.reportTile]

/-! EvError. -/

theorem markSlotUnit {w : W} (cid n : Nat) (hw : Listed w) : Listed (Machine.markSlotUnit w cid n) := by
  unfold Machine.markSlotUnit
  grind [Listed.congr, Listed.updCourse]

theorem noteCorrected {w : W} (t : Nat) (hw : Listed w) : Listed (Machine.noteCorrected w t) := by
  unfold Machine.noteCorrected
  grind [Listed.congr, Listed.updTile, Listed.bumpSlice]

theorem loseAll {w : W} (e : Env) (ks : List Nat) (hw : Listed w) : Listed (Machine.loseAll e w ks) := by
  unfold Machine.loseAll
  grind [Listed.reportAction, Listed.loseConsorts]

theorem withheldEvent {w : W} (e : Env) (pcn detail : Nat) (hw : Listed w) : Listed (Machine.withheldEvent e w pcn detail) := by
  unfold Machine.withheldEvent
  grind [Listed.congr, Listed.hostEvent, Listed.partEvent, Listed.reportEntries]

theorem stopCoreEngine {w : W} (e : Env) (pcn eng : Nat) (f : CoreSt → CoreSt) (hw : Listed w) :
    Listed (Machine.stopCoreEngine e w pcn eng f) := by
  unfold Machine.stopCoreEngine
  grind [Listed.foldl, Listed.congr, Listed.updCore, Listed.engErr, Listed.loseAll, Listed.withheldEvent]

/-! EvHub. -/

theorem markServed {w : W} (e : Env) (p i : Nat) (hw : Listed w) : Listed (Machine.markServed e w p i) := by
  unfold Machine.markServed
  grind [Listed.congr, Listed.devWrite, Listed.updFq]

theorem serveEntry {w : W} (e : Env) (p i : Nat) (x : Pending) (hw : Listed w) : Listed (Machine.serveEntry e w p i x) := by
  unfold Machine.serveEntry
  grind [Listed.congr, Listed.updFq, Listed.replayEntry, Listed.markServed]

theorem upToDate {w : W} (e : Env) (cid : Nat) (hw : Listed w) : Listed (Machine.upToDate e w cid) := by
  unfold Machine.upToDate
  grind [Listed.congr, Listed.spillLines, Listed.flushNewer]

theorem portLine {w : W} (e : Env) (cid r : Nat) (hw : Listed w) : Listed (Machine.portLine e w cid r) := by
  rw [Machine.portLine]
  split
  · exact hw
  · split
    · split
      · exact hw
      next h => exact updCourse _ _ (fun _ => rfl) (ctxWrite e _ _ _ _ _ _ h hw)
    · exact updCourse _ _ (fun _ => rfl) (spillLines e _ _ hw)

theorem portWrite {w w' : W} (e : Env) (cid off : Nat) (bs : List (Byte × Bool)) (he : Machine.portWrite e w cid off bs = .ok w')
    (hw : Listed w) : Listed w' := by
  rw [Machine.portWrite] at he
  split at he
  · cases he
    exact hw
  · split at he
    · cases he
    · dsimp only at he
      split at he
      · cases he
      next h =>
        cases he
        have lines := flushNewer e cid (foldl (linesOf off bs.length) (fun w r => portLine e cid r) hw)
        have written : ∀ l : List (Nat × Bool), Listed (l.foldl (fun w x => Machine.poisonAt w x.1) _) := fun l =>
          foldl l (fun w x => poisonAt x.1) (ctxWrite e _ _ _ _ _ _ h lines)
        split
        · exact written _
        · exact updCourse _ _ (fun c => rfl) (written _)

theorem portWrites {w : W} (e : Env) (cid off : Nat) (l : List (Nat × List (Byte × Bool))) (n : Nat) (hw : Listed w) :
    Listed (Machine.portWrites e cid off l n w).1 := by
  induction l generalizing w n with
  | nil => exact hw
  | cons x l ih =>
    obtain ⟨d, bs⟩ := x
    rw [Machine.portWrites]
    split
    next h => exact ih _ (portWrite e _ _ _ h hw)
    · exact hw

theorem svcCopy {w : W} (e : Env) (c : Course) (b : List (Byte × Bool)) (dest : Nat) (l : List (Nat × Nat)) (n : Nat)
    (hw : Listed w) : Listed (Machine.svcCopy e c b dest l n w).1 := by
  induction l generalizing w n with
  | nil => exact hw
  | cons x l ih =>
    obtain ⟨va, m⟩ := x
    rw [Machine.svcCopy]
    split
    · exact hw
    · exact ih _ (settlePoison _ _ (wrPlaces e _ _ _ (afterScrub e _ hw)))

theorem svcInto {w : W} (e : Env) (c : Course) (q : SvcReq) (l : List (Nat × Nat)) (n : Nat) (hw : Listed w) :
    Listed (Machine.svcInto e c q l n w).1 := by
  induction l generalizing w n with
  | nil => exact hw
  | cons x l ih =>
    obtain ⟨va, m⟩ := x
    rw [Machine.svcInto]
    split
    · exact hw
    · dsimp only
      split
      · exact hw
      · split
        · exact ih _ (portWrites e _ _ _ _ hw)
        · exact portWrites e _ _ _ _ hw

theorem svcAnswer {w : W} (e : Env) (c : Course) (va status cause n : Nat) (hw : Listed w) :
    Listed (Machine.svcAnswer e w c va status cause n) := by
  unfold Machine.svcAnswer
  grind [Listed.congr, Listed.devWrite]

theorem svcRun {w : W} {p : W × Nat × Nat × Nat} (e : Env) (c : Course) (q : SvcReq) (he : Machine.svcRun e w c q = some p)
    (hw : Listed w) : Listed p.1 := by
  have copied : ∀ b l, Listed (Machine.svcCopy e c b q.dest l 0 w).1 := fun b l => svcCopy e c b _ l 0 hw
  have entered : ∀ l, Listed (Machine.svcInto e c q l 0 w).1 := fun l => svcInto e c q l 0 hw
  rw [Machine.svcRun] at he
  grind

theorem hubService {w : W} (e : Env) (cid : Nat) (kinds : Nat → Bool) (hw : Listed w) :
    Listed (Machine.hubService e w cid kinds) := by
  fun_cases Machine.hubService e w cid kinds
  · exact hw
  · exact hw
  · exact hw
  · exact serveEntry e _ _ _ (partEvent _ _ _ _ _ hw)
  · exact hw
  · exact hw
  next h => exact serveEntry e _ _ _ (svcAnswer e _ _ _ _ _ (svcRun e _ _ h hw))

theorem takeSignal {w : W} (e : Env) (i : Nat) (hw : Listed w) : Listed (Machine.takeSignal e w i) := by
  unfold Machine.takeSignal
  grind [Listed.congr, Listed.bumpDev, Listed.updTlc, Listed.handOver]

/-! EvTile. -/

theorem setTileState {w : W} (t v : Nat) (hw : Listed w) : Listed (Machine.setTileState w t v) := by
  unfold Machine.setTileState
  grind [Listed.congr, Listed.updTile]

theorem setNb {w : W} (t d lo n v : Nat) (hw : Listed w) : Listed (Machine.setNb w t d lo n v) := by
  unfold Machine.setNb
  grind [Listed.congr, Listed.updTile]

theorem later {w : W} (l : List Instr) (hw : Listed w) : Listed (Machine.later w l) :=
  hw.congr rfl

theorem passOn {w : W} (suspect side : Nat) (cw vote : Bool) (f : BitVec 128) (hw : Listed w) :
    Listed (Machine.passOn w suspect side cw vote f) := by
  unfold Machine.passOn
  grind [Listed.congr, Listed.later]

theorem sendRound {w : W} (t d : Nat) (vote : Bool) (hw : Listed w) : Listed (Machine.sendRound w t d vote) := by
  unfold Machine.sendRound
  grind [Listed.congr, Listed.passOn]

theorem muteNeighbour {w : W} (t d n : Nat) (hw : Listed w) : Listed (Machine.muteNeighbour w t d n) := by
  unfold Machine.muteNeighbour
  grind [Listed.setNb, Listed.later]

theorem retuneNeighbour {w : W} (t d n : Nat) (hw : Listed w) : Listed (Machine.retuneNeighbour w t d n) := by
  unfold Machine.retuneNeighbour
  grind [Listed.congr, Listed.updTile, Listed.setNb, Listed.later]

theorem watchPeriod {w : W} (t d n : Nat) (hw : Listed w) : Listed (Machine.watchPeriod w t d n) := by
  unfold Machine.watchPeriod
  grind [Listed.congr, Listed.updTile, Listed.setNb, Listed.sendRound, Listed.retuneNeighbour]

theorem testPeriod {w : W} (t d n : Nat) (hw : Listed w) : Listed (Machine.testPeriod w t d n) := by
  unfold Machine.testPeriod
  grind [Listed.setNb, Listed.sendRound, Listed.muteNeighbour]

theorem recordPeriod {w : W} (t : Nat) (hw : Listed w) : Listed (Machine.recordPeriod w t) := by
  unfold Machine.recordPeriod
  grind [Listed.foldl, Listed.congr, Listed.watchPeriod, Listed.testPeriod]

theorem clearCoreTile {w : W} (p : Nat) (hw : Listed w) : Listed (Machine.clearCoreTile w p) := by
  unfold Machine.clearCoreTile
  grind [Listed.congr, Listed.wrClear, Listed.cleanRange, Listed.updCore]

theorem clearSliceTile {w : W} (s : Nat) (hw : Listed w) : Listed (Machine.clearSliceTile w s) :=
  hw.congr rfl

theorem clearTile {w : W} (t : Nat) (hw : Listed w) : Listed (Machine.clearTile w t) := by
  unfold Machine.clearTile
  grind [Listed.clearCoreTile, Listed.clearSliceTile]

theorem setDroop {w : W} (t n : Nat) (sag : Bool) (hw : Listed w) : Listed (Machine.setDroop w t n sag) := by
  unfold Machine.setDroop
  grind [Listed.congr, Listed.updTile]

/-! EvTime. -/

theorem expire {w : W} (c : Course) (hw : Listed w) : Listed (Machine.expire w c) := by
  unfold Machine.expire
  grind [Listed.congr, Listed.wake]

theorem haltCtx {w : W} (e : Env) (p ctx : Nat) (hw : Listed w) : Listed (Machine.haltCtx e w p ctx) := by
  unfold Machine.haltCtx
  grind [Listed.foldl, Listed.stopOps, Listed.haltNow]

theorem readyBehind {w : W} (p : Nat) (n : Nat) (hw : Listed w) : Listed (Machine.readyBehind w p n) := by
  unfold Machine.readyBehind
  grind [Listed.congr, Listed.tMap]

theorem reenter {w : W} (c : Course) (o : Nat) (hw : Listed w) : Listed (Machine.reenter w c o) := by
  unfold Machine.reenter
  grind [Listed.congr, Listed.updCourse, Listed.enterReady]

theorem startCtx {w : W} (p : Nat) (hw : Listed w) : Listed (Machine.startCtx w p) := by
  unfold Machine.startCtx
  grind [Listed.foldl, Listed.resumeOps, Listed.readyBehind, Listed.reenter]

/-! EvMailbox. -/

theorem finishReq {w : W} (n status result : Nat) (hw : Listed w) : Listed (Machine.finishReq w n status result) := by
  unfold Machine.finishReq
  grind [Listed.congr, Listed.updFn]

theorem mailbox {w : W} (e : Env) (n code : Nat) (from_ : W → Bool) {r : Request}
    (hr : ∀ w' x, r e w = some (w', x) → Listed w') (hw : Listed w) : Listed (Machine.mailbox n code from_ r e w) := by
  rw [Machine.mailbox]
  grind [Listed.finishReq]

theorem loseLaunch {w : W} (e : Env) (lid status : Nat) (hw : Listed w) : Listed (Machine.loseLaunch e w lid status) := by
  unfold Machine.loseLaunch
  grind [Listed.congr, Listed.tDel, Listed.updLaunch, Listed.completeLaunch, Listed.loseConsorts]

theorem loseLaunches {w : W} (e : Env) (ls : List Nat) (status : Nat) (hw : Listed w) : Listed (Machine.loseLaunches e w ls status) := by
  unfold Machine.loseLaunches
  grind [Listed.foldl, Listed.loseLaunch]

theorem clearCore {w : W} (pcn : Nat) (hw : Listed w) : Listed (Machine.clearCore w pcn) := by
  unfold Machine.clearCore
  grind [Listed.foldl, Listed.congr, Listed.updCore, Listed.updQuad, Listed.clearTile]

theorem facing {w : W} (t : Nat) (f : Nat → Tile → Tile) (hw : Listed w) : Listed (Machine.facing w t f) := by
  unfold Machine.facing
  grind [Listed.foldl, Listed.congr, Listed.updTile]

theorem openGates {w : W} (t : Nat) (hw : Listed w) : Listed (Machine.openGates w t) := by
  unfold Machine.openGates
  grind [Listed.congr, Listed.tMap, Listed.facing]

theorem closeGates {w : W} (t : Nat) (hw : Listed w) : Listed (Machine.closeGates w t) := by
  unfold Machine.closeGates
  grind [Listed.foldl, Listed.congr, Listed.updTile, Listed.facing]

theorem readmit {w : W} (e : Env) (t last : Nat) (hw : Listed w) : Listed (Machine.readmit e w t last) := by
  unfold Machine.readmit
  grind [Listed.congr, Listed.setLpt, Listed.reportTile, Listed.openGates]

theorem retestTile {w : W} (e : Env) (t : Nat) (fails : Bool) (hw : Listed w) : Listed (Machine.retestTile e w t fails) := by
  unfold Machine.retestTile
  grind [Listed.congr, Listed.updTile, Listed.hubMute, Listed.closeGates, Listed.readmit]

theorem resetPart {w : W} (e : Env) (p : Nat) (failed : List Nat) (hw : Listed w) : Listed (Machine.resetPart e w p failed) := by
  unfold Machine.resetPart
  grind [Listed.foldl, Listed.congr, Listed.updPart, Listed.reportAction, Listed.clearSliceTile, Listed.loseLaunches, Listed.clearCore,
    Listed.retestTile]

theorem giveWorld {w : W} (pcn : Nat) (quads : BitVec 4) (wd : Nat) (hw : Listed w) : Listed (Machine.giveWorld w pcn quads wd) := by
  unfold Machine.giveWorld
  grind [Listed.foldl, Listed.congr, Listed.wrClear, Listed.wrZeros, Listed.cleanRange, Listed.updQuad]

theorem offerSlots {w : W} (hw : Listed w) : Listed (Machine.offerSlots w) := by
  unfold Machine.offerSlots
  grind [Listed.foldl, Listed.giveSlots]

/-! EvHost. -/

theorem firstReports {w : W} (n : Nat) (hw : Listed w) : Listed (Machine.firstReports w n) := by
  unfold Machine.firstReports
  grind [Listed.foldl, Listed.congr, Listed.hostEvent]

theorem sampleCounter {w : W} (id : Nat) (hw : Listed w) : Listed (Machine.sampleCounter w id).2 := by
  unfold Machine.sampleCounter
  grind [Listed.congr]

theorem doorbell {w : W} (n : Nat) (v : BitVec 64) (hw : Listed w) : Listed (Machine.doorbell w n v) := by
  unfold Machine.doorbell
  grind [Listed.congr, Listed.updFn, Listed.finishReq]

theorem postUnmasked {w : W} (n vec : Nat) (hw : Listed w) : Listed (Machine.postUnmasked w n vec) := by
  unfold Machine.postUnmasked
  grind [Listed.msixSend]

theorem msixWrite {w : W} (n vec : Nat) (hi : Bool) (v : BitVec 64) (hw : Listed w) : Listed (Machine.msixWrite w n vec hi v) := by
  unfold Machine.msixWrite
  grind [Listed.congr, Listed.updFn, Listed.postUnmasked]

theorem muteAtStart {w : W} (t : Nat) (hw : Listed w) : Listed (Machine.muteAtStart w t) := by
  unfold Machine.muteAtStart
  grind [Listed.foldl, Listed.congr, Listed.updTile]

theorem startPort {w : W} (l : List (Nat × Nat)) (n : Nat) (hw : Listed w) : Listed (Machine.startPort l w n) := by
  unfold Machine.startPort
  grind [Listed.congr, Listed.updPort]

theorem failBoot {w : W} (step reason : Nat) (hw : Listed w) : Listed (Machine.failBoot w step reason) :=
  hw.congr rfl

theorem bootAct {w : W} (e : Env) (b : BringUp) (step : Nat) (hw : Listed w) : Listed (Machine.bootAct e w b step) := by
  unfold Machine.bootAct
  grind [Listed.foldl, Listed.congr, Listed.updTile, Listed.setLpt, Listed.muteAtStart, Listed.startPort, Listed.failBoot]

theorem bootStep {w : W} (e : Env) (b : BringUp) (hw : Listed w) : Listed (Machine.bootStep e w b) := by
  unfold Machine.bootStep
  grind [Listed.congr, Listed.bootAct]

theorem spdmAnswer {w : W} (l : List Nat) (hw : Listed w) : Listed (Machine.spdmAnswer w l) :=
  hw.congr rfl

/-! LaneCtl. -/

theorem laneJump (h : Hd) (off : Word) : Lists (Machine.laneJump h off) := by
  intro e w x hw
  unfold Machine.laneJump
  grind [Listed.done, Listed.guarded]

theorem laneJumpReg (h : Hd) (a : R64) : Lists (Machine.laneJumpReg h a) := by
  intro e w x hw
  unfold Machine.laneJumpReg
  grind [Listed.congr, Listed.faultFree, Listed.done, Listed.faulted, Listed.staged, Listed.sourced]

theorem trapWith (h : Hd) (cause code : Nat) : Lists (Machine.trapWith h cause code) := by
  intro e w x hw
  unfold Machine.trapWith
  grind [Listed.takeFaults, Listed.settle, Listed.done, Listed.guarded]

/-! LaneFloat. -/

theorem laneFF (h : Hd) (d a b : R64) (f : Nat → Nat → Nat × Nat) : Lists (Machine.laneFF h d a b f) := by
  intro e w x hw
  unfold Machine.laneFF
  grind [Listed.foldl, Listed.congr, Listed.laneF, Lists, PerformLists, ScrLists]

theorem laneFR (h : Hd) (d a : R64) (f : Nat → Nat × Nat) : Lists (Machine.laneFR h d a f) := by
  intro e w x hw
  unfold Machine.laneFR
  grind [Listed.foldl, Listed.congr, Listed.laneF, Lists, PerformLists, ScrLists]

theorem laneDR (h : Hd) (d a : R64) (f : Nat → Nat × Nat) : Lists (Machine.laneDR h d a f) := by
  intro e w x hw
  unfold Machine.laneDR
  grind [Listed.laneDef, Lists]

/-! UniScalar. -/

theorem uniRR (h : Hd) (d a b : R64) (f : Word → Word → Word) : Lists (Machine.uniRR h d a b f) := by
  intro e w x hw
  unfold Machine.uniRR
  grind [Listed.foldl, Listed.congr, Listed.uniS, Lists, PerformLists, ScrLists]

end Listed
/-- A meaning of a step after which the courses stand in order where they did before. -/
def KeepsKeyed (f : State → Host.Outcome State Fault Refusal) : Prop := ∀ s t, Keyed s → f s = .next t → Keyed t

namespace KeepsKeyed

theorem event {F : Env → W → W} (hF : ∀ e w, Listed w → Listed (F e w)) : KeepsKeyed (event F) := by
  rintro s t hs h
  cases h
  exact hF _ _ hs

theorem issue {M : Meaning} (hM : Lists M) : KeepsKeyed (runIssue M) := by
  intro s t hs h
  unfold runIssue at h
  split at h
  · refine event (F := _) (fun e w hw => ?_) s t hs h
    split
    · exact Listed.closeFirst e _ hw
    · exact hM e w _ hw
  · cases h

/-! The instructions and events whose meaning is not one of the shared forms. -/

theorem movl (h : Hd) (d : R64) (lit : Word) : KeepsKeyed (execMovl h d lit) := .issue fun e w s hw => by
  grind [Listed.congr, Listed.done, Listed.guarded, Lists]

theorem ld (h : Hd) (d a : R64) (z : Sz) (o : R64) : KeepsKeyed (execLd h d a z o) := .issue fun e w s hw => by
  grind [Listed.congr, Listed.globalLanes, Listed.doLoad, Lists]

theorem st (h : Hd) (d a : R64) (z : Sz) (o : R64) : KeepsKeyed (execSt h d a z o) := .issue fun e w s hw => by
  grind [Listed.congr, Listed.globalLanes, Listed.doStore, Lists]

theorem ldacq (h : Hd) (d a : R64) (z : Sz) (_sc : Scope) : KeepsKeyed (execLdacq h d a z _sc) := .issue fun e w s hw => by
  grind [Listed.congr, Listed.globalLanes, Listed.doLoad, Lists]

theorem strel (h : Hd) (d a : R64) (z : Sz) (_sc : Scope) : KeepsKeyed (execStrel h d a z _sc) := .issue fun e w s hw => by
  grind [Listed.congr, Listed.globalLanes, Listed.doStore, Lists]

theorem ldl (h : Hd) (d a : R64) (z : Sz) (o : R64) : KeepsKeyed (execLdl h d a z o) := .issue fun e w s hw => by
  grind [Listed.congr, Listed.globalLanes, Listed.doLoad, Lists]

theorem stl (h : Hd) (d a : R64) (z : Sz) (o : R64) : KeepsKeyed (execStl h d a z o) := .issue fun e w s hw => by
  grind [Listed.congr, Listed.globalLanes, Listed.doStore, Lists]

theorem pref (h : Hd) (a : R64) (_z : Sz) (_o : R64) : KeepsKeyed (execPref h a _z _o) := .issue fun e w s hw => by
  grind [Listed.congr, Listed.done, Listed.staged, Lists]

theorem lds (h : Hd) (d a : R64) (z : Sz) (o : R64) : KeepsKeyed (execLds h d a z o) := .issue fun e w s hw => by
  grind [Listed.foldl, Listed.congr, Listed.scrLanes, Lists, PerformLists, ScrLists]

theorem sts (h : Hd) (d a : R64) (z : Sz) (o : R64) : KeepsKeyed (execSts h d a z o) := .issue fun e w s hw => by
  grind [Listed.foldl, Listed.congr, Listed.wrN, Listed.scrLanes, Lists, PerformLists, ScrLists]

theorem sld (h : Hd) (d a : R64) (z : Sz) (o : R64) : KeepsKeyed (execSld h d a z o) := by
  refine .issue (.uniformL h _ 4 _ _ fun e w s hw => ?_)
  refine Listed.uniAccess e s _ _ _ _ _ (fun w _ hw => hw) (fun w ls hw => ?_) hw
  exact Listed.done e _ s _ _ (Listed.launchS _ _ hw)

theorem sst (h : Hd) (d a : R64) (z : Sz) (o : R64) : KeepsKeyed (execSst h d a z o) := .issue fun e w s hw => by
  grind [Listed.congr, Listed.wrPlaces, Listed.done, Listed.uniformL, Listed.uniAccess, Lists]

theorem argld (h : Hd) (d : R64) (slot : R8) (i : Fin 256) : KeepsKeyed (execArgld h d slot i) := by
  refine .issue (.uniformL h _ 4 _ _ fun e w s hw => ?_)
  extract_lets o c
  split
  · exact Listed.faulted e _ s _ (fun w c hw => Listed.faultLanes e c _ _ _ _ _ hw) hw
  · split
    · exact Listed.sourced e s _ _ _ (fun w hw => Listed.done e _ s _ _ (Listed.launchS _ _ hw)) hw
    · refine Listed.uniAccess e s _ _ _ _ _ (fun w _ hw => hw) (fun w ls hw => ?_) hw
      exact Listed.done e _ s _ _ (Listed.launchS _ _ hw)

theorem vtos (h : Hd) (d a : R64) (lane : Fin 32) : KeepsKeyed (execVtos h d a lane) := .issue fun e w s hw => by
  grind [Listed.congr, Listed.done, Listed.uniformC, Listed.launchS, Lists]

theorem ubra (h : Hd) (o : Fin 1048576) : KeepsKeyed (execUbra h o) := .issue fun e w s hw => by
  grind [Listed.done, Listed.uniform, Lists]

theorem ucall (h : Hd) (d : R64) (i : Fin 16384) : KeepsKeyed (execUcall h d i) := .issue fun e w s hw => by
  grind [Listed.done, Listed.uniform, Lists]

theorem ujmpx (h : Hd) (a : R64) : KeepsKeyed (execUjmpx h a) := .issue fun e w s hw => by
  grind [Listed.uniJumpReg, Lists]

theorem exit (h : Hd) : KeepsKeyed (execExit h) := .issue fun e w s hw => by
  grind [Listed.uniform, Listed.exitCourse, Lists]

theorem exitSucc (h : Hd) (a : R64) : KeepsKeyed (execExitSucc h a) := by
  refine .issue (.uniformL h _ 4 _ _ fun e w s hw => ?_)
  refine Listed.uniAccess e s _ _ _ _ _ (fun w _ hw => hw) (fun w ls hw => ?_) hw
  exact Listed.exitCourse h e _ s (Listed.updConsort _ _ hw)

theorem yield (h : Hd) : KeepsKeyed (execYield h) := .issue fun e w s hw => by
  grind [Listed.congr, Listed.uniform, Listed.parkMark, Lists]

theorem sleep (h : Hd) (a : R64) : KeepsKeyed (execSleep h a) := .issue fun e w s hw => by
  grind [Listed.congr, Listed.uniform, Listed.parkMark, Lists]

theorem mma (h : Hd) (d : Fin 32) (ns : Bool) (ah da db : Fin 16) (t : Fin 4) : KeepsKeyed (execMma h d ns ah da db t) :=
    .issue fun e w s hw => by
  grind [Listed.engIssue, Lists]

theorem tlread (h : Hd) (d : R64) (t : Fin 4) : KeepsKeyed (execTlread h d t) := .issue fun e w s hw => by
  grind [Listed.congr, Listed.done, Listed.uniformC, Listed.launchS, Listed.unlessAway, Lists]

theorem engst (h : Hd) (d a : R64) (t : Fin 4) : KeepsKeyed (execEngst h d a t) := .issue fun e w s hw => by
  grind [Listed.congr, Listed.done, Listed.uniformC, Listed.launchS, Listed.unlessAway, Lists]

theorem bar (h : Hd) (n : Fin 16) (c : Fin 128) : KeepsKeyed (execBar h n c) := .issue fun e w s hw => by
  grind [Listed.done, Listed.parkMark, Listed.barWith, Lists]

theorem bara (h : Hd) (n : Fin 16) (c : Fin 128) : KeepsKeyed (execBara h n c) := .issue fun e w s hw => by
  grind [Listed.done, Listed.barWith, Lists]

theorem bardl (h : Hd) (d : R64) (n : Fin 16) (q : R8) (c : Fin 128) : KeepsKeyed (execBardl h d n q c) := .issue fun e w s hw => by
  grind [Listed.done, Listed.parkMark, Listed.barWith, Lists]

theorem tktake (h : Hd) (d a : R64) : KeepsKeyed (execTktake h d a) := .issue fun e w s hw => by
  grind [Listed.done, Listed.launchS, Listed.withDisp, Listed.takeTicket, Lists]

theorem tkserve (h : Hd) (a : R64) : KeepsKeyed (execTkserve h a) := .issue fun e w s hw => by
  grind [Listed.serveDisp, Listed.done, Listed.withDisp, Lists]

theorem tkwait (h : Hd) (a b : R64) : KeepsKeyed (execTkwait h a b) := by
  refine .issue (.withDisp _ _ 0 a _ _ (fun w d hw => hw) fun n e w s hw => ?_)
  extract_lets t c
  split
  · exact Listed.done e c s _ _ hw
  · exact Listed.updDisp _ _ (Listed.parkMark e c s _ _ _ _ hw)

theorem fence (h : Hd) (_sc : Scope) : KeepsKeyed (execFence h _sc) := .issue fun e w s hw => by
  grind [Listed.done, Listed.uniform, Lists]

theorem launchq (h : Hd) (d a : R64) : KeepsKeyed (execLaunchq h d a) := by
  refine .issue (.uniformL h _ 4 _ _ fun e w s hw => ?_)
  extract_lets va slot
  split
  · exact Listed.faulted e _ s _ (fun w c hw => Listed.faultLanes e c _ _ _ _ _ hw) hw
  · refine Listed.uniAccess e s _ _ _ _ _ (fun w _ hw => hw) (fun w ls hw => ?_) hw
    extract_lets hd
    split
    · exact Listed.faulted e _ s _ (fun w c hw => Listed.parkCourse e c _ _ _ _ hw) hw
    · split
      · exact Listed.faulted e _ s _ (fun w c hw => Listed.faultCtx e c _ _ _ _ hw) hw
      next h => exact Listed.done e _ s _ _ (Listed.launchS _ _ (Listed.enqueue e _ _ h hw))

theorem mfsr (h : Hd) (hi : Bool) (d : Fin 32) (i : Fin 16384) : KeepsKeyed (execMfsr h hi d i) := .issue fun e w s hw => by
  grind [Listed.congr, Listed.done, Listed.uniformC, Listed.launchS, Listed.illopAt, Lists]

theorem mtsr (h : Hd) (hi : Bool) (a : Fin 32) (i : Fin 16384) : KeepsKeyed (execMtsr h hi a i) := .issue fun e w s hw => by
  grind [Listed.congr, Listed.done, Listed.uniformC, Listed.illopAt, Listed.partWrite, Lists]

theorem tlbinvPage (h : Hd) (a b : R64) : KeepsKeyed (execTlbinvPage h a b) := .issue fun e w s hw => by
  grind [Listed.congr, Listed.privOp, Listed.dropTlb, Listed.dropHost, Lists]

theorem tlbinvAsid (h : Hd) (b : R64) : KeepsKeyed (execTlbinvAsid h b) := .issue fun e w s hw => by
  grind [Listed.congr, Listed.privOp, Listed.dropTlb, Listed.dropHost, Lists]

theorem tlbinvCtx (h : Hd) (a : R64) : KeepsKeyed (execTlbinvCtx h a) := .issue fun e w s hw => by
  grind [Listed.congr, Listed.privOp, Listed.dropTlb, Listed.dropHost, Lists]

theorem ctxfl (h : Hd) (d a : R64) : KeepsKeyed (execCtxfl h d a) := .issue fun e w s hw => by
  grind [Listed.congr, Listed.privOp, Listed.ctxfl, Lists]

theorem haltbHalt (h : Hd) (d a : R64) (launch : Bool) : KeepsKeyed (execHaltbHalt h d a launch) := .issue fun e w s hw => by
  grind [Listed.congr, Listed.privWith, Listed.haltb, Lists]

theorem haltbRelease (h : Hd) (d a : R64) (launch : Bool) : KeepsKeyed (execHaltbRelease h d a launch) := .issue fun e w s hw => by
  grind [Listed.congr, Listed.privOp, Listed.relb, Lists]

theorem engrst (h : Hd) (d a : R64) (x : Fin 7) : KeepsKeyed (execEngrst h d a x) := .issue fun e w s hw => by
  grind [Listed.congr, Listed.reportAction, Listed.resetEngine, Listed.privOp, Lists]

/-- SVCALL's message taken for a slot's owner, and its status (R296). -/
def svcallTaken (a : R64) (slot : R8) (e : Env) (w : W) (c : Course) (_ : Sel) : W × Nat :=
  let i := slot.val
  if !slotValid c i then (w, 2)
  else
    let m := getS2 c a.val + getS2 c (a.val + 2) * 2 ^ 64
    let (w, ok) := Machine.takeMessage e w c.id.part ⟨slotAsid c i, slotWorld c i, slotPrio c i, none, none⟩ m
    (w, if ok then 0 else 1)

theorem svcallTaken_listed (a : R64) (slot : R8) (e : Env) {w : W} (c : Course) (x : Sel) (hw : Listed w) : Listed (svcallTaken a slot e w c x).1 := by
  fun_cases svcallTaken a slot e w c x
  · exact hw
  · grind [Listed.takeMessage]

theorem svcall (h : Hd) (d a : R64) (slot : R8) : KeepsKeyed (execSvcall h d a slot) :=
  issue (M := Machine.privOp h _ _ (svcallTaken a slot)) (.privOp h _ _ _ fun e _ c x hw => svcallTaken_listed a slot e c x hw)

theorem activation (part_ lcore : Nat) : KeepsKeyed (execActivation part_ lcore) := .event fun e w hw => by
  grind [Listed.congr, Listed.activate]

theorem registerFillComplete (cid : Nat) (v : R64) : KeepsKeyed (execRegisterFillComplete cid v) := .event fun e w hw => by
  grind [Listed.congr, Listed.makeRoom, Listed.landLine, Listed.allocLine, Listed.failFill]

theorem remoteLineRead (cid : Nat) (v : R64) : KeepsKeyed (execRemoteLineRead cid v) := .event fun e w hw => by
  grind [Listed.congr, Listed.makeRoom, Listed.landLine]

theorem lineSpillComplete (cid : Nat) (v : R64) : KeepsKeyed (execLineSpillComplete cid v) := .event fun e w hw => by
  grind [Listed.congr, Listed.spillLines]

theorem lazyClaim (consort : Nat) (u : Unit70) : KeepsKeyed (execLazyClaim consort u) := .event fun e w hw => by
  grind [Listed.congr, Listed.tMap, Listed.bumpCore, Listed.claimUnit, Listed.claimFault]

theorem deferredResultReturn (n : Nat) : KeepsKeyed (execDeferredResultReturn n) := .event fun e w hw => by
  grind [Listed.congr, Listed.setCourse]

theorem chiselStep (pcn q : Nat) : KeepsKeyed (execChiselStep pcn q) := .event fun e w hw => by
  grind [Listed.congr, Listed.bumpCore, Listed.updOp, Listed.updHandle, Listed.completeOp, Listed.runStep]

theorem copyLine (n l : Nat) : KeepsKeyed (execCopyLine n l) := .event fun e w hw => by
  grind [Listed.congr, Listed.opFault, Listed.waitOn, Listed.lineDone, Listed.writeLines, Listed.lineIn, Listed.lineOut]

theorem collChunk (n chunk : Nat) (peers : List PeerPart) : KeepsKeyed (execCollChunk n chunk peers) := .event fun e w hw => by
  grind [Listed.congr, Listed.updOp, Listed.endColl, Listed.collMove, Listed.collRead]

theorem sliceRequest (r : SliceReq) : KeepsKeyed (execSliceRequest r) := .event fun e w hw => by
  grind [Listed.congr, Listed.partEvent, Listed.reply, Listed.sliceServe]

theorem pageWalkComplete (part_ asid va : Nat) (priv : Bool) : KeepsKeyed (execPageWalkComplete part_ asid va priv) :=
    .event fun e w hw => by
  grind [Listed.congr]

theorem stage2Invalidation (part_ ipa entryAddr : Nat) (entry : BitVec 64) : KeepsKeyed (execStage2Invalidation part_ ipa entryAddr entry) :=
    .event fun e w hw => by
  split
  · exact hw
  · split
    · exact hw
    next h => exact (Listed.tableWrite e _ _ _ h hw).congr rfl

theorem tlbInvalidationComplete (n : Nat) : KeepsKeyed (execTlbInvalidationComplete n) := .event fun e w hw => by
  grind [Listed.congr]

theorem atsTranslationCompletion (n : FnNo) (asid pasid iova : Nat) (g : Grant) :
    KeepsKeyed (execAtsTranslationCompletion n asid pasid iova g) := .event fun e w hw => by
  grind [Listed.congr, Listed.tMap]

theorem atsInvalidationRequest (n : FnNo) (pasid iova : Nat) : KeepsKeyed (execAtsInvalidationRequest n pasid iova) :=
    .event fun e w hw => by
  grind [Listed.congr, Listed.reply]

theorem keyLoadComplete (key : Nat) : KeepsKeyed (execKeyLoadComplete key) := .event fun e w hw => by
  grind [Listed.bumpDev, Listed.loadKey]

theorem scrubOnBind (part_ : Nat) (frames : List Nat) : KeepsKeyed (execScrubOnBind part_ frames) := .event fun e w hw => by
  grind [Listed.setScrub]

theorem scrubFrameComplete (part_ frame : Nat) : KeepsKeyed (execScrubFrameComplete part_ frame) := .event fun e w hw => by
  grind [Listed.scrubFrame]

theorem fqheadWrite (part_ : Nat) (v : BitVec 64) : KeepsKeyed (execFqheadWrite part_ v) := .event fun e w hw => by
  grind [Listed.moveHead]

theorem fqConfigWrite (part_ : Nat) (size : Bool) (v : BitVec 64) : KeepsKeyed (execFqConfigWrite part_ size v) := .event fun e w hw => by
  grind [Listed.rebuildFq]

theorem convergenceIllop (cid : Nat) : KeepsKeyed (execConvergenceIllop cid) := .event fun e w hw => by
  grind [Listed.congr, Listed.convergeIllop]

theorem reservedWordIssue (x : Word) : KeepsKeyed (execReservedWordIssue x) := .event fun e w hw => by
  grind [Listed.congr, Listed.illopAt]

theorem tagportWrite (n : FnNo) (port_ : Fin 64) (whole : Bool) (data : BitVec 128) : KeepsKeyed (execTagportWrite n port_ whole data) :=
    .event fun e w hw => by
  grind [Listed.rejectMessage, Listed.takeMessage]

theorem poolTimerExpiry (part_ tag : Nat) : KeepsKeyed (execPoolTimerExpiry part_ tag) := .event fun e w hw => by
  grind [Listed.congr, Listed.firePool, Listed.reachTime]

theorem celileMessage (from_ : FabDev) (part_ spart : Nat) (data : BitVec 128) : KeepsKeyed (execCelileMessage from_ part_ spart data) :=
    .event fun e w hw => by
  grind [Listed.congr, Listed.flitIn, Listed.rejectMessage, Listed.takeMessage]

theorem launchQueueDepart (part_ : Nat) : KeepsKeyed (execLaunchQueueDepart part_) := .event fun e w hw => by
  grind [Listed.departQueue]

theorem launchQueueCeilingChange (part_ : Nat) (prio : Fin 8) : KeepsKeyed (execLaunchQueueCeilingChange part_ prio) :=
    .event fun e w hw => by
  grind [Listed.congr, Listed.updPart]

theorem consortPlacement (consort : Nat) : KeepsKeyed (execConsortPlacement consort) := .event fun e w hw => by
  grind [Listed.placeConsort]

theorem consortEnd (consort : Nat) : KeepsKeyed (execConsortEnd consort) := .event fun e w hw => by
  grind [Listed.congr, Listed.finishConsort]

theorem resumableConsortReplace (consort : Nat) (slot : List Nat) (keep : Bool) :
    KeepsKeyed (execResumableConsortReplace consort slot keep) := .event fun e w hw => by
  grind [Listed.congr, Listed.loseConsort, Listed.replaceConsort]

theorem coalesceIntervalEnd (n : FnNo) (vec : Fin 2) : KeepsKeyed (execCoalesceIntervalEnd n vec) := .event fun e w hw => by
  grind [Listed.congr, Listed.tDel, Listed.updFn, Listed.msixSend, Listed.reachTime]

theorem fabricAccessIn (from_ : FabDev) (part_ spart addr : Nat) (acc : Acc) (op : AtOp) (size : Nat) (data data2 : List Byte) :
    KeepsKeyed (execFabricAccessIn from_ part_ spart addr acc op size data data2) := .event fun e w hw => by
  grind [Listed.flitIn, Listed.fabricServe, Listed.answerOut]

theorem celileFlitCrcError (x : FlitError) : KeepsKeyed (execCelileFlitCrcError x) := .event fun e w hw => by
  grind [Listed.congr, Listed.updPort, Listed.reply]

theorem celileLinkReset (x : LinkReset) : KeepsKeyed (execCelileLinkReset x) := .event fun e w hw => by
  grind [Listed.congr, Listed.updPort, Listed.reportAction, Listed.linkWake, Listed.portDown, Listed.linkBack]

theorem celileRetrainTimeout (port_ : Fin 12) : KeepsKeyed (execCelileRetrainTimeout port_) := .event fun e w hw => by
  grind [Listed.congr, Listed.updPort, Listed.reachTime]

theorem celileLinkDown (port_ : Fin 12) (reason : Fin 5) : KeepsKeyed (execCelileLinkDown port_ reason) := .event fun e w hw => by
  grind [Listed.portDown]

theorem celileXonXoff (port_ : Fin 12) (cls : Fin 4) (on : Bool) : KeepsKeyed (execCelileXonXoff port_ cls on) := .event fun e w hw => by
  grind [Listed.congr, Listed.updPort, Listed.xonAt]

theorem uncorrectableError (u : ErrUnit) : KeepsKeyed (execUncorrectableError u) := .event fun e w hw => by
  grind [Listed.congr, Listed.updCourse, Listed.poisonAt, Listed.bumpSlice, Listed.reply, Listed.markSlotUnit, Listed.noteCorrected]

theorem controlStateError (u : CtlUnit) : KeepsKeyed (execControlStateError u) := .event fun e w hw => by
  grind [Listed.foldl, Listed.congr, Listed.updCourse, Listed.updQuad, Listed.updConsort, Listed.engErr, Listed.loseAll,
    Listed.withheldEvent, Listed.stopCoreEngine]

theorem handlerEntryService (part_ idx : Nat) : KeepsKeyed (execHandlerEntryService part_ idx) := .event fun e w hw => by
  grind [Listed.congr, Listed.serveEntry]

theorem contextPortRead (from_ : Option Nat) (cid off len : Nat) : KeepsKeyed (execContextPortRead from_ cid off len) :=
    .event fun e w hw => by
  grind [Listed.congr, Listed.reply, Listed.upToDate]

theorem contextPortWrite (from_ : Option Nat) (cid off : Nat) (bytes : List Byte) : KeepsKeyed (execContextPortWrite from_ cid off bytes)
    := .event fun e w hw => by
  grind [Listed.congr, Listed.reply, Listed.portWrites]

theorem hubServiceFrame (cid : Nat) : KeepsKeyed (execHubServiceFrame cid) := .event fun e w hw => by
  grind [Listed.hubService]

theorem hubServiceScratch (cid : Nat) : KeepsKeyed (execHubServiceScratch cid) := .event fun e w hw => by
  grind [Listed.hubService]

theorem hubServiceSaveArea (cid : Nat) : KeepsKeyed (execHubServiceSaveArea cid) := .event fun e w hw => by
  grind [Listed.hubService]

theorem hubServiceDrain (cid : Nat) : KeepsKeyed (execHubServiceDrain cid) := .event fun e w hw => by
  grind [Listed.hubService]

theorem hubServiceFrameWrite (cid : Nat) : KeepsKeyed (execHubServiceFrameWrite cid) := .event fun e w hw => by
  grind [Listed.hubService]

theorem hsigSignal (hc : HubAgent) (v : BitVec 64) : KeepsKeyed (execHsigSignal hc v) := .event fun e w hw => by
  grind [Listed.congr, Listed.takeSignal]

theorem dispenserReset (part_ d : Nat) : KeepsKeyed (execDispenserReset part_ d) := .event fun e w hw => by
  grind [Listed.updDisp, Listed.reply]

theorem heartbeatSend (tile_ : Fin 96) : KeepsKeyed (execHeartbeatSend tile_) := .event fun e w hw => by
  grind [Listed.foldl, Listed.congr, Listed.updTile, Listed.later]

theorem heartbeatReceive (tile_ : Fin 96) (dir : Fin 4) (flit : BitVec 128) : KeepsKeyed (execHeartbeatReceive tile_ dir flit) :=
    .event fun e w hw => by
  grind [Listed.congr, Listed.updTile, Listed.setNb]

theorem periodBoundary (tile_ : Fin 96) : KeepsKeyed (execPeriodBoundary tile_) := .event fun e w hw => by
  grind [Listed.congr, Listed.updTile, Listed.later, Listed.recordPeriod]

theorem accusationReceive (tile_ : Fin 96) (cw : Bool) (flit : BitVec 128) : KeepsKeyed (execAccusationReceive tile_ cw flit) :=
    .event fun e w hw => by
  grind [Listed.congr, Listed.setNb, Listed.passOn]

theorem retuneVoteReceive (tile_ : Fin 96) (cw : Bool) (flit : BitVec 128) : KeepsKeyed (execRetuneVoteReceive tile_ cw flit) :=
    .event fun e w hw => by
  grind [Listed.congr, Listed.updTile, Listed.passOn]

theorem muteNoticeReceive (tile_ : Fin 96) : KeepsKeyed (execMuteNoticeReceive tile_) := .event fun e w hw => by
  grind [Listed.congr, Listed.updTile, Listed.setTileState]

theorem muteMapUpdate (router suspect : Fin 96) : KeepsKeyed (execMuteMapUpdate router suspect) := .event fun e w hw => by
  grind [Listed.congr, Listed.updTile]

theorem muteReport (suspect : Fin 96) (lastSeq : BitVec 16) : KeepsKeyed (execMuteReport suspect lastSeq) := .event fun e w hw => by
  grind [Listed.hubMute]

theorem selfTestComplete (tile_ : Fin 96) (pass : Bool) : KeepsKeyed (execSelfTestComplete tile_ pass) := .event fun e w hw => by
  grind [Listed.updTile, Listed.setTileState, Listed.later, Listed.clearTile]

theorem appealSend (tile_ : Fin 96) : KeepsKeyed (execAppealSend tile_) := .event fun e w hw => by
  grind [Listed.congr, Listed.updTile, Listed.setLpt, Listed.later]

theorem appealReceive (tile_ : Fin 96) (dir : Fin 4) : KeepsKeyed (execAppealReceive tile_ dir) := .event fun e w hw => by
  grind [Listed.congr, Listed.updTile, Listed.setNb]

theorem retuneNoticeReceive (tile_ suspect : Fin 96) : KeepsKeyed (execRetuneNoticeReceive tile_ suspect) := .event fun e w hw => by
  grind [Listed.congr, Listed.updTile, Listed.setTileState]

theorem retuneReport (suspect : Fin 96) (lastSeq : BitVec 16) : KeepsKeyed (execRetuneReport suspect lastSeq) := .event fun e w hw => by
  grind [Listed.hubRetune]

theorem supplyDroop (tile_ : Fin 96) : KeepsKeyed (execSupplyDroop tile_) := .event fun e w hw => by
  grind [Listed.bumpDev, Listed.setDroop]

theorem droopStep (tile_ : Fin 96) : KeepsKeyed (execDroopStep tile_) := .event fun e w hw => by
  grind [Listed.setDroop]

theorem droopRecovery (tile_ : Fin 96) : KeepsKeyed (execDroopRecovery tile_) := .event fun e w hw => by
  grind [Listed.setDroop]

theorem powerCheckTick (mW : Nat) : KeepsKeyed (execPowerCheckTick mW) := .event fun e w hw => by
  grind [Listed.congr, Listed.setDev]

theorem thermalTrip (die : Fin 2) (t16 : Nat) : KeepsKeyed (execThermalTrip die t16) := .event fun e w hw => by
  grind [Listed.congr, Listed.setDev]

theorem thermalCeilingRelease (t0 t1 : Nat) : KeepsKeyed (execThermalCeilingRelease t0 t1) := .event fun e w hw => by
  grind [Listed.congr, Listed.setDev]

theorem deadlineExpiry (cid : Nat) : KeepsKeyed (execDeadlineExpiry cid) := .event fun e w hw => by
  grind [Listed.congr, Listed.reachTime, Listed.expire]

theorem schedulingSliceEnd (part_ : Nat) : KeepsKeyed (execSchedulingSliceEnd part_) := .event fun e w hw => by
  grind [Listed.congr, Listed.updPart, Listed.reachTime, Listed.haltCtx, Listed.startCtx]

theorem requestTimeout (who : Requester) (id : Nat) (lanes : Mask) (performed : Bool) :
    KeepsKeyed (execRequestTimeout who id lanes performed) := .event fun e w hw => by
  grind [Listed.congr, Listed.updCourse, Listed.updOp]

theorem createPartition (n : FnNo) (part_ : Nat) (cores : BitVec 72) (slices : BitVec 24) (ports : BitVec 12) (asidT armT acctT : Nat) :
    KeepsKeyed (execCreatePartition n part_ cores slices ports asidT armT acctT) := by
  refine .event fun e w hw => Listed.mailbox e _ _ _ (fun w' x hr => ?_) hw
  simp only [createPart] at hr
  split at hr
  · cases hr
  · cases hr
    exact hw

theorem resetPartition (n : FnNo) (part_ : Nat) (failed : List Nat) : KeepsKeyed (execResetPartition n part_ failed) :=
    .event fun e w hw => by
  grind [Listed.mailbox, Listed.resetPart]

theorem bindVf (n vf : FnNo) (part_ : Nat) : KeepsKeyed (execBindVf n vf part_) := .event fun e w hw => by
  grind [Listed.congr, Listed.updFn, Listed.mailbox]

theorem setStage2Root (n : FnNo) (part_ root : Nat) : KeepsKeyed (execSetStage2Root n part_ root) := .event fun e w hw => by
  grind [Listed.congr, Listed.updPart, Listed.mailbox]

theorem assignWorld (n : FnNo) (pcn : Nat) (quads : BitVec 4) (world : Nat) : KeepsKeyed (execAssignWorld n pcn quads world) :=
    .event fun e w hw => by
  grind [Listed.mailbox, Listed.giveWorld, Listed.offerSlots]

theorem bindTagPort (n : FnNo) (port_ : Fin 64) (asid world prio : Nat) : KeepsKeyed (execBindTagPort n port_ asid world prio) :=
    .event fun e w hw => by
  grind [Listed.congr, Listed.updFn, Listed.mailbox]

theorem setAllowListEntry (n : FnNo) (part_ index : Nat) (entry : Word) : KeepsKeyed (execSetAllowListEntry n part_ index entry) :=
    .event fun e w hw => by
  grind [Listed.congr, Listed.updPart, Listed.mailbox]

theorem appealPolicy (n : FnNo) (tile_ : Fin 96) (enable : Bool) : KeepsKeyed (execAppealPolicy n tile_ enable) := .event fun e w hw => by
  grind [Listed.congr, Listed.setAppeal, Listed.mailbox]

theorem writeExportOrImportEntry (n : FnNo) (imp : Bool) (index : Nat) (entry : BitVec 256) :
    KeepsKeyed (execWriteExportOrImportEntry n imp index entry) := by
  refine .event fun e w hw => Listed.mailbox e _ _ _ (fun w' x hr => ?_) hw
  have written : ∀ a bs v, (Machine.tableWrite e w (fn w n.val).part a bs).map (fun w => (w, 0)) = some (w', v) → Listed w' := by
    intro a bs v hv
    obtain ⟨u, hu, h⟩ := Option.map_eq_some_iff.mp hv
    cases h
    exact Listed.tableWrite e _ _ _ hu hw
  dsimp only at hr
  split at hr
  · cases hr
    exact Listed.updPart _ _ hw
  · split at hr
    · cases hr
    · split at hr
      · split at hr
        · exact written _ _ _ hr
        · cases hr
      · split at hr
        · exact written _ _ _ hr
        · cases hr

theorem registerHandlerConsort (n : FnNo) (seq : BitVec 64) : KeepsKeyed (execRegisterHandlerConsort n seq) := .event fun e w hw => by
  grind [Listed.congr, Listed.updPart, Listed.mailbox]

theorem terminateFaultEntry (n : FnNo) (part_ idx : Nat) : KeepsKeyed (execTerminateFaultEntry n part_ idx) := .event fun e w hw => by
  grind [Listed.congr, Listed.updFq, Listed.reportAction, Listed.terminateEntry, Listed.markServed, Listed.mailbox]

theorem configurePartitionRuntime (n : FnNo) (part_ rAsid cAsid base size disp_ evFn_ : Nat) :
    KeepsKeyed (execConfigurePartitionRuntime n part_ rAsid cAsid base size disp_ evFn_) := .event fun e w hw => by
  grind [Listed.congr, Listed.updPart, Listed.mailbox]

theorem setSchedulingContexts (n : FnNo) (part_ count slice : Nat) (weights : List Nat) :
    KeepsKeyed (execSetSchedulingContexts n part_ count slice weights) := .event fun e w hw => by
  grind [Listed.foldl, Listed.congr, Listed.updPart, Listed.haltCtx, Listed.mailbox]

theorem queryPartition (n : FnNo) (part_ item : Nat) : KeepsKeyed (execQueryPartition n part_ item) := .event fun e w hw => by
  grind [Listed.mailbox]

theorem heqConfigWrite (n : FnNo) (size : Bool) (v : BitVec 64) : KeepsKeyed (execHeqConfigWrite n size v) := .event fun e w hw => by
  grind [Listed.congr, Listed.updFn, Listed.firstReports]

theorem heqheadWrite (n : FnNo) (v : BitVec 64) : KeepsKeyed (execHeqheadWrite n v) := .event fun e w hw => by
  grind [Listed.congr, Listed.updFn]

theorem verselWrite (n : FnNo) (v : BitVec 64) : KeepsKeyed (execVerselWrite n v) := .event fun e w hw => by
  grind [Listed.congr, Listed.updPart, Listed.updFn, Listed.retryHeld]

theorem counterRead (n : FnNo) : KeepsKeyed (execCounterRead n) := .event fun e w hw => by
  grind [Listed.congr, Listed.updPart, Listed.updFn, Listed.reply, Listed.sampleCounter]

theorem coaltWrite (n : FnNo) (v : BitVec 64) : KeepsKeyed (execCoaltWrite n v) := .event fun e w hw => by
  grind [Listed.congr, Listed.updFn]

theorem pwrlimWrite (n : FnNo) (v : BitVec 64) : KeepsKeyed (execPwrlimWrite n v) := .event fun e w hw => by
  grind [Listed.congr, Listed.updFn]

theorem registerWrite (n : FnNo) (off : Nat) (v : BitVec 64) : KeepsKeyed (execRegisterWrite n off v) := .event fun e w hw => by
  grind [Listed.congr, Listed.updFn, Listed.rejectMessage, Listed.doorbell, Listed.msixWrite]

theorem msixVectorUnmask (n : FnNo) (vec : Fin 256) : KeepsKeyed (execMsixVectorUnmask n vec) := .event fun e w hw => by
  grind [Listed.congr, Listed.updFn, Listed.postUnmasked]

theorem functionLevelReset (n : FnNo) : KeepsKeyed (execFunctionLevelReset n) := .event fun e w hw => by
  grind [Listed.foldl, Listed.congr, Listed.updFn, Listed.updLaunch, Listed.reportEntries, Listed.loseLaunches, Listed.resetPart]

theorem deviceBringUp (b : BringUp) : KeepsKeyed (execDeviceBringUp b) := .event fun e w hw => by
  grind [Listed.bootStep]

theorem tdispStateChange (n : FnNo) (st : Fin 4) : KeepsKeyed (execTdispStateChange n st) := .event fun e w hw => by
  grind [Listed.congr, Listed.updFn]

theorem spdmNegotiateAlgorithms (version : Nat) (mldsa44 sha3_256 mlkem768 : Bool) :
    KeepsKeyed (execSpdmNegotiateAlgorithms version mldsa44 sha3_256 mlkem768) := .event fun e w hw => by
  grind [Listed.congr, Listed.reply, Listed.spdmAnswer]

theorem spdmKeyExchange (mlkem768 : Bool) (x : KeyOffer) : KeepsKeyed (execSpdmKeyExchange mlkem768 x) := .event fun e w hw => by
  grind [Listed.congr, Listed.updPort, Listed.reply]

theorem spdmGetMeasurements (index : Nat) : KeepsKeyed (execSpdmGetMeasurements index) := .event fun e w hw => by
  grind [Listed.reply, Listed.spdmAnswer]

theorem call (h : Hd) (d : R64) (i : Fin 16384) : KeepsKeyed (execCall h d i) := .issue fun e w s hw => by
  grind [Listed.congr, Listed.done, Listed.guarded, Lists]

theorem ret (h : Hd) (a : R64) : KeepsKeyed (execRet h a) := .issue fun e w s hw => by
  grind [Listed.laneJumpReg, Lists]

theorem recon (h : Hd) : KeepsKeyed (execRecon h) := .issue fun e w s hw => by
  grind [Listed.done, Listed.guarded, Lists]

theorem lexit (h : Hd) : KeepsKeyed (execLexit h) := .issue fun e w s hw => by
  grind [Listed.done, Listed.guarded, Lists]

theorem nop (h : Hd) : KeepsKeyed (execNop h) := .issue fun e w s hw => by
  grind [Listed.done, Listed.guarded, Lists]

theorem spinh (h : Hd) : KeepsKeyed (execSpinh h) := .issue fun e w s hw => by
  grind [Listed.congr, Listed.done, Listed.guarded, Lists]

theorem smovl (h : Hd) (d : R64) (lit : Word) : KeepsKeyed (execSmovl h d lit) := .issue fun e w s hw => by
  grind [Listed.done, Listed.sourced, Listed.uniformL, Lists]

/-- Each instruction and event has the meaning of its form. -/
theorem exec (i : Instr) : KeepsKeyed (Machine.exec i) := by
  cases i with
  | iadd | isub | imul | imulh | imin | imax | and | or | xor | andn | shl | shr | sar | rotl | bfx | fsgn =>
    exact .issue (Listed.laneRR _ _ _ _ _)
  | imad | bfi => exact .issue (Listed.laneRRD _ _ _ _ _)
  | iabs | popc | clz | brev | iaddi | imuli | andi | ori | xori | shli | shri | sari | mov => exact .issue (Listed.laneR _ _ _ _)
  | sel | lea | movs | pgetv | fmaxx | rand | ownq => exact .issue (Listed.laneImm _ _ _)
  | icmp | plog | psetv | icmpi | fcmp => exact .issue (Listed.lanePred _ _ _ _ _)
  | movi | widx => exact .issue (Listed.lane1 _ _ _ _)
  | movl => exact .movl _ _ _
  | ld => exact .ld _ _ _ _ _
  | st => exact .st _ _ _ _ _
  | ldacq h d a z sc => exact .ldacq h d a z sc
  | strel h d a z sc => exact .strel h d a z sc
  | ldl => exact .ldl _ _ _ _ _
  | stl => exact .stl _ _ _ _ _
  | pref h a z o => exact .pref h a z o
  | atadd | atmax | atexch | atcas | atlog => exact .issue (Listed.globalAtomic _ _ _ _ _)
  | lds => exact .lds _ _ _ _ _
  | sts => exact .sts _ _ _ _ _
  | atadds | atcass => exact .issue (Listed.scrAtomic _ _ _ _ _)
  | sld => exact .sld _ _ _ _ _
  | sst => exact .sst _ _ _ _ _
  | argld => exact .argld _ _ _ _
  | vtos => exact .vtos _ _ _ _
  | ubra => exact .ubra _ _
  | ucall => exact .ucall _ _ _
  | uret => exact .issue (Listed.uniJumpReg _ _)
  | ujmpx => exact .ujmpx _ _
  | exit => exact .exit _
  | exitSucc => exact .exitSucc _ _
  | yield => exact .yield _
  | sleep => exact .sleep _ _
  | waittl | waittlDl => exact .issue (Listed.waitTl _ _ _ _)
  | dsetD | dsetA | dsetTl => exact .issue (Listed.dsetWith _ _ _ _ _ _)
  | mma => exact .mma _ _ _ _ _ _ _
  | azero | astp | aldp | arow | scld | pswz | copy | copym | copyo | gather | coll | tlsig => exact .issue (Listed.engIssue _ _)
  | tlread => exact .tlread _ _ _
  | engst => exact .engst _ _ _ _
  | bar => exact .bar _ _ _
  | bara => exact .bara _ _ _
  | bardl => exact .bardl _ _ _ _ _
  | tktake => exact .tktake _ _ _
  | tkserve => exact .tkserve _ _
  | tkwait => exact .tkwait _ _ _
  | fence h sc => exact .fence h sc
  | launchq => exact .launchq _ _ _
  | mfsr => exact .mfsr _ _ _ _
  | mtsr => exact .mtsr _ _ _ _
  | tlbinvPage => exact .tlbinvPage _ _ _
  | tlbinvAsid => exact .tlbinvAsid _ _
  | tlbinvCtx => exact .tlbinvCtx _ _
  | ctxfl => exact .ctxfl _ _ _
  | haltbHalt => exact .haltbHalt _ _ _ _
  | haltbRelease => exact .haltbRelease _ _ _ _
  | engrst => exact .engrst _ _ _ _
  | keyopSet | keyopBump | keyopClear | keyopNewkey => exact .issue (Listed.keyop _ _ _ _)
  | svcall => exact .svcall _ _ _ _
  | activation => exact .activation _ _
  | registerFillComplete => exact .registerFillComplete _ _
  | remoteLineRead => exact .remoteLineRead _ _
  | lineSpillComplete => exact .lineSpillComplete _ _
  | lazyClaim => exact .lazyClaim _ _
  | deferredResultReturn => exact .deferredResultReturn _
  | chiselStep => exact .chiselStep _ _
  | copyLine => exact .copyLine _ _
  | collChunk => exact .collChunk _ _ _
  | sliceRequest => exact .sliceRequest _
  | pageWalkComplete => exact .pageWalkComplete _ _ _ _
  | stage2Invalidation => exact .stage2Invalidation _ _ _ _
  | tlbInvalidationComplete => exact .tlbInvalidationComplete _
  | atsTranslationCompletion => exact .atsTranslationCompletion _ _ _ _ _
  | atsInvalidationRequest => exact .atsInvalidationRequest _ _ _
  | keyLoadComplete => exact .keyLoadComplete _
  | scrubOnBind => exact .scrubOnBind _ _
  | scrubFrameComplete => exact .scrubFrameComplete _ _
  | fqheadWrite => exact .fqheadWrite _ _
  | fqConfigWrite => exact .fqConfigWrite _ _ _
  | convergenceIllop => exact .convergenceIllop _
  | reservedWordIssue => exact .reservedWordIssue _
  | tagportWrite => exact .tagportWrite _ _ _ _
  | poolTimerExpiry => exact .poolTimerExpiry _ _
  | celileMessage => exact .celileMessage _ _ _ _
  | launchQueueDepart => exact .launchQueueDepart _
  | launchQueueCeilingChange => exact .launchQueueCeilingChange _ _
  | consortPlacement => exact .consortPlacement _
  | consortEnd => exact .consortEnd _
  | resumableConsortReplace => exact .resumableConsortReplace _ _ _
  | coalesceIntervalEnd => exact .coalesceIntervalEnd _ _
  | fabricAccessIn => exact .fabricAccessIn _ _ _ _ _ _ _ _ _
  | celileFlitCrcError => exact .celileFlitCrcError _
  | celileLinkReset => exact .celileLinkReset _
  | celileRetrainTimeout => exact .celileRetrainTimeout _
  | celileLinkDown => exact .celileLinkDown _ _
  | celileXonXoff => exact .celileXonXoff _ _ _
  | uncorrectableError => exact .uncorrectableError _
  | controlStateError => exact .controlStateError _
  | handlerEntryService => exact .handlerEntryService _ _
  | contextPortRead => exact .contextPortRead _ _ _ _
  | contextPortWrite => exact .contextPortWrite _ _ _ _
  | hubServiceFrame => exact .hubServiceFrame _
  | hubServiceScratch => exact .hubServiceScratch _
  | hubServiceSaveArea => exact .hubServiceSaveArea _
  | hubServiceDrain => exact .hubServiceDrain _
  | hubServiceFrameWrite => exact .hubServiceFrameWrite _
  | hsigSignal => exact .hsigSignal _ _
  | dispenserReset => exact .dispenserReset _ _
  | heartbeatSend => exact .heartbeatSend _
  | heartbeatReceive => exact .heartbeatReceive _ _ _
  | periodBoundary => exact .periodBoundary _
  | accusationReceive => exact .accusationReceive _ _ _
  | retuneVoteReceive => exact .retuneVoteReceive _ _ _
  | muteNoticeReceive => exact .muteNoticeReceive _
  | muteMapUpdate => exact .muteMapUpdate _ _
  | muteReport => exact .muteReport _ _
  | selfTestComplete => exact .selfTestComplete _ _
  | appealSend => exact .appealSend _
  | appealReceive => exact .appealReceive _ _
  | retuneNoticeReceive => exact .retuneNoticeReceive _ _
  | retuneReport => exact .retuneReport _ _
  | supplyDroop => exact .supplyDroop _
  | droopStep => exact .droopStep _
  | droopRecovery => exact .droopRecovery _
  | powerCheckTick => exact .powerCheckTick _
  | thermalTrip => exact .thermalTrip _ _
  | thermalCeilingRelease => exact .thermalCeilingRelease _ _
  | deadlineExpiry => exact .deadlineExpiry _
  | schedulingSliceEnd => exact .schedulingSliceEnd _
  | requestTimeout => exact .requestTimeout _ _ _ _
  | createPartition => exact .createPartition _ _ _ _ _ _ _ _
  | resetPartition => exact .resetPartition _ _ _
  | bindVf => exact .bindVf _ _ _
  | setStage2Root => exact .setStage2Root _ _ _
  | assignWorld => exact .assignWorld _ _ _ _
  | bindTagPort => exact .bindTagPort _ _ _ _ _
  | setAllowListEntry => exact .setAllowListEntry _ _ _ _
  | appealPolicy => exact .appealPolicy _ _ _
  | writeExportOrImportEntry => exact .writeExportOrImportEntry _ _ _ _
  | registerHandlerConsort => exact .registerHandlerConsort _ _
  | terminateFaultEntry => exact .terminateFaultEntry _ _ _
  | configurePartitionRuntime => exact .configurePartitionRuntime _ _ _ _ _ _ _ _
  | setSchedulingContexts => exact .setSchedulingContexts _ _ _ _ _
  | queryPartition => exact .queryPartition _ _ _
  | heqConfigWrite => exact .heqConfigWrite _ _ _
  | heqheadWrite => exact .heqheadWrite _ _
  | verselWrite => exact .verselWrite _ _
  | counterRead => exact .counterRead _
  | coaltWrite => exact .coaltWrite _ _
  | pwrlimWrite => exact .pwrlimWrite _ _
  | registerWrite => exact .registerWrite _ _ _
  | msixVectorUnmask => exact .msixVectorUnmask _ _
  | functionLevelReset => exact .functionLevelReset _
  | deviceBringUp => exact .deviceBringUp _
  | tdispStateChange => exact .tdispStateChange _ _
  | spdmNegotiateAlgorithms => exact .spdmNegotiateAlgorithms _ _ _ _
  | spdmKeyExchange => exact .spdmKeyExchange _ _
  | spdmGetMeasurements => exact .spdmGetMeasurements _
  | bra => exact .issue (Listed.laneJump _ _)
  | brx => exact .issue (Listed.laneJumpReg _ _)
  | call => exact .call _ _ _
  | ret => exact .ret _ _
  | recon => exact .recon _
  | lexit => exact .lexit _
  | trap | bkpt => exact .issue (Listed.trapWith _ _ _)
  | nop => exact .nop _
  | spinh => exact .spinh _
  | fadd | fsub | fmul | fmin | fmax | hadd2 | hmul2 | cvtl6 => exact .issue (Listed.laneFF _ _ _ _ _)
  | fmac | cvt | hmac2 | cvtf8 | sclx => exact .issue (Listed.laneF _ _ _ _)
  | frcp | frsq | fsqrt | log2 | exp2 => exact .issue (Listed.laneDR _ _ _ _)
  | fdiv | shfl | vote | redl | scanl => exact .issue (Listed.laneDef _ _ _ _ _)
  | fclass => exact .issue (Listed.laneFR _ _ _ _)
  | sadd | ssub | smul | sand | sor | sxor | sshl | sshr | ssar | smin | smax | sbfx | spopc => exact .issue (Listed.uniRR _ _ _ _ _)
  | scmp | qlog => exact .issue (Listed.uniQ _ _ _ _ _)
  | saddi | smovi | smov | scsel => exact .issue (Listed.uniS _ _ _ _)
  | smovl => exact .smovl _ _ _

/-! The step. -/

theorem doIssue (i : Issue) : KeepsKeyed fun s => Machine.doIssue s i := by
  cases i with
  | run i => exact exec i
  | close c => exact event fun e _ hw => Listed.closeFirst e c hw
  | fetchFail x pc cause m => exact event fun e _ hw => Listed.fetchFault e x pc cause m hw
  | fetchWait c x => exact event fun _ _ hw => Listed.stallOn c x hw
  | idle =>
    rintro s t hs h
    cases h
    exact hs

theorem stepSelf : KeepsKeyed Machine.stepSelf := by
  intro s t hs h
  unfold Machine.stepSelf at h
  split at h
  · cases h
    exact hs
  · split at h
    · exact exec _ _ _ hs h
    · split at h
      · exact exec _ _ _ hs h
      · exact doIssue _ _ _ hs h

theorem stepBody : KeepsKeyed Machine.stepBody := by
  intro s t hs h
  unfold Machine.stepBody at h
  split at h
  · exact event (F := fun e w => Machine.takeSignal e w _) (fun e _ hw => Listed.takeSignal e _ hw) _ _ hs h
  · refine exec _ _ _ ?_ h
    exact Listed.congr (w := s.w) hs rfl
  · exact stepSelf _ _ hs h

/-- What follows the body of a step changes the time and the notes only. -/
theorem step : KeepsKeyed Machine.step := by
  intro s t hs h
  unfold Machine.step at h
  cases hb : Machine.stepBody s with
  | next u =>
    rw [hb] at h
    cases h
    exact Listed.congr (stepBody s u hs hb) rfl
  | fault r =>
    rw [hb] at h
    cases h
  | refused r =>
    rw [hb] at h
    cases h

end KeepsKeyed

/-- Settles O58: each function that changes a state keeps its courses listed, and so does each instruction and event. -/
theorem stepKeepsCourses : Obligations.StepKeepsCourses := KeepsKeyed.step

end Sys2Proof.Claims
end

section
/-! O60: the values at reset. -/

namespace Sys2Proof.Claims
open Sys2Proof.Machine

/-- The tile words and the neighbour records of the 96 tiles at reset. -/
theorem reset_tiles : ∀ t, t < 96 → (tile State.reset.w t).word = 0 ∧ ∀ d, d < 4 →
    nth (tile State.reset.w t).nb d 0 = if (neighbour t d).isSome then BitVec.ofNat 32 (2 ^ 21) else 0 := by
  decide +kernel

/-- Settles O60: the tables are empty, and a missing entry has the value at reset. -/
theorem resetValues : Obligations.ResetValues := by
  have inv : State.reset.Inv := ⟨rfl, rfl⟩
  have keyed : Keyed State.reset := ⟨List.Pairwise.nil, fun _ h => absurd h List.not_mem_nil⟩
  exact ⟨inv, keyed, rfl, rfl, rfl, fun _ => rfl, rfl, rfl, rfl, fun _ => ⟨rfl, rfl, rfl, rfl, rfl, rfl, rfl, rfl, rfl⟩,
    fun _ => ⟨rfl, rfl, rfl, rfl, rfl, rfl⟩, fun _ => rfl, reset_tiles, fun _ => rfl⟩

end Sys2Proof.Claims
end

section
/-! A fault delivered to a ring in a frame that waits for its scrub: the write of the entry scrubs the frame first (R109), and a course that
waits for that scrub goes on. So a fault changes a course that sleeps on no dispenser, which `FaultParked.others` excludes. -/

namespace Sys2Proof.Claims

set_option Elab.async false

open Sys2Proof.Machine Sys2Proof.Tests

/-- A second resident course, which waits for the scrub of the frame that holds the ring of the fault queue (R109). -/
def scrubWaiter : Course :=
  { course with id := { course.id with cid := 1 }, k := { course.k with stall := some (.scrub 0 129) } }

/-- The demo's course changed by f, and the other course. The fault queue's ring lies in a frame that waits for its scrub, and its
page stands in the TLB; the context space has no translation, so that no control area is written. -/
def scrubS (f : Course → Course) : State :=
  Tests.stateOf f fun w => { w with
    courses := w.courses ++ [(1, scrubWaiter)]
    scrub := [(0, 129)]
    tlb := ⟨0, 0, 0x10300, 0, 2 ^ 30, 0xDF, 0x10300000, 0xDF, 0x10300000, 2 ^ 30⟩ :: w.tlb
    parts := tMap w.parts fun _ p => { p with cAsid := 7, fq := { p.fq with base := 0x10300000, size := 4 } } }

/-- Whether an instruction lets the other course go on. -/
def freesOther (f : Course → Course) (i : Instr) : Bool :=
  match exec i (scrubS f) with
  | .next t => decide (course? t.w 1 ≠ some scrubWaiter)
  | _ => false

/-- What the statements about faults ask of the state: the demo's course issues, its lines are near, the other course sleeps on no
dispenser. -/
def scrubB (f : Course → Course) : Bool :=
  issuesB (scrubS f) (selOf f) && keyedB (scrubS f) && ((f course).v.lines.all fun p => p.2.quad == quadOf (f course)) &&
    (course? (scrubS f).w 1 == some scrubWaiter) && (sleepersOf (scrubS f).w (part (scrubS f).w (f course).id.part).disp == []) &&
    (f course).id.cid == 0

section
variable {f : Course → Course} (h : scrubB f = true)
include h

theorem scrub_issues : Issues (scrubS f) (selOf f) := by
  simp only [scrubB, Bool.and_eq_true] at h
  exact issues_of h.1.1.1.1.1

theorem scrub_keyed : Keyed (scrubS f) := by
  simp only [scrubB, Bool.and_eq_true] at h
  exact keyed_of h.1.1.1.1.2

/-- Where the other course goes on, the outcome is none that the statements give for a fault. -/
theorem not_faultParked_of_freesOther {i : Instr} (hi : freesOther f i = true) {t : State} (ht : exec i (scrubS f) = .next t)
    {c : Course} {cause : Nat} {es : List Entry} : ¬ FaultParked (scrubS f) t (selOf f) c cause es := by
  intro hp
  simp only [scrubB, Bool.and_eq_true, beq_iff_eq] at h
  obtain ⟨⟨⟨⟨-, near⟩, stood⟩, awake⟩, cid⟩ := h
  have same := hp.others (near_of near) 1 (by show 1 ≠ (f course).id.cid; omega)
    (by show ∀ q ∈ sleepersOf (scrubS f).w (part (scrubS f).w (f course).id.part).disp, _; rw [awake]; simp)
  rw [freesOther, ht] at hi
  exact of_decide_eq_true hi (same.trans stood)

end

/-! The instructions, each of which faults. -/

def oddV (c : Course) : Course := putV c 2 0xF (mkLine fun _ => 2)
def oddS (c : Course) : Course := putS c 2 2
def farHead (c : Course) : Course := putS c 2 100
def second (c : Course) : Course := { c with id := { c.id with j := 1 } }

theorem brx_freesOther : freesOther oddV (.brx all 2) = true := by decide +kernel
theorem ujmpx_freesOther : freesOther oddS (.ujmpx all 2) = true := by decide +kernel
theorem ldl_freesOther : freesOther id (.ldl all 4 2 .b4 63) = true := by decide +kernel
theorem argld_freesOther : freesOther id (.argld all 4 0 63) = true := by decide +kernel
theorem iadd_freesOther : freesOther rotten (.iadd all 3 2 1 .wrap) = true := by decide +kernel
theorem exitSucc_freesOther : freesOther second (.exitSucc all 2) = true := by decide +kernel
theorem mfsr_freesOther : freesOther id (.mfsr all false 4 1000) = true := by decide +kernel
theorem mtsr_freesOther : freesOther farHead (.mtsr all false 2 0x402) = true := by decide +kernel

theorem scrubB_oddV : scrubB oddV = true := by decide +kernel
theorem scrubB_oddS : scrubB oddS = true := by decide +kernel
theorem scrubB_id : scrubB id = true := by decide +kernel
theorem scrubB_rotten : scrubB rotten = true := by decide +kernel
theorem scrubB_second : scrubB second = true := by decide +kernel
theorem scrubB_farHead : scrubB farHead = true := by decide +kernel

/-- Refutes O8: BRX to 2 raises MISALIGN, whose entry lets the other course go on. -/
theorem not_laneControl : ¬ Obligations.LaneControl := by
  rintro ⟨-, -, misaligned, -⟩
  have hs := scrubB_oddV
  obtain ⟨t, ht, hp⟩ := misaligned (.brx all 2) _ rfl (by decide) (scrubS oddV) (selOf oddV) (scrub_issues hs)
    (stands_of (by decide +kernel)) (scrub_keyed hs) 0xF (by decide +kernel) (by decide)
  exact not_faultParked_of_freesOther hs brx_freesOther ht hp.toFaultParked

/-- Refutes O9: UJMPX to 2 raises MISALIGN, whose entry lets the other course go on. -/
theorem not_scalars : ¬ Obligations.Scalars := by
  rintro ⟨-, -, -, jumps⟩
  have hs := scrubB_oddS
  obtain ⟨-, misaligned⟩ := jumps (.ujmpx all 2) _ rfl (scrubS oddS) (selOf oddS) (scrub_issues hs) (by decide +kernel)
  obtain ⟨t, ht, hp⟩ := misaligned (by decide) (by decide +kernel) (stands_of (by decide +kernel)) (scrub_keyed hs)
  exact not_faultParked_of_freesOther hs ujmpx_freesOther ht hp.toFaultParked

/-- Refutes O11: LDL past its segment raises SEGLIM, whose entry lets the other course go on. -/
theorem not_laneMemory : ¬ Obligations.LaneMemory := by
  rintro ⟨-, -, traps, -⟩
  have hs := scrubB_id
  obtain ⟨past, -⟩ := traps (.ldl all 4 2 .b4 63) _ (by decide) rfl (scrubS id) (selOf id) (scrub_issues hs) (scrub_keyed hs)
    (stands_of (by decide +kernel)) (by decide +kernel)
  obtain ⟨t, ht, hp⟩ := past 0xF (by decide) (by decide +kernel)
  exact not_faultParked_of_freesOther hs ldl_freesOther ht hp.parked

/-- Refutes O13: ARGLD past ARGLIM raises SEGLIM, whose entry lets the other course go on. -/
theorem not_uniformMemory : ¬ Obligations.UniformMemory := by
  rintro ⟨⟨-, argld⟩, -, -⟩
  have hs := scrubB_id
  obtain ⟨past, -⟩ := argld all 4 0 63 (scrubS id) (selOf id) [] (scrub_issues hs) (by decide +kernel)
  obtain ⟨t, ht, hp⟩ := past (by decide +kernel) (stands_of (by decide +kernel)) (scrub_keyed hs)
  exact not_faultParked_of_freesOther hs argld_freesOther ht hp.toFaultParked

/-- Refutes O14: IADD of a poisoned V2 raises POISON, whose entry lets the other course go on. -/
theorem not_laneForms : ¬ Obligations.LaneForms := by
  rintro ⟨-, -, -, poison, -⟩
  have hs := scrubB_rotten
  obtain ⟨t, r, ht, -, hp⟩ := poison (.iadd all 3 2 1 .wrap) (arithRow (.iadd all 3 2 1 .wrap) |>.get rfl) (.inl rfl) (by decide)
    (scrubS rotten) (selOf rotten) (scrub_issues hs) (scrub_keyed hs) (stands_of (by decide +kernel)) trivial (by decide +kernel)
    (by decide +kernel) (by decide +kernel)
  exact not_faultParked_of_freesOther hs iadd_freesOther ht hp.toFaultParked

/-- Refutes O16: EXIT.SUCC in a consort's second course raises ILLOP, whose entry lets the other course go on. -/
theorem not_courseEnds : ¬ Obligations.CourseEnds := by
  rintro ⟨-, succ⟩
  have hs := scrubB_second
  obtain ⟨-, stops⟩ := succ all 2 (scrubS second) (selOf second) [] (scrub_issues hs) (by decide +kernel)
  obtain ⟨illop, -⟩ := stops (scrub_keyed hs) (by decide +kernel)
  obtain ⟨t, ht, hp⟩ := illop (by decide +kernel)
  exact not_faultParked_of_freesOther hs exitSucc_freesOther ht hp.toFaultParked

/-- Refutes O18: MFSR of an unassigned register raises ILLOP, whose entry lets the other course go on. -/
theorem not_uniformTraps : ¬ Obligations.UniformTraps := by
  rintro ⟨registers, -⟩
  have hs := scrubB_id
  obtain ⟨unassigned, -⟩ := registers all false 4 1000 (scrubS id) (selOf id) (scrub_issues hs) (scrub_keyed hs) (by decide +kernel)
    (by decide +kernel)
  obtain ⟨⟨t, ht, hp⟩, -⟩ := unassigned (by unfold Assigned; decide)
  exact not_faultParked_of_freesOther hs mfsr_freesOther ht hp.toFaultParked

/-- Refutes O25: MTSR of FQHEAD with 100 in a ring of four entries raises ILLOP, whose entry lets the other course go on. -/
theorem not_faultQueue : ¬ Obligations.FaultQueue := by
  rintro ⟨⟨-, -, head, -⟩, -⟩
  have hs := scrubB_farHead
  obtain ⟨t, ht, hp⟩ := head all false 2 (scrubS farHead) (selOf farHead) (scrub_issues hs) (scrub_keyed hs) (by decide +kernel)
    (by decide +kernel) (fun ok => absurd ok.1 (by decide +kernel))
  exact not_faultParked_of_freesOther hs mtsr_freesOther ht hp.toFaultParked

end Sys2Proof.Claims
end

section
/-! O29: a placed consort's record bears the CID of its first course (R175), which the statement leaves as it was before the placement. -/

namespace Sys2Proof.Claims

set_option Elab.async false

open Sys2Proof.Machine Sys2Proof.Tests

/-- What a consort is supplied with is no CID. -/
theorem supply_cid0 {w : W} {k k' : Consort} {pt : Part} {fs : List Nat} (h : supply w k = some (k', pt, fs)) : k'.cid0 = k.cid0 := by
  revert h
  fun_cases supply w k
  case case3 =>
    rintro h
    cases h
    rfl
  all_goals nofun

/-- A consort with a slot, whose CID of its first course stands at 0, where the next course will have CID 1. The context space has no
translation, so that no frame is written. -/
def unplacedS : State :=
  Tests.stateOf id fun w => { w with
    consorts := [(0, slotted)], cores := [], courses := [], parts := tMap w.parts fun _ p => { p with cAsid := 7 } }

/-- The CID in the consort's record after the placement. -/
def placedCid0 : Option Nat :=
  match exec (.consortPlacement 0) unplacedS with
  | .next t => (consort? t.w 0).map (·.cid0)
  | _ => none

theorem placedCid0_eq : placedCid0 = some 1 := by decide +kernel

/-- Refutes O29: the placement writes the CID of the consort's first course in its record. -/
theorem not_consorts : ¬ Obligations.Consorts := by
  rintro ⟨placement, -, -⟩
  have supplied : (supply unplacedS.w slotted).isSome = true := by decide +kernel
  obtain ⟨⟨k', pt, fs⟩, hk'⟩ := Option.isSome_iff_exists.mp supplied
  obtain ⟨-, placed⟩ := placement 0 unplacedS slotted launch (inv_of (by decide +kernel)) (by decide +kernel) (by decide +kernel)
  obtain ⟨t, ht, -, -, hk, -⟩ := placed k' pt fs rfl (by decide +kernel) (by decide +kernel) hk'
  have h := placedCid0_eq
  rw [placedCid0, ht] at h
  simp only [hk, Option.map_some, supply_cid0 hk'] at h
  exact absurd h (by decide)

end Sys2Proof.Claims
end

section
/-! O37: a step changes the handle in the frame of a course that is not resident (R58); the write scrubs the frame first, where it waits for
its scrub (R109), and another course that waits for that scrub goes on. -/

namespace Sys2Proof.Claims

set_option Elab.async false

open Sys2Proof.Machine Sys2Proof.Tests

/-- The first of two steps of an SCLD that names no quadrant. -/
def scldOp : EngOp := op (.scld true) 0 0 0 0 2 []

/-- The operation's course, parked, and one that waits for the scrub of the frame that holds its context frame. -/
def parkedOwner : Course := { course with k := { course.k with at_ := .parked } }
def frameWaiter : Course :=
  { course with id := { course.id with cid := 1 }, k := { course.k with stall := some (.scrub 0 128) } }

/-- The page of the course's handles stands in the TLB. -/
def scldS : State :=
  Tests.stateOf id fun w => { w with
    courses := [(0, parkedOwner), (1, frameWaiter)], ops := [(9, scldOp)], scrub := [(0, 128)]
    tlb := ⟨0, 0, 0x10182, 0, 2 ^ 30, 0xDF, 0x10182000, 0xDF, 0x10182000, 2 ^ 30⟩ :: w.tlb }

theorem scldS_atHead : AtHead scldS 0 0 9 scldOp consort where
  head := by decide +kernel
  op := rfl
  sound := by decide +kernel
  unmuted := by decide +kernel
  here := by decide +kernel
  consort := by decide +kernel
  handle := by decide

theorem scldS_fits : StepFits consort scldOp := by
  refine ⟨fun i => ?_, by decide +kernel⟩
  have e : consort.pw = [0] := by decide +kernel
  rw [e]
  cases i <;> simp [nth]

/-- Whether the step lets the other course go on. -/
def scldFreesOther : Bool :=
  match exec (.chiselStep 0 0) scldS with
  | .next t => decide (course? t.w 1 ≠ course? scldS.w 1)
  | _ => false

theorem scldFreesOther_eq : scldFreesOther = true := by decide +kernel

/-- Refutes O37: an operation's step of a parked course lets another course go on. -/
theorem not_chiselSteps : ¬ Obligations.ChiselSteps := by
  rintro ⟨⟨-, steps⟩, -⟩
  obtain ⟨more, -⟩ := steps 0 0 scldS 9 scldOp consort (inv_of (by decide +kernel)) (keyed_of (by decide +kernel)) scldS_atHead scldS_fits
  obtain ⟨t, ht, -, -, -, -, others⟩ := more (by unfold InReach SomeAway; decide +kernel) (by decide)
  have h := scldFreesOther_eq
  rw [scldFreesOther, ht] at h
  exact of_decide_eq_true h (others 1 (by decide))

end Sys2Proof.Claims
end

section
/-! An operation under the number that the next one takes: TLSIG's operation replaces it (R298), and a course that stalls on a
descriptor of the replaced one goes on (R45). No hypothesis of the statement keeps the numbers of operations below the next. -/

namespace Sys2Proof.Claims

set_option Elab.async false

open Sys2Proof.Machine Sys2Proof.Tests

/-- A second resident course, which waits until no operation of its own uses D3. -/
def panelWaiter : Course :=
  { course with id := { course.id with cid := 1 }, k := { course.k with stall := some (.panel 3) } }

/-- A copy of that course in flight under the next operation's number, which uses D3. -/
def waitersCopy : EngOp := { sigOp W.init panelWaiter 0 1 0 with kind := .copy, dnums := [3] }

/-- The demo's course with TL0 valid and a number outstanding on its counter, the other course and its copy. -/
def panelS : State :=
  Tests.stateOf geared fun w => { behind w with courses := w.courses ++ [(1, panelWaiter)], ops := [(w.nextOp, waitersCopy)] }

theorem panelS_issues : Issues panelS gearX := issues_of (by decide +kernel)
theorem panelS_first : (tlOf panelS gearX.c signal.tl).done ≠ (tlOf panelS gearX.c signal.tl).issued := by decide +kernel
theorem panelS_marked : (tlOf panelS gearX.c signal.tl).done + 1 ∉ (tlOf panelS gearX.c signal.tl).marked := by decide +kernel
theorem panelS_sigs : pendingSigs panelS.w (tlAt panelS gearX.c signal.tl).1 (tlAt panelS gearX.c signal.tl).2 = [] := by
  decide +kernel

/-- No course waits, and the other one's stall is not over. -/
theorem panelS_stands : (panelS.w.courses.all fun p => p.2.k.await == .nothing &&
    p.2.k.stall.all fun y => !stallOver panelS.w p.2 y) = true := by decide +kernel

theorem panelS_pending : Pending' panelS gearX signal where
  behind := panelS_first
  marked := panelS_marked
  sigs m h := by rw [panelS_sigs] at h; cases h
  waits p hp m q h := by
    have := List.all_eq_true.mp panelS_stands p hp
    simp [h] at this
  stalls p hp y h := by
    have := List.all_eq_true.mp panelS_stands p hp
    rw [h, Bool.and_eq_true] at this
    simpa using this.2

/-- Whether an instruction lets the other course go on. -/
def freesWaiter (i : Instr) : Bool :=
  match exec i panelS with
  | .next t => decide (course? t.w 1 ≠ course? panelS.w 1)
  | _ => false

theorem tlsig_freesWaiter : freesWaiter (.tlsig all 5 0) = true := by decide +kernel

/-- Refutes O44: TLSIG lets another course go on, whose operation it replaces. -/
theorem not_timelineNumbers : ¬ Obligations.TimelineNumbers := by
  rintro ⟨issue, -⟩
  obtain ⟨t, c', n, ht, ran, -⟩ := issue (.tlsig all 5 0) panelS gearX all signal consort rfl panelS_issues (clear_of (by decide +kernel))
    (.inl rfl) gear_guard (accepts_of (by decide +kernel)) (by decide) fun _ => panelS_pending
  have frees := tlsig_freesWaiter
  rw [freesWaiter, ht] at frees
  exact of_decide_eq_true frees (ran.others 1 (by decide))

end Sys2Proof.Claims
end

section
/-! What every issue settles, with the whole course that it leaves: laws that `done_spec` gives only in part (R52, R67, R144). -/

namespace Sys2Proof.Claims

open Sys2Proof.Machine

/-- The course after an issue: its lanes charged, its turn and age settled, its window closed at a marker. -/
def settledAt (now : Nat) (c : Course) (x : Sel) (m back : Bool) : Course :=
  let d := settleTurn (chargeLanes c x.x) x m back
  { d with
    k := { d.k with age := now + 1 }
    w := if m then { d.w with used := 0, buf := [], isOpen := false, closing := false } else d.w }

section
variable (now : Nat) (c : Course) (x : Sel) (m back : Bool)

@[simp] theorem settledAt_id : (settledAt now c x m back).id = c.id := by
  rw [settledAt, settleTurn, (chargeLanes_spec c x.x).1]

@[simp] theorem settledAt_v : (settledAt now c x m back).v = c.v := by
  rw [settledAt, settleTurn, (chargeLanes_spec c x.x).1]

theorem settledAt_r : (settledAt now c x m back).r = { c.r with slots := (chargeLanes c x.x).r.slots } := by
  rw [settledAt, settleTurn, (chargeLanes_spec c x.x).1]

theorem settledAt_w : (settledAt now c x m back).w =
    if m then { c.w with used := 0, buf := [], isOpen := false, closing := false } else c.w := by
  rw [settledAt, settleTurn, (chargeLanes_spec c x.x).1]

theorem settledAt_k : ∃ wait turn, (settledAt now c x m back).k = { c.k with wait := wait, turn := turn, age := now + 1 } := by
  rw [settledAt, settleTurn, (chargeLanes_spec c x.x).1]
  exact ⟨_, _, rfl⟩

theorem settledAt_slots : SlotsBut c (settledAt now c x m back) := (chargeLanes_spec c x.x).2.1

theorem settledAt_lanecyc {n : Nat} (hn : n < 8) : slotLanecyc (settledAt now c x m back) n =
    (slotLanecyc c n + mCount (x.x &&& mkMask fun k => own c k == n)) % 2 ^ 64 := (chargeLanes_spec c x.x).2.2 n hn

end

theorem counted_eq (w : W) (p : Nat) (b : Bool) : counted w p b = { w with cores := (counted w p b).cores } := by
  cases b <;> rfl

theorem sameCores_counted (w : W) (p : Nat) (b : Bool) : SameCores w (counted w p b) := by
  cases b
  · exact sameCores_bumpCore _ _ _ _
  · exact (sameCores_bumpCore _ _ _ _).trans (sameCores_bumpCore _ _ _ _)

/-- An issue settles: where a marker has nothing to write, the state changes in event counters alone. -/
theorem settle_quiet (e : Env) {w : W} {c : Course} (x : Sel) {m : Bool} (back : Bool)
    (hq : m = false ∨ (c.w.buf = [] ∧ ∀ f ∈ w.flights, sameTag c f = false)) :
    settle e w c x m back = (counted w (pcnOf w c.v.hcore) x.started, settledAt w.now c x m back) := by
  have hcore : (chargeLanes c x.x).v.hcore = c.v.hcore := by rw [(chargeLanes_spec c x.x).1]
  cases m with
  | false =>
    simp only [settle, settledAt, settleTurn, hcore]
    cases x.started <;> rfl
  | true =>
    obtain ⟨hb, hf⟩ := hq.resolve_left (by simp)
    have hm : settle e w c x true back =
        closeWindow e (counted w (pcnOf w (aged w c x back).v.hcore) x.started) (aged w c x back) := rfl
    have hv : (aged w c x back).v.hcore = c.v.hcore := hcore
    rw [hm, closeWindow_quiet ((aged_buf _ _ _ _).trans hb)
      (by rw [counted_flights]; exact fun f h => (sameTag_aged _ _ _ _ _).trans (hf f h)), hv]
    rfl

end Sys2Proof.Claims
end

section
/-! O17: YIELD, SLEEP and WAITTL park and wake (R60, R142, R282, R283). -/

namespace Sys2Proof.Claims

open Sys2Proof.Machine

/-! ## The control area written to the frame (R60) -/

/-- A place's block bears the encipherment of the context key under which a world writes it at an address. -/
def CtxTagged (w : W) (wd va : Nat) (l : Loc) : Prop := match l with
  | .dev sl loc _ => tGet? w.sec.cipher (keyDev sl loc / 16) = ctxTag w wd va
  | _ => True

theorem ctxTagged_congr {w v : W} (h : v.sec = w.sec) (wd va : Nat) (l : Loc) : CtxTagged v wd va l ↔ CtxTagged w wd va l := by
  cases l with
  | dev sl loc pa => simp only [CtxTagged, ctxTag, contextKey, keyGen, h]
  | host p q i => exact Iff.rfl
  | fab f a => exact Iff.rfl

theorem sameCtxTag_iff (w : W) (wd : Nat) (ls : List (Loc × Nat × Nat)) :
    SameCtxTag w wd ls ↔ ∀ l va n i, (l, va, n) ∈ ls → i < n → CtxTagged w wd (va + i) (l.add i) := by
  refine forall_congr' fun l => forall_congr' fun va => forall_congr' fun n => forall_congr' fun i => forall_congr' fun _ =>
    forall_congr' fun _ => ?_
  unfold CtxTagged
  cases l <;> exact Iff.rfl

theorem wrCtx_tagged (e : Env) {w : W} {wd va : Nat} {l : Loc} (h : CtxTagged w wd va l) (v : Byte) :
    wrCtx e w wd va l v = wrB w l.key v := by
  cases l with
  | dev sl loc pa => exact if_pos h
  | host p q i => rfl
  | fab f a => rfl

theorem wrCtxs_tagged (e : Env) {wd : Nat} (bs : List Byte) : ∀ (w : W) (va : Nat) (l : Loc),
    (∀ i, i < bs.length → CtxTagged w wd (va + i) (l.add i)) → wrCtxs e w wd va l bs = gatherAt w (spanKeys l bs.length) bs := by
  induction bs with
  | nil => intro w va l _; rfl
  | cons b bs ih =>
    intro w va l h
    have h0 : CtxTagged w wd va l := loc_add_zero l ▸ h 0 (Nat.succ_pos _)
    have rest : ∀ i, i < bs.length → CtxTagged (wrB w l.key b) wd (va + 1 + i) ((l.add 1).add i) := fun i hi => by
      rw [loc_add_add, ctxTagged_congr rfl, Nat.add_assoc, Nat.add_comm 1]
      exact h (i + 1) (Nat.succ_lt_succ hi)
    rw [wrCtxs, wrCtx_tagged e h0, ih _ _ _ rest, List.length_cons, spanKeys_succ, gatherAt]

theorem wrCtxPlaces_tagged (e : Env) {wd : Nat} (ls : List (Loc × Nat × Nat)) : ∀ (w : W) (bs : List Byte), SameCtxTag w wd ls →
    (placeKeys ls).length ≤ bs.length → wrCtxPlaces e w wd ls bs = gatherAt w (placeKeys ls) bs := by
  induction ls with
  | nil => intro w bs _ _; cases bs <;> rfl
  | cons x ls ih =>
    intro w bs h hlen
    obtain ⟨l, va, n⟩ := x
    rw [placeKeys_cons, List.length_append, spanKeys_length] at hlen
    have htake : (bs.take n).length = n := by simp; omega
    have tagged := (sameCtxTag_iff _ _ _).mp h
    have here : wrCtxs e w wd va l (bs.take n) = gatherAt w (spanKeys l n) (bs.take n) := by
      rw [wrCtxs_tagged e _ _ _ _ fun i hi => tagged l va n i List.mem_cons_self (htake ▸ hi), htake]
    have rest : SameCtxTag (gatherAt w (spanKeys l n) (bs.take n)) wd ls := (sameCtxTag_iff _ _ _).mpr fun l' va' n' i hm hi =>
      (ctxTagged_congr (gatherAt_sec w _ _) wd _ _).mpr (tagged l' va' n' i (List.mem_cons_of_mem _ hm) hi)
    rw [wrCtxPlaces, here, ih _ _ rest (by simp; omega), placeKeys_cons, gatherAt_append _ _ _ _ (by rw [spanKeys_length]; omega),
      spanKeys_length]

/-- Marks of sectors change poison alone. -/
theorem poisonAt_frame (w : W) (a : Nat) : poisonAt w a = { w with poison := (poisonAt w a).poison } := by
  unfold poisonAt
  split <;> rfl

/-- A fold of marks changes poison alone. -/
theorem foldl_poison {α : Type} {g : W → α → W} (hg : ∀ w a, g w a = { w with poison := (g w a).poison }) (l : List α) :
    ∀ w, l.foldl g w = { w with poison := (l.foldl g w).poison } := by
  induction l with
  | nil => exact fun _ => rfl
  | cons a l ih =>
    intro w
    rw [List.foldl_cons, ih (g w a), hg w a]

theorem markBad_frame (w : W) (va : Nat) (ls : List (Loc × Nat × Nat)) (bad : List Nat) :
    markBad w va ls bad = { w with poison := (markBad w va ls bad).poison } := by
  unfold markBad
  split
  · rfl
  · refine foldl_poison (fun w p => foldl_poison (fun w i => ?_) _ w) ls w
    split
    · exact poisonAt_frame _ _
    · rfl

theorem ctxPlaces_ok {e : Env} {w : W} {row p wd va n : Nat} {nd : Need} {ls : List (Loc × Nat × Nat)}
    (h : ctxPlaces e w row p wd va n nd = .ok ls) : (placeKeys ls).length = n := by
  unfold ctxPlaces at h
  split at h
  · cases h
  · next hls => cases h; exact ownPlaces_length hls

/-- Bytes of context space written where nothing stops them, and where no block has to be enciphered again. -/
theorem ctxWrite_tagged {e : Env} {w : W} {row p wd va : Nat} {bs : List Byte} (bad : List Nat) {ls : List (Loc × Nat × Nat)}
    (h : ctxPlaces e w row p wd va bs.length .write = .ok ls) (hscrub : placesScrub w ls = none) (htag : SameCtxTag w wd ls) :
    ∃ ps, ctxWrite e w row p wd va bs bad = .ok { gatherAt w (placeKeys ls) bs with poison := ps } := by
  refine ⟨(markBad (cleanCovered (gatherAt w (placeKeys ls) bs) (placeKeys ls)) va ls bad).poison, ?_⟩
  rw [ctxWrite, h]
  simp only [afterScrub_none e ls hscrub, wrCtxPlaces_tagged e ls w bs htag (ctxPlaces_ok h).le]
  rw [markBad_frame, cleanCovered_frame]

theorem flatMap_leBytes_length (n m : Nat) (f : Nat → Nat) : ((List.range n).flatMap fun i => leBytes m (f i)).length = n * m := by
  simp [List.length_flatMap]

theorem ctlBytes_length (c : Course) : (ctlBytes c).length = 0x760 := by
  unfold ctlBytes pBytes
  simp only [List.length_append, flatMap_leBytes_length, leBytes_length]

end Sys2Proof.Claims
end

section
/-! What a park at a marker leaves (R58, R60, R142). -/

namespace Sys2Proof.Claims

open Sys2Proof.Machine

/-! ## Leaving the slot -/

/-- An await that keeps the window open (R68). -/
def keepsOpen : Await → Bool
  | .queue .. => true
  | _ => false

/-- A course out of its slot, its window still open or not (R60, R68). -/
def leftWith (c : Course) (o : Bool) : Course :=
  { c with
    v := { c.v with resid := residMask c, held := true, flushed := false, pref := 0 }
    w := { c.w with isOpen := o, used := if o then c.w.used else 0, dv := destMask c true, ds := destMask c false }
    k := { c.k with bound := o, stall := none, turn := none, tmo := none, fetchLost := false } }

/-- A course with a closed window out of its slot. -/
def leftSlot (c : Course) : Course := leftWith c false

/-- What stands in the control area of a course: its registers, zero beyond them. -/
def ctlArea (c : Course) : List Byte := ctlBytes c ++ List.replicate (4096 - (ctlBytes c).length) 0

theorem ctlArea_length (c : Course) : (ctlArea c).length = 4096 := by
  rw [ctlArea, List.length_append, List.length_replicate, ctlBytes_length]

theorem drain_none {w : W} {c : Course} (hf : ∀ f ∈ w.flights, sameTag c f = false) : drain w c = (w, c) := by
  simp only [drain, partition_none hf, List.foldl_nil]

theorem gather_near (e : Env) (w : W) {c : Course} (h : NearLines c) : gather e w c = (w, c) := by
  have hfar : (c.v.lines.filter fun x => x.2.quad != quadOf c) = [] := List.filter_eq_nil_iff.mpr fun p hp => by simp [h p hp]
  simp only [gather, hfar, if_true]

/-- A course's control area can be written to its frame, and no block has to be enciphered again. -/
structure CtlWritable (e : Env) (w : W) (c : Course) (ls : List (Loc × Nat × Nat)) : Prop where
  places : ctxPlaces e w (pcnOf w c.v.hcore) c.id.part (slotWorld c 0) (c.id.frame + 0x2000) 4096 .write = .ok ls
  bound : placesScrub w ls = none
  tag : SameCtxTag w (slotWorld c 0) ls

theorem writeControl_writable {e : Env} {w : W} {c : Course} {ls : List (Loc × Nat × Nat)} (h : CtlWritable e w c ls) :
    ∃ ps, writeControl e w c = .ok { gatherAt w (placeKeys ls) (ctlArea c) with poison := ps } :=
  ctxWrite_tagged (bs := ctlArea c) _ ((ctlArea_length c).symm ▸ h.places) h.bound h.tag

/-- A course with nothing under way and no line elsewhere leaves its slot: its control area is written. -/
theorem leaveSlot_written {e : Env} {w v : W} {c : Course} (hf : ∀ f ∈ w.flights, sameTag c f = false) (hn : NearLines c)
    (hw : writeControl e w (leftWith c (c.w.buf != [] || keepsOpen c.k.await)) = .ok v) :
    leaveSlot e w c = (v, leftWith c (c.w.buf != [] || keepsOpen c.k.await)) := by
  unfold leaveSlot
  simp only [drain_none hf, gather_near e w hn]
  split
  next h =>
    have hv := h.symm.trans hw
    cases hv
    rfl
  next h => exact nomatch h.symm.trans hw

theorem leaveSlot_shut {e : Env} {w : W} {c : Course} {ls : List (Loc × Nat × Nat)} (hf : ∀ f ∈ w.flights, sameTag c f = false)
    (hb : c.w.buf = []) (hn : NearLines c) (ha : keepsOpen c.k.await = false) (hw : CtlWritable e w (leftSlot c) ls) :
    ∃ ps, leaveSlot e w c = ({ gatherAt w (placeKeys ls) (ctlArea (leftSlot c)) with poison := ps }, leftSlot c) := by
  obtain ⟨ps, hps⟩ := writeControl_writable hw
  have shut : (c.w.buf != [] || keepsOpen c.k.await) = false := by rw [hb, ha]; rfl
  refine ⟨ps, ?_⟩
  have h := leaveSlot_written (e := e) (w := w) (c := c) hf hn (v := { gatherAt w (placeKeys ls) (ctlArea (leftSlot c)) with poison := ps })
    (by rw [shut]; exact hps)
  rwa [shut] at h

/-! ## Parking -/

/-- A course that parks, still in its slot (R142). -/
def parking (c : Course) (cause : Nat) (aw : Await) (join : Nat) (dl : Option Nat) : Course :=
  { c with k := { c.k with at_ := .parked, cause := cause, await := aw, join := join, deadline := dl, prio := prioOf c } }

/-- A course that has parked; a counter of 0 makes its record ready, the last of its queue (R142). -/
def parkedOut (c : Course) (cause : Nat) (aw : Await) (join : Nat) (dl : Option Nat) (order : Nat) : Course :=
  let d := leftSlot (parking c cause aw join dl)
  if join = 0 then { d with k := { d.k with join := 0, at_ := .ready, order := order, deadline := none } } else d

theorem haltCause_congr {w v : W} {c d : Course} (hc : v.consorts = w.consorts) (hp : v.parts = w.parts) (hid : d.id = c.id) :
    haltCause v d = haltCause w c := by
  unfold haltCause consort? part
  rw [hc, hp, hid]

theorem enterReady_free {w : W} {c : Course} (hp : hasPend c = false) (hh : haltCause w c = none) : enterReady w c =
    setCourse { w with nextOrder := w.nextOrder + 1 } { c with k := { c.k with join := 0, at_ := .ready, order := w.nextOrder, deadline := none } } := by
  have hh' : haltCause { w with nextOrder := w.nextOrder + 1 } c = none := hh
  simp only [enterReady, hp, Bool.false_eq_true, if_false, hh']

theorem parkCourse_of_leaveSlot {e : Env} {w v : W} {c d : Course} {cause join : Nat} {aw : Await} {dl : Option Nat}
    (h : leaveSlot e w (parking c cause aw join dl) = (v, d)) :
    parkCourse e w c cause aw join dl = if d.k.join = 0 then enterReady v d else setCourse v d := by
  unfold parking at h
  unfold parkCourse
  simp only [h]

theorem parkCourse_shut {e : Env} {w : W} {c : Course} {cause join : Nat} {aw : Await} {dl : Option Nat} {ls : List (Loc × Nat × Nat)}
    (hf : ∀ f ∈ w.flights, sameTag c f = false) (hb : c.w.buf = []) (hn : NearLines c) (ha : keepsOpen aw = false)
    (hw : CtlWritable e w (leftSlot (parking c cause aw join dl)) ls)
    (free : join = 0 → hasPend c = false ∧ haltCause w c = none) :
    ∃ ps o, parkCourse e w c cause aw join dl = setCourse
      { gatherAt w (placeKeys ls) (ctlArea (leftSlot (parking c cause aw join dl))) with poison := ps, nextOrder := o }
      (parkedOut c cause aw join dl w.nextOrder) := by
  obtain ⟨ps, hps⟩ := leaveSlot_shut (c := parking c cause aw join dl) hf hb hn ha hw
  have hjoin : (leftSlot (parking c cause aw join dl)).k.join = join := rfl
  rw [parkCourse_of_leaveSlot hps, hjoin, parkedOut, gatherAt_frame]
  by_cases hj : join = 0
  · obtain ⟨hp, hh⟩ := free hj
    simp only [if_pos hj]
    exact ⟨ps, w.nextOrder + 1, enterReady_free hp ((haltCause_congr rfl rfl rfl).trans hh)⟩
  · simp only [if_neg hj]
    exact ⟨ps, w.nextOrder, rfl⟩

end Sys2Proof.Claims
end

section
/-! What a park at a marker leaves of the registers, of memory and of the machine (R142). -/

namespace Sys2Proof.Claims

open Sys2Proof.Machine

/-! ## The parked course -/

section
variable (c : Course) (cause : Nat) (aw : Await) (join : Nat) (dl : Option Nat) (o : Nat)

theorem parkedOut_id : (parkedOut c cause aw join dl o).id = c.id := by unfold parkedOut; split <;> rfl
theorem parkedOut_r : (parkedOut c cause aw join dl o).r = c.r := by unfold parkedOut; split <;> rfl
theorem parkedOut_v : (parkedOut c cause aw join dl o).v =
    { c.v with resid := residMask (parking c cause aw join dl), held := true, flushed := false, pref := 0 } := by
  unfold parkedOut
  split <;> rfl
theorem parkedOut_w : (parkedOut c cause aw join dl o).w.used = 0 ∧ (parkedOut c cause aw join dl o).w.buf = c.w.buf ∧
    (parkedOut c cause aw join dl o).w.isOpen = false := by
  unfold parkedOut
  split <;> exact ⟨rfl, rfl, rfl⟩
theorem parkedOut_at : (parkedOut c cause aw join dl o).k.at_ = if join = 0 then .ready else .parked := by
  unfold parkedOut
  split <;> rfl
theorem parkedOut_join : (parkedOut c cause aw join dl o).k.join = join := by
  unfold parkedOut
  split
  next h => exact h.symm
  · rfl
theorem parkedOut_deadline (h : join = 0 → dl = none) : (parkedOut c cause aw join dl o).k.deadline = dl := by
  unfold parkedOut
  split
  next hj => exact (h hj).symm
  · rfl
theorem parkedOut_k : (parkedOut c cause aw join dl o).k.cause = cause ∧ (parkedOut c cause aw join dl o).k.await = aw ∧
    (parkedOut c cause aw join dl o).k.prio = prioOf c := by
  unfold parkedOut
  split <;> exact ⟨rfl, rfl, rfl⟩

/-- Readiness is no part of the control area. -/
theorem ctlBytes_parkedOut : ctlBytes (parkedOut c cause aw join dl o) = ctlBytes (leftSlot (parking c cause aw join dl)) := by
  unfold parkedOut
  split <;> rfl

end

/-! ## The priority of a record (R142) -/

/-- The greatest of a list, counted from m: none is greater, and it is m or one of them. -/
theorem foldl_max (f : Nat → Nat) (l : List Nat) : ∀ m, m ≤ l.foldl (fun m k => max m (f k)) m ∧
    (∀ k ∈ l, f k ≤ l.foldl (fun m k => max m (f k)) m) ∧
    (l.foldl (fun m k => max m (f k)) m = m ∨ ∃ k ∈ l, f k = l.foldl (fun m k => max m (f k)) m) := by
  induction l with
  | nil => exact fun m => ⟨le_refl _, fun _ h => (nomatch h), .inl rfl⟩
  | cons a l ih =>
    intro m
    obtain ⟨h1, h2, h3⟩ := ih (max m (f a))
    simp only [List.foldl_cons, List.mem_cons, forall_eq_or_imp, exists_eq_or_imp]
    refine ⟨(le_max_left _ _).trans h1, ⟨(le_max_right _ _).trans h1, h2⟩, ?_⟩
    rcases h3 with h3 | h3
    · rcases max_choice m (f a) with hm | hm
      · exact .inl (h3.trans hm)
      · exact .inr (.inl (hm.symm.trans h3.symm))
    · exact .inr (.inr h3)

theorem mem_liveParked {c : Course} {k : Nat} : k ∈ mLanes (liveParked c) ↔ k < 32 ∧ (laneSt c k = 1 ∨ laneSt c k = 2) := by
  rw [mem_mLanes]
  simp [liveParked]

/-- A record's priority is the highest of its live and parked lanes' owners. -/
theorem prioOf_spec {c : Course} (live : liveParked c ≠ 0) :
    (∀ k, k < 32 → laneSt c k = 1 ∨ laneSt c k = 2 → slotPrio c (own c k) ≤ prioOf c) ∧
    ∃ k, k < 32 ∧ (laneSt c k = 1 ∨ laneSt c k = 2) ∧ slotPrio c (own c k) = prioOf c := by
  obtain ⟨-, bound, top⟩ := foldl_max (fun k => slotPrio c (own c k)) (mLanes (liveParked c)) 0
  refine ⟨fun k hk hl => bound k (mem_liveParked.mpr ⟨hk, hl⟩), ?_⟩
  rcases top with h0 | ⟨k, hk, he⟩
  · obtain ⟨k, hk⟩ := exists_mHas live
    have hm := mem_mLanes.mpr hk
    obtain ⟨hlt, hl⟩ := mem_liveParked.mp hm
    have hle := bound k hm
    rw [h0] at hle
    exact ⟨k, hlt, hl, (Nat.le_zero.mp hle).trans h0.symm⟩
  · obtain ⟨hlt, hl⟩ := mem_liveParked.mp hk
    exact ⟨k, hlt, hl, he⟩

theorem own_lt (c : Course) (k : Nat) : own c k < 8 := bitsAt_lt _ _ _

/-- The priority is that of slots which differ in LANECYC alone. -/
theorem slotPrio_slotsBut {c c' : Course} (h : SlotsBut c c') {n : Nat} (hn : n < 8) : slotPrio c' n = slotPrio c n :=
  bvF_congr fun i _ h2 => h n hn i (by omega)

theorem slotWorld_slotsBut {c c' : Course} (h : SlotsBut c c') {n : Nat} (hn : n < 8) : slotWorld c' n = slotWorld c n :=
  bvF_congr fun i _ h2 => h n hn i (by omega)

end Sys2Proof.Claims
end

section
/-! A park at a marker: everything that it leaves (R58, R60, R142). -/

namespace Sys2Proof.Claims

open Sys2Proof.Machine

/-- The course that parks at a marker, once its issue has settled. -/
def atMark (s : State) (x : Sel) : Course := settledAt s.w.now (advance x.c x.x 4) x true false

/-- The state in which it parks: the issue counted. -/
def markState (s : State) (x : Sel) : W := counted s.w (pcnOf s.w x.c.v.hcore) x.started

section
variable (s : State) (x : Sel)

theorem atMark_id : (atMark s x).id = x.c.id := settledAt_id ..
theorem atMark_v : (atMark s x).v = x.c.v := settledAt_v ..
theorem atMark_r : (atMark s x).r = { (advance x.c x.x 4).r with slots := (atMark s x).r.slots } := by
  rw [atMark, settledAt_r]
theorem atMark_slots : SlotsBut x.c (atMark s x) := settledAt_slots s.w.now (advance x.c x.x 4) x true false
theorem atMark_buf : (atMark s x).w.buf = [] := by rw [atMark, settledAt_w]; rfl
theorem atMark_sameTag (f : Flight) : sameTag (atMark s x) f = sameTag x.c f := by
  obtain ⟨wait, turn, hk⟩ := settledAt_k s.w.now (advance x.c x.x 4) x true false
  have hk' : (atMark s x).k = { x.c.k with wait := wait, turn := turn, age := s.w.now + 1 } := hk
  simp only [sameTag, quadOf, atMark_id, atMark_v, hk']

theorem atMark_own (k : Nat) : own (atMark s x) k = own x.c k := by simp only [own, atMark_id]
theorem atMark_laneSt (k : Nat) : laneSt (atMark s x) k = laneSt x.c k := by rw [laneSt, atMark_r]; rfl
theorem atMark_slotPrio (k : Nat) : slotPrio (atMark s x) (own (atMark s x) k) = slotPrio x.c (own x.c k) := by
  rw [atMark_own, slotPrio_slotsBut (atMark_slots s x) (own_lt _ _)]

theorem markState_eq : markState s x = { s.w with cores := (markState s x).cores } := counted_eq ..

end

/-- What stands in the frame after the park. -/
def markArea (s : State) (x : Sel) (cause : Nat) (aw : Await) (join : Nat) (dl : Option Nat) : List Byte :=
  ctlArea (leftSlot (parking (atMark s x) cause aw join dl))

section
variable {s : State} {x : Sel} {ls : List (Loc × Nat × Nat)} {cause join : Nat} {aw : Await} {dl : Option Nat}

/-- What stops an access of the context space stands in no core. -/
theorem ctxPlaces_withCores (e : Env) (w : W) (co : Tbl CoreSt) (row p wd va n : Nat) (nd : Need) :
    ctxPlaces e { w with cores := co } row p wd va n nd = ctxPlaces e w row p wd va n nd := rfl

/-- The frame that takes the course's control area takes that of the parked course. -/
theorem Saves.writable (h : Saves s x ls) : CtlWritable s.env (markState s x) (leftSlot (parking (atMark s x) cause aw join dl)) ls := by
  have hid : (leftSlot (parking (atMark s x) cause aw join dl)).id = x.c.id := atMark_id s x
  have hc : (leftSlot (parking (atMark s x) cause aw join dl)).v.hcore = x.c.v.hcore := congrArg (·.hcore) (atMark_v s x)
  have hw : slotWorld (leftSlot (parking (atMark s x) cause aw join dl)) 0 = slotWorld x.c 0 :=
    slotWorld_slotsBut (atMark_slots s x) (by omega)
  rw [markState_eq]
  exact ⟨by rw [hid, hc, hw]; exact (ctxPlaces_withCores ..).trans h.places, h.bound, hw.symm ▸ h.tag⟩

/-- The state after the park, written out. -/
theorem parkMark_eq (hQ : Quiet s x true) (hS : Saves s x ls) (ha : keepsOpen aw = false) (free : join = 0 → Free s x.c) :
    ∃ ps o, parkMark s.env s.w (advance x.c x.x 4) x cause aw join dl = { s.w with
      wb := (gatherAt (markState s x) (placeKeys ls) (markArea s x cause aw join dl)).wb
      cores := (markState s x).cores
      poison := ps
      nextOrder := o
      courses := tPut s.w.courses x.c.id.cid (parkedOut (atMark s x) cause aw join dl s.w.nextOrder) } := by
  obtain ⟨hb, hf⟩ := hQ.resolve_left (by simp)
  have settled : parkMark s.env s.w (advance x.c x.x 4) x cause aw join dl =
      parkCourse s.env (markState s x) (atMark s x) cause aw join dl := by
    unfold parkMark
    rw [settle_quiet s.env (c := advance x.c x.x 4) x false (.inr ⟨hb, hf⟩)]
    rfl
  have flights : (markState s x).flights = s.w.flights := counted_flights ..
  have near : NearLines (atMark s x) := fun p hp => by
    rw [quadOf, atMark_v] at *
    exact hS.near p hp
  have free' : join = 0 → hasPend (atMark s x) = false ∧ haltCause (markState s x) (atMark s x) = none := fun h => by
    obtain ⟨hh, hp⟩ := free h
    exact ⟨by rw [hasPend, atMark_v]; exact hp, by rw [markState_eq]; exact (haltCause_congr rfl rfl (atMark_id s x)).trans hh⟩
  obtain ⟨ps, o, hp⟩ := parkCourse_shut (e := s.env) (cause := cause) (join := join) (aw := aw) (dl := dl)
    (by rw [flights]; exact fun f h => (atMark_sameTag s x f).trans (hf f h)) (atMark_buf s x) near ha hS.writable free'
  refine ⟨ps, o, ?_⟩
  have horder : (markState s x).nextOrder = s.w.nextOrder := by rw [markState_eq]
  rw [settled, hp, gatherAt_frame, setCourse, parkedOut_id, atMark_id, horder, ← markArea]
  rw [markState_eq]

end
end Sys2Proof.Claims
end

section
/-! YIELD, SLEEP and WAITTL (R282, R283). -/

namespace Sys2Proof.Claims

open Sys2Proof.Machine

theorem getV_lines {c c' : Course} (hl : c'.v.lines = c.v.lines) (hq : quadOf c' = quadOf c) (r : Nat) : getV c' r = getV c r := by
  simp only [getV, cached?, hl, hq]

theorem poisV_lines {c c' : Course} (hl : c'.v.lines = c.v.lines) (hq : quadOf c' = quadOf c) (r : Nat) : poisV c' r = poisV c r := by
  simp only [poisV, cached?, hl, hq]

/-- A reading of memory after the writes that a step gathered. -/
theorem rd_gathered {s : State} {F : Env → W → W} (hm : s.mem.wf = true) (a : Nat) :
    (commit F s).mem.rd a = rdW s.mem (F s.env s.w).wb a := rd_flush _ hm a

/-- What an instruction leaves that parks its course at a marker, the lanes of X at the next instruction (R60, R142). -/
theorem parkMark_spec {s : State} {x : Sel} {F : Env → W → W} {ls : List (Loc × Nat × Nat)} {cause join : Nat} {aw : Await}
    {dl : Option Nat} (hI : Issues s x) (hQ : Quiet s x true) (hS : Saves s x ls) (ha : keepsOpen aw = false)
    (free : join = 0 → Free s x.c) (hdl : join = 0 → dl = none)
    (hF : F s.env s.w = parkMark s.env s.w (advance x.c x.x 4) x cause aw join dl) :
    ∃ c', ParkStill s (commit F s) ∧ Keeps x.c c' [] [] [] [] ∧ FlagsKept x.c c' ∧ Advanced x c' 4 ∧
      Parked s (commit F s) x c' ls cause aw join dl := by
  obtain ⟨ps, o, hp⟩ := parkMark_eq (s := s) (cause := cause) (join := join) (dl := dl) hQ hS ha free
  set c' := parkedOut (atMark s x) cause aw join dl s.w.nextOrder with hc'
  have hFw := hF.trans hp
  have hw : (commit F s).w = { F s.env s.w with wb := [] } := rfl
  have hr : c'.r = { (advance x.c x.x 4).r with slots := c'.r.slots } := by
    have : c'.r = (atMark s x).r := parkedOut_r ..
    rw [this]
    exact atMark_r s x
  have hslots : SlotsBut x.c c' := fun n hn i hi => by
    have : slotBits c' n = slotBits (atMark s x) n := by rw [slotBits, hc', parkedOut_r]; rfl
    rw [this]
    exact atMark_slots s x n hn i hi
  have hid : c'.id = x.c.id := (parkedOut_id ..).trans (atMark_id s x)
  have hv : c'.v = { x.c.v with resid := c'.v.resid, held := true, flushed := false, pref := 0 } := by
    rw [hc', parkedOut_v, atMark_v]
  have lines : c'.v.lines = x.c.v.lines := by rw [hv]
  have quad : quadOf c' = quadOf x.c := by rw [quadOf, hv]; rfl
  have still : ParkStill s (commit F s) := by
    refine ⟨?_, fun n => ?_⟩
    · rw [hw, hFw, ← hI.wb]
    · rw [hw, hFw]
      exact sameCores_counted s.w _ x.started n
  have keeps : Keeps x.c c' [] [] [] [] := keeps_of (d := { advance x.c x.x 4 with v := c'.v }) rfl hr hslots
    (fun r _ => ⟨getV_lines lines quad r, poisV_lines lines quad r⟩) (fun _ _ _ => rfl) (fun _ _ _ => rfl) (fun _ _ _ => rfl)
    rfl rfl rfl rfl (fun _ _ _ _ _ => rfl)
  have adv : Advanced x c' 4 := fun k hk => by
    have : lpc c' k = lpc (advance x.c x.x 4) k := by rw [lpc, hr]; rfl
    rw [this, lpc_advance _ _ _ hk]
  have area : markArea s x cause aw join dl = ctlArea c' := by
    rw [markArea, ctlArea, ctlArea, hc', ctlBytes_parkedOut]
  have wb : (F s.env s.w).wb = (gatherAt (markState s x) (placeKeys ls) (ctlArea c')).wb := by rw [hFw, area]
  have length : (placeKeys ls).length = (ctlArea c').length := (ctxPlaces_ok hS.places).trans (ctlArea_length c').symm
  obtain ⟨hused, hbuf, hopen⟩ := parkedOut_w (atMark s x) cause aw join dl s.w.nextOrder
  obtain ⟨hcause, hawait, hprio⟩ := parkedOut_k (atMark s x) cause aw join dl s.w.nextOrder
  have live : liveParked (atMark s x) ≠ 0 := hI.live_ne (by rw [atMark_r]; rfl)
  obtain ⟨bound, k, hk, hl, top⟩ := prioOf_spec live
  refine ⟨c', still, keeps, hslots.flags, adv, ?_⟩
  exact
    { here := by rw [hw, hFw]; exact tGet?_tPut_same _ _ _
      id := hid
      at_ := parkedOut_at ..
      cause := hcause
      await := hawait
      join := parkedOut_join ..
      deadline := parkedOut_deadline _ _ _ _ _ _ hdl
      window := ⟨hused, hbuf.trans (atMark_buf s x), hopen⟩
      prio := by
        rw [hprio]
        simp only [atMark_slotPrio, atMark_laneSt] at bound hl top
        exact ⟨bound, k, hk, hl, top⟩
      others := fun n hn => by rw [hw, hFw]; exact tGet?_tPut_other _ _ hn
      charge := fun n hn => by
        have : slotLanecyc c' n = slotLanecyc (atMark s x) n := by rw [slotLanecyc, slotF, slotBits, hc', parkedOut_r]; rfl
        rw [this]
        exact settledAt_lanecyc s.w.now (advance x.c x.x 4) x true false hn
      saved := by
        rw [List.map_congr_left fun a _ => (rd_gathered hI.mem a).trans (by rw [wb]), rdW_gatherAt_same _ hS.apart _ _ length]
        rfl
      mem := fun a ha' => by
        rw [rd_gathered hI.mem, wb, rdW_gatherAt_other _ ha', markState_eq]
        show rdW s.mem s.w.wb a = _
        rw [hI.wb]
        rfl
      fix := rfl }

end Sys2Proof.Claims
end

section
/-! O17 settled. -/

namespace Sys2Proof.Claims

open Sys2Proof.Machine

/-- An instruction's uses, where its guard is true. -/
theorem Clear.uniReads {s : State} {x : Sel} {h : Hd} {u : Uses} {m : Mask} (hC : Clear s x (uniUses h u) m) (hg : guardOn x.c h = true) :
    Clear s x (uniReads x.c h u) m := by
  rw [Machine.uniReads, if_pos hg]
  exact hC

/-- A word with a switch marker, set or not. -/
def marked (h : Hd) : Hd := { h with sw := true }

/-- What SLEEP does once its checks pass (R282). -/
def sleepBody (a : R64) : Meaning := fun e w x =>
  if (getS x.c a.val).toNat = 0 then parkMark e w (advance x.c x.x 4) x 0x84 .nothing 0 none
  else parkMark e w (advance x.c x.x 4) x 0x81 .sleep 1 (some (w.now + (getS x.c a.val).toNat))

theorem exec_sleep (h : Hd) (a : R64) (s : State) :
    exec (.sleep h a) s = runIssue (uniform (marked h) { Uses.none with s := [a.val] } (sleepBody a)) s := rfl

theorem yieldAndSleepHold : YieldAndSleepHold := by
  rintro i h t hi s x ls hI hC hQ hg hS hF n
  have run : ∀ (u : Uses) (f : Meaning), Clear s x (uniUses (marked h) u) x.x →
      uniform (marked h) u f s.env s.w x = f s.env s.w x := fun u f hC =>
    uniformC_run (h := marked h) (Clear.uniReads hC hg) hQ hg rfl
  have yields : ∀ (u : Uses), Clear s x (uniUses (marked h) u) x.x → ∀ f : Meaning,
      f s.env s.w x = parkMark s.env s.w (advance x.c x.x 4) x 0x84 .nothing 0 none →
      ∃ t c', runIssue (uniform (marked h) u f) s = .next t ∧ ParkStill s t ∧ Keeps x.c c' [] [] [] [] ∧ FlagsKept x.c c' ∧
        Advanced x c' 4 ∧ Parked s t x c' ls 0x84 .nothing 0 none := fun u hC f hf => by
    obtain ⟨c', hp⟩ := parkMark_spec (F := fun e w => uniform (marked h) u f e w x) hI hQ hS rfl (fun _ => hF) (fun _ => rfl)
      ((run u f hC).trans hf)
    exact ⟨_, c', runIssue_next _ hI, hp⟩
  rcases hi with ⟨rfl, rfl⟩ | ⟨a, rfl, rfl⟩
  · simp only [n, if_true]
    exact yields Uses.none hC (fun e w s => parkMark e w (advance s.c s.x 4) s 0x84 .nothing 0 none) rfl
  · rw [exec_sleep]
    by_cases h0 : (getS x.c a.val).toNat = 0
    · simp only [n, h0, if_true]
      exact yields _ hC (sleepBody a) (if_pos h0)
    · simp only [n, h0, if_false]
      obtain ⟨c', hp⟩ := parkMark_spec (F := fun e w => uniform (marked h) { Uses.none with s := [a.val] } (sleepBody a) e w x)
        (join := 1) hI hQ hS rfl (fun h => nomatch h) (fun h => nomatch h) ((run _ (sleepBody a) hC).trans (if_neg h0))
      exact ⟨_, c', runIssue_next _ hI, hp⟩

/-! ## WAITTL (R283) -/

theorem reached_iff (t : Tlc) (n : Word) : t.reached n = true ↔ reachedRel t n := by
  simp [Tlc.reached, isIssued_iff, reachedRel]

/-- A Q predicate written where an instruction has one. -/
def setQ (o : Option R8) (c : Course) (b : Bool) : Course :=
  match o with
  | some q => putQ c q.val b
  | none => c

section
variable (o : Option R8) (c : Course) (b : Bool)

theorem setQ_id : (setQ o c b).id = c.id := by cases o <;> simp [setQ]
theorem setQ_v : (setQ o c b).v = c.v := by cases o <;> simp [setQ]
theorem setQ_w : (setQ o c b).w = c.w := by cases o <;> simp [setQ]
theorem setQ_k : (setQ o c b).k = c.k := by cases o <;> simp [setQ]
theorem setQ_r : (setQ o c b).r = { c.r with q := (setQ o c b).r.q } := by
  cases o with
  | none => rfl
  | some q => simp only [setQ, putQ]; split <;> rfl

end

/-- An instruction with a marker that goes on, writing one Q predicate or none. -/
theorem goesOn_spec {s : State} {x : Sel} {F : Env → W → W} {o : Option R8} {b : Bool} (hI : Issues s x) (hQ : Quiet s x true)
    (hF : F s.env s.w = done s.env s.w (setQ o (advance x.c x.x 4) b) x true false) :
    ∃ c', Ran s (commit F s) x c' ∧ Machine.Still s (commit F s) ∧ (commit F s).w.flights = s.w.flights ∧ FlagsKept x.c c' ∧
      Advanced x c' 4 ∧ WroteQ x c' o b := by
  set c := setQ o (advance x.c x.x 4) b with hc
  have hr : c.r = { (advance x.c x.x 4).r with q := c.r.q } := setQ_r ..
  have hid : c.id = x.c.id := setQ_id ..
  have hv : c.v = x.c.v := setQ_v ..
  have hst : c.r.status = x.c.r.status := by rw [hr]; rfl
  have hslot : ∀ n, slotBits c n = slotBits x.c n := fun n => by rw [slotBits, hr]; rfl
  obtain ⟨c', ran, still, flights, h4, h5, h6, -⟩ := finish_still hI hF rfl hid (hI.live_ne hst)
    (fun n _ => by rw [slotLanecyc, slotF, hslot]; rfl)
    (hQ.of hid (by rw [quadOf, hv]; rfl) (setQ_k ..) (by rw [hc, setQ_w]; rfl))
  have keeps : ∀ qs, (∀ r, r < 8 → r ∉ qs → getQ c r = getQ x.c r) → Keeps x.c c' [] [] [] qs := fun qs hq =>
    keeps_of h4 h5 h6 (fun r _ => ⟨getV_congr hv r, poisV_congr hv r⟩) (fun r _ _ => by rw [getS, hr]; rfl)
      (fun r _ _ => by rw [getP, hr]; rfl) hq (by rw [hr]; rfl) (by rw [hr]; rfl) (by rw [hr]; rfl) hst
      (fun n _ i _ _ => by rw [hslot])
  refine ⟨c', ran, still, flights, fun n hn => ?_, fun k hk => ?_, ?_⟩
  · rw [h6.flags n hn, slotFlags, slotF, hslot]
    rfl
  · have : lpc c' k = lpc (advance x.c x.x 4) k := by rw [lpc, h5, hr]; rfl
    rw [this, lpc_advance _ _ _ hk]
  · cases o with
    | none => exact keeps [] fun _ _ _ => rfl
    | some q =>
      have hq : ∀ r, r < 8 → getQ c r = if r = 7 then true else if r = q.val then b else getQ x.c r := fun r h =>
        getQ_putQ (advance x.c x.x 4) q.val r b q.isLt h
      refine ⟨keeps [q.val] fun r h hn => ?_, ?_⟩
      · have hne : r ≠ q.val := by simpa using hn
        rw [hq r h, if_neg hne]
        split
        next h7 => rw [h7]; rfl
        · rfl
      · have : getQ c' q.val = getQ c q.val := by rw [getQ, h5]; rfl
        rw [this, hq _ q.isLt, if_pos rfl]
        by_cases h7 : q.val = 7 <;> simp [h7]

/-- The registers that WAITTL and WAITTL.DL read (R283). -/
def waitUses (k : Fin 4) (a : R64) (o : Option (R8 × R64)) : Uses :=
  { Uses.none with s := a.val :: (match o with | some (_, b) => [Fin.val b] | none => []), sect := [(sectTL, k.val)] }

/-- The deadline of a wait: the DL form's register, 0 for the other. -/
def waitTicks (x : Sel) (o : Option (R8 × R64)) : Nat := match o with | some (_, b) => (getS x.c (Fin.val b)).toNat | none => 0

section
variable {s : State} {x : Sel} {h : Hd} {k : Fin 4} {a : R64} {o : Option (R8 × R64)}

/-- WAITTL and its DL form: how they go on, and how they park (R283). -/
theorem waitTl_run (hC : Clear s x (uniUses h (waitUses k a o)) x.x) (hQ : Quiet s x true) (hg : guardOn x.c h = true)
    (hk : (getTL x.c k.val).getLsbD 10 = true) (hn : CounterNear s x.c k.val) :
    (reachedRel (tlOf s x.c k.val) (getS x.c a.val) →
      waitTl h k a o s.env s.w x = done s.env s.w (setQ (o.map (·.1)) (advance x.c x.x 4) true) x true false) ∧
    (¬ reachedRel (tlOf s x.c k.val) (getS x.c a.val) → o ≠ none → waitTicks x o = 0 →
      waitTl h k a o s.env s.w x = done s.env s.w (setQ (o.map (·.1)) (advance x.c x.x 4) false) x true false) ∧
    (¬ reachedRel (tlOf s x.c k.val) (getS x.c a.val) → o = none ∨ waitTicks x o ≠ 0 →
      waitTl h k a o s.env s.w x = parkMark s.env s.w (advance x.c x.x 4) x 0x80
        (.timeline (tlAt s x.c k.val).1 (tlAt s x.c k.val).2 (getS x.c a.val) (o.map (·.1))) 1
        (o.map fun _ => s.w.now + waitTicks x o)) := by
  have run : ∀ f : Meaning, uniformC (marked h) (waitUses k a o) (tlCheck k) f s.env s.w x = f s.env s.w x := fun f =>
    uniformC_run (h := marked h) (Clear.uniReads hC hg) hQ hg (tlCheck_valid hk)
  have near : ∀ f : W → W, unlessAway s.env s.w x 0 (tlPlace s.w x.c (getTL x.c k.val)).1 f = f s.w := fun _ => unlessAway_near hn
  cases o with
  | none =>
    have body : waitTl h k a none s.env s.w x = if (tlOf s x.c k.val).reached (getS x.c a.val) then
        done s.env s.w (advance x.c x.x 4) x true false
      else parkMark s.env s.w (advance x.c x.x 4) x 0x80
        (.timeline (tlAt s x.c k.val).1 (tlAt s x.c k.val).2 (getS x.c a.val) none) 1 none := (run _).trans (near _)
    rw [body]
    refine ⟨fun hr => if_pos ((reached_iff _ _).mpr hr), fun _ ho => absurd rfl ho, fun hr _ => if_neg (mt (reached_iff _ _).mp hr)⟩
  | some p =>
    obtain ⟨q, b⟩ := p
    have body : waitTl h k a (some (q, b)) s.env s.w x = if (tlOf s x.c k.val).reached (getS x.c a.val) then
        done s.env s.w (putQ (advance x.c x.x 4) q.val true) x true false
      else if (getS x.c b.val).toNat = 0 then done s.env s.w (putQ (advance x.c x.x 4) q.val false) x true false
      else parkMark s.env s.w (advance x.c x.x 4) x 0x80
        (.timeline (tlAt s x.c k.val).1 (tlAt s x.c k.val).2 (getS x.c a.val) (some q)) 1
        (some (s.w.now + (getS x.c b.val).toNat)) := (run _).trans (near _)
    rw [body]
    refine ⟨fun hr => if_pos ((reached_iff _ _).mpr hr), fun hr _ h0 => ?_, fun hr h0 => ?_⟩
    · rw [if_neg (mt (reached_iff _ _).mp hr)]
      exact if_pos h0
    · rw [if_neg (mt (reached_iff _ _).mp hr)]
      exact if_neg (h0.resolve_left nofun)

end

theorem timelineWaitsHold : TimelineWaitsHold := by
  rintro i h k a o hi s x ls hI hC hQ hg hk hn n d
  have he : exec i s = runIssue (waitTl h k a o) s := by
    rcases hi with ⟨rfl, rfl⟩ | ⟨q, b, rfl, rfl⟩ <;> rfl
  obtain ⟨on, expired, park⟩ := waitTl_run (o := o) hC hQ hg hk hn
  have goes : ∀ b, (b = true ↔ reachedRel (tlOf s x.c k.val) n) →
      waitTl h k a o s.env s.w x = done s.env s.w (setQ (o.map (·.1)) (advance x.c x.x 4) b) x true false →
      ∃ t c', exec i s = .next t ∧ Ran s t x c' ∧ Machine.Still s t ∧ t.w.flights = s.w.flights ∧ FlagsKept x.c c' ∧ Advanced x c' 4 ∧
        ∃ b, (b = true ↔ reachedRel (tlOf s x.c k.val) n) ∧ WroteQ x c' (o.map (·.1)) b := fun b hb hF => by
    obtain ⟨c', h1, h2, h3, h4, h5, h6⟩ := goesOn_spec (F := fun e w => waitTl h k a o e w x) hI hQ hF
    exact ⟨_, c', he.trans (runIssue_next _ hI), h1, h2, h3, h4, h5, b, hb, h6⟩
  refine ⟨fun hr => ?_, fun hr h0 hS => ?_⟩
  · by_cases reached : reachedRel (tlOf s x.c k.val) n
    · exact goes true ⟨fun _ => reached, fun _ => rfl⟩ (on reached)
    · obtain ⟨ho, h0⟩ := hr.resolve_left reached
      exact goes false ⟨nofun, fun h => absurd h reached⟩ (expired reached ho h0)
  · obtain ⟨c', hp⟩ := parkMark_spec (F := fun e w => waitTl h k a o e w x) (join := 1) hI hQ hS rfl (fun h => nomatch h)
      (fun h => nomatch h) (park hr h0)
    exact ⟨_, c', he.trans (runIssue_next _ hI), hp⟩

/-- Settles O17: a wait that ends at once is an instruction that goes on; the others take the park at a marker, whose frame stands in the
bytes written. -/
theorem waits : Obligations.Waits := ⟨yieldAndSleepHold, timelineWaitsHold⟩

end Sys2Proof.Claims
end
